-- ==== Sys2Proof/Word.lean ====
section
/-! DEFINITION. The word types of the Pennan 432 and the sparse table type that its state is made of. -/

namespace Sys2Proof

/-- One byte. -/
abbrev Byte := BitVec 8
/-- A 16-bit word of the Watch Port window (R338). -/
abbrev Half := BitVec 16
/-- A 32-bit register (R325). -/
abbrev Word := BitVec 32
/-- A 64-bit quantity: System Time, virtual addresses as engines form them, seeds, digests. -/
abbrev W64 := BitVec 64

/-- A sparse table: key and value pairs with rising keys; a key that is not listed has the table's default. -/
abbrev Tbl (α : Type) := List (Nat × α)

end Sys2Proof
end

