-- ==== Sys2Proof/Syntax.lean ====
section
/-! DEFINITION. The logical records of Gliari (R2) and the 232 commands of spec/opcode_table.json, one constructor each.
Numbers in records are Nat; WellFormed.lean states their ranges. A squad c.s is c x 16 + s, a context 0 or 1. -/

namespace Sys2Proof

/-- Element formats (R32, R95). -/
inductive Fmt where
  | fp8e4m3 | fp8e5m2 | mxfp8e4m3 | mxfp8e5m2 | mxfp6e2m3 | mxfp6e3m2 | mxfp4 | mxint8
  | bf16 | fp16 | int8 | fp32 | fp32e | int32 | uint8 | uint16 | uint32 | uint64
deriving DecidableEq, Repr

/-- Tile shapes (R27). -/
inductive Shape where
  | t1 | t2r | t2c | t4 | t8 | tm16 | tm1
deriving DecidableEq, Repr

/-- Accumulator formats (R34). -/
inductive AccFmt where
  | fp32 | fp32e | int32
deriving DecidableEq, Repr

/-- NF_STATE (R53). -/
inductive NfState where
  | clean | nonfinite | unknown
deriving DecidableEq, Repr

/-- HOME of a tensor (R95). -/
inductive Home where
  | hbmLocal (c : Nat) | hbmWide | squad (sq : Nat) | distributed
deriving DecidableEq, Repr

/-- The tensor record (R95); dims and strides innermost first. -/
structure TensorRec where
  fmt : Fmt
  dims : List Nat
  strides : List Nat
  home : Home
  base : Nat
  skewed : Bool
  mxAxis : Nat
  scaleTable : Option Nat
  pat24 : Option Nat
  occMap : Option Nat
  mapKDim : Nat
  mapValid : Bool
  frozenMask : Option Nat
  frozenBlock : Bool
  nf : NfState
  srSeed : W64
  srStep : Bool
  statsBacking : Option Nat
deriving DecidableEq, Repr

/-- Operation classes, in the order of R94. -/
inductive Cls where
  | matmul | accum | vector | row | dma | collective | update | huddle | mark | nop
deriving DecidableEq, Repr

inductive Role where
  | read | write | readWrite
deriving DecidableEq, Repr

/-- One of T0 to T3: handle, DIR = COL, role (R94). -/
structure Operand where
  handle : Nat
  col : Bool
  role : Role
deriving DecidableEq, Repr

/-- Element-wise vector operations (R81). -/
inductive VecOp where
  | cast | add | sub | mul | sel
  /-- A forward table of a function slot (R80). -/
  | table (slot : Nat)
  /-- A derivative table with its multiplication by dy (R81). -/
  | tableBwd (slot : Nat)
  /-- The use-order sum of a tied weight's reduced slices, T0 to T2 in use order (R86). -/
  | useSum
deriving DecidableEq, Repr

inductive RowKind where
  | layernorm | rmsnorm | softmax
deriving DecidableEq, Repr

/-- DMA modes (R172). -/
inductive DmaMode where
  | linear | strided | gather | scatter | scatterAdd | prefetch
deriving DecidableEq, Repr

/-- One side's shape: byte counts and signed byte strides (R172). -/
structure DmaShape where
  n0 : Nat
  n1 : Nat
  n2 : Nat
  s1 : Int
  s2 : Int
deriving DecidableEq, Repr

/-- Operations of the combine units (R202). -/
inductive RedOp where
  | addFp32 | addBf16 | maxFp32 | maxBf16 | bitOr | xorFold
deriving DecidableEq, Repr

/-- Collective kinds (R88, R131, R253). -/
inductive CollKind where
  | reduceScatter (owner : Nat) (bf16 : Bool)
  | allGather
  | shortReduce (op : RedOp) (flag : Option Nat) (mbox : Nat)
  | lossVote
deriving DecidableEq, Repr

/-- Huddle scopes (R246). -/
inductive HudScope where
  | squad
  | device (queues : List Nat)
  | slice
deriving DecidableEq, Repr

/-- The OP field by class (R94). -/
inductive Op where
  | none
  | vec (op : VecOp)
  | row (kind : RowKind) (backward : Bool) (eps : Word)
  | dma (mode : DmaMode) (src dst : DmaShape) (elem : Nat)
  | coll (kind : CollKind) (tag : Nat)
  | norm (tagG tagW : Nat)
  | apply (prog : Nat) (commitHuddle : Nat)
  | huddle (scope : HudScope) (number : Nat) (commit : Bool)
deriving DecidableEq, Repr

/-- The MASK field (R60). -/
inductive Mask where
  | none
  | map (handle : Nat)
  | causal (off : Int)
deriving DecidableEq, Repr

/-- A short-pass transfer a descriptor sends at commit: destination device, squad, mailbox, length (R128). -/
structure SendSpec where
  dev : Nat
  squad : Nat
  mbox : Nat
  len : Nat
deriving DecidableEq, Repr

/-- The descriptor record (R94). Flags are paired with their value; SHOT in microseconds; NBT 0 = none; valueSide says of a masked product
of two column operands that it is dP of R60 and not the scores (DESIGN CHOICE, log 29). -/
structure Descriptor where
  cls : Cls
  op : Op
  shape : Shape
  accFmt : AccFmt
  accSet : BitVec 8
  splitK : Nat
  hold : Bool
  chain : Bool
  t : List (Option Operand)
  counts : Option Nat
  groups : Nat
  skipOcc : Bool
  skipZv : Bool
  mask : Mask
  valueSide : Bool
  occGen : Bool
  ovfReport : Bool
  stochastic : Bool
  frozen : Bool
  noDx : Bool
  destTag : Option Nat
  waits : List (Option (Nat × Bool))
  set0 : Option (Nat × Bool)
  set1 : Option (Nat × Bool)
  pred : Option (Nat × Bool)
  nbt : W64
  shot : Nat
  phase : Nat
  send : Option SendSpec
  mbox : Option Nat
deriving DecidableEq, Repr

/-- One table of a function record (R80): coefficients c0 to c3 of each segment; segments not listed are +0. -/
structure FnTable where
  xlo : Word
  p : Int
  segs : Tbl (Word × Word × Word × Word)
  lower : Word × Word
  upper : Word × Word
deriving DecidableEq, Repr

structure FnRecord where
  fwd : FnTable
  deriv : FnTable
deriving DecidableEq, Repr

/-- A register a walker instruction names (R115, R117). -/
inductive WReg where
  | g (n : Nat) | count (l : Nat) | remain (l : Nat) | index (l : Nat)
deriving DecidableEq, Repr

/-- Relations of CMP (R115 names the instruction and no relation; DESIGN CHOICE, log 23). -/
inductive WRel where
  | eq | ne | ltU | leU | ltS | leS
deriving DecidableEq, Repr

/-- Where a stream record points (R112). -/
inductive WTarget where
  /-- A byte range from the address register: HBM (virtual) for MOVE, a squad store otherwise. -/
  | mem
  /-- A buffer of a pool by the handle register, at the offset register. -/
  | pool (pool : Nat) (handle : WReg)
deriving DecidableEq, Repr

/-- What a record names beside its place (R112): of MOVE the layout conversion, by format and row length (R77); of a feeder DIR, first
vector, vector count and slot set, and the 2:4 index entries of a banded operand; of DRAIN a reduction tag; of ROW the stat-pair index;
the note of a handle that the engine pushes (R122). -/
structure EmitArgs where
  conv : Option (Fmt × Nat)
  col : Bool
  first : Nat
  count : Nat
  slots : BitVec 8
  index : Option WReg
  tag : Option Nat
  stat : Option WReg
  note : Option WReg
deriving DecidableEq, Repr

/-- Walker instructions (R115). Branch targets and loop bodies are program positions. -/
inductive WInstr where
  | add (d a b : WReg) | sub (d a b : WReg) | mul (d a b : WReg)
  | and (d a b : WReg) | or (d a b : WReg) | xor (d a b : WReg)
  | shl (d a b : WReg) | shr (d a b : WReg) | min (d a b : WReg) | max (d a b : WReg)
  | cmp (r : WRel) (d a b : WReg) | sel (d c a b : WReg)
  | mov (d a : WReg) | movi (d : WReg) (v : W64)
  | arg (d : WReg) (i : Nat)
  | loop (l : Nat) | endloop (l : Nat)
  | br (t : Nat) | brc (c : WReg) (t : Nat)
  | emit (write : Bool) (addr len aux : WReg) (target : WTarget) (part : Nat) (x : EmitArgs)
  | done
  | attach (pool stream : Nat) (reserve ceiling : WReg) (part : Nat)
  | detach (pool stream : Nat)
  | acquire (pool stream : Nat) (d : WReg)
  | push (q : Nat) (h note : WReg)
  | pop (q : Nat) (h note : WReg)
  | release (pool : Nat) (h : WReg)
deriving DecidableEq, Repr

/-- Layout of one pool and one pass queue of Gliari's plan (R122). -/
structure PoolPlan where
  buffers : Nat
  size : Nat
  base : Nat
deriving DecidableEq, Repr

/-- An end of a pass queue (R122, R123): a walker, the engine of a stream port in the order of R112, or the mesh's deliveries. -/
inductive QEnd where
  | walker (w : Nat) | engine (port : Nat) | mesh
deriving DecidableEq, Repr

structure QueuePlan where
  pool : Nat
  producer : QEnd
  consumer : QEnd
deriving DecidableEq, Repr

/-- A walk library record (R114): programs by number, pool and pass-queue plan (R122). -/
structure WalkLib where
  programs : Tbl (List WInstr)
  pools : Tbl PoolPlan
  queues : Tbl QueuePlan
deriving DecidableEq, Repr

/-- Operand sources of an update instruction (R266, R268). -/
inductive USrc where
  | g | w | m1 | m2 | x (n : Nat) | wOut | m1Out | m2Out | k (n : Nat)
  | sInv | sGn | sClip | sGscale | sWn | sBc1 | sBc2 | sRbc1 | sRbc2 | sLr | sWd | sB (n : Nat) | sT
deriving DecidableEq, Repr

inductive UDst where
  | x (n : Nat) | wOut | m1Out | m2Out
deriving DecidableEq, Repr

/-- Update program instructions (R267). -/
inductive UInstr where
  | add (d : UDst) (a b : USrc) | sub (d : UDst) (a b : USrc) | mul (d : UDst) (a b : USrc)
  | fma (d : UDst) (a b c : USrc) | sqrt (d : UDst) (a : USrc) | rsqrt (d : UDst) (a : USrc)
  | max (d : UDst) (a b : USrc) | min (d : UDst) (a b : USrc) | abs (d : UDst) (a : USrc)
  | sel (d : UDst) (c a b : USrc) | clamp (d : UDst) (a lo hi : USrc) | scl (d : UDst) (a : USrc) (n : Int)
deriving DecidableEq, Repr

/-- An update program record (R265). -/
structure UpdProgram where
  code : List UInstr
  k : List Word
  beta1 : Word
  beta2 : Word
  sr : List Bool
deriving DecidableEq, Repr

/-- Window kinds of a step plan (R242). -/
inductive WinKind where
  | forward | backward | exchange | update | commit | maintenance | host
deriving DecidableEq, Repr

structure Window where
  kind : WinKind
  start : Nat
  len : Nat
  phaseLo : Nat
  phaseHi : Nat
deriving DecidableEq, Repr

/-- The step plan record (R242). -/
structure StepPlan where
  planLength : Nat
  stepsTotal : Nat
  deadline : W64
  windows : List Window
deriving DecidableEq, Repr

/-- One entry of a shard record (R259). -/
structure ShardEntry where
  w0 : Nat
  w1 : Nat
  m1 : Option (Nat × Nat)
  m2 : Option (Nat × Nat)
  grad : Nat
  group : Nat
  pairH : Nat
  m1H : Nat
  m2H : Nat
deriving DecidableEq, Repr

structure Shard where
  entries : List ShardEntry
  rank : Nat
  paired : Bool
deriving DecidableEq, Repr

/-- The slice part of the shape plan (R10, R89, R226, R278): device IDs by rank, the other side's root, and the send ring: its virtual address,
the buckets that it holds (0 for the default of two), the bytes of one. -/
structure SlicePlan where
  ids : List Nat
  pairRoot : Nat
  ringVa : Nat
  ringBuckets : Nat
  bucketBytes : Nat
deriving DecidableEq, Repr

/-- The step parameter block (R262). -/
structure Spb where
  step : Nat
  groups : Nat
  lr : List Word
  wd : List Word
  clip : Word
  static : Bool
  scal : List Word
  check : Word
deriving DecidableEq, Repr

/-- The commit vote (R275). -/
structure Vote where
  step : Word
  growth : Nat
  exp : Nat
  ready : Bool
  reason : Nat
  digest : W64
  count : Nat
  round : Nat
deriving DecidableEq, Repr

/-- Packet types (R212). -/
inductive PktType where
  | redData | redCtrl | huddle | flag | time | short | bulkWrite | bulkReadReq | bulkReadData | pair
deriving DecidableEq, Repr

/-- A packet: its header (R212) and data. -/
structure Packet where
  dst : Nat
  src : Nat
  slice : Nat
  ctx : Nat
  dstSquad : Nat
  len : Nat
  ptype : PktType
  tag : Nat
  epoch : Nat
  off : Nat
  body : List Byte
deriving DecidableEq, Repr

/-- KIND of a link flit (R211). -/
inductive FlitKind where
  | idle | first | cont | lctl
deriving DecidableEq, Repr

/-- A link flit with its frame byte (R211): SEQ, VC, KIND, ACK with ACK_VALID, the credits returned, BODY without the zeros that fill it,
CRC. -/
structure Flit where
  seq : Nat
  vc : Nat
  kind : FlitKind
  ack : Option Nat
  creditVc : Nat
  credits : Nat
  body : List Byte
  crc : Word
deriving DecidableEq, Repr

/-- A flit as it arrives, with the symbols in error of the codeword that ends in it or that it lies in (R209, R210). -/
structure RxFlit where
  flit : Flit
  errs : Nat
deriving DecidableEq, Repr

/-- What a training settles (R209): whether the two ends ask for precoding, and the lanes' coefficients. -/
structure TrainSet where
  own : Bool
  peer : Bool
  coef : List Byte
deriving DecidableEq, Repr

/-- What goes wrong while a tile drains: bits in error by slot and cell, and the block type of a detector that fires in the verdict's
cycle, or 0 (R307). -/
structure DrainFaults where
  cells : List (Nat × Nat × W64)
  det : Nat
deriving DecidableEq, Repr

/-- What a stack reports at a refresh (R132): its temperature, and its on-die ECC reports since the last one. -/
structure StackReport where
  temp : Nat
  odEcc : Nat
deriving DecidableEq, Repr

/-- The identity block (R231). -/
structure Identity where
  serial : W64
  devId : Nat
  port : Nat
  role : Nat
  rev : Word
  lanes : Nat
deriving DecidableEq, Repr

/-- A short-pass message (R128): which message of how many of its transfer; the tag of the reduction whose result it carries, or 0. -/
structure ShortMsg where
  srcDev : Nat
  srcSquad : Nat
  ctx : Nat
  squad : Nat
  mbox : Nat
  seq : Nat
  index : Nat
  count : Nat
  len : Nat
  tag : Nat
  data : List Byte
deriving DecidableEq, Repr

/-- A packet of the memory system or a host port at an edge router or a squad of a channel (R195, R197), and whether it comes from or goes
to the host port of E13. -/
structure MemPacket where
  pkt : Packet
  host : Bool
deriving DecidableEq, Repr

/-- A huddle packet (R247): arrival of ranks lo to hi, or completion. -/
structure HuddlePkt where
  ctx : Nat
  number : Nat
  epoch : Nat
  lo : Nat
  hi : Nat
  done : Bool
deriving DecidableEq, Repr

/-- The whistle's body (R236). -/
structure Whistle where
  t : W64
  c : Nat
  master : Nat
  hops : Nat
deriving DecidableEq, Repr

/-- A decision sent down the commit tree or answered (R277, R282). -/
structure Decision where
  step : Word
  reason : Nat
  digest : W64
  round : Nat
deriving DecidableEq, Repr

/-- A ledger record offered by a block of the device (R310, R393). -/
structure Offer where
  code : Nat
  sev : Nat
  fclass : Nat
  srcType : Nat
  srcInst : Nat
  payload : List Byte
deriving DecidableEq, Repr

/-- A memory requester (R145): who asked, for the indication's consequence. -/
inductive Requester where
  | host
  | engine (ctx : Nat) (queue : Nat) (srcType srcInst : Nat)
  | dma (c d : Nat)
  | table (ctx : Nat) (queue : Nat) (srcType srcInst : Nat) (va : W64) (level : Nat)
  | spill (c : Nat)
  | scrub
deriving DecidableEq, Repr

/-- An engine named by a command. -/
inductive Engine where
  | array (sq : Nat) | vector (sq : Nat) | row (sq : Nat) | update (sq : Nat) | fetch (sq : Nat)
  | dma (c d : Nat) | collective (tag : Nat) | dispatcher (q : Nat)
deriving DecidableEq, Repr

/-- What X_FENCE.CLEAR is written on (R332). -/
inductive FenceTarget where
  | squad (sq : Nat) | dma (c d : Nat) | port (n : Nat)
deriving DecidableEq, Repr

/-- What bring-up of one channel's stacks finds (R159): stacks with a wrong identity; pseudo-channels and failing lines in
training; queued rows whose repair fails; marked lines that pass their test. -/
structure BringUp where
  badStacks : List Nat
  badLines : List (Nat × List Nat)
  rowFails : List Nat
  linesPass : List Nat
  badSeam : List (Nat × Nat)
deriving DecidableEq, Repr

/-- The firmware image a boot fetches (R361): header fields and bytes; fetched says that the read completed. -/
structure Image where
  stepping : Nat
  version : Word
  security : Nat
  headerOk : Bool
  fetched : Bool
  bytes : List Byte
deriving DecidableEq, Repr

/-- A BAR2 access: bytes, or the place where the host writes one of Gliari's logical records (R2; DESIGN CHOICE, log 7). -/
inductive Bar2Op where
  | read (off len : Nat)
  | write (off : Nat) (data : List Byte)
  /-- A poisoned write received (R345). -/
  | poisonedWrite (off len : Nat)
  | putTensor (ctx handle : Nat) (r : TensorRec)
  | putShard (ctx : Nat) (r : Shard)
  | putSlice (ctx : Nat) (r : SlicePlan)
  | putSpb (ctx : Nat) (r : Spb)
deriving DecidableEq, Repr

/-- Temperatures in units of 0.25 degrees C (R338): die and stack of the hottest, by channel. -/
structure Temps where
  die : List Nat
  stack : List Nat
deriving DecidableEq, Repr

/-- The commands: the rows of spec/opcode_table.json in the table's order. Host commands are writes through the active port
(DESIGN CHOICE, log 24) unless they name a port; false = A, true = B. -/
inductive Instr where
  -- dispatchers and contexts
  | hostDoorbell (port : Bool) (ctx q tail : Nat) (wrap : Bool) (recs : List Descriptor)
  | preemptNbtLead (q : Nat)
  | spillComplete
  | yieldWrite
  | yieldTakesEffect
  | fillComplete
  | descriptorAdmit (ctx q : Nat)
  | descriptorReady (ctx q : Nat)
  | notBeforeTimeReached (ctx q : Nat)
  | descriptorIssue (ctx : Nat) (cls : Cls)
  | descriptorComplete (ctx seq : Nat)
  | shotClockExpiry (ctx q : Nat)
  | mutualWait (ctx : Nat)
  | contextStart (ctx : Nat)
  | resume (ctx : Nat)
  | abort (ctx : Nat)
  | contextReset (ctx : Nat)
  | skip (ctx q : Nat)
  | retry (ctx q : Nat)
  | flagWrite (ctx flag : Nat) (value : Bool)
  | queueRingPlace (ctx q base log2 : Nat)
  -- arrays
  | workItemDeal (sq : Nat)
  | reload (sq : Nat)
  | kStepIssue (sq : Nat)
  | stageClose (sq : Nat)
  | closeLatchEmpty (sq slot : Nat)
  | rungCombine (sq slot : Nat)
  | drainStart (sq : Nat) (errs : DrainFaults)
  | tileCheckVerdict (sq : Nat)
  -- blocks and loads
  | blockCommit (e : Engine)
  | engineRestartPoint (ctx : Nat) (e : Engine)
  | functionLoad (ctx slot : Nat) (r : FnRecord)
  | walkLibraryLoad (ctx : Nat) (r : WalkLib)
  | updateProgramLoad (ctx n : Nat) (r : UpdProgram)
  | stepPlanLoad (ctx : Nat) (r : StepPlan)
  -- walker
  | walkAdd (sq w : Nat) | walkSub (sq w : Nat) | walkMul (sq w : Nat) | walkAnd (sq w : Nat) | walkOr (sq w : Nat)
  | walkXor (sq w : Nat) | walkShl (sq w : Nat) | walkShr (sq w : Nat) | walkMin (sq w : Nat) | walkMax (sq w : Nat)
  | walkCmp (sq w : Nat) | walkSel (sq w : Nat) | walkMov (sq w : Nat) | walkMovi (sq w : Nat) | walkArg (sq w : Nat)
  | walkLoop (sq w : Nat) | walkEndloop (sq w : Nat) | walkBr (sq w : Nat) | walkBrc (sq w : Nat) | walkEmit (sq w : Nat)
  | walkEnd (sq w : Nat) | walkAttach (sq w : Nat) | walkDetach (sq w : Nat) | walkAcquire (sq w : Nat)
  | walkPush (sq w : Nat) | walkPop (sq w : Nat) | walkRelease (sq w : Nat)
  | poolGrant (sq ctx pool : Nat)
  | popWake (sq ctx q : Nat)
  -- update program
  | updAdd (sq : Nat) | updSub (sq : Nat) | updMul (sq : Nat) | updFma (sq : Nat) | updSqrt (sq : Nat) | updRsqrt (sq : Nat)
  | updMax (sq : Nat) | updMin (sq : Nat) | updAbs (sq : Nat) | updSel (sq : Nat) | updClamp (sq : Nat) | updScl (sq : Nat)
  -- short pass and huddles
  | shortPassMessage (m : ShortMsg)
  | overflowDeliver (c ctx : Nat)
  | heldMessageRelease (ctx : Nat)
  | squadHuddleArrival (ctx number sq : Nat)
  | huddlePacket (p : HuddlePkt)
  | huddleShotClockExpiry (ctx q : Nat)
  -- memory
  | memRead (req : Requester) (space off : Nat) (errs : List (Nat × Byte))
  | memWrite (req : Requester) (space off : Nat) (data : List Byte) (errs : List (Nat × Byte))
  | burstReread (c : Nat) (errs : List (Nat × Byte))
  | stackFailure (c k : Nat) (hch : Option Nat)
  | memBurstSlot (c : Nat) (waiting : List Nat) (spill : Bool)
  | refresh (c k : Nat) (r : StackReport)
  | scrubRead (c : Nat) (errs : List (Nat × Byte)) (userWrite : Bool)
  | scrubBehind (c : Nat) (fraction : Nat)
  | retrainingStart (c p : Nat)
  | retrainingDone (c p : Nat) (failed : List Nat)
  | retrainingTimeout (c p : Nat)
  | rebuild
  | rebuildDone
  | reguRateWrite (c part value : Nat)
  | reguBurstWrite (c part value : Nat)
  -- translation
  | translationWalk (ctx : Nat) (req : Requester) (va : W64) (write : Bool) (home : Option Nat)
  | mmuRootWrite (ctx : Nat) (value : W64)
  | mmuInval (ctx : Nat) (va : W64) (pages : Nat) (all : Bool)
  | mmuInvalDone
  | mmuFlogAck (ctx : Nat)
  -- DMA
  | dmaStart (c d : Nat)
  | dmaAbort (c d : Nat)
  | dmaResume (c d : Nat)
  | dmaBurstCommit (c d : Nat) (hostData : List Byte)
  | dmaOrderingRead (c d : Nat)
  -- faults and fences
  /-- data: the handle of the tensor whose squad-store word failed, where the detector is the store's ECC (R286, R294); while the share is
spilled, a word that the fetch unit could not read (R188). -/
  | detectorFault (e : Engine) (data : Option Nat)
  | engineWatchdog (e : Engine)
  | cmgrWatchdog (c : Nat)
  | sqFenceWrite (sq : Nat)
  | dmachFenceWrite (c d : Nat)
  | lnkFenceWrite (n : Nat)
  | fenceClear (t : FenceTarget)
  | devModeSideline
  | sidelineNInput (ns : Nat)
  | channelReset (c : Nat) (b : BringUp)
  | arrClearField (sq : Nat)
  -- network
  /-- at_ = next: a packet enters there, or one that the memory system or a host port offers there waits to, for a squad 0 to 15 or an edge
router 16 to 31 (R190, R195). -/
  | routerPacketArrival (c at_ next dest : Nat) (offer : Option MemPacket)
  /-- p: the packet that the flit carries, if any. -/
  | seamFlit (c j lane : Nat) (ok : Bool) (p : Option Packet)
  | combineNode (ctx tag node : Nat) (right : Bool) (off : Nat) (data : List Byte)
  | multicastFlitSend (g len : Nat)
  | multicastReattach (g sq : Nat)
  | routerHole (sq : Nat)
  | detourResume (c : Nat)
  | edgeRouterFailure (c e : Nat)
  | ringLinkFailure (c e : Nat)
  -- links
  | linkFlitReceive (n : Nat) (f : RxFlit)
  | ackLctlSend (n : Nat)
  /-- The packet p of this device (none) or of an arrival port is at the head of the arbiter. -/
  | packetForward (port : Option Nat) (p : Packet)
  | routingTableWrite (addr : Nat) (data : W64)
  | tagGrant (ctx tag epoch : Nat)
  | collectiveAbort (ctx tag epoch : Nat)
  | collectiveRestart (ctx tag : Nat)
  | lnkTrain (n : Nat)
  | trainingComplete (n : Nat) (badLanes : List Nat) (delay : Nat) (t : TrainSet)
  | identityBlock (n : Nat) (b : Identity)
  | noPeerTimeout (n : Nat)
  | lossOfLock (n lane : Nat)
  | peerSilence (n : Nat)
  -- time
  | whistleSend
  | whistleReceive (port : Nat) (w : Whistle) (residence : Nat)
  | whistleInEdge
  | holdover
  | trefLoss
  | trefReturn
  | timeBaseLockLoss
  | timeSet (v : W64)
  | whistleSeed (v : W64)
  | stEnd
  | maintenanceWindowOpen (ctx : Nat)
  -- commit
  | voteReceive (ctx lo hi : Nat) (v : Vote)
  | commitShotClockExpiry (ctx : Nat)
  | pairPacket (ctx : Nat) (src port : Nat) (step : Word) (exp growth : Nat) (digest : W64)
  | commitReceive (ctx : Nat) (d : Decision)
  | holdReceive (ctx : Nat) (d : Decision)
  | commitAbortReceive (ctx : Nat) (d : Decision)
  | memberCommitClockExpiry (ctx : Nat)
  | decisionQuery (ctx : Nat) (src : Nat) (step : Word)
  | decisionAnswer (ctx : Nat) (commit : Bool) (d : Decision)
  | decisionQueryTimeout (ctx : Nat)
  | completeCommit
  | discardVote
  | redigest
  | redigestDone (ctx : Nat)
  | updStepWrite (ctx : Nat) (v : Word)
  | lossScaleWrite (ctx exp growth : Nat)
  -- ledger
  | ledgerRecordWrite (chan : Nat) (o : Offer)
  | rateInterval
  | hostRecordSubmit
  | hmbReady
  | ledgerReadSelect (index : Nat)
  | keyWordWrite (i : Nat) (w : Word)
  | rekeyWindowClose
  | clearRequest (scope : Nat)
  | clearSubmit (resp : List Byte)
  | clearDone
  | challengeExpiry
  | lockoutEnd
  | ponSSave
  -- registers and the host
  | registerWrite (port : Bool) (addr : Nat) (wide : Bool) (value : W64)
  | irqForce (page : Nat) (bits : Word)
  | pageLock (page : Nat)
  | bar2Access (port : Bool) (a : Bar2Op)
  | hostApertureWrite (value : Word)
  | apertureApply
  | activate (port : Bool)
  | perstAssert (port : Bool)
  | perstRelease (port : Bool)
  | bootGo (port : Bool)
  | bootVerify (img : Image) (found : List BringUp)
  | startup
  | sysResetNAssert (ns : Nat)
  -- power
  | vinOutOfRange (tenMv : Nat)
  | vinUndervoltage (tenMv : Nat)
  | vinOvervoltage (tenMv : Nat)
  | capStepDown (watts : Nat)
  | capStepUp (watts : Nat)
  | railOvercurrent (c k peak : Nat)
  | railOvercurrentEnd (c k : Nat)
  | cclkChange
  | thermalStepDown (t : Temps)
  | thermalStepUp (t : Temps)
  | thermalTripWarning (t : Temps)
  | thermalTrip (t : Temps)
  | thermtripRelease
  -- Watch Port, JTAG, SMBus
  | wpHeartbeat
  | wpRead (word : Nat)
  | wpFenceWrite (word : Nat) (value : Half)
  | wpSidelineCmd (value : Half)
  | wpAlertClear (value : Half)
  | bypass
  | idcode
  | samplePreload
  | extest
  | extestPulse
  | extestTrain
  | clampIr
  | highz
  | stack1500 (select : Nat)
  | trstNReset
  | smbIdent
  | smbHealth
  | smbThermal
  | smbPower
  | smbLedgSel (slot : Nat)
  | smbLedgLo
  | smbLedgHi
  | smbCounts
  | auxRailLoss
  | registerRead (port : Bool) (addr : Nat) (wide : Bool)
  | hostPortLinkChange (port : Bool) (up : Bool)
deriving DecidableEq, Repr

end Sys2Proof
end

