-- ==== Sys2Proof/Decode.lean ====
section
/-! DEFINITION. No row of spec/opcode_table.json gives bits (its rows have no field and no word), so no word spells a command
(DEDUCED, log 18). -/

namespace Sys2Proof

/-- The command that a word spells: none for every word (DEDUCED, log 18). -/
def decodeTableWord (_nbits _w : Nat) : Option Instr := none

end Sys2Proof
end

