-- ==== Sys2Proof/Config.lean ====
section
/-! DEFINITION. What the manual leaves open: constants with no body, so that nothing can be proved of their values.
Each is named in a row of the assumption log. -/

namespace Sys2Proof.Config

/-- The n-th free value drawn (DESIGN CHOICE, log 11): a value the manual does not state, fresh for each draw. -/
opaque freeValue : Nat → BitVec 64

/-- Whether the row engine's exponential E gives, of the two binary32 values about the exact one, the greater (R82 bounds its error by
1 ulp; DESIGN CHOICE, log 12). -/
opaque rowExpUp : Word → Bool

/-- The rate trim that follows from the trim in force and the last e (R238 gives no formula; DESIGN CHOICE, log 12). -/
opaque rateTrim : Int → Int → Int

/-- The 16 random bytes of the n-th challenge (R322; DESIGN CHOICE, log 12). -/
opaque challenge : Nat → List Byte

/-- The verdict of the ECDSA P-384 check of a firmware image against the fused key hash (R361; DESIGN CHOICE, log 12). -/
opaque imageSigned : List Byte → Bool

/-- The bytes Gliari's private encoding gives the step parameter block's fields, over which CHECK is formed (R2, R262; DESIGN CHOICE, log 12). -/
opaque spbCrc : List Nat → Word

/-- Which IRQ_ENABLE bit of the UPD page gates "commit applied, if enabled" (R283 places none; DESIGN CHOICE, log 8). -/
opaque commitIrqBit : Nat → Nat

/-- The ledger code of the Warning at an estimate beyond DEADLINE (R258; R393 lists none; DESIGN CHOICE, log 12). -/
opaque etaCode : Nat

/-- A walker shift by 64 or more (R115 states no result; DESIGN CHOICE, log 12): count, operand. -/
opaque walkShift : Word → W64 → W64

/-- How often a seam lane retries a flit before its retries are exhausted (R201 gives no number; DESIGN CHOICE, log 12). -/
opaque seamRetries : Nat

/-- The packet buffers of a class and a route kind in a router, less one (R193 gives no number; DESIGN CHOICE, log 12). -/
opaque routerBuffers : Nat

/-- The length of the boundary register (R358: Treigor's BSDL file; DESIGN CHOICE, log 12). -/
opaque boundaryLen : Nat

/-- The bit that the n-th capture of IEEE 1149.1 takes from the lands at a cell (R358: Treigor's BSDL file; DESIGN CHOICE, log 12). -/
opaque boundaryBit : Nat → Nat → Bool

end Sys2Proof.Config
end

