-- ==== Sys2Proof/Machine/Float.lean ====
section
/-! DEFINITION. Binary floating point by exact dyadic numbers and one rounding (R34, R48, R50, R80, R267, R387). -/

namespace Sys2Proof.Machine

/-- A binary format: precision in bits with the leading one, least and greatest normal exponent. -/
structure FpParams where
  prec : Nat
  emin : Int
  emax : Int
deriving DecidableEq, Repr

/-- binary32 (R32). -/
def p32 : FpParams := ⟨24, -126, 127⟩
/-- binary64, for the powers of BETA (R268). -/
def p64 : FpParams := ⟨53, -1022, 1023⟩
/-- BF16 (R32). -/
def pBf16 : FpParams := ⟨8, -126, 127⟩
/-- binary16 (R32). -/
def pFp16 : FpParams := ⟨11, -14, 15⟩
/-- The checksum cells' extended format: bias 16,383, 64-bit significand (R387). -/
def pExt : FpParams := ⟨64, -16382, 16383⟩
/-- FP8 E4M3: largest finite 448 = 1.75 x 2^8 (R32). -/
def pE4m3 : FpParams := ⟨4, -6, 8⟩
/-- FP8 E5M2 (R32). -/
def pE5m2 : FpParams := ⟨3, -14, 15⟩
/-- E2M3 (R32). -/
def pE2m3 : FpParams := ⟨4, 0, 2⟩
/-- E3M2 (R32). -/
def pE3m2 : FpParams := ⟨3, -2, 4⟩
/-- E2M1 (R32). -/
def pE2m1 : FpParams := ⟨2, 0, 2⟩

/-- A datum of a format: a NaN, an infinity, or sign, significand and exponent (a zero keeps its sign). -/
inductive Num where
  | nan
  | inf (neg : Bool)
  | fin (neg : Bool) (m : Nat) (e : Int)
deriving DecidableEq, Repr

/-- An exact dyadic number m x 2^e. -/
structure Dy where
  m : Int
  e : Int
deriving DecidableEq, Repr

def Dy.zero : Dy := ⟨0, 0⟩

/-- Exact sum. -/
def Dy.add (a b : Dy) : Dy :=
  if a.m = 0 then b else if b.m = 0 then a else
  if a.e ≤ b.e then ⟨a.m + b.m * (2 : Int) ^ (b.e - a.e).toNat, a.e⟩
  else ⟨a.m * (2 : Int) ^ (a.e - b.e).toNat + b.m, b.e⟩

def Dy.neg (a : Dy) : Dy := ⟨-a.m, a.e⟩
def Dy.sub (a b : Dy) : Dy := a.add b.neg
/-- Exact product. -/
def Dy.mul (a b : Dy) : Dy := ⟨a.m * b.m, a.e + b.e⟩
/-- a times 2^k. -/
def Dy.scale (a : Dy) (k : Int) : Dy := ⟨a.m, a.e + k⟩
def Dy.abs (a : Dy) : Dy := ⟨(a.m.natAbs : Int), a.e⟩
/-- a < b, exactly. -/
def Dy.lt (a b : Dy) : Bool := (a.sub b).m < 0
/-- a <= b, exactly. -/
def Dy.le (a b : Dy) : Bool := (a.sub b).m ≤ 0
/-- The floor of a. -/
def Dy.floor (a : Dy) : Int := if 0 ≤ a.e then a.m * (2 : Int) ^ a.e.toNat else a.m / (2 : Int) ^ (-a.e).toNat

/-- The exact value of a datum; NaN and infinities have none. -/
def Num.dy : Num → Dy
  | .fin s m e => if s then ⟨-(m : Int), e⟩ else ⟨(m : Int), e⟩
  | _ => Dy.zero

def Num.isFin : Num → Bool
  | .fin _ _ _ => true
  | _ => false

def Num.isNan : Num → Bool
  | .nan => true
  | _ => false

def Num.isInf : Num → Bool
  | .inf _ => true
  | _ => false

def Num.sign : Num → Bool
  | .fin s _ _ => s
  | .inf s => s
  | .nan => false

def Num.isZero : Num → Bool
  | .fin _ 0 _ => true
  | _ => false

def Num.neg : Num → Num
  | .fin s m e => .fin (!s) m e
  | .inf s => .inf (!s)
  | .nan => .nan

def Num.abs : Num → Num
  | .fin _ m e => .fin false m e
  | .inf _ => .inf false
  | .nan => .nan

/-- The exponent of the last place that a value of m x 2^e has in the format, subnormal spacing included. -/
def quantum (P : FpParams) (m : Nat) (e : Int) : Int :=
  max (e + (Nat.log2 m : Int) - ((P.prec : Int) - 1)) (P.emin - ((P.prec : Int) - 1))

/-- m x 2^e (and a little more when sticky) as a multiple of the last place, rounded to nearest-even; no overflow yet. -/
def roundMag (P : FpParams) (m : Nat) (e : Int) (sticky : Bool) : Nat × Int :=
  let q := quantum P m e
  if q ≤ e then (m * 2 ^ (e - q).toNat, q)
  else
    let r := (q - e).toNat
    let k := m / 2 ^ r
    let rem := m % 2 ^ r
    let up := rem > 2 ^ (r - 1) || (rem == 2 ^ (r - 1) && (sticky || k % 2 == 1))
    let k := if up then k + 1 else k
    if k = 2 ^ P.prec then (2 ^ (P.prec - 1), q + 1) else (k, q)

/-- m x 2^e truncated toward zero to the format. -/
def truncMag (P : FpParams) (m : Nat) (e : Int) : Nat × Int :=
  let q := quantum P m e
  if q ≤ e then (m * 2 ^ (e - q).toNat, q) else (m / 2 ^ (q - e).toNat, q)

/-- The magnitude m x 2^e is beyond the format's largest finite exponent. -/
def overflows (P : FpParams) (m : Nat) (e : Int) : Bool := m != 0 && decide (P.emax < e + (Nat.log2 m : Int))

/-- One rounding to nearest-even of a signed magnitude; overflow gives an infinity (R34, R387). -/
def roundNum (P : FpParams) (neg : Bool) (m : Nat) (e : Int) (sticky : Bool := false) : Num :=
  if m = 0 then .fin neg 0 0
  else
    let r := roundMag P m e sticky
    if overflows P r.1 r.2 then .inf neg else if r.1 = 0 then .fin neg 0 0 else .fin neg r.1 r.2

/-- One rounding of an exact number; an exact zero is +0. -/
def roundDy (P : FpParams) (a : Dy) : Num := roundNum P (a.m < 0) a.m.natAbs a.e

/-- The bit pattern of a datum with eb exponent bits and the format's mantissa bits, where the format has IEEE infinities and NaNs. -/
def encodeNum (P : FpParams) (eb : Nat) : Num → Nat
  | .nan => (2 ^ eb - 1) * 2 ^ (P.prec - 1) + 2 ^ (P.prec - 2)
  | .inf s => (if s then 2 ^ (eb + P.prec - 1) else 0) + (2 ^ eb - 1) * 2 ^ (P.prec - 1)
  | .fin s m e =>
    let sgn := if s then 2 ^ (eb + P.prec - 1) else 0
    if m = 0 then sgn
    else
      let q := P.emin - ((P.prec : Int) - 1)
      let l := Nat.log2 m
      if e + (l : Int) < P.emin then sgn + (if q ≤ e then m * 2 ^ (e - q).toNat else m / 2 ^ (q - e).toNat)
      else
        let frac := if l ≤ P.prec - 1 then m * 2 ^ (P.prec - 1 - l) else m / 2 ^ (l - (P.prec - 1))
        sgn + (e + (l : Int) - P.emin + 1).toNat * 2 ^ (P.prec - 1) + (frac - 2 ^ (P.prec - 1))

/-- The datum of a pattern; ieee = the top exponent holds infinities and NaNs. -/
def decodeNum (P : FpParams) (eb : Nat) (ieee : Bool) (w : Nat) : Num :=
  let mb := P.prec - 1
  let f := w % 2 ^ mb
  let x := (w / 2 ^ mb) % 2 ^ eb
  let s := (w / 2 ^ (mb + eb)) % 2 == 1
  if ieee && x == 2 ^ eb - 1 then (if f = 0 then .inf s else .nan)
  else if x = 0 then .fin s f (P.emin - (mb : Int))
  else .fin s (2 ^ mb + f) (P.emin - (mb : Int) + (x : Int) - 1)

/-- binary32 patterns. -/
def decode32 (w : Word) : Num := decodeNum p32 8 true w.toNat
def encode32 (n : Num) : Word := BitVec.ofNat 32 (encodeNum p32 8 n)

/-- The positive quiet NaN every engine produces (R48). -/
def qnan32 : Word := 0x7FC00000#32

/-- IEEE 754-2019 addition with one rounding to the format; an exact zero sum is -0 only when both operands are negative zeros. -/
def addNum (P : FpParams) (a b : Num) : Num :=
  match a, b with
  | .nan, _ => .nan
  | _, .nan => .nan
  | .inf s, .inf t => if s = t then .inf s else .nan
  | .inf s, _ => .inf s
  | _, .inf t => .inf t
  | .fin s m e, .fin t k f =>
    if m = 0 && k = 0 then .fin (s && t) 0 0
    else roundDy P ((Num.fin s m e).dy.add (Num.fin t k f).dy)

/-- IEEE 754-2019 multiplication with one rounding. -/
def mulNum (P : FpParams) (a b : Num) : Num :=
  match a, b with
  | .nan, _ => .nan
  | _, .nan => .nan
  | .inf s, y => if y.isZero then .nan else .inf (s != y.sign)
  | x, .inf t => if x.isZero then .nan else .inf (x.sign != t)
  | .fin s m e, .fin t k f => roundNum P (s != t) (m * k) (e + f)

/-- a x b + c with one rounding. -/
def fmaNum (P : FpParams) (a b c : Num) : Num :=
  match a, b, c with
  | .fin s m e, .fin t k f, .fin u n g =>
    if m * k = 0 && n = 0 then .fin ((s != t) && u) 0 0
    else roundDy P (((Num.fin s m e).dy.mul (Num.fin t k f).dy).add (Num.fin u n g).dy)
  | .fin _ _ _, .fin _ _ _, z => z
  | x, y, z =>
    match mulNum P x y with
    | .nan => .nan
    | .inf v => match z with
      | .nan => .nan
      | .inf w => if v = w then .inf v else .nan
      | _ => .inf v
    | w => w

/-- a / b with one rounding (a divisor zero gives an infinity, 0/0 a NaN). -/
def divNum (P : FpParams) (a b : Num) : Num :=
  match a, b with
  | .nan, _ => .nan
  | _, .nan => .nan
  | .inf _, .inf _ => .nan
  | .inf s, y => .inf (s != y.sign)
  | x, .inf t => .fin (x.sign != t) 0 0
  | .fin s m e, .fin t k f =>
    if k = 0 then (if m = 0 then .nan else .inf (s != t))
    else if m = 0 then .fin (s != t) 0 0
    else
      let sh := P.prec + 3 + Nat.log2 k
      let n := m * 2 ^ sh
      roundNum P (s != t) (2 * (n / k) + (if n % k = 0 then 0 else 1)) (e - f - (sh : Int) - 1)

/-- The integer square root by binary search on the bits below the fuel's. -/
def isqrtGo (n : Nat) : Nat → Nat → Nat
  | 0, r => r
  | b + 1, r => let t := r + 2 ^ b; isqrtGo n b (if t * t ≤ n then t else r)

def isqrt (n : Nat) : Nat := isqrtGo n (Nat.log2 n / 2 + 1) 0

/-- Square root with one rounding: a negative input gives NaN, a zero keeps its sign (R267). -/
def sqrtNum (P : FpParams) : Num → Num
  | .nan => .nan
  | .inf s => if s then .nan else .inf false
  | .fin s m e =>
    if m = 0 then .fin s 0 0 else if s then .nan
    else
      let sh := 2 * (P.prec + 2) + (if e % 2 = 0 then 0 else 1)
      let n := m * 2 ^ sh
      let r := isqrt n
      roundNum P false (2 * r + (if r * r = n then 0 else 1)) ((e - (sh : Int)) / 2 - 1)

/-- 1/sqrt with one rounding: -0 and +0 give the infinity of their sign (R267). -/
def rsqrtNum (P : FpParams) : Num → Num
  | .nan => .nan
  | .inf s => if s then .nan else .fin false 0 0
  | .fin s m e =>
    if m = 0 then .inf s else if s then .nan
    else
      -- floor(2^j / sqrt m') with m' = m x 2^(0 or 1) and an even exponent
      let odd : Bool := e % 2 != 0
      let m' := if odd then 2 * m else m
      let e' := if odd then e - 1 else e
      let j := P.prec + 3 + Nat.log2 m'
      let n := 2 ^ (2 * j) / m'
      let r := isqrt n
      let exact := r * r * m' == 2 ^ (2 * j)
      roundNum P false (2 * r + (if exact then 0 else 1)) (-(e' / 2) - (j : Int) - 1)

/-- binary32 operations on patterns (R81, R267): each rounds once and gives the positive quiet NaN. -/
def fAdd (a b : Word) : Word := encode32 (addNum p32 (decode32 a) (decode32 b))
def fSub (a b : Word) : Word := encode32 (addNum p32 (decode32 a) (decode32 b).neg)
def fMul (a b : Word) : Word := encode32 (mulNum p32 (decode32 a) (decode32 b))
def fFma (a b c : Word) : Word := encode32 (fmaNum p32 (decode32 a) (decode32 b) (decode32 c))
def fDiv (a b : Word) : Word := encode32 (divNum p32 (decode32 a) (decode32 b))
def fSqrt (a : Word) : Word := encode32 (sqrtNum p32 (decode32 a))
def fRsqrt (a : Word) : Word := encode32 (rsqrtNum p32 (decode32 a))

/-- a < b for data that are not NaN, with +0 and -0 equal. -/
def ltNum (a b : Num) : Bool :=
  match a, b with
  | .nan, _ => false
  | _, .nan => false
  | .inf s, .inf t => s && !t
  | .inf s, _ => s
  | _, .inf t => !t
  | x, y => x.dy.lt y.dy

/-- MAX of R267 and R202: NaN if either is NaN, +0 taken as larger than -0. -/
def maxNum (a b : Num) : Num :=
  if a.isNan || b.isNan then .nan
  else if ltNum a b then b else if ltNum b a then a else if a.sign then b else a

/-- MIN of R267. -/
def minNum (a b : Num) : Num :=
  if a.isNan || b.isNan then .nan
  else if ltNum a b then a else if ltNum b a then b else if a.sign then a else b

def fMax (a b : Word) : Word := encode32 (maxNum (decode32 a) (decode32 b))
def fMin (a b : Word) : Word := encode32 (minNum (decode32 a) (decode32 b))
/-- ABS: the sign bit cleared (R267); a NaN result is the positive quiet NaN (R48). -/
def fAbs (a : Word) : Word := if (decode32 a).isNan then qnan32 else a &&& 0x7FFFFFFF#32
/-- SEL: a if c > 0, otherwise b (R267). -/
def fSel (c a b : Word) : Word := if ltNum (.fin false 0 0) (decode32 c) then a else b
/-- CLAMP: MIN(MAX(a, lo), hi) (R267). -/
def fClamp (a lo hi : Word) : Word := fMin (fMax a lo) hi
/-- SCL: a x 2^n with one rounding (R267). -/
def fScl (a : Word) (n : Int) : Word :=
  match decode32 a with
  | .fin s m e => encode32 (roundNum p32 s m (e + n))
  | x => encode32 x
/-- A natural number rounded to binary32. -/
def fOfNat (n : Nat) : Word := encode32 (roundNum p32 false n 0)

end Sys2Proof.Machine
end

