-- ==== Sys2Proof/Machine/State.lean ====
section
/-! DEFINITION. The state of the Pennan 432 as plain data, and State.reset. INVENTORY.md, '## State', lists every field
with its rule and reset value. -/

namespace Sys2Proof.Machine

/-- Device modes (R303). -/
inductive Mode where
  | full | reduced | sideline | dark
deriving DecidableEq, Repr

/-- Why the machine stops with a fault. No meaning does: every fault of the manual is a next state (R285). -/
inductive Fault where
  /-- Raised by no meaning; kept so that the type is not empty. Safe. -/
  | none
deriving DecidableEq, Repr

/-- Why a command has no meaning. -/
inductive Refusal where
  /-- The command is not modelled yet: answered by an arm of exec only. Safe: nothing is claimed of it. -/
  | notModelled (mnemonic : String)
  /-- A reserved register field was written with a value that is not zero, whose effect R5 does not specify: answered by
  REGISTER_WRITE. Safe: no next state is claimed. -/
  | reservedFieldWritten
deriving DecidableEq, Repr

/-! ## Clocks -/

/-- Local time base, System Time and the clocks (R100, R234 to R241, R374, R376, R386). -/
structure Clock where
  ltb : Nat
  cyc : Nat
  st : W64
  known : Bool
  holdover : Bool
  deep : Bool
  trefLock : Bool
  hops : Nat
  lastE : Int
  slewE : Int
  slewT : Nat
  halfLeft : Nat
  halfPhase : Bool
  trim : Int
  trimAcc : Int
  seed : W64
  seedArmed : Bool
  pinNext : Option W64
  lastWhistle : Nat
  stopped : Bool
  onModule : Bool
  baseLock : Bool
  cclk : Nat
deriving DecidableEq, Repr

def Clock.reset : Clock :=
  { ltb := 0, cyc := 0, st := 0, known := false, holdover := false, deep := false, trefLock := false, hops := 0, lastE := 0,
    slewE := 0, slewT := 0, halfLeft := 0, halfPhase := false, trim := 0, trimAcc := 0, seed := 0, seedArmed := false,
    pinNext := none, lastWhistle := 0, stopped := false, onModule := false, baseLock := true, cclk := 16 }

/-! ## The device -/

/-- Device-wide state (R303, R334, R348, R360). -/
structure Dev where
  mode : Mode
  step : Nat
  ready : Bool
  fwVer : Word
  normL : Nat
  fill18Now : Bool
  rebuildBusy : Bool
  rebuildDone : Bool
  userCap : Nat
  ucTimes : List (Nat × Nat)
  lostTimes : List Nat
  pcAdvanced : Bool
  strap : Nat
  sysResetN : Bool
  railsUp : Bool
  sidelinePending : Option Nat
  ponLive : Nat
  ponNs : Nat
  aux : Bool
  serial : W64
  fuseMap : Tbl (List Nat × List Nat)
  secMin : Nat
deriving DecidableEq, Repr

def Dev.reset : Dev :=
  { mode := .dark, step := 0, ready := false, fwVer := 0, normL := 17, fill18Now := false, rebuildBusy := false,
    rebuildDone := false, userCap := 0, ucTimes := [], lostTimes := [], pcAdvanced := false, strap := 0, sysResetN := true,
    railsUp := false, sidelinePending := none, ponLive := 0, ponNs := 0, aux := true, serial := 0, fuseMap := [], secMin := 0 }

/-- What the MRAM keeps beside the ledger slots (R308). Pseudo-channels are c x 512 + p. -/
structure Mram where
  fences : Tbl Nat
  field : Tbl (List Nat × List Nat)
  fieldDrop : List Nat
  benched : List Nat
  marks : Tbl Nat
  lost : List Nat
  retire : List Nat
  repairQ : List (Nat × Nat × Nat)
  scrub : Tbl Nat
  coef : Tbl (List Byte)
  transient : List (Nat × Nat)
  suspect : Tbl Nat
  key : Option (List Word)
  pcycle : Nat
  ponS : Nat
  fill18 : Bool
  failover : Nat
  erase : Option Nat
deriving DecidableEq, Repr

def Mram.reset : Mram :=
  { fences := [], field := [], fieldDrop := [], benched := [], marks := [], lost := [], retire := [], repairQ := [], scrub := [],
    coef := [], transient := [], suspect := [], key := none, pcycle := 0, ponS := 0, fill18 := false, failover := 0,
    erase := none }

/-! ## Contexts -/

/-- Why a queue is halted (R101, R248, R264, R277, R280, R295). -/
inductive Halt where
  | none | waitDeadline | huddleDeadline | collectiveDeadline | sanity | refused | rootDeadline | memberDeadline
deriving DecidableEq, Repr

/-- A queue of a context (R92, R390). -/
structure Queue where
  base : Nat
  log2 : Nat
  head : Nat
  headWrap : Bool
  tail : Nat
  tailWrap : Bool
  ring : Tbl Descriptor
  halt : Halt
  overrun : Bool
deriving DecidableEq, Repr

def Queue.reset : Queue :=
  { base := 0, log2 := 0, head := 0, headWrap := false, tail := 0, tailWrap := false, ring := [], halt := .none,
    overrun := false }

/-- The address space of a footprint entry (R102). -/
inductive FpSpace where
  | virt | store (sq : Nat) | allStores
deriving DecidableEq, Repr

/-- A scoreboard entry: space, byte range lo to hi - 1, write mode, and the tensor handle it came from. -/
structure FpEntry where
  space : FpSpace
  lo : Nat
  hi : Nat
  write : Bool
  handle : Nat
deriving DecidableEq, Repr

/-- Where a descriptor in flight stands (R91, R289). -/
inductive Phase where
  | admitted | ready | issued | stopped | replaying
deriving DecidableEq, Repr

/-- A descriptor admitted and not complete: its scoreboard entries and its journal entry (R91, R98 to R103, R289); nonfinite = the positions
of outputs that received a non-finite value (R53); mxPend = values of MX blocks that are not complete, by position and index (R49). -/
structure Flight where
  seq : Nat
  queue : Nat
  qindex : Nat
  desc : Descriptor
  recs : Tbl TensorRec
  fp : List FpEntry
  phase : Phase
  latched : List Bool
  nbtPassed : Bool
  shotNs : Nat
  predOk : Bool
  issueSt : W64
  issueKnown : Bool
  issueA : Nat
  issueExp : Nat
  copyMode : Bool
  items : Nat
  itemsDone : Nat
  commitMap : List Nat
  replays : Nat
  replayed : Bool
  faulted : List Nat
  nonfinite : List Nat
  mxPend : List (Nat × List Nat × Num)
  overflow : Bool
  expired : Bool
  doneLatched : Bool
  arrived : Bool
  stopWord : List Byte
  rowsOf : List Nat
  sent : Option (Nat × Nat)
  epoch : Nat
deriving DecidableEq, Repr

/-- One work item of a matrix operation (R29, R45, R65): tile position, group, part, its K range and where it stands. -/
structure Item where
  seq : Nat
  ctx : Nat
  index : Nat
  row0 : Nat
  col0 : Nat
  rows : Nat
  group : Nat
  part : Nat
  kLo : Nat
  kHi : Nat
  stage : Nat
  kPos : Nat
  sub : Nat
  slots : List Nat
deriving DecidableEq, Repr

/-- A tile under classification (R293): the squad S, its second run's fold and the failing lines of its two runs. -/
structure Ladder where
  index : Nat
  home : Nat
  runs : Nat
  fold : W64
  rows : List (List Nat)
  cols : List (List Nat)
  migrated : Bool
deriving DecidableEq, Repr

/-- A segment of a chain: the descriptor, the first dense k of its range and its K; run = its predicate holds (R106). -/
structure Seg where
  seq : Nat
  k0 : Nat
  len : Nat
  run : Bool
deriving DecidableEq, Repr

/-- A matrix operation being dealt or computing (R29, R30, R45, R64, R106). -/
structure MatOp where
  seq : Nat
  segs : List Seg
  rowsOf : List Nat
  n : Nat
  k : Nat
  ell : Nat
  parts : Nat
  total : Nat
  nextItem : Nat
  undealt : List Nat
  assigned : List (Nat × Nat)
  ladder : List Ladder
  partVals : List (Nat × Nat × Tbl W64)
  committed : List Nat
deriving DecidableEq, Repr

/-- A bound reduction tag with its epoch (R227, R228). -/
structure Tag where
  tag : Nat
  epoch : Nat
  seq : Nat
  granted : Bool
  aborted : Bool
deriving DecidableEq, Repr

/-- A huddle known at this device: arrivals by squad, queue or rank; completion latched (R246 to R249). -/
structure Huddle where
  number : Nat
  epoch : Nat
  arrived : List Nat
  done : Bool
deriving DecidableEq, Repr

/-- The commit huddle at this node (R275 to R282). -/
structure Commit where
  own : Option Vote
  votes : List (Nat × Nat × Vote)
  sent : Option Vote
  round : Nat
  reopens : Nat
  queried : Bool
  pairIn : Option (Word × Nat × Nat × W64)
  pairOut : Bool
  decided : Bool
  halted : Bool
deriving DecidableEq, Repr

def Commit.reset : Commit :=
  { own := none, votes := [], sent := none, round := 0, reopens := 0, queried := false, pairIn := none, pairOut := false,
    decided := false, halted := false }

/-- The UPD registers of a context and what pass one and APPLY form (R252, R260, R268 to R274, R336). -/
structure Upd where
  step : Word
  exp : Nat
  growth : Nat
  frozenCnt : W64
  digest : W64
  digestStep : Word
  stepDigest : W64
  decision : Word
  verdict : Nat
  undecided : Bool
  acc : W64
  normG : Tbl Word
  normW : Tbl Word
  redigest : Bool
  parts : List (Nat × Nat × Word × Word)
  tagG : Nat
  tagW : Nat
  supCount : Nat
  supFirst : Option (Nat × Nat)
deriving DecidableEq, Repr

def Upd.reset : Upd :=
  { step := 0, exp := 16, growth := 0, frozenCnt := 0, digest := 0, digestStep := 0, stepDigest := 0, decision := 0,
    verdict := 0, undecided := false, acc := 0, normG := [], normW := [], redigest := false, parts := [], tagG := 0, tagW := 0, supCount := 0, supFirst := none }

/-- A fault-log record (R169). -/
structure FlogRec where
  va : W64
  ftype : Nat
  srcType : Nat
  srcInst : Nat
  write : Bool
  level : Nat
  queue : Nat
  chan : Nat
deriving DecidableEq, Repr

/-- A phase summary (R256). -/
structure Summary where
  count : Nat
  lastIssue : W64
  lastDone : W64
  least : W64
  most : W64
deriving DecidableEq, Repr

/-- A run of a tile in the send ring (R89): its tag, the ring's bucket, the offset in the bucket, which is that in the reduced data, the length. -/
structure RingTile where
  tag : Nat
  slot : Nat
  off : Nat
  len : Nat
deriving DecidableEq, Repr

/-- A context (R388, R390 and the chapters 06, 09, 12, 13). -/
structure Ctx where
  started : Bool
  lost : Bool
  halted : Bool
  suspended : Bool
  preempted : Bool
  running : Bool
  yielding : Bool
  yielded : Bool
  pendingQ : BitVec 16
  request : Bool
  stopping : List Engine
  spillLeft : Bool
  spilled : Bool
  filling : Bool
  queues : Tbl Queue
  flags : BitVec 256
  flight : List Flight
  mats : List MatOp
  rr : Tbl Nat
  tensors : Tbl TensorRec
  masks : Tbl (Mask × Tbl TensorRec)
  fns : Tbl FnRecord
  fnWait : List (Nat × FnRecord)
  walkLib : WalkLib
  libWait : List WalkLib
  updProgs : Tbl UpdProgram
  updWait : List (Nat × UpdProgram)
  plan : Option StepPlan
  planNext : Option StepPlan
  stepStarts : List W64
  stepNo : Nat
  overrunSeen : List Nat
  eta : W64
  etaSeen : Bool
  shard : Option Shard
  slicePlan : Option SlicePlan
  spbHost : Option Spb
  spb : Option Spb
  spbSeen : Bool
  upd : Upd
  commit : Commit
  huddles : List Huddle
  mutualCnt : Nat
  waitGraph : List Byte
  flog : List FlogRec
  flogLost : Nat
  stallNs : Nat
  exchGrad : List (Nat × Nat)
  exchTags : List (Nat × Nat)
  summaries : Tbl Summary
  sendRing : List RingTile
  tags : List Tag
  grants : List (Nat × Nat)
  aborts : List (Nat × Nat)
  sends : List ShortMsg
  sendSeq : Tbl Nat
deriving DecidableEq, Repr

def Ctx.reset : Ctx :=
  { started := false, lost := false, halted := false, suspended := false, preempted := false, running := false,
    yielding := false, yielded := false, pendingQ := 0, request := false, stopping := [], spillLeft := false,
    spilled := false, filling := false, queues := [], flags := 0, flight := [], mats := [], rr := [], tensors := [], masks := [],
    fns := [], fnWait := [], walkLib := ⟨[], [], []⟩, libWait := [], updProgs := [], updWait := [], plan := none,
    planNext := none, stepStarts := [], stepNo := 0, overrunSeen := [], eta := BitVec.allOnes 64, etaSeen := false,
    shard := none, slicePlan := none, spbHost := none, spb := none, spbSeen := false, upd := Upd.reset,
    commit := Commit.reset, huddles := [], mutualCnt := 0, waitGraph := [], flog := [], flogLost := 0, stallNs := 0,
    exchGrad := [], exchTags := [], summaries := [], sendRing := [], tags := [], grants := [], aborts := [], sends := [], sendSeq := [] }

/-! ## Squads -/

/-- One checksum cell: signed sum s and magnitude sum m, or the sum modulo 2^32 for INT32 (R387). -/
structure Chk where
  s : Num
  m : Num
  i : Word
deriving DecidableEq, Repr

def Chk.zero : Chk := ⟨.fin false 0 0, .fin false 0 0, 0⟩

/-- One slot (R26): cells by row x 128 + column, the open group's steps, whether its stage has issued a step (R63), the checksum row
(by column), checksum column (by row) and the corner (R23). -/
structure Slot where
  cells : Tbl W64
  open_ : List Nat
  used : Bool
  chkRow : Tbl Chk
  chkCol : Tbl Chk
  corner : Chk
deriving DecidableEq, Repr

def Slot.zero : Slot := ⟨[], [], false, [], [], Chk.zero⟩

/-- A rung of a slot's ladder (R42): the sum of 2^level stage partials, the first one's index in its accumulation. -/
structure Rung where
  slot : Nat
  level : Nat
  first : Nat
  cells : Tbl W64
deriving DecidableEq, Repr

/-- A tile that is draining (R28, R43): its format, its values by slot with what faulty hardware added, its checks, the rungs that
remain to be combined, the rungs it began with (R291), and whether its last stage had been closed into the ladder (R182). -/
structure Drain where
  item : Item
  fmt : AccFmt
  vals : Tbl (Tbl W64)
  chks : Tbl Slot
  errs : DrainFaults
  rungs : List Rung
  held : List Rung
  closed : Bool
deriving DecidableEq, Repr

/-- The array of a squad (02; R339). -/
structure Arr where
  rows : List Nat
  cols : List Nat
  badRows : List Nat
  badCols : List Nat
  rowSkew : List Nat
  colSkew : List Nat
  fillLat : Nat
  bench : Nat
  unrepairable : Bool
  latHold : Bool
  repairPend : Bool
  fmt : AccFmt
  slots : Tbl Slot
  latch : Tbl (Nat × Tbl W64)
  rungs : List Rung
  reload : Nat
  items : List Item
  drain : Option Drain
  checkFail : Nat
  tiles : Nat
deriving DecidableEq, Repr

def Arr.reset : Arr :=
  { rows := [], cols := [], badRows := [], badCols := [], rowSkew := [], colSkew := [], fillLat := 0, bench := 0, unrepairable := false, latHold := false, repairPend := false,
    fmt := .fp32, slots := [], latch := [], rungs := [], reload := 0, items := [], drain := none, checkFail := 0, tiles := 0 }

/-- What a walker waits for (R112, R120). -/
inductive WState where
  | idle | running | fifoFull | pop (q : Nat) (h note : WReg) | attach (pool stream reserve ceiling part : Nat)
  | acquire (pool stream : Nat) (d : WReg) | detach (pool stream : Nat) | ended
deriving DecidableEq, Repr

/-- What a walker runs for: an item with its program, argument block and footprint (R115, R116); ahead as in Stream. -/
structure WJob where
  ctx : Nat
  seq : Nat
  item : Nat
  queue : Nat
  code : List WInstr
  args : List W64
  fp : List FpEntry
  ahead : Option Nat
deriving DecidableEq, Repr

/-- One of the six walkers of a control core (R112, R115, R117). -/
structure Walker where
  ctx : Nat
  seq : Nat
  item : Nat
  queue : Nat
  code : List WInstr
  pc : Nat
  g : Tbl W64
  count : Tbl Word
  remain : Tbl Word
  index : Tbl Word
  args : List W64
  fp : List FpEntry
  ahead : Option Nat
  state : WState
  next : List WJob
deriving DecidableEq, Repr

def Walker.reset : Walker :=
  { ctx := 0, seq := 0, item := 0, queue := 0, code := [], pc := 0, g := [], count := [], remain := [], index := [], args := [], fp := [],
    ahead := none, state := .idle, next := [] }

/-- A stream record in a port FIFO (R112, R113): its item, direction, range or place, the pool buffer, and the fields that its walker's
record names beside (EmitArgs); note goes with a handle that the engine pushes (R122). -/
structure StreamRec where
  ctx : Nat
  seq : Nat
  item : Nat
  write : Bool
  addr : W64
  len : W64
  aux : W64
  pool : Option (Nat × Nat)
  part : Nat
  x : EmitArgs
  index : Option W64
  stat : Option W64
  note : Word
deriving DecidableEq, Repr

/-- A stream attached to a pool (R124): its number, the item and queue whose walker attached it; ahead = the tensor that it fetches for
a PREFETCH, whose consumer follows (R126). -/
structure Stream where
  id : Nat
  ctx : Nat
  seq : Nat
  item : Nat
  queue : Nat
  ahead : Option Nat
  reserve : Nat
  ceiling : Nat
  charged : List Nat
  part : Nat
deriving DecidableEq, Repr

/-- A pool of a squad (R122, R124): buffers, free handles, streams, waiting walkers, the stream served last. -/
structure Pool where
  plan : PoolPlan
  free : List Nat
  streams : List Stream
  last : Nat
deriving DecidableEq, Repr

/-- A pass queue (R122): its binding and its entries, oldest first. -/
structure PassQ where
  plan : QueuePlan
  entries : List (Nat × Word)
deriving DecidableEq, Repr

/-- A mailbox (R129): the visible transfers, oldest first, each its messages in order; messages of transfers not yet visible; and by
source device and squad the sequence number that becomes visible next. -/
structure Mbox where
  shown : List (List ShortMsg)
  parts : List ShortMsg
  next : List ((Nat × Nat) × Nat)
deriving DecidableEq, Repr

def Mbox.reset : Mbox := ⟨[], [], []⟩

/-- One lane of the update unit (R266). -/
structure Lane where
  g : Word
  w : Word
  m1 : Word
  m2 : Word
  x : Tbl Word
  wOut : Option Word
  m1Out : Option Word
  m2Out : Option Word
deriving DecidableEq, Repr

/-- The update unit's run over one block (R269, R271): entry, first element, the lanes, the position in the program. -/
structure UpdRun where
  ctx : Nat
  seq : Nat
  prog : Nat
  entry : Nat
  block : Nat
  first : Nat
  lanes : List Lane
  done : List Lane
  pc : Nat
deriving DecidableEq, Repr

/-- A squad (R189): fence, the walker whose instruction issued last (R112), array, the routine context's array work while it is pre-empted (R167, R183), walkers, FIFOs, pools, pass queues, mailboxes, stat store, blocks in progress. -/
structure Squad where
  fenced : Bool
  cause : Nat
  arr : Arr
  saved : Option Arr
  walkers : Tbl Walker
  fifo : Tbl (List StreamRec)
  pools : Tbl Pool
  passq : Tbl PassQ
  mbox : Tbl Mbox
  stats : List (Nat × Word × Word)
  upe : Option UpdRun
  spillLeft : Bool
  turn : Nat
deriving DecidableEq, Repr

def Squad.reset : Squad :=
  { fenced := false, cause := 0, arr := Arr.reset, saved := none, walkers := [], fifo := [], pools := [], passq := [], mbox := [], stats := [],
    upe := none, spillLeft := false, turn := 5 }

/-! ## Channels -/

/-- A translation held in a cache (R164): context, page base, page size log2, entry, and the cache it is in. -/
structure Tlb where
  cache : Nat
  ctx : Nat
  va : Nat
  log2 : Nat
  entry : W64
deriving DecidableEq, Repr

/-- A DMA transfer (R172 to R178). A done count is in bytes, or in table entries with eoff bytes of the next. -/
structure Xfer where
  ctx : Nat
  seq : Option Nat
  mode : DmaMode
  addFmt : Fmt
  srcHost : Bool
  dstHost : Bool
  src : W64
  dst : W64
  srcShape : DmaShape
  dstShape : DmaShape
  tbl : W64
  tblW64 : Bool
  count : Nat
  elem : Nat
  limit : Nat
  done : Nat
  eoff : Nat
  ordered : Nat
  tag : Nat
  statusAddr : W64
deriving DecidableEq, Repr

/-- A DMA channel (R171, R340): 0 idle, 1 running, 2 stopped with residue. -/
structure Dma where
  state : Nat
  disabled : Bool
  xfer : Option Xfer
  sw : List Byte
  restartable : Bool
  bytes : W64
  faults : Nat
deriving DecidableEq, Repr

def Dma.reset : Dma := { state := 0, disabled := false, xfer := none, sw := [], restartable := false, bytes := 0, faults := 0 }

/-- A request for a burst at its controller (R138, R142, R145, R150): the place, and what a write stores there. -/
structure BurstReq where
  req : Requester
  space : Nat
  off : Nat
  write : Option (List Byte)
deriving DecidableEq, Repr

/-- A channel's memory controller and manager (08; R287; R326): bursts to be read once more (R145), pseudo-channels held for retraining
with the requests that wait for them (R150), the stacks' on-die ECC reports (R132). -/
structure Chan where
  inReset : Bool
  down : Bool
  poison : List (Nat × Nat)
  corrected : Tbl Nat
  lineErr : List (Nat × Nat × Nat)
  rowErr : List (Nat × Nat × Nat × Nat)
  removed : List Nat
  lostSince : Nat
  reread : List BurstReq
  held : List Nat
  heldQ : List (BurstReq × List (Nat × Byte))
  trainFails : Tbl Nat
  trainTime : Tbl Nat
  tokens : Tbl Int
  lastServed : Tbl Nat
  refreshRate : Tbl Nat
  stackTemp : Tbl Nat
  scrubBytes : Nat
  wdMiss : Option Nat
  dma : Tbl Dma
  tlb : List Tlb
  overflow : Tbl (List ShortMsg)
  pprLeft : Tbl Nat
  odEcc : Tbl Nat
  injectStop : Bool
deriving DecidableEq, Repr

def Chan.reset : Chan :=
  { inReset := false, down := false, poison := [], corrected := [], lineErr := [], rowErr := [], removed := [],
    lostSince := 0, reread := [], held := [], heldQ := [], trainFails := [], trainTime := [], tokens := [], lastServed := [],
    refreshRate := [], stackTemp := [], scrubBytes := 0, wdMiss := none, dma := [], tlb := [], overflow := [], pprLeft := [], odEcc := [],
    injectStop := false }

/-! ## Links and the network -/

/-- A flit that a port has to send or to keep for a replay (R211 to R213): virtual channel, kind, body, and the packet that it ends. -/
structure TxFlit where
  vc : Nat
  kind : FlitKind
  body : List Byte
  last : Option Packet
deriving DecidableEq, Repr

/-- A link port (11; R341). On the sending side: the flits queued by virtual channel, the retry buffer, the flits to be replayed, the time
towards the next flit slot in hundredths of a nanosecond, whether the last flit was of VC0, the last of VC1 to VC3 served, the slots
without anything to send, and the credits in use. On the receiving side: the frame's place among the five of two codewords and whether the
codeword in progress is bad (R210), the buffers in use, the buffers freed and not yet returned, and by virtual channel the flits and bytes
of the packet being received. coef is the equalisation in force (R209). -/
structure Link where
  lanes : Nat
  up : Bool
  training : Bool
  half : Bool
  cls : Nat
  revMismatch : Bool
  strap : Bool
  precode : Bool
  peerSerial : W64
  peerId : Nat
  peerPort : Nat
  peerRole : Nat
  peerLanes : Nat
  peerRev : Word
  delay : Nat
  retryCnt : Nat
  retrainCnt : Nat
  fecCorr : Nat
  fecUncorr : Nat
  laneFail : List Nat
  failed : Bool
  fenced : Bool
  txSeq : Nat
  txQ : Tbl (List TxFlit)
  txBuf : List (Nat × TxFlit)
  resend : List (Nat × TxFlit)
  slotNs : Nat
  vc0Last : Bool
  rrVc : Nat
  idle : Nat
  rxSeq : Nat
  rxFrame : Nat
  cwBad : Bool
  rxUsed : Tbl Nat
  freed : Tbl Nat
  asm : Tbl (Nat × List Byte)
  nakSent : Bool
  nakRun : Nat
  credits : Tbl Nat
  lastAck : Option Nat
  lockLoss : List (Nat × Nat)
  uncTimes : List Nat
  planPeer : Nat
  planPort : Nat
  planRole : Nat
  planValid : Bool
  planRev : Word
  coef : List Byte
deriving DecidableEq, Repr

def Link.reset : Link :=
  { lanes := 0, up := false, training := false, half := false, cls := 7, revMismatch := false, strap := false, precode := false,
    peerSerial := 0, peerId := 0, peerPort := 0, peerRole := 0, peerLanes := 0, peerRev := 0, delay := 0, retryCnt := 0,
    retrainCnt := 0, fecCorr := 0, fecUncorr := 0, laneFail := [], failed := false, fenced := false, txSeq := 0, txQ := [],
    txBuf := [], resend := [], slotNs := 0, vc0Last := false, rrVc := 0, idle := 0, rxSeq := 0, rxFrame := 0, cwBad := false, rxUsed := [],
    freed := [], asm := [], coef := [], nakSent := false, nakRun := 0, credits := [], lastAck := none, lockLoss := [], uncTimes := [], planPeer := 0,
    planPort := 0, planRole := 0, planValid := false, planRev := 0 }

/-- A receiver of a multicast group (R204): squad, HBM address of the next byte that its buffers take, whether it is detached, and the
bytes of its copies in its channel's lag spill region, oldest first. -/
structure McRecv where
  squad : Nat
  at_ : Nat
  detached : Bool
  spilled : List Byte
deriving DecidableEq, Repr

/-- A multicast group (R29, R204): the HBM address of the next byte that its source reads, and its receivers. -/
structure McGroup where
  src : Nat
  recv : List McRecv
deriving DecidableEq, Repr

/-- A combine node (R202, R203): context, tag, node, operation, the child packets waiting by child and offset, and results. -/
structure Node where
  ctx : Nat
  tag : Nat
  node : Nat
  op : RedOp
  left : List (Nat × List Byte)
  right : List (Nat × List Byte)
  out : List (Nat × List Byte)
deriving DecidableEq, Repr

/-- Where a packet leaves the on-chip network (R190, R197): at a squad (0 to 15), at an edge router (16 to 31) to its memory port, or to a link
port of it. -/
structure Goal where
  chan : Nat
  router : Nat
  port : Option Nat
deriving DecidableEq, Repr

/-- A packet inside the on-chip network (R193 to R200, R207): channel, router (squads 0 to 15, edge routers 16 to 31), class, buffer set, the
channel and router where it came in, its goal, its seam lane, the routers of this channel that it has still to pass. -/
structure Transit where
  chan : Nat
  router : Nat
  cls : Nat
  set : Nat
  src : Nat × Nat
  goal : Goal
  lane : Nat
  route : List Nat
  pkt : Packet
deriving DecidableEq, Repr

/-- The on-chip network and routing (10; R221, R222). Packets that wait to enter and packets inside stand oldest first; the class that a
link between routers served last (R193); the tenths of NCLK cycles that edge routers held traffic for their squad-to-edge links (R199). -/
structure Net where
  holes : List Nat
  seamOut : List (Nat × Nat)
  seamRetry : Tbl Nat
  ringOut : List (Nat × Nat)
  edgeOut : List Nat
  nodes : List Node
  groups : Tbl McGroup
  podTable : Tbl W64
  levelTable : Tbl W64
  dropCnt : Nat
  inq : List Transit
  transit : List Transit
  rrCls : Tbl Nat
  stall : Tbl Nat
  rrPort : Nat
  waiting : List (Option Nat × Packet)
deriving DecidableEq, Repr

def Net.reset : Net :=
  { holes := [], seamOut := [], seamRetry := [], ringOut := [], edgeOut := [], nodes := [], groups := [], podTable := [],
    levelTable := [], dropCnt := 0, inq := [], transit := [], rrCls := [], stall := [], rrPort := 0, waiting := [] }

/-! ## The ledger -/

/-- A ledger record (R310), with the uid that a REPEAT candidate names and its 48-bit write order (R314). -/
structure Rec where
  uid : Nat
  order : Nat
  seq : Word
  code : Nat
  sev : Nat
  fclass : Nat
  stUnknown : Bool
  host : Bool
  holdup : Bool
  srcType : Nat
  srcInst : Nat
  rep : Nat
  pcycle : Nat
  ponS : Nat
  st : W64
  payload : List Byte
deriving DecidableEq, Repr

/-- A REPEAT candidate (R315): the record's uid and the time of its last occurrence. -/
structure Cand where
  uid : Nat
  last : Nat
deriving DecidableEq, Repr

/-- The ledger controller (15; R337). -/
structure Ledger where
  slots : Tbl Rec
  order : Nat
  uid : Nat
  head : Word
  any : Bool
  wraps : Word
  fatalLost : Word
  droppedInfo : Word
  droppedWarn : Word
  hostReject : Word
  suppr : Tbl Nat
  held : List (Nat × Rec)
  cand : Tbl Cand
  rate : Tbl Nat
  rdIndex : Nat
  rdData : List Byte
  busy : Bool
  stage : Tbl Word
  rekeyOpen : Option Nat
  status : Nat
  scope : Nat
  latched : Nat
  chal : Option (List Byte × Nat)
  chalBytes : List Byte
  chalCount : Nat
  mism : Nat
  lockUntil : Option Nat
  erasing : Option Nat
  waiting : List (Nat × Rec)
deriving DecidableEq, Repr

def Ledger.reset : Ledger :=
  { slots := [], order := 0, uid := 0, head := 0, any := false, wraps := 0, fatalLost := 0, droppedInfo := 0, droppedWarn := 0,
    hostReject := 0, suppr := [], held := [], cand := [], rate := [], rdIndex := 0, rdData := [], busy := false, stage := [],
    rekeyOpen := none, status := 0, scope := 0, latched := 0, chal := none, chalBytes := [], chalCount := 0, mism := 0,
    lockUntil := none, erasing := none, waiting := [] }

/-! ## Telemetry, host, power, Watch Port, JTAG, SMBus -/

/-- The telemetry ring and the overrun counters by context x 64 + window (R244, R256). -/
structure Tele where
  ring : Tbl (List Byte)
  wp : Nat
  rp : Nat
  lost : Nat
  overrun : Tbl Nat
deriving DecidableEq, Repr

def Tele.reset : Tele := { ring := [], wp := 0, rp := 0, lost := 0, overrun := [] }

/-- A BAR2 request accepted and not complete (R347): its port, place, length, and the data of a write. -/
structure Bar2Req where
  port : Bool
  space : Nat
  off : Nat
  len : Nat
  data : Option (List Byte)
deriving DecidableEq, Repr

/-- The host ports (17; R348). -/
structure HostPorts where
  active : Bool
  noneActive : Bool
  linkA : Bool
  linkB : Bool
  perstA : Bool
  perstB : Bool
  boot : Nat
  bootResult : Nat
  aperture : Word
  apPending : Option Word
  bar2Open : List Bar2Req
  poisonedWrites : Nat
  image : List Byte
  pendingVecs : List Nat
deriving DecidableEq, Repr

def HostPorts.reset : HostPorts :=
  { active := false, noneActive := false, linkA := false, linkB := false, perstA := false, perstB := false, boot := 0,
    bootResult := 0, aperture := 0, apPending := none, bar2Open := [], poisonedWrites := 0, image := [], pendingVecs := [] }

/-- Rail readings (R375). -/
structure Rail where
  mv : Nat
  cur : Nat
  pow : Nat
  peak : Nat
deriving DecidableEq, Repr

def Rail.reset : Rail := ⟨0, 0, 0, 0⟩

/-- Power, clock stepping and temperature (18; R375, R376, R379). Clock values in 100 MHz; readings as last sampled (DESIGN CHOICE, log 14). -/
structure Power where
  capVal : Nat
  thermVal : Nat
  railVal : Nat
  capUnmet : Bool
  vinLow : Bool
  vinHigh : Bool
  overRails : List (Nat × Nat)
  peaks : List (Nat × Nat × Nat)
  rails : Tbl Rail
  pIn : Nat
  vIn : Nat
  aux : Nat
  tDie : Tbl Nat
  tStack : Tbl Nat
  thermTrip : Bool
deriving DecidableEq, Repr

def Power.reset : Power :=
  { capVal := 16, thermVal := 16, railVal := 16, capUnmet := false, vinLow := false, vinHigh := false, overRails := [],
    peaks := [], rails := [], pIn := 0, vIn := 0, aux := 0, tDie := [],
    tStack := [], thermTrip := false }

/-- The Watch Port's own bits (R338, R356). -/
structure Watch where
  alert : BitVec 5
  fatalSince : Bool
  throttled : Bool
  tripWarn : Bool
  heartbeat : Bool
deriving DecidableEq, Repr

def Watch.reset : Watch := { alert := 0, fatalSince := false, throttled := false, tripWarn := false, heartbeat := false }

/-- The TAP (R358): the instruction in force, whether it drives the lands, the register's capture, the stack select. -/
structure Jtag where
  ir : Nat
  effective : Bool
  capture : Byte
  stack : Option Nat
deriving DecidableEq, Repr

def Jtag.reset : Jtag := { ir := 1, effective := true, capture := 1, stack := none }

/-- What the device sends out (DESIGN CHOICE, log 9). -/
inductive Out where
  | vector (port : Bool) (v : Nat)
  | deliver (p : Packet)
  | pulse
  | flit (port : Nat) (f : Flit)
  | identity (port : Nat) (b : Identity)
  | word (v : W64)
  | bytes (poisoned : Bool) (l : List Byte)
  | unsupported
  | completerAbort
  | hostWrite (addr : W64) (l : List Byte)
  | hostRead (addr : W64) (len : Nat)
  | wpData (v : Half)
  | smb (l : List Byte)
  | tdo (l : List Bool)
  | ready (l : List Byte)
  | uncorrectable (r : Requester)
  | vote (ctx : Nat) (v : Vote)
  | decide (ctx kind : Nat) (d : Decision)
  | pair (ctx : Nat) (step : Word) (exp growth : Nat) (digest : W64)
  | query (ctx : Nat) (step : Word)
  | answer (ctx dst : Nat) (commit : Option Bool) (d : Decision)
  | huddle (p : HuddlePkt)
  | abortTag (ctx tag epoch : Nat)
  | grant (ctx tag epoch : Nat)
  | restart (ctx tag epoch : Nat)
  | reduced (ctx tag : Nat) (off : Nat) (l : List Byte)
  | short (m : ShortMsg)
  | multicast (group sq len : Nat)
deriving DecidableEq, Repr

/-- The state. -/
structure State where
  pending : List Instr
  free : Nat
  out : List Out
  regs : Tbl Word
  latchA : Tbl Word
  latchB : Tbl Word
  hbm : List Host.Cell
  store : List Host.Cell
  clk : Clock
  dev : Dev
  mram : Mram
  ctx0 : Ctx
  ctx1 : Ctx
  squads : Tbl Squad
  chans : Tbl Chan
  links : Tbl Link
  net : Net
  ledger : Ledger
  tele : Tele
  host : HostPorts
  pwr : Power
  watch : Watch
  jtag : Jtag
  smbSlot : Nat
  flightSeq : Nat
deriving DecidableEq, Repr

/-- The machine with the aux rail up and SYS_RESET_N released, before start-up: every field at its reset value (DESIGN CHOICE, log 2). -/
def State.reset : State :=
  { pending := [], free := 0, out := [], regs := [], latchA := [], latchB := [], hbm := [], store := [], clk := Clock.reset,
    dev := Dev.reset, mram := Mram.reset, ctx0 := Ctx.reset, ctx1 := Ctx.reset, squads := [], chans := [], links := [],
    net := Net.reset, ledger := Ledger.reset, tele := Tele.reset, host := HostPorts.reset, pwr := Power.reset,
    watch := Watch.reset, jtag := Jtag.reset, smbSlot := 0, flightSeq := 0 }

end Sys2Proof.Machine
end

