-- ==== Sys2Proof/Machine/Ops.lean ====
section
/-! DEFINITION. The named operations over the state: sparse tables, components, memory, raw registers, page faults, vectors,
outputs. -/

namespace Sys2Proof.Machine

/-! ## Sparse tables -/

/-- The value at key k, or the default d. -/
def tget {α : Type} (d : α) : Tbl α → Nat → α
  | [], _ => d
  | (i, v) :: r, k => if i = k then v else tget d r k

/-- Insert or replace in key order. -/
def tins {α : Type} (k : Nat) (v : α) : Tbl α → Tbl α
  | [] => [(k, v)]
  | (i, w) :: r => if k < i then (k, v) :: (i, w) :: r else if i = k then (k, v) :: r else (i, w) :: tins k v r

/-- Remove key k. -/
def tdel {α : Type} (k : Nat) (t : Tbl α) : Tbl α := t.filter (fun e => e.1 != k)

/-- Set key k to v; the default is not listed. -/
def tset {α : Type} [DecidableEq α] (d : α) (t : Tbl α) (k : Nat) (v : α) : Tbl α :=
  if v = d then tdel k t else tins k v t

/-- The value at key k, if listed. -/
def tfind {α : Type} (t : Tbl α) (k : Nat) : Option α := (t.find? (fun e => e.1 == k)).map (·.2)

/-- Update key k by f. -/
def tmod {α : Type} [DecidableEq α] (d : α) (t : Tbl α) (k : Nat) (f : α → α) : Tbl α := tset d t k (f (tget d t k))

/-! ## Bits and bytes -/

/-- Bits hi down to lo of a number. -/
def bits (n hi lo : Nat) : Nat := (n / 2 ^ lo) % 2 ^ (hi + 1 - lo)

/-- v as n bytes, least significant first. -/
def leBytes : Nat → Nat → List Byte
  | 0, _ => []
  | n + 1, v => BitVec.ofNat 8 v :: leBytes n (v / 256)

/-- The number that bytes hold, least significant first. -/
def leNat : List Byte → Nat
  | [] => 0
  | b :: r => b.toNat + 256 * leNat r

def leInt (n : Nat) (v : Int) : List Byte := leBytes n (v % (2 : Int) ^ (8 * n)).toNat

/-- n as a number of at most hi. -/
def capTo (hi n : Nat) : Nat := if n ≤ hi then n else hi

def b2n (b : Bool) : Nat := if b then 1 else 0

/-- Take or pad to n bytes. -/
def padTo (n : Nat) (l : List Byte) : List Byte := (l ++ List.replicate n 0#8).take n

/-! ## Components -/

def State.ctx (s : State) (n : Nat) : Ctx := if n = 0 then s.ctx0 else s.ctx1
def State.setCtx (s : State) (n : Nat) (c : Ctx) : State := if n = 0 then { s with ctx0 := c } else { s with ctx1 := c }
def State.modCtx (s : State) (n : Nat) (f : Ctx → Ctx) : State := s.setCtx n (f (s.ctx n))
def State.squad (s : State) (n : Nat) : Squad := tget Squad.reset s.squads n
def State.setSquad (s : State) (n : Nat) (q : Squad) : State := { s with squads := tset Squad.reset s.squads n q }
def State.modSquad (s : State) (n : Nat) (f : Squad → Squad) : State := s.setSquad n (f (s.squad n))
def State.chan (s : State) (n : Nat) : Chan := tget Chan.reset s.chans n
def State.setChan (s : State) (n : Nat) (c : Chan) : State := { s with chans := tset Chan.reset s.chans n c }
def State.modChan (s : State) (n : Nat) (f : Chan → Chan) : State := s.setChan n (f (s.chan n))
def State.link (s : State) (n : Nat) : Link := tget Link.reset s.links n
def State.setLink (s : State) (n : Nat) (l : Link) : State := { s with links := tset Link.reset s.links n l }
def State.modLink (s : State) (n : Nat) (f : Link → Link) : State := s.setLink n (f (s.link n))
/-- The link carries flits (R229, R230). -/
def Link.inService (l : Link) : Bool := l.up && !l.training && !l.failed && !l.fenced
def State.setClk (s : State) (c : Clock) : State := { s with clk := c }
def State.setDev (s : State) (d : Dev) : State := { s with dev := d }
def State.setMram (s : State) (m : Mram) : State := { s with mram := m }
def State.setNet (s : State) (n : Net) : State := { s with net := n }
def State.setLedger (s : State) (l : Ledger) : State := { s with ledger := l }
def State.setTele (s : State) (t : Tele) : State := { s with tele := t }
def State.setHost (s : State) (h : HostPorts) : State := { s with host := h }
def State.setPwr (s : State) (p : Power) : State := { s with pwr := p }
def State.setWatch (s : State) (w : Watch) : State := { s with watch := w }
def State.setJtag (s : State) (j : Jtag) : State := { s with jtag := j }
def State.setOut (s : State) (o : List Out) : State := { s with out := o }
def State.setRegs (s : State) (r : Tbl Word) : State := { s with regs := r }
def State.setHbm (s : State) (m : List Host.Cell) : State := { s with hbm := m }
def State.setStore (s : State) (m : List Host.Cell) : State := { s with store := m }
def State.setPending (s : State) (q : List Instr) : State := { s with pending := q }
def State.setFree (s : State) (n : Nat) : State := { s with free := n }

def Ctx.queue (c : Ctx) (q : Nat) : Queue := tget Queue.reset c.queues q
def Ctx.setQueue (c : Ctx) (q : Nat) (v : Queue) : Ctx := { c with queues := tset Queue.reset c.queues q v }
def Ctx.modQueue (c : Ctx) (q : Nat) (f : Queue → Queue) : Ctx := c.setQueue q (f (c.queue q))
def Chan.dmaCh (c : Chan) (d : Nat) : Dma := tget Dma.reset c.dma d
def Chan.setDma (c : Chan) (d : Nat) (v : Dma) : Chan := { c with dma := tset Dma.reset c.dma d v }

/-- An outcome that goes on. -/
abbrev Res := Host.Outcome State Fault Refusal

/-- A command whose enabling condition b decides whether it has its effect (DESIGN CHOICE, log 1). -/
def guard (b : Bool) (s : State) (t : State) : Res := .next (if b then t else s)

/-- The device computes: Full or Reduced (R303). -/
def State.up (s : State) : Bool := s.dev.mode == .full || s.dev.mode == .reduced
/-- The device is out of Dark. -/
def State.alive (s : State) : Bool := s.dev.mode != .dark
/-- A write of the host through the active port reaches BAR0: the aux rail is up and some port is active (R326, R346, R351). -/
def State.hostUp (s : State) : Bool := !s.host.noneActive && s.dev.railsUp
/-- A channel whose pages answer (R326). -/
def State.chanUp (s : State) (c : Nat) : Bool := !(s.chan c).inReset && !(s.chan c).down
/-- The running context: urgent while it runs, else routine (R93, R149). -/
def State.runningCtx (s : State) : Nat := if s.ctx1.running then 1 else 0

/-- A started context issues (R388). -/
def State.issuing (s : State) (n : Nat) : Bool :=
  let c := s.ctx n
  s.up && c.started && !c.suspended && !c.halted && !c.lost &&
    (if n = 0 then !c.preempted && !s.ctx1.request else c.running && !c.yielding)

/-- The engines of a context go on with what has been issued: not stopped by a fault or a pre-emption (R168, R181, R185, R186). -/
def State.working (s : State) (n : Nat) : Bool :=
  let c := s.ctx n
  s.up && c.started && !c.suspended && !c.lost && (if n = 0 then !c.preempted && !s.ctx1.request else c.running)

/-- The unfenced squads in ascending c.s order (R29). -/
def State.unfenced (s : State) : List Nat := (List.range 64).filter fun q => !(s.squad q).fenced && s.chanUp (q / 16)

/-- A of R29. -/
def State.countA (s : State) : Nat := s.unfenced.length

/-- Neither context is started (R327 and others). -/
def State.noneStarted (s : State) : Bool := !s.ctx0.started && !s.ctx1.started

/-- A free value, and the next counter (DESIGN CHOICE, log 11). -/
def State.draw (s : State) : W64 × State := (Config.freeValue s.free, s.setFree (s.free + 1))

/-- The device sends o. -/
def State.emit (s : State) (o : Out) : State := s.setOut (o :: s.out)

/-! ## Memory -/

/-- The byte at a key of a cell list: 0 where nothing is listed (DESIGN CHOICE, log 4, log 5). -/
def cellGet (m : List Host.Cell) (a : Nat) : Byte := tget 0#8 m a
/-- Write one byte, keeping the canonical form. -/
def cellSet (m : List Host.Cell) (a : Nat) (b : Byte) : List Host.Cell := tset 0#8 m a b

/-- The canonical form: keys strictly rising, no entry that reads as an unlisted one. -/
def Memory.wf : List Host.Cell → Bool
  | [] => true
  | [(_, b)] => b != 0#8
  | (a, b) :: (a', b') :: r => b != 0#8 && decide (a < a') && Memory.wf ((a', b') :: r)

def cellRead (m : List Host.Cell) (a : Nat) : Nat → List Byte
  | 0 => []
  | n + 1 => cellGet m a :: cellRead m (a + 1) n

def cellWrite (m : List Host.Cell) (a : Nat) : List Byte → List Host.Cell
  | [] => m
  | b :: r => cellWrite (cellSet m a b) (a + 1) r

/-- The key of byte off of a space (R162: 0 to 3 local, 4 wide, 8 to 11 spill). -/
def hbmKey (space off : Nat) : Nat := space * 2 ^ 44 + off
/-- The key of byte off of a squad store (R72). -/
def storeKey (sq off : Nat) : Nat := sq * 2 ^ 24 + off

def State.hbmRead (s : State) (space off n : Nat) : List Byte := cellRead s.hbm (hbmKey space off) n
def State.hbmWrite (s : State) (space off : Nat) (l : List Byte) : State := s.setHbm (cellWrite s.hbm (hbmKey space off) l)
def State.storeRead (s : State) (sq off n : Nat) : List Byte := cellRead s.store (storeKey sq off) n
def State.storeWrite (s : State) (sq off : Nat) (l : List Byte) : State := s.setStore (cellWrite s.store (storeKey sq off) l)

/-! ## Register pages (R333) -/

def pgSquad (sq k : Nat) : Nat := (sq / 16) * 0x400000 + (sq % 16) * 0x8000 + k * 0x1000
def pgSQ (sq : Nat) : Nat := pgSquad sq 0
def pgARR (sq : Nat) : Nat := pgSquad sq 1
def pgDMACH (c d : Nat) : Nat := c * 0x400000 + 0x101000 + d * 0x1000
def pgMMU : Nat := 0x130000
def pgDISP (n : Nat) : Nat := 0x131000 + n * 0x1000
def pgJRN (c : Nat) : Nat := c * 0x400000 + 0x133000
def pgREGU (c : Nat) : Nat := c * 0x400000 + 0x190000
def pgLNK (n : Nat) : Nat := (n / 6) * 0x400000 + 0x200000 + (n % 6) * 0x1000
def pgRTE : Nat := 0x208000
def pgCLK : Nat := 0x301000
def pgPWR (c : Nat) : Nat := c * 0x400000 + 0x302000
def pgTIME : Nat := 0x1000000
def pgLEDG : Nat := 0x1001000
def pgHOST : Nat := 0x1002000
def pgUPD : Nat := 0x1004000
def pgTELE : Nat := 0x1005000
def pgDEV : Nat := 0x1006000

/-- The default flood mode of a code class (R318). -/
def floodDefault (cls : Nat) : Nat :=
  if cls ∈ [0x02, 0x04, 0x06, 0x07, 0x0B, 0x0C, 0x0D, 0x10, 0x11, 0x12] then 1
  else if cls ∈ [0x08, 0x09, 0x0A, 0x0E, 0x0F] then 2 else if 0x30 ≤ cls then 2 else 0

/-- REGU reset values by partition (R139): RATE, BURST, PRIO, HARD. -/
def reguReset (part word : Nat) : Nat :=
  match word with
  | 0 => [96, 64, 32, 32, 16, 16].getD part 0
  | 1 => [4096, 2048, 2048, 2048, 1024, 16384].getD part 0
  | 2 => [2, 2, 1, 3, 1, 0].getD part 0
  | _ => [0, 0, 0, 0, 1, 0].getD part 0

/-- The address within its page's block: page kind by the map of R333. -/
inductive PageKind where
  | sq | squadOther | dma | dmach | mmu | disp (n : Nat) | jrn | mem | mphy | regu | lnk (n : Nat) | seam | rte | cmgr | clk | pwr
  | time | ledg | host | watch | upd | tele | dev | none
deriving DecidableEq, Repr

/-- The page of a BAR0 address (R333). -/
def pageKind (a : Nat) : PageKind :=
  if 0x1000000 ≤ a then
    if a < 0x1007000 then
      match (a - 0x1000000) / 0x1000 with
      | 0 => .time | 1 => .ledg | 2 => .host | 3 => .watch | 4 => .upd | 5 => .tele | _ => .dev
    else .none
  else
    let o := a % 0x400000
    let p := o / 0x1000
    if o < 0x80000 then (if p % 8 = 0 then .sq else if p % 8 ≤ 5 then .squadOther else .none)
    else if p = 0x100 then .dma
    else if 0x101 ≤ p ∧ p < 0x121 then .dmach
    else if p = 0x130 then .mmu else if p = 0x131 then .disp 0 else if p = 0x132 then .disp 1 else if p = 0x133 then .jrn
    else if 0x180 ≤ p ∧ p < 0x188 then .mem else if 0x188 ≤ p ∧ p < 0x190 then .mphy else if p = 0x190 then .regu
    else if 0x200 ≤ p ∧ p < 0x206 then .lnk (6 * (a / 0x400000) + (p - 0x200)) else if p = 0x206 ∨ p = 0x207 then .seam else if p = 0x208 then .rte
    else if p = 0x300 then .cmgr else if p = 0x301 then .clk else if p = 0x302 then .pwr else .none

/-- The channel a page belongs to, for channel pages (R326). -/
def pageChan (a : Nat) : Option Nat := if a < 0x1000000 then some (a / 0x400000) else none

/-- The copy in which a replicated page's register is kept: channel 0's (R331); PWR_CAP is C0's (R375). -/
def homeAddr (a : Nat) : Nat :=
  match pageKind a with
  | .mmu | .disp _ | .rte | .clk => a % 0x400000
  | .pwr => if a % 0x1000 = 0x140 then a % 0x400000 else a
  | _ => a

/-- The reset value of a register kept as written (R180, R328, R334 to R342, R375, R390 to R392). -/
def regReset (a : Nat) : Nat :=
  let o := a % 0x1000
  if o = 0x14 then 0xFFFFFFFF
  else match pageKind a with
    | .dev => if o = 0x12C then 20 * 2 ^ 24 + 8 * 2 ^ 20 + 1024 else if o = 0x124 then 4 else 0
    | .upd => if o = 0x8 then 2 else if o = 0x200 then 2000 else if o = 0x204 then 3 else 0
    | .ledg => if 0x200 ≤ o ∧ o < 0x300 then floodDefault ((o - 0x200) / 4) else if 0x300 ≤ o ∧ o < 0x400 then 16 else 0
    | .lnk _ => if o = 0x8 then 31 * 2 ^ 8 else 0
    | .jrn => if o = 0x100 then 256 else 0
    | .sq => if o = 0x100 then 8 else 0
    | .pwr => if o = 0x140 then 3000 + 3000 * 2 ^ 16 else 0
    | .clk => if o = 0x100 then 16 else 0
    | .rte => if o = 0x100 then 64 else 0
    | .regu => if 0x100 ≤ o ∧ o < 0x160 then reguReset ((o - 0x100) / 16) ((o - 0x100) % 16 / 4) else 0
    | _ => 0

/-- A register kept as written. -/
def State.rg (s : State) (a : Nat) : Nat := (tget (BitVec.ofNat 32 (regReset (homeAddr a))) s.regs (homeAddr a)).toNat
/-- Keep a register's value. -/
def State.setRg (s : State) (a v : Nat) : State :=
  s.setRegs (tset (BitVec.ofNat 32 (regReset (homeAddr a))) s.regs (homeAddr a) (BitVec.ofNat 32 v))

/-- A value with bit i set. -/
def orBit (v i : Nat) : Nat := v ||| 2 ^ i
def State.bit (s : State) (a i : Nat) : Bool := s.rg a / 2 ^ i % 2 == 1

/-! ## Vectors and page faults (R328, R349) -/

/-- Raise MSI-X vector v: sent on the active port, or held pending while no port is active (R349, R351). -/
def State.raise (s : State) (v : Nat) : State :=
  if s.host.noneActive then
    if s.host.pendingVecs.contains v then s else s.setHost { s.host with pendingVecs := s.host.pendingVecs ++ [v] }
  else s.emit (.vector s.host.active v)

/-- An event whose IRQ_STATUS bit is placed: the bit is set, and its vector raised while its IRQ_ENABLE bit is set (R328). -/
def State.event (s : State) (page bit v : Nat) : State :=
  let t := s.setRg (page + 0x18) (orBit (s.rg (page + 0x18)) bit)
  if t.bit (page + 0x1C) bit then t.raise v else t

/-- Set FAULT bit i of a page (R328): unmasked it sets IRQ_STATUS.FAULT, which raises vector 255 while enabled. -/
def State.pageFault (s : State) (page i : Nat) : State :=
  let t := s.setRg (page + 0x10) (orBit (s.rg (page + 0x10)) i)
  if t.bit (page + 0x14) i then t else t.event page 31 255

/-- FAULT.LOCKED_WRITE and FAULT.BAD_COMMAND (R328). -/
def State.lockedWrite (s : State) (page : Nat) : State := s.pageFault page 31
def State.badCommand (s : State) (page : Nat) : State := s.pageFault page 30

/-- DEV_PREEMPT fields (R180). -/
def State.nbtLead (s : State) : Nat := let v := bits (s.rg (pgDEV + 0x12C)) 31 24; if v < 20 then 20 else v
def State.urgentShare (s : State) : Nat := capTo 8 (bits (s.rg (pgDEV + 0x12C)) 23 20)
def State.arrLimit (s : State) : Nat := capTo 1024 (bits (s.rg (pgDEV + 0x12C)) 10 0)
/-- DEV_ID, DEV_SLICE (R220, R225). -/
def State.devId (s : State) : Nat := s.rg (pgDEV + 0x110) % 2 ^ 16
def State.sliceTag (s : State) : Nat := s.rg (pgDEV + 0x114) % 256
/-- UPD_CTRL bits (R272, R273). -/
def State.strictFreeze (s : State) : Bool := s.bit (pgUPD + 8) 0
def State.nfBlock (s : State) : Bool := s.bit (pgUPD + 8) 1
/-- A context maps user memory while its root has VALID set (R160). -/
def State.root (s : State) (n : Nat) : Nat := s.rg (pgMMU + 0x100 + 8 * n) + 2 ^ 32 * s.rg (pgMMU + 0x104 + 8 * n)
def State.mapsUser (s : State) : Bool := s.root 0 % 2 == 1 || s.root 1 % 2 == 1

/-! ## Capacity (R134 to R137, R155) -/

/-- W of R135. -/
def State.wideUnits (s : State) : Nat := capTo 64 (s.rg (pgDEV + 0x124) % 128)
/-- User capacity of a channel: 284 GiB less 576 MiB for each pseudo-channel dropped at the last rebuild (R134, R155). -/
def State.chanCap (s : State) (c : Nat) : Nat := 284 * 2 ^ 30 - (s.chan c).removed.length * 576 * 2 ^ 20
/-- Current size of a space in bytes (R134, R135). -/
def State.spaceSize (s : State) (space : Nat) : Nat :=
  if space < 4 then s.chanCap space - s.wideUnits * 2 ^ 30
  else if space = 4 then 4 * s.wideUnits * 2 ^ 30 else if 8 ≤ space ∧ space < 12 then 2 ^ 30 else 0
/-- L_c: the pseudo-channels in the interleave list (R136). -/
def State.listC (s : State) (c : Nat) : List Nat := (List.range 512).filter fun p => !(s.chan c).removed.contains p
/-- L_w, as c x 512 + p in the order of R137. -/
def State.listW (s : State) : List Nat :=
  (List.range 512).flatMap fun p => (List.range 4).filterMap fun c => if (s.chan c).removed.contains p then none else some (c * 512 + p)
/-- The context of a multicast group (R384). -/
def groupCtx (g : Nat) : Nat := if g < 3072 then 0 else 1

/-- A region of a channel's reserve: first byte, size, stored twice (R134). -/
structure Region where
  base : Nat
  size : Nat
  mirrored : Bool
deriving DecidableEq, Repr

def mib (n : Nat) : Nat := n * 2 ^ 20
def tablesRegion : Region := ⟨0, mib 64, true⟩
def journalRegion : Region := ⟨mib 64, mib 256, true⟩
def bankRegion : Region := ⟨mib 320, mib 16, true⟩
def mailRegion : Region := ⟨mib 336, mib 8, true⟩
def spillRegion : Region := ⟨mib 344, mib 1024, false⟩
def lagRegion : Region := ⟨mib 1368, mib 1024, false⟩
def teleRegion : Region := ⟨mib 2392, mib 14, false⟩
def captureRegion : Region := ⟨mib 2406, mib 1690, false⟩
/-- The reserve of a channel, 4 GiB, in the order of R134's table (the order in the reserve: DESIGN CHOICE, log 20). -/
def reserve : List Region :=
  [tablesRegion, journalRegion, bankRegion, mailRegion, spillRegion, lagRegion, teleRegion, captureRegion]
def regionAt (off : Nat) : Region := (reserve.find? fun r => decide (off < r.base + r.size)).getD captureRegion

/-- The other copy of a byte of a mirrored region (R134); a byte of another region has none. -/
def otherCopy (off : Nat) : Option Nat :=
  let r := regionAt off
  if r.mirrored then some (if off < r.base + r.size / 2 then off + r.size / 2 else off - r.size / 2) else none

/-- The pseudo-channel of granule g of an interleave list, shifted (R136). -/
def pickPc (l : List Nat) (g shift : Nat) : Nat := l.getD ((g % l.length + 149 * (g / l.length) + shift) % l.length) 0

/-- The pseudo-channel, as c x 512 + p, that holds byte off of a space (R136, R137). Spaces 8 to 11 are the channels' spill regions,
12 to 15 their whole reserves. Regions lie in the same rotation, the second copy of a mirrored one half the list further on, which is on
another stack (R134; DESIGN CHOICE, log 20). -/
def State.pcOf (s : State) (space off : Nat) : Nat :=
  let l := s.listC (space % 4)
  if space = 4 then pickPc s.listW (off / 512) 0
  else if space < 12 then (space % 4) * 512 + pickPc l (off / 512) 0
  else
    let r := regionAt off
    let x := off - r.base
    (space % 4) * 512 + (if r.mirrored && decide (r.size / 2 ≤ x) then pickPc l ((x - r.size / 2) / 512) (l.length / 2) else pickPc l (x / 512) 0)

end Sys2Proof.Machine
end

