-- ==== Sys2Proof/Machine/Formats.lean ====
section
/-! DEFINITION. Element formats and casts (R32, R33, R37, R48 to R51). -/

namespace Sys2Proof.Machine

/-- Bits of an element in PLAIN layout (R32, R34, R77). -/
def Fmt.bits : Fmt → Nat
  | .mxfp6e2m3 | .mxfp6e3m2 => 6
  | .mxfp4 => 4
  | .bf16 | .fp16 | .uint16 => 16
  | .fp32 | .int32 | .uint32 => 32
  | .fp32e | .uint64 => 64
  | _ => 8

/-- Bytes of an element in SKEWED layout (R73). -/
def Fmt.skewBytes (f : Fmt) : Nat := (Fmt.bits f + 7) / 8

/-- MX family (R33). -/
def Fmt.mxFamily : Fmt → Nat
  | .mxfp8e4m3 | .mxfp8e5m2 => 1
  | .mxfp6e2m3 | .mxfp6e3m2 => 2
  | .mxfp4 => 3
  | .mxint8 => 4
  | _ => 0

def Fmt.isMx (f : Fmt) : Bool := Fmt.mxFamily f != 0

/-- e_max of R49. -/
def Fmt.mxEmax : Fmt → Int
  | .mxfp8e4m3 => 8
  | .mxfp8e5m2 => 15
  | .mxfp6e3m2 => 4
  | .mxfp6e2m3 | .mxfp4 => 2
  | _ => 0

/-- The binary format of a floating-point element and its exponent width. -/
def Fmt.fp : Fmt → FpParams × Nat
  | .fp8e4m3 | .mxfp8e4m3 => (pE4m3, 4)
  | .fp8e5m2 | .mxfp8e5m2 => (pE5m2, 5)
  | .mxfp6e2m3 => (pE2m3, 2)
  | .mxfp6e3m2 => (pE3m2, 3)
  | .mxfp4 => (pE2m1, 2)
  | .bf16 => (pBf16, 8)
  | .fp16 => (pFp16, 5)
  | _ => (p32, 8)

/-- The top exponent of the format holds infinities and NaNs. -/
def Fmt.ieee : Fmt → Bool
  | .fp8e5m2 | .mxfp8e5m2 | .bf16 | .fp16 | .fp32 => true
  | _ => false

/-- Integer formats: width and signedness. -/
def Fmt.int : Fmt → Option (Nat × Bool)
  | .int8 => some (8, true)
  | .int32 => some (32, true)
  | .uint8 => some (8, false)
  | .uint16 => some (16, false)
  | .uint32 => some (32, false)
  | .uint64 => some (64, false)
  | _ => none

/-- The integer a pattern of w bits holds. -/
def intOf (w : Nat) (signed : Bool) (v : Nat) : Int := if signed && decide (2 ^ (w - 1) ≤ v) then (v : Int) - (2 : Int) ^ w else v

def numOfInt (i : Int) : Num := .fin (decide (i < 0)) i.natAbs 0
def numOfDy (d : Dy) : Num := .fin (decide (d.m < 0)) d.m.natAbs d.e

/-- The value of an FP32E pair (R34). -/
def pairNum (w : Nat) : Num :=
  let hi := decode32 (BitVec.ofNat 32 (w / 2 ^ 32))
  let lo := decode32 (BitVec.ofNat 32 w)
  match hi, lo with
  | .fin s m e, .fin _ k _ => if k = 0 then .fin s m e else numOfDy ((Num.fin s m e).dy.add lo.dy)
  | h, _ => h

/-- The value of a stored element, without its MX scale (R32). -/
def decodeElem (f : Fmt) (v : Nat) : Num :=
  match Fmt.int f with
  | some (w, sg) => numOfInt (intOf w sg v)
  | none =>
    match f with
    | .mxint8 => let i := intOf 8 true v; .fin (decide (i < 0)) i.natAbs (-6)
    | .fp32e => pairNum v
    | .fp8e4m3 | .mxfp8e4m3 => if v % 128 = 127 then .nan else decodeNum pE4m3 4 false v
    | g => decodeNum (Fmt.fp g).1 (Fmt.fp g).2 (Fmt.ieee g) v

/-- The sign bit of a stored element, for a NaN (R48). -/
def elemSign (f : Fmt) (v : Nat) : Bool := v / 2 ^ (Fmt.bits f - 1) % 2 == 1

/-- An FP8 subnormal enters a product as a zero of its sign (R37). -/
def flushFp8 (f : Fmt) (n : Num) : Num :=
  match f, n with
  | .fp8e4m3, .fin s m e | .mxfp8e4m3, .fin s m e => if m < 8 then .fin s 0 0 else .fin s m e
  | .fp8e5m2, .fin s m e | .mxfp8e5m2, .fin s m e => if m < 4 then .fin s 0 0 else .fin s m e
  | _, x => x

/-- An element as it enters a product (R37). -/
def prodElem (f : Fmt) (v : Nat) : Num := flushFp8 f (decodeElem f v)

/-- A value times an E8M0 scale byte (R33). -/
def scaleBy (e : Nat) (n : Num) : Num :=
  if e = 255 then .nan
  else match n with
    | .fin s m x => .fin s m (x + (e : Int) - 127)
    | x => x

/-! ## Stochastic rounding (R50, R51) -/

/-- The 32 random bits of an element. -/
def srBits (seed : W64) (index : Nat) : Nat :=
  let x := seed ^^^ (BitVec.ofNat 64 index * 0x9E3779B97F4A7C15#64)
  let x := (x ^^^ (x >>> 30)) * 0xBF58476D1CE4E5B9#64
  let x := (x ^^^ (x >>> 27)) * 0x94D049BB133111EB#64
  let x := x ^^^ (x >>> 31)
  (x >>> 32).toNat

/-- The magnitude rounded stochastically with random bits rnd (R50); no overflow yet. -/
def srMag (P : FpParams) (m : Nat) (e : Int) (rnd : Nat) : Nat × Int :=
  let q := quantum P m e
  if q ≤ e then (m * 2 ^ (e - q).toNat, q)
  else
    let d := 2 ^ (q - e).toNat
    let k := if 2 ^ 32 ≤ m % d * 2 ^ 32 / d + rnd then m / d + 1 else m / d
    if k = 2 ^ P.prec then (2 ^ (P.prec - 1), q + 1) else (k, q)

/-- Round a magnitude: stochastically with the given bits, else to nearest-even. -/
def roundWith (P : FpParams) (sr : Option Nat) (m : Nat) (e : Int) : Nat × Int :=
  match sr with
  | some r => srMag P m e r
  | none => roundMag P m e false

/-- seed_eff of R51: the record's seed, with the step of the block in force when SR_STEP is set. -/
def TensorRec.seedEff (t : TensorRec) (step : Nat) : W64 :=
  if t.srStep then t.srSeed ^^^ BitVec.ofNat 64 (step * 2 ^ 32) else t.srSeed

/-- The target is one for which stochastic rounding is available (R50). -/
def Fmt.srTarget (f : Fmt) : Bool := Fmt.isMx f || (match f with | .bf16 | .fp16 | .fp8e4m3 | .fp8e5m2 => true | _ => false)

/-! ## Casts (R48) -/

/-- An integer saturated to a width; the flag says that it saturated. -/
def satInt (w : Nat) (signed : Bool) (i : Int) : Nat × Bool :=
  let lo : Int := if signed then -(2 : Int) ^ (w - 1) else 0
  let hi : Int := if signed then (2 : Int) ^ (w - 1) - 1 else (2 : Int) ^ w - 1
  let c := max lo (min hi i)
  ((c % (2 : Int) ^ w).toNat, c != i)

/-- A value rounded to an integer, to nearest-even. -/
def roundInt (neg : Bool) (m : Nat) (e : Int) : Int :=
  let k : Nat := if 0 ≤ e then m * 2 ^ e.toNat
    else
      let d := 2 ^ (-e).toNat
      let q := m / d
      let r := m % d
      if d < 2 * r ∨ (2 * r = d ∧ q % 2 = 1) then q + 1 else q
  if neg then -(k : Int) else k

/-- Cast to an integer format. -/
def castInt (w : Nat) (signed : Bool) (x : Num) : Nat × Bool :=
  match x with
  | .nan => (0, true)
  | .inf s => ((satInt w signed (if s then -(2 : Int) ^ 65 else (2 : Int) ^ 65)).1, true)
  | .fin s m e => satInt w signed (roundInt s m e)

/-- The largest finite magnitude's pattern of a narrow format. -/
def Fmt.maxCode : Fmt → Nat
  | .fp8e4m3 | .mxfp8e4m3 => 0x7E
  | .fp8e5m2 | .mxfp8e5m2 => 0x7B
  | .mxfp6e2m3 | .mxfp6e3m2 => 0x1F
  | .mxfp4 => 7
  | .bf16 => 0x7F7F
  | .fp16 => 0x7BFF
  | _ => 0x7F7FFFFF

/-- The sign bit of a format. -/
def Fmt.signBit (f : Fmt) (s : Bool) : Nat := if s then 2 ^ (Fmt.bits f - 1) else 0

/-- A rounded magnitude exceeds the largest finite value. -/
def Fmt.tooBig (f : Fmt) (r : Nat × Int) : Bool :=
  overflows (Fmt.fp f).1 r.1 r.2 ||
    (match f with
     | .fp8e4m3 | .mxfp8e4m3 => !((Dy.mk r.1 r.2).le (Dy.mk 448 0))
     | _ => false)

/-- The pattern of a finite rounded magnitude. -/
def Fmt.pack (f : Fmt) (s : Bool) (r : Nat × Int) : Nat := Fmt.signBit f s + encodeNum (Fmt.fp f).1 (Fmt.fp f).2 (.fin false r.1 r.2)

/-- Cast to a floating-point format that is not MX: pattern and cast-overflow event (R48). -/
def castFloat (f : Fmt) (sr : Option Nat) (rep : Bool) (nanNeg : Bool) (x : Num) : Nat × Bool :=
  match x with
  | .nan =>
    (match f with
     | .fp8e4m3 | .fp8e5m2 => 0x7F + Fmt.signBit f nanNeg
     | .bf16 => 0x7FC0
     | .fp16 => 0x7E00
     | _ => 0x7FC00000, true)
  | .inf s =>
    (match f with
     | .fp8e4m3 => (if rep then 0x7F else 0x7E) + Fmt.signBit f s
     | g => encodeNum (Fmt.fp g).1 (Fmt.fp g).2 (.inf s), true)
  | .fin s m e =>
    if m = 0 then (Fmt.signBit f s, false)
    else
      let r := roundWith (Fmt.fp f).1 sr m e
      if Fmt.tooBig f r then
        (match f with
         | .fp8e4m3 => (if rep then 0x7F else 0x7E) + Fmt.signBit f s
         | .fp8e5m2 => (if rep then 0x7C else 0x7B) + Fmt.signBit f s
         | g => encodeNum (Fmt.fp g).1 (Fmt.fp g).2 (.inf s), true)
      else (Fmt.pack f s r, false)

/-- A value cast to one element of a format that is not MX; FP32E takes the pair of R34. -/
def castElem (f : Fmt) (sr : Option Nat) (rep nanNeg : Bool) (x : Num) : Nat × Bool :=
  match Fmt.int f with
  | some (w, sg) => castInt w sg x
  | none =>
    match f with
    | .fp32e =>
      (match x with
       | .fin s m e =>
         let hi := roundNum p32 s m e
         let lo := if hi.isFin then roundDy p32 ((Num.fin s m e).dy.sub hi.dy) else .fin false 0 0
         (encodeNum p32 8 hi * 2 ^ 32 + encodeNum p32 8 lo, !hi.isFin)
       | y => (encodeNum p32 8 y * 2 ^ 32, true))
    | g => castFloat g (if Fmt.srTarget g then sr else none) rep nanNeg x

/-- An MX element of a scaled value: rounded and saturated (R48, R49). -/
def castMxElem (f : Fmt) (sr : Option Nat) (x : Num) : Nat × Bool :=
  match x with
  | .fin s m e =>
    (match f with
     | .mxint8 =>
       let k : Int := match sr with
         | none => roundInt s m (e + 6)
         | some r =>
           let p : Nat := if 0 ≤ e + 6 then m * 2 ^ (e + 6).toNat
             else let d := 2 ^ (-(e + 6)).toNat
                  if 2 ^ 32 ≤ m % d * 2 ^ 32 / d + r then m / d + 1 else m / d
           if s then -(p : Int) else p
       satInt 8 true k
     | g =>
       if m = 0 then (Fmt.signBit g s, false)
       else
         let r := roundWith (Fmt.fp g).1 sr m e
         if Fmt.tooBig g r then (Fmt.maxCode g + Fmt.signBit g s, true) else (Fmt.pack g s r, false))
  | _ => (0, true)

/-- floor(log2) of a non-zero finite magnitude. -/
def log2Num : Num → Int
  | .fin _ m e => (Nat.log2 m : Int) + e
  | _ => 0

/-- X of R49, clamped to -127 to 127. -/
def mxScale (f : Fmt) (xs : List Num) : Int :=
  let nz := xs.filter fun x => !x.isZero
  match nz with
  | [] => -127
  | a :: r => max (-127) (min 127 ((r.foldl (fun acc x => max acc (log2Num x)) (log2Num a)) - Fmt.mxEmax f))

/-- A block cast to an MX format: scale byte, element patterns, cast-overflow event; srs are the elements' random bits (R49). -/
def castMxBlock (f : Fmt) (srs : List (Option Nat)) (xs : List Num) : Nat × List Nat × Bool :=
  if xs.any fun x => !x.isFin then (255, xs.map fun _ => 0, true)
  else
    let x := mxScale f xs
    let cs := (xs.zip srs).map fun p =>
      castMxElem f p.2 (match p.1 with | .fin s m e => .fin s m (e - x) | y => y)
    ((x + 127).toNat, cs.map (·.1), cs.any (·.2))

end Sys2Proof.Machine
end

