-- ==== Sys2Proof/Machine/Mmu.lean ====
section
/-! DEFINITION. The table walk and its faults (R160 to R163, R166), and translation of one byte's address. -/

namespace Sys2Proof.Machine

/-- What a walk finds: a fault with its type and level, or a leaf. -/
inductive WalkRes where
  | fault (ftype level : Nat)
  | leaf (space base log2 : Nat) (r w pinned : Bool) (entry : Nat)
deriving DecidableEq, Repr

/-- The burst at byte off of a space is poisoned or lies on a lost pseudo-channel, so that reading it gives the
uncorrectable-data indication (R145, R152). -/
def State.burstBad (s : State) (space off : Nat) : Bool :=
  let pc := s.pcOf space off
  s.mram.lost.contains pc || (s.chan (pc / 512)).down || (s.chan (pc / 512)).poison.contains (space, off / 64)

/-- The pseudo-channel of a burst answers: powered, in service, not held in retraining. -/
def State.pcServes (s : State) (k : Nat) : Bool := s.alive && s.chanUp (k / 512) && !((s.chan (k / 512)).held.contains (k % 512))

/-- The pseudo-channel of a burst is held in retraining. -/
def State.pcHeld (s : State) (k : Nat) : Bool := s.alive && s.chanUp (k / 512) && (s.chan (k / 512)).held.contains (k % 512)

/-! ## Regulators (R139 to R141) -/

/-- Field f of a partition: RATE, BURST, PRIO, HARD. -/
def State.reguF (s : State) (c part f : Nat) : Nat := s.rg (pgREGU c + 0x100 + 16 * part + 4 * f)
/-- A bucket's depth in tenths of a byte. -/
def State.bucketDepth (s : State) (c part : Nat) : Int := (s.reguF c part 1 * 10240 : Nat)
/-- Tokens of a partition in tenths of a byte; a bucket not listed is full (R141). -/
def State.tokens (s : State) (c part : Nat) : Int := match tfind (s.chan c).tokens part with | some v => v | none => s.bucketDepth c part
def State.setTokens (s : State) (c part : Nat) (v : Int) : State := s.modChan c fun h => { h with tokens := tins part v h.tokens }

/-- One burst of a partition: it takes 64 tokens, or borrows the slot, which takes none; none where a hard-capped partition waits (R140). -/
def State.spendBurst (s : State) (c part : Nat) : Option State :=
  if 640 ≤ s.tokens c part then some (s.setTokens c part (s.tokens c part - 640))
  else if s.reguF c part 3 % 2 = 0 then some s else none

/-- The bursts that places lie in, each once, by their first byte. -/
def burstsAt (pl : List (Nat × Nat)) : List (Nat × Nat) := (pl.map fun p => (p.1, p.2 / 64 * 64)).dedup

/-- A unit's bursts are served under its partition's regulator: none while one of their pseudo-channels is held or a hard-capped
partition has no tokens left for one (R120, R140, R150). -/
def State.regulate (s : State) (part : Nat) (bursts : List (Nat × Nat)) : Option State :=
  bursts.foldlM (fun (t : State) b =>
    let k := t.pcOf b.1 b.2
    if t.pcHeld k then none else t.spendBurst (k / 512) part) s

/-- The 8 bytes of a table entry. -/
def State.tableEntry (s : State) (space off : Nat) : Nat := leNat (s.hbmRead space off 8)

/-- Index bits of a level (R161). -/
def levelIndex (level va : Nat) : Nat :=
  match level with
  | 0 => bits va 47 39
  | 1 => bits va 38 30
  | 2 => bits va 29 21
  | _ => bits va 20 16

/-- Size log2 of the page that a leaf at a level maps (R161). -/
def leafLog2 (level : Nat) : Nat := match level with | 1 => 30 | 2 => 21 | _ => 16

/-- Alignment log2 of the table that a pointer at a level names. -/
def tableLog2 (level : Nat) : Nat := if level = 2 then 8 else 12

def entrySpace (e : Nat) : Nat := bits e 47 44
def entryAddr (e : Nat) : Nat := bits e 43 8 * 256

/-- An entry that breaks R162 at its level. -/
def State.malformed (s : State) (level e : Nat) : Bool :=
  let sp := entrySpace e
  let a := entryAddr e
  let lf := e / 2 % 2 == 1
  let badSpace := !(decide (sp ≤ 4) || (decide (8 ≤ sp) && decide (sp < 12)))
  bits e 63 48 != 0 || bits e 7 5 != 0 || badSpace || (lf && level == 0) || (!lf && level == 3) ||
    (if lf then a % 2 ^ leafLog2 level != 0 || decide (s.spaceSize sp < a + 2 ^ leafLog2 level)
     else decide (4 < sp) || a % 2 ^ tableLog2 level != 0)

/-- Walk from the table at (space, off), with the levels that remain (R161). -/
def State.walkGo (s : State) (va : Nat) : Nat → Nat → Nat → WalkRes
  | 0, _, _ => .fault 5 3
  | n + 1, space, off =>
    let level := 3 - n
    let a := off + 8 * levelIndex level va
    let e := s.tableEntry space a
    if s.burstBad space a then .fault 6 level
    else if e % 2 = 0 then .fault 1 level
    else if s.malformed level e then .fault 5 level
    else if e / 2 % 2 = 1 then
      .leaf (entrySpace e) (entryAddr e) (leafLog2 level) (e / 4 % 2 == 1) (e / 8 % 2 == 1) (e / 16 % 2 == 1) e
    else s.walkGo va n (entrySpace e) (entryAddr e)

/-- The root breaks R160 or R162. -/
def rootMalformed (r : Nat) : Bool :=
  bits r 63 48 != 0 || bits r 7 5 != 0 || decide (4 < entrySpace r) || r / 2 % 2 == 1 || entryAddr r % 4096 != 0

/-- The walk of a virtual address of a context (R160, R161). -/
def State.walk (s : State) (ctx va : Nat) : WalkRes :=
  let r := s.root ctx
  if 2 ^ 48 ≤ va then .fault 1 0
  else if r % 2 = 0 then .fault 1 0
  else if rootMalformed r then .fault 5 0
  else s.walkGo va 4 (entrySpace r) (entryAddr r)

/-- The level at which a leaf of a page size stands (R161). -/
def leafLevel (lg : Nat) : Nat := match lg with | 30 => 1 | 21 => 2 | _ => 3

/-- The check at the leaf (R163, R166): for a spill or fill access of channel c, else by home and right. -/
def leafFault (spill : Option Nat) (home : Option Nat) (write : Bool) (space : Nat) (r w pinned : Bool) : Option Nat :=
  match spill with
  | some c => if pinned && r && w && space == 8 + c then none else some 7
  | none =>
    let homeOk := match home with | some h => space == h | none => decide (space ≤ 4)
    if !homeOk then some 4
    else if write then (if w then none else some 3) else (if r then none else some 2)

/-- The space and offset of a byte, or a fault's type and level. -/
def State.xlate (s : State) (ctx va : Nat) (write : Bool) (home spill : Option Nat) : Sum (Nat × Nat) (Nat × Nat) :=
  match s.walk ctx va with
  | .fault t l => .inl (t, l)
  | .leaf sp base lg r w p _ =>
    match leafFault spill home write sp r w p with
    | some t => .inl (t, leafLevel lg)
    | none => .inr (sp, base + va % 2 ^ lg)

/-- The space and offset of a byte that translates and is readable data. -/
def State.place (s : State) (ctx va : Nat) (write : Bool) (home : Option Nat) : Option (Nat × Nat) :=
  match s.xlate ctx va write home none with
  | .inr p => some p
  | .inl _ => none

/-- n bytes at a virtual address; none when one does not translate or its burst is uncorrectable. -/
def State.vread (s : State) (ctx : Nat) (home : Option Nat) : Nat → Nat → Option (List Byte)
  | _, 0 => some []
  | va, n + 1 =>
    match s.place ctx va false home with
    | some (sp, off) => if s.burstBad sp off then none else (s.vread ctx home (va + 1) n).map (cellGet s.hbm (hbmKey sp off) :: ·)
    | none => none

/-- Write bytes at a virtual address; bytes that do not translate are not written, nor those of a burst on a lost pseudo-channel or in a
poison list, which leaves the list before a write of the whole burst (R145, R152). -/
def State.vwrite (s : State) (ctx : Nat) (home : Option Nat) (va : Nat) : List Byte → State
  | [] => s
  | b :: r =>
    match s.place ctx va true home with
    | some (sp, off) => (if s.burstBad sp off then s else s.hbmWrite sp off [b]).vwrite ctx home (va + 1) r
    | none => s.vwrite ctx home (va + 1) r

/-- Every byte of a range translates for writing. -/
def State.vwritable (s : State) (ctx : Nat) (home : Option Nat) (va n : Nat) : Bool :=
  (List.range n).all fun i => (s.place ctx (va + i) true home).isSome

/-! ## Writes of engines and the poison list (R145) -/

/-- Some burst is poisoned. -/
def State.anyPoison (s : State) : Bool := (List.range 4).any fun c => !(s.chan c).poison.isEmpty

/-- The burst of a place is poisoned, on a pseudo-channel that is not lost. -/
def State.poisoned (s : State) (p : Nat × Nat) : Bool :=
  (s.chan (s.pcOf p.1 p.2 / 512)).poison.contains (p.1, p.2 / 64) && !s.mram.lost.contains (s.pcOf p.1 p.2)

/-- The places hold the whole burst of p. -/
def wholeBurst (pl : List (Nat × Nat)) (p : Nat × Nat) : Bool := (List.range 64).all fun i => pl.contains (p.1, p.2 / 64 * 64 + i)

/-- A write of these places meets a poisoned burst without covering it: the writer gets the uncorrectable-data indication. -/
def State.poisonHit (s : State) (pl : List (Nat × Nat)) : Bool := s.anyPoison && pl.any fun p => s.poisoned p && !wholeBurst pl p

/-- The bursts that a write of these places covers leave the poison list. -/
def State.rewrite (s : State) (pl : List (Nat × Nat)) : State :=
  if s.anyPoison then
    (List.range 4).foldl (fun (t : State) c => t.modChan c fun h => { h with poison := h.poison.filter fun e => !wholeBurst pl (e.1, e.2 * 64) }) s
  else s

/-- The places of n virtual bytes, byte i of which stands at addr i. -/
def State.places (s : State) (ctx : Nat) (home : Option Nat) (addr : Nat → Nat) (n : Nat) : List (Nat × Nat) :=
  (List.range n).filterMap fun i => s.place ctx (addr i) true home

end Sys2Proof.Machine
end

