-- ==== Sys2Proof/Machine/Operands.lean ====
section
/-! DEFINITION. Operand forms: where an element of a tensor lies and how it is read and written, by home, layout and format
(R33, R57, R60, R71 to R78, R84, R95). -/

namespace Sys2Proof.Machine

/-! ## Index arithmetic -/

/-- Size of dimension i (innermost first), 1 beyond the rank. -/
def TensorRec.dim (t : TensorRec) (i : Nat) : Nat := t.dims.getD i 1
/-- Elements of the tensor. -/
def TensorRec.size (t : TensorRec) : Nat := t.dims.foldl (· * ·) 1
/-- The index list of a linear row-major position (R51). -/
def unlinear : List Nat → Nat → List Nat
  | [], _ => []
  | d :: r, n => (if d = 0 then 0 else n % d) :: unlinear r (if d = 0 then 0 else n / d)
/-- The linear row-major position of an index list, innermost first (R51). -/
def linear : List Nat → List Nat → Nat
  | d :: r, i :: js => i + d * linear r js
  | _, _ => 0
/-- Linear element offset by strides (R95). -/
def strideOff : List Nat → List Nat → Nat
  | s :: r, i :: js => s * i + strideOff r js
  | _, _ => 0

/-- ceil(a / b). -/
def ceilDiv (a b : Nat) : Nat := if b = 0 then 0 else (a + b - 1) / b

/-- Where an element lies: a virtual byte address or a byte of a squad store, with a bit offset in it. -/
structure Loc where
  store : Option Nat
  byte : Nat
  bit : Nat
deriving DecidableEq, Repr

/-- Block rows of the tensor: 128-row blocks, flattened over the outer dimensions (R73, R84). -/
def TensorRec.blockRows (t : TensorRec) : Nat := ceilDiv (TensorRec.dim t 1) 128
def TensorRec.blockCols (t : TensorRec) : Nat := ceilDiv (TensorRec.dim t 0) 128
/-- The outer dimensions' linear index. -/
def TensorRec.outer (t : TensorRec) (idx : List Nat) : Nat := linear (t.dims.drop 2) (idx.drop 2)

/-- Bytes of a skewed block in the squad store (R73, R74). -/
def Fmt.blockBytes (f : Fmt) : Nat := match f with | .mxfp4 => 8192 | g => 16384 * Fmt.skewBytes g

/-- Byte and bit of element (r, c) inside a skewed block: bank by bank, each bank's range after the last (R73, R74; DEDUCED, log 28). -/
def skewPos (f : Fmt) (r c : Nat) : Nat × Nat :=
  match f with
  | .mxfp4 =>
    let u := r / 2
    let v := c / 2
    let nib := r % 2 * 2 + c % 2
    (((u + v) % 64 + 64 * (v % 2)) * 64 + 2 * (u / 2) + nib / 2, 4 * (nib % 2))
  | g => let e := Fmt.skewBytes g
         (((r + c) % 128) * (128 * e) + r * e, 0)

/-- The squad that holds a 128-row block of a DISTRIBUTED tensor, in the order of R84, and the block's number there. -/
def State.distrib (s : State) (n : Nat) : Nat × Nat :=
  let u := s.unfenced
  if u.length = 0 then (0, n) else (u.getD (n % u.length) 0, n / u.length)

/-- The place of an element (R72, R73, R77, R95). -/
def State.loc (s : State) (t : TensorRec) (idx : List Nat) : Loc :=
  let r := idx.getD 1 0
  let c := idx.getD 0 0
  let plain (st : Option Nat) (n : Nat) : Loc :=
    let b := n * Fmt.bits t.fmt
    { store := st, byte := t.base + b / 8, bit := b % 8 }
  let blockRow := TensorRec.outer t idx * TensorRec.blockRows t + r / 128
  let skew (st : Nat) (row : Nat) : Loc :=
    let p := skewPos t.fmt (r % 128) (c % 128)
    { store := some st, byte := t.base + (row * TensorRec.blockCols t + c / 128) * Fmt.blockBytes t.fmt + p.1, bit := p.2 }
  match t.home with
  | .hbmLocal _ | .hbmWide => plain none (strideOff t.strides idx)
  | .squad sq => if t.skewed then skew sq blockRow else plain (some sq) (strideOff t.strides idx)
  | .distributed =>
    let d := s.distrib blockRow
    if t.skewed then skew d.1 d.2 else plain (some d.1) (c + t.strides.getD 1 0 * (d.2 * 128 + r % 128))

/-- The space a tensor's home requires (R163). -/
def Home.space : Home → Option Nat
  | .hbmLocal c => some c
  | .hbmWide => some 4
  | _ => none

/-- Bytes an element's place touches. -/
def Fmt.locBytes (f : Fmt) (skewed : Bool) (bit : Nat) : Nat :=
  if skewed then (match f with | .mxfp4 => 1 | g => Fmt.skewBytes g) else (bit + Fmt.bits f + 7) / 8

/-- The bytes at a place; none when an address does not translate or its data is uncorrectable. -/
def State.locRead (s : State) (ctx : Nat) (h : Option Nat) (l : Loc) (n : Nat) : Option (List Byte) :=
  match l.store with
  | some sq => some (s.storeRead sq l.byte n)
  | none => s.vread ctx h l.byte n

def State.locWrite (s : State) (ctx : Nat) (h : Option Nat) (l : Loc) (bs : List Byte) : State :=
  match l.store with
  | some sq => s.storeWrite sq l.byte bs
  | none => s.vwrite ctx h l.byte bs

/-- The pattern of an element. -/
def State.getCode (s : State) (ctx : Nat) (t : TensorRec) (idx : List Nat) : Option Nat :=
  let l := s.loc t idx
  (s.locRead ctx (Home.space t.home) l (Fmt.locBytes t.fmt t.skewed l.bit)).map fun bs => leNat bs / 2 ^ l.bit % 2 ^ Fmt.bits t.fmt

/-- Write an element's pattern; MXFP6 in a skewed block fills a byte whose upper bits are zero (R77). -/
def State.putCode (s : State) (ctx : Nat) (t : TensorRec) (idx : List Nat) (v : Nat) : State :=
  let l := s.loc t idx
  let n := Fmt.locBytes t.fmt t.skewed l.bit
  let w := Fmt.bits t.fmt
  if l.bit = 0 && w % 8 = 0 then s.locWrite ctx (Home.space t.home) l (leBytes n v)
  else match s.locRead ctx (Home.space t.home) l n with
    | none => s
    | some bs =>
      let o := leNat bs
      let keep := if t.skewed && w = 6 then 0 else o % 2 ^ l.bit + o / 2 ^ (l.bit + w) * 2 ^ (l.bit + w)
      s.locWrite ctx (Home.space t.home) l (leBytes n (keep + v % 2 ^ w * 2 ^ l.bit))

/-! ## Values -/

/-- The index of an element's scale in its scale table (R33). -/
def scaleIndex (axis : Nat) (idx : List Nat) : List Nat := idx.set axis (idx.getD axis 0 / 32)

/-- The scale byte of an element of an MX tensor; 127 is a scale of 1. -/
def State.scaleOf (s : State) (ctx : Nat) (recs : Tbl TensorRec) (t : TensorRec) (idx : List Nat) : Option Nat :=
  if Fmt.isMx t.fmt then
    match t.scaleTable.bind (tfind recs ·) with
    | some st => s.getCode ctx st (scaleIndex t.mxAxis idx)
    | none => some 127
  else some 127

/-- The value of an element, MX scale included; prod = as it enters a product (R37). -/
def State.elem (s : State) (ctx : Nat) (recs : Tbl TensorRec) (t : TensorRec) (prod : Bool) (idx : List Nat) : Option Num :=
  match s.getCode ctx t idx, s.scaleOf ctx recs t idx with
  | some v, some e =>
    let x := if prod then prodElem t.fmt v else decodeElem t.fmt v
    some (if Fmt.isMx t.fmt then scaleBy e x else x)
  | _, _ => none

/-- An element as binary32, for the vector core, the row engine and the update unit: narrower formats widen exactly, wider ones round
once (DESIGN CHOICE, log 22). -/
def State.elem32 (s : State) (ctx : Nat) (recs : Tbl TensorRec) (t : TensorRec) (idx : List Nat) : Option Word :=
  match t.fmt with
  | .fp32 => (s.getCode ctx t idx).map (BitVec.ofNat 32)
  | _ => (s.elem ctx recs t false idx).map fun n =>
      match n with
      | .fin sg m e => encode32 (roundNum p32 sg m e)
      | x => encode32 x

/-- The BF16 parts of an FP32 element (R39). -/
def splitHi (x : Num) : Num := match x with
  | .fin s m e => roundNum pBf16 s m e
  | y => y
def splitLo (x : Num) : Num := match x, splitHi x with
  | .fin s m e, .fin t k f => roundDy pBf16 ((Num.fin s m e).dy.sub (Num.fin t k f).dy)
  | _, _ => .fin false 0 0

/-- A value enters a product as zero: an FP32 element when both its parts are zero (R37, R39, R55). -/
def prodZero (f : Fmt) (x : Num) : Bool := if f = .fp32 then (splitHi x).isZero && (splitLo x).isZero else x.isZero

/-! ## Matrix operands (R57, R58, R71, R72) -/

/-- Rank-2 index of row r, column c at outer index g. -/
def mIdx (g r c : Nat) : List Nat := [c, r, g]

/-- The stored row of dense row r of a 2:4 tensor in the band of column c, or none for a dropped step (R57). The index entries stand one
to an element of the PAT24 tensor, in its format, x0 in bits 1:0 (DESIGN CHOICE, log 52; DEDUCED, log 28). -/
def State.keptRow (s : State) (ctx : Nat) (recs : Tbl TensorRec) (t : TensorRec) (r c : Nat) : Option Nat :=
  match t.pat24 with
  | none => some r
  | some h =>
    let v := match tfind recs h with
      | some p => (s.getCode ctx p [r / 4, c / 128]).getD 0
      | none => 0
    if r % 4 = v % 4 then some (2 * (r / 4)) else if r % 4 = v / 4 % 4 then some (2 * (r / 4) + 1) else none

/-- Element (r, c) of a stored matrix at outer index g, dropped 2:4 steps zero, elements outside the dimensions +0. -/
def State.matElem (s : State) (ctx : Nat) (recs : Tbl TensorRec) (t : TensorRec) (g r c : Nat) : Num :=
  match s.keptRow ctx recs t r c with
  | none => .fin false 0 0
  | some r' =>
    if TensorRec.dim t 1 ≤ r' ∨ TensorRec.dim t 0 ≤ c then .fin false 0 0 else (s.elem ctx recs t true (mIdx g r' c)).getD .nan

/-- a(i,k) or b(j,k): DIR = COL takes the k-th column, ROW the k-th row of the stored tensor (R72). -/
def State.vecElem (s : State) (ctx : Nat) (recs : Tbl TensorRec) (o : Operand) (t : TensorRec) (g i k : Nat) : Num :=
  if o.col then s.matElem ctx recs t g i k else s.matElem ctx recs t g k i

/-- Length of the operand's vectors and number of its k-steps (R71); a 2:4 tensor's dense rows are twice its stored rows. -/
def denseRows (t : TensorRec) : Nat := if t.pat24.isSome then 2 * TensorRec.dim t 1 else TensorRec.dim t 1
def operandLen (o : Operand) (t : TensorRec) : Nat := if o.col then denseRows t else TensorRec.dim t 0
def operandK (o : Operand) (t : TensorRec) : Nat := if o.col then TensorRec.dim t 0 else denseRows t

/-- The 2:4 pattern runs along K: the b operand's k-th vector is its k-th row (R58). -/
def patAlongK (o : Operand) (t : TensorRec) : Bool := t.pat24.isSome && !o.col

/-! ## Occupancy and mask maps (R55, R56, R60) -/

/-- Bit n of a tensor of bytes taken as a bit stream: bit n mod 8 of byte n / 8 (R55 and R60 give the order of the bits; which end of a
byte comes first is a DESIGN CHOICE, log 52). -/
def State.mapBit (s : State) (ctx : Nat) (t : TensorRec) (n : Nat) : Bool :=
  match s.locRead ctx (Home.space t.home) { store := match t.home with | .squad q => some q | _ => none, byte := t.base + n / 8, bit := 0 } 1 with
  | some [b] => b.getLsbD (n % 8)
  | _ => true

/-- The stored row of the quad that holds a dense row (R57). -/
def storedRow (t : TensorRec) (r : Nat) : Nat := if t.pat24.isSome then 2 * (r / 4) else r

/-- The 128-element by 16-step block that holds element i of step k is occupied, by the tensor's map when the map is valid and
runs along K (R55, R56). -/
def State.occupied (s : State) (ctx : Nat) (recs : Tbl TensorRec) (o : Operand) (t : TensorRec) (g i k : Nat) : Bool :=
  match t.occMap.bind (tfind recs ·) with
  | none => true
  | some m =>
    let kDim := if o.col then 0 else 1
    if !t.mapValid || t.mapKDim != kDim then true
    else
      let bands := ceilDiv (TensorRec.dim t (1 - kDim)) 128
      let wins := ceilDiv (TensorRec.dim t kDim) 16
      let e := if o.col then storedRow t i else i
      let p := if o.col then k else storedRow t k
      s.mapBit ctx m ((g * bands + e / 128) * wins + p / 16)

/-- The mask tile of query block q and key block c is live (R60): the map's bit, or some key at or below the query plus the
offset under the causal rule (DEDUCED, log 29). -/
def State.maskLive (s : State) (ctx : Nat) (recs : Tbl TensorRec) (m : Mask) (q c : Nat) : Bool :=
  match m with
  | .none => true
  | .map h => match tfind recs h with
    | some t => s.mapBit ctx t (q * TensorRec.dim t 0 + c)
    | none => true
  | .causal off => decide ((128 * c : Int) ≤ 128 * q + 127 + off)

/-! ## Writing outputs (R48 to R51, R53, R55) -/

/-- The random bits of an element under ROUND = STOCHASTIC. -/
def srOf (stoch : Bool) (t : TensorRec) (step : Nat) (idx : List Nat) : Option Nat :=
  if stoch && Fmt.srTarget t.fmt then some (srBits (TensorRec.seedEff t step) (linear t.dims idx)) else none

/-- A written pattern is non-finite (R53). -/
def codeNonFinite (f : Fmt) (v : Nat) : Bool :=
  match Fmt.int f with
  | some _ => false
  | none => !(decodeElem f v).isFin

/-- What a write reports: the state after it, a cast-overflow event, a non-finite value written. -/
structure Wrote where
  st : State
  ovf : Bool
  nonf : Bool
deriving DecidableEq, Repr

/-- Write one value to an element of a tensor that is not MX. -/
def State.putNum (s : State) (ctx : Nat) (t : TensorRec) (stoch rep : Bool) (step : Nat) (idx : List Nat) (x : Num) (neg : Bool) : Wrote :=
  let c := castElem t.fmt (srOf stoch t step idx) rep neg x
  { st := s.putCode ctx t idx c.1, ovf := c.2, nonf := codeNonFinite t.fmt c.1 }

/-- Write the values of one MX block: the scale byte and each element (R49). -/
def State.putBlock (s : State) (ctx : Nat) (recs : Tbl TensorRec) (t : TensorRec) (stoch : Bool) (step : Nat) (xs : List (List Nat × Num)) : Wrote :=
  let b := castMxBlock t.fmt (xs.map fun p => srOf stoch t step p.1) (xs.map (·.2))
  let s1 := (xs.zip b.2.1).foldl (fun s p => s.putCode ctx t p.1.1 p.2) s
  let s2 := match xs, t.scaleTable.bind (tfind recs ·) with
    | p :: _, some st => s1.putCode ctx st (scaleIndex t.mxAxis p.1) b.1
    | _, _ => s1
  { st := s2, ovf := b.2.2, nonf := b.1 == 255 }

/-- The values of the same MX block as the first, and the rest. -/
def sameBlock (axis : Nat) (xs : List (List Nat × Num)) : List (List Nat × Num) × List (List Nat × Num) :=
  match xs with
  | [] => ([], [])
  | p :: _ => xs.partition fun q => scaleIndex axis q.1 == scaleIndex axis p.1

/-- The elements that the block of an index has inside the tensor (R33, R49). -/
def mxBlockLen (t : TensorRec) (idx : List Nat) : Nat := min 32 (TensorRec.dim t t.mxAxis - idx.getD t.mxAxis 0 / 32 * 32)

/-- Write MX values block by block, each when all its elements are at hand, or whatever is at hand (every); what is left over waits
for the rest of its block, since a block has one scale (R49). -/
def State.putMx (ctx : Nat) (recs : Tbl TensorRec) (t : TensorRec) (stoch : Bool) (step : Nat) (every : Bool) :
    Nat → Wrote → List (List Nat × Num) → List (List Nat × Num) → Wrote × List (List Nat × Num)
  | 0, w, keep, xs => (w, keep ++ xs)
  | n + 1, w, keep, xs =>
    match xs with
    | [] => (w, keep)
    | x :: _ =>
      let p := sameBlock t.mxAxis xs
      if every || decide (mxBlockLen t x.1 ≤ p.1.length) then
        let r := w.st.putBlock ctx recs t stoch step p.1
        State.putMx ctx recs t stoch step every n { st := r.st, ovf := w.ovf || r.ovf, nonf := w.nonf || r.nonf } keep p.2
      else State.putMx ctx recs t stoch step every n w (keep ++ p.1) p.2

/-- The values of one tensor that wait, and new ones in place of those of their index. -/
def mxMerge (old new : List (List Nat × Num)) : List (List Nat × Num) := old.filter (fun p => !new.any fun q => q.1 == p.1) ++ new

/-- Write values to a tensor's elements, with the casts of its format (R48 to R51). -/
def State.putVals (s : State) (ctx : Nat) (recs : Tbl TensorRec) (t : TensorRec) (stoch rep : Bool) (step : Nat) (xs : List (List Nat × Num)) : Wrote :=
  if Fmt.isMx t.fmt then (State.putMx ctx recs t stoch step true xs.length { st := s, ovf := false, nonf := false } [] xs).1
  else xs.foldl (fun w p =>
    let r := w.st.putNum ctx t stoch rep step p.1 p.2 false
    { st := r.st, ovf := w.ovf || r.ovf, nonf := w.nonf || r.nonf }) { st := s, ovf := false, nonf := false }

/-- Operand n of a flight with its record copy (R94, R96). -/
def Flight.operand (f : Flight) (n : Nat) : Option (Operand × TensorRec) :=
  match f.desc.t.getD n none with
  | none => none
  | some o => (tfind f.recs o.handle).map fun t => (o, t)

end Sys2Proof.Machine
end

