-- ==== Sys2Proof/Machine/Tiles.lean ====
section
/-! DEFINITION. Tiles, groups, stages and checksum cells: the arithmetic of the outer-product array (R16, R19, R26, R27,
R34 to R45, R56 to R65, R387). -/

namespace Sys2Proof.Machine

/-! ## Shapes (R26, R27) -/

/-- Sub-blocks in order: a quarter, b half (R27). -/
def subBlocks : Shape → List (Nat × Nat)
  | .t2r => [(0, 0), (1, 0)]
  | .t2c => [(0, 0), (0, 1)]
  | .t4 => [(0, 0), (1, 0), (0, 1), (1, 1)]
  | .t8 => [(0, 0), (1, 0), (2, 0), (3, 0), (0, 1), (1, 1), (2, 1), (3, 1)]
  | _ => [(0, 0)]

/-- Rows and columns of a tile (R27). -/
def tileRows : Shape → Nat
  | .t2r | .t4 => 256
  | .t8 => 512
  | .tm16 => 16
  | .tm1 => 1
  | _ => 128
def tileCols : Shape → Nat
  | .t2c | .t4 | .t8 => 256
  | _ => 128

/-- Rows of a sub-block that are issued work (R27). -/
def issueRows : Shape → Nat
  | .tm16 => 16
  | .tm1 => 1
  | _ => 128

/-- Slot sets of a shape in an accumulator format (R27). -/
def slotSets (sh : Shape) (f : AccFmt) : List (List Nat) :=
  let n := (subBlocks sh).length
  let slots := if f = .fp32e then 4 else 8
  if slots < n then [] else (List.range (slots / n)).map fun i => (List.range n).map (n * i + ·)

/-- Storage bits of a slot: an FP32E slot e is bits 2e and 2e + 1 (R26, R94). -/
def slotBits (f : AccFmt) (k : Nat) : List Nat := if f = .fp32e then [2 * k, 2 * k + 1] else [k]

/-- k-steps a cell takes in one cycle (R16). -/
def stepsPerCycle : Fmt → Nat
  | .bf16 | .fp16 | .fp32 => 1
  | .mxfp4 => 4
  | _ => 2

/-- The group length (R35). -/
def groupLen (f : Fmt) : Nat := if Fmt.isMx f then 32 else 2

/-! ## Group sums (R35 to R39) -/

/-- The exact sum of products under R38: NaN and infinities first. -/
def groupSum (ps : List (Num × Num)) : Num :=
  ps.foldl (fun acc p =>
    let t : Num := match p.1, p.2 with
      | .nan, _ => .nan
      | _, .nan => .nan
      | .inf s, y => if y.isZero then .nan else .inf (s != y.sign)
      | x, .inf s => if x.isZero then .nan else .inf (x.sign != s)
      | x, y => numOfDy (x.dy.mul y.dy)
    match acc, t with
    | .nan, _ => .nan
    | _, .nan => .nan
    | .inf s, .inf u => if s = u then .inf s else .nan
    | .inf s, _ => .inf s
    | _, .inf s => .inf s
    | x, y => numOfDy (x.dy.add y.dy)) (.fin false 0 0)

/-- The products of one k-step of one cell: three for split FP32, without those whose lo factor is zero; an infinite operand's product
is that of the hi parts, whatever the sign of the other's lo part (R39; DEDUCED, log 51). -/
def stepProducts (f : Fmt) (a b : Num) : List (Num × Num) :=
  match f with
  | .fp32 =>
    let al := splitLo a
    let bl := splitLo b
    if a.isInf || b.isInf then [(splitHi a, splitHi b)]
    else (splitHi a, splitHi b) :: ((if bl.isZero then [] else [(splitHi a, bl)]) ++ (if al.isZero then [] else [(al, splitHi b)]))
  | _ => [(a, b)]

/-- The operand parts issued cycle by cycle for one k-step (R27, R387). -/
def stepParts (f : Fmt) (a b : Num) : List (Num × Num) :=
  match f with
  | .fp32 => [(splitHi a, splitHi b), (splitHi a, splitLo b), (splitLo a, splitHi b)]
  | _ => [(a, b)]

/-- The integer value of an INT8 element. -/
def numInt : Num → Int
  | .fin s m e => let v : Int := if 0 ≤ e then m * (2 : Int) ^ e.toNat else (m / 2 ^ (-e).toNat : Nat)
                  if s then -v else v
  | _ => 0

/-- An exact value rounded into a slot format (R34). -/
def pairOf (x : Num) : Nat × Nat :=
  match x with
  | .fin s m e =>
    match roundNum p32 s m e with
    | .fin t k f => (encodeNum p32 8 (.fin t k f), encodeNum p32 8 (roundDy p32 ((Num.fin s m e).dy.sub (Num.fin t k f).dy)))
    | y => (encodeNum p32 8 y, 0)
  | y => (encodeNum p32 8 y, 0)

/-- The value a slot cell holds (R34). -/
def cellNum (f : AccFmt) (w : W64) : Num :=
  match f with
  | .fp32 => decode32 (w.truncate 32)
  | .fp32e => pairNum w.toNat
  | .int32 => numOfInt (w.truncate 32).toInt

/-- One value as the slot format holds it. -/
def numCell (f : AccFmt) (x : Num) : W64 :=
  match f with
  | .fp32 => (encode32 (match x with | .fin s m e => roundNum p32 s m e | y => y)).zeroExtend 64
  | .fp32e => let p := pairOf x; BitVec.ofNat 64 (p.1 * 2 ^ 32 + p.2)
  | .int32 => (BitVec.ofInt 32 (numInt x)).zeroExtend 64

/-- Add a group to a slot cell: exact, one rounding; a zero group leaves the slot unchanged (R34, R36, R38). -/
def addGroup (f : AccFmt) (w : W64) (g : Num) : W64 :=
  if g.isZero then w
  else match f with
    | .int32 => (w.truncate 32 + BitVec.ofInt 32 (numInt g)).zeroExtend 64
    | _ =>
      match cellNum f w, g with
      | .fin s m e, .fin t k x => numCell f (numOfDy ((Num.fin s m e).dy.add (Num.fin t k x).dy))
      | .nan, _ => numCell f .nan
      | _, .nan => numCell f .nan
      | .inf s, .inf t => numCell f (if s = t then .inf s else .nan)
      | .inf s, _ => numCell f (.inf s)
      | _, .inf s => numCell f (.inf s)

/-- Add two partials of the stage tree: one rounding to the slot format (R42). An exact zero of FP32E is +0, of whatever signs it is
the sum (DESIGN CHOICE, log 52). -/
def addPartial (f : AccFmt) (a b : W64) : W64 :=
  match f with
  | .fp32 => (fAdd (a.truncate 32) (b.truncate 32)).zeroExtend 64
  | .int32 => (a.truncate 32 + b.truncate 32).zeroExtend 64
  | .fp32e =>
    match cellNum f a, cellNum f b with
    | .fin s m e, .fin t k x => numCell f (numOfDy ((Num.fin s m e).dy.add (Num.fin t k x).dy))
    | x, y => numCell f (addNum p32 x y)

/-- Keys that either of two tables lists. -/
def unionKeys {α β : Type} (a : Tbl α) (b : Tbl β) : List Nat := a.map (·.1) ++ (b.map (·.1)).filter fun k => !(a.any fun e => e.1 == k)

/-- Add two partials cell by cell. -/
def addCells (f : AccFmt) (a b : Tbl W64) : Tbl W64 :=
  (unionKeys a b).foldl (fun t k => tset 0 t k (addPartial f (tget 0 a k) (tget 0 b k))) []

/-! ## Operands of an item -/

/-- The flight with sequence number seq. -/
def Ctx.fl (c : Ctx) (seq : Nat) : Option Flight := c.flight.find? fun f => f.seq == seq

/-- The segment of a chain that holds dense step k (R41, R106). -/
def segAt (m : MatOp) (k : Nat) : Option Seg := m.segs.find? fun g => decide (g.k0 ≤ k ∧ k < g.k0 + g.len)

/-- What the feeders read for one segment: the flight, its a and b operands. -/
structure Feed where
  ctx : Nat
  fl : Flight
  ao : Operand
  ar : TensorRec
  bo : Operand
  br : TensorRec
  group : Nat
  k0 : Nat
deriving DecidableEq, Repr

def State.feed (s : State) (it : Item) (g : Seg) : Option Feed :=
  match (s.ctx it.ctx).fl g.seq with
  | none => none
  | some f =>
    match f.operand 0, f.operand 1 with
    | some (ao, ar), some (bo, br) => some { ctx := it.ctx, fl := f, ao := ao, ar := ar, bo := bo, br := br, group := it.group, k0 := g.k0 }
    | _, _ => none

/-- SKIP_OCC is set and the operand's map has bit 0 for the block of element i and step k (R55, R56). -/
def State.occZero (s : State) (f : Feed) (o : Operand) (t : TensorRec) (g i k : Nat) : Bool :=
  f.fl.desc.skipOcc && !s.occupied f.ctx f.fl.recs o t g i (k - f.k0)

/-- a(i,k) and b(j,k) at dense step k (R71). A block whose map bit is 0 reads as zero, whatever it holds (R55). -/
def State.aElem (s : State) (f : Feed) (i k : Nat) : Num :=
  if s.occZero f f.ao f.ar 0 i k then .fin false 0 0 else s.vecElem f.ctx f.fl.recs f.ao f.ar 0 i (k - f.k0)
def State.bElem (s : State) (f : Feed) (j k : Nat) : Num :=
  if s.occZero f f.bo f.br f.group j k then .fin false 0 0 else s.vecElem f.ctx f.fl.recs f.bo f.br f.group j (k - f.k0)

/-- Rows of a sub-block that are issued: the shape's, and below the item's count (R27, R65). -/
def rowsOfSub (sh : Shape) (it : Item) (aq : Nat) : List Nat :=
  (List.range (issueRows sh)).filter fun i => decide (aq * 128 + i < it.rows)

/-- A value-side skip needs the other operand CLEAN (R54). -/
def clean (t : TensorRec) : Bool := t.nf == .clean

/-- The mask leaves a sub-block's scores uncomputed: a product of two column operands has queries on M and keys on N; for dP only
while both operands are CLEAN (R54, R60, R71; log 29). -/
def State.maskedTile (s : State) (f : Feed) (it : Item) (sb : Nat × Nat) : Bool :=
  f.ao.col && f.bo.col && (!f.fl.desc.valueSide || (clean f.ar && clean f.br)) && !s.maskLive f.ctx f.fl.recs f.fl.desc.mask (it.row0 / 128 + sb.1) (it.col0 / 128 + sb.2)

/-- The mask drops the step: keys along K for column a and row b, queries along K for row a (R60). -/
def State.maskedStep (s : State) (f : Feed) (it : Item) (sb : Nat × Nat) (k : Nat) : Bool :=
  if f.ao.col && !f.bo.col then
    clean f.br && !s.maskLive f.ctx f.fl.recs f.fl.desc.mask (it.row0 / 128 + sb.1) ((k - f.k0) / 128)
  else if !f.ao.col then
    clean f.br && !s.maskLive f.ctx f.fl.recs f.fl.desc.mask ((k - f.k0) / 128) (it.row0 / 128 + sb.1)
  else false

/-- SKIP_OCC finds the sub-block dead at step k: its a rows' blocks, of which a group's first row may make two, or its b block (R54,
R56). -/
def State.occDead (s : State) (f : Feed) (sh : Shape) (it : Item) (sb : Nat × Nat) (k : Nat) : Bool :=
  (clean f.br && (rowsOfSub sh it sb.1).all fun i => s.occZero f f.ao f.ar 0 (it.row0 + sb.1 * 128 + i) k) ||
    (clean f.ar && s.occZero f f.bo f.br f.group (it.col0 + sb.2 * 128) k)

/-- SKIP_ZV finds the a subvector zero (R54, R59). -/
def State.zvDead (s : State) (f : Feed) (sh : Shape) (it : Item) (sb : Nat × Nat) (k : Nat) : Bool :=
  f.fl.desc.skipZv && clean f.br && (rowsOfSub sh it sb.1).all fun i => prodZero f.ar.fmt (s.aElem f (it.row0 + sb.1 * 128 + i) k)

/-- A step dropped by a 2:4 pattern along K (R58). -/
def State.patDead (s : State) (f : Feed) (it : Item) (sb : Nat × Nat) (k : Nat) : Bool :=
  patAlongK f.bo f.br && (s.keptRow f.ctx f.fl.recs f.br (k - f.k0) (it.col0 + sb.2 * 128)).isNone

/-- The step is issued to the sub-block (R56 to R60). -/
def State.liveStep (s : State) (f : Feed) (sh : Shape) (it : Item) (sb : Nat × Nat) (k : Nat) : Bool :=
  !s.maskedTile f it sb && !s.maskedStep f it sb k && !s.occDead f sh it sb k && !s.zvDead f sh it sb k && !s.patDead f it sb k

/-- A dropped 2:4 step that the a feeder fetches without issuing it, because a is not CLEAN (R58). -/
def State.fetchedStep (s : State) (f : Feed) (it : Item) (sb : Nat × Nat) (k : Nat) : Bool := s.patDead f it sb k && !clean f.ar

/-- The step enters its group's sum: issued, or fetched only (R58). -/
def State.summedStep (s : State) (f : Feed) (sh : Shape) (it : Item) (sb : Nat × Nat) (k : Nat) : Bool :=
  s.liveStep f sh it sb k || s.fetchedStep f it sb k

/-! ## One slot's group and checksum (R35, R387) -/

/-- Close the open group of a slot: every cell adds its exact sum once (R35). -/
def State.closeGroup (s : State) (m : MatOp) (sh : Shape) (acc : AccFmt) (it : Item) (sb : Nat × Nat) (sl : Slot) : Slot :=
  let feeds := sl.open_.filterMap fun k => (segAt m k).bind fun g => (s.feed it g).map fun f => (k, f)
  match sl.open_ with
  | [] => sl
  | _ =>
    let cells := (rowsOfSub sh it sb.1).foldl (fun t i => (List.range 128).foldl (fun t j =>
      let ps := feeds.flatMap fun p =>
        stepProducts p.2.ar.fmt (s.aElem p.2 (it.row0 + sb.1 * 128 + i) p.1) (s.bElem p.2 (it.col0 + sb.2 * 128 + j) p.1)
      tset 0 t (i * 128 + j) (addGroup acc (tget 0 t (i * 128 + j)) (groupSum ps))) t) sl.cells
    { sl with cells := cells, open_ := [] }

/-- Sums of operand elements in the extended format, ascending (R387). -/
def extSum (l : List Num) : Num := l.foldl (addNum pExt) (.fin false 0 0)

def chkAdd (c : Chk) (a b aa bb : Num) : Chk :=
  { c with s := fmaNum pExt a b c.s, m := fmaNum pExt aa bb c.m }

/-- The checksum cells after one issue of operand vectors (R387). -/
def chkStep (rows : List Nat) (av bv : List Num) (sl : Slot) : Slot :=
  let sa := extSum av
  let saa := extSum (av.map Num.abs)
  let sb := extSum bv
  let sbb := extSum (bv.map Num.abs)
  { sl with
    chkRow := ((List.range 128).zip bv).foldl (fun t p => tset Chk.zero t p.1 (chkAdd (tget Chk.zero t p.1) sa p.2 saa p.2.abs)) sl.chkRow
    chkCol := (rows.zip av).foldl (fun t p => tset Chk.zero t p.1 (chkAdd (tget Chk.zero t p.1) p.2 sb p.2.abs sbb)) sl.chkCol
    corner := chkAdd sl.corner sa sb saa sbb }

/-- The checksum cells of an INT32 slot (R387). -/
def chkStepInt (rows : List Nat) (av bv : List Num) (sl : Slot) : Slot :=
  let w (n : Num) : Word := BitVec.ofInt 32 (numInt n)
  let sa := (av.map w).foldl (· + ·) 0
  let sb := (bv.map w).foldl (· + ·) 0
  let add (c : Chk) (x : Word) : Chk := { c with i := c.i + x }
  { sl with
    chkRow := ((List.range 128).zip bv).foldl (fun t p => tset Chk.zero t p.1 (add (tget Chk.zero t p.1) (sa * w p.2))) sl.chkRow
    chkCol := (rows.zip av).foldl (fun t p => tset Chk.zero t p.1 (add (tget Chk.zero t p.1) (w p.2 * sb))) sl.chkCol
    corner := add sl.corner (sa * sb) }

/-- Issue one step to a slot: its group opens or goes on, and the checksum row, column and corner take it if it is issued. -/
def State.issueStep (s : State) (m : MatOp) (sh : Shape) (acc : AccFmt) (it : Item) (sb : Nat × Nat) (f : Feed) (k : Nat) (sl : Slot) : Slot :=
  let g := groupLen f.ar.fmt
  let sl := match sl.open_ with
    | [] => sl
    | k' :: _ => if k' / g = k / g then sl else s.closeGroup m sh acc it sb sl
  let live := s.liveStep f sh it sb k
  let sl := { sl with open_ := sl.open_ ++ [k], used := sl.used || live }
  if live then
    let rows := rowsOfSub sh it sb.1
    let av := rows.map fun i => s.aElem f (it.row0 + sb.1 * 128 + i) k
    let bv := (List.range 128).map fun j => s.bElem f (it.col0 + sb.2 * 128 + j) k
    if acc = .int32 then chkStepInt rows av bv sl
    else
      let pa := av.map fun a => (stepParts f.ar.fmt a a).map (·.1)
      let pb := bv.map fun b => (stepParts f.ar.fmt b b).map (·.2)
      (List.range (if f.ar.fmt = .fp32 then 3 else 1)).foldl (fun sl n =>
        chkStep rows (pa.map fun l => l.getD n (.fin false 0 0)) (pb.map fun l => l.getD n (.fin false 0 0)) sl) sl
  else sl

end Sys2Proof.Machine
end

