-- ==== Sys2Proof/Machine/Crypto.lean ====
section
/-! DEFINITION. CRC-32 (R211, R312, R317: as the IEEE 802.3 frame check sequence), SHA-256 and HMAC (R322; FIPS 180-4 and
FIPS 198-1): PRESUMED, taken from those standards (PRESUMED, log 13). -/

namespace Sys2Proof.Machine

/-! ## CRC-32 -/

/-- One bit of the reflected CRC-32. -/
def crcBit (c : Word) : Word := if c.getLsbD 0 then (c >>> 1) ^^^ 0xEDB88320#32 else c >>> 1
def crcByte (c : Word) (b : Byte) : Word := Nat.repeat crcBit 8 (c ^^^ b.zeroExtend 32)
/-- CRC-32 of bytes: initial value and final inversion all ones. -/
def crc32 (l : List Byte) : Word := (l.foldl crcByte 0xFFFFFFFF#32) ^^^ 0xFFFFFFFF#32

/-! ## SHA-256 -/

/-- The largest root x below 2^n with x ^ e at most v, built from the top bit down. -/
def rootBits (e v : Nat) : Nat → Nat → Nat
  | 0, x => x
  | n + 1, x => rootBits e v n (if (x + 2 ^ n) ^ e ≤ v then x + 2 ^ n else x)

/-- The first 32 fraction bits of the e-th root of p. -/
def rootFraction (e p : Nat) : Word := BitVec.ofNat 32 (rootBits e (p * 2 ^ (32 * e)) 37 0)

/-- The first 64 primes: no number from 2 on divides them. -/
def shaPrimes : List Nat := (List.range 312).filter fun p => decide (2 ≤ p) && ((List.range 18).all fun d => decide (d < 2) || decide (p ≤ d) || p % d != 0)

/-- The round constants come from cube roots, the first hash words from square roots. -/
def roundConstants : List Word := shaPrimes.map (rootFraction 3)
def firstHash : List Word := (shaPrimes.take 8).map (rootFraction 2)

/-- A word's rotations right by the given counts, exclusive-ored. -/
def mixed (x : Word) (counts : List Nat) : Word := counts.foldl (fun acc k => acc ^^^ x.rotateRight k) 0

/-- The lines of a hash in progress: the two working words that change, each with its three last values, newest first. -/
structure ShaLines where
  up : List Word
  low : List Word
deriving DecidableEq, Repr

def ShaLines.a (l : ShaLines) (k : Nat) : Word := l.up.getD k 0
def ShaLines.e (l : ShaLines) (k : Nat) : Word := l.low.getD k 0

/-- One round under k + w: both lines move on by one value. -/
def ShaLines.round (l : ShaLines) (kw : Word) : ShaLines :=
  let choice := (l.e 0 &&& l.e 1) ||| (~~~(l.e 0) &&& l.e 2)
  let most := (l.a 0 &&& (l.a 1 ||| l.a 2)) ||| (l.a 1 &&& l.a 2)
  let feed := mixed (l.e 0) [6, 11, 25] + choice + l.e 3 + kw
  ⟨(feed + mixed (l.a 0) [2, 13, 22] + most) :: l.up.take 3, (feed + l.a 3) :: l.low.take 3⟩

/-- The 16 latest schedule words, oldest first, moved on by one. -/
def schedNext (w : List Word) : List Word :=
  let x := w.getD 1 0
  let y := w.getD 14 0
  w.drop 1 ++ [(mixed x [7, 18] ^^^ (x >>> 3)) + (mixed y [17, 19] ^^^ (y >>> 10)) + w.getD 9 0 + w.getD 0 0]

/-- Rounds over the constants that remain, with the schedule beside them. -/
def shaRounds : List Word → List Word → ShaLines → ShaLines
  | [], _, l => l
  | k :: ks, w, l => shaRounds ks (schedNext w) (l.round (k + w.getD 0 0))

/-- Four bytes, most significant first. -/
def beWord (l : List Byte) : Word := BitVec.ofNat 32 (leNat (l.take 4).reverse)
def beBytes (w : Word) : List Byte := (leBytes 4 w.toNat).reverse

/-- The hash words after one 64-byte block. -/
def shaBlock (h : List Word) (blk : List Byte) : List Word :=
  let l := shaRounds roundConstants ((List.range 16).map fun i => beWord (blk.drop (4 * i))) ⟨h.take 4, h.drop 4⟩
  List.zipWith (· + ·) h (l.up ++ l.low)

/-- A message of whole blocks: 0x80, zeros, the length in bits as eight bytes. -/
def shaPad (l : List Byte) : List Byte :=
  let body := l ++ [0x80#8]
  body ++ List.replicate ((120 - body.length % 64) % 64) 0#8 ++ (leBytes 8 (8 * l.length)).reverse

def sha256 (l : List Byte) : List Byte :=
  let p := shaPad l
  ((List.range (p.length / 64)).foldl (fun h i => shaBlock h ((p.drop (64 * i)).take 64)) firstHash).flatMap beBytes

/-- HMAC-SHA-256 under a key of at most 64 bytes. -/
def hmac (key msg : List Byte) : List Byte :=
  let k := padTo 64 key
  sha256 ((k.map (· ^^^ 0x5C#8)) ++ sha256 ((k.map (· ^^^ 0x36#8)) ++ msg))

end Sys2Proof.Machine
end

