-- ==== Sys2Proof/Machine/Records.lean ====
section
/-! DEFINITION. Ledger records: how one is stamped, held, merged, suppressed, placed, and read (R149, R245, R308 to R318). -/

namespace Sys2Proof.Machine

/-- 2^32 - 1. -/
def max32 : Nat := 0xFFFFFFFF
/-- A 32-bit counter that stays at its greatest value (R328; DEDUCED, log 26). -/
def bump32 (w : Word) : Word := if w = 0xFFFFFFFF#32 then w else w + 1

/-- Set bit i of the Watch Port's ALERT word (R356). -/
def State.alert (s : State) (i : Nat) : State :=
  s.setWatch { s.watch with alert := s.watch.alert ||| BitVec.ofNat 5 (2 ^ i) }

/-! ## Maintenance windows (R149, R245) -/

/-- The start of the current step of a context, if one has started. -/
def Ctx.stepStart (c : Ctx) : Option W64 := c.stepStarts.head?

/-- ST lies in a MAINTENANCE window of the context's current step (R242, R243). -/
def Ctx.inMaint (c : Ctx) (st : W64) (left : Nat) : Bool :=
  match c.plan, c.stepStart with
  | some p, some t =>
    let o := st.toNat - t.toNat
    p.windows.any fun w => w.kind == .maintenance && decide (w.start ≤ o ∧ o + left < w.start + w.len)
  | _, _ => false

/-- A context holds a step plan in force (R149; DEDUCED, log 27). -/
def Ctx.planned (c : Ctx) : Bool := c.started && c.plan.isSome

/-- A maintenance window is open with more than `left` ns still to run: of the running context's plan, or all time while ST is
unknown or no context holds a plan in force (R149). -/
def State.maintFor (s : State) (left : Nat) : Bool :=
  !s.clk.known || (!s.ctx0.planned && !s.ctx1.planned) || ((s.ctx s.runningCtx).planned && (s.ctx s.runningCtx).inMaint s.clk.st left)

def State.maint (s : State) : Bool := s.maintFor 0

/-! ## Slots (R308, R309, R314) -/

def fatalSlots : Nat := 8192
def allSlots : Nat := 122880

/-- The lowest of the n keys from k on that a table does not list. -/
def freeFrom {α : Type} : Nat → Nat → Tbl α → Option Nat
  | 0, _, _ => none
  | n + 1, k, t => if (tfind t k).isNone then some k else freeFrom n (k + 1) t

/-- The fatal region's listed slots. -/
def Ledger.fatalUsed (l : Ledger) : Nat := (l.slots.filter fun e => decide (e.1 < fatalSlots)).length
/-- LEDG_FATAL_FREE (R309). -/
def Ledger.fatalFree (l : Ledger) : Nat := fatalSlots - l.fatalUsed

/-- The slot of the oldest shared record of a severity. -/
def oldest (sl : Tbl Rec) (sev : Nat) : Option Nat :=
  (sl.foldl (fun acc e => if fatalSlots ≤ e.1 ∧ e.2.sev = sev then
      match acc with
      | some (o, _) => if e.2.order < o then some (e.2.order, e.1) else acc
      | none => some (e.2.order, e.1)
    else acc) (none : Option (Nat × Nat))).map (·.2)

/-- The victim a shared record of severity sev may displace (R314). -/
def victim (sl : Tbl Rec) (sev : Nat) : Option Nat :=
  match sev with
  | 0 => oldest sl 0
  | 1 => (oldest sl 0).orElse fun _ => oldest sl 1
  | _ => ((oldest sl 0).orElse fun _ => oldest sl 1).orElse fun _ => oldest sl 2

/-- Assign the next SEQ (R313). -/
def Ledger.nextSeq (l : Ledger) : Ledger :=
  { l with head := l.head + 1, any := true, wraps := if l.head = 0xFFFFFFFF#32 then l.wraps + 1 else l.wraps }

/-- The slot a record of severity sev goes to (R309, R314). -/
def Ledger.place (l : Ledger) (sev : Nat) : Option Nat :=
  if sev = 3 then freeFrom fatalSlots 0 l.slots
  else (freeFrom (allSlots - fatalSlots) fatalSlots l.slots).orElse fun _ => victim l.slots sev

/-- Put a record in a slot with the next SEQ and write order. -/
def Ledger.putAt (l : Ledger) (k : Nat) (r : Rec) : Ledger :=
  let n := l.nextSeq
  { n with slots := tins k { r with seq := n.head, order := n.order } n.slots, order := n.order + 1 }

/-- Vector 243 (R349). -/
def State.dropVector (s : State) : State := s.raise 243

/-- A record that finds no place: a SEQ and a counter advance (R309, R313, R314). -/
def State.dropRec (s : State) (sev : Nat) : State :=
  let l := s.ledger.nextSeq
  let m := if sev = 3 then { l with fatalLost := bump32 l.fatalLost }
    else if sev = 0 then { l with droppedInfo := bump32 l.droppedInfo } else { l with droppedWarn := bump32 l.droppedWarn }
  (s.setLedger m).dropVector

/-- LEDG_FATAL_FREE fell below 256: vector 244 (R349). -/
def State.fatalLow (s : State) (before : Nat) : State :=
  if 256 ≤ before ∧ s.ledger.fatalFree < 256 then s.raise 244 else s

/-- A Fatal record was written: vector 240, ALERT[2], HEALTH[14] (R338, R349). -/
def State.fatalWritten (s : State) : State :=
  let t := (s.raise 240).alert 2
  t.setWatch { t.watch with fatalSince := true }

/-- Write a record to MRAM (R309, R312 to R314). -/
def State.writeRec (s : State) (r : Rec) : State :=
  match s.ledger.place r.sev with
  | none => s.dropRec r.sev
  | some k =>
    let t := s.setLedger (s.ledger.putAt k r)
    if r.sev = 3 then t.fatalWritten.fatalLow s.ledger.fatalFree else t

/-! ## Floods (R315, R316) -/

/-- Records with uid u in a list of held records. -/
def heldFind (l : List (Nat × Rec)) (u : Nat) : Option Rec := (l.find? fun e => e.2.uid == u).map (·.2)

/-- The record with uid u, written or held. -/
def Ledger.byUid (l : Ledger) (u : Nat) : Option Rec :=
  (heldFind l.held u).orElse fun _ => (heldFind l.waiting u).orElse fun _ => heldFind l.slots u

def advRep (u : Nat) (e : Nat × Rec) : Nat × Rec := if e.2.uid = u then (e.1, { e.2 with rep := e.2.rep + 1 }) else e

/-- The candidate of a class that a device record o merges into (R315). -/
def Ledger.candidate (l : Ledger) (o : Offer) (now : Nat) : Option Nat :=
  match tfind l.cand (o.code / 1024) with
  | none => none
  | some c =>
    match l.byUid c.uid with
    | none => none
    | some r =>
      if !r.host && r.code == o.code && r.srcType == o.srcType && r.srcInst == o.srcInst && r.sev == o.sev && r.fclass == o.fclass
        && decide (now - c.last < 1000000000) && decide (r.rep < 65535) then some c.uid else none

/-- Advance REPEAT of the record u (R315). -/
def Ledger.merge (l : Ledger) (cls u now : Nat) : Ledger :=
  { l with held := l.held.map (advRep u), waiting := l.waiting.map (advRep u), slots := l.slots.map (advRep u),
           cand := tins cls { uid := u, last := now } l.cand }

/-- LEDG_FLOOD[class], 3 taken as 0 (R337). -/
def State.floodMode (s : State) (cls : Nat) : Nat := let v := s.rg (pgLEDG + 0x200 + 4 * cls) % 4; if v = 3 then 0 else v
/-- LEDG_RATE_N[class] (R337). -/
def State.rateN (s : State) (cls : Nat) : Nat := s.rg (pgLEDG + 0x300 + 4 * cls) % 256

/-- RATE refuses this occurrence (R316). -/
def State.rateFull (s : State) (code : Nat) : Bool :=
  s.floodMode (code / 1024) == 2 && decide (s.rateN (code / 1024) ≤ tget 0 s.ledger.rate code)

/-- An occurrence that RATE suppresses (R316). -/
def Ledger.suppress (l : Ledger) (code : Nat) : Ledger := { l with suppr := tset 0 l.suppr (code / 1024) (capTo max32 (tget 0 l.suppr (code / 1024) + 1)) }
/-- An occurrence that RATE counts. -/
def Ledger.countRate (l : Ledger) (code : Nat) : Ledger := { l with rate := tset 0 l.rate code (tget 0 l.rate code + 1) }

/-! ## Offering a record -/

/-- The record of an offer, stamped with the moment of the event (R310, R311). -/
def State.stamp (s : State) (o : Offer) (host holdup : Bool) : Rec :=
  { uid := s.ledger.uid, order := 0, seq := 0, code := o.code, sev := o.sev, fclass := o.fclass, stUnknown := !s.clk.known,
    host := host, holdup := holdup, srcType := o.srcType, srcInst := o.srcInst, rep := 1, pcycle := s.mram.pcycle,
    ponS := s.dev.ponLive, st := if s.clk.known then s.clk.st else 0, payload := padTo 32 o.payload }

/-- The newest record of its class becomes the candidate (R315). -/
def Ledger.newCand (l : Ledger) (cls now : Nat) : Ledger :=
  { l with cand := tins cls { uid := l.uid, last := now } l.cand, uid := l.uid + 1 }

/-- Hold a record in the buffer of channel ch (R245). -/
def State.holdRec (s : State) (ch : Nat) (r : Rec) : State :=
  if 512 ≤ (s.ledger.held.filter fun e => e.1 == ch).length then s.dropRec r.sev
  else s.setLedger { s.ledger with held := s.ledger.held ++ [(ch, r)] }

/-- A new record: waiting during steps 1 to 5 of start-up and during an erase, held outside a maintenance window when Info or
Warning, else written (R245, R311, R324). -/
def State.admitRec (s : State) (ch : Nat) (r : Rec) : State :=
  if s.dev.mode == .dark || s.ledger.erasing.isSome then s.setLedger { s.ledger with waiting := s.ledger.waiting ++ [(ch, r)] }
  else if r.sev < 2 && !s.maint then s.holdRec ch r
  else s.writeRec r

/-- Offer a device record of channel ch, 4 for a global source. Fatal records and the clear procedure's ignore the flood modes
(R245, R310 to R316). -/
def State.record (s : State) (ch : Nat) (o : Offer) : State :=
  let ch := if ch < 4 then ch else 0
  let cls := o.code / 1024
  let now := s.clk.ltb
  if s.dev.mode == .dark && s.dev.step == 0 then s
  else
    let new (t : State) : State := (t.setLedger (t.ledger.newCand cls now)).admitRec ch (t.stamp o false false)
    if o.sev = 3 || o.code == 0x4C02 then new s
    else match s.floodMode cls with
      | 1 => match s.ledger.candidate o now with
        | some u => s.setLedger (s.ledger.merge cls u now)
        | none => new s
      | 2 => if s.rateFull o.code then s.setLedger (s.ledger.suppress o.code) else new (s.setLedger (s.ledger.countRate o.code))
      | _ => new s

/-- A device record with a payload; severity 0 Info, 1 Warning, 2 Error, 3 Fatal; class of R285. -/
def State.log (s : State) (ch code sev cls srcType srcInst : Nat) (payload : List Byte) : State :=
  s.record ch { code := code, sev := sev, fclass := cls, srcType := srcType, srcInst := srcInst, payload := payload }

/-- Write every held record, in the order in which they were held (R245). -/
def State.flushHeld (s : State) : State :=
  let h := s.ledger.held
  h.foldl (fun t e => t.writeRec e.2) (s.setLedger { s.ledger with held := [] })

/-- DEV_PCYCLE advances, once for each power-up (R311). -/
def State.advancePcycle (s : State) : State :=
  if s.dev.pcAdvanced then s
  else (s.setMram { s.mram with pcycle := capTo 65535 (s.mram.pcycle + 1) }).setDev { s.dev with pcAdvanced := true }

/-- Write the records held since step 1, stamped with the advanced count (R311). -/
def State.flushWaiting (s : State) : State :=
  let h := s.ledger.waiting
  h.foldl (fun t e => t.writeRec { e.2 with pcycle := t.mram.pcycle }) (s.setLedger { s.ledger with waiting := [] })

/-- After an erase: Error and Fatal records are written first, Info and Warning ones follow under R245 (R324). -/
def State.flushErase (s : State) : State :=
  let h := s.ledger.waiting
  let t := (h.filter fun e => decide (2 ≤ e.2.sev)).foldl (fun t e => t.writeRec e.2) (s.setLedger { s.ledger with waiting := [] })
  (h.filter fun e => decide (e.2.sev < 2)).foldl (fun t e => t.admitRec e.1 e.2) t

/-! ## The bytes of a slot (R310, R312) -/

/-- Byte 6. -/
def Rec.sevByte (r : Rec) : Nat := r.sev * 64 + r.fclass * 8 + b2n r.stUnknown * 4 + b2n r.host * 2 + b2n r.holdup

/-- Bytes 0 to 57. -/
def Rec.front (r : Rec) : List Byte :=
  leBytes 4 r.seq.toNat ++ leBytes 2 r.code ++ leBytes 1 r.sevByte ++ leBytes 1 r.srcType ++ leBytes 2 r.srcInst ++
    leBytes 2 r.rep ++ leBytes 2 r.pcycle ++ leBytes 4 r.ponS ++ leBytes 8 r.st.toNat ++ padTo 32 r.payload

/-- The 64 bytes: CRC for the host class, MARK 0x5A for the device class. -/
def Rec.bytes (r : Rec) : List Byte :=
  let f := r.front
  if r.host then f ++ leBytes 4 (crc32 f).toNat ++ [0x00#8, 0x00#8] else f ++ leBytes 4 0 ++ [0x5A#8, 0x00#8]

/-- The bytes of a slot: zeros for an empty slot and above 122,879 (R319, R337). -/
def Ledger.slotBytes (l : Ledger) (k : Nat) : List Byte :=
  match tfind l.slots k with
  | some r => if k < allSlots then r.bytes else List.replicate 64 0#8
  | none => List.replicate 64 0#8

end Sys2Proof.Machine
end

