-- ==== Sys2Proof/Machine/Degrade.lean ====
section
/-! DEFINITION. What faults take away: lost contexts, fenced squads, channels taken down, device modes, Sideline mode
(R285, R297 to R304). -/

namespace Sys2Proof.Machine

/-! ## Modes (R303) -/

def Mode.code : Mode → Nat
  | .full => 0
  | .reduced => 1
  | .sideline => 2
  | .dark => 3

/-- Severity of a mode-change record (R393). -/
def modeSev (dst : Mode) (trigger : Nat) : Nat :=
  match dst with
  | .sideline => 3
  | .reduced => 1
  | .full => 0
  | .dark => if trigger = 12 ∨ trigger = 13 then 2 else 0

/-- The mode-change record's payload (R393). -/
def State.modePayload (s : State) (old new : Mode) (trigger chan : Nat) : List Byte :=
  leBytes 1 (Mode.code old) ++ leBytes 1 (Mode.code new) ++ leBytes 1 trigger ++ leBytes 1 chan ++ leBytes 2 s.countA

/-- Change the mode: record 0x0401, vector 248, ALERT[0] (R303, R338). -/
def State.setMode (s : State) (new : Mode) (trigger chan : Nat) : State :=
  let old := s.dev.mode
  if old = new then s
  else
    let t := (s.setDev { s.dev with mode := new }).alert 0
    (t.log 4 0x0401 (modeSev new trigger) (if new = .sideline then 5 else 0) 0x56 0 (s.modePayload old new trigger chan)).raise 248

/-! ## Stopping the engines of a context -/

/-- Return every handle that the context's streams hold in a squad, and empty its pass queues (R115). -/
def freshPool (p : Pool) : Pool := { p with free := List.range p.plan.buffers, streams := [], last := 0 }

/-- The slots hold nothing: neither values nor closed partials (R16, R41, R42). -/
def Arr.clearSlots (a : Arr) (slots : List Nat) : Arr :=
  { a with slots := slots.foldl (fun t k => tset Slot.zero t k Slot.zero) a.slots, latch := a.latch.filter fun e => !slots.contains e.1,
           rungs := a.rungs.filter fun r => !slots.contains r.slot }

/-- An array without some items: their slots, closed partials and drain are discarded (R115, R297, R302). -/
def Arr.without (a : Arr) (p : Item → Bool) : Arr :=
  { a.clearSlots ((a.items.filter p).flatMap (·.slots)) with
    items := a.items.filter fun i => !p i
    drain := match a.drain with
      | some d => if p d.item then none else some d
      | none => none }

/-- A squad without the work of context n. -/
def Squad.stopCtx (q : Squad) (n : Nat) : Squad :=
  { q with
    arr := q.arr.without fun i => i.ctx == n
    walkers := q.walkers.filter (fun e => e.2.ctx != n)
    fifo := (q.fifo.map fun e => (e.1, e.2.filter fun r => r.ctx != n)).filter (fun e => !e.2.isEmpty)
    pools := q.pools.map (fun e => if e.1 / 8 = n then (e.1, freshPool e.2) else e)
    passq := q.passq.map (fun e => if e.1 / 16 = n then (e.1, { e.2 with entries := [] }) else e)
    upe := match q.upe with
      | some u => if u.ctx = n then none else some u
      | none => none
    saved := if n = 0 then none else q.saved
    spillLeft := if n = 0 then false else q.spillLeft }

/-- A DMA channel without a dispatcher-owned transfer of context n. -/
def Dma.stopCtx (d : Dma) (n : Nat) : Dma :=
  match d.xfer with
  | some x => if x.ctx = n && x.seq.isSome then { d with state := 0, xfer := none, restartable := false } else d
  | none => d

/-- Every engine of context n stops at once (R302). -/
def State.stopEngines (s : State) (n : Nat) : State :=
  { s with squads := s.squads.map (fun e => (e.1, e.2.stopCtx n)),
           chans := s.chans.map (fun e => (e.1, { e.2 with dma := e.2.dma.map fun d => (d.1, d.2.stopCtx n) })) }

/-- NF_STATE UNKNOWN and MAP_VALID clear for every tensor named by a write entry (R302). -/
def voidOutputs (ts : Tbl TensorRec) (fls : List Flight) : Tbl TensorRec :=
  let hs := fls.flatMap fun f => (f.fp.filter (·.write)).map (·.handle)
  ts.map fun e => if hs.contains e.1 then (e.1, { e.2 with nf := .unknown, mapValid := false }) else e

/-- Send an abort of every tag that the context holds (R228, R302). -/
def State.abortTags (s : State) (n : Nat) : State :=
  (s.ctx n).tags.foldl (fun t g => t.emit (.abortTag n g.tag (g.epoch + 1))) s

/-- A member that voted READY and has no decision stays undecided when its context is lost; so does the root of a pair that has sent its
values to the other side (R278, R280, R282; DEDUCED, log 46). -/
def Upd.undecide (u : Upd) (m : Commit) (rank : Nat) : Upd :=
  match m.own with
  | some v => if v.ready && !m.decided && (rank != 0 || m.pairOut) then { u with undecided := true, decision := v.step } else u
  | none => u

/-- The context's own fields once it is lost (R302); keep = the journal stays readable (R304). -/
def Ctx.lose (c : Ctx) (keep : Bool) : Ctx :=
  { c with upd := Upd.undecide c.upd c.commit (match c.shard with | some s => s.rank | none => 0)
           lost := true, halted := false, suspended := false, stopping := [], spillLeft := false, filling := false,
           tensors := voidOutputs c.tensors c.flight, flight := if keep then c.flight else [], mats := [], tags := [], grants := [],
           sendRing := [], sends := [] }

/-- Context lost (R302): cause, queue, queue index and SEQ go into the record. -/
def State.loseCtx (s : State) (n cause q qindex seq : Nat) (keep : Bool) : State :=
  if (s.ctx n).lost then s
  else
    let t := (s.abortTags n).stopEngines n
    let t := t.modCtx n (·.lose keep)
    let t := t.log 0 0x1802 2 4 0x13 q (leBytes 1 n ++ leBytes 1 cause ++ leBytes 2 q ++ leBytes 4 qindex ++ leBytes 4 seq)
    t.raise (164 + 8 * n)

/-! ## Sideline (R303, R304) -/

/-- Enter Sideline mode from Full or Reduced; during start-up the entry waits for its end (R304, R357). -/
def State.sideline (s : State) (trigger chan : Nat) : State :=
  match s.dev.mode with
  | .sideline => s
  | .dark => if s.dev.step = 0 then s else s.setDev { s.dev with sidelinePending := some (trigger + 256 * chan) }
  | old =>
    let t := s.setDev { s.dev with mode := .sideline }
    let t := (t.loseCtx 0 8 0 0 0 true).loseCtx 1 8 0 0 0 true
    let t := t.log 4 0x0401 3 5 0x56 0 (s.modePayload old .sideline trigger chan)
    ((t.raise 248).raise 251).alert 0

/-- Times less than an hour old. -/
def recent (now : Nat) (l : List Nat) : List Nat := l.filter fun t => decide (now < t + 3600000000000)

/-- A context lost through a device cause (R293, R294, R295): three within an hour lead to Sideline (R303). -/
def State.loseByDevice (s : State) (n cause q qindex seq : Nat) : State :=
  if (s.ctx n).lost then s
  else
    let t := s.loseCtx n cause q qindex seq false
    let l := s.clk.ltb :: recent s.clk.ltb t.dev.lostTimes
    let t := t.setDev { t.dev with lostTimes := l }
    if 3 ≤ l.length then t.sideline 4 0xFF else t

/-- A channel is taken down: ALERT[4], vector 252, Sideline; with the active port's channel no port is active (R303, R338, R349 to R352). -/
def State.channelDown (s : State) (c : Nat) : State :=
  if (s.chan c).down then s
  else
    let t := (s.modChan c (fun h => { h with down := true })).alert 4
    let t := if c = (if s.host.active then 2 else 0) then t.setHost { t.host with noneActive := true } else t
    (t.raise 252).sideline 3 c

/-! ## Fences (R297) -/

/-- The item numbers of an operation that a squad has in hand. -/
def Arr.itemsOf (a : Arr) (ctx seq : Nat) : List Nat :=
  (a.items.filter fun i => i.ctx == ctx && i.seq == seq).map (·.index) ++
    (match a.drain with
     | some d => if d.item.ctx = ctx ∧ d.item.seq = seq then [d.item.index] else []
     | none => [])

/-- An operation after its squad stops: the squad's items go ahead of the undealt list (R297). -/
def MatOp.redeal (m : MatOp) (ctx sq : Nat) (a : Arr) : MatOp :=
  { m with undealt := a.itemsOf ctx m.seq ++ (m.assigned.filter fun p => p.1 == sq).map (·.2) ++ m.undealt,
           assigned := m.assigned.filter fun p => p.1 != sq }

/-- The squad's work goes back to its operations, its walkers reset (R115, R297). -/
def State.releaseSquad (s : State) (sq : Nat) : State :=
  let a := (s.squad sq).arr
  let f (n : Nat) (c : Ctx) : Ctx :=
    let one := c.mats.map fun m => m.redeal n sq a
    { c with mats := match (s.squad sq).saved with
      | some b => if n = 0 then one.map fun m => m.redeal 0 sq b else one
      | none => one }
  (((s.modCtx 0 (f 0)).modCtx 1 (f 1))).modSquad sq fun q => { (q.stopCtx 0).stopCtx 1 with saved := none }

/-- A squad leaves every multicast group, and its spilled copies are discarded (R205). -/
def State.leaveGroups (s : State) (sq : Nat) : State :=
  s.setNet { s.net with groups := s.net.groups.map fun e => (e.1, { e.2 with recv := e.2.recv.filter fun r => r.squad != sq }) }

/-- Fence a squad with a cause: engines stop, items are dealt again, record 0x1401, ALERT[1], vector 249, Full to Reduced,
Sideline when no squad is left (R205, R297, R303). -/
def State.fence (s : State) (sq cause : Nat) : State :=
  if (s.squad sq).fenced then s
  else
    let t := (s.releaseSquad sq).leaveGroups sq
    let t := t.modSquad sq fun q => { q with fenced := true, cause := cause }
    let t := t.setMram { t.mram with fences := tins sq cause t.mram.fences }
    let t := t.alert 1
    let t := t.log (sq / 16) 0x1401 2 3 0x01 sq (leBytes 2 sq ++ leBytes 2 cause)
    let t := t.raise 249
    let t := if t.dev.mode = .full then t.setMode .reduced 1 0xFF else t
    if t.countA = 0 then t.sideline 6 0xFF else t

/-! ## Charged replays and faults of one item (R292, R294, R295) -/

/-- Update the flight seq of a context. -/
def Ctx.modFl (c : Ctx) (seq : Nat) (f : Flight → Flight) : Ctx :=
  { c with flight := c.flight.map fun x => if x.seq = seq then f x else x }

/-- An output of a flight, by its position, has received a non-finite value (R53). -/
def Flight.noteNf (f : Flight) (pos : Nat) (bad : Bool) : Flight :=
  if bad && !f.nonfinite.contains pos then { f with nonfinite := f.nonfinite ++ [pos] } else f

/-- Charge one replay; a descriptor that holds 3 makes its context lost (R292). -/
def State.charge (s : State) (n seq : Nat) : State :=
  match (s.ctx n).flight.find? (fun x => x.seq == seq) with
  | none => s
  | some x =>
    if 3 ≤ x.replays then s.loseCtx n 1 x.queue x.qindex seq false
    else s.modCtx n (·.modFl seq fun y => { y with replays := y.replays + 1, replayed := true })

/-- Put an item ahead of its operation's undealt list. -/
def State.requeue (s : State) (n seq item : Nat) : State :=
  s.modCtx n fun c => { c with mats := c.mats.map fun m => if m.seq = seq then { m with undealt := item :: m.undealt } else m }

/-- A pool without the streams of an item: their handles are free again (R115). -/
def Pool.dropStreams (p : Pool) (drop : Stream → Bool) : Pool :=
  { p with free := (List.range p.plan.buffers).filter fun h => p.free.contains h || (p.streams.any fun t => drop t && t.charged.contains h),
           streams := p.streams.filter fun t => !drop t }

/-- The walkers of an item stop: their streams' handles return to their pools, with what the queues hold of them, and their records are
taken back; a walker goes on with its next item (R115). -/
def Squad.dropWork (q : Squad) (n seq item : Nat) : Squad :=
  let mine (t : Stream) : Bool := t.ctx == n && t.seq == seq && t.item == item
  let held (k : Nat) (h : Nat) : Bool := match tfind q.pools k with
    | some p => p.streams.any fun t => mine t && t.charged.contains h
    | none => false
  { q with
    walkers := q.walkers.map fun e =>
      let k := { e.2 with next := e.2.next.filter fun j => !(j.ctx == n && j.seq == seq && j.item == item) }
      if k.ctx = n ∧ k.seq = seq ∧ k.item = item ∧ k.state ≠ WState.idle then
        (e.1, match k.next with
          | [] => { k with state := .ended }
          | j :: r => { Walker.reset with ctx := j.ctx, seq := j.seq, item := j.item, queue := j.queue, code := j.code, args := j.args,
                                          fp := j.fp, ahead := j.ahead, state := .running, next := r })
      else (e.1, k)
    fifo := (q.fifo.map fun e => (e.1, e.2.filter fun r => !(r.ctx == n && r.seq == seq && r.item == item))).filter fun e => !e.2.isEmpty
    passq := q.passq.map fun e => if e.1 / 16 = n then (e.1, { e.2 with entries := e.2.entries.filter fun x => !held (n * 8 + e.2.plan.pool) x.1 }) else e
    pools := q.pools.map fun e => if e.1 / 8 = n then (e.1, e.2.dropStreams mine) else e }

/-- Take an item off a squad: its array work and its walkers (R115, R291). -/
def State.dropItem (s : State) (sq n seq item : Nat) : State :=
  s.modSquad sq fun q =>
    { q.dropWork n seq item with arr := q.arr.without fun i => i.ctx == n && i.seq == seq && i.index == item }

/-- The mark of a fault of an item on a squad: kind 0 walk-program sanity, 1 detector. -/
def faultMark (item sq kind : Nat) : Nat := (item * 64 + sq) * 2 + kind
/-- A mark of the same kind and item on any squad. -/
def markOf (l : List Nat) (item kind : Nat) : Option Nat := (l.find? fun m => m % 2 == kind && m / 128 == item).map fun m => m / 2 % 64

/-- A walk-program sanity fault of a walker: record 0x1C04; the item runs once more on another squad; a recurrence there loses
the context (R295). -/
def State.walkSanity (s : State) (sq w : Nat) : State :=
  let k := tget Walker.reset (s.squad sq).walkers w
  let t := s.log (sq / 16) 0x1C04 2 0 0x04 sq (leBytes 2 sq ++ leBytes 2 w ++ leBytes 4 k.seq)
  match (t.ctx k.ctx).flight.find? (fun x => x.seq == k.seq) with
  | none => t
  | some x =>
    match markOf x.faulted k.item 0 with
    | some sq0 => if sq0 = sq then t else t.loseByDevice k.ctx 4 x.queue x.qindex x.seq
    | none =>
      let t := t.modCtx k.ctx (·.modFl k.seq fun y => { y with faulted := faultMark k.item sq 0 :: y.faulted })
      ((t.dropItem sq k.ctx k.seq k.item).requeue k.ctx k.seq k.item).charge k.ctx k.seq

/-- An item or block has committed on a squad: a squad whose walk-program fault did not recur is fenced (R295). -/
def State.afterCommit (s : State) (n seq item sq : Nat) : State :=
  match (s.ctx n).flight.find? (fun x => x.seq == seq) with
  | none => s
  | some x =>
    match markOf x.faulted item 0 with
    | some sq0 => if sq0 = sq then s else s.fence sq0 2
    | none => s

end Sys2Proof.Machine
end

