-- ==== Sys2Proof/Machine/Walk.lean ====
section
/-! DEFINITION. Control cores: walkers and their instructions, pools, pass queues (R112 to R124). -/

namespace Sys2Proof.Machine

/-! ## Starting walkers (R115) -/

/-- The place of a class in the order of R94. -/
def clsIndex : Cls → Nat
  | .matmul => 0 | .accum => 1 | .vector => 2 | .row => 3 | .dma => 4 | .collective => 5 | .update => 6 | .huddle => 7
  | .mark => 8 | .nop => 9

/-- The argument block's words for one operand (DESIGN CHOICE, log 30): base, rank, sizes, strides, layout. -/
def operandArgs (f : Flight) (n : Nat) : List W64 :=
  let w (x : Nat) : W64 := BitVec.ofNat 64 x
  match f.desc.t.getD n none with
  | none => List.replicate 13 0
  | some o => match tfind f.recs o.handle with
    | none => List.replicate 13 0
    | some t => w t.base :: w t.dims.length :: ((List.range 5).map fun i => w (t.dims.getD i 0)) ++
        ((List.range 5).map fun i => w (t.strides.getD i 0)) ++ [w (b2n t.skewed)]

/-- The argument block: operands, tile index, group, part, first stage, and of a prefetch of its b operand the pool, the stream and the
first chunk that it did not fill (R115, R126; DESIGN CHOICE, log 30). -/
def argBlock (f : Flight) (tile group part stage : Nat) (pre : Nat × Nat × Nat) : List W64 :=
  (List.range 4).flatMap (operandArgs f) ++ [tile, group, part, stage, pre.1, pre.2.1, pre.2.2].map (BitVec.ofNat 64)

/-- The stream that prefetched an operand's tensor on a squad: pool, stream and chunks filled; no such stream has number 255 (R126). -/
def Squad.prefetched (q : Squad) (n : Nat) (o : Option Operand) : Nat × Nat × Nat :=
  match o with
  | none => (0, 255, 0)
  | some o => (q.pools.findSome? fun e => if e.1 / 8 = n then
      (e.2.streams.find? fun t => t.ahead == some o.handle).map fun t => (e.1 % 8, t.id, t.charged.length) else none).getD (0, 255, 0)

/-- A walker begins an item (R115). -/
def Walker.begin_ (k : Walker) (j : WJob) : Walker :=
  { Walker.reset with ctx := j.ctx, seq := j.seq, item := j.item, queue := j.queue, code := j.code, args := j.args, fp := j.fp,
                      ahead := j.ahead, state := .running, next := k.next }

/-- Give a walker its next item: at once when it is idle or has ended, else after its END. -/
def Walker.give (k : Walker) (j : WJob) : Walker :=
  match k.state with
  | .idle | .ended => k.begin_ j
  | _ => { k with next := k.next ++ [j] }

/-- The program that serves walker w of a class: number 6 x class + w of the library (R114; DESIGN CHOICE, log 30). -/
def Ctx.program (c : Ctx) (cls : Cls) (w : Nat) : Option (List WInstr) := tfind c.walkLib.programs (6 * clsIndex cls + w)

/-- The dispatcher starts the walkers of an item (R115). -/
def State.startWalkers (s : State) (sq n seq item tile group part stage : Nat) : State :=
  let c := s.ctx n
  match c.flight.find? (fun x => x.seq == seq) with
  | none => s
  | some f =>
    (List.range 6).foldl (fun s w =>
      match c.program f.desc.cls w with
      | none => s
      | some code => s.modSquad sq fun q =>
          { q with walkers := tins w ((tget Walker.reset q.walkers w).give
              { ctx := n, seq := seq, item := item, queue := f.queue, code := code, fp := f.fp,
                args := argBlock f tile group part stage (q.prefetched n (f.desc.t.getD 1 none)),
                ahead := match f.desc.op with
                  | .dma .prefetch _ _ _ => (f.desc.t.getD 0 none).map (·.handle)
                  | _ => none }) q.walkers }) s

/-! ## Registers of a walker (R115, R117) -/

def Walker.rd (k : Walker) : WReg → W64
  | .g n => tget 0 k.g n
  | .count l => (tget 0 k.count l).zeroExtend 64
  | .remain l => (tget 0 k.remain l).zeroExtend 64
  | .index l => (tget 0 k.index l).zeroExtend 64

/-- Write a register; LOOP_REMAIN and LOOP_INDEX are not writable (R117). -/
def Walker.wr (k : Walker) (d : WReg) (v : W64) : Option Walker :=
  match d with
  | .g n => some { k with g := tset 0 k.g n v }
  | .count l => some { k with count := tset 0 k.count l (v.truncate 32) }
  | _ => none

def Walker.adv (k : Walker) : Walker := { k with pc := k.pc + 1 }

/-- A walker may issue: it runs, or waits for a FIFO that has room again (R112). -/
def State.walkReady (s : State) (sq w : Nat) : Bool :=
  let k := tget Walker.reset (s.squad sq).walkers w
  s.working k.ctx && !(s.squad sq).fenced && (match k.state with
    | .running => true
    | .fifoFull => decide ((tget [] (s.squad sq).fifo w).length < 32)
    | _ => false)

/-- The walker whose turn it is: the ready ones issue round-robin (R112). -/
def State.walkTurn (s : State) (sq : Nat) : Option Nat :=
  ((List.range 6).map fun i => ((s.squad sq).turn + 1 + i) % 6).find? (s.walkReady sq)

/-- The walker and the instruction at its position, when it is its turn to issue one (R112). -/
def State.curWalk (s : State) (sq w : Nat) : Option (Walker × WInstr) :=
  let k := tget Walker.reset (s.squad sq).walkers w
  if s.walkTurn sq != some w then none
  else match k.state with
    | .running | .fifoFull => (k.code[k.pc]?).map fun i => (k, i)
    | _ => none

/-- A walker after its instruction, which had the turn. -/
def State.setWalker (s : State) (sq w : Nat) (k : Walker) : State :=
  s.modSquad sq fun q => { q with walkers := tins w k q.walkers, turn := w }

/-- A scalar instruction: the destination and its value, or a sanity fault of a destination that is not writable (R115, R117). -/
def State.walkScalar (s : State) (sq w : Nat) (d : WReg) (v : W64) (k : Walker) : State :=
  match k.wr d v with
  | some k' => s.setWalker sq w k'.adv
  | none => s.walkSanity sq w

/-! ## Scalar instructions -/

def execWalkAdd (sq w : Nat) (s : State) : Res :=
  match s.curWalk sq w with
  | some (k, .add d a b) => .next (s.walkScalar sq w d (k.rd a + k.rd b) k)
  | _ => .next s
def execWalkSub (sq w : Nat) (s : State) : Res :=
  match s.curWalk sq w with
  | some (k, .sub d a b) => .next (s.walkScalar sq w d (k.rd a - k.rd b) k)
  | _ => .next s
def execWalkMul (sq w : Nat) (s : State) : Res :=
  match s.curWalk sq w with
  | some (k, .mul d a b) => .next (s.walkScalar sq w d (k.rd a * k.rd b) k)
  | _ => .next s
def execWalkAnd (sq w : Nat) (s : State) : Res :=
  match s.curWalk sq w with
  | some (k, .and d a b) => .next (s.walkScalar sq w d (k.rd a &&& k.rd b) k)
  | _ => .next s
def execWalkOr (sq w : Nat) (s : State) : Res :=
  match s.curWalk sq w with
  | some (k, .or d a b) => .next (s.walkScalar sq w d (k.rd a ||| k.rd b) k)
  | _ => .next s
def execWalkXor (sq w : Nat) (s : State) : Res :=
  match s.curWalk sq w with
  | some (k, .xor d a b) => .next (s.walkScalar sq w d (k.rd a ^^^ k.rd b) k)
  | _ => .next s

/-- A shift; by 64 or more it is Config.walkShift's value (DESIGN CHOICE, log 12). -/
def walkShiftOf (left : Bool) (a n : W64) : W64 :=
  if n.toNat < 64 then (if left then a <<< n.toNat else a >>> n.toNat) else Config.walkShift (n.truncate 32) a

def execWalkShl (sq w : Nat) (s : State) : Res :=
  match s.curWalk sq w with
  | some (k, .shl d a b) => .next (s.walkScalar sq w d (walkShiftOf true (k.rd a) (k.rd b)) k)
  | _ => .next s
def execWalkShr (sq w : Nat) (s : State) : Res :=
  match s.curWalk sq w with
  | some (k, .shr d a b) => .next (s.walkScalar sq w d (walkShiftOf false (k.rd a) (k.rd b)) k)
  | _ => .next s
def execWalkMin (sq w : Nat) (s : State) : Res :=
  match s.curWalk sq w with
  | some (k, .min d a b) => .next (s.walkScalar sq w d (if (k.rd a).toNat ≤ (k.rd b).toNat then k.rd a else k.rd b) k)
  | _ => .next s
def execWalkMax (sq w : Nat) (s : State) : Res :=
  match s.curWalk sq w with
  | some (k, .max d a b) => .next (s.walkScalar sq w d (if (k.rd a).toNat ≤ (k.rd b).toNat then k.rd b else k.rd a) k)
  | _ => .next s

/-- The relation of CMP (DESIGN CHOICE, log 23). -/
def walkRel (r : WRel) (a b : W64) : Bool :=
  match r with
  | .eq => a == b
  | .ne => a != b
  | .ltU => a.ult b
  | .leU => a.ule b
  | .ltS => a.slt b
  | .leS => a.sle b

def execWalkCmp (sq w : Nat) (s : State) : Res :=
  match s.curWalk sq w with
  | some (k, .cmp r d a b) => .next (s.walkScalar sq w d (if walkRel r (k.rd a) (k.rd b) then 1 else 0) k)
  | _ => .next s
def execWalkSel (sq w : Nat) (s : State) : Res :=
  match s.curWalk sq w with
  | some (k, .sel d c a b) => .next (s.walkScalar sq w d (if k.rd c != 0 then k.rd a else k.rd b) k)
  | _ => .next s
def execWalkMov (sq w : Nat) (s : State) : Res :=
  match s.curWalk sq w with
  | some (k, .mov d a) => .next (s.walkScalar sq w d (k.rd a) k)
  | _ => .next s
def execWalkMovi (sq w : Nat) (s : State) : Res :=
  match s.curWalk sq w with
  | some (k, .movi d v) => .next (s.walkScalar sq w d v k)
  | _ => .next s
/-- ARG reads one word of the argument block (R115); a word the block does not have is a free value (DESIGN CHOICE, log 11). -/
def execWalkArg (sq w : Nat) (s : State) : Res :=
  match s.curWalk sq w with
  | some (k, .arg d i) =>
    match k.args[i]? with
    | some v => .next (s.walkScalar sq w d v k)
    | none => .next (s.draw.2.walkScalar sq w d s.draw.1 k)
  | _ => .next s

/-! ## Loops and branches (R115, R117 to R119) -/

/-- The position of the matching LOOP of level l before position pc. -/
def loopStart (code : List WInstr) (l : Nat) : Nat → Nat
  | 0 => 0
  | n + 1 => if code[n]? = some (.loop l) then n else loopStart code l n

/-- The position of the matching ENDLOOP of level l at or after a position. -/
def loopEnd (l : Nat) : List WInstr → Nat → Nat
  | [], p => p
  | i :: r, p => if i = .endloop l then p else loopEnd l r (p + 1)

/-- LOOP latches the count; a count of 0 goes on after the matching ENDLOOP (R118). -/
def Walker.loopIn (k : Walker) (l : Nat) : Walker :=
  let n := tget 0 k.count l
  if n = 0 then { k with pc := loopEnd l (k.code.drop (k.pc + 1)) (k.pc + 1) + 1 }
  else { k with remain := tset 0 k.remain l n, index := tset 0 k.index l 0, pc := k.pc + 1 }

/-- ENDLOOP counts down and goes back, or leaves the level inactive (R118). -/
def Walker.loopOut (k : Walker) (l : Nat) : Walker :=
  let n := tget 0 k.remain l - 1
  if n = 0 then { k with remain := tset 0 k.remain l 0, index := tset 0 k.index l 0, pc := k.pc + 1 }
  else { k with remain := tset 0 k.remain l n, index := tset 0 k.index l (tget 0 k.index l + 1), pc := loopStart k.code l k.pc + 1 }

def execWalkLoop (sq w : Nat) (s : State) : Res :=
  match s.curWalk sq w with
  | some (k, .loop l) => .next (s.setWalker sq w (k.loopIn l))
  | _ => .next s
def execWalkEndloop (sq w : Nat) (s : State) : Res :=
  match s.curWalk sq w with
  | some (k, .endloop l) => .next (s.setWalker sq w (k.loopOut l))
  | _ => .next s
def execWalkBr (sq w : Nat) (s : State) : Res :=
  match s.curWalk sq w with
  | some (k, .br t) => .next (s.setWalker sq w { k with pc := t })
  | _ => .next s
def execWalkBrc (sq w : Nat) (s : State) : Res :=
  match s.curWalk sq w with
  | some (k, .brc c t) => .next (s.setWalker sq w (if k.rd c != 0 then { k with pc := t } else k.adv))
  | _ => .next s

/-! ## Streams (R112, R113, R116, R121) -/

/-- A range lies in an entry of the footprint: a read in any entry, a write in a write entry (R116). -/
def inFootprint (fp : List FpEntry) (sp : FpSpace) (lo len : Nat) (write : Bool) : Bool :=
  fp.any fun e => (e.space == sp || (match e.space, sp with
    | .allStores, .store _ => true
    | _, _ => false)) && decide (e.lo ≤ lo ∧ lo + len ≤ e.hi) && (!write || e.write)

/-- The pool stream that a record's attachment names: the one charged with the handle. -/
def Pool.streamOf (p : Pool) (h : Nat) : Option Stream := p.streams.find? fun t => t.charged.contains h

/-- The check of R116 and R121 on one record. A MOVE record of a pool buffer names an HBM range at addr and a place aux in the buffer; a
record of another walker names a place addr in the buffer (R112). -/
def State.emitOk (s : State) (sq w : Nat) (k : Walker) (write : Bool) (addr len aux : W64) (target : WTarget) (part : Nat) : Bool :=
  match target with
  | .mem => inFootprint k.fp (if w = 0 then .virt else .store sq) addr.toNat len.toNat write
  | .pool p hr =>
    match tfind (s.squad sq).pools (k.ctx * 8 + p) with
    | none => false
    | some pl =>
      let h := (k.rd hr).toNat
      let partOk := match pl.streamOf h with | some t => w != 0 || t.part == part | none => true
      let place := if w = 0 then aux else addr
      decide (h < pl.plan.buffers) && decide (place.toNat + len.toNat ≤ pl.plan.size) && partOk &&
        (w != 0 || inFootprint k.fp .virt addr.toNat len.toNat write)

/-- EMIT: a checked record goes to the FIFO, or waits for room, or is a sanity fault (R113, R116, R120). -/
def execWalkEmit (sq w : Nat) (s : State) : Res :=
  match s.curWalk sq w with
  | some (k, .emit write a l x target part y) =>
    let addr := k.rd a
    let len := k.rd l
    let fifo := tget [] (s.squad sq).fifo w
    if !s.emitOk sq w k write addr len (k.rd x) target part then .next (s.walkSanity sq w)
    else if 32 ≤ fifo.length then .next (s.setWalker sq w { k with state := .fifoFull })
    else
      let r : StreamRec :=
        { ctx := k.ctx, seq := k.seq, item := k.item, write := write, addr := addr, len := len, aux := k.rd x,
          pool := (match target with | .mem => none | .pool p h => some (p, (k.rd h).toNat)), part := part, x := y,
          index := y.index.map k.rd, stat := y.stat.map k.rd, note := (y.note.map fun r => (k.rd r).truncate 32).getD 0 }
      .next ((s.modSquad sq fun q => { q with fifo := tset [] q.fifo w (fifo ++ [r]) }).setWalker sq w { k.adv with state := .running })
  | _ => .next s

/-- END: the walker's stream for the item is complete; it starts the next item it has been dealt (R115). -/
def Walker.finish (k : Walker) : Walker :=
  match k.next with
  | [] => { k with state := .ended }
  | j :: r => { k.begin_ j with next := r }

def execWalkEnd (sq w : Nat) (s : State) : Res :=
  match s.curWalk sq w with
  | some (k, .done) => .next (s.setWalker sq w k.finish)
  | _ => .next s

/-! ## Pools and pass queues (R122 to R124) -/

/-- max(0, r - h) of a stream. -/
def Stream.deficit (t : Stream) : Nat := t.reserve - t.charged.length
def Pool.deficits (p : Pool) : Nat := (p.streams.map Stream.deficit).foldl (· + ·) 0
/-- D_s of R124. -/
def Pool.deficitsBut (p : Pool) (id : Nat) : Nat := ((p.streams.filter fun t => t.id != id).map Stream.deficit).foldl (· + ·) 0
def Pool.reserves (p : Pool) : Nat := (p.streams.map (·.reserve)).foldl (· + ·) 0
def Pool.stream (p : Pool) (id : Nat) : Option Stream := p.streams.find? fun t => t.id == id

/-- ATTACH may go on: its reserve fits, fewer than 8 streams are attached, and none of its number (R124). -/
def Pool.canAttach (p : Pool) (id r : Nat) : Bool :=
  decide (r + p.deficits ≤ p.free.length) && decide (p.streams.length < 8) && (p.stream id).isNone
/-- ATTACH could never fit, or breaks the bounds of R124. -/
def Pool.badAttach (p : Pool) (r c : Nat) : Bool :=
  decide (p.plan.buffers < p.reserves + r) || decide (r < 2) || decide (c < r) || decide (p.plan.buffers < c)
def Pool.attach (p : Pool) (k : Walker) (id r c part : Nat) : Pool :=
  { p with streams := p.streams ++ [{ id := id, ctx := k.ctx, seq := k.seq, item := k.item, queue := k.queue, ahead := k.ahead, reserve := r,
                                      ceiling := c, charged := [], part := part }] }

/-- An ACQUIRE of a stream is a shared request: it has its reserve already (R124). -/
def Stream.shared (t : Stream) : Bool := decide (t.reserve ≤ t.charged.length)

/-- ACQUIRE is granted (R124). -/
def Pool.canAcquire (p : Pool) (t : Stream) : Bool :=
  !p.free.isEmpty && (decide (t.charged.length < t.reserve) ||
    (decide (t.charged.length < t.ceiling) && decide (p.deficitsBut t.id < p.free.length)))
def Pool.acquire (p : Pool) (id : Nat) : Pool :=
  match p.free with
  | [] => p
  | h :: r => { p with free := r, last := if (p.stream id).any Stream.shared then id else p.last,
                       streams := p.streams.map fun t => if t.id = id then { t with charged := t.charged ++ [h] } else t }
/-- RELEASE returns a charged handle (R123, R124). -/
def Pool.release (p : Pool) (h : Nat) : Pool :=
  if p.streams.any (fun t => t.charged.contains h) then
    { p with free := (tins h () (p.free.map fun x => (x, ()))).map (·.1),
             streams := p.streams.map fun t => { t with charged := t.charged.filter (· != h) } }
  else p
def Pool.detach (p : Pool) (id : Nat) : Pool := { p with streams := p.streams.filter fun t => t.id != id }

/-- A pool of a context on a squad; a context has 8 of them and 16 pass queues (R122). -/
def State.pool (s : State) (sq n p : Nat) : Option Pool := if p < 8 then tfind (s.squad sq).pools (n * 8 + p) else none
def State.setPool (s : State) (sq n p : Nat) (pl : Pool) : State := s.modSquad sq fun q => { q with pools := tins (n * 8 + p) pl q.pools }
def State.passQ (s : State) (sq n q : Nat) : Option PassQ := if q < 16 then tfind (s.squad sq).passq (n * 16 + q) else none
def State.setPassQ (s : State) (sq n q : Nat) (v : PassQ) : State := s.modSquad sq fun x => { x with passq := tins (n * 16 + q) v x.passq }

/-- ATTACH (R124): granted, waiting, or a sanity fault. -/
def execWalkAttach (sq w : Nat) (s : State) : Res :=
  match s.curWalk sq w with
  | some (k, .attach p id rr cc part) =>
    let r := (k.rd rr).toNat
    let c := (k.rd cc).toNat
    match s.pool sq k.ctx p with
    | none => .next (s.walkSanity sq w)
    | some pl =>
      if pl.badAttach r c then .next (s.walkSanity sq w)
      else if pl.canAttach id r then .next ((s.setPool sq k.ctx p (pl.attach k id r c part)).setWalker sq w k.adv)
      else .next (s.setWalker sq w { k with state := .attach p id r c part })
  | _ => .next s

/-- DETACH waits until the stream holds no handle (R124). -/
def execWalkDetach (sq w : Nat) (s : State) : Res :=
  match s.curWalk sq w with
  | some (k, .detach p id) =>
    match s.pool sq k.ctx p with
    | none => .next (s.walkSanity sq w)
    | some pl =>
      match pl.stream id with
      | none => .next (s.walkSanity sq w)
      | some t =>
        if t.charged.isEmpty then .next ((s.setPool sq k.ctx p (pl.detach id)).setWalker sq w k.adv)
        else .next (s.setWalker sq w { k with state := .detach p id })
  | _ => .next s

/-- The acquired handle goes to the destination register. -/
def State.giveHandle (s : State) (sq w p id : Nat) (pl : Pool) (d : WReg) (k : Walker) : State :=
  (s.setPool sq k.ctx p (pl.acquire id)).walkScalar sq w d (BitVec.ofNat 64 (pl.free.headD 0)) { k with state := .running }

/-- ACQUIRE (R124). -/
def execWalkAcquire (sq w : Nat) (s : State) : Res :=
  match s.curWalk sq w with
  | some (k, .acquire p id d) =>
    match s.pool sq k.ctx p with
    | none => .next (s.walkSanity sq w)
    | some pl =>
      match pl.stream id with
      | none => .next (s.walkSanity sq w)
      | some t =>
        if pl.canAcquire t then .next (s.giveHandle sq w p id pl d k)
        else .next (s.setWalker sq w { k with state := .acquire p id d })
  | _ => .next s

/-- PUSH: an entry with its 32-bit note on a queue bound to this producer (R116, R122). -/
def execWalkPush (sq w : Nat) (s : State) : Res :=
  match s.curWalk sq w with
  | some (k, .push q h note) =>
    match s.passQ sq k.ctx q with
    | none => .next (s.walkSanity sq w)
    | some v =>
      if v.plan.producer != QEnd.walker w then .next (s.walkSanity sq w)
      else .next ((s.setPassQ sq k.ctx q { v with entries := v.entries ++ [((k.rd h).toNat, (k.rd note).truncate 32)] }).setWalker sq w k.adv)
  | _ => .next s

/-- The oldest entry of a queue goes to the walker's registers. -/
def State.popInto (s : State) (sq w q : Nat) (v : PassQ) (h note : WReg) (k : Walker) : State :=
  match v.entries with
  | [] => s
  | e :: r =>
    match (k.wr h (BitVec.ofNat 64 e.1)).bind fun k' => k'.wr note (e.2.zeroExtend 64) with
    | some k' => (s.setPassQ sq k.ctx q { v with entries := r }).setWalker sq w { k'.adv with state := .running }
    | none => s.walkSanity sq w

/-- POP: the oldest entry, or a wait on an empty queue (R120, R122). -/
def execWalkPop (sq w : Nat) (s : State) : Res :=
  match s.curWalk sq w with
  | some (k, .pop q h note) =>
    match s.passQ sq k.ctx q with
    | none => .next (s.walkSanity sq w)
    | some v =>
      if v.plan.consumer != QEnd.walker w then .next (s.walkSanity sq w)
      else if v.entries.isEmpty then .next (s.setWalker sq w { k with state := .pop q h note })
      else .next (s.popInto sq w q v h note k)
  | _ => .next s

/-- RELEASE returns the handle in the cycle it is executed (R124). -/
def execWalkRelease (sq w : Nat) (s : State) : Res :=
  match s.curWalk sq w with
  | some (k, .release p h) =>
    match s.pool sq k.ctx p with
    | none => .next (s.walkSanity sq w)
    | some pl => .next ((s.setPool sq k.ctx p (pl.release (k.rd h).toNat)).setWalker sq w k.adv)
  | _ => .next s

/-- A walker waits for the pool in a way that can go on now: the stream index it waits for. -/
def Pool.ready (pl : Pool) (n p : Nat) (k : Walker) : Option Nat :=
  if k.ctx != n then none
  else match k.state with
    | .attach q id r _ _ => if q = p ∧ pl.canAttach id r then some id else none
    | .acquire q id _ => if q = p then (pl.stream id).bind fun t => if pl.canAcquire t then some id else none else none
    | .detach q id => if q = p then (pl.stream id).bind fun t => if t.charged.isEmpty then some id else none else none
    | _ => none

/-- A walker waits with a shared request. -/
def Pool.asksShared (pl : Pool) (k : Walker) : Bool := match k.state with
  | .acquire _ id _ => (pl.stream id).any Stream.shared
  | _ => false

/-- The waiting walker served next: one that asks for no shared handle, else by stream index, round-robin from the one after the stream
served last (R124). -/
def Pool.nextWaiter (pl : Pool) (n p : Nat) (ws : Tbl Walker) : Option (Nat × Walker) :=
  let all := ws.filterMap fun e => (pl.ready n p e.2).map fun id => (id, e)
  let own := all.filter fun x => !pl.asksShared x.2.2
  let rdy := if own.isEmpty then all else own
  let best (l : List (Nat × Nat × Walker)) : Option (Nat × Walker) :=
    (l.foldl (fun acc x => match acc with
      | none => some x
      | some y => if x.1 < y.1 then some x else some y) none).map (·.2)
  (best (rdy.filter fun x => decide (pl.last < x.1))).orElse fun _ => best rdy

/-- POOL_GRANT: one waiting request of a pool is granted (R124). -/
def execPoolGrant (sq n p : Nat) (s : State) : Res :=
  match s.pool sq n p with
  | none => .next s
  | some pl =>
    match pl.nextWaiter n p (s.squad sq).walkers with
    | none => .next s
    | some (w, k) =>
      match k.state with
      | .attach _ id r c part =>
        if pl.badAttach r c then .next (s.walkSanity sq w)
        else .next ((s.setPool sq n p (pl.attach k id r c part)).setWalker sq w { k.adv with state := .running })
      | .acquire _ id d => .next (s.giveHandle sq w p id pl d k)
      | .detach _ id => .next ((s.setPool sq n p (pl.detach id)).setWalker sq w { k.adv with state := .running })
      | _ => .next s

/-- The walker that waits in POP on queue q of context n. -/
def popWaiter (ws : Tbl Walker) (n q : Nat) : Option (Nat × Walker × WReg × WReg) :=
  ws.findSome? fun e => if e.2.ctx = n then
      match e.2.state with
      | .pop q' h note => if q' = q then some (e.1, e.2, h, note) else none
      | _ => none
    else none

/-- POP_WAKE: an entry has come to a queue whose consumer waits (R122). -/
def execPopWake (sq n q : Nat) (s : State) : Res :=
  match s.passQ sq n q, popWaiter (s.squad sq).walkers n q with
  | some v, some (w, k, h, note) => .next (s.popInto sq w q v h note k)
  | _, _ => .next s

/-! ## Engines and deliveries at pass queues (R113, R122, R123) -/

/-- The pass queue over a pool of a context that an end serves. -/
def Squad.queueAt (q : Squad) (n p : Nat) (e : QEnd) (consumer : Bool) : Option (Nat × PassQ) :=
  q.passq.find? fun x => x.1 / 16 == n && x.2.plan.pool == p && (if consumer then x.2.plan.consumer else x.2.plan.producer) == e

/-- An engine may take the oldest record of its port: the handle of the buffer that it names stands first in the queue that the engine
consumes (R122). -/
def Squad.portReady (q : Squad) (w : Nat) : Bool :=
  match (tget [] q.fifo w).head? with
  | none => true
  | some r => match r.pool with
    | none => true
    | some (p, h) => match q.queueAt r.ctx p (.engine w) true with
      | none => true
      | some (_, v) => v.entries.head?.map (·.1) == some h

/-- An end has done with the buffer of a record: its entry is taken, and the handle goes to the next stage, or back to the pool after
the last (R123). -/
def Squad.handOn (q : Squad) (e : QEnd) (r : StreamRec) : Squad :=
  match r.pool with
  | none => q
  | some (p, h) =>
    let taken := q.queueAt r.ctx p e true
    let t := match taken with
      | some (k, v) => { q with passq := tins k { v with entries := v.entries.drop 1 } q.passq }
      | none => q
    match t.queueAt r.ctx p e false, taken with
    | some (k, v), _ => { t with passq := tins k { v with entries := v.entries ++ [(h, r.note)] } t.passq }
    | none, some _ => { t with pools := t.pools.map fun x => if x.1 = r.ctx * 8 + p then (x.1, x.2.release h) else x }
    | none, none => t

/-- An engine takes the oldest record of its port; one that names a note is the buffer's last at that engine (R112, R113, R122). -/
def Squad.takeRec (q : Squad) (w : Nat) : Squad :=
  match (tget [] q.fifo w).head? with
  | none => q
  | some r =>
    let t := { q with fifo := tset [] q.fifo w ((tget [] q.fifo w).drop 1) }
    if r.x.note.isSome then t.handOn (.engine w) r else t

/-- The oldest record of a squad's MOVE port, when it fills a pool's buffer from memory. -/
def Squad.delivery (q : Squad) : Option StreamRec := (tget [] q.fifo 0).head?.filter fun r => !r.write && r.pool.isSome

/-- Bytes from an address on that the deliveries of a context name one after the other: the space acquired and not yet filled (R204). -/
def coverage (n : Nat) : List StreamRec → Nat → Nat
  | [], _ => 0
  | r :: l, a => if r.ctx == n && !r.write && r.pool.isSome && decide (r.addr.toNat ≤ a ∧ a < r.addr.toNat + r.len.toNat) then
      (r.addr.toNat + r.len.toNat - a) + coverage n l (r.addr.toNat + r.len.toNat) else 0

/-- Several squads name the same block: it is delivered by multicast and not fetched by each (R29). -/
def State.shared (s : State) (sq : Nat) (r : StreamRec) : Bool :=
  s.unfenced.any fun q => q != sq && ((s.squad q).delivery.any fun x => x.ctx == r.ctx && x.addr == r.addr && x.len == r.len)

/-- A delivery comes to a squad through a multicast group. -/
def State.byMesh (s : State) (sq : Nat) (r : StreamRec) : Bool :=
  s.shared sq r || s.net.groups.any fun g => groupCtx g.1 == r.ctx && g.2.recv.any fun x =>
    x.squad == sq && decide (r.addr.toNat ≤ x.at_ ∧ x.at_ < r.addr.toNat + r.len.toNat)

/-! ## The library (R114, R116) -/

/-- A register that a walker has (R115, R117). -/
def WReg.known : WReg → Bool
  | .g n => decide (n < 16)
  | .count l | .remain l | .index l => decide (l < 6)

/-- An instruction that a control core knows: its registers, pools, pass queues and record fields exist (R112, R115, R116, R122, R139). -/
def WInstr.known (w : WInstr) : Bool :=
  match w with
  | .add d a b | .sub d a b | .mul d a b | .and d a b | .or d a b | .xor d a b | .shl d a b | .shr d a b | .min d a b | .max d a b
  | .cmp _ d a b => WReg.known d && WReg.known a && WReg.known b
  | .sel d c a b => WReg.known d && WReg.known c && WReg.known a && WReg.known b
  | .mov d a => WReg.known d && WReg.known a
  | .movi d _ | .arg d _ | .brc d _ => WReg.known d
  | .loop l | .endloop l => decide (l < 6)
  | .br _ | .done => true
  | .emit _ a l x t part y => WReg.known a && WReg.known l && WReg.known x && decide (part < 6) && decide (1 ≤ y.count ∧ y.count ≤ 256) &&
      y.index.all WReg.known && y.stat.all WReg.known && y.note.all WReg.known &&
      (match t with | .mem => true | .pool p h => decide (p < 8) && WReg.known h)
  | .attach p _ r c part => decide (p < 8) && WReg.known r && WReg.known c && decide (part < 6)
  | .detach p _ => decide (p < 8)
  | .acquire p _ d => decide (p < 8) && WReg.known d
  | .push q h n | .pop q h n => decide (q < 16) && WReg.known h && WReg.known n
  | .release p h => decide (p < 8) && WReg.known h

/-- A pool of the plan: 2 to 64 buffers of 1 KiB to 8 MiB in steps of 1 KiB, inside the squad store (R72, R122). -/
def PoolPlan.ok (p : PoolPlan) : Bool :=
  decide (2 ≤ p.buffers ∧ p.buffers ≤ 64 ∧ 1024 ≤ p.size ∧ p.size ≤ 8 * 2 ^ 20 ∧ p.size % 1024 = 0 ∧ p.base + p.buffers * p.size ≤ 2 ^ 24)

/-- An end of a pass queue that exists. -/
def QEnd.ok : QEnd → Bool
  | .walker w => decide (w < 6)
  | .engine p => decide (p < 6)
  | .mesh => true

/-- The loops open around each position: none when a check of R116 fails; the state is the list of open levels. -/
def checkGo (code : List WInstr) : Nat → List Nat → List WInstr → Bool
  | _, op, [] => op.isEmpty
  | p, op, i :: r =>
    match i with
    | .loop l => l == op.length && decide (op.length < 6) && checkGo code (p + 1) (l :: op) r
    | .endloop l => (match op with
        | x :: op' => x == l && checkGo code (p + 1) op' r
        | [] => false)
    | .br t | .brc _ t =>
      decide (p < t) && decide (t ≤ code.length) &&
        ((code.take t).drop (p + 1)).all (fun j => match j with | .loop _ | .endloop _ => false | _ => true) && checkGo code (p + 1) op r
    | _ => checkGo code (p + 1) op r

/-- The checks of R114 and R116 on a library. -/
def walkLibOk (l : WalkLib) : Bool :=
  l.programs.all (fun e => decide (e.1 < 1024) && decide (e.2.length ≤ 1024) && e.2.all WInstr.known && checkGo e.2 0 [] e.2) &&
    l.pools.all (fun e => decide (e.1 < 8) && PoolPlan.ok e.2) &&
    l.queues.all (fun e => decide (e.1 < 16 ∧ e.2.pool < 8) && QEnd.ok e.2.producer && QEnd.ok e.2.consumer) &&
    decide ((l.programs.map fun e => e.2.length).foldl (· + ·) 0 ≤ 8192)

/-- Descriptors of a context that are queued: between head and tail (R92). -/
def Queue.count (q : Queue) : Nat :=
  let n := 2 ^ q.log2
  ((b2n q.tailWrap * n + q.tail) + 2 * n - (b2n q.headWrap * n + q.head)) % (2 * n)
def Queue.queued (q : Queue) : List Descriptor :=
  if q.log2 = 0 then [] else (List.range q.count).filterMap fun i => tfind q.ring ((q.head + i) % 2 ^ q.log2)
def Ctx.queued (c : Ctx) : List Descriptor := (List.range 16).flatMap fun q => (c.queue q).queued
/-- Queued or in flight. -/
def Ctx.busyDescs (c : Ctx) : List Descriptor := c.queued ++ c.flight.map (·.desc)

/-- A descriptor uses a program that the load replaces (R114). -/
def Ctx.libInUse (c : Ctx) : Bool := c.busyDescs.any fun d => (List.range 6).any fun w => (c.program d.cls w).isSome

/-- Pool k of a squad holds a charged handle (R122). -/
def Squad.charged (q : Squad) (k : Nat) : Bool := (tfind q.pools k).any fun p => p.streams.any fun t => !t.charged.isEmpty

/-- Pools and pass queues take their plan, but for pools that hold a charged handle (R122); first = only what has no plan yet. -/
def Squad.plan (q : Squad) (n : Nat) (l : WalkLib) (first : Bool) : Squad :=
  let keep (k : Nat) : Bool := q.charged k || (first && (tfind q.pools k).isSome)
  let r := l.pools.foldl (fun (r : Squad) e =>
    let k := n * 8 + e.1
    if keep k || (tfind q.pools k).any (fun p => p.plan == e.2) then r
    else { r with pools := tins k { plan := e.2, free := List.range e.2.buffers, streams := [], last := 0 } r.pools }) q
  l.queues.foldl (fun (r : Squad) e =>
    let k := n * 16 + e.1
    match tfind q.passq k with
    | some v => if first || q.charged (n * 8 + v.plan.pool) || q.charged (n * 8 + e.2.pool) || v.plan == e.2 then r
                else { r with passq := tins k { plan := e.2, entries := [] } r.passq }
    | none => { r with passq := tins k { plan := e.2, entries := [] } r.passq }) r

/-- The plan of the context's library in every squad (R122). -/
def State.planPools (s : State) (n : Nat) (first : Bool) : State :=
  (List.range 64).foldl (fun s sq => s.modSquad sq fun q => q.plan n (s.ctx n).walkLib first) s

/-- The library takes effect. Pools and queues that have no plan yet take theirs with it; a change waits for a layer huddle (R114, R122;
DEDUCED, log 16). -/
def State.takeLib (s : State) (n : Nat) (l : WalkLib) : State :=
  (s.modCtx n fun c => { c with walkLib := l }).planPools n true

/-- WALK_LIBRARY_LOAD: a library that fails a check is not loaded; one whose programs are in use waits (R114, R116). -/
def execWalkLibraryLoad (n : Nat) (r : WalkLib) (s : State) : Res :=
  if !walkLibOk r then .next s
  else if (s.ctx n).libInUse then .next (s.modCtx n fun c => { c with libWait := c.libWait ++ [r] })
  else .next (s.takeLib n r)

end Sys2Proof.Machine
end

