-- ==== Sys2Proof/Machine/Array.lean ====
section
/-! DEFINITION. Dealing work items, issuing k-steps, closing stages, draining (R16, R26 to R30, R35, R41 to R43, R62, R63,
R65, R105, R106). -/

namespace Sys2Proof.Machine

/-- The last descriptor's shape and accumulator format, which a chain shares (R105). -/
def Ctx.matDesc (c : Ctx) (m : MatOp) : Option Descriptor := (c.fl m.seq).map (·.desc)

/-! ## Work items (R29, R45, R65) -/

/-- The tile grid's column count. -/
def tileColsOf (sh : Shape) (n : Nat) : Nat := ceilDiv n (tileCols sh)

/-- The tile of an item: group, first row, rows below the group's count, first column (R29, R65): groups in order, tiles of a
group in row-major order, items of a group count tiles times parts. -/
def tileAt (sh : Shape) (n parts : Nat) : List Nat → Nat → Nat → Nat → Option (Nat × Nat × Nat × Nat × Nat)
  | [], _, _, _ => none
  | cnt :: r, g, base, idx =>
    let cols := tileColsOf sh n
    let tiles := ceilDiv cnt (tileRows sh) * cols
    if idx < tiles * parts then
      let t := idx / parts
      let row := t / cols * tileRows sh
      some (g, base + row, min (tileRows sh) (cnt - row), t % cols * tileCols sh, idx % parts)
    else tileAt sh n parts r (g + 1) (base + cnt) (idx - tiles * parts)

/-- Items of an operation (R29, R45, R65). -/
def itemCount (sh : Shape) (n parts : Nat) (rows : List Nat) : Nat :=
  (rows.map fun c => ceilDiv c (tileRows sh) * tileColsOf sh n * parts).foldl (· + ·) 0

/-- The item with a number, on given slots: its part's range of dense k-steps (R45). -/
def MatOp.item (m : MatOp) (ctx : Nat) (sh : Shape) (slots : List Nat) (idx : Nat) : Option Item :=
  match tileAt sh m.n m.parts m.rowsOf 0 0 idx with
  | none => none
  | some (g, r0, rows, c0, part) =>
    let lo := if m.parts = 1 then 0 else part * m.ell
    let hi := if m.parts = 1 then m.k else min m.k ((part + 1) * m.ell)
    some { seq := m.seq, ctx := ctx, index := idx, row0 := r0, col0 := c0, rows := rows, group := g, part := part, kLo := lo, kHi := hi,
           stage := lo / 4096, kPos := lo, sub := 0, slots := slots }

/-- Some item of the operation is still to be dealt. -/
def MatOp.more (m : MatOp) : Bool := m.ladder.any (·.migrated) || !m.undealt.isEmpty || !m.assigned.isEmpty || decide (m.nextItem < m.total)

/-- The next round: items in increasing order to the unfenced squads in ascending order (R29). -/
def MatOp.newRound (m : MatOp) (squads : List Nat) : MatOp :=
  let back := m.undealt.take squads.length
  let fresh := (List.range (min (squads.length - back.length) (m.total - m.nextItem))).map (m.nextItem + ·)
  { m with undealt := m.undealt.drop squads.length, nextItem := m.nextItem + fresh.length,
           assigned := m.assigned ++ squads.zip (back ++ fresh) }

/-- The item that a squad receives, and the operation after it: a tile that migrates goes to the first other squad (R293). -/
def MatOp.take (m : MatOp) (squads : List Nat) (sq : Nat) : Option (Nat × MatOp) :=
  match m.ladder.find? fun l => l.migrated && l.home != sq with
  | some l => some (l.index, { m with ladder := m.ladder.map fun x => if x.index = l.index then { x with migrated := false } else x })
  | none =>
  let find (m : MatOp) : Option (Nat × MatOp) :=
    match m.assigned.find? fun p => p.1 == sq with
    | some p => some (p.2, { m with assigned := m.assigned.erase p })
    | none => none
  match find m with
  | some r => some r
  | none => find (m.newRound squads)

/-- Slots in use on an array: by items whose slots drain has not read. -/
def Arr.busySlots (a : Arr) (f : AccFmt) : List Nat := a.items.flatMap fun i => i.slots.flatMap (slotBits f)

/-- The first free slot set inside ACC_SET (R26, R94, R105). -/
def Arr.freeSet (a : Arr) (sh : Shape) (f : AccFmt) (mask : BitVec 8) : Option (List Nat) :=
  (slotSets sh f).find? fun l => l.all fun k => (slotBits f k).all fun b => mask.getLsbD b && !(a.busySlots a.fmt).contains b

/-- The squad has issued the last k-step of every item it holds (R29). -/
def Arr.allIssued (a : Arr) : Bool := a.items.all fun i => decide (i.kHi ≤ i.kPos)

/-- Replace an operation of a context. -/
def State.setMat (s : State) (n : Nat) (m : MatOp) : State :=
  s.modCtx n fun c => { c with mats := c.mats.map fun x => if x.seq = m.seq then m else x }

/-- Give an item to a squad: its slots restart at +0, a change of format starts a reload (R16, R105). -/
def State.giveItem (s : State) (sq : Nat) (it : Item) (acc : AccFmt) : State :=
  s.modSquad sq fun q =>
    let a := q.arr.clearSlots it.slots
    { q with arr := { a with items := a.items ++ [it], reload := if a.fmt = acc then a.reload else 16 } }

/-- The context and operation that deals now: one at a time, in issue order (R30). -/
def State.dealing (s : State) : Option (Nat × MatOp) :=
  let pick (n : Nat) : Option (Nat × MatOp) := if s.working n then ((s.ctx n).mats.find? MatOp.more).map fun m => (n, m) else none
  (pick 1).orElse fun _ => pick 0

/-- WORK_ITEM_DEAL (R29, R105): a squad that has issued its last k-step and has a free slot set gets its next item. -/
def execWorkItemDeal (sq : Nat) (s : State) : Res :=
  let q := s.squad sq
  if q.fenced || !q.arr.allIssued then .next s
  else match s.dealing with
    | none => .next s
    | some (n, m) =>
      match (s.ctx n).matDesc m, m.take s.unfenced sq with
      | some d, some (idx, m') =>
        if q.arr.fmt ≠ d.accFmt ∧ !(q.arr.items.isEmpty && q.arr.reload = 0) then .next s
        else match q.arr.freeSet d.shape d.accFmt d.accSet with
          | none => .next s
          | some slots =>
            match m.item n d.shape slots idx with
            | none => .next s
            | some it =>
              let t := (s.setMat n m').giveItem sq it d.accFmt
              .next (t.startWalkers sq n m.seq idx (idx / m.parts) it.group it.part it.stage)
      | _, _ => .next s

/-- RELOAD: after 16 cycles the array has +0 in all slots and adds in the later format (R105). -/
def execReload (sq : Nat) (s : State) : Res :=
  let a := (s.squad sq).arr
  match a.items.head? with
  | some it =>
    (match (s.ctx it.ctx).fl it.seq with
     | some f => guard (a.reload != 0) s (s.modSquad sq fun q => { q with arr := { q.arr with reload := 0, slots := [], fmt := f.desc.accFmt } })
     | none => .next s)
  | none => guard (a.reload != 0) s (s.modSquad sq fun q => { q with arr := { q.arr with reload := 0, slots := [] } })

/-! ## Issuing k-steps (R16, R41, R62) -/

/-- The end of the 16-step window that holds dense step k: the next multiple of 16 of its segment, its segment's end, the next
stage and the item's end. -/
def windowEnd (m : MatOp) (it : Item) (k : Nat) : Nat :=
  let st := (k / 4096 + 1) * 4096
  match segAt m k with
  | none => min it.kHi st
  | some g => min (min it.kHi st) (min (g.k0 + g.len) (g.k0 + ((k - g.k0) / 16 + 1) * 16))

/-- The steps of a window that a sub-block sums, in increasing k; true = issued, false = fetched only (R58). -/
def State.windowSteps (s : State) (m : MatOp) (sh : Shape) (it : Item) (sb : Nat × Nat) (k : Nat) : List (Nat × Bool) :=
  match segAt m k with
  | none => []
  | some g =>
    if !g.run then []
    else match s.feed it g with
      | none => []
      | some f => (List.range (windowEnd m it k - k)).filterMap fun i =>
          if s.liveStep f sh it sb (k + i) then some (k + i, true) else if s.fetchedStep f it sb (k + i) then some (k + i, false) else none

/-- The steps of a window with the round of each: s issued steps a round, and the fetched ones with the issued ones they stand
before; the last with the last round (R58, R62). -/
def roundsOf (per last : Nat) : Nat → List (Nat × Bool) → List (Nat × Nat)
  | _, [] => []
  | c, (k, live) :: r => (min (c / per) last, k) :: roundsOf per last (if live then c + 1 else c) r

/-- The number of rounds that a sub-block issues in a window: n_l / s, rounded up (R62). -/
def liveRounds (per : Nat) (l : List (Nat × Bool)) : Nat := ceilDiv (l.filter (·.2)).length per

/-- k-steps that a cell takes in a cycle of the segment that holds dense step k (R16). -/
def State.perCycle (s : State) (m : MatOp) (it : Item) (k : Nat) : Nat :=
  match (segAt m k).bind fun g => s.feed it g with
  | some f => stepsPerCycle f.ar.fmt
  | none => 1

/-- The steps of turn t of an item's window: round t / n of sub-block t mod n, in the order of R27 (R62). -/
def State.turnSteps (s : State) (m : MatOp) (sh : Shape) (it : Item) (t : Nat) : List Nat :=
  let n := (subBlocks sh).length
  let l := s.windowSteps m sh it ((subBlocks sh).getD (t % n) (0, 0)) it.kPos
  let per := s.perCycle m it it.kPos
  ((roundsOf per (liveRounds per l - 1) 0 l).filter fun e => e.1 == t / n).map (·.2)

/-- A turn that issues a step costs a cycle (R56, R62). -/
def State.turnCosts (s : State) (m : MatOp) (sh : Shape) (it : Item) (t : Nat) : Bool :=
  let n := (subBlocks sh).length
  decide (t / n < liveRounds (s.perCycle m it it.kPos) (s.windowSteps m sh it ((subBlocks sh).getD (t % n) (0, 0)) it.kPos))

/-- The next turn of an item's window that has steps, from turn t on (R56, R62). -/
def State.nextTurn (s : State) (m : MatOp) (sh : Shape) (it : Item) (t : Nat) : Option Nat :=
  (List.range (16 * (subBlocks sh).length)).find? fun i => decide (t ≤ i) && !(s.turnSteps m sh it i).isEmpty

/-- Issue a list of steps to sub-block n of an item. -/
def State.issueSteps (s : State) (m : MatOp) (sh : Shape) (acc : AccFmt) (it : Item) (n : Nat) (ks : List Nat) (a : Arr) : Arr :=
  let sb := (subBlocks sh).getD n (0, 0)
  let slot := it.slots.getD n 0
  let sl := ks.foldl (fun sl k =>
    match (segAt m k).bind fun g => s.feed it g with
    | none => sl
    | some f => s.issueStep m sh acc it sb f k sl) (tget Slot.zero a.slots slot)
  { a with slots := tset Slot.zero a.slots slot sl }

/-- The first item of an array that has k-steps to issue. -/
def Arr.current (a : Arr) : Option Item := a.items.find? fun i => decide (i.kPos < i.kHi)

def Arr.setItem (a : Arr) (it : Item) : Arr :=
  { a with items := a.items.map fun i => if i.ctx = it.ctx ∧ i.seq = it.seq ∧ i.index = it.index then it else i }

/-- The feeders take a record each when a window begins (R113). -/
def State.feedPop (s : State) (sq : Nat) (begins : Bool) : State :=
  if begins then s.modSquad sq fun q => (q.takeRec 1).takeRec 2 else s

/-- A stage's end has been reached and its close has not been done (R41). -/
def Item.atStageEnd (it : Item) : Bool := it.kPos % 4096 == 0 && decide (it.stage < it.kPos / 4096)

/-- Where an item stands when nothing is left to issue before its next turn: windows and sub-blocks without steps cost no cycle
(R56, R62). It stops at the end of a stage and of the item. -/
def State.seekTurn (s : State) (m : MatOp) (sh : Shape) : Nat → Item → Item
  | 0, it => it
  | fuel + 1, it =>
    if decide (it.kHi ≤ it.kPos) || it.atStageEnd then it
    else match s.nextTurn m sh it it.sub with
      | some t => { it with sub := t }
      | none => s.seekTurn m sh fuel { it with sub := 0, kPos := windowEnd m it it.kPos }

/-- A stage has at most 4,096 windows. -/
def stageWindows : Nat := 4097

/-- The operation and the last descriptor of an item. -/
def State.matOf (s : State) (it : Item) : Option (MatOp × Descriptor) :=
  match (s.ctx it.ctx).mats.find? fun m => m.seq == it.seq with
  | none => none
  | some m => ((s.ctx it.ctx).matDesc m).map fun d => (m, d)

/-- The k-steps of one cycle of an item enter the slot of one sub-block. A window begins when its feeders may take their records
(R122). -/
def State.issueCycle (s : State) (sq : Nat) (it0 : Item) : Option State :=
  match s.matOf it0 with
  | none => none
  | some (m, d) =>
    let it := s.seekTurn m d.shape stageWindows it0
    if decide (it.kHi ≤ it.kPos) || it.atStageEnd then some (s.modSquad sq fun q => { q with arr := q.arr.setItem it })
    else
      let begins := s.nextTurn m d.shape it 0 == some it.sub
      if begins && !((s.squad sq).portReady 1 && (s.squad sq).portReady 2) then none
      else
      let a := s.issueSteps m d.shape d.accFmt it (it.sub % (subBlocks d.shape).length) (s.turnSteps m d.shape it it.sub) (s.squad sq).arr
      some ((s.feedPop sq begins).modSquad sq fun q =>
        { q with arr := a.setItem (s.seekTurn m d.shape stageWindows { it with sub := it.sub + 1 }) })

/-- Close the open groups of an item's slots. -/
def State.closeAll (s : State) (m : MatOp) (d : Descriptor) (it : Item) (a : Arr) : Arr :=
  { a with slots := (it.slots.zip (subBlocks d.shape)).foldl (fun t p =>
      tset Slot.zero t p.1 (s.closeGroup m d.shape d.accFmt it p.2 (tget Slot.zero t p.1))) a.slots }

/-- The index of an item's stage in its accumulation (R42, R45). -/
def Item.stageIndex (it : Item) : Nat := it.stage - it.kLo / 4096

/-- The item's slots go into their close latches and restart at +0; the checksum cells go on (R41). A slot of which the stage issued no
step closes as a +0 partial of the ladder, without its latch (R63). -/
def Arr.closeStage (a : Arr) (it : Item) : Arr :=
  let st := it.slots.foldl (fun (a : Arr) k =>
    let sl := tget Slot.zero a.slots k
    let b := { a with slots := tset Slot.zero a.slots k { sl with cells := [], used := false } }
    if sl.used || !sl.cells.isEmpty then { b with latch := tins k (it.stageIndex, sl.cells) a.latch }
    else { b with rungs := a.rungs ++ [{ slot := k, level := 0, first := it.stageIndex, cells := [] }] }) a
  st.setItem { it with stage := it.stage + 1 }

/-- A close latch that the stage of an item needs is still full (R41, R63). -/
def Arr.latched (a : Arr) (it : Item) : Bool :=
  it.slots.any fun k => (tfind a.latch k).isSome && ((tget Slot.zero a.slots k).used || !(tget Slot.zero a.slots k).cells.isEmpty)

/-- STAGE_CLOSE: the last group of a stage has been added; a full latch makes the array wait (R41). -/
def execStageClose (sq : Nat) (s : State) : Res :=
  let a := (s.squad sq).arr
  match a.items.find? fun i => i.atStageEnd && decide (i.kPos < i.kHi) with
  | none => .next s
  | some it =>
    match s.matOf it with
    | none => .next s
    | some (m, d) =>
      let b := s.closeAll m d it a
      guard (!b.latched it && s.working it.ctx) s (s.modSquad sq fun q => { q with arr := b.closeStage it })

/-- CLOSE_LATCH_EMPTY: the stage partial goes into the ladder at level 0 (R41, R42). -/
def execCloseLatchEmpty (sq slot : Nat) (s : State) : Res :=
  let a := (s.squad sq).arr
  match tfind a.latch slot with
  | none => .next s
  | some (st, cells) =>
    .next (s.modSquad sq fun q =>
      { q with arr := { a with latch := tdel slot a.latch, rungs := a.rungs ++ [{ slot := slot, level := 0, first := st, cells := cells }] } })

/-- y is the right neighbour of x in the stage tree (R42). -/
def Rung.pairs (x y : Rung) : Bool :=
  x.slot == y.slot && x.level == y.level && x.first % 2 ^ (x.level + 1) == 0 && y.first == x.first + 2 ^ x.level

/-- Two neighbouring rungs of a slot on one level, and what is left (R42). -/
def equalRungs (slot : Nat) (l : List Rung) : Option ((Rung × Rung) × List Rung) :=
  let mine := l.filter fun r => r.slot == slot
  (mine.findSome? fun x => (mine.find? x.pairs).map fun y => (x, y)).map fun p => (p, (l.erase p.1).erase p.2)

/-- The lowest rung of a slot (R42). -/
def lowestRung (slot : Nat) (l : List Rung) : Option Rung :=
  (l.filter fun r => r.slot == slot).foldl (fun acc r => match acc with
    | none => some r
    | some x => if r.level < x.level then some r else some x) none

/-- One combination of a ladder: two neighbouring rungs of a level give one of the next (R42). -/
def combineRungs (f : AccFmt) (slot : Nat) (l : List Rung) : Option (List Rung) :=
  (equalRungs slot l).map fun p =>
    p.2 ++ [{ slot := slot, level := p.1.1.level + 1, first := p.1.1.first, cells := addCells f p.1.1.cells p.1.2.cells }]

/-- A draining tile's combination in its own format: equal rungs first, then the lowest rung with the value read (R42, R43). -/
def Drain.combine (d : Drain) (slot : Nat) : Option Drain :=
  match combineRungs d.fmt slot d.rungs with
  | some l => some { d with rungs := l }
  | none =>
    match lowestRung slot d.rungs with
    | none => none
    | some r =>
      if d.closed && (tfind d.vals slot).isNone then some { d with rungs := d.rungs.erase r, vals := tins slot r.cells d.vals }
      else some { d with rungs := d.rungs.erase r, vals := tins slot (addCells d.fmt r.cells (tget [] d.vals slot)) d.vals }

/-- RUNG_COMBINE: one combination, for the tile that drains or for the ladder (R42, R43). -/
def execRungCombine (sq slot : Nat) (s : State) : Res :=
  let a := (s.squad sq).arr
  match a.drain.bind fun d => if s.working d.item.ctx then d.combine slot else none with
  | some d => .next (s.modSquad sq fun q => { q with arr := { a with drain := some d } })
  | none =>
    match combineRungs a.fmt slot a.rungs with
    | some l => .next (s.modSquad sq fun q => { q with arr := { a with rungs := l } })
    | none => .next s

/-! ## Drain (R28, R43) -/

/-- What faulty hardware adds to drained values: slot, cell, pattern (DESIGN CHOICE, log 14). -/
def applyErrs (errs : List (Nat × Nat × W64)) (vals : Tbl (Tbl W64)) : Tbl (Tbl W64) :=
  errs.foldl (fun t e => if (tfind t e.1).isSome then tins e.1 (tset 0 (tget [] t e.1) e.2.1 (tget 0 (tget [] t e.1) e.2.1 ^^^ e.2.2)) t else t) vals

/-- The drain of an item: its slots' values and checks, its ladder's rungs (R28, R43). The values of an item whose last stage was closed
stand in the ladder (R182). -/
def Arr.startDrain (a : Arr) (it : Item) (errs : DrainFaults) : Arr :=
  { a with
    items := a.items.filter fun i => !(i.ctx == it.ctx && i.seq == it.seq && i.index == it.index)
    drain := some { item := it, fmt := a.fmt, closed := decide (it.kHi ≤ it.stage * 4096), held := a.rungs.filter fun r => it.slots.contains r.slot,
                    vals := if it.kHi ≤ it.stage * 4096 then [] else it.slots.foldl (fun t k => tins k (tget Slot.zero a.slots k).cells t) [],
                    chks := it.slots.foldl (fun t k => tins k { tget Slot.zero a.slots k with cells := [] } t) [],
                    errs := errs, rungs := a.rungs.filter fun r => it.slots.contains r.slot }
    rungs := a.rungs.filter fun r => !it.slots.contains r.slot
    slots := it.slots.foldl (fun t k => tdel k t) a.slots
    tiles := (a.tiles + 1) % 2 ^ 32 }

/-- DRAIN_START: the tile's last product has landed; one tile drains at a time, with its latches empty (R28, R43). -/
def execDrainStart (sq : Nat) (errs : DrainFaults) (s : State) : Res :=
  let a := (s.squad sq).arr
  match a.items.find? fun i => decide (i.kHi ≤ i.kPos) with
  | none => .next s
  | some it =>
    if a.drain.isSome || a.reload != 0 || !s.working it.ctx || !(s.squad sq).portReady 3 || it.slots.any (fun k => (tfind a.latch k).isSome) then .next s
    else match s.matOf it with
      | none => .next s
      | some (m, d) => .next (s.modSquad sq fun q => ({ q with arr := (s.closeAll m d it a).startDrain it errs }).takeRec 3)

end Sys2Proof.Machine
end

