-- ==== Sys2Proof/Machine/Stream.lean ====
section
/-! DEFINITION. A tensor as its row-major stream of packed bytes: what collectives and layout conversions move (R77). -/

namespace Sys2Proof.Machine

/-- Bytes of a tensor's packed stream. -/
def TensorRec.streamLen (t : TensorRec) : Nat := ceilDiv (TensorRec.size t * Fmt.bits t.fmt) 8

/-- The elements that byte k of the stream touches. -/
def streamElems (w k : Nat) : List Nat := (List.range ((8 * k + 7) / w + 1 - 8 * k / w)).map (8 * k / w + ·)

/-- Byte k of the stream; elements beyond the tensor read as zero. -/
def State.streamByte (s : State) (n : Nat) (t : TensorRec) (k : Nat) : Option Byte :=
  let w := Fmt.bits t.fmt
  let v := (streamElems w k).mapM fun i =>
    if TensorRec.size t ≤ i then some 0 else (s.getCode n t (unlinear t.dims i)).map fun c => c * 2 ^ (w * (i - 8 * k / w))
  v.map fun l => BitVec.ofNat 8 (l.foldl (· + ·) 0 / 2 ^ (8 * k - w * (8 * k / w)))

def State.streamRead (s : State) (n : Nat) (t : TensorRec) (k : Nat) : Nat → Option (List Byte)
  | 0 => some []
  | m + 1 => match s.streamByte n t k, s.streamRead n t (k + 1) m with
    | some b, some r => some (b :: r)
    | _, _ => none

/-- Bits lo to lo + w - 1 of old replaced by those of v. -/
def putBits (old v lo w : Nat) : Nat := old % 2 ^ lo + v % 2 ^ w * 2 ^ lo + old / 2 ^ (lo + w) * 2 ^ (lo + w)

/-- Write byte k of the stream. -/
def State.streamPut (s : State) (n : Nat) (t : TensorRec) (k : Nat) (b : Byte) : State :=
  let w := Fmt.bits t.fmt
  (streamElems w k).foldl (fun s i =>
    if TensorRec.size t ≤ i then s
    else
      let idx := unlinear t.dims i
      let old := (s.getCode n t idx).getD 0
      let lo := max (w * i) (8 * k)
      let hi := min (w * (i + 1)) (8 * k + 8)
      s.putCode n t idx (putBits old (b.toNat / 2 ^ (lo - 8 * k)) (lo - w * i) (hi - lo))) s

def State.streamWrite (s : State) (n : Nat) (t : TensorRec) (k : Nat) : List Byte → State
  | [] => s
  | b :: r => (s.streamPut n t k b).streamWrite n t (k + 1) r

/-- The blocks of a skewed tensor's edges beyond its dimensions are written as +0 (R77). -/
def State.edgeFill (s : State) (n : Nat) (t : TensorRec) : State :=
  if !t.skewed then s
  else
    let rows := TensorRec.blockRows t * 128
    let cols := TensorRec.blockCols t * 128
    let outer := (t.dims.drop 2).foldl (· * ·) 1
    (List.range outer).foldl (fun s g => (List.range rows).foldl (fun s r => (List.range cols).foldl (fun s c =>
      if TensorRec.dim t 1 ≤ r ∨ TensorRec.dim t 0 ≤ c then s.putCode n t (c :: r :: unlinear (t.dims.drop 2) g) 0 else s) s) s) s

/-- Whether the elements whose stream bytes lie in a range hold a non-finite value (R53). -/
def State.streamNonFinite (s : State) (n : Nat) (t : TensorRec) (k len : Nat) : Bool :=
  let w := Fmt.bits t.fmt
  let i0 := 8 * k / w
  (List.range (ceilDiv (8 * (k + len)) w - i0)).any fun i =>
    decide (i0 + i < TensorRec.size t) && codeNonFinite t.fmt ((s.getCode n t (unlinear t.dims (i0 + i))).getD 0)

/-! ## Accesses that can fail -/

/-- A failed access: a translation fault of a type at a level, or uncorrectable data. -/
structure Fail where
  ftype : Nat
  level : Nat
  va : Nat
  data : Bool
deriving DecidableEq, Repr

/-- The place of a byte, or why it cannot be accessed (R166, R296). -/
def State.access (s : State) (ctx : Nat) (va : Nat) (write : Bool) (home : Option Nat) : Sum Fail (Nat × Nat) :=
  match s.xlate ctx va write home none with
  | .inl (t, l) => .inl { ftype := t, level := l, va := va, data := false }
  | .inr p => if !write && s.burstBad p.1 p.2 then .inl { ftype := 0, level := 0, va := va, data := true } else .inr p

/-- n bytes from byte k of a side on. -/
def State.readRun (s : State) (ctx : Nat) (home : Option Nat) (addr : Nat → Nat) : Nat → Nat → Sum Fail (List Byte)
  | _, 0 => .inr []
  | k, n + 1 => match s.access ctx (addr k) false home with
    | .inl f => .inl f
    | .inr (sp, off) => match s.readRun ctx home addr (k + 1) n with
      | .inl f => .inl f
      | .inr l => .inr (cellGet s.hbm (hbmKey sp off) :: l)

/-- The first byte of a range that cannot be written. -/
def State.writeFail (s : State) (ctx : Nat) (home : Option Nat) (addr : Nat → Nat) (k n : Nat) : Option Fail :=
  (List.range n).findSome? fun i => match s.access ctx (addr (k + i)) true home with
    | .inl f => some f
    | .inr _ => none

/-- The fault of reading or writing one element. -/
def State.elemFail (s : State) (n : Nat) (t : TensorRec) (write : Bool) (idx : List Nat) : Option Fail :=
  let l := s.loc t idx
  match l.store with
  | some _ => none
  | none => (List.range (Fmt.locBytes t.fmt t.skewed l.bit)).findSome? fun i =>
      match s.access n (l.byte + i) write (Home.space t.home) with
      | .inl f => some f
      | .inr _ => none

/-- The fault of reading or writing n bytes of a tensor's stream from byte k on (R166, R167). -/
def State.streamFail (s : State) (n : Nat) (t : TensorRec) (write : Bool) (k len : Nat) : Option Fail :=
  let w := Fmt.bits t.fmt
  (List.range (ceilDiv (8 * (k + len)) w - 8 * k / w)).findSome? fun i =>
    if TensorRec.size t ≤ 8 * k / w + i then none else s.elemFail n t write (unlinear t.dims (8 * k / w + i))

/-- The places of an element that lies in stacked memory. -/
def State.elemPlaces (s : State) (n : Nat) (t : TensorRec) (idx : List Nat) : List (Nat × Nat) :=
  let l := s.loc t idx
  match l.store with
  | some _ => []
  | none => s.places n (Home.space t.home) (fun i => l.byte + i) (Fmt.locBytes t.fmt t.skewed l.bit)

end Sys2Proof.Machine
end

