-- ==== Sys2Proof/Machine/Flags.lean ====
section
/-! DEFINITION. The flags of a context and the waits that they satisfy (R97, R98). The parts these flags play: 240 cast
overflow (R48), 241 the slice's vote on it (R253), 242 ST known (R239), 243 ETA beyond DEADLINE (R258). -/

namespace Sys2Proof.Machine

/-- Wait w of a descriptor holds under flags fl, or is NONE. -/
def waitHolds (fl : BitVec 256) (w : Option (Nat × Bool)) : Bool :=
  match w with
  | none => true
  | some (f, v) => fl.getLsbD f == v

/-- Latch the waits that hold now (R98). -/
def Flight.latch (f : Flight) (fl : BitVec 256) : Flight :=
  match f.phase with
  | .admitted => { f with latched := (List.range 4).map fun i => f.latched.getD i false || waitHolds fl (f.desc.waits.getD i none) }
  | _ => f

/-- All waits are satisfied (R98). -/
def Flight.waitsDone (f : Flight) : Bool := f.latched.all id

/-- One flag's new value. -/
def putFlag (fl : BitVec 256) (f : Nat) (v : Bool) : BitVec 256 :=
  if v then fl ||| BitVec.ofNat 256 (2 ^ f) else fl &&& ~~~(BitVec.ofNat 256 (2 ^ f))

/-- Write a flag; every Admitted descriptor that waits for the value latches it (R98). -/
def Ctx.writeFlag (c : Ctx) (f : Nat) (v : Bool) : Ctx :=
  let fl := putFlag c.flags f v
  { c with flags := fl, flight := c.flight.map fun x => x.latch fl }

def Ctx.flag (c : Ctx) (f : Nat) : Bool := c.flags.getLsbD f

def State.writeFlag (s : State) (n f : Nat) (v : Bool) : State := s.modCtx n (·.writeFlag f v)

/-- Write a SET field's flag (R98); flags 240 to 255 are the device's own (R97). -/
def Ctx.setField (c : Ctx) (x : Option (Nat × Bool)) : Ctx :=
  match x with
  | none => c
  | some (f, v) => if f < 240 then c.writeFlag f v else c

end Sys2Proof.Machine
end

