-- ==== Sys2Proof/Machine/Telemetry.lean ====
section
/-! DEFINITION. Phase telemetry, step starts, window overruns, the urgent estimate (R243, R244, R256 to R258, R263). -/

namespace Sys2Proof.Machine

/-! ## The ring (R256) -/

def teleRing : Nat := 65536

/-- Entries written and not read. -/
def Tele.unread (t : Tele) : Nat := (t.wp + 2 ^ 32 - t.rp % 2 ^ 32) % 2 ^ 32

/-- Write one entry; one that overwrites an unread entry counts in TELE_RING_LOST and raises vector 245. -/
def State.teleWrite (s : State) (e : List Byte) : State :=
  let wraps := decide (teleRing ≤ s.tele.unread)
  let t := s.setTele { s.tele with ring := tins (s.tele.wp % teleRing) e s.tele.ring, wp := (s.tele.wp + 1) % 2 ^ 32,
                                   lost := s.tele.lost + b2n wraps }
  if wraps then t.raise 245 else t

/-- A phase's summary after one more entry. -/
def Summary.add (m : Summary) (st0 st1 : W64) : Summary :=
  let d := st1 - st0
  { count := m.count + 1, lastIssue := st0, lastDone := st1, least := if m.count = 0 ∨ d.toNat < m.least.toNat then d else m.least,
    most := if m.most.toNat < d.toNat then d else m.most }

def Summary.zero : Summary := ⟨0, 0, 0, 0, 0⟩

/-- The class code in the order of R94. -/
def clsCode : Cls → Nat
  | .matmul => 0 | .accum => 1 | .vector => 2 | .row => 3 | .dma => 4 | .collective => 5 | .update => 6 | .huddle => 7
  | .mark => 8 | .nop => 9

/-- ST as entries carry it: 0 while unknown (R239). -/
def State.stNow (s : State) : W64 := if s.clk.known then s.clk.st else 0
/-- STEP of the block in force, or 0. -/
def Ctx.stepNow (c : Ctx) : Nat := match c.spb with | some b => b.step | none => 0

/-- The 32 bytes of an entry (R256). -/
def State.teleBytes (s : State) (n : Nat) (f : Flight) (st0 st1 : W64) (skipped overrun : Bool) : List Byte :=
  let w := f.desc.phase + 4096 * b2n skipped + 8192 * b2n f.replayed + 16384 * b2n (!s.clk.known || (!skipped && !f.issueKnown)) + 32768 * b2n overrun
  leBytes 8 st0.toNat ++ leBytes 8 st1.toNat ++ leBytes 4 (s.ctx n).stepNow ++ leBytes 2 w ++ leBytes 1 (n * 128 + f.queue) ++
    leBytes 1 (clsCode f.desc.cls) ++ leBytes 4 f.qindex ++ leBytes 2 (if skipped then s.countA else f.issueA) ++ [0#8, 0#8]

/-! ## Window overruns (R244) -/

/-- Compute windows that a phase belongs to and whose end has passed, and that are not yet overrun in this step. -/
def State.overruns (s : State) (n : Nat) (phase : Nat) : List Nat :=
  let c := s.ctx n
  match c.plan, c.stepStart with
  | some p, some t =>
    if !s.clk.known then []
    else ((List.range p.windows.length).zip p.windows).filterMap fun e =>
      if e.2.kind != .maintenance && decide (e.2.phaseLo ≤ phase ∧ phase ≤ e.2.phaseHi) && !c.overrunSeen.contains e.1
        && decide (t.toNat + e.2.start + e.2.len < s.clk.st.toNat) then some e.1 else none
  | _, _ => []

/-- One window is overrun: TELE_OVERRUN, Info record, vector 218 if enabled. -/
def State.noteOverrun (s : State) (n w : Nat) : State :=
  let k := n * 64 + w
  let t := s.setTele { s.tele with overrun := tset 0 s.tele.overrun k (capTo max32 (tget 0 s.tele.overrun k + 1)) }
  let t := t.modCtx n fun c => { c with overrunSeen := w :: c.overrunSeen }
  (t.log 0 0x1C06 0 0 0x13 n (leBytes 1 n ++ leBytes 1 w ++ [0#8, 0#8] ++ leBytes 4 (t.ctx n).stepNow)).event pgTIME 3 218

/-- The telemetry of a descriptor that completes or is skipped: its overruns first, then its entry and its phase's summary. -/
def State.telemetry (s : State) (n : Nat) (f : Flight) (skipped : Bool) : State :=
  if f.desc.phase = 0 then s
  else
    let ovs := if skipped then [] else s.overruns n f.desc.phase
    let t := ovs.foldl (fun t w => t.noteOverrun n w) s
    let st0 := if skipped then s.stNow else f.issueSt
    let st1 := s.stNow
    let t := t.teleWrite (s.teleBytes n f st0 st1 skipped (!ovs.isEmpty))
    t.modCtx n fun c => { c with summaries := tins f.desc.phase ((tget Summary.zero c.summaries f.desc.phase).add st0 st1) c.summaries }

/-! ## The step parameter block (R262, R263) -/

/-- A finite binary32 number that is not negative. -/
def finNonNeg (w : Word) : Bool := (decode32 w).isFin && !((decode32 w).sign && !(decode32 w).isZero)

/-- The fields in order as numbers, over which Gliari's encoding forms CHECK (DESIGN CHOICE, log 12). -/
def Spb.fields (b : Spb) : List Nat :=
  b.step :: b.groups :: (b.lr.map BitVec.toNat ++ b.wd.map BitVec.toNat ++ [b.clip.toNat, b2n b.static] ++ b.scal.map BitVec.toNat)

/-- CHECK and the ranges of R262. -/
def Spb.ok (b : Spb) : Bool :=
  b.check == Config.spbCrc (Spb.fields b) && decide (1 ≤ b.step ∧ b.step < 2 ^ 32) && decide (1 ≤ b.groups ∧ b.groups ≤ 64) &&
    b.lr.length == 64 && b.wd.length == 64 && b.scal.length == 8 && b.lr.all finNonNeg && b.wd.all finNonNeg && finNonNeg b.clip

/-- The block is copied and checked; one that fails is not in force, and an Error record is written (R263). -/
def State.takeSpb (s : State) (n : Nat) : State :=
  let c := s.ctx n
  let t (b : Option Spb) := s.modCtx n fun c => { c with spb := b, spbSeen := true }
  match c.spbHost with
  | some b =>
    if Spb.ok b then t (some b)
    else (t none).log 4 0x4802 2 0 0x54 0 (leBytes 1 n ++ [0#8, 0#8, 0#8] ++ leBytes 4 b.step)
  | none => (t none).log 4 0x4802 2 0 0x54 0 (leBytes 1 n)

/-! ## The urgent estimate (R257, R258) -/

/-- ETA at the start of a step, from the last five starts; none where it is unknown. -/
def Ctx.etaAt (c : Ctx) : Option W64 :=
  match c.plan, c.stepStarts with
  | some p, s0 :: _ :: _ :: _ :: s4 :: _ =>
    if 5 ≤ c.stepNo ∧ c.stepNo < p.stepsTotal then
      some (BitVec.ofNat 64 (s0.toNat + (p.stepsTotal - c.stepNo + 1) * (s0.toNat - s4.toNat) / 4))
    else none
  | _, _ => none

/-- TELE_URG_ETA, vectors 221 and 222, flag 243 and its Warning record, whose code R393 does not list (DESIGN CHOICE, log 12). -/
def State.urgentEta (s : State) : State :=
  match s.ctx1.etaAt with
  | none => s.modCtx 1 fun c => { c with eta := BitVec.allOnes 64 }
  | some e =>
    let t := s.modCtx 1 fun c => { c with eta := e, etaSeen := true }
    let t := if s.ctx1.etaSeen then t else t.raise 222
    let dl := match s.ctx1.plan with | some p => p.deadline.toNat | none => 0
    if dl != 0 && decide (dl < e.toNat) then
      ((t.writeFlag 1 243 true).log 4 (Config.etaCode % 2 ^ 16) 1 0 0x55 0 []).raise 221
    else t.writeFlag 1 243 false

/-! ## The step start (R242, R243, R263, R283) -/

/-- A descriptor with PHASE 1 issues. -/
def State.stepStart (s : State) (n : Nat) : State :=
  let t := s.modCtx n fun c => { c with
    plan := c.planNext.orElse fun _ => c.plan
    planNext := none
    stepStarts := if s.clk.known then (s.clk.st :: c.stepStarts).take 5 else []
    stepNo := c.stepNo + 1
    overrunSeen := []
    stallNs := 0
    exchGrad := []
    exchTags := [] }
  let t := t.takeSpb n
  let t := [244, 246, 247, 248, 249].foldl (fun t f => t.writeFlag n f false) t
  if n = 1 then t.urgentEta else t

/-! ## The exposed exchange (R251) -/

/-- Time of the first product completed after the product of a tag: its own last, then the next of another tag. -/
def nextGrad (g : List (Nat × Nat)) (tag : Nat) : Option Nat :=
  match (g.filter fun e => e.1 == tag).getLast? with
  | none => none
  | some own => (g.find? fun e => e.1 != tag && decide (own.2 ≤ e.2)).map (·.2)

/-- TELE_EXCH_EXPOSED: the last tag against the last product, every other tag against the next layer's products. -/
def Ctx.exposed (c : Ctx) : Nat :=
  let lastG := c.exchGrad.foldl (fun m e => max m e.2) 0
  let lastT := c.exchTags.foldl (fun m e => max m e.2) 0
  (lastT - lastG) + (c.exchTags.filter fun e => e.2 != lastT).foldl (fun a e =>
    a + (match nextGrad c.exchGrad e.1 with | some g => e.2 - g | none => 0)) 0

end Sys2Proof.Machine
end

