-- ==== Sys2Proof/Machine/Suspend.lean ====
section
/-! DEFINITION. What stops a queue or a context: sanity faults, the fault log, suspension for a fault, the engines that a
context has at work (R167 to R169, R181, R295, R296). -/

namespace Sys2Proof.Machine

/-- The 16 bytes of a fault-log record (R169). -/
def FlogRec.bytes (r : FlogRec) : List Byte :=
  leBytes 8 r.va.toNat ++ leBytes 1 r.ftype ++ leBytes 1 r.srcType ++ leBytes 2 r.srcInst ++ leBytes 1 (b2n r.write) ++
    leBytes 1 r.level ++ leBytes 1 r.queue ++ leBytes 1 r.chan

/-- Enter a record in a log of 16; a full log counts it (R169). -/
def Ctx.flogAdd (c : Ctx) (r : FlogRec) : Ctx :=
  if c.flog.length < 16 then { c with flog := c.flog ++ [r] } else { c with flogLost := capTo 65535 (c.flogLost + 1) }

/-- Blocks of a flight that are left to a squad in the order of R84. -/
def State.leftBlocks (s : State) (f : Flight) (sq : Nat) : Bool :=
  let u := s.unfenced
  (List.range f.items).any fun b => !f.commitMap.contains b && decide (u.getD (b % u.length) 64 = sq)

/-- An issued flight of a class has blocks left on a squad. -/
def State.blocksOn (s : State) (n : Nat) (k : Cls) (sq : Nat) : Bool :=
  (s.ctx n).flight.any fun f => f.phase == Phase.issued && f.desc.cls == k && s.leftBlocks f sq

/-- The engines at work for a context (R167). -/
def State.engines (s : State) (n : Nat) : List Engine :=
  let sqs := s.unfenced.flatMap fun sq =>
    let q := s.squad sq
    (if (q.arr.items.any fun i => i.ctx == n) || (q.arr.drain.any fun d => d.item.ctx == n) then [Engine.array sq] else []) ++
    (if q.walkers.any fun e => e.2.ctx == n && e.2.state != WState.idle && e.2.state != WState.ended then [Engine.fetch sq] else []) ++
    (if s.blocksOn n .vector sq then [Engine.vector sq] else []) ++ (if s.blocksOn n .row sq then [Engine.row sq] else []) ++
    (if s.blocksOn n .update sq then [Engine.update sq] else [])
  let dmas := (List.range 128).filterMap fun k =>
    match ((s.chan (k / 32)).dmaCh (k % 32)).xfer with
    | some x => if x.ctx = n ∧ x.seq.isSome ∧ ((s.chan (k / 32)).dmaCh (k % 32)).state = 1 then some (Engine.dma (k / 32) (k % 32)) else none
    | none => none
  sqs ++ dmas ++ (s.ctx n).tags.map fun g => Engine.collective g.tag

/-- Suspend a context for a fault found on channel ch: its engines stop at their restart points, its clocks freeze, vector
160 + 8 x context + c (R168). -/
def State.suspend (s : State) (n ch : Nat) : State :=
  if (s.ctx n).suspended || (s.ctx n).lost then s
  else (s.modCtx n fun c => { c with suspended := true, stopping := (c.stopping ++ s.engines n).dedup }).raise (160 + 8 * n + ch)

/-- A translation fault of a dispatcher-owned engine: fault log, Info record 0x2001, suspension (R168, R169). -/
def State.transFault (s : State) (n : Nat) (r : FlogRec) : State :=
  ((s.modCtx n (·.flogAdd r)).log r.chan 0x2001 0 0 r.srcType r.srcInst (FlogRec.bytes r)).suspend n r.chan

/-- The channel on which a fault at an address is found: that of the engine's squad or DMA channel, else 0. -/
def engineChan : Engine → Nat
  | .array q | .vector q | .row q | .update q | .fetch q => q / 16
  | .dma c _ => c
  | .collective _ | .dispatcher _ => 0

/-- A descriptor sanity fault (R110, R295): Error record 0x1C03, the queue's vector, the queue halts. -/
def State.sanityFault (s : State) (n q qindex check : Nat) : State :=
  let t := s.log 0 0x1C03 2 0 0x13 q (leBytes 1 n ++ leBytes 1 q ++ [0#8, 0#8] ++ leBytes 4 qindex ++ leBytes 1 check)
  (t.modCtx n fun c => c.modQueue q fun x => { x with halt := .sanity }).raise (128 + 16 * n + q)

end Sys2Proof.Machine
end

