-- ==== Sys2Proof/Machine/ShortPass.lean ====
section
/-! DEFINITION. Packets handed to the on-chip network; the short pass: mailboxes, overflow areas, held messages, sending and reading of
transfers (R128 to R130, R189, R190, R193, R212, R230). -/

namespace Sys2Proof.Machine

/-! ## Packets (R189, R190, R193, R212) -/

/-- Hand a packet of this device to its port arbiter (R222). -/
def State.toNet (s : State) (p : Packet) : State := s.setNet { s.net with waiting := s.net.waiting ++ [(none, p)] }

/-- A packet of this device. -/
def State.mkPacket (s : State) (n dst dstSquad tag epoch off : Nat) (ty : PktType) (body : List Byte) : Packet :=
  { dst := dst, src := s.devId, slice := s.sliceTag, ctx := n, dstSquad := dstSquad, len := ceilDiv (16 + body.length) 248, ptype := ty, tag := tag,
    epoch := epoch, off := off, body := body }

/-- The class of a packet on the chip (R193): control 0, reduction 1, bulk 3. -/
def clsOf : PktType → Nat
  | .redData => 1
  | .bulkWrite | .bulkReadReq | .bulkReadData => 3
  | .redCtrl | .huddle | .flag | .time | .short | .pair => 0

/-- Class MEM of R193. -/
def memCls : Nat := 2

/-- The edge router of a link port (R190). -/
def portRouter (n : Nat) : Nat := 16 + [1, 2, 3, 12, 14, 15].getD (n % 6) 0
/-- A channel's edge router E13 holds host port A on C0 and B on C2 (R190). -/
def hostRouter (c r : Nat) : Bool := r == 29 && (c == 0 || c == 2)

/-- A packet waits to enter the network at a router of a channel. -/
def State.inject (s : State) (c r cls : Nat) (g : Goal) (p : Packet) : State :=
  s.setNet { s.net with inq := s.net.inq ++ [{ chan := c, router := r, cls := cls, set := 0, src := (c, r), goal := g, lane := p.dstSquad % 4, route := [], pkt := p }] }

/-- The squad of this device that a packet goes to. -/
def squadGoal (sq : Nat) : Goal := ⟨sq / 16, sq % 16, none⟩

def State.modFlight (s : State) (n seq : Nat) (f : Flight → Flight) : State := s.modCtx n (·.modFl seq f)

/-! ## Mailboxes (R129, R230) -/

def boxKey (n mb : Nat) : Nat := n * 8 + mb
/-- One source and one mailbox. -/
def ShortMsg.sameRoute (a b : ShortMsg) : Bool :=
  a.srcDev == b.srcDev && a.srcSquad == b.srcSquad && a.ctx == b.ctx && a.squad == b.squad && a.mbox == b.mbox

/-- The messages in a mailbox. -/
def Mbox.size (b : Mbox) : Nat := b.shown.flatten.length + b.parts.length
/-- The source of a message. -/
def ShortMsg.from_ (m : ShortMsg) : Nat × Nat := (m.srcDev, m.srcSquad)
/-- The sequence number of a source that becomes visible next. -/
def Mbox.nextOf (b : Mbox) (k : Nat × Nat) : Nat := ((b.next.find? fun e => e.1 == k).map (·.2)).getD 0

/-- A message that the mailbox has had: it is there, or its transfer has become visible (R230). -/
def Mbox.has (b : Mbox) (m : ShortMsg) : Bool :=
  decide (128 ≤ (m.seq + 256 - b.nextOf (ShortMsg.from_ m) % 256) % 256) || b.parts.any fun x => (ShortMsg.from_ x) == (ShortMsg.from_ m) && x.seq == m.seq && x.index == m.index

/-- The transfers of a source become visible in send order, each when all its messages have arrived (R129). -/
def Mbox.show_ : Nat → Mbox → Nat × Nat → Mbox
  | 0, b, _ => b
  | fuel + 1, b, k =>
    let q := b.nextOf k
    let l := b.parts.filter fun x => (ShortMsg.from_ x) == k && x.seq == q
    match l with
    | [] => b
    | m :: _ =>
      if l.length = m.count then
        Mbox.show_ fuel ⟨b.shown ++ [l.mergeSort fun x y => decide (x.index ≤ y.index)], b.parts.filter (fun x => !((ShortMsg.from_ x) == k && x.seq == q)),
          (k, (q + 1) % 256) :: b.next.filter fun e => e.1 != k⟩ k
      else b

/-- The mailbox takes a message. -/
def Mbox.take (b : Mbox) (m : ShortMsg) : Mbox := Mbox.show_ 17 { b with parts := b.parts ++ [m] } (ShortMsg.from_ m)

def State.mbox (s : State) (sq n mb : Nat) : Mbox := tget Mbox.reset (s.squad sq).mbox (boxKey n mb)
def State.deposit (s : State) (m : ShortMsg) : State :=
  s.modSquad m.squad fun q => { q with mbox := tset Mbox.reset q.mbox (boxKey m.ctx m.mbox) ((tget Mbox.reset q.mbox (boxKey m.ctx m.mbox)).take m) }
def State.overflow (s : State) (c n : Nat) : List ShortMsg := tget [] (s.chan c).overflow n
def State.setOverflow (s : State) (c n : Nat) (l : List ShortMsg) : State :=
  s.modChan c fun h => { h with overflow := tset [] h.overflow n l }

/-! ## Delivery (R129) -/

/-- The mailbox has room and no earlier message of the same source waits in the overflow area. -/
def State.boxOpen (s : State) (m : ShortMsg) : Bool :=
  decide ((s.mbox m.squad m.ctx m.mbox).size < 16) && !((s.overflow (m.squad / 16) m.ctx).any fun x => ShortMsg.sameRoute x m)

/-- The message goes into the overflow area: Info record 0x3C01. -/
def State.spillShort (s : State) (m : ShortMsg) : State :=
  let c := m.squad / 16
  (s.setOverflow c m.ctx (s.overflow c m.ctx ++ [m])).log c 0x3C01 0 0 0x04 m.squad (leBytes 2 m.squad ++ leBytes 1 m.ctx ++ leBytes 1 m.mbox)

/-- Room for one more message in the overflow area. -/
def State.spillRoom (s : State) (m : ShortMsg) : Bool := decide ((s.overflow (m.squad / 16) m.ctx).length < 16384)

/-- A message for which there is no room anywhere is held: one of this device at its sender, one of another device on its sender's behalf
(DESIGN CHOICE, log 40). -/
def State.holdShort (s : State) (m : ShortMsg) : State := s.modCtx m.ctx fun c => { c with sends := c.sends ++ [m] }

/-- A message goes where there is room for it. -/
def State.placeShort (s : State) (m : ShortMsg) : State :=
  if s.boxOpen m then s.deposit m else if s.spillRoom m then s.spillShort m else s.holdShort m

/-- The message is there already: a copy of one that was sent again (R230). -/
def State.hasShort (s : State) (m : ShortMsg) : Bool :=
  (s.mbox m.squad m.ctx m.mbox).has m ||
    (s.overflow (m.squad / 16) m.ctx ++ (s.ctx m.ctx).sends).any fun x => ShortMsg.sameRoute x m && x.seq == m.seq && x.index == m.index

/-- A message arrives at its squad: not twice, and not before a held one of its source. -/
def State.deliverShort (s : State) (m : ShortMsg) : State :=
  if s.hasShort m then s
  else if (s.ctx m.ctx).sends.any fun x => ShortMsg.sameRoute x m then s.holdShort m
  else s.placeShort m

/-- SHORT_PASS_MESSAGE (R129). -/
def execShortPassMessage (m : ShortMsg) (s : State) : Res :=
  guard (s.up && !(s.squad m.squad).fenced && !(s.ctx m.ctx).lost) s (s.deliverShort m)

/-- The first message of an overflow area whose mailbox has room and that no earlier one of its source precedes. -/
def State.nextSpilled (s : State) (l : List ShortMsg) : Option ShortMsg :=
  l.find? fun m => decide ((s.mbox m.squad m.ctx m.mbox).size < 16)

/-- OVERFLOW_DELIVER: the oldest deliverable message leaves the overflow area of a channel (R129). -/
def execOverflowDeliver (c n : Nat) (s : State) : Res :=
  match s.nextSpilled (s.overflow c n) with
  | none => .next s
  | some m => .next ((s.setOverflow c n ((s.overflow c n).erase m)).deposit m)

/-- HELD_MESSAGE_RELEASE: the oldest held message for which there is room goes on (R129). -/
def execHeldMessageRelease (n : Nat) (s : State) : Res :=
  match (s.ctx n).sends.find? fun m => s.boxOpen m || s.spillRoom m with
  | none => .next s
  | some m => .next ((s.modCtx n fun c => { c with sends := c.sends.erase m }).placeShort m)

/-! ## Reading (R129) -/

/-- The bytes of a transfer. -/
def transferBytes (l : List ShortMsg) : List Byte := (l.flatMap (·.data)).take (l.headD ⟨0, 0, 0, 0, 0, 0, 0, 0, 0, 0, []⟩).len

/-- The oldest visible transfer of a mailbox that carries the result of a reduction tag (R212, R270). -/
def Mbox.result (b : Mbox) (tag : Nat) : Option (List ShortMsg) := b.shown.find? fun l => l.any fun m => m.srcSquad == 127 && m.tag == tag

/-- A transfer is removed from a mailbox. -/
def State.dropTransfer (s : State) (sq n mb : Nat) (l : List ShortMsg) : State :=
  s.modSquad sq fun q => { q with mbox := tmod Mbox.reset q.mbox (boxKey n mb) fun b => { b with shown := b.shown.erase l } }

/-- What a reader has read of a mailbox: the oldest visible transfer, an UPDATE the two results of its norms (R129, R270). -/
def State.readOf (s : State) (n : Nat) (d : Descriptor) (b : Mbox) : List (List ShortMsg) :=
  if d.cls = .update then [(s.ctx n).upd.tagG, (s.ctx n).upd.tagW].filterMap b.result else b.shown.take 1

/-- The mailbox of a completed reader gives up what it read on every squad (R129; DESIGN CHOICE, log 36). -/
def State.readDone (s : State) (n : Nat) (d : Descriptor) : State :=
  match d.mbox with
  | none => s
  | some mb => s.unfenced.foldl (fun (t : State) sq => (s.readOf n d (s.mbox sq n mb)).foldl (fun u l => u.dropTransfer sq n mb l) t) s

/-! ## Sending (R128) -/

/-- The 64-byte messages of a transfer from a squad (127 for the device) of a device. -/
def shortMsgs (src srcSquad squad n mbox seq tag : Nat) (data : List Byte) : List ShortMsg :=
  let k := ceilDiv data.length 64
  (List.range k).map fun i => { srcDev := src, srcSquad := srcSquad, ctx := n, squad := squad, mbox := mbox, seq := seq, index := i, count := k,
                                len := data.length, tag := tag, data := (data.drop (64 * i)).take 64 }

/-- One source of this device and one mailbox of a device; transfers are numbered along each (DEDUCED from R129, log 36). -/
def routeKey (srcSquad dev squad mb : Nat) : Nat := ((srcSquad * 65536 + dev) * 64 + squad) * 8 + mb

/-- The next sequence number of a route. -/
def Ctx.takeSeq (c : Ctx) (k : Nat) : Nat × Ctx := (tget 0 c.sendSeq k, { c with sendSeq := tset 0 c.sendSeq k ((tget 0 c.sendSeq k + 1) % 256) })

/-- The data of a transfer: the first bytes of the descriptor's output; what the output does not hold is free (DESIGN CHOICE, log 36). -/
def State.sendData (s : State) (n : Nat) (f : Flight) (len : Nat) : List Byte × State :=
  let have_ := match f.operand 2 with
    | some (_, t) => (s.streamRead n t 0 (min len (TensorRec.streamLen t))).getD []
    | none => []
  (List.range (len - have_.length)).foldl (fun (p : List Byte × State) _ => (p.1 ++ [p.2.draw.1.truncate 8], p.2.draw.2)) (have_, s)

/-- The lowest unfenced squad, from which the device's transfers are sent (DESIGN CHOICE, log 36). -/
def State.sendSquad (s : State) : Nat := s.unfenced.headD 0

/-- The packet of a message: R212's fields, and in the body the source squad, the mailbox with the last-message bit, the sequence number and
the length (DESIGN CHOICE, log 33). -/
def State.shortPacket (s : State) (dev : Nat) (m : ShortMsg) : Packet :=
  s.mkPacket m.ctx dev m.squad 0 0 (64 * m.index) .short
    (leBytes 1 m.srcSquad ++ leBytes 1 (m.mbox + 128 * b2n (m.index + 1 == m.count)) ++ leBytes 1 m.seq ++ leBytes 2 m.len ++ m.data)

/-- The message that a short-pass packet carries. -/
def shortOf (p : Packet) : ShortMsg :=
  let len := leNat ((p.body.drop 3).take 2)
  { srcDev := p.src, srcSquad := (p.body.headD 0).toNat, ctx := p.ctx, squad := p.dstSquad, mbox := (p.body.getD 1 0).toNat % 128, seq := (p.body.getD 2 0).toNat,
    index := p.off / 64, count := ceilDiv len 64, len := len, tag := 0, data := p.body.drop 5 }

/-- Send one transfer: over the network to a squad of this device, or to the ports (R128, R130). -/
def State.sendShort (s : State) (n : Nat) (f : Flight) (x : SendSpec) : State :=
  let p := s.sendData n f x.len
  let t := p.2
  let sq := t.sendSquad
  let k := routeKey sq x.dev x.squad x.mbox
  let q := (t.ctx n).takeSeq k
  let ms := shortMsgs t.devId sq x.squad n x.mbox q.1 0 p.1
  let t := (t.setCtx n q.2).modFlight n f.seq fun y => { y with sent := some (k, q.1) }
  ms.foldl (fun (u : State) m =>
    if x.dev = u.devId then u.inject (sq / 16) (sq % 16) (clsOf .short) (squadGoal x.squad) (u.shortPacket x.dev m) else u.toNet (u.shortPacket x.dev m)) t

/-- A message of a route and a number. -/
def ShortMsg.isOf (m : ShortMsg) (dev : Nat) (k : Nat × Nat) : Bool := routeKey m.srcSquad dev m.squad m.mbox == k.1 && m.seq == k.2

/-- A transfer of this flight is held, or a message of it has still to leave the network of this device. -/
def State.sendHeld (s : State) (n : Nat) (f : Flight) : Bool := match f.sent with
  | some k =>
    (s.ctx n).sends.any (fun m => m.srcDev == s.devId && ShortMsg.isOf m s.devId k) ||
      (s.net.inq.map (·.pkt) ++ s.net.transit.map (·.pkt) ++ s.net.waiting.map (·.2)).any fun p =>
        p.ptype == .short && p.src == s.devId && p.ctx == n && ShortMsg.isOf (shortOf p) p.dst k
  | none => false

end Sys2Proof.Machine
end

