-- ==== Sys2Proof/Machine/Collect.lean ====
section
/-! DEFINITION. Collectives: reduction trees over the members of a slice, their nodes, grants, aborts and results
(R42, R88, R89, R131, R202, R203, R226 to R228, R253, R270). A node of this device is named by its level in the tree (DESIGN CHOICE, log 33). -/

namespace Sys2Proof.Machine

/-! ## The slice (R10, R226) -/

def Ctx.rank (c : Ctx) : Nat := match c.shard with | some s => s.rank | none => 0
def Ctx.members (c : Ctx) : Nat := match c.slicePlan with | some p => p.ids.length | none => 1
/-- The device ID of a rank. -/
def Ctx.idOf (c : Ctx) (r : Nat) : Nat := match c.slicePlan with | some p => p.ids.getD r 0 | none => 0

/-- The largest power of two that divides n, up to 2^fuel. -/
def lowBit : Nat → Nat → Nat
  | 0, _ => 1
  | k + 1, n => if n % 2 = 1 then 1 else 2 * lowBit k (n / 2)

/-- ceil(log2 r), up to a fuel. -/
def clog2 : Nat → Nat → Nat
  | 0, _ => 0
  | k + 1, r => if r ≤ 1 then 0 else clog2 k (ceilDiv r 2) + 1

/-- The highest level of which index a computes a node, among r operands: level l covers 2^l indices from a (R42, R226). -/
def topLevel (a r : Nat) : Nat := if a = 0 then clog2 32 r else Nat.log2 (lowBit 32 a)

/-! ## Packets -/

/-- Send one packet to every other member of the slice. -/
def State.toMembers (s : State) (n tag epoch off : Nat) (ty : PktType) (body : List Byte) : State :=
  (List.range (s.ctx n).members).foldl (fun t r =>
    if r = (s.ctx n).rank then t else t.toNet (t.mkPacket n ((s.ctx n).idOf r) 0x7F tag epoch off ty body)) s

/-- The kind of a COLLECTIVE and its tag. -/
def Descriptor.coll (d : Descriptor) : Option (CollKind × Nat) := match d.op with
  | .coll k t => some (k, t)
  | _ => none

/-- A tag in use with its descriptor and kind. -/
def Ctx.tagOf (c : Ctx) (tag : Nat) : Option (Tag × Flight × CollKind) :=
  match c.tags.find? fun g => g.tag == tag with
  | none => none
  | some g => match c.flight.find? fun f => f.seq == g.seq with
    | none => none
    | some f => (Descriptor.coll f.desc).map fun k => (g, f, k.1)

/-- The owner, whose index is 0 (R226). -/
def collOwner : CollKind → Nat
  | .reduceScatter o _ => o
  | _ => 0
def collOp : CollKind → RedOp
  | .reduceScatter _ bf => if bf then .addBf16 else .addFp32
  | .shortReduce op _ _ => op
  | _ => .bitOr

/-- The operand index of this device (R226). -/
def Ctx.opIndex (c : Ctx) (owner : Nat) : Nat := if c.members = 0 then 0 else (c.rank + c.members - owner % c.members) % c.members
/-- The rank of an operand index. -/
def Ctx.rankOfIndex (c : Ctx) (owner a : Nat) : Nat := if c.members = 0 then 0 else (a + owner) % c.members

/-! ## The combine unit (R202) -/

def bfWord (b : Nat) : Num := decodeElem .bf16 b
def bfCode (x : Num) : Nat := if x.isNan then 0x7FC0 else encodeNum pBf16 8 x

/-- left op right over words of w bytes. -/
def zipWords (w : Nat) (f : Nat → Nat → Nat) : Nat → List Byte → List Byte → List Byte
  | 0, _, _ => []
  | n + 1, a, b => leBytes w (f (leNat (a.take w)) (leNat (b.take w))) ++ zipWords w f n (a.drop w) (b.drop w)

def combineBytes (op : RedOp) (a b : List Byte) : List Byte :=
  let n := max a.length b.length
  let w32 (f : Word → Word → Word) (x y : Nat) : Nat := (f (BitVec.ofNat 32 x) (BitVec.ofNat 32 y)).toNat
  match op with
  | .addFp32 => zipWords 4 (w32 fAdd) (ceilDiv n 4) (padTo (ceilDiv n 4 * 4) a) (padTo (ceilDiv n 4 * 4) b)
  | .maxFp32 => zipWords 4 (w32 fMax) (ceilDiv n 4) (padTo (ceilDiv n 4 * 4) a) (padTo (ceilDiv n 4 * 4) b)
  | .addBf16 => zipWords 2 (fun x y => bfCode (addNum pBf16 (bfWord x) (bfWord y))) (ceilDiv n 2) (padTo (ceilDiv n 2 * 2) a) (padTo (ceilDiv n 2 * 2) b)
  | .maxBf16 => zipWords 2 (fun x y => bfCode (maxNum (bfWord x) (bfWord y))) (ceilDiv n 2) (padTo (ceilDiv n 2 * 2) a) (padTo (ceilDiv n 2 * 2) b)
  | .bitOr => zipWords 1 (· ||| ·) n (padTo n a) (padTo n b)
  | .xorFold => zipWords 8 (· ^^^ ·) (ceilDiv n 8) (padTo (ceilDiv n 8 * 8) a) (padTo (ceilDiv n 8 * 8) b)

/-! ## Aborts and faults (R89, R167, R228) -/

/-- A tag needs no grant from a parent: this device holds the root of its tree (R226, R227). -/
def Ctx.isRoot (c : Ctx) (k : CollKind) : Bool := k != CollKind.allGather && c.opIndex (collOwner k) == 0

/-- A tag in a new epoch: its parent grants again, and what an all-gather has of the other members is dropped (R228). -/
def Ctx.newEpoch (c : Ctx) (tag epoch : Nat) : Ctx :=
  let root := match c.tagOf tag with | some (_, _, k) => c.isRoot k | none => false
  let d := match c.tagOf tag with
    | some (_, f, .allGather) => c.modFl f.seq fun x => { x with commitMap := [], itemsDone := 0 }
    | _ => c
  { d with tags := c.tags.map fun x => if x.tag = tag then { x with epoch := epoch, aborted := true, granted := root || c.grants.contains (tag, epoch) } else x
           grants := c.grants.filter fun x => x.1 != tag || decide (epoch < x.2) }

/-- Drop a tag's partials and take a new epoch; a Warning record (R228). -/
def State.abortTag (s : State) (n tag epoch port : Nat) : State :=
  let t := s.setNet { s.net with nodes := s.net.nodes.filter fun x => !(x.ctx == n && x.tag == tag) }
  (t.modCtx n (·.newEpoch tag epoch)).log 4 0x3404 1 0 0x32 0 (leBytes 2 tag ++ leBytes 2 epoch ++ leBytes 1 port)

/-- A collective's engine takes a fault: the collective is aborted at every participant, and the context suspended (R89, R167, R168). -/
def State.collFault (s : State) (n tag : Nat) (g : Tag) (f : Flight) (e : Fail) (write : Bool) : State :=
  let t := (s.abortTag n tag (g.epoch + 1) 0xFF).emit (.abortTag n tag (g.epoch + 1))
  if e.data then t.suspend n 0
  else t.transFault n { va := BitVec.ofNat 64 e.va, ftype := e.ftype, srcType := 0x32, srcInst := 0, write := write, level := e.level, queue := f.queue, chan := 0 }

/-! ## The send ring (R89) -/

/-- The bucket of the ring that a tag has, or the first free one; none where the ring is full. -/
def Ctx.ringSlot (c : Ctx) (tag : Nat) : Option Nat :=
  let k := match c.slicePlan with | some p => (if p.ringBuckets = 0 then 2 else p.ringBuckets) | none => 2
  match c.sendRing.find? fun e => e.tag == tag with
  | some e => some e.slot
  | none => (List.range k).find? fun i => !c.sendRing.any fun e => e.slot == i

/-- The virtual address of byte off of a bucket. -/
def Ctx.ringVa (c : Ctx) (slot off : Nat) : Nat := match c.slicePlan with
  | some p => p.ringVa + slot * p.bucketBytes + off
  | none => slot * 2 ^ 32 + off

/-- The bytes of a run in the ring, or the fault of reading them. -/
def State.ringRead (s : State) (n : Nat) (e : RingTile) : Sum Fail (List Byte) :=
  s.readRun n none (fun i => (s.ctx n).ringVa e.slot e.off + i) 0 e.len

/-! ## Results -/

def wordsOf (l : List Byte) : Tbl Word := (List.range 64).map fun i => (i, BitVec.ofNat 32 (leNat ((l.drop (4 * i)).take 4)))

/-- A flag of a reduction's result: 1 when the result is not zero (R131, R253). -/
def State.resultFlag (s : State) (n : Nat) (k : CollKind) (data : List Byte) : State :=
  match k with
  | .shortReduce _ (some f) _ => s.writeFlag n f (leNat data != 0)
  | .lossVote => s.writeFlag n 241 (leNat data != 0)
  | _ => s

/-- The result of a tag goes to a mailbox of a squad of this device, from the device itself (R129, R131). -/
def State.depositResult (s : State) (n tag sq mb : Nat) (data : List Byte) : State :=
  let q := (s.ctx n).takeSeq (routeKey 127 s.devId sq mb)
  (shortMsgs s.devId 127 sq n mb q.1 tag data).foldl (fun (u : State) m => u.deliverShort m) (s.setCtx n q.2)

/-- A result reaches this member: flag, mailboxes of the unfenced squads; the collective is done (R131, R253). -/
def State.memberResult (s : State) (n tag seq : Nat) (k : CollKind) (data : List Byte) : State :=
  let t := s.resultFlag n k data
  let t := match k with
    | .shortReduce _ _ mb => s.unfenced.foldl (fun (t : State) sq => t.depositResult n tag sq mb data) t
    | _ => t
  t.modFlight n seq fun f => { f with doneLatched := true }

/-- The packets of a collective's values: its votes travel on VC0, other data on VC1 (R216, R253). -/
def collType : CollKind → PktType
  | .lossVote => .redCtrl
  | _ => .redData

/-- The node of a level, empty where nothing waits in it. -/
def Net.nodeAt (t : Net) (n tag l : Nat) (op : RedOp) : Node :=
  (t.nodes.find? fun x => x.ctx == n && x.tag == tag && x.node == l).getD { ctx := n, tag := tag, node := l, op := op, left := [], right := [], out := [] }
def Net.setNode (t : Net) (x : Node) : Net :=
  { t with nodes := t.nodes.filter (fun y => !(y.ctx == x.ctx && y.tag == x.tag && y.node == x.node)) ++ [x] }

/-- The place of the root's result until its packets are delivered, beyond every level (R223). -/
def resultNode : Nat := 64

/-- The root's value (R226): a reduced slice is written to the owner's destination; another kind's result goes to every other member, and is
this one's once it has been delivered (R223). -/
def State.rootResult (s : State) (n tag : Nat) (g : Tag) (f : Flight) (k : CollKind) (off : Nat) (data : List Byte) : State :=
  match k with
  | .reduceScatter _ _ =>
    let t := match f.desc.t.getD 2 none with
      | some o => (match tfind f.recs o.handle with
        | some r =>
          (match s.streamFail n r true off data.length with
           | some e => s.collFault n tag g f e true
           | none => ((s.streamWrite n r off data).modFlight n f.seq (·.noteNf 2 ((s.streamWrite n r off data).streamNonFinite n r off data.length))).modFlight
               n f.seq fun x => { x with commitMap := if x.commitMap.contains off then x.commitMap else x.commitMap ++ [off] })
        | none => s)
      | none => s
    t
  | _ =>
    let t := s.toMembers n tag g.epoch off (collType k) data
    t.setNet (t.net.setNode { t.net.nodeAt n tag resultNode (collOp k) with out := [(off, data)] })

/-- A value above this device's nodes: to the parent's device once the parent has granted the tag (R227). -/
def State.sendUp (s : State) (n tag : Nat) (g : Tag) (k : CollKind) (a off : Nat) (data : List Byte) : State :=
  let c := s.ctx n
  let dst := c.idOf (c.rankOfIndex (collOwner k) (a - lowBit 32 a))
  if g.granted then s.toNet (s.mkPacket n dst 0x7F tag g.epoch off (collType k) data)
  else
    let old := s.net.nodes.find? fun x => x.ctx == n && x.tag == tag && x.node == 0
    let nd : Node := match old with
      | some x => { x with out := x.out ++ [(off, data)] }
      | none => { ctx := n, tag := tag, node := 0, op := collOp k, left := [], right := [], out := [(off, data)] }
    s.setNet { s.net with nodes := s.net.nodes.filter (fun x => !(x.ctx == n && x.tag == tag && x.node == 0)) ++ [nd] }

/-- A child's packet at the node of level l: packets of equal offset combine, and the value goes on as the left child of the next
level; a child that does not exist is passed over. Each child's list is its own two slots, and behind them the packets that it has still to
send, so that storage changes only time (R42, R202, R203). -/
def State.feedNode (s : State) (n tag : Nat) : Nat → Nat → Bool → Nat → List Byte → State
  | 0, _, _, _, _ => s
  | fuel + 1, l, right, off, data =>
    match (s.ctx n).tagOf tag with
    | none => s
    | some (g, f, k) =>
      let r := (s.ctx n).members
      let a := (s.ctx n).opIndex (collOwner k)
      if g.aborted then s
      else if topLevel a r < l then (if a = 0 then s.rootResult n tag g f k off data else s.sendUp n tag g k a off data)
      else if !right && decide (r ≤ a + 2 ^ (l - 1)) then s.feedNode n tag fuel (l + 1) false off data
      else
        let nd := s.net.nodeAt n tag l (collOp k)
        match ((if right then nd.left else nd.right).find? fun e => e.1 == off) with
        | none => s.setNet (s.net.setNode (if right then { nd with right := nd.right ++ [(off, data)] } else { nd with left := nd.left ++ [(off, data)] }))
        | some e =>
          let v := if right then combineBytes nd.op e.2 data else combineBytes nd.op data e.2
          let nd' := if right then { nd with left := nd.left.filter fun x => x.1 != off } else { nd with right := nd.right.filter fun x => x.1 != off }
          (s.setNet (s.net.setNode nd')).feedNode n tag fuel (l + 1) false off v

/-- The next 4 KiB packet of data at an offset ends at a multiple of 4,096 (R203). -/
def packetsOf : Nat → Nat → List Byte → List (Nat × List Byte)
  | 0, _, _ => []
  | fuel + 1, off, l => if l.isEmpty then [] else (off, l.take (4096 - off % 4096)) :: packetsOf fuel (off + (4096 - off % 4096)) (l.drop (4096 - off % 4096))

/-- This device's own contribution enters the tree in packets of at most 4 KiB, in offset order. -/
def State.contribute (s : State) (n tag off : Nat) (data : List Byte) : State :=
  (packetsOf data.length off data).foldl (fun (t : State) e => t.feedNode n tag 40 1 false e.1 e.2) s

/-- The tiles that the send ring holds for a tag enter its tree (R88, R89). -/
def State.fromRing (s : State) (n tag : Nat) : State :=
  ((s.ctx n).sendRing.filter fun e => e.tag == tag).foldl (fun t e => match t.ringRead n e with
    | .inr l => t.contribute n tag e.off l
    | .inl _ => t) s

/-! ## Starting a collective (R88, R131, R227, R253, R270) -/

def flattenWords (t : Tbl Word) : List Byte := (List.range 64).flatMap fun i => leBytes 4 (tget 0 t i).toNat

/-- One level of the pairwise tree. -/
def pairLevel {α : Type} (f : α → α → α) : List α → List α
  | a :: b :: r => f a b :: pairLevel f r
  | r => r

/-- The pairwise tree over values in index order (R42), with an operation and the value of no operand. -/
def pairwise {α : Type} (f : α → α → α) (z : α) : Nat → List α → α
  | 0, l => l.headD z
  | n + 1, l => match l with
    | [] => z
    | [x] => x
    | _ => pairwise f z n (pairLevel f l)

/-- The device's sums of pass one by group: block partials in the tree over the block index (R131, R270). -/
def Upd.deviceNorm (u : Upd) (w : Bool) : Tbl Word :=
  let ps := u.parts.mergeSort fun a b => decide (a.1 ≤ b.1)
  (List.range 64).map fun g => (g, pairwise fAdd 0 40 (ps.map fun p => if p.2.1 = g then (if w then p.2.2.2 else p.2.2.1) else 0))

/-- The value that this device contributes to a SHORT_REDUCE (R131): T0's rows along dimension 0, one of up to 256 B from each 128-row block of
the work, combined in the tree over the block index (DESIGN CHOICE, log 33), or the norms that pass one left for its tag. -/
def State.shortValue (s : State) (n tag : Nat) (f : Flight) (op : RedOp) : List Byte :=
  match f.desc.t.getD 0 none with
  | some o => (match tfind f.recs o.handle with
    | some t =>
      let all := (s.streamRead n t 0 (TensorRec.streamLen t)).getD []
      let row := max 1 (TensorRec.streamLen t * t.dims.headD 1 / max 1 (t.dims.foldl (· * ·) 1))
      pairwise (combineBytes op) [] 40 ((List.range (ceilDiv all.length row)).map fun i => ((all.drop (row * i)).take row).take 256)
    | none => [])
  | none =>
    let u := (s.ctx n).upd
    if tag = u.tagG then flattenWords (u.deviceNorm false) else if tag = u.tagW then flattenWords (u.deviceNorm true) else []

/-- The source and the destination of an all-gather. -/
def Flight.gatherEnds (f : Flight) : Option (TensorRec × TensorRec) :=
  match (f.desc.t.getD 0 none).bind (fun a => tfind f.recs a.handle), (f.desc.t.getD 2 none).bind fun b => tfind f.recs b.handle with
  | some a, some b => some (a, b)
  | _, _ => none

/-- This device's part of an all-gather goes into its own destination. -/
def State.gatherOwn (s : State) (n : Nat) (f : Flight) : State :=
  match f.gatherEnds with
  | none => s
  | some (ta, tb) =>
    let len := TensorRec.streamLen ta
    let base := (s.ctx n).rank * len
    let data := (s.streamRead n ta 0 len).getD []
    (s.streamWrite n tb base data).modFlight n f.seq fun x => { x with commitMap := x.commitMap ++ [base], itemsDone := x.itemsDone + data.length }

/-- Send this device's part of an all-gather in packets of at most 4 KiB. -/
def State.gatherOut (s : State) (n tag epoch : Nat) (f : Flight) : State :=
  match f.gatherEnds with
  | none => s
  | some (ta, _) =>
    let len := TensorRec.streamLen ta
    let base := (s.ctx n).rank * len
    let data := (s.streamRead n ta 0 len).getD []
    (List.range (ceilDiv len 4096)).foldl (fun t i => t.toMembers n tag epoch (base + 4096 * i) .redData ((data.drop (4096 * i)).take 4096)) s

/-- The epoch of a grant that came before its tag was taken. -/
def Ctx.earlyGrant (c : Ctx) (tag : Nat) : Option Nat := (c.grants.find? fun g => g.1 == tag).map (·.2)
/-- The epoch of an ABORT that came before its tag was taken, else 0 (R228; DESIGN CHOICE, log 33). -/
def Ctx.earlyAbort (c : Ctx) (tag : Nat) : Nat := ((c.aborts.find? fun g => g.1 == tag).map (·.2)).getD 0

/-- The fault that the COLLECTIVE meets in what it reads, or for an all-gather in its own part of the destination (R167). -/
def State.enterFail (s : State) (n : Nat) (f : Flight) (k : CollKind) (tag : Nat) : Option (Fail × Bool) :=
  let src := (f.desc.t.getD 0 none).bind fun a => tfind f.recs a.handle
  let reads := (src.bind fun t => s.streamFail n t false 0 (TensorRec.streamLen t)).map fun e => (e, false)
  match k with
  | .reduceScatter _ _ => ((s.ctx n).sendRing.filter fun e => e.tag == tag).findSome? fun e => match s.ringRead n e with
    | .inl x => some (x, false)
    | .inr _ => none
  | .allGather => reads.orElse fun _ => f.gatherEnds.bind fun p =>
      (s.streamFail n p.2 true ((s.ctx n).rank * TensorRec.streamLen p.1) (TensorRec.streamLen p.1)).map fun e => (e, true)
  | .shortReduce _ _ _ => reads
  | .lossVote => none

/-- The COLLECTIVE enters its tree, or sends its part once it may (R227); a fault aborts it (R167). -/
def State.enterColl (s : State) (n : Nat) (f : Flight) (k : CollKind) (g : Tag) : State :=
  match s.enterFail n f k g.tag with
  | some e => s.collFault n g.tag g f e.1 e.2
  | none =>
  match k with
  | .reduceScatter _ _ => s.fromRing n g.tag
  | .allGather => if g.granted then (s.gatherOwn n f).gatherOut n g.tag g.epoch f else s.gatherOwn n f
  | .shortReduce op _ _ => s.contribute n g.tag 0 (s.shortValue n g.tag f op)
  | .lossVote => s.contribute n g.tag 0 [BitVec.ofNat 8 (b2n ((s.ctx n).flag 240))]

/-- The COLLECTIVE takes its tag, in the epoch of a grant or an ABORT that is there already, and nothing waits in its nodes; it grants its
children, and its contribution enters (R227, R228; DESIGN CHOICE, log 33, for the grants of an all-gather). -/
def State.startColl (s : State) (n : Nat) (f : Flight) (k : CollKind) (tag : Nat) : State :=
  let e := (s.ctx n).earlyGrant tag
  let a := max ((s.ctx n).earlyAbort tag) (e.getD 0)
  let g : Tag := { tag := tag, epoch := a, seq := f.seq, granted := (s.ctx n).isRoot k || e == some a, aborted := false }
  let t := s.modCtx n fun c => { c with tags := c.tags ++ [g], grants := c.grants.filter (fun x => x.1 != tag), aborts := c.aborts.filter fun x => x.1 != tag }
  let t := t.setNet { t.net with nodes := t.net.nodes.filter fun x => !(x.ctx == n && x.tag == tag) }
  (t.emit (.grant n tag g.epoch)).enterColl n f k g

/-- The offsets of the packets of a run (R203). -/
def packetOffs : Nat → Nat → Nat → List Nat
  | 0, _, _ => []
  | fuel + 1, off, len => if len = 0 then [] else off :: packetOffs fuel (off + (4096 - off % 4096)) (len - (4096 - off % 4096))

/-- Every tile of a reduce-scatter is in the owner's slice, and none is still to come. -/
def State.scatterDone (s : State) (n tag : Nat) (f : Flight) : Bool :=
  let c := s.ctx n
  let own := c.sendRing.filter fun e => e.tag == tag
  !own.isEmpty && own.all (fun e => (packetOffs e.len e.off e.len).all f.commitMap.contains) && !(c.flight.any fun x => x.desc.destTag == some tag)

/-- A packet of this device for a tag has not left it, or is not acknowledged by the far end of its link (R223). -/
def State.undelivered (s : State) (n tag : Nat) : Bool :=
  let own (p : Packet) : Bool := (p.ptype == .redData || p.ptype == .redCtrl) && p.src == s.devId && p.ctx == n && p.tag == tag
  (s.net.waiting.map (·.2) ++ s.net.inq.map (·.pkt) ++ s.net.transit.map (·.pkt)).any own ||
    s.links.any fun e => (e.2.txBuf.map (·.2) ++ e.2.txQ.flatMap (·.2)).any fun x => match x.last with | some p => own p | none => false

/-- The root's result, once it has one. -/
def Net.rootHas (t : Net) (n tag : Nat) : Option (List Byte) :=
  (t.nodes.find? fun x => x.ctx == n && x.tag == tag && x.node == resultNode).bind fun x => x.out.head?.map (·.2)

/-- The part of this device in a collective is complete, and every packet of it is delivered (R223, R227). -/
def State.collDone (s : State) (n : Nat) (f : Flight) : Bool :=
  match Descriptor.coll f.desc with
  | none => false
  | some (k, tag) =>
    !s.undelivered n tag &&
    match k with
    | .reduceScatter o _ => if (s.ctx n).opIndex o = 0 then s.scatterDone n tag f else f.doneLatched
    | .allGather => (match f.desc.t.getD 2 none with
      | some b => (match tfind f.recs b.handle with
        | some t => decide (TensorRec.streamLen t ≤ f.itemsDone)
        | none => false)
      | none => false)
    | _ => f.doneLatched || (s.net.rootHas n tag).isSome

/-- A collective's tag is returned: its nodes and its tiles in the send ring go (R89, R227); the root has its result, and the owner of a
reduce-scatter tells the members (R223). -/
def State.endColl (s : State) (n : Nat) (f : Flight) : State :=
  match Descriptor.coll f.desc with
  | none => s
  | some (k, tag) =>
    let e := match (s.ctx n).tags.find? fun g => g.tag == tag with
      | some g => g.epoch
      | none => 0
    let t := match k with
      | .reduceScatter o _ => if (s.ctx n).opIndex o = 0 then s.toMembers n tag e 0 .redCtrl [] else s
      | _ => (match s.net.rootHas n tag with
        | some l => s.memberResult n tag f.seq k l
        | none => s)
    let t := t.setNet { t.net with nodes := t.net.nodes.filter fun x => !(x.ctx == n && x.tag == tag) }
    t.modCtx n fun c => { c with
      tags := c.tags.filter fun g => g.tag != tag
      sendRing := c.sendRing.filter fun e => e.tag != tag
      exchTags := (match k with | .reduceScatter _ _ => c.exchTags ++ [(tag, s.clk.ltb)] | _ => c.exchTags) }

/-! ## Packets of a collective that reach this device (R223, R226, R227) -/

/-- A packet of a reduction from a member (R223, R226, R227): the completion of a reduce-scatter, a part of an all-gather, a result from the root,
or a right child's value by its sender's operand index. -/
def State.reductionIn (s : State) (p : Packet) : State :=
  let n := p.ctx
  let c := s.ctx n
  match c.tagOf p.tag with
  | none => s
  | some (g, f, k) =>
    if decide (p.epoch < g.epoch) || g.aborted then s
    else match k with
      | .allGather => (match f.desc.t.getD 2 none with
        | some b => (match tfind f.recs b.handle with
          | some t => if f.commitMap.contains p.off then s
              else match s.streamFail n t true p.off p.body.length with
              | some e => s.collFault n p.tag g f e true
              | none => (s.streamWrite n t p.off p.body).modFlight n f.seq fun x =>
                { x with commitMap := x.commitMap ++ [p.off], itemsDone := x.itemsDone + p.body.length }
          | none => s)
        | none => s)
      | k =>
        let a := c.opIndex (collOwner k)
        let r := (match c.slicePlan with | some q => q.ids.idxOf p.src | none => 0)
        let b := if c.members = 0 then 0 else (r + c.members - collOwner k % c.members) % c.members
        if (k matches .reduceScatter _ _) && p.ptype == .redCtrl then s.modFlight n f.seq fun x => { x with doneLatched := true }
        else if b < a then s.memberResult n p.tag f.seq k p.body
        else s.feedNode n p.tag 40 (Nat.log2 (b - a) + 1) true p.off p.body

/-! ## Commands -/

/-- COMBINE_NODE: a child's packet at a node of this device (R202, R203, R226). -/
def execCombineNode (n tag node : Nat) (right : Bool) (off : Nat) (data : List Byte) (s : State) : Res :=
  .next (s.feedNode n tag 40 node right off data)

/-- A grant that no tag of its epoch waits for is kept: its COLLECTIVE has not taken the tag, or the ABORT of its epoch is still to come. -/
def Ctx.keepGrant (c : Ctx) (tag epoch : Nat) : Ctx := { c with grants := c.grants.filter (fun x => x.1 != tag) ++ [(tag, epoch)] }

/-- TAG_GRANT: the parent has granted the tag in an epoch; the values held for it leave (R227, R228). -/
def execTagGrant (n tag epoch : Nat) (s : State) : Res :=
  match (s.ctx n).tagOf tag with
  | none => guard ((s.ctx n).started && !(s.ctx n).lost) s (s.modCtx n (·.keepGrant tag epoch))
  | some (g, f, k) =>
    if epoch < g.epoch then .next s
    else if g.epoch < epoch then .next (s.modCtx n (·.keepGrant tag epoch))
    else
      let a := (s.ctx n).opIndex (collOwner k)
      let t := s.modCtx n fun c => { c with tags := c.tags.map fun x => if x.tag = tag then { x with granted := true } else x }
      if k = .allGather then .next (if g.aborted || g.granted then t else t.gatherOut n tag g.epoch f)
      else
        let held := ((t.net.nodes.find? fun x => x.ctx == n && x.tag == tag && x.node == 0).map (·.out)).getD []
        let t := t.setNet { t.net with nodes := t.net.nodes.filter fun x => !(x.ctx == n && x.tag == tag && x.node == 0) }
        .next (held.foldl (fun t e => t.sendUp n tag { g with granted := true } k a e.1 e.2) t)

/-- An ABORT for a tag that is not taken yet is kept for it (R228). -/
def Ctx.keepAbort (c : Ctx) (tag epoch : Nat) : Ctx :=
  { c with aborts := c.aborts.filter (fun x => x.1 != tag) ++ [(tag, max epoch (c.earlyAbort tag))] }

/-- COLLECTIVE_ABORT: an ABORT of a higher epoch wins; one of the same epoch is the same abort (R228). -/
def execCollectiveAbort (n tag epoch : Nat) (s : State) : Res :=
  match (s.ctx n).tags.find? fun g => g.tag == tag with
  | none => guard ((s.ctx n).started && !(s.ctx n).lost) s (s.modCtx n (·.keepAbort tag epoch))
  | some g => guard (decide (g.epoch < epoch)) s (s.abortTag n tag epoch 0xFF)

/-- COLLECTIVE_RESTART: the participant grants again and starts from its send ring or its inputs (R89, R228). -/
def execCollectiveRestart (n tag : Nat) (s : State) : Res :=
  match (s.ctx n).tagOf tag with
  | none => .next s
  | some (g, f, k) =>
    if !g.aborted || !s.working n then .next s
    else
      let t := s.modCtx n fun c => { c with tags := c.tags.map fun x => if x.tag = tag then { x with aborted := false } else x }
      .next ((t.emit (.restart n tag g.epoch)).enterColl n f k { g with aborted := false })

end Sys2Proof.Machine
end

