-- ==== Sys2Proof/Machine/TileCheck.lean ====
section
/-! DEFINITION. The tile checksum's verdict, the commit of a tile, and the ladder of a failed one (R23 to R25, R45, R88 to R90,
R290 to R293, R298, R300, R387). -/

namespace Sys2Proof.Machine

/-! ## The check (R24, R25, R387) -/

/-- Drained values as they enter a sum: an FP32E value as hi and then lo. -/
def sumTerms (f : AccFmt) (w : W64) : List Num :=
  match f with
  | .fp32e => [decode32 (BitVec.ofNat 32 (w.toNat / 2 ^ 32)), decode32 (w.truncate 32)]
  | g => [cellNum g w]

/-- 2^-11 or 2^-30 of R24. -/
def tolExp (f : AccFmt) : Int := if f = .fp32e then -30 else -11

/-- A sum y of terms passes against checksum s with magnitude m (R24, R25). Finite values against a checksum that is not finite, or
whose sum is not, fail: the condition of R24 does not hold of an infinite difference (DESIGN CHOICE, log 52). -/
def passes (f : AccFmt) (terms : List Num) (c : Chk) : Bool :=
  if terms.any fun x => !x.isFin then !c.s.isFin
  else
    let y := extSum terms
    if !c.s.isFin || !y.isFin then false
    else ((y.dy.sub c.s.dy).abs).le (c.m.dy.scale (tolExp f))

def sumInt (l : List Word) : Word := l.foldl (· + ·) 0

/-- Failing rows and columns of one slot: 0 to 127, and 128 for a corner comparison, which takes the rule of R25 for values that are not
finite with the corner cell as its checksum (R24, R25, R300; DESIGN CHOICE, log 52). -/
def checkSlot (f : AccFmt) (rows : List Nat) (vals : Tbl W64) (sl : Slot) : List Nat × List Nat :=
  let v (i j : Nat) : W64 := tget 0 vals (i * 128 + j)
  let js := List.range 128
  match f with
  | .int32 =>
    let w (i j : Nat) : Word := (v i j).truncate 32
    let rf := rows.filter fun i => sumInt (js.map (w i)) != (tget Chk.zero sl.chkCol i).i
    let cf := js.filter fun j => sumInt (rows.map fun i => w i j) != (tget Chk.zero sl.chkRow j).i
    (rf ++ (if sumInt (js.map fun j => (tget Chk.zero sl.chkRow j).i) != sl.corner.i then [128] else []),
     cf ++ (if sumInt (rows.map fun i => (tget Chk.zero sl.chkCol i).i) != sl.corner.i then [128] else []))
  | g =>
    let rf := rows.filter fun i => !passes g (js.flatMap fun j => sumTerms g (v i j)) (tget Chk.zero sl.chkCol i)
    let cf := js.filter fun j => !passes g (rows.flatMap fun i => sumTerms g (v i j)) (tget Chk.zero sl.chkRow j)
    (rf ++ (if passes g (js.map fun j => (tget Chk.zero sl.chkRow j).s) sl.corner then [] else [128]),
     cf ++ (if passes g (rows.map fun i => (tget Chk.zero sl.chkCol i).s) sl.corner then [] else [128]))

/-- Failing rows and columns of a tile, over its slots. -/
def Drain.verdict (d : Drain) (f : AccFmt) (sh : Shape) : List Nat × List Nat :=
  (d.item.slots.zip (subBlocks sh)).foldl (fun acc p =>
    let r := checkSlot f (rowsOfSub sh d.item p.2.1) (tget [] d.vals p.1) (tget Slot.zero d.chks p.1)
    ((acc.1 ++ r.1).dedup, (acc.2 ++ r.2).dedup)) ([], [])

/-- The 64-bit XOR fold of the drained values (R293). -/
def Drain.fold (d : Drain) : W64 := d.vals.foldl (fun x t => t.2.foldl (fun y e => y ^^^ e.2) x) 0

/-! ## Commit (R45, R48 to R51, R88 to R90, R290) -/

/-- A tile's values by sub-block: key n x 16384 + row x 128 + column. -/
def Drain.flat (d : Drain) : Tbl W64 :=
  ((List.range d.item.slots.length).zip d.item.slots).flatMap fun p => (tget [] d.vals p.2).map fun e => (p.1 * 16384 + e.1, e.2)

/-- One pass of the pairwise tree. -/
def pairUp (f : AccFmt) : List (Tbl W64) → List (Tbl W64)
  | a :: b :: r => addCells f a b :: pairUp f r
  | l => l

/-- The pairwise tree over partials in index order (R42, R45). -/
def treeSum (f : AccFmt) : Nat → List (Tbl W64) → Tbl W64
  | 0, l => l.headD []
  | n + 1, l => match l with
    | [] => []
    | [x] => x
    | _ => treeSum f n (pairUp f l)

/-- The elements of a tile that are written, with the slot's bits: rows below the count, columns of the output, sub-blocks that the
mask leaves, and of a 2:4 output the kept rows (R60, R65, R90). -/
def State.tileCells (s : State) (it : Item) (sh : Shape) (f : Feed) (recs : Tbl TensorRec) (out : TensorRec) (vals : Tbl W64) : List (List Nat × W64) :=
  ((List.range (subBlocks sh).length).zip (subBlocks sh)).flatMap fun p =>
    if s.maskedTile f it p.2 then []
    else (rowsOfSub sh it p.2.1).flatMap fun i => (List.range 128).filterMap fun j =>
      let r := it.row0 + p.2.1 * 128 + i
      let c := it.col0 + p.2.2 * 128 + j
      if TensorRec.dim out 0 ≤ c then none
      else (s.keptRow it.ctx recs out r c).map fun r' => ([c, r', 0], tget 0 vals (p.1 * 16384 + i * 128 + j))

/-- The same with the values that the bits stand for. -/
def State.tileOut (s : State) (it : Item) (sh : Shape) (acc : AccFmt) (f : Feed) (recs : Tbl TensorRec) (out : TensorRec) (vals : Tbl W64) : List (List Nat × Num) :=
  (s.tileCells it sh f recs out vals).map fun p => (p.1, cellNum acc p.2)

/-- Note what a write to the output at position pos reported (R48, R53). -/
def Wrote.note (w : Wrote) (n seq pos : Nat) (rep : Bool) : State :=
  let t := w.st.modCtx n (·.modFl seq fun x =>
    { x.noteNf pos w.nonf with overflow := x.overflow || (w.ovf && rep) })
  if w.ovf && rep then t.writeFlag n 240 true else t

/-- The values of a flight that wait for the rest of their MX blocks at a position. -/
def Flight.pend (f : Flight) (pos : Nat) : List (List Nat × Num) := (f.mxPend.filter fun p => p.1 == pos).map (·.2)
def Flight.setPend (f : Flight) (pos : Nat) (l : List (List Nat × Num)) : Flight :=
  { f with mxPend := f.mxPend.filter (fun p => p.1 != pos) ++ l.map fun p => (pos, p) }

/-- Write values of an engine to the output at position pos of a flight: the casts of its format, and for an MX tensor the blocks that
are complete (R48 to R51). -/
def State.putFlight (s : State) (n seq pos : Nat) (recs : Tbl TensorRec) (t : TensorRec) (stoch rep every : Bool) (step : Nat)
    (xs : List (List Nat × Num)) : State :=
  if Fmt.isMx t.fmt then
    let old := match (s.ctx n).fl seq with | some f => f.pend pos | none => []
    let ys := mxMerge old xs
    let r := State.putMx n recs t stoch step every ys.length { st := s, ovf := false, nonf := false } [] ys
    (r.1.note n seq pos rep).modCtx n (·.modFl seq fun f => f.setPend pos r.2)
  else (s.putVals n recs t stoch rep step xs).note n seq pos rep

/-- Write codes of the output's own format as they are (R34). -/
def State.putCodes (s : State) (n seq pos : Nat) (t : TensorRec) (xs : List (List Nat × Nat)) : State :=
  Wrote.note { st := xs.foldl (fun u p => u.putCode n t p.1 p.2) s, ovf := false, nonf := xs.any fun p => codeNonFinite t.fmt p.2 } n seq pos false

/-- Append an element's bytes to the run that it continues, else begin a run: offset and bytes. -/
def addRun (l : List (Nat × List Byte)) (e : Nat × List Byte) : List (Nat × List Byte) :=
  match l with
  | (o, b) :: r => if o + b.length = e.1 then (o, b ++ e.2) :: r else e :: (o, b) :: r
  | [] => [e]

/-- A tile's elements as runs of the output tensor's row-major bytes, in the exchange format. -/
def tileRuns (fmt : Fmt) (t : TensorRec) (xs : List (List Nat × Nat)) : List (Nat × List Byte) :=
  (xs.foldl (fun l p => addRun l (linear t.dims p.1 * (Fmt.bits fmt / 8), leBytes (Fmt.bits fmt / 8) p.2)) []).reverse

/-- A tile's elements in the exchange format. -/
def sentCodes (fmt : Fmt) (xs : List (List Nat × Num)) (step : Nat) (stoch : Bool) (t : TensorRec) : List (List Nat × Nat × Bool) :=
  xs.map fun p => (p.1, castElem fmt (srOf stoch t step p.1) false false p.2)

/-- The runs of the ring that a tile's elements take: virtual address and length. -/
def Ctx.ringSpans (c : Ctx) (tag : Nat) (fmt : Fmt) (t : TensorRec) (idxs : List (List Nat)) : List (Nat × Nat) :=
  (tileRuns fmt t (idxs.map fun i => (i, 0))).map fun r => (c.ringVa ((c.ringSlot tag).getD 0) r.1, r.2.length)

/-- Send a tile into the reduction of its tag: it is kept in the send ring, in stacked memory, until the tag completes (R88, R89). -/
def State.sendTile (s : State) (n tag : Nat) (fmt : Fmt) (xs : List (List Nat × Num)) (step : Nat) (stoch : Bool) (t : TensorRec) : Wrote :=
  let cs := sentCodes fmt xs step stoch t
  let runs := tileRuns fmt t (cs.map fun c => (c.1, c.2.1))
  let slot := ((s.ctx n).ringSlot tag).getD 0
  let put (u : State) (r : Nat × List Byte) : State :=
    let va := (s.ctx n).ringVa slot r.1
    (u.rewrite (u.places n none (va + ·) r.2.length)).vwrite n none va r.2
  let s1 := (runs.foldl put s).modCtx n fun c => { c with sendRing := c.sendRing ++ runs.map fun r => ⟨tag, slot, r.1, r.2.length⟩ }
  { st := runs.foldl (fun t r => t.contribute n tag r.1 r.2) s1, ovf := cs.any (·.2.2), nonf := cs.any fun c => codeNonFinite fmt c.2.1 }

/-- Write out a tile's final values, to the output of the operation's last descriptor (R106). -/
def State.outputTile (s : State) (it : Item) (last : Flight) (f : Feed) (vals : Tbl W64) : State :=
  let d := last.desc
  match last.operand 2 with
  | none => s
  | some (_, out) =>
    let xs := s.tileOut it d.shape d.accFmt f last.recs out vals
    let step := (s.ctx it.ctx).stepNow
    match d.destTag with
    | some tag => (s.sendTile it.ctx tag out.fmt xs step d.stochastic out).note it.ctx it.seq 2 true
    | none =>
      if d.accFmt = .fp32e ∧ out.fmt = .fp32e then
        s.putCodes it.ctx it.seq 2 out ((s.tileCells it d.shape f last.recs out vals).map fun p => (p.1, p.2.toNat))
      else s.putFlight it.ctx it.seq 2 last.recs out d.stochastic d.ovfReport false step xs

/-- Parts of a tile in index order, when all have committed (R45). -/
def MatOp.allParts (m : MatOp) (tile : Nat) : Option (List (Tbl W64)) :=
  (List.range m.parts).mapM fun p => (m.partVals.find? fun e => e.1 == tile && e.2.1 == p).map (·.2.2)

/-- An item is committed in the journal (R289, R290). -/
def Flight.commitItem (f : Flight) (i : Nat) : Flight :=
  if f.commitMap.contains i then f else { f with commitMap := f.commitMap ++ [i], itemsDone := f.itemsDone + 1 }

/-- Commit a tile: a split-K part waits for its fellows (R45, R290). -/
def State.commitTile (s : State) (sq : Nat) (m : MatOp) (d : Descriptor) (dr : Drain) : State :=
  let it := dr.item
  let n := it.ctx
  match (segAt m it.kLo).bind fun g => s.feed it g, (s.ctx n).fl m.seq with
  | some f, some last =>
    let tile := it.index / m.parts
    let m' := { m with committed := m.committed ++ [it.index], ladder := m.ladder.filter fun l => l.index != it.index,
                       partVals := if m.parts = 1 then m.partVals else m.partVals ++ [(tile, it.part, dr.flat)] }
    let t := (s.setMat n m').modCtx n (·.modFl m.seq fun x => x.commitItem it.index)
    let t := if m.parts = 1 then t.outputTile it last f dr.flat
      else match m'.allParts tile with
        | none => t
        | some ps => t.outputTile it last f (treeSum d.accFmt m.parts ps)
    t.afterCommit n m.seq it.index sq
  | _, _ => s

/-! ## The ladder (R292, R293, R298, R300) -/

/-- A transient of a squad counts; TRANSIENT_LIMIT within an hour fences it (R298). -/
def State.transientLimit (s : State) (sq : Nat) : Nat := let v := s.rg (pgSQ sq + 0x100) % 256; if v = 0 then 1 else v
def State.transient (s : State) (sq : Nat) : State :=
  let now := s.dev.ponLive
  let l := (sq, now) :: s.mram.transient.filter fun e => decide (now < e.2 + 3600)
  let t := s.setMram { s.mram with transient := l }
  if s.transientLimit sq ≤ (l.filter fun e => e.1 == sq).length then t.fence sq 7 else t

/-- SQ_SUSPECT_CNT (R293, R392). -/
def State.suspect (s : State) (sq : Nat) : State :=
  s.setMram { s.mram with suspect := tset 0 s.mram.suspect sq (capTo 65535 (tget 0 s.mram.suspect sq + 1)) }

/-- The record of a tile that failed and was replayed (R393, 0x1001). -/
def State.logReplay (s : State) (sq0 : Nat) (sq1 : Option Nat) (idx seq : Nat) : State :=
  s.log (sq0 / 16) 0x1001 0 2 0x02 sq0 (leBytes 2 sq0 ++ leBytes 2 (sq1.getD 0xFFFF) ++ leBytes 4 idx ++ leBytes 4 seq ++ leBytes 1 (b2n sq1.isSome))

/-- The physical line at fault after two failed runs on a squad: row or column (R300). -/
def localise (a : Arr) (l : Ladder) : Option (Bool × Nat) :=
  match l.rows, l.cols with
  | [r1, r2], [c1, c2] =>
    if r1 = r2 ∧ r1.length = 1 then some (false, a.rows.getD (r1.headD 0) (r1.headD 0))
    else if c1 = c2 ∧ c1.length = 1 ∧ 1 < r1.length ∧ 1 < r2.length then some (true, a.cols.getD (c1.headD 0) (c1.headD 0))
    else none
  | _, _ => none

/-- A localised fault enters the field repair map: ARR_STATUS.REPAIR_PEND and record 0x1003 (R300). -/
def State.fieldRepair (s : State) (sq : Nat) (p : Bool × Nat) : State :=
  let e := tget ([], []) s.mram.field sq
  let e := if p.1 then (e.1, (e.2 ++ [p.2]).dedup) else ((e.1 ++ [p.2]).dedup, e.2)
  let t := s.setMram { s.mram with field := tins sq e s.mram.field, benched := (s.mram.benched ++ [sq]).dedup }
  let t := t.modSquad sq fun q => { q with arr := { q.arr with repairPend := true } }
  t.log (sq / 16) 0x1003 0 0 0x02 sq (leBytes 2 sq ++ leBytes 1 (if p.1 then 2 else 0) ++ leBytes 1 p.2)

/-- Fence the squad of a checksum fault and bench the line (R293, R300). -/
def State.fenceChecksum (s : State) (l : Ladder) : State :=
  let t := s.fence l.home 1
  match localise (s.squad l.home).arr l with
  | some p => t.fieldRepair l.home p
  | none => t

def MatOp.setLadder (m : MatOp) (l : Ladder) : MatOp := { m with ladder := m.ladder.filter (fun x => x.index != l.index) ++ [l] }

/-- A passing tile: by what the ladder holds of it (R293). -/
def State.tilePass (s : State) (sq : Nat) (m : MatOp) (d : Descriptor) (dr : Drain) : State :=
  let seq := m.seq
  match m.ladder.find? fun l => l.index == dr.item.index with
  | none => s.commitTile sq m d dr
  | some l =>
    let t := s.commitTile sq m d dr
    if l.home = sq then (t.logReplay sq none dr.item.index seq).transient sq
    else
      let t := t.logReplay l.home (some sq) dr.item.index seq
      if l.runs = 2 then t.fenceChecksum l else t

/-- The record of a data-dependent tile (R393, 0x1002). -/
def State.logData (s : State) (sq0 sq idx seq : Nat) (rf cf : List Nat) (det : Nat) : State :=
  s.log (sq / 16) 0x1002 0 2 0x02 sq (leBytes 2 sq0 ++ leBytes 2 sq ++ leBytes 4 idx ++ leBytes 4 seq ++ leBytes 2 rf.length ++ leBytes 2 cf.length ++
    leBytes 1 (rf.headD 0) ++ leBytes 1 (cf.headD 0) ++ leBytes 1 det)

/-- Start the ladder of a tile on a squad: it is replayed there first (R291, R293 step 1). -/
def State.ladderStart (s : State) (sq : Nat) (m : MatOp) (dr : Drain) (rf cf : List Nat) : State :=
  let n := dr.item.ctx
  let l : Ladder := { index := dr.item.index, home := sq, runs := 1, fold := 0, rows := [rf], cols := [cf], migrated := false }
  let m' := m.setLadder l
  (((s.setMat n { m' with assigned := (sq, dr.item.index) :: m'.assigned }).dropItem sq n m.seq dr.item.index).charge n m.seq)

/-- The two replays of a ladder that ends in the data-dependent verdict are not charged (R292). -/
def State.uncharge (s : State) (n seq : Nat) : State := s.modCtx n (·.modFl seq fun y => { y with replays := y.replays - 2 })

/-- A failing tile: replay, migration, classification (R293); det = the block type of a detector's fault taken in the same tile, or 0
(R307). -/
def State.tileFail (s : State) (sq : Nat) (m : MatOp) (d : Descriptor) (dr : Drain) (rf cf : List Nat) (det : Nat) : State :=
  let n := dr.item.ctx
  let idx := dr.item.index
  match m.ladder.find? fun l => l.index == idx with
  | none => s.ladderStart sq m dr rf cf
  | some l =>
    if l.home = sq then
      let l' := { l with runs := 2, fold := dr.fold, rows := l.rows ++ [rf], cols := l.cols ++ [cf], migrated := true }
      ((s.setMat n (m.setLadder l')).dropItem sq n m.seq idx).charge n m.seq
    else if l.runs = 2 then
      if l.fold = dr.fold then ((s.uncharge n m.seq).commitTile sq m d dr).logData l.home sq idx m.seq rf cf det
      else
        match (s.ctx n).fl m.seq with
        | none => s
        | some x => ((s.suspect l.home).suspect sq).loseByDevice n 2 x.queue x.qindex x.seq
    else s.ladderStart sq m dr rf cf

/-- The send ring has no bucket for a tile of this descriptor's tag: its drain waits (R89, R250). -/
def Ctx.ringFull (c : Ctx) (d : Descriptor) : Bool :=
  match d.destTag with
  | none => false
  | some tag => (c.ringSlot tag).isNone

end Sys2Proof.Machine
end

