-- ==== Sys2Proof/Machine/Update.lean ====
section
/-! DEFINITION. The update unit: scalars, program instructions, norm and apply blocks, the shard digest (R259 to R274). -/

namespace Sys2Proof.Machine

/-! ## Scalars (R268) -/

/-- BETA^t in binary64, by square-and-multiply from the most significant bit of t. -/
def powGo (b : Num) (t : Nat) : Nat → Num → Num
  | 0, p => p
  | n + 1, p =>
    let q := mulNum p64 p p
    powGo b t n (if t / 2 ^ n % 2 = 1 then mulNum p64 q b else q)

def betaPow (beta : Word) (t : Nat) : Num := powGo (decode32 beta) t (Nat.log2 t + 1) (.fin false 1 0)

def one32 : Num := .fin false 1 0
/-- A binary64 or exact number rounded to binary32. -/
def to32 (x : Num) : Word := encode32 (match x with | .fin s m e => roundNum p32 s m e | y => y)
/-- RN(1 - p). -/
def biasCorr (beta : Word) (t : Nat) : Word :=
  match betaPow beta t with
  | .fin s m e => to32 (numOfDy ((Num.fin false 1 0).dy.sub (Num.fin s m e).dy))
  | _ => qnan32

/-- t: the step being updated (R268). -/
def Ctx.stepT (c : Ctx) : Nat := c.upd.step.toNat + 1
/-- s_gn (R270). -/
def Ctx.gnorm (c : Ctx) : Word := fSqrt ((List.range 64).foldl (fun a g => fAdd a (tget 0 c.upd.normG g)) 0)
/-- s_wn of a group (R270). -/
def Ctx.wnorm (c : Ctx) (g : Nat) : Word := fSqrt (tget 0 c.upd.normW g)
/-- s_clip (R268). -/
def Ctx.clipS (c : Ctx) : Word :=
  let clip := match c.spb with | some b => b.clip | none => 0
  if (decode32 clip).isZero then 0x3F800000
  else if (maxNum (decode32 c.gnorm) (decode32 clip)) = decode32 clip then 0x3F800000 else fDiv clip c.gnorm
/-- s_inv for a loss-scale exponent. -/
def invScale (e : Nat) : Word := encode32 (.fin false 1 (-(e : Int)))

/-! ## Operands of one lane (R266) -/

/-- What one run reads beside the lane: program, context, loss-scale exponent at issue, group. -/
structure UpdEnv where
  p : UpdProgram
  c : Ctx
  exp : Nat
  group : Nat
deriving DecidableEq, Repr

def UpdEnv.src (v : UpdEnv) (l : Lane) : USrc → Word
  | .g => l.g
  | .w => l.w
  | .m1 => l.m1
  | .m2 => l.m2
  | .x n => tget 0 l.x n
  | .wOut => l.wOut.getD l.w
  | .m1Out => l.m1Out.getD l.m1
  | .m2Out => l.m2Out.getD l.m2
  | .k n => v.p.k.getD n 0
  | .sInv => invScale v.exp
  | .sGn => v.c.gnorm
  | .sClip => v.c.clipS
  | .sGscale => fMul (invScale v.exp) v.c.clipS
  | .sWn => v.c.wnorm v.group
  | .sBc1 => biasCorr v.p.beta1 v.c.stepT
  | .sBc2 => biasCorr v.p.beta2 v.c.stepT
  | .sRbc1 => fDiv 0x3F800000 (biasCorr v.p.beta1 v.c.stepT)
  | .sRbc2 => fDiv 0x3F800000 (biasCorr v.p.beta2 v.c.stepT)
  | .sLr => match v.c.spb with | some b => b.lr.getD v.group 0 | none => 0
  | .sWd => match v.c.spb with | some b => b.wd.getD v.group 0 | none => 0
  | .sB n => match v.c.spb with | some b => b.scal.getD n 0 | none => 0
  | .sT => fOfNat v.c.stepT

def Lane.put (l : Lane) (d : UDst) (v : Word) : Lane :=
  match d with
  | .x n => { l with x := tset 0 l.x n v }
  | .wOut => { l with wOut := some v }
  | .m1Out => { l with m1Out := some v }
  | .m2Out => { l with m2Out := some v }

/-! ## Blocks of the shard (R269) -/

/-- A context's record of a handle: the copy taken at admission, else the table's (R96). -/
def Ctx.recOf (c : Ctx) (f : Flight) (h : Nat) : Option TensorRec := (tfind f.recs h).orElse fun _ => tfind c.tensors h

def blockElems : Nat := 32768

/-- Elements of an entry: of its weight in the active bank. -/
def Ctx.entrySize (c : Ctx) (f : Flight) (e : ShardEntry) : Nat := ((c.recOf f e.w0).map TensorRec.size).getD 0

/-- Entry and block of block number b of the shard. -/
def blockAt (sizes : List Nat) (e b : Nat) : Option (Nat × Nat) :=
  match sizes with
  | [] => none
  | n :: r => let k := ceilDiv n blockElems
              if b < k then some (e, b) else blockAt r (e + 1) (b - k)

def Ctx.blockSizes (c : Ctx) (f : Flight) : List Nat := match c.shard with | some sh => sh.entries.map (c.entrySize f) | none => []
/-- Blocks of the shard. -/
def Ctx.blockCount (c : Ctx) (f : Flight) : Nat := ((c.blockSizes f).map fun n => ceilDiv n blockElems).foldl (· + ·) 0

/-- The next uncommitted block that the order of R84 gives a squad. -/
def State.nextBlock (s : State) (sq : Nat) (f : Flight) : Option Nat :=
  let u := s.unfenced
  (List.range f.items).find? fun b => !f.commitMap.contains b && decide (u.getD (b % u.length) 64 = sq)

/-- Handles of an entry's tensors in a bank: weight and moments (R259). -/
def entryBank (e : ShardEntry) (b : Nat) : Nat × Option Nat × Option Nat :=
  let pick (p : Option (Nat × Nat)) : Option Nat := p.map fun q => if b = 0 then q.1 else q.2
  (if b = 0 then e.w0 else e.w1, pick e.m1, pick e.m2)

/-- An element of a tensor by linear index, as binary32; an absent moment is +0 (R266). -/
def State.lin32 (s : State) (n : Nat) (c : Ctx) (f : Flight) (h : Option Nat) (i : Nat) : Word :=
  match h.bind (c.recOf f ·) with
  | some t => (s.elem32 n (f.recs ++ c.tensors) t (unlinear t.dims i)).getD 0
  | none => 0

/-- The active bank of a context (R260). -/
def Ctx.activeBank (c : Ctx) : Nat := c.upd.step.toNat % 2
/-- The bank an APPLY writes: STEP mod 2 of the block in force (R260). -/
def Ctx.writeBank (c : Ctx) : Nat := c.stepNow % 2

/-- The lane of one element. -/
def State.lane (s : State) (n : Nat) (c : Ctx) (f : Flight) (e : ShardEntry) (i : Nat) : Lane :=
  let b := entryBank e c.activeBank
  { g := s.lin32 n c f (some e.grad) i, w := s.lin32 n c f (some b.1) i, m1 := s.lin32 n c f b.2.1 i, m2 := s.lin32 n c f b.2.2 i,
    x := [], wOut := none, m1Out := none, m2Out := none }

/-- The lanes of 256 elements from first on, inside a block's end. -/
def State.lanes (s : State) (n : Nat) (c : Ctx) (f : Flight) (e : ShardEntry) (first last : Nat) : List Lane :=
  (List.range (min 256 (last - first))).map fun i => s.lane n c f e (first + i)

/-- The end of a block in its entry. -/
def blockLast (size b : Nat) : Nat := min size ((b + 1) * blockElems)

/-! ## Running a program (R267, R269, R271) -/

/-- The APPLY that a context has in flight with a program to run. -/
def Ctx.applying (c : Ctx) : Option (Flight × Nat) :=
  c.flight.findSome? fun f => match f.phase, f.desc.op with
    | .issued, .apply p _ => if f.copyMode then none else some (f, p)
    | _, _ => none

/-- A run over the first 256 elements of the squad's next block. -/
def State.beginRun (s : State) (sq : Nat) : Option UpdRun :=
  let go (n : Nat) : Option UpdRun :=
    if !s.working n then none
    else match (s.ctx n).applying, (s.ctx n).shard with
      | some (f, p), some sh =>
        match s.nextBlock sq f with
        | none => none
        | some b =>
          match blockAt ((s.ctx n).blockSizes f) 0 b with
          | none => none
          | some (e, k) => (sh.entries[e]?).map fun en =>
              let first := k * blockElems
              { ctx := n, seq := f.seq, prog := p, entry := e, block := b, first := first,
                lanes := s.lanes n (s.ctx n) f en first (blockLast ((s.ctx n).entrySize f en) k), done := [], pc := 0 }
      | _, _ => none
  (go 1).orElse fun _ => go 0

/-- The run of a squad, its environment and the instruction at its position. -/
def State.updCur (s : State) (sq : Nat) : Option (UpdRun × UpdEnv × UInstr) :=
  if (s.squad sq).fenced then none
  else match (s.squad sq).upe.orElse fun _ => s.beginRun sq with
    | none => none
    | some u =>
      let c := s.ctx u.ctx
      if !s.working u.ctx then none else
      match tfind c.updProgs u.prog, c.fl u.seq, c.shard with
      | some p, some f, some sh =>
        match p.code[u.pc]?, sh.entries[u.entry]? with
        | some i, some e => some (u, { p := p, c := c, exp := f.issueExp, group := e.group }, i)
        | _, _ => none
      | _, _, _ => none

/-- After the program's last instruction the next 256 elements of the block begin (R269). -/
def State.updNext (s : State) (u : UpdRun) : UpdRun :=
  let c := s.ctx u.ctx
  let n := match tfind c.updProgs u.prog with | some p => p.code.length | none => 0
  if u.pc + 1 < n then { u with pc := u.pc + 1 }
  else match c.fl u.seq, c.shard with
    | some f, some sh =>
      match sh.entries[u.entry]? with
      | none => u
      | some e =>
        let first := u.first + u.lanes.length
        { u with pc := 0, first := first, done := u.done ++ u.lanes,
                 lanes := s.lanes u.ctx c f e first (blockLast (c.entrySize f e) ((u.first) / blockElems)) }
    | _, _ => u

/-- Run one instruction over the lanes. -/
def State.updApply (s : State) (sq : Nat) (u : UpdRun) (d : UDst) (f : Lane → Word) : State :=
  let u' := { u with lanes := u.lanes.map fun l => l.put d (f l) }
  s.modSquad sq fun q => { q with upe := some (s.updNext u') }

def execUpdAdd (sq : Nat) (s : State) : Res :=
  match s.updCur sq with
  | some (u, v, .add d a b) => .next (s.updApply sq u d fun l => fAdd (v.src l a) (v.src l b))
  | _ => .next s
def execUpdSub (sq : Nat) (s : State) : Res :=
  match s.updCur sq with
  | some (u, v, .sub d a b) => .next (s.updApply sq u d fun l => fSub (v.src l a) (v.src l b))
  | _ => .next s
def execUpdMul (sq : Nat) (s : State) : Res :=
  match s.updCur sq with
  | some (u, v, .mul d a b) => .next (s.updApply sq u d fun l => fMul (v.src l a) (v.src l b))
  | _ => .next s
def execUpdFma (sq : Nat) (s : State) : Res :=
  match s.updCur sq with
  | some (u, v, .fma d a b c) => .next (s.updApply sq u d fun l => fFma (v.src l a) (v.src l b) (v.src l c))
  | _ => .next s
def execUpdSqrt (sq : Nat) (s : State) : Res :=
  match s.updCur sq with
  | some (u, v, .sqrt d a) => .next (s.updApply sq u d fun l => fSqrt (v.src l a))
  | _ => .next s
def execUpdRsqrt (sq : Nat) (s : State) : Res :=
  match s.updCur sq with
  | some (u, v, .rsqrt d a) => .next (s.updApply sq u d fun l => fRsqrt (v.src l a))
  | _ => .next s
def execUpdMax (sq : Nat) (s : State) : Res :=
  match s.updCur sq with
  | some (u, v, .max d a b) => .next (s.updApply sq u d fun l => fMax (v.src l a) (v.src l b))
  | _ => .next s
def execUpdMin (sq : Nat) (s : State) : Res :=
  match s.updCur sq with
  | some (u, v, .min d a b) => .next (s.updApply sq u d fun l => fMin (v.src l a) (v.src l b))
  | _ => .next s
def execUpdAbs (sq : Nat) (s : State) : Res :=
  match s.updCur sq with
  | some (u, v, .abs d a) => .next (s.updApply sq u d fun l => fAbs (v.src l a))
  | _ => .next s
def execUpdSel (sq : Nat) (s : State) : Res :=
  match s.updCur sq with
  | some (u, v, .sel d c a b) => .next (s.updApply sq u d fun l => fSel (v.src l c) (v.src l a) (v.src l b))
  | _ => .next s
def execUpdClamp (sq : Nat) (s : State) : Res :=
  match s.updCur sq with
  | some (u, v, .clamp d a lo hi) => .next (s.updApply sq u d fun l => fClamp (v.src l a) (v.src l lo) (v.src l hi))
  | _ => .next s
def execUpdScl (sq : Nat) (s : State) : Res :=
  match s.updCur sq with
  | some (u, v, .scl d a n) => .next (s.updApply sq u d fun l => fScl (v.src l a) n)
  | _ => .next s

/-! ## Frozen elements and the digest (R272, R274) -/

/-- Element i of a weight tensor is frozen (R272). -/
def State.frozenAt (s : State) (n : Nat) (c : Ctx) (f : Flight) (t : TensorRec) (i : Nat) : Bool :=
  match t.frozenMask.bind (c.recOf f ·) with
  | none => false
  | some m => s.mapBit n m (if t.frozenBlock then i * Fmt.bits t.fmt / 8 / 4096 else i)

/-- The packed bits of patterns in index order. -/
def packCodes (w : Nat) : List Nat → Nat
  | [] => 0
  | c :: r => c % 2 ^ w + 2 ^ w * packCodes w r

/-- The three rounds of R50 on x. -/
def mix64 (x : W64) : W64 :=
  let x := (x ^^^ (x >>> 30)) * 0xBF58476D1CE4E5B9#64
  let x := (x ^^^ (x >>> 27)) * 0x94D049BB133111EB#64
  x ^^^ (x >>> 31)

/-- The digest contribution of the words of one output's codes, from element first on (R274). -/
def digestOf (e out w first : Nat) (codes : List Nat) : W64 :=
  let n := packCodes w codes
  let words := ceilDiv (w * codes.length) 64
  (List.range words).foldl (fun d k =>
    let j := first * w / 64 + k
    let i := BitVec.ofNat 64 (e * 2 ^ 40 + out * 2 ^ 38 + j)
    d ^^^ mix64 (BitVec.ofNat 64 (n / 2 ^ (64 * k)) ^^^ (i * 0x9E3779B97F4A7C15#64))) 0

/-- Write one output of a block: copied patterns of the active bank where `keep`, else the cast of the program's value; gives the
state, the patterns' digest and what was written (R266, R271, R272). -/
def State.writeOut (s : State) (n : Nat) (f : Flight) (e out : Nat) (src dst : Option Nat) (first : Nat) (keep : List Bool) (vals : List (Option Word)) (stoch : Bool) :
    State × W64 :=
  let c := s.ctx n
  match src.bind (c.recOf f ·), dst.bind (c.recOf f ·) with
  | some a, some t =>
    let r := ((List.range keep.length).zip (keep.zip vals)).foldl (fun (acc : State × List Nat) p =>
      let idx := unlinear t.dims (first + p.1)
      let old := (s.getCode n a idx).getD 0
      let code := match p.2 with
        | (false, some v) => (castElem t.fmt (srOf stoch t c.stepNow idx) f.desc.ovfReport false (decode32 v)).1
        | _ => old
      (acc.1.putCode n t idx code, acc.2 ++ [code])) (s, [])
    (r.1, digestOf e out (Fmt.bits t.fmt) first r.2)
  | _, _ => (s, 0)

/-- The first of suppressed elements by entry and index, in whatever order blocks commit (R272). -/
def firstOf (o : Option (Nat × Nat)) (p : Nat × Nat) : Nat × Nat :=
  match o with
  | none => p
  | some q => if q.1 < p.1 ∨ (q.1 = p.1 ∧ q.2 < p.2) then q else p

/-- The block of an APPLY is written to the alternate bank and its digest folded in (R271, R272, R274). -/
def State.applyBlock (s : State) (n : Nat) (f : Flight) (e : Nat) (en : ShardEntry) (first : Nat) (lanes : List Lane) (copy : Bool) (sr : List Bool) : State :=
  let c := s.ctx n
  let a := entryBank en c.activeBank
  let b := entryBank en c.writeBank
  let fz := match c.recOf f a.1 with
    | some t => (List.range lanes.length).map fun i => s.frozenAt n c f t (first + i)
    | none => lanes.map fun _ => false
  let keep := fz.map fun z => z || copy
  let r0 := s.writeOut n f e 0 (some a.1) (some b.1) first keep (lanes.map (·.wOut)) (sr.getD 0 false)
  let r1 := r0.1.writeOut n f e 1 a.2.1 b.2.1 first keep (lanes.map (·.m1Out)) (sr.getD 1 false)
  let r2 := r1.1.writeOut n f e 2 a.2.2 b.2.2 first keep (lanes.map (·.m2Out)) (sr.getD 2 false)
  let sup := if copy then 0 else (fz.filter id).length
  let bad := !copy && (lanes.zip fz).any fun p => !p.2 && ([p.1.wOut, p.1.m1Out, p.1.m2Out].any fun v => match v with
    | some w => !(decode32 w).isFin
    | none => false)
  let t := r2.1.modCtx n fun c => { c with upd := { c.upd with
    acc := c.upd.acc ^^^ r0.2 ^^^ r1.2 ^^^ r2.2, frozenCnt := c.upd.frozenCnt + BitVec.ofNat 64 sup,
    supCount := c.upd.supCount + sup,
    supFirst := if sup = 0 then c.upd.supFirst else some (firstOf c.upd.supFirst (e, first + (fz.idxOf true))) } }
  let t := if bad && !((t.ctx n).flag 248) then (t.writeFlag n 248 true).raise (236 + n) else t
  if !copy && !((t.ctx n).flag 247) && ltNum (decode32 (t.ctx n).clipS) one32 then t.writeFlag n 247 true else t

/-- The record and flag of a strict-freeze suppression, once the APPLY's last block has committed (R272). -/
def State.strictEnd (s : State) (n : Nat) : State :=
  let u := (s.ctx n).upd
  match u.supFirst with
  | some (e, i) =>
    if s.strictFreeze then
      ((s.writeFlag n 246 true).raise (234 + n)).log 4 0x4803 1 0 0x54 0 (leBytes 8 u.supCount ++ leBytes 4 e ++ leBytes 8 i)
    else s
  | none => s

/-! ## Pass one (R270) -/

/-- Pairwise sum by lane index. -/
def pairSumGo : Nat → List Word → Word
  | 0, l => l.headD 0
  | n + 1, l =>
    let rec step : List Word → List Word
      | a :: b :: r => fAdd a b :: step r
      | l => l
    match l with
    | [] => 0
    | [x] => x
    | _ => pairSumGo n (step l)

/-- A block's partial: rows of 256 summed pairwise, added in row order (R270). -/
def blockSum (n : Nat) (v : Nat → Word) (len : Nat) : Word :=
  (List.range (ceilDiv len 256)).foldl (fun acc r =>
    fAdd acc (pairSumGo 8 ((List.range (min 256 (len - 256 * r))).map fun i => v (n + 256 * r + i)))) 0

/-- The partials of a block for its group, frozen elements as zero: gradient and weight (R270). -/
def State.normBlock (s : State) (n : Nat) (f : Flight) (en : ShardEntry) (first last : Nat) : Word × Word :=
  let c := s.ctx n
  let h := (entryBank en c.activeBank).1
  let z (i : Nat) : Bool := match c.recOf f h with | some t => s.frozenAt n c f t i | none => false
  let sq (x : Word) : Word := fMul x x
  (blockSum first (fun i => if z i then 0 else sq (fMul (s.lin32 n c f (some en.grad) i) (invScale f.issueExp))) (last - first),
   blockSum first (fun i => if z i then 0 else sq (s.lin32 n c f (some h) i)) (last - first))

end Sys2Proof.Machine
end

