-- ==== Sys2Proof/Machine/Commit.lean ====
section
/-! DEFINITION. The commit: votes, their tree, the root's decision, COMMIT, HOLD and ABORT, undecided members, redigest
(R226, R252, R254, R261, R264, R274 to R284, R336). -/

namespace Sys2Proof.Machine

/-! ## The tree (R226, R247) -/

def Ctx.paired (c : Ctx) : Bool := match c.shard with | some s => s.paired | none => false

/-- The ranks below and at the node of rank r: r to the last of its subtree (R226, R247). -/
def spanHi (r members : Nat) : Nat := if r = 0 then members - 1 else min (members - 1) (r + lowBit 32 r - 1)
/-- The ranks of the node's children. -/
def children (r members : Nat) : List Nat :=
  ((List.range 32).map fun i => r + 2 ^ i).filter fun x => decide (x < members) && (r == 0 || decide (x < r + lowBit 32 r))

/-- Ranges cover every rank from lo to hi. -/
def covers (l : List (Nat × Nat)) (lo hi : Nat) : Bool :=
  (List.range (hi + 1 - lo)).all fun i => l.any fun p => decide (p.1 ≤ lo + i ∧ lo + i ≤ p.2)

/-! ## Loss scale (R252, R254) -/

def State.lsG (s : State) : Nat := s.rg (pgUPD + 0x200) % 2 ^ 16
/-- EXP and GROWTH after the step's decision (R254). -/
def lsDecide (g exp growth : Nat) (overflow : Bool) : Nat × Nat :=
  if overflow then (exp - 1, 0)
  else
    let gr := min 65535 (growth + 1)
    if g ≤ gr then (min 24 (exp + 1), 0) else (exp, gr)

def Ctx.isStatic (c : Ctx) : Bool := match c.spb with | some b => b.static | none => false
/-- EXP and GROWTH that this step's commit would leave (R254, R279). -/
def State.lsNext (s : State) (n : Nat) : Nat × Nat :=
  let c := s.ctx n
  if c.isStatic then (c.upd.exp, c.upd.growth) else lsDecide s.lsG c.upd.exp c.upd.growth (c.flag 241)

/-! ## Votes (R275, R276) -/

def State.reopenMax (s : State) : Nat := s.rg (pgUPD + 0x204) % 16

/-- The vote of this device (R264, R273, R275). -/
def State.makeVote (s : State) (n step reason : Nat) : Vote :=
  let c := s.ctx n
  let e := s.lsNext n
  { step := BitVec.ofNat 32 step, growth := e.2, exp := e.1, ready := reason == 0, reason := reason, digest := c.upd.acc, count := 1,
    round := c.commit.round }

/-- Replace the vote of a range of ranks. -/
def putVote (l : List (Nat × Nat × Vote)) (lo hi : Nat) (v : Vote) : List (Nat × Nat × Vote) :=
  (l.filter fun e => !(e.1 == lo)) ++ [(lo, hi, v)]

/-- The aggregate of votes in rank order (R276). -/
def aggregate (l : List (Nat × Nat × Vote)) : Option Vote :=
  let l := l.mergeSort fun a b => decide (a.1 ≤ b.1)
  match l with
  | [] => none
  | (_, _, v) :: _ =>
    let agree := l.all fun e => e.2.2.step == v.step && e.2.2.exp == v.exp && e.2.2.growth == v.growth
    let first := (l.find? fun e => e.2.2.reason != 0).elim 0 fun e => e.2.2.reason
    some { v with ready := agree && l.all (fun e => e.2.2.ready), reason := if agree then first else 7,
                  digest := l.foldl (fun d e => d ^^^ e.2.2.digest) 0, count := l.foldl (fun k e => k + e.2.2.count) 0 }

def Ctx.modCommit (c : Ctx) (f : Commit → Commit) : Ctx := { c with commit := f c.commit }

/-- The flight of the commit HUDDLE (R275). -/
def isCommitHuddle (d : Descriptor) : Bool := match d.op with
  | .huddle .slice _ true => true
  | _ => false
def Ctx.commitFlight (c : Ctx) : Option Flight := c.flight.find? fun f => isCommitHuddle f.desc && (f.phase == .issued)

/-! ## Applying a decision (R279, R280, R282) -/

/-- COMMIT applied (R279): step and bank, loss scale, flags 240, 241 and 244, step digest, decision; the HUDDLE completes. -/
def State.applyCommit (s : State) (n : Nat) (step : Word) (digest : W64) (exp growth : Nat) : State :=
  let c := s.ctx n
  let floor := c.flag 241 && !c.isStatic && c.upd.exp == 0
  let t := s.modCtx n fun c => { c with
    upd := { c.upd with step := step, exp := exp, growth := growth, stepDigest := digest, decision := step, verdict := 1, undecided := false }
    commit := { c.commit with decided := true, halted := false, queried := false } }
  let t := ((t.writeFlag n 240 false).writeFlag n 241 false).writeFlag n 244 true
  let t := match (t.ctx n).commitFlight with
    | some f => t.modCtx n fun c => (c.modFl f.seq fun x => { x with doneLatched := true }).modQueue f.queue fun q =>
        if q.halt == Halt.memberDeadline || q.halt == Halt.rootDeadline || q.halt == Halt.huddleDeadline then { q with halt := .none } else q
    | none => t
  let t := if floor then (t.log 4 0x4807 1 0 0x54 0 (leBytes 1 n)).raise (224 + n) else t
  if t.bit (pgUPD + 0x1C) (Config.commitIrqBit n) then t.raise (238 + n) else t

/-- Send a decision down the tree: 0 COMMIT, 1 HOLD, 2 ABORT (R277). -/
def State.sendDown (s : State) (n kind : Nat) (d : Decision) : State :=
  if (children (s.ctx n).rank (s.ctx n).members).isEmpty then s else s.emit (.decide n kind d)

/-- A HOLD at this device: Warning record 0x4804, vector 228 + context, flag 249 (R277, R283). -/
def State.noteHold (s : State) (n : Nat) (d : Decision) : State :=
  let t := s.log 4 0x4804 1 0 0x54 0 (leBytes 1 n ++ leBytes 1 d.reason ++ [0#8, 0#8] ++ leBytes 4 d.step.toNat ++ leBytes 4 d.round)
  (t.writeFlag n 249 true).raise (228 + n)

/-- ABORT from the root: the context is lost without a flip (R280). -/
def State.applyAbort (s : State) (n : Nat) (step : Word) : State :=
  let t := s.modCtx n fun c => { c with upd := { c.upd with decision := step, verdict := 2, undecided := false },
                                        commit := { c.commit with decided := true } }
  match (s.ctx n).commitFlight with
  | some f => t.loseCtx n 5 f.queue f.qindex f.seq false
  | none => t.loseCtx n 5 0 0 0 false

/-! ## The root (R277, R278) -/

/-- All votes of the current round are in. -/
def Commit.roundVotes (c : Commit) : List (Nat × Nat × Vote) := c.votes.filter fun e => e.2.2.round == c.round || !e.2.2.ready

/-- The root sends HOLD with a reason, and is held itself. -/
def State.rootHold (s : State) (n reason : Nat) (v : Vote) : State :=
  let d : Decision := { step := v.step, reason := reason, digest := 0, round := (s.ctx n).commit.round }
  (s.sendDown n 1 d).noteHold n d

/-- The root commits: the packets leave first (R277, R282). -/
def State.rootCommit (s : State) (n : Nat) (v : Vote) : State :=
  let d : Decision := { step := v.step, reason := 0, digest := v.digest, round := (s.ctx n).commit.round }
  (s.sendDown n 0 d).applyCommit n v.step v.digest v.exp v.growth

/-- The pair check (R278): values sent once; commit only on equality; on inequality HOLD, record, vector, no reopen. -/
def State.rootPair (s : State) (n : Nat) (v : Vote) : State :=
  let c := (s.ctx n).commit
  let t := if c.pairOut then s else (s.emit (.pair n v.step v.exp v.growth v.digest)).modCtx n (·.modCommit fun c => { c with pairOut := true })
  match c.pairIn with
  | none => t
  | some (st, e, g, d) =>
    if st = v.step ∧ e = v.exp ∧ g = v.growth ∧ d = v.digest then t.rootCommit n v
    else
      let t := t.rootHold n 8 v
      let t := t.log 4 0x4806 2 0 0x54 0 (leBytes 1 n ++ [0#8, 0#8, 0#8] ++ leBytes 4 v.step.toNat ++ leBytes 8 v.digest.toNat ++ leBytes 8 d.toNat)
      (t.raise (232 + n)).modCtx n (·.modCommit fun c => { c with reopens := 15, pairIn := none })

/-- The root's decision from the votes it holds (R277); none once its context is lost or the device is in Sideline (R302, R304). -/
def State.rootDecide (s : State) (n : Nat) : State :=
  let c := s.ctx n
  let vs := c.commit.roundVotes
  match aggregate vs with
  | none => s
  | some v =>
    if c.commit.decided || c.lost || s.dev.mode == .sideline then s
    else if !v.ready then (if c.commit.sent = some v then s else (s.modCtx n (·.modCommit fun c => { c with sent := some v })).rootHold n v.reason v)
    else if covers (vs.map fun e => (e.1, e.2.1)) 0 (c.members - 1) && c.commit.own.isSome then
      (if c.paired then s.rootPair n v else s.rootCommit n v)
    else s

/-- A step is later than the one that this device last voted for. -/
def Commit.later (m : Commit) (step : Word) : Bool := match m.own with | some v => decide (v.step.toNat < step.toNat) | none => true

/-- The huddle unit's entry for a new step, with what has come for later steps already. -/
def Commit.fresh (m : Commit) : Commit :=
  { Commit.reset with votes := m.votes.filter (fun e => m.later e.2.2.step), pairIn := m.pairIn.filter fun p => m.later p.1 }

/-- A packet of a later step than the decided one begins that step's entry, though this device has not voted yet (R275, R277). -/
def Commit.forStep (m : Commit) (step : Word) : Commit :=
  if m.decided && m.later step then m.fresh else m

/-- A node forwards its aggregate when every member below has voted, and again when it changes (R276); rank 0 decides. In Sideline mode a
vote that has not been sent never is (R307). -/
def State.commitUp (s : State) (n : Nat) : State :=
  let c := s.ctx n
  if c.commit.decided || s.dev.mode == .sideline then s
  else if c.rank = 0 then s.rootDecide n
  else if covers (c.commit.votes.map fun e => (e.1, e.2.1)) c.rank (spanHi c.rank c.members) then
    match aggregate c.commit.votes with
    | none => s
    | some v => if c.commit.sent = some v then s else (s.modCtx n (·.modCommit fun c => { c with sent := some v })).emit (.vote n v)
  else s

/-- This device votes (R264, R275): after a decision its vote begins a new entry. -/
def State.castVote (s : State) (n step reason : Nat) : State :=
  let c := s.ctx n
  let t := s.modCtx n (·.modCommit fun m => if m.decided then m.fresh else m)
  let v := t.makeVote n step reason
  (t.modCtx n (·.modCommit fun m => { m with own := some v, votes := putVote m.votes c.rank c.rank v })).commitUp n

/-- The commit HUDDLE issues: the member arrives with READY unless NF_BLOCK holds a non-finite output back (R273, R275). -/
def State.commitArrive (s : State) (n : Nat) : State :=
  s.castVote n (s.ctx n).stepNow (if s.nfBlock && (s.ctx n).flag 248 then 5 else 0)

/-! ## Commands -/

/-- VOTE_RECEIVE (R276, R277). -/
def execVoteReceive (n lo hi : Nat) (v : Vote) (s : State) : Res :=
  .next ((s.modCtx n (·.modCommit fun m => let m := m.forStep v.step; { m with votes := putVote m.votes lo hi v })).commitUp n)

/-- The vote of this member for a step was READY (R279, R282). -/
def Ctx.votedReady (c : Ctx) (step : Word) : Bool := match c.commit.own with
  | some v => v.ready && v.step == step
  | none => false

/-- The commit HUDDLE's shot clock has run for k times SHOT (R248, R280). -/
def Ctx.commitExpired (c : Ctx) (k : Nat) : Bool := match c.commitFlight with
  | some f => f.desc.shot != 0 && decide (k * f.desc.shot * 1000 ≤ f.shotNs)
  | none => false

/-- Halt the queue of the commit HUDDLE. -/
def State.haltCommit (s : State) (n : Nat) (h : Halt) : State :=
  match (s.ctx n).commitFlight with
  | some f => s.modCtx n fun c => (c.modQueue f.queue fun q => { q with halt := h }).modCommit fun m => { m with halted := true }
  | none => s

/-- COMMIT_SHOT_CLOCK_EXPIRY at the root: HOLD MISSING and a new round, or the commit-deadline fault (R277). -/
def execCommitShotClockExpiry (n : Nat) (s : State) : Res :=
  let c := s.ctx n
  if c.rank != 0 || !c.commitExpired 1 || c.commit.decided || c.commit.halted then .next s
  else match c.commit.own with
    | none => .next s
    | some v =>
      if c.commit.reopens < s.reopenMax then
        let r := c.commit.round + 1
        let own := { s.makeVote n v.step.toNat v.reason with round := r }
        let t := s.modCtx n (·.modCommit fun m => { m with round := r, reopens := m.reopens + 1, own := some own, sent := none, votes := [(0, 0, own)] })
        let t := match c.commitFlight with
          | some f => t.modCtx n (·.modFl f.seq fun x => { x with shotNs := 0 })
          | none => t
        .next (t.rootHold n 9 own)
      else
        let t := s.haltCommit n .rootDeadline
        let cnt := c.commit.votes.foldl (fun k e => k + e.2.2.count) 0
        .next ((t.log 4 0x4805 2 0 0x54 0 (leBytes 1 n ++ [0#8, 0#8, 0#8] ++ leBytes 4 v.step.toNat ++ leBytes 4 cnt)).raise (230 + n))

/-- A port accepts pair packets of a device: its role is PAIR, its class MATCHED, and the plan names the device there (R225). -/
def Link.pairs (l : Link) (src : Nat) : Bool := l.inService && l.cls == 2 && l.planRole == 8 && l.planPeer == src

/-- PAIR_PACKET at the root (R225, R278). -/
def execPairPacket (n src port : Nat) (step : Word) (exp growth : Nat) (digest : W64) (s : State) : Res :=
  guard (s.alive && s.chanUp (port / 6) && (s.link port).pairs src) s ((s.modCtx n (·.modCommit fun m => { m.forStep step with pairIn := some (step, exp, growth, digest) })).rootDecide n)

/-- COMMIT_RECEIVE: passed down, then applied (R279). -/
def execCommitReceive (n : Nat) (d : Decision) (s : State) : Res :=
  let t := s.sendDown n 0 d
  if (s.ctx n).votedReady d.step && !(s.ctx n).commit.decided then
    match (s.ctx n).commit.own with
    | some v => .next (t.applyCommit n d.step d.digest v.exp v.growth)
    | none => .next t
  else .next t

/-- HOLD_RECEIVE: passed down, recorded; reason MISSING asks for the vote again in the new round (R277). -/
def execHoldReceive (n : Nat) (d : Decision) (s : State) : Res :=
  let t := ((s.modCtx n (·.modCommit (·.forStep d.step))).sendDown n 1 d).noteHold n d
  let c := t.ctx n
  if d.reason = 9 ∧ c.commit.decided = false then
    match c.commit.own with
    | some v =>
      let own := { v with round := d.round }
      .next ((t.modCtx n (·.modCommit fun m => { m with round := d.round, own := some own, sent := none, votes := [(c.rank, c.rank, own)] })).commitUp n)
    | none => .next (t.modCtx n (·.modCommit fun m => { m with round := d.round }))
  else .next t

/-- COMMIT_ABORT_RECEIVE: a decision is never taken back (R280, R282). -/
def execCommitAbortReceive (n : Nat) (d : Decision) (s : State) : Res :=
  let t := s.sendDown n 2 d
  .next (if (s.ctx n).upd.verdict = 1 ∧ (s.ctx n).upd.decision = d.step then t else t.applyAbort n d.step)

/-- The record and vector of a huddle deadline (R248). -/
def State.huddleDeadline (s : State) (n q number scope arrived missing : Nat) : State :=
  (s.log 0 0x4401 2 0 0x13 q (leBytes 1 n ++ leBytes 1 q ++ leBytes 2 number ++ leBytes 1 scope ++ [0#8, 0#8, 0#8] ++ leBytes 4 arrived ++ leBytes 4 missing)).raise 219

/-- The number of a HUDDLE. -/
def huddleNo (d : Descriptor) : Nat := match d.op with
  | .huddle _ k _ => k
  | _ => 0

/-- MEMBER_COMMIT_CLOCK_EXPIRY: a READY member queries rank 0 once; another halts (R280, R282). -/
def execMemberCommitClockExpiry (n : Nat) (s : State) : Res :=
  let c := s.ctx n
  match c.commitFlight with
  | none => .next s
  | some f =>
    if !c.commitExpired (s.reopenMax + 2) || c.commit.decided || c.commit.halted || c.commit.queried || c.rank == 0 then .next s
    else match c.commit.own with
      | none => .next s
      | some v =>
        if v.ready then
          .next ((s.modCtx n fun c => (c.modCommit fun m => { m with queried := true }).modFl f.seq fun x => { x with shotNs := 0 }).emit (.query n v.step))
        else .next ((s.haltCommit n .huddleDeadline).huddleDeadline n f.queue (huddleNo f.desc) 2 c.commit.votes.length max32)

/-- DECISION_QUERY at rank 0: answered from the decision registers (R282). -/
def execDecisionQuery (n src : Nat) (step : Word) (s : State) : Res :=
  let u := (s.ctx n).upd
  if u.decision = step ∧ u.verdict ≠ 0 then
    .next (s.emit (.answer n src (some (u.verdict == 1)) { step := step, reason := 0, digest := u.stepDigest, round := 0 }))
  else .next s

/-- DECISION_ANSWER: applied as COMMIT or as an ABORT from the root (R282). -/
def execDecisionAnswer (n : Nat) (commit : Bool) (d : Decision) (s : State) : Res :=
  let c := s.ctx n
  match c.commit.own with
  | none => .next s
  | some v =>
    if !c.votedReady d.step || c.commit.decided || !c.commit.queried then .next s
    else if commit then .next (s.applyCommit n d.step d.digest v.exp v.growth) else .next (s.applyAbort n d.step)

/-- DECISION_QUERY_TIMEOUT: no answer within one further SHOT; the member halts undecided (R282). -/
def execDecisionQueryTimeout (n : Nat) (s : State) : Res :=
  let c := s.ctx n
  match c.commitFlight, c.commit.own with
  | some f, some v =>
    if !c.commit.queried || c.commit.decided || c.commit.halted || !c.commitExpired 1 then .next s
    else
      let t := (s.haltCommit n .memberDeadline).modCtx n fun c => { c with upd := { c.upd with undecided := true, decision := v.step } }
      .next (t.huddleDeadline n f.queue (huddleNo f.desc) 2 c.commit.votes.length max32)
  | _, _ => .next s

/-- The context of RESOLVE_CTX and REDIGEST_CTX (R336). -/
def State.resolveCtx (s : State) : Nat := b2n (s.bit (pgUPD + 8) 9)
def State.redigestCtx (s : State) : Nat := b2n (s.bit (pgUPD + 8) 8)

/-- COMPLETE_COMMIT and DISCARD_VOTE are accepted (R282). -/
def Ctx.resolvable (c : Ctx) : Bool := !c.started || c.halted || c.suspended || c.lost || (c.commit.halted && c.upd.undecided)

def State.resolveDigest (s : State) : W64 := BitVec.ofNat 64 (s.rg (pgUPD + 0x208) + 2 ^ 32 * s.rg (pgUPD + 0x20C))

/-- COMPLETE_COMMIT (R282). -/
def execCompleteCommit (s : State) : Res :=
  let n := s.resolveCtx
  let c := s.ctx n
  if !c.resolvable then .next (s.lockedWrite pgUPD)
  else if !c.upd.undecided then .next (s.badCommand pgUPD)
  else match c.commit.own with
    | none => .next s
    | some v => .next (s.applyCommit n v.step s.resolveDigest v.exp v.growth)

/-- DISCARD_VOTE (R282). -/
def execDiscardVote (s : State) : Res :=
  let n := s.resolveCtx
  let c := s.ctx n
  if !c.resolvable then .next (s.lockedWrite pgUPD)
  else if !c.upd.undecided then .next (s.badCommand pgUPD)
  else .next (s.modCtx n fun c => { c with upd := { c.upd with undecided := false } })

/-- REDIGEST begins; UPD_STATUS[0] reads 1 while it runs (R336). -/
def execRedigest (s : State) : Res := .next (s.modCtx s.redigestCtx fun c => { c with upd := { c.upd with redigest := true } })

/-- All patterns of a tensor in row-major order. -/
def State.allCodes (s : State) (n : Nat) (t : TensorRec) : List Nat :=
  (List.range (TensorRec.size t)).map fun i => (s.getCode n t (unlinear t.dims i)).getD 0

/-- D over the active bank (R274, R336). -/
def State.bankDigest (s : State) (n : Nat) : W64 :=
  let c := s.ctx n
  match c.shard with
  | none => 0
  | some sh => ((List.range sh.entries.length).zip sh.entries).foldl (fun d p =>
      let b := entryBank p.2 c.activeBank
      [(0, some b.1), (1, b.2.1), (2, b.2.2)].foldl (fun d q =>
        match q.2.bind (tfind c.tensors ·) with
        | some t => d ^^^ digestOf p.1 q.1 (Fmt.bits t.fmt) 0 (s.allCodes n t)
        | none => d) d) 0

/-- REDIGEST_DONE (R336). -/
def execRedigestDone (n : Nat) (s : State) : Res :=
  let d := s.bankDigest n
  guard (s.ctx n).upd.redigest s (s.modCtx n fun c => { c with upd := { c.upd with redigest := false, digest := d, digestStep := c.upd.step } })

/-- Not started, halted or suspended for fault: the host may write UPD_STEPn and UPD_LOSS_SCALEn (R255, R261, R388). -/
def Ctx.quiet (c : Ctx) : Bool := !c.started || c.halted || c.suspended

/-- UPD_STEP_WRITE (R261). -/
def execUpdStepWrite (n : Nat) (v : Word) (s : State) : Res :=
  if (s.ctx n).quiet then .next (s.modCtx n fun c => { c with upd := { c.upd with step := v } })
  else if (s.ctx n).upd.step = v then .next s else .next (s.lockedWrite pgUPD)

/-- LOSS_SCALE_WRITE: EXP above 24 is taken as 24 (R255, R336). -/
def execLossScaleWrite (n exp growth : Nat) (s : State) : Res :=
  let u := (s.ctx n).upd
  let e := min 24 (exp % 32)
  let g := growth % 2 ^ 16
  if (s.ctx n).quiet then .next (s.modCtx n fun c => { c with upd := { c.upd with exp := e, growth := g } })
  else if u.exp = e ∧ u.growth = g then .next s else .next (s.lockedWrite pgUPD)

end Sys2Proof.Machine
end

