-- ==== Sys2Proof/Machine/Admit.lean ====
section
/-! DEFINITION. DESCRIPTOR_ADMIT: the checks of R110, pair handles, footprints, the scoreboard and the journal
(R91 to R96, R102, R105, R106, R110, R260, R288, R389). -/

namespace Sys2Proof.Machine

/-! ## Records of a descriptor (R96, R260) -/

/-- The handle that a name stands for: a pair handle names the active bank's tensor, or for the write of an APPLY the bank
STEP mod 2 (R260). -/
def Ctx.resolve (c : Ctx) (write : Bool) (h : Nat) : Option Nat :=
  let b := if write then c.writeBank else c.activeBank
  match c.shard with
  | none => some h
  | some sh =>
    match sh.entries.findSome? fun e =>
      if e.pairH = h then some (some (entryBank e b).1)
      else if e.m1H = h && e.m1.isSome then some (entryBank e b).2.1
      else if e.m2H = h && e.m2.isSome then some (entryBank e b).2.2 else none with
    | some r => r
    | none => some h

/-- A name that is a pair handle. -/
def Ctx.isPair (c : Ctx) (h : Nat) : Bool := match c.shard with
  | none => false
  | some sh => sh.entries.any fun e => e.pairH == h || (e.m1H == h && e.m1.isSome) || (e.m2H == h && e.m2.isSome)

def writes (o : Operand) : Bool := o.role != Role.read

/-- The operands that are named. -/
def Descriptor.ops (d : Descriptor) : List Operand := d.t.filterMap id

/-- The attachments of a record, without the backing of statistics (R95). -/
def TensorRec.attach (t : TensorRec) : List Nat := [t.scaleTable, t.pat24, t.occMap, t.frozenMask].filterMap id

def maskHandle : Mask → List Nat
  | .map h => [h]
  | _ => []

/-- The record of an operand. -/
def Ctx.operandRec (c : Ctx) (o : Operand) : Option TensorRec := (c.resolve (writes o) o.handle).bind (tfind c.tensors ·)

/-- Handles named by a descriptor beside its operands. -/
def Ctx.sideHandles (c : Ctx) (d : Descriptor) : List Nat :=
  (Descriptor.ops d).flatMap (fun o => ((c.operandRec o).map TensorRec.attach).getD []) ++ d.counts.toList ++ maskHandle d.mask

/-- The copy of the records taken at admission (R96), by the handles as the descriptor names them; an UPDATE copies the context's
table, from which its shard's entries are read. -/
def Ctx.recsOf (c : Ctx) (d : Descriptor) : Tbl TensorRec :=
  let base : Tbl TensorRec := if d.cls = .update then c.tensors else
    (c.sideHandles d).foldl (fun t h => match tfind c.tensors h with
      | some r => tins h r t
      | none => t) []
  (Descriptor.ops d).foldl (fun t o => match c.operandRec o with
    | some r => tins o.handle r t
    | none => t) base

/-! ## Footprints (R102) -/

/-- The space of a tensor. -/
def homeSpace : Home → FpSpace
  | .squad q => .store q
  | .distributed => .allStores
  | _ => .virt

/-- The byte range from the lowest to the highest addressed byte (R95, R102). -/
def State.tensorRange (s : State) (t : TensorRec) : Nat × Nat :=
  if t.skewed then
    let rows := (t.dims.drop 2).foldl (· * ·) 1 * TensorRec.blockRows t
    let here := match t.home with | .distributed => ceilDiv rows s.countA | _ => rows
    (t.base, t.base + here * TensorRec.blockCols t * Fmt.blockBytes t.fmt)
  else
    let top := ((t.dims.zip t.strides).map fun p => (p.1 - 1) * p.2).foldl (· + ·) 0
    (t.base, t.base + ((top + 1) * Fmt.bits t.fmt + 7) / 8)

/-- The range that one side of a strided transfer reaches (R102, R172). -/
def strideRange (base : Nat) (h : DmaShape) : Nat × Nat :=
  let a := (h.n1 - 1 : Int) * h.s1
  let b := (h.n2 - 1 : Int) * h.s2
  let lo := (base : Int) + min 0 a + min 0 b
  let hi := (base : Int) + max 0 a + max 0 b + h.n0
  (lo.toNat, hi.toNat)

/-- The range of operand i: for a linear or strided DMA side what the transfer reaches, else the tensor's. -/
def State.operandRange (s : State) (d : Descriptor) (i : Nat) (t : TensorRec) : Nat × Nat :=
  match d.op with
  | .dma .linear a _ _ => if t.skewed then s.tensorRange t else (t.base, t.base + a.n0)
  | .dma .strided a b _ => if t.skewed then s.tensorRange t else strideRange t.base (if i = 0 then a else b)
  | _ => s.tensorRange t

/-- Handle of an entry that is the backing of statistics, which no record names. -/
def statsHandle : Nat := 65536

def rowForward (d : Descriptor) : Bool := match d.op with
  | .row _ bw _ => !bw
  | _ => false

/-- Entries of one operand and its attachments (DEDUCED, log 32). -/
def State.operandEntries (s : State) (c : Ctx) (d : Descriptor) (i : Nat) (o : Operand) : List FpEntry :=
  match c.operandRec o, c.resolve (writes o) o.handle with
  | some t, some h =>
    let r := s.operandRange d i t
    let own : FpEntry := { space := homeSpace t.home, lo := r.1, hi := r.2, write := writes o, handle := h }
    let att (x : Option Nat) (w : Bool) : List FpEntry := match x with
      | none => []
      | some k => match tfind c.tensors k with
        | none => []
        | some a => let q := s.tensorRange a
                    [{ space := homeSpace a.home, lo := q.1, hi := q.2, write := w, handle := k }]
    let st : List FpEntry := match t.statsBacking with
      | none => []
      | some va => [{ space := .virt, lo := va, hi := va + 8 * ((t.dims.drop 1).foldl (· * ·) 1), write := rowForward d, handle := statsHandle }]
    own :: (att t.scaleTable (writes o) ++ att t.pat24 false ++ att t.occMap (writes o && d.occGen) ++ att t.frozenMask false ++ st)
  | _, _ => []

/-- The footprint of a descriptor (R102). -/
def State.footprint (s : State) (n : Nat) (d : Descriptor) : List FpEntry :=
  let c := s.ctx n
  let side (h : Nat) : List FpEntry := match tfind c.tensors h with
    | none => []
    | some t => let r := s.tensorRange t
                [{ space := homeSpace t.home, lo := r.1, hi := r.2, write := false, handle := h }]
  ((List.range d.t.length).zip d.t).flatMap (fun p => match p.2 with
    | some o => s.operandEntries c d p.1 o
    | none => []) ++ d.counts.toList.flatMap side ++ (maskHandle d.mask).flatMap side

/-! ## The checks of R110 -/

def isMat (d : Descriptor) : Bool := d.cls == Cls.matmul || d.cls == Cls.accum

/-- The fields of OP in their ranges, and OP of the class (R94, R172). -/
def opOk (n : Nat) (d : Descriptor) : Bool :=
  let shape (h : DmaShape) : Bool := decide (1 ≤ h.n0 ∧ 1 ≤ h.n1 ∧ h.n1 ≤ 2 ^ 24 ∧ 1 ≤ h.n2 ∧ h.n2 ≤ 2 ^ 24) &&
    decide (-(2 : Int) ^ 40 ≤ h.s1 ∧ h.s1 ≤ (2 : Int) ^ 40 ∧ -(2 : Int) ^ 40 ≤ h.s2 ∧ h.s2 ≤ (2 : Int) ^ 40)
  match d.cls, d.op with
  | .matmul, .none | .accum, .none | .mark, .none | .nop, .none => true
  | .vector, .vec (.table k) | .vector, .vec (.tableBwd k) => decide (k / 8 = n)
  | .vector, .vec _ => true
  | .row, .row _ _ _ => true
  | .dma, .dma m a b e =>
    (match m with
     | .linear => decide (1 ≤ a.n0 ∧ a.n0 ≤ 2 ^ 40)
     | .strided => shape a && shape b && decide (a.n0 ≤ 2 ^ 32 ∧ b.n0 ≤ 2 ^ 32) && a.n0 * a.n1 * a.n2 == b.n0 * b.n1 * b.n2
     | .prefetch => true
     | _ => decide (2 ≤ e ∧ e ≤ 4096 ∧ e % 2 = 0))
  | .collective, .coll k t =>
    decide (t < 1024) && (match k with
      | .shortReduce _ (some f) mb => decide (224 ≤ f ∧ f < 240 ∧ mb < 8)
      | .shortReduce _ none mb => decide (mb < 8)
      | _ => true)
  | .update, .norm a b => decide (a < 1024 ∧ b < 1024)
  | .update, .apply p h => decide (p < 16 ∧ h < 65536)
  | .huddle, .huddle sc k _ => decide (k < 65536) && (match sc with
      | .device qs => qs.all fun q => decide (q < 16)
      | _ => true)
  | _, _ => false

/-- A scatter-add's element is a multiple of its destination's format: FP32, BF16, FP16 or INT32 (R94, R172). -/
def addOk (d : Descriptor) (recs : Tbl TensorRec) : Bool :=
  match d.op, (d.t.getD 1 none).bind fun o => tfind recs o.handle with
  | .dma .scatterAdd _ _ e, some t => [Fmt.fp32, .bf16, .fp16, .int32].contains t.fmt && e % (Fmt.bits t.fmt / 8) == 0
  | _, _ => true

/-- Check 1: every field in its range, and absent or zero for a class that does not have it (R94). -/
def fieldsOk (n : Nat) (d : Descriptor) : Bool :=
  let mat := isMat d
  let flagOk (x : Option (Nat × Bool)) : Bool := match x with | some p => decide (p.1 < 256) | none => true
  opOk n d && d.t.length == 4 && (Descriptor.ops d).all (fun o => decide (o.handle < 65536)) &&
  (if mat then decide (1 ≤ d.splitK ∧ d.splitK ≤ 64) else d.splitK == 0 && d.accSet == 0 && !d.hold && !d.skipOcc && !d.skipZv && d.destTag.isNone &&
    d.shape == Shape.t1 && d.accFmt == AccFmt.fp32 && !d.valueSide) &&
  (d.cls == Cls.accum || !d.chain) &&
  (match d.counts with
   | some h => d.cls == Cls.matmul && decide (h < 65536 ∧ 1 ≤ d.groups ∧ d.groups ≤ 1024)
   | none => d.groups == 0) &&
  (match d.mask with
   | .none => true
   | .map h => mat && decide (h < 65536)
   | .causal o => mat && decide (-(2 : Int) ^ 31 ≤ o ∧ o < (2 : Int) ^ 31)) &&
  (!(d.ovfReport || d.stochastic) || mat || d.cls == Cls.vector || d.cls == Cls.row) &&
  (!d.occGen || !(d.cls == Cls.huddle || d.cls == Cls.mark || d.cls == Cls.nop)) &&
  (!(d.frozen || d.noDx) || d.cls == Cls.matmul) &&
  (match d.destTag with | some t => decide (t < 1024) | none => true) &&
  (!(d.cls == Cls.mark || d.cls == Cls.nop) || (Descriptor.ops d).isEmpty) &&
  d.waits.length == 4 && d.waits.all flagOk && flagOk d.set0 && flagOk d.set1 && flagOk d.pred &&
  decide (d.shot < 2 ^ 24) && decide (d.phase < 4096) &&
  (match d.send with
   | some x => (d.cls == Cls.vector || d.cls == Cls.update || d.cls == Cls.collective) && decide (1 ≤ x.len ∧ x.len ≤ 256 ∧ x.mbox < 8 ∧ x.squad < 64)
   | none => true) &&
  (match d.mbox with | some m => (d.cls == Cls.vector || d.cls == Cls.update) && decide (m < 8) | none => true)

/-- A record whose fields lie in their ranges of R95. -/
def TensorRec.ok (t : TensorRec) : Bool :=
  decide (1 ≤ t.dims.length ∧ t.dims.length ≤ 5) && t.dims.all (fun d => decide (1 ≤ d ∧ d ≤ 2 ^ 31)) &&
  decide (t.mxAxis ≤ 4 ∧ t.mapKDim ≤ 1) && t.statsBacking.all (fun a => decide (a < 2 ^ 48)) && (TensorRec.attach t).all (fun h => decide (h < 65536)) &&
  (t.skewed || (t.strides.length == t.dims.length && t.strides.headD 0 == 1 && t.strides.all fun x => decide (x < 2 ^ 40))) &&
  (!t.skewed || (match t.home with | .squad _ | .distributed => true | _ => false)) &&
  (match t.home with | .squad q => decide (q < 64 ∧ t.base < 2 ^ 24) | .distributed => decide (t.base < 2 ^ 24)
                     | .hbmLocal c => decide (c < 4 ∧ t.base < 2 ^ 48) | .hbmWide => decide (t.base < 2 ^ 48))

/-- Check 2: every handle names a populated record (R95). -/
def Ctx.handlesOk (c : Ctx) (d : Descriptor) : Bool :=
  (Descriptor.ops d).all (fun o => match c.operandRec o with
    | some t => TensorRec.ok t && (!writes o || t.skewed || !(t.strides.contains 0))
    | none => false) &&
  (c.sideHandles d).all fun h => (tfind c.tensors h).any TensorRec.ok

/-- Formats that the arrays accept (R32). -/
def arrayFmt (f : Fmt) : Bool := Fmt.isMx f || (match f with
  | .fp8e4m3 | .fp8e5m2 | .bf16 | .fp16 | .int8 | .fp32 => true
  | _ => false)

def isFp8 (f : Fmt) : Bool := f == Fmt.fp8e4m3 || f == Fmt.fp8e5m2

/-- Formats that may meet in a product (R33). -/
def fmtPair (a b : Fmt) : Bool := arrayFmt a && (a == b || (isFp8 a && isFp8 b) || (Fmt.isMx a && Fmt.mxFamily a == Fmt.mxFamily b))

/-- The two kinds of operand of R72. -/
def operandKind (t : TensorRec) : Bool := match t.home with
  | .squad _ | .distributed => t.skewed
  | _ => !t.skewed

/-- M, N and K of a matrix operation. -/
def matDims (d : Descriptor) (recs : Tbl TensorRec) : Option (Nat × Nat × Nat) :=
  match d.t.getD 0 none, d.t.getD 1 none with
  | some ao, some bo => match tfind recs ao.handle, tfind recs bo.handle with
    | some a, some b => some (operandLen ao a, operandLen bo b, operandK ao a)
    | _, _ => none
  | _, _ => none

/-- K runs along MX_AXIS (R78). -/
def mxAlongK (o : Operand) (t : TensorRec) : Bool := !Fmt.isMx t.fmt || t.mxAxis == (if o.col then 0 else 1)

/-- Check 3: formats and shape agree with R27, R33, R45 and R72. -/
def shapeOk (d : Descriptor) (recs : Tbl TensorRec) : Bool :=
  if !isMat d then true
  else match d.t.getD 0 none, d.t.getD 1 none, d.t.getD 2 none with
    | some ao, some bo, some co =>
      (match tfind recs ao.handle, tfind recs bo.handle, tfind recs co.handle with
       | some a, some b, some c =>
         let k := operandK ao a
         fmtPair a.fmt b.fmt && (decide (a.fmt = .int8) == decide (d.accFmt = .int32)) && !(slotSets d.shape d.accFmt).isEmpty &&
           (d.splitK == 1 || d.accFmt == AccFmt.fp32) && k == operandK bo b && (!Fmt.isMx a.fmt || k % 32 == 0) &&
           (!patAlongK bo b || k % 4 == 0) && operandKind a && operandKind b && mxAlongK ao a && mxAlongK bo b &&
           denseRows c == operandLen ao a && TensorRec.dim c 0 == operandLen bo b &&
           (d.counts.isNone || TensorRec.dim b 2 == d.groups) &&
           (d.destTag.isNone || c.fmt == Fmt.bf16 || c.fmt == Fmt.fp32)
       | _, _, _ => true)
    | _, _, _ => true

/-- Check 4: ACC_SET is a union of slot sets of the shape (R27, R94). -/
def accSetOk (d : Descriptor) : Bool :=
  if !isMat d then true
  else
    let sets := (slotSets d.shape d.accFmt).map fun l => l.flatMap (slotBits d.accFmt)
    let use := sets.filter fun l => l.all fun b => d.accSet.getLsbD b
    !use.isEmpty && (List.range 8).all fun b => !d.accSet.getLsbD b || use.any fun l => l.contains b

/-- Check 5: SET names no flag from 240 to 255. -/
def setsOk (d : Descriptor) : Bool :=
  let ok (x : Option (Nat × Bool)) : Bool := match x with | some p => decide (p.1 < 240) | none => true
  ok d.set0 && ok d.set1

/-- The tile grid of a matrix operation: tiles along M and N (R27, R105). -/
def tileGrid (d : Descriptor) (recs : Tbl TensorRec) : Option (Nat × Nat) :=
  (matDims d recs).map fun x => (ceilDiv x.1 (tileRows d.shape), ceilDiv x.2.1 (tileCols d.shape))

/-- R105 accepts d as the continuation of p. -/
def continues (p : Descriptor) (precs : Tbl TensorRec) (d : Descriptor) (recs : Tbl TensorRec) : Bool :=
  p.hold && d.cls == Cls.accum && d.chain && p.shape == d.shape && p.accFmt == d.accFmt && p.splitK == d.splitK &&
    decide (tileGrid p precs = tileGrid d recs)

/-- The flight at the queue index before i in a queue. -/
def Ctx.before (c : Ctx) (q i : Nat) : Option Flight :=
  let n := 2 ^ (c.queue q).log2
  c.flight.find? fun f => f.queue == q && f.qindex == (i + n - 1) % n && f.phase == Phase.issued && f.desc.hold

/-- Length of the chain that ends with the flight at index i - 1. -/
def Ctx.chainBack (c : Ctx) (q : Nat) : Nat → Nat → Nat
  | 0, _ => 0
  | k + 1, i => match c.before q i with
    | none => 0
    | some f => 1 + (if f.desc.chain then c.chainBack q k f.qindex else 0)

/-- Check 6: a chained ACCUM continues the descriptor before it, within 8 (R105, R106). -/
def Ctx.chainOk (c : Ctx) (q i : Nat) (d : Descriptor) (recs : Tbl TensorRec) : Bool :=
  if !d.chain then true
  else match c.before q i with
    | none => false
    | some p => continues p.desc p.recs d recs && decide (c.chainBack q 9 i + 1 ≤ 8)

/-- Check 8: every MX tensor names a SCALE_TABLE (R33). -/
def Ctx.scalesOk (c : Ctx) (d : Descriptor) : Bool :=
  (Descriptor.ops d).all fun o => match c.operandRec o with
    | some t => !Fmt.isMx t.fmt || t.scaleTable.isSome
    | none => true

/-- Roles of the four positions (R389). -/
def roleIs (d : Descriptor) (l : List (Option Role)) : Bool :=
  (d.t.map fun x => x.map (·.role)) == l

/-- Check 9: positions and roles of R389 (log 34 for the records that Gliari's OP assigns). -/
def Ctx.rolesOk (c : Ctx) (d : Descriptor) : Bool :=
  let r : Option Role := some .read
  let w : Option Role := some .write
  (match d.op with
   | .none => if isMat d then roleIs d [r, r, w, none] else true
   | .vec (.table _) => roleIs d [r, none, w, none]
   | .vec (.tableBwd _) => roleIs d [r, r, w, none]
   | .vec .cast => roleIs d [r, none, w, none]
   | .vec .sel | .vec .useSum => (match d.t with
       | [some a, _, some b, some e] => a.role == .read && (if (match d.op with | .vec .sel => true | _ => false) then b.role == .write && e.role == .read else e.role == .write)
       | _ => false)
   | .vec _ => roleIs d [r, r, w, none] || (d.mbox.isSome && roleIs d [r, none, w, none])
   | .row _ false _ => (match d.t with
       | [some a, _, some b, none] => a.role == .read && b.role == .write
       | _ => false)
   | .row _ true _ => (match d.t with
       | [some a, some b, some e, _] => a.role == .read && b.role == .read && e.role == .write
       | _ => false)
   | .dma .linear _ _ _ | .dma .strided _ _ _ => roleIs d [r, w, none, none]
   | .dma .gather _ _ _ | .dma .scatter _ _ _ => roleIs d [r, w, r, none]
   | .dma .scatterAdd _ _ _ => roleIs d [r, some .readWrite, r, none]
   | .dma .prefetch _ _ _ => roleIs d [r, none, none, none]
   | _ => true) &&
  (Descriptor.ops d).all fun o => !(writes o && c.isPair o.handle) || (match d.op with | .apply _ _ => true | _ => false)

/-- The descriptor behind the head. -/
def Queue.second (q : Queue) : Option Descriptor := (q.queued)[1]?

/-- Check 10: HOLD is followed by its chained ACCUM, within a chain of 8; the follower is looked at once it is queued (R106). -/
def Ctx.holdOk (c : Ctx) (q i : Nat) (d : Descriptor) (recs : Tbl TensorRec) : Bool :=
  if !d.hold then true
  else match (c.queue q).second with
    | none => true
    | some e => continues d recs e (c.recsOf e) && decide ((if d.chain then c.chainBack q 9 i else 0) + 2 ≤ 8)

/-- The first failing check of R110, numbered from 1; check 7 is made when the counts are read. -/
def State.firstFail (s : State) (n q : Nat) (d : Descriptor) : Option Nat :=
  let c := s.ctx n
  let i := (c.queue q).head
  let recs := c.recsOf d
  if !fieldsOk n d || !addOk d recs then some 1
  else if !c.handlesOk d then some 2
  else if !shapeOk d recs then some 3
  else if !accSetOk d then some 4
  else if !setsOk d then some 5
  else if !c.chainOk q i d recs then some 6
  else if !c.scalesOk d then some 8
  else if !c.rolesOk d then some 9
  else if !c.holdOk q i d recs then some 10
  else if 32 < (s.footprint n d).length then some 11
  else none

/-! ## The journal (R288) -/

def journaled (f : Flight) : Bool := f.desc.cls != Cls.mark && f.desc.cls != Cls.nop
/-- JRN_USED of a context. -/
def Ctx.journal (c : Ctx) : Nat := (c.flight.filter journaled).length
/-- URGENT_RES of a channel. -/
def State.urgentRes (s : State) (c : Nat) : Nat := capTo 1024 (bits (s.rg (pgJRN c + 0x100)) 10 0)
/-- One entry is free in each of the four channels. -/
def State.journalFree (s : State) (n : Nat) : Bool :=
  let a := s.ctx0.journal
  let b := s.ctx1.journal
  (List.range 4).all fun c => decide (a + b < 1024) && (n != 0 || decide (a < 1024 - s.urgentRes c))

/-- Scoreboard entries that a context holds. -/
def Ctx.sbUsed (c : Ctx) : Nat := (c.flight.map fun f => f.fp.length).foldl (· + ·) 0

/-- NBT has passed (R99). -/
def State.nbtDone (s : State) (t : W64) : Bool := t == 0 || (s.clk.known && decide (t.toNat ≤ s.clk.st.toNat))

/-- A descriptor that passes every check and finds its entries free becomes Admitted: its copy, its footprint, its journal entry;
its shot clock starts and its waits are evaluated (R91, R96, R98, R100, R102, R288, R289). -/
def State.admitHead (s : State) (n q : Nat) (d : Descriptor) : State :=
  let c := s.ctx n
  let f : Flight :=
    { seq := s.flightSeq, queue := q, qindex := (c.queue q).head, desc := d, recs := c.recsOf d, fp := s.footprint n d,
      phase := .admitted, latched := [false, false, false, false], nbtPassed := s.nbtDone d.nbt, shotNs := 0, predOk := true,
      issueSt := 0, issueKnown := false, issueA := 0, issueExp := 0, copyMode := false, items := 0, itemsDone := 0, commitMap := [],
      replays := 0, replayed := false, faulted := [], nonfinite := [], mxPend := [], overflow := false, expired := false, doneLatched := false,
      arrived := false, stopWord := [], rowsOf := [], sent := none, epoch := 0 }
  { (s.modCtx n fun c => { c with flight := c.flight ++ [f.latch c.flags] }) with flightSeq := s.flightSeq + 1 }

/-- A descriptor of the queue is admitted and not issued: it is the head (R91). -/
def Ctx.headFlight (c : Ctx) (q : Nat) : Option Flight :=
  c.flight.find? fun f => f.queue == q && (f.phase == Phase.admitted || f.phase == Phase.ready)

/-- The queue's head may be taken up: the context is started and not lost, the queue is not halted and not empty (R93). -/
def State.admitting (s : State) (n q : Nat) : Bool :=
  let c := s.ctx n
  s.up && c.started && !c.lost && (c.queue q).halt == Halt.none && decide (0 < (c.queue q).count) && (c.headFlight q).isNone

/-- DESCRIPTOR_ADMIT (R91, R93, R102, R106, R110, R288). -/
def execDescriptorAdmit (n q : Nat) (s : State) : Res :=
  if !s.admitting n q then .next s
  else match tfind ((s.ctx n).queue q).ring ((s.ctx n).queue q).head with
    | none => .next s
    | some d =>
      match s.firstFail n q d with
      | some k => .next (s.sanityFault n q ((s.ctx n).queue q).head k)
      | none =>
        if d.hold && decide (((s.ctx n).queue q).count < 2) then .next s
        else if 512 < (s.ctx n).sbUsed + (s.footprint n d).length then .next s
        else if (d.cls != Cls.mark && d.cls != Cls.nop) && !s.journalFree n then .next s
        else .next (s.admitHead n q d)

end Sys2Proof.Machine
end

