-- ==== Sys2Proof/Machine/Dma.lean ====
section
/-! DEFINITION. DMA channels: assignment, modes, bursts, index tables, status words, ordering reads
(R66, R77, R171 to R178, R296, R340, R352). -/

namespace Sys2Proof.Machine

/-! ## The registers of a channel (R340) -/

def State.rg64 (s : State) (a : Nat) : Nat := s.rg a + 2 ^ 32 * s.rg (a + 4)
def State.setRg64 (s : State) (a v : Nat) : State := (s.setRg a (v % 2 ^ 32)).setRg (a + 4) (v / 2 ^ 32 % 2 ^ 32)

def State.dma (s : State) (c d : Nat) : Dma := (s.chan c).dmaCh d
def State.modDma (s : State) (c d : Nat) (f : Dma → Dma) : State := s.modChan c fun h => h.setDma d (f (h.dmaCh d))
/-- OWNER: the channel is host-owned (R171). -/
def State.hostOwned (s : State) (c d : Nat) : Bool := s.bit (pgDMACH c d + 8) 3

/-- Signed 64-bit value of a register pair. -/
def State.rgInt (s : State) (a : Nat) : Int := (BitVec.ofNat 64 (s.rg64 a)).toInt

/-- A side's shape as registers hold it. -/
def State.rgShape (s : State) (a : Nat) : DmaShape :=
  { n0 := s.rg a + 2 ^ 32 * (s.rg (a + 0xC) % 512), n1 := s.rg (a + 4) % 2 ^ 25, n2 := s.rg (a + 8) % 2 ^ 25, s1 := s.rgInt (a + 0x10), s2 := s.rgInt (a + 0x18) }

def modeOf : Nat → Option DmaMode
  | 0 => some .linear | 1 => some .strided | 2 => some .gather | 3 => some .scatter | 4 => some .scatterAdd | _ => none
def modeCode : DmaMode → Nat
  | .linear => 0 | .strided => 1 | .gather => 2 | .scatter => 3 | .scatterAdd => 4 | .prefetch => 5
def addFmtOf : Nat → Fmt
  | 0 => .fp32 | 1 => .bf16 | 2 => .fp16 | _ => .int32

def isIndex (m : DmaMode) : Bool := m == DmaMode.gather || m == DmaMode.scatter || m == DmaMode.scatterAdd

/-! ## Positions -/

def shapeBytes (h : DmaShape) : Nat := h.n0 * h.n1 * h.n2
/-- Bytes of the whole transfer, holes included. -/
def Xfer.total (x : Xfer) : Nat := match x.mode with
  | .linear => x.srcShape.n0
  | .strided => shapeBytes x.srcShape
  | _ => x.count * x.elem
/-- Bytes that have been moved. -/
def Xfer.pos (x : Xfer) : Nat := if isIndex x.mode then x.done * x.elem + x.eoff else x.done
/-- Set the position from bytes. -/
def Xfer.goto (x : Xfer) (p : Nat) : Xfer :=
  if isIndex x.mode then { x with done := p / max 1 x.elem, eoff := p % max 1 x.elem } else { x with done := p }

/-- Where byte k of a side lies from the side's base (R172). -/
def Xfer.at_ (x : Xfer) (src : Bool) (k : Nat) : Int :=
  let h := if src then x.srcShape else x.dstShape
  match x.mode with
  | .strided => (k % max 1 h.n0 : Nat) + (k / max 1 h.n0 % max 1 h.n1 : Nat) * h.s1 + (k / max 1 (h.n0 * h.n1) : Nat) * h.s2
  | _ => (k : Int)

/-- The address of byte k of a side, as an engine forms it in 64 bits. -/
def Xfer.addr (x : Xfer) (src : Bool) (k : Nat) : Nat :=
  (((if src then x.src else x.dst).toNat + x.at_ src k) % (2 : Int) ^ 64).toNat

/-- Where a side lies: host memory, virtual space with the home it requires, a squad store, or a tensor that is converted (R77). -/
inductive Side where
  | host | virt (home : Option Nat) | store (sq : Nat) | tensor (t : TensorRec)
deriving DecidableEq, Repr

/-- The flight of a dispatcher-owned transfer. -/
def State.xferFlight (s : State) (x : Xfer) : Option Flight := x.seq.bind fun q => (s.ctx x.ctx).fl q

/-- The side of operand i: 0 source, 1 destination, 2 table. -/
def State.side (s : State) (x : Xfer) (i : Nat) : Side :=
  if (i == 0 && x.srcHost) || (i == 1 && x.dstHost) then .host
  else match (s.xferFlight x).bind (·.operand i) with
    | some (_, t) =>
      (match t.home with
       | .squad q => if t.skewed then .tensor t else .store q
       | .distributed => .tensor t
       | h => .virt (Home.space h))
    | none => .virt none

/-- Bytes of a side, in a run of its shape; a converted tensor is counted along its row-major bytes (R77). -/
def State.sideRead (s : State) (x : Xfer) (i k n : Nat) (host : List Byte) : Sum Fail (List Byte) :=
  match s.side x i with
  | .host => .inr (padTo n host)
  | .virt h => s.readRun x.ctx h (x.addr (i == 0)) k n
  | .store q => .inr (cellRead s.store (storeKey q (x.addr (i == 0) k)) n)
  | .tensor t => match s.streamRead x.ctx t (x.at_ (i == 0) k).toNat n with
    | some l => .inr l
    | none => .inl ((s.streamFail x.ctx t false (x.at_ (i == 0) k).toNat n).getD { ftype := 0, level := 0, va := 0, data := true })

/-- Write bytes to the destination. -/
def State.sideWrite (s : State) (x : Xfer) (k : Nat) (l : List Byte) : State :=
  match s.side x 1 with
  | .host => s.emit (.hostWrite (BitVec.ofNat 64 (x.addr false k)) l)
  | .virt h => ((List.range l.length).zip l).foldl (fun (t : State) p => t.vwrite x.ctx h (x.addr false (k + p.1)) [p.2]) s
  | .store q => s.storeWrite q (x.addr false k) l
  | .tensor t => s.streamWrite x.ctx t (x.at_ false k).toNat l

/-- The places of bytes of the destination that lie in stacked memory. -/
def State.dstPlaces (s : State) (x : Xfer) (k n : Nat) : List (Nat × Nat) :=
  match s.side x 1 with
  | .virt h => s.places x.ctx h (fun i => x.addr false (k + i)) n
  | _ => []

/-- Some page of virtual bytes lo to hi - 1 holds one of the bytes off to off + len - 1 of a space. -/
def State.mapsInto (s : State) (n space off len : Nat) : Nat → Nat → Nat → Bool
  | 0, _, _ => false
  | k + 1, lo, hi =>
    if hi ≤ lo then false
    else match s.walk n lo with
      | .leaf sp base lg _ _ _ _ =>
        let o := lo % 2 ^ lg
        (sp == space && decide (base + o < off + len ∧ off < base + min (2 ^ lg) (o + (hi - lo)))) || s.mapsInto n space off len k (lo + (2 ^ lg - o)) hi
      | .fault _ _ => s.mapsInto n space off len k (lo / 65536 * 65536 + 65536) hi

/-- A tensor of a context lies in bytes of a space. -/
def State.tensorHit (s : State) (n space off len : Nat) (t : TensorRec) : Bool :=
  match t.home with
  | .hbmLocal _ | .hbmWide => let r := s.tensorRange t; s.mapsInto n space off len ((r.2 - r.1) / 65536 + 2) r.1 r.2
  | _ => false

/-- An element of a tensor lies in one of these places and holds no finite value. -/
def State.badIn (s : State) (n : Nat) (t : TensorRec) (pl : List (Nat × Nat)) : Bool :=
  (List.range (TensorRec.size t)).any fun i =>
    (s.elemPlaces n t (unlinear t.dims i)).any pl.contains && codeNonFinite t.fmt ((s.getCode n t (unlinear t.dims i)).getD 0)

/-- Every byte of a tensor lies in these places. -/
def State.allIn (s : State) (n : Nat) (t : TensorRec) (pl : List (Nat × Nat)) : Bool :=
  (List.range (TensorRec.size t)).all fun i =>
    let l := s.elemPlaces n t (unlinear t.dims i)
    !l.isEmpty && l.all pl.contains

/-- A host-owned transfer has written places: the tensors that lie there lose MAP_VALID, and NF_STATE follows what was written; all is whether
these are all the places of the transfer (R53, R55). -/
def State.hostDmaTouched (s : State) (pl : List (Nat × Nat)) (all : Bool) : State :=
  let f (n : Nat) (c : Ctx) : Ctx := { c with tensors := c.tensors.map fun e =>
    if ((burstsAt pl).any fun b => s.tensorHit n b.1 b.2 64 e.2) then
      (e.1, { e.2 with mapValid := false
                       nf := if s.badIn n e.2 pl then .nonfinite else if all && s.allIn n e.2 pl then .clean else e.2.nf })
    else e }
  (s.modCtx 0 (f 0)).modCtx 1 (f 1)

/-- Entry e of the index table (R173). -/
def State.tableAt (s : State) (x : Xfer) (e : Nat) : Sum Fail Nat :=
  let w := if x.tblW64 then 8 else 4
  match s.side x 2 with
  | .store q => .inr (leNat (s.storeRead q (x.tbl.toNat + e * w) w))
  | .tensor t => .inr ((s.getCode x.ctx t (unlinear t.dims e)).getD 0)
  | .virt h => (match s.readRun x.ctx h (fun k => (x.tbl.toNat + e * w + k) % 2 ^ 64) 0 w with
    | .inl f => .inl f
    | .inr l => .inr (leNat l))
  | .host => .inr 0

/-! ## The next burst (R174) -/

inductive NextBurst where
  | fail (f : Fail) (src dst : Bool)
  | index
  | hole
  | move (dstK : Nat) (parts : List (Nat × Option Nat))
deriving DecidableEq, Repr

/-- Bytes of one sum of a scatter-add. -/
def Xfer.addBytes (x : Xfer) : Nat := Fmt.bits x.addFmt / 8

/-- The length of a burst: to the next 512-byte boundary of the destination and inside a contiguous run (R174). -/
def State.burstLen (s : State) (x : Xfer) (dstK run : Nat) : Nat :=
  let a := match s.side x 1 with | .tensor _ => (x.at_ false dstK).toNat | _ => x.addr false dstK
  let b := 512 - a % 512
  let b := if x.mode = .scatterAdd then max (x.addBytes) (b / max 1 x.addBytes * x.addBytes) else b
  min run b

/-- An entry of the table is a hole (R173). -/
def Xfer.isHole (x : Xfer) (e : Nat) : Bool := if x.tblW64 then e == 2 ^ 64 - 1 else e == 2 ^ 32 - 1

/-- The runs of the source that n bytes of a strided transfer come from: length and place. -/
def Xfer.runs (x : Xfer) : Nat → Nat → Nat → List (Nat × Option Nat)
  | 0, _, _ => []
  | fuel + 1, k, n =>
    if n = 0 then []
    else
      let l := min n (x.srcShape.n0 - k % max 1 x.srcShape.n0)
      (max 1 l, some k) :: x.runs fuel (k + max 1 l) (n - max 1 l)

/-- The parts of n bytes of a gather from its position on: of each entry the bytes of its element, zeros for a hole; an entry that cannot be read
or lies beyond the indexed side ends the burst before it. -/
def State.gathered (s : State) (x : Xfer) : Nat → Nat → Nat → List (Nat × Option Nat)
  | 0, _, _ => []
  | fuel + 1, p, n =>
    if n = 0 ∨ x.total ≤ p then []
    else match s.tableAt x (p / max 1 x.elem) with
      | .inl _ => []
      | .inr e =>
        let l := max 1 (min n (x.elem - p % max 1 x.elem))
        if x.isHole e then (l, none) :: s.gathered x fuel (p + l) (n - l)
        else if x.limit ≤ e then [] else (l, some (e * x.elem + p % max 1 x.elem)) :: s.gathered x fuel (p + l) (n - l)

/-- The next burst: its place in the destination and its parts of the source (R174). -/
def State.nextBurst (s : State) (x : Xfer) : NextBurst :=
  match x.mode with
  | .linear => .move x.done [(s.burstLen x x.done (x.total - x.done), some x.done)]
  | .strided => .move x.done (x.runs 513 x.done (s.burstLen x x.done (x.dstShape.n0 - x.done % max 1 x.dstShape.n0)))
  | _ =>
    match s.tableAt x x.done with
    | .inl f => .fail f (x.mode == DmaMode.gather) (x.mode != DmaMode.gather)
    | .inr e =>
      let far := e * x.elem + x.eoff
      if !x.isHole e && decide (x.limit ≤ e) then .index
      else if x.mode = .gather then .move x.pos (s.gathered x 513 x.pos (s.burstLen x x.pos (x.total - x.pos)))
      else if x.isHole e then .hole else .move far [(s.burstLen x far (x.elem - x.eoff), some x.pos)]

/-- dst + src for one sum of a scatter-add (R66); an INT32 sum wraps modulo 2^32 (DESIGN CHOICE, log 52). -/
def addCode (f : Fmt) (a b : Nat) : Nat :=
  match f with
  | .int32 => (BitVec.ofNat 32 a + BitVec.ofNat 32 b).toNat
  | .fp32 => (fAdd (BitVec.ofNat 32 a) (BitVec.ofNat 32 b)).toNat
  | g => (castElem g none true false (addNum (Fmt.fp g).1 (decodeElem g a) (decodeElem g b))).1

def addRun2 (f : Fmt) (w : Nat) : Nat → List Byte → List Byte → List Byte
  | 0, _, _ => []
  | n + 1, a, b => leBytes w (addCode f (leNat (a.take w)) (leNat (b.take w))) ++ addRun2 f w n (a.drop w) (b.drop w)

/-! ## Status words (R177) -/

/-- TAG: the host's tag, or the descriptor's queue index and queue (DEDUCED, log 35). -/
def State.dmaTag (s : State) (x : Xfer) : Nat :=
  match s.xferFlight x with
  | some f => f.qindex + 2 ^ 24 * f.queue
  | none => x.tag

/-- The residue: bytes or entries left from the committed position. -/
def Xfer.residue (x : Xfer) : Nat := if isIndex x.mode then x.count - x.done else x.total - x.done

/-- The 32 bytes. -/
def statusWord (tag state flags ftype : Nat) (x : Xfer) (va : Nat) : List Byte :=
  leBytes 4 tag ++ leBytes 1 state ++ leBytes 1 (modeCode x.mode) ++ leBytes 1 flags ++ leBytes 1 ftype ++ leBytes 8 x.residue ++
    leBytes 4 (if isIndex x.mode then x.done else 0) ++ leBytes 2 (if isIndex x.mode then x.eoff else 0) ++ [0#8, 0#8] ++ leBytes 8 va

/-- Signal on a channel: bit 0 DONE, bit 1 STOP; a host-owned channel always raises its vector (R175, R349). -/
def State.dmaSignal (s : State) (c d bit : Nat) : State :=
  let p := pgDMACH c d
  if s.hostOwned c d then (s.setRg (p + 0x18) (orBit (s.rg (p + 0x18)) bit)).raise (c * 32 + d) else s.event p bit (c * 32 + d)

/-- Write a status word: into host memory or into the journal entry, mirrored in the page (R177). -/
def State.putStatus (s : State) (c d : Nat) (x : Xfer) (w : List Byte) : State :=
  let t := s.modDma c d fun k => { k with sw := w }
  match x.seq with
  | some q => t.modFlight x.ctx q fun f => { f with stopWord := w }
  | none => t.emit (.hostWrite x.statusAddr w)

/-- The position that counts as committed: for a host destination what an ordering read has covered, but for a scatter-add, which never writes
past its residue, every sum that it has sent (R174, R350, R352). -/
def Xfer.committed (x : Xfer) : Xfer := if x.dstHost && x.mode != DmaMode.scatterAdd then x.goto x.ordered else x

/-- A channel stops with a residue: state code, flags beside bit 0, fault type, address. -/
def State.dmaStop (s : State) (c d : Nat) (x : Xfer) (state flags ftype va : Nat) : State :=
  let y := x.committed
  let w := statusWord (s.dmaTag x) state (flags ||| 1) ftype y va
  let t := s.modDma c d fun k => { k with state := 2, xfer := some y, restartable := flags / 8 % 2 == 1 }
  let t := t.putStatus c d y w
  if state = 2 ∨ state = 3 ∨ state = 4 then t.log c 0x2401 0 0 0x11 (c * 32 + d) w else t

/-- The lowest-numbered idle dispatcher-owned channel (R171). -/
def State.idleDma (s : State) (c : Nat) : Option Nat :=
  (List.range 32).find? fun d => (s.dma c d).state == 0 && !(s.dma c d).disabled && !s.hostOwned c d

/-- A transfer that a disabled channel left behind goes on from its residue on an idle channel (R294). -/
def State.rescueDma (s : State) (c : Nat) : State :=
  match (List.range 32).find? (fun d => (s.dma c d).disabled && (s.dma c d).state == 2 && (s.dma c d).restartable && ((s.dma c d).xfer.bind (·.seq)).isSome), s.idleDma c with
  | some d, some e =>
    let x := (s.dma c d).xfer
    (s.modDma c d fun k => { k with state := 0, xfer := none, restartable := false }).modDma c e fun k => { k with state := 1, xfer := x, restartable := false, faults := 0 }
  | _, _ => s

/-- A transfer is complete (R175). -/
def State.dmaDone (s : State) (c d : Nat) (x : Xfer) : State :=
  let t := s.modDma c d fun k => { k with state := 0, xfer := none, restartable := false }
  let t := t.putStatus c d x (statusWord (s.dmaTag x) 0 0 0 x 0)
  let t := match x.seq with
    | some q =>
      let t := t.modFlight x.ctx q fun f => { f with doneLatched := true }
      (match s.side x 1 with
       | .tensor r => if r.skewed then t.edgeFill x.ctx r else t
       | _ => t)
    | none => t.hostDmaTouched (t.dstPlaces x 0 x.total) true
  (t.dmaSignal c d 0).rescueDma c

/-! ## Starting a transfer -/

/-- The channel that holds a tensor, if it lies in one (R171). -/
def homeChan : Home → Option Nat
  | .hbmLocal c => some c
  | .squad q => some (q / 16)
  | _ => none

/-- The channel of a DMA descriptor (R171). -/
def dmaChanOf (f : Flight) : Nat :=
  let h (i : Nat) : Option Nat := (f.operand i).bind fun p => homeChan p.2.home
  (((h 1).orElse fun _ => h 0).getD (f.queue % 4))

/-- The transfer of a DMA descriptor. -/
def Flight.xfer (n : Nat) (f : Flight) : Option Xfer :=
  match f.desc.op, f.operand 0, f.operand 1 with
  | .dma m a b e, some (_, ts), some (_, td) =>
    let tb := (f.operand 2).map (·.2)
    let idx := if m = .gather then ts else td
    some { ctx := n, seq := some f.seq, mode := m, addFmt := td.fmt, srcHost := false, dstHost := false, src := BitVec.ofNat 64 ts.base,
           dst := BitVec.ofNat 64 td.base, srcShape := a, dstShape := b,
           tbl := (match tb with | some t => BitVec.ofNat 64 t.base | none => 0), tblW64 := (match tb with | some t => t.fmt == Fmt.uint64 | none => false),
           count := (match tb with | some t => TensorRec.size t | none => 0), elem := e, limit := TensorRec.streamLen idx / max 1 e, done := 0, eoff := 0, ordered := 0,
           tag := 0, statusAddr := 0 }
  | _, _, _ => none

/-- Start a DMA descriptor on a channel (R171); PREFETCH uses none. -/
def State.startDma (s : State) (n : Nat) (f : Flight) : State :=
  match Flight.xfer n f, s.idleDma (dmaChanOf f) with
  | some x, some d => s.modDma (dmaChanOf f) d fun k => { k with state := 1, xfer := some x, restartable := false, faults := 0 }
  | _, _ => s

/-- The transfer that the registers of a host-owned channel describe. -/
def State.hostXfer (s : State) (c d : Nat) (m : DmaMode) : Xfer :=
  let p := pgDMACH c d
  let v := s.rg (p + 8)
  { ctx := bits v 4 4, seq := none, mode := m, addFmt := addFmtOf (bits v 13 12), srcHost := bits v 14 14 == 1, dstHost := bits v 15 15 == 1,
    src := BitVec.ofNat 64 (s.rg64 (p + 0x100)), dst := BitVec.ofNat 64 (s.rg64 (p + 0x108)), srcShape := s.rgShape (p + 0x120),
    dstShape := s.rgShape (p + 0x140), tbl := BitVec.ofNat 64 (s.rg64 (p + 0x160)), tblW64 := bits v 16 16 == 1, count := s.rg (p + 0x168),
    elem := s.rg (p + 0x16C) % 2 ^ 13, limit := 2 ^ 64, done := 0, eoff := 0, ordered := 0,
    tag := s.rg (p + 0x170), statusAddr := BitVec.ofNat 64 (s.rg64 (p + 0x178)) }

/-- What is wrong with the fields of a START: state and fault type (R172, R173, R340). -/
def Xfer.bad (x : Xfer) : Option (Nat × Nat) :=
  let sh (h : DmaShape) : Bool := decide (1 ≤ h.n0 ∧ h.n0 ≤ 2 ^ 32 ∧ 1 ≤ h.n1 ∧ h.n1 ≤ 2 ^ 24 ∧ 1 ≤ h.n2 ∧ h.n2 ≤ 2 ^ 24) &&
    decide (-(2 : Int) ^ 40 ≤ h.s1 ∧ h.s1 ≤ (2 : Int) ^ 40 ∧ -(2 : Int) ^ 40 ≤ h.s2 ∧ h.s2 ≤ (2 : Int) ^ 40)
  match x.mode with
  | .linear => if 1 ≤ x.srcShape.n0 ∧ x.srcShape.n0 ≤ 2 ^ 40 then none else some (2, 5)
  | .strided => if sh x.srcShape && sh x.dstShape && shapeBytes x.srcShape == shapeBytes x.dstShape then none else some (2, 5)
  | .prefetch => some (2, 5)
  | m => if x.count = 0 then some (3, 0)
         else if 2 ≤ x.elem ∧ x.elem ≤ 4096 ∧ x.elem % 2 = 0 ∧ (m ≠ .scatterAdd ∨ x.elem % x.addBytes = 0) then none else some (2, 5)

/-- A START that is refused by its fields completes at once (R340). -/
def State.dmaReject (s : State) (c d : Nat) (x : Xfer) (b : Nat × Nat) : State :=
  let w := statusWord (s.dmaTag x) b.1 0 b.2 x 0
  ((s.putStatus c d x w).log c 0x2401 0 0 0x11 (c * 32 + d) w).dmaSignal c d 1

/-- DMA_START (R171, R172, R340). -/
def execDmaStart (c d : Nat) (s : State) : Res :=
  let p := pgDMACH c d
  if !s.chanUp c then .next s
  else if !s.hostOwned c d || (s.dma c d).state == 1 || (s.dma c d).disabled then .next (s.badCommand p)
  else match modeOf (bits (s.rg (p + 8)) 10 8) with
    | none => .next (s.dmaReject c d (s.hostXfer c d .prefetch) (2, 5))
    | some m =>
      match (s.hostXfer c d m).bad with
      | some b => .next (s.dmaReject c d (s.hostXfer c d m) b)
      | none => .next (s.modDma c d fun k => { k with state := 1, xfer := some (s.hostXfer c d m), restartable := false, faults := 0 })

/-- DMA_ABORT (R176, R340). -/
def execDmaAbort (c d : Nat) (s : State) : Res :=
  if !s.chanUp c then .next s
  else if !s.hostOwned c d then .next (s.badCommand (pgDMACH c d))
  else match (s.dma c d).state, (s.dma c d).xfer with
    | 1, some x => .next ((s.dmaStop c d x 1 8 0 0).dmaSignal c d 1)
    | _, _ => .next s

/-- DMA_RESUME (R178, R340). -/
def execDmaResume (c d : Nat) (s : State) : Res :=
  if !s.chanUp c then .next s
  else if !s.hostOwned c d || (s.dma c d).state == 1 || !(s.dma c d).restartable then .next (s.badCommand (pgDMACH c d))
  else .next (s.modDma c d fun k => { k with state := 1, restartable := false })

/-! ## Bursts (R173, R174) -/

/-- A fault of a transfer (R168, R178, R296). -/
def State.dmaFault (s : State) (c d : Nat) (x : Xfer) (f : Fail) (src dst write : Bool) : State :=
  let t := s.dmaStop c d x (if f.data then 4 else 2) (8 + 2 * b2n src + 4 * b2n dst) (if f.data then 0 else f.ftype) f.va
  match x.seq with
  | none => t.dmaSignal c d 1
  | some q =>
    let que := match s.xferFlight x with | some g => g.queue | none => 0
    let t := (t.modFlight x.ctx q fun g => { g with phase := .stopped }).dmaSignal c d 1
    if f.data then t.suspend x.ctx c
    else t.transFault x.ctx { va := BitVec.ofNat 64 f.va, ftype := f.ftype, srcType := 0x11, srcInst := c * 32 + d, write := write, level := f.level, queue := que, chan := c }

/-- A translation that fails for a running DMA channel: it is FAULTED; a host-owned one stops alone (R168, R178). -/
def State.chanFault (s : State) (c d : Nat) (va : W64) (write : Bool) (ftype level : Nat) : State :=
  match (s.dma c d).state, (s.dma c d).xfer with
  | 1, some x => s.dmaFault c d x { ftype := ftype, level := level, va := va.toNat, data := false } (!write) write write
  | _, _ => s

/-- A translation that fails for an engine with a source type: a DMA channel's own fault, else the context's (R168, R178). -/
def State.walkFail (s : State) (n q st si : Nat) (va : W64) (write : Bool) (ftype level ch : Nat) : State :=
  if st = 0x11 then s.chanFault (si / 32) (si % 32) va write ftype level
  else s.transFault n { va := va, ftype := ftype, srcType := st, srcInst := si, write := write, level := level, queue := q, chan := ch }

/-- An index fault: state 3, and for a descriptor a sanity fault whose queue halts (R173; DEDUCED, log 35). -/
def State.dmaIndex (s : State) (c d : Nat) (x : Xfer) : State :=
  let t := s.dmaStop c d x 3 (if x.mode = .gather then 2 else 4) 0 0
  match x.seq, s.xferFlight x with
  | some q, some f => ((t.modFlight x.ctx q fun g => { g with phase := .stopped, expired := true }).dmaSignal c d 1).sanityFault x.ctx f.queue f.qindex 0
  | _, _ => t.dmaSignal c d 1

/-- Patterns in the bytes [off, off + len) of a PLAIN tensor hold a non-finite value (R53). -/
def State.rawNonFinite (s : State) (n : Nat) (t : TensorRec) (off len : Nat) : Bool :=
  let w := Fmt.bits t.fmt
  (List.range (ceilDiv (8 * (off + len)) w - 8 * off / w)).any fun i =>
    let b := (8 * off / w + i) * w
    let l : Loc := { store := (match t.home with | .squad q => some q | _ => none), byte := t.base + b / 8, bit := b % 8 }
    match s.locRead n (Home.space t.home) l (Fmt.locBytes t.fmt false l.bit) with
    | some bs => codeNonFinite t.fmt (leNat bs / 2 ^ l.bit % 2 ^ w)
    | none => false

/-- Note non-finite values that a burst has written. -/
def State.dmaNote (s : State) (x : Xfer) (k len : Nat) : State :=
  match x.seq, (s.xferFlight x).bind (·.operand 1) with
  | some q, some (_, t) =>
    let bad := match s.side x 1 with
      | .tensor r => s.streamNonFinite x.ctx r (x.at_ false k).toNat len
      | _ => s.rawNonFinite x.ctx t (x.addr false k - t.base) len
    if bad then s.modFlight x.ctx q (·.noteNf 1 true) else s
  | none, _ => s.hostDmaTouched (s.dstPlaces x k len) false
  | _, _ => s

/-- The transfer after a burst of n bytes, complete when nothing is left and no ordering read is due. -/
def State.dmaMoved (s : State) (c d : Nat) (x : Xfer) (n : Nat) : State :=
  let y := x.goto (x.pos + n)
  let t := s.modDma c d fun k => { k with xfer := some y, bytes := k.bytes + BitVec.ofNat 64 n }
  if y.total ≤ y.pos && !y.dstHost then t.dmaDone c d y
  else if y.dstHost && (decide (y.total ≤ y.pos) || decide (x.pos / 65536 < y.pos / 65536) || y.mode == DmaMode.scatterAdd) then t.emit (.hostRead (BitVec.ofNat 64 (y.addr false x.pos)) 0)
  else t

/-- The bytes of a burst's parts; of a gather those before the first part that cannot be read, of which there is one. -/
def State.partsRead (s : State) (x : Xfer) : List (Nat × Option Nat) → List Byte → Sum Fail (List Byte)
  | [], _ => .inr []
  | (n, k) :: r, host =>
    match (match k with | none => .inr (List.replicate n 0#8) | some k => s.sideRead x 0 k n host : Sum Fail (List Byte)) with
    | .inl f => .inl f
    | .inr l => match s.partsRead x r (host.drop n) with
      | .inr m => .inr (l ++ m)
      | .inl f => if x.mode = DmaMode.gather then .inr l else .inl f

/-- Move one burst; what the host answers is the source's bytes and, for a scatter-add, then the destination's. -/
def State.dmaMove (s : State) (c d : Nat) (x : Xfer) (dstK : Nat) (parts : List (Nat × Option Nat)) (host : List Byte) : State :=
  match s.partsRead x parts host with
  | .inl f => s.dmaFault c d x f true false false
  | .inr l =>
    let len := l.length
    let old : Sum Fail (List Byte) := if x.mode = .scatterAdd then s.sideRead x 1 dstK len (if x.srcHost then host.drop len else host) else .inr []
    let wf : Option Fail := match s.side x 1 with
      | .virt h => (s.writeFail x.ctx h (x.addr false) dstK len).orElse fun _ =>
          if s.poisonHit (s.dstPlaces x dstK len) then some { ftype := 0, level := 0, va := x.addr false dstK, data := true } else none
      | .tensor t => s.streamFail x.ctx t true (x.at_ false dstK).toNat len
      | _ => none
    match old, wf with
    | .inl f, _ => s.dmaFault c d x f false true false
    | _, some f => s.dmaFault c d x f false true true
    | .inr o, none =>
      let v := if x.mode = .scatterAdd then addRun2 x.addFmt x.addBytes (len / max 1 x.addBytes) o l else l
      (((s.rewrite (s.dstPlaces x dstK len)).sideWrite x dstK v).dmaNote x dstK len).dmaMoved c d x len

/-- The transfer may go on: its context works, or its host port is there; in Sideline only writes to host memory (R185, R305, R351). -/
def State.dmaRuns (s : State) (x : Xfer) : Bool :=
  match x.seq with
  | some _ => s.working x.ctx
  | none => (s.up || (s.dev.mode == .sideline && x.dstHost)) && !((x.srcHost || x.dstHost) && s.host.noneActive)

/-- DMA_BURST_COMMIT: one burst in transfer order (R173, R174). -/
def execDmaBurstCommit (c d : Nat) (hostData : List Byte) (s : State) : Res :=
  match (s.dma c d).state, (s.dma c d).xfer with
  | 1, some x =>
    if !s.chanUp c || !s.dmaRuns x || decide (x.total ≤ x.pos) || (x.dstHost && x.mode == DmaMode.scatterAdd && x.ordered != x.pos) then .next s
    else match s.nextBurst x with
      | .fail f a b => .next (s.dmaFault c d x f a b false)
      | .index => .next (s.dmaIndex c d x)
      | .hole => .next (s.dmaMoved c d x (x.elem - x.eoff))
      | .move k l => .next (s.dmaMove c d x k l hostData)
  | _, _ => .next s

/-- DMA_ORDERING_READ: the bursts before it are committed; after the last one the transfer is complete (R175, R352). -/
def execDmaOrderingRead (c d : Nat) (s : State) : Res :=
  match (s.dma c d).state, (s.dma c d).xfer with
  | 1, some x =>
    if !x.dstHost then .next s
    else
      let y := { x with ordered := x.pos }
      let t := s.modDma c d fun k => { k with xfer := some y }
      .next (if y.total ≤ y.pos then t.dmaDone c d y else t)
  | _, _ => .next s

end Sys2Proof.Machine
end

