-- ==== Sys2Proof/Machine/Huddle.lean ====
section
/-! DEFINITION. Huddles: arrivals by squad, queue and rank, completion, deadlines of huddles and collectives (R127, R246 to R249). -/

namespace Sys2Proof.Machine

/-- The huddle of an epoch, with no arrival where none is known. -/
def Ctx.hud (c : Ctx) (k e : Nat) : Huddle :=
  (c.huddles.find? fun h => h.number == k && h.epoch == e).getD { number := k, epoch := e, arrived := [], done := false }
def Ctx.setHud (c : Ctx) (h : Huddle) : Ctx :=
  { c with huddles := c.huddles.filter (fun x => !(x.number == h.number && x.epoch == h.epoch)) ++ [h] }

/-- The low 16 bits of the step number, as a descriptor keeps them from its issue on (R247). -/
def Ctx.epoch (c : Ctx) : Nat := c.stepNow % 2 ^ 16

def hudScope (d : Descriptor) : Option HudScope := match d.op with
  | .huddle sc _ _ => some sc
  | _ => none

/-- The flight of a HUDDLE of a number. -/
def Ctx.hudFlight (c : Ctx) (k : Nat) : Option Flight :=
  c.flight.find? fun f => f.phase == Phase.issued && f.desc.cls == Cls.huddle && huddleNo f.desc == k && !isCommitHuddle f.desc

/-- One member more. -/
def Ctx.arrive (c : Ctx) (k e m : Nat) : Ctx :=
  let h := c.hud k e
  if h.arrived.contains m then c else c.setHud { h with arrived := h.arrived ++ [m] }

/-! ## The tree of a SLICE huddle (R247) -/

/-- Every rank of this node's subtree has arrived. -/
def Ctx.hudCovers (c : Ctx) (h : Huddle) : Bool := covers (h.arrived.map fun r => (r, r)) c.rank (spanHi c.rank c.members)

/-- Send completion to the children. -/
def State.hudDown (s : State) (n k e : Nat) : State :=
  if (children (s.ctx n).rank (s.ctx n).members).isEmpty then s
  else s.emit (.huddle { ctx := n, number := k, epoch := e, lo := 0, hi := (s.ctx n).members - 1, done := true })

/-- Ranks arrive: a node whose subtree is complete forwards once; rank 0 completes the huddle. -/
def State.hudRanks (s : State) (n k e : Nat) (rs : List Nat) : State :=
  let before := (s.ctx n).hudCovers ((s.ctx n).hud k e)
  let t := s.modCtx n fun c => rs.foldl (fun c r => c.arrive k e r) c
  let c := t.ctx n
  if before || !c.hudCovers (c.hud k e) then t
  else if c.rank = 0 then (t.modCtx n fun c => c.setHud { c.hud k e with done := true }).hudDown n k e
  else t.emit (.huddle { ctx := n, number := k, epoch := e, lo := c.rank, hi := spanHi c.rank c.members, done := false })

/-- A DEVICE or SLICE member arrives when its HUDDLE issues (R246). -/
def State.hudIssue (s : State) (n : Nat) (f : Flight) : State :=
  let k := huddleNo f.desc
  let e := f.epoch
  match hudScope f.desc with
  | some (.device _) => s.modCtx n fun c => c.arrive k e f.queue
  | some .slice => if isCommitHuddle f.desc then s.commitArrive n else s.hudRanks n k e [(s.ctx n).rank]
  | _ => s

/-- Every member has arrived (R246). -/
def State.hudComplete (s : State) (n : Nat) (f : Flight) : Bool :=
  let c := s.ctx n
  let h := c.hud (huddleNo f.desc) f.epoch
  match hudScope f.desc with
  | some .squad => s.unfenced.all fun q => h.arrived.contains q
  | some (.device qs) => qs.all fun q => h.arrived.contains q
  | some .slice => if isCommitHuddle f.desc then f.doneLatched else h.done
  | none => false

/-- The entry of a huddle goes with its last HUDDLE descriptor. -/
def Ctx.endHud (c : Ctx) (f : Flight) : Ctx :=
  let k := huddleNo f.desc
  if c.flight.any fun x => x.seq != f.seq && x.phase == Phase.issued && x.desc.cls == Cls.huddle && huddleNo x.desc == k && x.epoch == f.epoch then c
  else { c with huddles := c.huddles.filter fun h => !(h.number == k && h.epoch == f.epoch) }

/-! ## Commands -/

/-- Every walker stream of the operations before a huddle in its queue has emitted END on a squad, those complete as those in flight
(R127). -/
def State.walkersEnded (s : State) (n sq : Nat) (f : Flight) : Bool :=
  let old (c seq q : Nat) : Bool := c == n && q == f.queue && decide (seq < f.seq)
  (s.squad sq).walkers.all fun e =>
    let k := e.2
    !(old k.ctx k.seq k.queue && k.state != WState.idle && k.state != WState.ended) && !(k.next.any fun j => old j.ctx j.seq j.queue)

/-- No stream of those operations, but one whose consumer follows, holds a handle on a squad (R127). -/
def State.handlesBack (s : State) (n sq : Nat) (f : Flight) : Bool :=
  (s.squad sq).pools.all fun e => e.2.streams.all fun t =>
    t.ctx != n || t.queue != f.queue || decide (f.seq ≤ t.seq) || t.ahead.isSome || t.charged.isEmpty

/-- SQUAD_HUDDLE_ARRIVAL (R127, R246). -/
def execSquadHuddleArrival (n k sq : Nat) (s : State) : Res :=
  match (s.ctx n).hudFlight k with
  | none => .next s
  | some f =>
    guard (hudScope f.desc == some .squad && !(s.squad sq).fenced && s.walkersEnded n sq f && s.handlesBack n sq f) s
      (s.modCtx n fun c => c.arrive k f.epoch sq)

/-- HUDDLE_PACKET: arrivals of ranks go up, completion goes down (R247). -/
def execHuddlePacket (p : HuddlePkt) (s : State) : Res :=
  let c := s.ctx p.ctx
  if !s.up || c.lost then .next s
  else if p.done then
    if (c.hud p.number p.epoch).done then .next s
    else .next ((s.modCtx p.ctx fun c => c.setHud { c.hud p.number p.epoch with done := true }).hudDown p.ctx p.number p.epoch)
  else .next (s.hudRanks p.ctx p.number p.epoch ((List.range (p.hi + 1 - p.lo)).map (p.lo + ·)))

/-- The lowest member that is missing, or all ones. -/
def Ctx.missingRank (c : Ctx) (h : Huddle) : Nat := ((List.range c.members).find? fun r => !h.arrived.contains r).getD max32

/-- Members of a collective that this device knows to have contributed: itself, and those whose values wait in its nodes or its
gathered parts (DESIGN CHOICE, log 33). -/
def State.collKnown (s : State) (n : Nat) (f : Flight) : Nat :=
  match Descriptor.coll f.desc with
  | some (.allGather, _) => f.commitMap.length
  | some (_, tag) => 1 + (s.net.nodes.filter fun x => x.ctx == n && x.tag == tag && !x.right.isEmpty).length
  | none => 0

/-- The flight of a queue whose members' clock has expired (R248). -/
def State.lateFlight (s : State) (n q : Nat) : Option Flight :=
  (s.ctx n).flight.find? fun f =>
    f.queue == q && f.phase == Phase.issued && !f.expired && f.desc.shot != 0 && decide (f.desc.shot * 1000 ≤ f.shotNs) &&
    ((f.desc.cls == Cls.huddle && !isCommitHuddle f.desc && !s.hudComplete n f) || (f.desc.cls == Cls.collective && !s.collDone n f))

/-- HUDDLE_SHOT_CLOCK_EXPIRY: the queue halts with the descriptor issued (R248). -/
def execHuddleShotClockExpiry (n q : Nat) (s : State) : Res :=
  match s.lateFlight n q with
  | none => .next s
  | some f =>
    let t := s.modCtx n fun c => (c.modFl f.seq fun x => { x with expired := true }).modQueue q fun x =>
      { x with halt := if f.desc.cls = .huddle then .huddleDeadline else .collectiveDeadline }
    let c := s.ctx n
    let h := c.hud (huddleNo f.desc) f.epoch
    match hudScope f.desc, Descriptor.coll f.desc with
    | some sc, _ =>
      let code := match sc with | .squad => 0 | .device _ => 1 | .slice => 2
      .next (t.huddleDeadline n q h.number code h.arrived.length (if code = 2 then c.missingRank h else max32))
    | none, some (_, tag) =>
      .next ((t.log 0 0x4402 2 0 0x13 q (leBytes 1 n ++ leBytes 1 q ++ leBytes 2 tag ++ leBytes 4 0 ++ leBytes 4 (s.collKnown n f))).raise 219)
    | none, none => .next t

end Sys2Proof.Machine
end

