-- ==== Sys2Proof/Machine/Retire.lean ====
section
/-! DEFINITION. Completion and skipping of descriptors, what the device writes into tensor records, loads that wait
(R53, R55, R68, R79, R80, R91, R96, R98, R242, R265). -/

namespace Sys2Proof.Machine

/-! ## Loads (R80, R242, R265) -/

/-- A descriptor uses function slot k. -/
def usesFn (k : Nat) (d : Descriptor) : Bool := match d.op with
  | .vec (.table j) | .vec (.tableBwd j) => j == k
  | _ => false
/-- A descriptor names update program k. -/
def usesProg (k : Nat) (d : Descriptor) : Bool := match d.op with
  | .apply j _ => j == k
  | _ => false

/-- The loads whose replaced record nothing queued or in flight names any more take effect (R79, R114, R265). -/
def State.settle (s : State) (n : Nat) : State :=
  let c := s.ctx n
  let b := c.busyDescs
  let freeFn (e : Nat × FnRecord) : Bool := !(b.any (usesFn e.1))
  let freeProg (e : Nat × UpdProgram) : Bool := !(b.any (usesProg e.1))
  let t := s.modCtx n fun c => { c with
    fns := (c.fnWait.filter freeFn).foldl (fun t e => tins e.1 e.2 t) c.fns
    fnWait := c.fnWait.filter fun e => !freeFn e
    updProgs := (c.updWait.filter freeProg).foldl (fun t e => tins e.1 e.2 t) c.updProgs
    updWait := c.updWait.filter fun e => !freeProg e }
  if c.libWait.isEmpty || c.libInUse then t
  else (c.libWait.foldl (fun (u : State) l => u.takeLib n l) t).modCtx n fun c => { c with libWait := [] }

/-- FUNCTION_LOAD into one of the context's own slots (R79, R80). -/
def execFunctionLoad (n slot : Nat) (r : FnRecord) (s : State) : Res :=
  guard (slot / 8 == n) s ((s.modCtx n fun c => { c with fnWait := c.fnWait ++ [(slot, r)] }).settle n)

/-- UPDATE_PROGRAM_LOAD (R265). -/
def execUpdateProgramLoad (n k : Nat) (r : UpdProgram) (s : State) : Res :=
  .next ((s.modCtx n fun c => { c with updWait := c.updWait ++ [(k, r)] }).settle n)

/-- STEP_PLAN_LOAD: the plan takes effect at the context's next step start, or at once before its first (R242). -/
def execStepPlanLoad (n : Nat) (r : StepPlan) (s : State) : Res :=
  .next (s.modCtx n fun c => if c.started then { c with planNext := some r } else { c with plan := some r, planNext := none })

/-! ## What completion writes into records (R53, R55, R96) -/

/-- An element enters a product as something other than zero, or its scale is 0xFF (R55). -/
def State.liveElem (s : State) (n : Nat) (recs : Tbl TensorRec) (t : TensorRec) (idx : List Nat) : Bool :=
  let v := (s.getCode n t idx).getD 0
  !prodZero t.fmt (prodElem t.fmt v) || (Fmt.isMx t.fmt && s.scaleOf n recs t idx == some 255)

/-- The bit of a block of 128 elements by 16 steps (R55). -/
def State.blockLive (s : State) (n : Nat) (recs : Tbl TensorRec) (t : TensorRec) (g band win : Nat) : Bool :=
  (List.range 128).any fun i => (List.range 16).any fun k =>
    let e := band * 128 + i
    let p := win * 16 + k
    let r := if t.mapKDim = 0 then e else p
    let c := if t.mapKDim = 0 then p else e
    decide (r < TensorRec.dim t 1) && decide (c < TensorRec.dim t 0) && s.liveElem n recs t (c :: r :: unlinear (t.dims.drop 2) g)

/-- Recompute a tensor's occupancy map (R55). -/
def State.genMap (s : State) (n : Nat) (recs : Tbl TensorRec) (t : TensorRec) : State :=
  match t.occMap.bind (tfind recs ·) with
  | none => s
  | some m =>
    let bands := ceilDiv (TensorRec.dim t (1 - t.mapKDim)) 128
    let wins := ceilDiv (TensorRec.dim t t.mapKDim) 16
    let total := (t.dims.drop 2).foldl (· * ·) 1 * bands * wins
    let bit (b : Nat) : Nat := if b < total then b2n (s.blockLive n recs t (b / (bands * wins)) (b / wins % bands) (b % wins)) else 0
    (List.range (ceilDiv total 8)).foldl (fun (u : State) i =>
      let v := (List.range 8).foldl (fun a j => a + bit (8 * i + j) * 2 ^ j) 0
      u.locWrite n (Home.space m.home) { store := (match m.home with | .squad q => some q | _ => none), byte := m.base + i, bit := 0 } [BitVec.ofNat 8 v]) s

/-- Some element of a tensor is non-finite (R53). -/
def State.anyNonFinite (s : State) (n : Nat) (recs : Tbl TensorRec) (t : TensorRec) : Bool :=
  (List.range (TensorRec.size t)).any fun i =>
    let idx := unlinear t.dims i
    codeNonFinite t.fmt ((s.getCode n t idx).getD 0) || (Fmt.isMx t.fmt && s.scaleOf n recs t idx == some 255)

/-- What one writer leaves in a record: the state and the map's validity (R53, R55). -/
def noteTensor (t : TensorRec) (bad whole occ : Bool) : TensorRec :=
  { t with nf := (if bad then .nonfinite else if whole || t.nf == .clean then .clean else t.nf), mapValid := occ && t.occMap.isSome }

/-- A write to the tensor of handle h is complete; r and recs are the copies taken at admission, from which the map is formed (R96). -/
def State.noteWritten (s : State) (n : Nat) (d : Descriptor) (recs : Tbl TensorRec) (r : TensorRec) (h : Nat) (bad whole : Bool) : State :=
  match tfind (s.ctx n).tensors h with
  | none => s
  | some t =>
    let u := s.modCtx n fun c => { c with tensors := tins h (noteTensor t bad whole d.occGen) c.tensors, masks := tdel h c.masks }
    if d.occGen then u.genMap n recs r else u

/-- Byte k of the destination is written by a linear or strided transfer (R172). -/
def shapeCovers (h : DmaShape) (k : Int) : Bool :=
  (List.range h.n2).any fun i2 => (List.range h.n1).any fun i1 =>
    let o := (i1 : Int) * h.s1 + (i2 : Int) * h.s2
    decide (o ≤ k ∧ k < o + h.n0)

/-- A DMA transfer writes the whole of its destination (R53). -/
def State.dmaWhole (s : State) (f : Flight) (t : TensorRec) : Bool :=
  match f.desc.op, Flight.xfer 0 f with
  | .dma m _ b e, some x =>
    let conv := match s.side x 1 with | .tensor _ => true | _ => false
    let r := s.tensorRange t
    let len := if conv then TensorRec.streamLen t else r.2 - r.1
    (match m with
     | .linear | .gather => decide (len ≤ x.total)
     | .strided => if conv then decide (len ≤ x.total) else (List.range len).all fun k => shapeCovers b k
     | .prefetch => false
     | _ =>
       let es := (List.range x.count).map fun i => match s.tableAt x i with | .inr v => v | .inl _ => 2 ^ 64
       (List.range (ceilDiv len (max 1 e))).all fun v => es.contains v)
  | _, _ => false

/-- A masked product whose output tiles may stay unwritten: the scores, or dP while both its operands are CLEAN (R54, R60). -/
def Flight.skipsTiles (f : Flight) : Bool :=
  (match f.desc.mask with | .none => false | _ => true) && (match f.operand 0, f.operand 1 with
    | some (ao, a), some (bo, b) => ao.col && bo.col && (!f.desc.valueSide || (clean a && clean b))
    | _, _ => false)

/-- A matrix operation has written its whole output: no tile is left out and the counts reach every row (R53, R60, R65). -/
def State.matWhole (s : State) (n : Nat) (f : Flight) : Bool :=
  match matDims f.desc f.recs with
  | some (m, k, _) =>
    (f.desc.counts.isNone || f.rowsOf.foldl (· + ·) 0 == m) &&
      (!f.skipsTiles || (List.range (ceilDiv m 128)).all fun q => (List.range (ceilDiv k 128)).all fun c => s.maskLive n f.recs f.desc.mask q c)
  | none => false

/-- The row engine knows the mask of the scores that it reads (R60; log 29). -/
def State.noteMask (s : State) (n : Nat) (f : Flight) (h : Nat) : State :=
  if f.skipsTiles && !f.desc.valueSide then s.modCtx n fun c => { c with masks := tins h (f.desc.mask, f.recs) c.masks } else s

/-- Rows 1 and 2 of a parameter operand hold a non-finite gradient (R53, R83). -/
def State.gradNonFinite (s : State) (n : Nat) (t : TensorRec) : Bool :=
  (List.range 2).any fun r => (List.range (TensorRec.dim t 0)).any fun c => codeNonFinite t.fmt ((s.getCode n t [c, r + 1]).getD 0)

/-- Every output of a flight gets its NF_STATE and MAP_VALID. -/
def State.noteOutputs (s : State) (n : Nat) (f : Flight) : State :=
  let d := f.desc
  let outs := ((List.range 4).zip d.t).filterMap fun p => match p.2 with
    | some o => if writes o then ((s.ctx n).resolve true o.handle).bind fun h => (tfind f.recs o.handle).map fun r => (p.1, r, h) else none
    | none => none
  let scan (u : State) (r : TensorRec) (h : Nat) : State := u.noteWritten n d f.recs r h (u.anyNonFinite n f.recs r) true
  match d.op with
  | .apply _ _ =>
    let c := s.ctx n
    let hs := match c.shard with
      | some sh => sh.entries.flatMap fun e => let b := entryBank e c.writeBank; b.1 :: (b.2.1.toList ++ b.2.2.toList)
      | none => []
    hs.foldl (fun u h => match tfind f.recs h with | some r => scan u r h | none => u) s
  | .coll (.reduceScatter o _) _ => if (s.ctx n).opIndex o = 0 then outs.foldl (fun u p => scan u p.2.1 p.2.2) s else s
  | .coll .allGather _ => outs.foldl (fun u p => scan u p.2.1 p.2.2) s
  | .coll _ _ | .norm _ _ | .huddle _ _ _ => s
  | .dma .prefetch _ _ _ => s
  | .dma _ _ _ _ => outs.foldl (fun u p => u.noteWritten n d f.recs p.2.1 p.2.2 (f.nonfinite.contains p.1) (u.dmaWhole f p.2.1)) s
  | .none => if d.destTag.isSome then s
    else outs.foldl (fun u p => (u.noteWritten n d f.recs p.2.1 p.2.2 (f.nonfinite.contains p.1) (s.matWhole n f)).noteMask n f p.2.2) s
  | .row _ true _ => outs.foldl (fun u p =>
      if p.1 = 3 then u.noteWritten n d f.recs p.2.1 p.2.2 (u.gradNonFinite n p.2.1) false
      else u.noteWritten n d f.recs p.2.1 p.2.2 (f.nonfinite.contains p.1) true) s
  | _ => outs.foldl (fun u p => u.noteWritten n d f.recs p.2.1 p.2.2 (f.nonfinite.contains p.1) true) s

/-! ## Leaving the queue and the scoreboard -/

/-- The head moves past its descriptor (R92). -/
def Ctx.advanceHead (c : Ctx) (q : Nat) : Ctx :=
  c.modQueue q fun x =>
    let n := 2 ^ x.log2
    { x with head := (x.head + 1) % n, headWrap := if x.head + 1 = n then !x.headWrap else x.headWrap, ring := tdel x.head x.ring }

/-- Scoreboard and journal entries are released (R91, R102, R289). -/
def Ctx.release (c : Ctx) (seq : Nat) : Ctx := { c with flight := c.flight.filter fun f => f.seq != seq }

/-- A descriptor is complete or skipped: telemetry, set flags, release, loads that waited (R68, R91, R98). -/
def State.finish (s : State) (n : Nat) (f : Flight) (skipped : Bool) : State :=
  let t := s.telemetry n f skipped
  (t.modCtx n fun c => ((c.setField f.desc.set0).setField f.desc.set1).release f.seq).settle n

/-- A descriptor that is not issued completes without effect (R68). -/
def State.skipHead (s : State) (n : Nat) (f : Flight) : State := (s.modCtx n (·.advanceHead f.queue)).finish n f true

/-! ## DESCRIPTOR_COMPLETE -/

/-- The matrix operation that a flight belongs to. -/
def Ctx.matOf (c : Ctx) (seq : Nat) : Option MatOp := c.mats.find? fun m => m.segs.any fun g => g.seq == seq

/-- No walker runs for a flight or has it still to do, and its records are taken: what a PREFETCH waits for (R126). -/
def State.walkersDone (s : State) (n seq : Nat) : Bool :=
  s.squads.all fun e => (e.2.walkers.all fun w => (w.2.ctx != n || w.2.seq != seq || w.2.state == WState.idle || w.2.state == WState.ended) &&
    w.2.next.all fun j => j.ctx != n || j.seq != seq) && e.2.fifo.all fun l => l.2.all fun r => r.ctx != n || r.seq != seq

/-- Every output of a flight is committed, or its engine has nothing left to do (R91, R98). -/
def State.outputsDone (s : State) (n : Nat) (f : Flight) : Bool :=
  match f.desc.cls with
  | .matmul | .accum => (match (s.ctx n).matOf f.seq with
    | some m => decide (m.total ≤ m.committed.length)
    | none => false)
  | .vector | .row | .update => decide (f.items ≤ f.itemsDone)
  | .dma => (match f.desc.op with | .dma .prefetch _ _ _ => s.walkersDone n f.seq | _ => f.doneLatched)
  | .collective => !f.expired && s.collDone n f
  | .huddle => !f.expired && s.hudComplete n f
  | .mark | .nop => true

/-- What the end of an operation does beside its flags (R127, R227, R251, R272, R274). -/
def State.endOp (s : State) (n : Nat) (f : Flight) : State :=
  match f.desc.op with
  | .coll _ _ => s.endColl n f
  | .apply _ _ => (s.strictEnd n).modCtx n fun c => { c with upd := { c.upd with digest := c.upd.acc, digestStep := BitVec.ofNat 32 c.stepNow } }
  | .huddle .squad _ _ => (s.modCtx n (·.endHud f)).planPools n false
  | .huddle _ _ _ => s.modCtx n (·.endHud f)
  | _ => match f.desc.destTag with
    | some g => s.modCtx n fun c => { c with exchGrad := c.exchGrad ++ [(g, s.clk.ltb)] }
    | none => s

/-- The values that wait for the rest of an MX block that was not written are written with what is at hand (R49, R65; DESIGN CHOICE,
log 52). -/
def State.flushMx (s : State) (n : Nat) (f : Flight) : State :=
  (f.mxPend.map (·.1)).dedup.foldl (fun (u : State) pos => match f.operand pos with
    | some (_, t) => u.putFlight n f.seq pos f.recs t f.desc.stochastic f.desc.ovfReport true (s.ctx n).stepNow []
    | none => u) s

/-- What the end of a flight leaves in its outputs' records and beside. -/
def State.endOutputs (s : State) (n : Nat) (f : Flight) : State :=
  let t := s.flushMx n f
  let f := ((t.ctx n).fl f.seq).getD f
  ((t.noteOutputs n f).endOp n f).readDone n f.desc

/-- One flight completes: records, its end, flags, release. -/
def State.completeOne (s : State) (n : Nat) (f : Flight) : State := (s.endOutputs n f).finish n f false

/-- A chain completes as one, its members in order; those whose predicate failed are skipped inside it (R106). Only the last
member's output is written. -/
def State.completeMat (s : State) (n : Nat) (m : MatOp) : State :=
  let t := m.segs.foldl (fun (u : State) g => match (u.ctx n).fl g.seq with
    | none => u
    | some f =>
      if g.seq = m.seq then (u.endOutputs n f).finish n f (!g.run)
      else if !g.run then u.finish n f true else (u.endOp n f).finish n f false) s
  t.modCtx n fun c => { c with mats := c.mats.filter fun x => x.seq != m.seq }

/-- DESCRIPTOR_COMPLETE (R53, R91, R96, R98, R106, R128, R129). -/
def execDescriptorComplete (n seq : Nat) (s : State) : Res :=
  match (s.ctx n).fl seq with
  | none => .next s
  | some f =>
    if f.phase != Phase.issued || !s.working n || !s.outputsDone n f then .next s
    else match (s.ctx n).matOf seq with
      | some m => .next (s.completeMat n m)
      | none =>
        match f.desc.send, f.sent with
        | some x, none =>
          let t := s.sendShort n f x
          (match (t.ctx n).fl seq with
           | some g => .next (if t.sendHeld n g then t else t.completeOne n g)
           | none => .next t)
        | _, _ => .next (if s.sendHeld n f then s else s.completeOne n f)

end Sys2Proof.Machine
end

