-- ==== Sys2Proof/Machine/Issue.lean ====
section
/-! DEFINITION. From Admitted to Issued: readiness, predicates, counts, the choice among queues, engine limits, and what each
class starts (R54, R64, R67, R70, R87, R91, R93, R98, R99, R103, R106, R225, R227, R243, R246, R264, R271). -/

namespace Sys2Proof.Machine

/-! ## Ready (R64, R67, R91, R98) -/

/-- The predicate holds, or there is none (R67). -/
def Ctx.predHolds (c : Ctx) (d : Descriptor) : Bool := match d.pred with
  | none => true
  | some (f, v) => c.flag f == v

/-- The predicate holds and no mark of R70 or R87 stands. -/
def Ctx.runs (c : Ctx) (f : Flight) : Bool := f.predOk && c.predHolds f.desc && !f.desc.frozen && !f.desc.noDx

/-- A member of a chain: its predicate is evaluated when the chain is dealt (R106). -/
def Flight.inChain (f : Flight) : Bool := f.desc.hold || f.desc.chain

/-- The row counts, or why they cannot be read (R64). -/
def State.readCounts (s : State) (n : Nat) (f : Flight) (h : Nat) : Sum Fail (List Nat) :=
  match tfind f.recs h with
  | none => .inr []
  | some t =>
    (List.range f.desc.groups).foldl (fun (acc : Sum Fail (List Nat)) i => match acc with
      | .inl e => .inl e
      | .inr l =>
        let p := s.loc t [i]
        match p.store with
        | some q => .inr (l ++ [leNat (s.storeRead q p.byte 4)])
        | none => (match s.readRun n (Home.space t.home) (fun k => p.byte + k) 0 4 with
          | .inl e => .inl e
          | .inr b => .inr (l ++ [leNat b]))) (.inr [])

/-- The counts obey R64. -/
def countsOk (f : Flight) (l : List Nat) : Bool :=
  l.all (fun c => decide (c < 2 ^ 24)) && (match matDims f.desc f.recs with
    | some (m, _, _) => decide (l.foldl (· + ·) 0 ≤ m)
    | none => false)

/-- A head that may become Ready. -/
def State.readyHead (s : State) (n q : Nat) : Option Flight :=
  if !s.issuing n || ((s.ctx n).queue q).halt != Halt.none then none
  else match (s.ctx n).headFlight q with
    | some f => if f.phase == Phase.admitted && f.waitsDone && f.nbtPassed then some f else none
    | none => none

def State.toReady (s : State) (n seq : Nat) (rows : List Nat) : State :=
  s.modFlight n seq fun f => { f with phase := .ready, rowsOf := rows }

/-- The dispatcher's own read of counts failed (R64, R168, R296). -/
def State.countsFault (s : State) (n q : Nat) (e : Fail) : State :=
  if e.data then s.suspend n 0
  else s.transFault n { va := BitVec.ofNat 64 e.va, ftype := e.ftype, srcType := 0x13, srcInst := q, write := false, level := e.level, queue := q, chan := 0 }

/-- DESCRIPTOR_READY: the predicate of a descriptor outside a chain is evaluated; counts are read (R64, R67, R68, R70, R87, R98). -/
def execDescriptorReady (n q : Nat) (s : State) : Res :=
  match s.readyHead n q with
  | none => .next s
  | some f =>
    if !f.inChain && !(s.ctx n).runs f then .next (s.skipHead n f)
    else match f.desc.counts with
      | none => .next (s.toReady n f.seq [])
      | some h =>
        match s.readCounts n f h with
        | .inl e => .next (s.countsFault n q e)
        | .inr l =>
          if countsOk f l then .next (s.toReady n f.seq l)
          else .next ((s.modCtx n (·.release f.seq)).sanityFault n q f.qindex 7)

/-- NOT_BEFORE_TIME_REACHED (R99). -/
def execNotBeforeTimeReached (n q : Nat) (s : State) : Res :=
  match (s.ctx n).headFlight q with
  | some f => guard (!f.nbtPassed && s.nbtDone f.desc.nbt && (s.ctx n).started) s (s.modFlight n f.seq fun x => { x with nbtPassed := true })
  | none => .next s

/-! ## Conflicts (R103) -/

/-- Two spaces are shared (R102, R103). -/
def spacesMeet : FpSpace → FpSpace → Bool
  | .virt, .virt => true
  | .store a, .store b => a == b
  | .allStores, .store _ | .store _, .allStores | .allStores, .allStores => true
  | _, _ => false

/-- Two entries conflict (R103). -/
def FpEntry.conflicts (a b : FpEntry) : Bool :=
  spacesMeet a.space b.space && decide (a.lo < b.hi ∧ b.lo < a.hi) && (a.write || b.write)

/-- The members of the chain before a descriptor. -/
def Ctx.chainBefore (c : Ctx) (q : Nat) : Nat → Nat → Bool → List Flight
  | 0, _, _ => []
  | k + 1, i, chain => if !chain then [] else match c.before q i with
    | none => []
    | some p => c.chainBefore q k p.qindex p.desc.chain ++ [p]

def Ctx.chainOf (c : Ctx) (f : Flight) : List Flight := c.chainBefore f.queue 8 f.qindex f.desc.chain

/-- The first flight admitted earlier with which a flight conflicts, its own chain apart (R103). -/
def Ctx.conflict (c : Ctx) (f : Flight) : Option Flight :=
  let own := (c.chainOf f).map (·.seq)
  c.flight.find? fun g => decide (g.seq < f.seq) && !own.contains g.seq && f.fp.any fun a => g.fp.any fun b => a.conflicts b

/-! ## Engine limits (R93) -/

/-- The engine class: ACCUM shares the arrays with MATMUL. -/
def engineCls : Cls → Cls
  | .accum => .matmul
  | c => c

def Ctx.inFlight (c : Ctx) (k : Cls) : Nat := (c.flight.filter fun f => f.phase != Phase.admitted && f.phase != Phase.ready && f.desc.cls == k).length

/-- The reduction tags of the device in use: those that pre-emption aborted are returned until the routine context resumes (R227, R385). -/
def State.tagsUsed (s : State) : Nat :=
  (s.ctx0.tags.filter fun g => !(s.ctx0.preempted && g.aborted)).length + s.ctx1.tags.length

/-- A reduction tag may be taken: it is free, and a slice of several members has a slice tag (R225, R227). -/
def State.tagFree (s : State) (n : Nat) (d : Descriptor) : Bool :=
  match Descriptor.coll d with
  | some (_, tag) => decide (s.tagsUsed < 1024) && !((s.ctx n).tags.any fun g => g.tag == tag) &&
      ((s.ctx n).members ≤ 1 || s.sliceTag != 0)
  | none => false

/-- The operations that hold combine storage: reductions with their tag, and split-K MATMULs (R203). -/
def State.combining (s : State) : Nat :=
  let of_ (c : Ctx) : Nat := (c.tags.filter fun g => match c.tagOf g.tag with | some (_, _, k) => k != CollKind.allGather | none => false).length +
    (c.mats.filter fun m => decide (1 < m.parts)).length
  of_ s.ctx0 + of_ s.ctx1

/-- Storage for one more operation's node on every router: 16 KiB of the 256 KiB of each (R203; DESIGN CHOICE, log 33). -/
def State.storageFree (s : State) : Bool := decide (s.combining < 16)

/-- The storage that a descriptor has to reserve is there (R203, R227). -/
def State.canCombine (s : State) (d : Descriptor) : Bool :=
  match Descriptor.coll d with
  | some (.allGather, _) => true
  | some _ => s.storageFree
  | none => decide (d.splitK ≤ 1) || s.storageFree

/-- The two results that an APPLY reads in its mailbox are visible there; a step that copies needs none (R129, R270, R271). -/
def State.normsThere (s : State) (n : Nat) (d : Descriptor) : Bool :=
  match d.op, d.mbox with
  | .norm _ _, _ | _, none => true
  | _, some mb => (s.ctx n).flag 241 || (s.readOf n d (s.mbox s.sendSquad n mb)).length == 2

/-- The engine of a descriptor can accept it (R30, R93, R171). -/
def State.accepts (s : State) (n : Nat) (f : Flight) : Bool :=
  let c := s.ctx n
  match f.desc.cls with
  | .matmul | .accum => f.desc.hold || (!(c.mats.any (·.more)) && decide (c.mats.length ≤ 1) && s.canCombine f.desc)
  | .vector => decide (c.inFlight .vector < 4)
  | .row => decide (c.inFlight .row < 2)
  | .dma => decide (c.inFlight .dma < 128) && (match f.desc.op with
    | .dma .prefetch _ _ _ => true
    | _ => (s.idleDma (dmaChanOf f)).isSome)
  | .collective => s.tagFree n f.desc && s.canCombine f.desc
  | .update => decide (c.inFlight .update < 1) && s.normsThere n f.desc
  | .huddle => decide (c.inFlight .huddle < 16)
  | .mark | .nop => true

/-- The flight of queue q that issues for an engine class now. -/
def State.canIssue (s : State) (n : Nat) (k : Cls) (q : Nat) : Option Flight :=
  if ((s.ctx n).queue q).halt != Halt.none then none
  else match (s.ctx n).headFlight q with
    | some f => if f.phase == Phase.ready && engineCls f.desc.cls == k && ((s.ctx n).conflict f).isNone && s.accepts n f then some f else none
    | none => none

/-- The queue served next for a class, round-robin from the one after the queue served last (R93). -/
def State.pickIssue (s : State) (n : Nat) (k : Cls) : Option Flight :=
  let last := tget 15 (s.ctx n).rr (clsIndex k)
  (List.range 16).findSome? fun i => s.canIssue n k ((last + 1 + i) % 16)

/-! ## Issuing a matrix operation (R29, R45, R54, R106) -/

/-- The position whose NF_STATE disables a skip that the descriptor would take (R54). -/
def denseOperand (f : Flight) : Option Nat :=
  match f.operand 0, f.operand 1 with
  | some (ao, a), some (bo, b) =>
    if f.desc.valueSide && ao.col && bo.col && (match f.desc.mask with | .none => false | _ => true) && !(clean a && clean b) then
      some (if clean a then 1 else 0)
    else
    let usable (o : Operand) (t : TensorRec) : Bool := f.desc.skipOcc && t.occMap.isSome && t.mapValid && t.mapKDim == (if o.col then 0 else 1)
    let masked := (match f.desc.mask with | .none => false | _ => true) && !(ao.col && bo.col)
    if !clean b && (f.desc.skipZv || usable ao a || masked) then some 1
    else if !clean a && usable bo b then some 0 else none
  | _, _ => none

/-- One Info record for a descriptor that runs an operand densely (R54). -/
def State.denseRecord (s : State) (n : Nat) (f : Flight) : State :=
  match denseOperand f with
  | none => s
  | some i => s.log 0 0x1C05 0 0 0x13 f.queue (leBytes 1 n ++ leBytes 1 f.queue ++ [0#8, 0#8] ++ leBytes 4 f.qindex ++ leBytes 1 i)

/-- The segments of a chain with their first dense k. The predicates of a chain are evaluated now; that of a descriptor outside one was,
when it became Ready (R41, R67, R106). -/
def Ctx.segsOf (c : Ctx) : Nat → List Flight → List Seg
  | _, [] => []
  | k, f :: r =>
    let len := match matDims f.desc f.recs with | some (_, _, x) => x | none => 0
    { seq := f.seq, k0 := k, len := len, run := !f.inChain || c.runs f } :: c.segsOf (k + len) r

/-- The length of a split-K part (R45). -/
def partLen (k p : Nat) : Nat := ceilDiv (ceilDiv k p) 4096 * 4096

/-- The parts that begin below K (R45). -/
def partCount (k p : Nat) : Nat := max 1 (ceilDiv k (partLen k p))

/-- The operation of a chain, or of one descriptor. -/
def Ctx.matOpOf (c : Ctx) (f : Flight) (chain : List Flight) : MatOp :=
  let segs := c.segsOf 0 chain
  let k := (segs.map (·.len)).foldl (· + ·) 0
  let d := match matDims f.desc f.recs with | some x => x | none => (0, 0, 0)
  let rows := match chain.find? fun g => g.desc.counts.isSome with
    | some g => g.rowsOf
    | none => [d.1]
  { seq := f.seq, segs := segs, rowsOf := rows, n := d.2.1, k := k, ell := partLen k f.desc.splitK, parts := partCount k f.desc.splitK,
    total := itemCount f.desc.shape d.2.1 (partCount k f.desc.splitK) rows, nextItem := 0, undealt := [], assigned := [], ladder := [], partVals := [], committed := [] }

/-- Deal a chain: every predicate is evaluated now; when no member runs, all are skipped (R106). -/
def State.issueMat (s : State) (n : Nat) (f : Flight) : State :=
  let chain := (s.ctx n).chainOf f ++ [f]
  let m := (s.ctx n).matOpOf f chain
  if m.segs.all fun g => !g.run then chain.foldl (fun (u : State) g => u.finish n g true) s
  else
    let t := s.modCtx n fun c => { c with mats := c.mats ++ [m] }
    chain.foldl (fun (u : State) g => if m.segs.any fun x => x.seq == g.seq && x.run then u.denseRecord n g else u) t

/-! ## Other classes -/

/-- The output whose row blocks are dealt (R84). -/
def Flight.blockTensor (f : Flight) : Option TensorRec :=
  match f.desc.op with
  | .vec .useSum => (f.operand 3).map (·.2)
  | _ => (f.operand 2).map (·.2)

/-- Row blocks of a tensor. -/
def TensorRec.rowBlocks (t : TensorRec) : Nat := TensorRec.blockRows t * (t.dims.drop 2).foldl (· * ·) 1

/-- Deal blocks in the order of R84: each block's walkers start on its squad. -/
def State.startBlocks (s : State) (n seq items : Nat) : State :=
  let u := s.unfenced
  (List.range items).foldl (fun (t : State) b => if u.isEmpty then t else t.startWalkers (u.getD (b % u.length) 0) n seq b b 0 0 0) s

def State.issueBlocks (s : State) (n seq items : Nat) : State := (s.modFlight n seq fun x => { x with items := items }).startBlocks n seq items

/-- The norms that an APPLY reads in its mailbox (R129, R270). -/
def State.readNorms (s : State) (n : Nat) (d : Descriptor) : State :=
  match d.mbox with
  | none => s
  | some mb =>
    let b := s.mbox s.sendSquad n mb
    let get (tag : Nat) : Tbl Word := ((b.result tag).map fun l => wordsOf (transferBytes l)).getD []
    s.modCtx n fun c => { c with upd := { c.upd with normG := get c.upd.tagG, normW := get c.upd.tagW } }

/-- An UPDATE begins its pass (R264, R270, R271). -/
def State.issueUpdate (s : State) (n : Nat) (f : Flight) : State :=
  let t := match f.desc.op with
    | .norm a b => s.modCtx n fun c => { c with upd := { c.upd with tagG := a, tagW := b, parts := [] } }
    | _ => ((s.readNorms n f.desc).modCtx n fun c => { c with upd := { c.upd with acc := 0, supCount := 0, supFirst := none } }).modFlight n f.seq fun x =>
        { x with copyMode := (s.ctx n).flag 241 }
  t.issueBlocks n f.seq ((t.ctx n).blockCount f)

/-- The engine starts a descriptor. -/
def State.startEngine (s : State) (n : Nat) (f : Flight) : State :=
  match f.desc.cls with
  | .matmul | .accum => if f.desc.hold then s else s.issueMat n f
  | .vector | .row => s.issueBlocks n f.seq ((f.blockTensor.map TensorRec.rowBlocks).getD 0)
  | .dma => (match f.desc.op with
    | .dma .prefetch _ _ _ => s.unfenced.foldl (fun (t : State) q => t.startWalkers q n f.seq 0 0 0 0 0) s
    | _ => s.startDma n f)
  | .collective => (match Descriptor.coll f.desc with
    | some (k, tag) => s.startColl n f k tag
    | none => s)
  | .update => s.issueUpdate n f
  | .huddle => s.hudIssue n f
  | .mark | .nop => s

/-- Stamp a flight as issued and move the head past it (R91, R248, R256). A HOLD descriptor counts as issued in its turn, before its chain
is dealt (R91, R106; DESIGN CHOICE, log 52). -/
def State.stampIssue (s : State) (n : Nat) (k : Cls) (f : Flight) : State :=
  s.modCtx n fun c =>
    { ((c.modFl f.seq fun x => { x with phase := .issued, issueSt := s.stNow, issueKnown := s.clk.known, issueA := s.countA,
                                        issueExp := c.upd.exp, shotNs := 0, arrived := true, epoch := c.epoch }).advanceHead f.queue) with
      rr := tins (clsIndex k) f.queue c.rr }

/-- The flights that begin to run with a flight: for a chain's last member those of its chain that run (R68, R106). -/
def Ctx.begins (c : Ctx) (f : Flight) : List Flight :=
  if f.desc.hold then [] else if f.desc.chain then (c.chainOf f ++ [f]).filter c.runs else [f]

/-- Issue a flight: PHASE 1 starts a step, unless the descriptor is skipped (R68, R243). -/
def State.issueFlight (s : State) (n : Nat) (k : Cls) (f : Flight) : State :=
  let t := if ((s.ctx n).begins f).any fun g => g.desc.phase == 1 then s.stepStart n else s
  let t := t.stampIssue n k f
  match (t.ctx n).fl f.seq with
  | some g => t.startEngine n g
  | none => t

/-! ## The refusal of an UPDATE (R264) -/

/-- The reason for which an UPDATE is refused. -/
def Ctx.refusal (c : Ctx) : Option Nat :=
  if c.upd.step = 0xFFFFFFFF#32 then some 4
  else if !c.spbSeen then some 3
  else match c.spb with
    | none => some 2
    | some b => if b.step = c.upd.step.toNat + 1 then none else some 1

/-- The step that the vote of a refusal names: UPD_STEPn + 1 (R275). -/
def Ctx.voteStep (c : Ctx) : Nat := c.upd.step.toNat + 1

/-- An UPDATE is refused: it stays Admitted, its queue halts, record 0x4801, flag 245, vector 226 + context, a vote with READY = 0. -/
def State.refuseUpdate (s : State) (n : Nat) (f : Flight) (reason : Nat) : State :=
  let c := s.ctx n
  let t := s.modCtx n fun c => (c.modFl f.seq fun x => { x with phase := .admitted }).modQueue f.queue fun q => { q with halt := .refused }
  let t := t.log 4 0x4801 2 0 0x54 0 (leBytes 1 n ++ leBytes 1 reason ++ [0#8, 0#8] ++ leBytes 4 c.upd.step.toNat ++ leBytes 4 c.stepNow)
  ((t.writeFlag n 245 true).raise (226 + n)).castVote n c.voteStep reason

/-- DESCRIPTOR_ISSUE (R91, R93, R103, R243, R246, R253, R264). -/
def execDescriptorIssue (n : Nat) (cls : Cls) (s : State) : Res :=
  let k := engineCls cls
  if !s.issuing n then .next s
  else match s.pickIssue n k with
    | none => .next s
    | some f =>
      match (if f.desc.cls = .update then (s.ctx n).refusal else none) with
      | some r => .next (s.refuseUpdate n f r)
      | none => .next (s.issueFlight n k f)

end Sys2Proof.Machine
end

