-- ==== Sys2Proof/Machine/Block.lean ====
section
/-! DEFINITION. BLOCK_COMMIT: vector programs, row operations and their statistics, update blocks, and the records of the squad
fetch unit (R60, R61, R80 to R86, R167, R168, R270 to R274, R290). K_STEP_ISSUE and TILE_CHECK_VERDICT with the faults of the operands
read and of the output written (R16, R25, R62, R145, R167, R293). -/

namespace Sys2Proof.Machine

/-! ## Access faults of a block (R167, R168, R296) -/

/-- An index folded onto a tensor that repeats a dimension of size 1. -/
def foldIdx (t : TensorRec) (idx : List Nat) : List Nat := (t.dims.zip idx).map fun p => if p.1 = 1 then 0 else p.2

/-- The fault of the scale of one element of an MX tensor. -/
def State.scaleFail (s : State) (n : Nat) (recs : Tbl TensorRec) (t : TensorRec) (write : Bool) (idx : List Nat) : Option Fail :=
  if Fmt.isMx t.fmt then
    match t.scaleTable.bind (tfind recs ·) with
    | some st => s.elemFail n st write (scaleIndex t.mxAxis idx)
    | none => none
  else none

/-- The places that a write of elements reaches, their scales included. -/
def State.writeSet (s : State) (n : Nat) (recs : Tbl TensorRec) (t : TensorRec) (idxs : List (List Nat)) : List (Nat × Nat) :=
  idxs.flatMap (s.elemPlaces n t) ++
    (match (if Fmt.isMx t.fmt then t.scaleTable.bind (tfind recs ·) else none) with
     | some st => idxs.flatMap fun x => s.elemPlaces n st (scaleIndex t.mxAxis x)
     | none => [])

/-- A write of elements that covers a poisoned burst in part: uncorrectable data for the writer (R145). -/
def State.poisonFail (s : State) (n : Nat) (recs : Tbl TensorRec) (t : TensorRec) (idxs : List (List Nat)) : Option Fail :=
  if s.poisonHit (s.writeSet n recs t idxs) then some { ftype := 0, level := 0, va := t.base, data := true } else none

/-- The indices of a 128-row block. -/
def blockIdx (t : TensorRec) (b : Nat) : List (List Nat) :=
  let br := max 1 (TensorRec.blockRows t)
  let r0 := b % br * 128
  (List.range (min 128 (TensorRec.dim t 1 - r0))).flatMap fun i => (List.range (TensorRec.dim t 0)).map fun c =>
    c :: (r0 + i) :: unlinear (t.dims.drop 2) (b / br)

/-- Position i of a row operation holds its parameters and their gradients. -/
def Flight.isParam (f : Flight) (i : Nat) : Bool := match f.desc.op with
  | .row _ bw _ => i == (if bw then 3 else 1)
  | _ => false

/-- The elements of operand i that a block touches: those of its rows, or for parameters every row of them. -/
def Flight.operandIdx (f : Flight) (i : Nat) (t : TensorRec) (idxs : List (List Nat)) : List (List Nat) :=
  if f.isParam i then (List.range (TensorRec.dim t 1)).flatMap fun k => (List.range (TensorRec.dim t 0)).map fun c => [c, k]
  else idxs.map (foldIdx t)

/-- The first fault among the operands of a flight on a block's elements. -/
def State.blockFail (s : State) (n : Nat) (f : Flight) (idxs : List (List Nat)) : Option (Fail × Bool) :=
  ((List.range 4).findSome? fun i => match f.operand i with
    | none => none
    | some (o, t) => (f.operandIdx i t idxs).findSome? fun x =>
        let rd := if o.role = .write then none else (s.elemFail n t false x).orElse fun _ => s.scaleFail n f.recs t false x
        match rd with
        | some e => some (e, false)
        | none => if writes o then ((s.elemFail n t true x).orElse fun _ => s.scaleFail n f.recs t true x).map fun e => (e, true) else none).orElse
  fun _ => (List.range 4).findSome? fun i => match f.operand i with
    | none => none
    | some (o, t) => if writes o && !f.isParam i then (s.poisonFail n f.recs t (f.operandIdx i t idxs)).map fun e => (e, true) else none

/-- The bursts that a block's outputs cover are written whole (R145). -/
def State.freshBlock (s : State) (n : Nat) (f : Flight) (idxs : List (List Nat)) : State :=
  (List.range 4).foldl (fun (u : State) i => match f.operand i with
    | none => u
    | some (o, t) => if writes o && !f.isParam i then u.rewrite (u.writeSet n f.recs t (f.operandIdx i t idxs)) else u) s

/-- An engine's fault: the block is abandoned, the context suspended. -/
def State.engineFault (s : State) (n sq q src : Nat) (e : Fail) (write : Bool) : State :=
  if e.data then s.suspend n (sq / 16)
  else s.transFault n { va := BitVec.ofNat 64 e.va, ftype := e.ftype, srcType := src, srcInst := sq, write := write, level := e.level, queue := q, chan := sq / 16 }

/-! ## Function tables (R80) -/

/-- 2^k as a binary32 pattern's value. -/
def pow2 (k : Int) : Num := .fin false 1 k

/-- A table's value on x. -/
def FnTable.eval (t : FnTable) (x : Word) : Word :=
  let v := decode32 x
  let lo := decode32 t.xlo
  if v.isNan then qnan32
  else if ltNum v lo then (if v.isInf && (decode32 t.lower.1).isZero then t.lower.2 else fFma t.lower.1 x t.lower.2)
  else
    let d := v.dy.sub lo.dy
    if v.isInf || (Dy.le ((pow2 t.p).dy.scale 8) d) then (if v.isInf && (decode32 t.upper.1).isZero then t.upper.2 else fFma t.upper.1 x t.upper.2)
    else
      let q := d.scale (-t.p)
      let i := q.floor.toNat
      let u := encode32 (roundDy p32 (q.sub ⟨i, 0⟩))
      let c := tget (0, 0, 0, 0) t.segs i
      fFma (fFma (fFma c.2.2.2 u c.2.2.1) u c.2.1) u c.1

/-! ## Vector programs (R80, R81, R86) -/

/-- Word k of the transfer that a descriptor's mailbox shows; one word serves every element. -/
def mboxWord (l : List ShortMsg) (k : Nat) : Word :=
  let b := transferBytes l
  let n := b.length / 4
  BitVec.ofNat 32 (leNat ((b.drop (4 * (if n = 0 then 0 else k % n))).take 4))

/-- An operand's element as binary32; operand 1 may come from the mailbox. -/
def State.vecIn (s : State) (n : Nat) (f : Flight) (mb : Option (List ShortMsg)) (i : Nat) (idx : List Nat) : Word :=
  match f.operand i with
  | some (_, t) => (s.elem32 n f.recs t (foldIdx t idx)).getD 0
  | none => match mb with
    | some l => mboxWord l (idx.headD 0)
    | none => 0

/-- Both operands of a program have format g. -/
def Flight.bothFmt (f : Flight) (g : Fmt) : Bool := (List.range 2).all fun i => (f.operand i).any fun p => p.2.fmt == g

/-- The sum of two values, exact where it is finite. -/
def exactAdd (x y : Num) : Num :=
  match x, y with
  | .fin s m e, .fin t k h => numOfDy ((Num.fin s m e).dy.add (Num.fin t k h).dy)
  | a, b => addNum p32 a b

/-- A sum or difference of parts in their own accumulator format (R40, R47): of pairs exact, which the cast rounds once to a binary32
or a pair, and else rounds first; of INT32 modulo 2^32. -/
def State.partSum (s : State) (n : Nat) (f : Flight) (minus : Bool) (to_ : Fmt) (idx : List Nat) : Option Num :=
  let v (i : Nat) : Num := match f.operand i with
    | some (_, t) => (s.elem n f.recs t false (foldIdx t idx)).getD .nan
    | none => .nan
  let y := if minus then (v 1).neg else v 1
  if f.bothFmt .fp32e then
    (match exactAdd (v 0) y with
     | .fin sg m e => some (if to_ = .fp32e ∨ to_ = .fp32 then .fin sg m e else roundNum p32 sg m e)
     | z => some z)
  else if f.bothFmt .int32 then some (numOfInt (BitVec.ofInt 32 (numInt (v 0) + numInt y)).toInt) else none

/-- The value of a vector program on an element. -/
def State.vecVal (s : State) (n : Nat) (f : Flight) (mb : Option (List ShortMsg)) (op : VecOp) (to_ : Fmt) (idx : List Nat) : Num :=
  let x (i : Nat) : Word := s.vecIn n f mb i idx
  let tab (k : Nat) : FnRecord := tget ⟨⟨0, 0, [], (0, 0), (0, 0)⟩, ⟨0, 0, [], (0, 0), (0, 0)⟩⟩ (s.ctx n).fns k
  match op with
  | .cast => (match f.operand 0 with
    | some (_, t) => (s.elem n f.recs t false (foldIdx t idx)).getD .nan
    | none => .nan)
  | .add => (s.partSum n f false to_ idx).getD (decode32 (fAdd (x 0) (x 1)))
  | .sub => (s.partSum n f true to_ idx).getD (decode32 (fSub (x 0) (x 1)))
  | .mul => decode32 (fMul (x 0) (x 1))
  | .sel => decode32 (fSel (x 0) (x 1) (x 3))
  | .table k => decode32 (FnTable.eval (tab k).fwd (x 0))
  | .tableBwd k => decode32 (fMul (x 1) (FnTable.eval (tab k).deriv (x 0)))
  | .useSum =>
    let l := (List.range 3).filter fun i => (f.operand i).isSome
    decode32 ((l.drop 1).foldl (fun a i => fAdd a (x i)) (x (l.headD 0)))

/-- Write values of a block to an output and note what the write reports. -/
def State.putOut (s : State) (n : Nat) (f : Flight) (pos : Nat) (t : TensorRec) (xs : List (List Nat × Num)) : State :=
  s.putFlight n f.seq pos f.recs t f.desc.stochastic f.desc.ovfReport false (s.ctx n).stepNow xs

/-- A block of a cast whose sources may be NaN of a sign: the sign bit of the element's code, also where an MX scale of 0xFF makes it NaN
(R48; DESIGN CHOICE, log 52). A cast from FP32E to FP32E leaves the pair as it is. -/
def State.putCast (s : State) (n : Nat) (f : Flight) (src : TensorRec) (pos : Nat) (t : TensorRec) (xs : List (List Nat × Num)) : State :=
  if Fmt.isMx t.fmt then s.putOut n f pos t xs
  else if src.fmt = .fp32e ∧ t.fmt = .fp32e then
    s.putCodes n f.seq pos t (xs.map fun p => (p.1, (s.getCode n src (foldIdx src p.1)).getD 0))
  else xs.foldl (fun (u : State) p =>
    let neg := elemSign src.fmt ((s.getCode n src (foldIdx src p.1)).getD 0)
    (u.putNum n t f.desc.stochastic f.desc.ovfReport (s.ctx n).stepNow p.1 p.2 neg).note n f.seq pos f.desc.ovfReport) s

/-- The vector program of a flight over a block. -/
def State.vecBlock (s : State) (n : Nat) (f : Flight) (mb : Option (List ShortMsg)) (op : VecOp) (t : TensorRec) (idxs : List (List Nat)) : State :=
  let xs := idxs.map fun x => (x, s.vecVal n f mb op t.fmt x)
  let pos := match op with | .useSum => 3 | _ => 2
  match op, f.operand 0 with
  | .cast, some (_, a) => s.putCast n f a pos t xs
  | _, _ => s.putOut n f pos t xs

/-! ## Row operations (R82, R83) -/

/-- Sum in the order of R82: chunks of 128 pairwise, chunk sums in chunk order. -/
def rowSum (l : List Word) : Word :=
  (List.range (ceilDiv l.length 128)).foldl (fun acc i => fAdd acc (pairSumGo 8 ((l.drop (128 * i)).take 128))) 0
def rowMean (l : List Word) : Word := fDiv (rowSum l) (fOfNat l.length)

def negInf32 : Word := 0xFF800000

/-- Terms of the series of exp(r): the n-th term t, its number, and the sum so far, in units of 2^-240. -/
def expSeries (r : Nat) : Nat → Nat → Nat → Nat → Nat
  | 0, _, _, acc => acc
  | fuel + 1, n, t, acc =>
    let u := t * r / (2 ^ 240 * n)
    expSeries r fuel (n + 1) u (acc + u)

/-- A square in units of 2^-240, n times. -/
def sqTimes : Nat → Nat → Nat
  | 0, y => y
  | n + 1, y => sqTimes n (y * y / 2 ^ 240)

/-- exp of m x 2^e, below 128, in units of 2^-240: a series of exp(x / 2^16), squared 16 times. -/
def expFix (m : Nat) (e : Int) : Nat :=
  let x := if 0 ≤ e then m * 2 ^ e.toNat * 2 ^ 240 else m * 2 ^ 240 / 2 ^ (-e).toNat
  sqTimes 16 (expSeries (x / 2 ^ 16) 30 1 (2 ^ 240) (2 ^ 240))

/-- The greatest binary32 magnitude not above exp of a finite value, as a pattern. -/
def expDown (s : Bool) (m : Nat) (e : Int) : Nat :=
  if Dy.le ⟨128, 0⟩ (Num.fin false m e).dy then (if s then 0 else 0x7F800000)
  else
    let y := if s then 2 ^ 480 / expFix m e else expFix m e
    let r := srMag p32 y (-240) 0
    capTo 0x7F800000 (encodeNum p32 8 (.fin false r.1 r.2))

/-- The exponential E of the row engine: within 1 ulp of the exact value, on either side of it; E(-infinity) = +0 (R82). -/
def rowE (x : Word) : Word :=
  match decode32 x with
  | .nan => qnan32
  | .inf s => if s then 0 else 0x7F800000
  | .fin s m e => if m = 0 then 0x3F800000 else
      let d := expDown s m e
      if Config.rowExpUp x && decide (d < 0x7F800000) then BitVec.ofNat 32 (d + 1) else BitVec.ofNat 32 d

/-- Statistics of a row: the stat pair (R82). -/
def rowStats (k : RowKind) (eps : Word) (x : List Word) : Word × Word :=
  match k with
  | .layernorm =>
    let mu := rowMean x
    let v := rowMean (x.map fun a => fMul (fSub a mu) (fSub a mu))
    (mu, fRsqrt (fAdd v eps))
  | .rmsnorm => (0, fRsqrt (fAdd (rowMean (x.map fun a => fMul a a)) eps))
  | .softmax =>
    (List.range (ceilDiv x.length 128)).foldl (fun (p : Word × Word) i =>
      let ch := (x.drop (128 * i)).take 128
      let m := ch.foldl fMax p.1
      if m = negInf32 then p
      else (m, fAdd (fMul p.2 (rowE (fSub p.1 m))) (pairSumGo 8 (ch.map fun a => rowE (fSub a m))))) (negInf32, 0)

/-- x-hat of a row. -/
def rowHat (k : RowKind) (st : Word × Word) (x : List Word) : List Word :=
  match k with
  | .rmsnorm => x.map fun a => fMul a st.2
  | _ => x.map fun a => fMul (fSub a st.1) st.2

/-- Probabilities of a row; a row with every score masked gives zeros (R61). -/
def rowProb (st : Word × Word) (x : List Word) : List Word :=
  x.map fun a => if st.1 = negInf32 then 0 else fDiv (rowE (fSub a st.1)) st.2

/-- The forward output of a row, with gamma and beta where given (R82; DEDUCED, log 34). -/
def rowForwardOut (k : RowKind) (st : Word × Word) (x : List Word) (gam bet : Option (List Word)) : List Word :=
  match k with
  | .softmax => rowProb st x
  | k =>
    let h := rowHat k st x
    let h := match gam with | some g => (h.zip g).map fun p => fMul p.1 p.2 | none => h
    match bet with | some b => (h.zip b).map fun p => fAdd p.1 p.2 | none => h

/-- The backward output of a row (R82). -/
def rowBackwardOut (k : RowKind) (st : Word × Word) (x dy : List Word) (gam : Option (List Word)) : List Word :=
  match k with
  | .softmax =>
    let p := rowProb st x
    let dot := rowSum ((dy.zip p).map fun q => fMul q.1 q.2)
    (dy.zip p).map fun q => fMul q.2 (fSub q.1 dot)
  | k =>
    let h := rowHat k st x
    let g := match gam with | some g => (dy.zip g).map fun p => fMul p.1 p.2 | none => dy
    let mgx := rowMean ((g.zip h).map fun p => fMul p.1 p.2)
    let mg := rowMean g
    (g.zip h).map fun p =>
      let a := match k with | .layernorm => fSub p.1 mg | _ => p.1
      fMul st.2 (fSub a (fMul p.2 mgx))

/-- A row of a tensor as binary32. -/
def State.rowOf (s : State) (n : Nat) (f : Flight) (t : TensorRec) (tail : List Nat) : List Word :=
  (List.range (TensorRec.dim t 0)).map fun c => (s.elem32 n f.recs t (foldIdx t (c :: tail))).getD 0

/-- The position of a row's scores is masked: the operation that wrote the tensor had a mask, which the row engine knows (R60; log 29). -/
def State.masked (s : State) (n : Nat) (f : Flight) (tail : List Nat) (c : Nat) : Bool :=
  match (f.desc.t.getD 0 none).bind fun o => ((s.ctx n).resolve false o.handle).bind (tfind (s.ctx n).masks ·) with
  | some (m, recs) => !s.maskLive n recs m (tail.headD 0 / 128) (c / 128)
  | none => false

/-- A row with v at the masked positions of its scores. -/
def State.maskRow (s : State) (n : Nat) (f : Flight) (v : Word) (tail : List Nat) (l : List Word) : List Word :=
  ((List.range l.length).zip l).map fun p => if s.masked n f tail p.1 then v else p.2

/-- A row of scores: masked tiles read as minus infinity (R60). -/
def State.scoreRow (s : State) (n : Nat) (f : Flight) (t : TensorRec) (tail : List Nat) : List Word :=
  s.maskRow n f negInf32 tail (s.rowOf n f t tail)

/-- Row k of a parameter operand, if it has one. -/
def State.paramRow (s : State) (n : Nat) (f : Flight) (i k : Nat) : Option (List Word) :=
  match f.operand i with
  | some (_, t) => if k < TensorRec.dim t 1 then some (s.rowOf n f t [k]) else none
  | none => none

/-! ## Statistics (R84) -/

/-- The key of a pair: its context and its backing address. -/
def statKey (n va : Nat) : Nat := n * 2 ^ 48 + va

/-- The linear row of a tail of indices. -/
def rowNumber (t : TensorRec) (tail : List Nat) : Nat := linear (t.dims.drop 1) tail

/-- Keep a pair: the oldest one is dropped from a full store (R84). -/
def Squad.keepStat (q : Squad) (k : Nat) (p : Word × Word) : Squad :=
  let l := q.stats.filter fun e => e.1 != k
  { q with stats := (if 65536 ≤ l.length then l.drop 1 else l) ++ [(k, p.1, p.2)] }

/-- A pair leaves every squad's store: it is released, or formed anew on some squad (R84). -/
def State.dropStat (s : State) (k : Nat) : State :=
  (List.range 64).foldl (fun (t : State) q =>
    if (t.squad q).stats.any fun e => e.1 == k then t.modSquad q fun x => { x with stats := x.stats.filter fun e => e.1 != k } else t) s

/-- A pair is written to the store and to its backing; no other squad keeps an older one (R84). -/
def State.writeStat (s : State) (sq n : Nat) (va : Option Nat) (p : Word × Word) : State :=
  match va with
  | none => s
  | some a => ((s.dropStat (statKey n a)).modSquad sq (·.keepStat (statKey n a) p)).vwrite n none a (leBytes 4 p.1.toNat ++ leBytes 4 p.2.toNat)

/-- A pair as a backward row finds it: resident, else from its backing; without a backing it is formed again. -/
def State.readStat (s : State) (sq n : Nat) (va : Option Nat) (k : RowKind) (eps : Word) (x : List Word) : Word × Word :=
  match va with
  | none => rowStats k eps x
  | some a =>
    match (s.squad sq).stats.find? fun e => e.1 == statKey n a with
    | some e => (e.2.1, e.2.2)
    | none => match s.vread n none a 8 with
      | some b => (BitVec.ofNat 32 (leNat (b.take 4)), BitVec.ofNat 32 (leNat (b.drop 4)))
      | none => rowStats k eps x

/-- The address of a row's pair. -/
def statVa (t : TensorRec) (tail : List Nat) : Option Nat := t.statsBacking.map fun a => a + 8 * rowNumber t tail

/-- The fault of the statistics of a row: a forward row writes its backing, a backward row reads a pair that is not resident. -/
def State.statFail (s : State) (sq n : Nat) (backward : Bool) (va : Option Nat) : Option (Fail × Bool) :=
  match va with
  | none => none
  | some a =>
    if backward && (s.squad sq).stats.any (fun e => e.1 == statKey n a) then none
    else ((List.range 8).findSome? fun i => match s.access n (a + i) (!backward) none with
      | .inl e => some (e, !backward)
      | .inr _ => none).orElse fun _ =>
        if !backward && s.poisonHit (s.places n none (a + ·) 8) then some ({ ftype := 0, level := 0, va := a, data := true }, true) else none

/-- The tails of a block's rows: a block has rows of one outer index, as a tile has (R73, R83, R84; DESIGN CHOICE, log 52). -/
def blockTails (t : TensorRec) (b : Nat) : List (List Nat) :=
  let br := max 1 (TensorRec.blockRows t)
  let r0 := b % br * 128
  (List.range (min 128 (TensorRec.dim t 1 - r0))).map fun i => (r0 + i) :: unlinear (t.dims.drop 2) (b / br)

def withIdx (tail : List Nat) (l : List Word) : List (List Nat × Num) :=
  ((List.range l.length).zip l).map fun p => (p.1 :: tail, decode32 p.2)

/-- One row, forward or backward. The gradient of a masked score is zero, whatever stands in dP's unwritten tiles (R60, R61). -/
def State.rowStep (s : State) (sq n : Nat) (f : Flight) (k : RowKind) (bw : Bool) (eps : Word) (xt t : TensorRec) (tail : List Nat) : State :=
  let x := if k = .softmax then s.scoreRow n f xt tail else s.rowOf n f xt tail
  let va := statVa xt tail
  if bw then
    let st := s.readStat sq n va k eps x
    let dy := match f.operand 1 with | some (_, d) => s.rowOf n f d tail | none => []
    let out := if k = .softmax then s.maskRow n f 0 tail (rowBackwardOut k st x (s.maskRow n f 0 tail dy) none)
      else rowBackwardOut k st x dy (s.paramRow n f 3 0)
    let u := s.putOut n f 2 t (withIdx tail out)
    match va with
    | some a => u.dropStat (statKey n a)
    | none => u
  else
    let st := rowStats k eps x
    (s.putOut n f 2 t (withIdx tail (rowForwardOut k st x (s.paramRow n f 1 0) (s.paramRow n f 1 1)))).writeStat sq n va st

def State.rowBlock (s : State) (sq n : Nat) (f : Flight) (k : RowKind) (bw : Bool) (eps : Word) (xt t : TensorRec) (b : Nat) : State :=
  (blockTails t b).foldl (fun (u : State) tail => u.rowStep sq n f k bw eps xt t tail) s

/-- Gradients of gamma and beta of one block: rows in ascending order (R83). -/
def State.gammaPart (s : State) (sq n : Nat) (f : Flight) (k : RowKind) (eps : Word) (xt dt : TensorRec) (b : Nat) : List Word × List Word :=
  let z := List.replicate (TensorRec.dim xt 0) (0 : Word)
  (blockTails xt b).foldl (fun acc tail =>
    let x := s.rowOf n f xt tail
    let h := rowHat k (s.readStat sq n (statVa xt tail) k eps x) x
    let dy := s.rowOf n f dt tail
    ((acc.1.zip (dy.zip h)).map fun p => fAdd p.1 (fMul p.2.1 p.2.2), (acc.2.zip dy).map fun p => fAdd p.1 p.2)) (z, z)

/-- After the last block of a normalisation's backward pass, rows 1 and 2 of T3 receive the gradients of gamma and beta, the block
partials summed pairwise by block index (R83; DEDUCED, log 34). -/
def State.gammaGrad (s : State) (sq n : Nat) (f : Flight) (k : RowKind) (eps : Word) (xt dt : TensorRec) : State :=
  match f.operand 3 with
  | some (o, t) =>
    if !writes o then s
    else
      let ps := (List.range (TensorRec.rowBlocks xt)).map fun b => s.gammaPart sq n f k eps xt dt b
      let col (g : List Word × List Word → List Word) : List Word :=
        (List.range (TensorRec.dim xt 0)).map fun c => pairwise fAdd 0 40 (ps.map fun p => (g p).getD c 0)
      let put (u : State) (r : Nat) (l : List Word) : State := if r < TensorRec.dim t 1 then u.putOut n f 3 t (withIdx [r] l) else u
      put (put s 1 (col (·.1))) 2 (col (·.2))
  | none => s

/-! ## Committing -/

/-- Block b of a flight has committed on a squad (R290, R295). -/
def State.commitBlock (s : State) (n : Nat) (f : Flight) (b sq : Nat) : State :=
  (s.modFlight n f.seq (·.commitItem b)).afterCommit n f.seq b sq

/-- The flight of a class with a block left to a squad, in issue order. -/
def State.blockOf (s : State) (sq : Nat) (k : Cls) : Option (Nat × Flight × Nat) :=
  let go (n : Nat) : Option (Nat × Flight × Nat) :=
    if !s.working n then none
    else (s.ctx n).flight.findSome? fun f =>
      if f.phase == Phase.issued && f.desc.cls == k then (s.nextBlock sq f).map fun b => (n, f, b) else none
  (go 1).orElse fun _ => go 0

/-- An engine takes the oldest record of its port. -/
def State.popPort (s : State) (sq w : Nat) : State := s.modSquad sq (·.takeRec w)

/-- A vector core commits a block. A descriptor that names a mailbox waits for a visible transfer (R129). -/
def State.commitVector (s : State) (sq : Nat) : State :=
  match s.blockOf sq .vector with
  | none => s
  | some (n, f, b) =>
    match f.desc.op, f.blockTensor with
    | .vec op, some t =>
      let mb := f.desc.mbox.map fun k => (s.mbox sq n k).shown.head?
      match mb with
      | some none => s
      | _ =>
        let idxs := blockIdx t b
        match s.blockFail n f idxs with
        | some (e, w) => s.engineFault n sq f.queue 0x01 e w
        | none => (((s.freshBlock n f idxs).vecBlock n f (mb.bind id) op t idxs).commitBlock n f b sq).popPort sq 4
    | _, _ => s

/-- A row engine commits a block. -/
def State.commitRow (s : State) (sq : Nat) : State :=
  match s.blockOf sq .row with
  | none => s
  | some (n, f, b) =>
    match f.desc.op, f.operand 0, f.operand 2 with
    | .row k bw eps, some (_, xt), some (_, t) =>
      match s.blockFail n f (blockIdx t b), (blockTails t b).findSome? fun tail => s.statFail sq n bw (statVa xt tail) with
      | some (e, w), _ => s.engineFault n sq f.queue 0x01 e w
      | none, some (e, w) => s.engineFault n sq f.queue 0x05 e w
      | none, none =>
        let last := f.itemsDone + 1 == f.items && bw && k != RowKind.softmax
        let u := match f.operand 1 with
          | some (_, dt) => if last then s.gammaGrad sq n f k eps xt dt else s
          | none => s
        (((u.freshBlock n f (blockIdx t b)).rowBlock sq n f k bw eps xt t b).commitBlock n f b sq).popPort sq 5
    | _, _, _ => s

/-- The fault of reading or writing the elements of an update block. -/
def State.updFail (s : State) (n : Nat) (f : Flight) (en : ShardEntry) (apply_ : Bool) (first last : Nat) : Option (Fail × Bool) :=
  let c := s.ctx n
  let a := entryBank en c.activeBank
  let b := entryBank en c.writeBank
  let chk (h : Option Nat) (w : Bool) : Option (Fail × Bool) := match h.bind (c.recOf f ·) with
    | some t => (List.range (last - first)).findSome? fun i => (s.elemFail n t w (unlinear t.dims (first + i))).map fun e => (e, w)
    | none => none
  let rd := [some en.grad, some a.1] ++ (if apply_ then [a.2.1, a.2.2] else [])
  let wr := if apply_ then [some b.1, b.2.1, b.2.2] else []
  let psn (h : Option Nat) : Option (Fail × Bool) := match h.bind (c.recOf f ·) with
    | some t => (s.poisonFail n f.recs t ((List.range (last - first)).map fun i => unlinear t.dims (first + i))).map fun e => (e, true)
    | none => none
  ((rd.findSome? fun h => chk h false).orElse fun _ => wr.findSome? fun h => chk h true).orElse fun _ => wr.findSome? psn

/-- The bursts that an APPLY block covers are written whole (R145). -/
def State.freshUpd (s : State) (n : Nat) (f : Flight) (en : ShardEntry) (first last : Nat) : State :=
  let c := s.ctx n
  let b := entryBank en c.writeBank
  [some b.1, b.2.1, b.2.2].foldl (fun (u : State) h => match h.bind (c.recOf f ·) with
    | some t => u.rewrite (u.writeSet n f.recs t ((List.range (last - first)).map fun i => unlinear t.dims (first + i)))
    | none => u) s

/-- A lane that keeps its element: what copy mode commits (R271). -/
def Lane.keep : Lane := { g := 0, w := 0, m1 := 0, m2 := 0, x := [], wOut := none, m1Out := none, m2Out := none }

/-- The update unit commits a block: a NORM block's partials, or an APPLY block's outputs once its program has run over it. -/
def State.commitUpdate (s : State) (sq : Nat) : State :=
  match s.blockOf sq .update with
  | none => s
  | some (n, f, b) =>
    let c := s.ctx n
    match blockAt (c.blockSizes f) 0 b, c.shard with
    | some (e, k), some sh =>
      match sh.entries[e]? with
      | none => s
      | some en =>
        let first := k * blockElems
        let last := blockLast (c.entrySize f en) k
        let isApply := match f.desc.op with | .apply _ _ => true | _ => false
        match s.updFail n f en isApply first last with
        | some (x, w) => s.engineFault n sq f.queue 0x01 x w
        | none =>
          match f.desc.op with
          | .norm _ _ =>
            let p := s.normBlock n f en first last
            ((s.modCtx n fun c => { c with upd := { c.upd with parts := c.upd.parts ++ [(b, en.group, p.1, p.2)] } }).commitBlock n f b sq).popPort sq 4
          | .apply pr _ =>
            if f.copyMode then
              (((s.freshUpd n f en first last).applyBlock n f e en first (List.replicate (last - first) Lane.keep) true []).commitBlock n f b sq).popPort sq 4
            else match (s.squad sq).upe, tfind c.updProgs pr with
              | some u, some p =>
                if u.ctx = n ∧ u.seq = f.seq ∧ u.block = b ∧ u.lanes.isEmpty then
                  ((((s.freshUpd n f en first last).applyBlock n f e en first u.done false p.sr).modSquad sq fun q => { q with upe := none }).commitBlock n f b sq).popPort sq 4
                else s
              | _, _ => s
          | _ => s
    | _, _ => s

/-- The part of a buffer that a MOVE record with a layout conversion names, as a skewed tensor of rows (R77, R112). -/
def StreamRec.tiles (r : StreamRec) (sq place : Nat) : Option TensorRec :=
  r.x.conv.map fun v =>
    { fmt := v.1, dims := [v.2, ceilDiv (r.len.toNat * 8) (Fmt.bits v.1 * v.2)], strides := [], home := .squad sq, base := place, skewed := true, mxAxis := 0,
      scaleTable := none, pat24 := none, occMap := none, mapKDim := 0, mapValid := false, frozenMask := none, frozenBlock := false, nf := .unknown,
      srSeed := 0, srStep := false, statsBacking := none }

/-- The byte of the squad store where a MOVE record's part of its buffer begins. -/
def State.bufferAt (s : State) (sq : Nat) (r : StreamRec) : Option Nat :=
  r.pool.bind fun b => (s.pool sq r.ctx b.1).map fun pl => pl.plan.base + b.2 * pl.plan.size + r.aux.toNat

/-- Bytes that come from memory land in a record's buffer from byte k on, converted to skewed tiles where the record says so (R77, R112). -/
def State.land (s : State) (sq : Nat) (r : StreamRec) (k : Nat) (l : List Byte) : State :=
  match s.bufferAt sq r with
  | none => s
  | some a => match r.tiles sq a with
    | none => s.storeWrite sq (a + k) l
    | some t => (s.streamWrite r.ctx t k l).edgeFill r.ctx t

/-- The bytes of a record's buffer as they go out to memory. -/
def State.lift (s : State) (sq : Nat) (r : StreamRec) : List Byte :=
  match s.bufferAt sq r with
  | none => []
  | some a => match r.tiles sq a with
    | none => s.storeRead sq a r.len.toNat
    | some t => (s.streamRead r.ctx t 0 r.len.toNat).getD []

/-- The squad fetch unit moves a record's range between memory and its buffer (R112, R113). -/
def State.fetchMove (s : State) (sq : Nat) (r : StreamRec) : State :=
  if r.write then (s.rewrite (s.places r.ctx none (r.addr.toNat + ·) r.len.toNat)).vwrite r.ctx none r.addr.toNat (s.lift sq r)
  else s.land sq r 0 ((s.vread r.ctx none r.addr.toNat r.len.toNat).getD [])

/-- The first fault of a record's range of memory. -/
def State.fetchFail (s : State) (r : StreamRec) : Option Fail :=
  ((List.range r.len.toNat).findSome? fun i => match s.access r.ctx (r.addr.toNat + i) r.write none with
    | .inl e => some e
    | .inr _ => none).orElse fun _ =>
      if r.write && s.poisonHit (s.places r.ctx none (r.addr.toNat + ·) r.len.toNat) then some { ftype := 0, level := 0, va := r.addr.toNat, data := true } else none

/-- The bursts of a record's range. -/
def State.fetchBursts (s : State) (r : StreamRec) : List (Nat × Nat) :=
  burstsAt ((List.range r.len.toNat).filterMap fun i => s.place r.ctx (r.addr.toNat + i) r.write none)

/-- The squad fetch unit takes the next MOVE record: a range that cannot be accessed is its fault; its bursts wait for the record's
partition and for held pseudo-channels; a block that comes by multicast is not fetched (R29, R112, R113, R120, R150, R167). -/
def State.commitFetch (s : State) (sq : Nat) : State :=
  match (tget [] (s.squad sq).fifo 0).head? with
  | none => s
  | some r =>
    if !s.working r.ctx || (!r.write && r.pool.isSome && s.byMesh sq r) then s
    else match s.fetchFail r with
      | some e => s.engineFault r.ctx sq (match (s.ctx r.ctx).fl r.seq with | some f => f.queue | none => 0) 0x01 e r.write
      | none => match s.regulate r.part (s.fetchBursts r) with
        | none => s
        | some t => (t.fetchMove sq r).popPort sq 0

/-- BLOCK_COMMIT (R84, R272, R273, R290). -/
def execBlockCommit (e : Engine) (s : State) : Res :=
  match e with
  | .vector sq => guard (!(s.squad sq).fenced && (s.squad sq).portReady 4) s (s.commitVector sq)
  | .row sq => guard (!(s.squad sq).fenced && (s.squad sq).portReady 5) s (s.commitRow sq)
  | .update sq => guard (!(s.squad sq).fenced && (s.squad sq).portReady 4) s (s.commitUpdate sq)
  | .fetch sq => guard (!(s.squad sq).fenced && (s.squad sq).portReady 0) s (s.commitFetch sq)
  | .array _ | .dma _ _ | .collective _ | .dispatcher _ => .next s

/-! ## K_STEP_ISSUE -/

/-- The fault of reading element (r, c) of a matrix operand: its 2:4 index entry, the element, its scale. -/
def State.matFail (s : State) (n : Nat) (recs : Tbl TensorRec) (t : TensorRec) (g r c : Nat) : Option Fail :=
  let pat := match t.pat24.bind (tfind recs ·) with
    | some p => s.elemFail n p false [r / 4, c / 128]
    | none => none
  pat.orElse fun _ => match s.keptRow n recs t r c with
    | none => none
    | some r' =>
      if TensorRec.dim t 1 ≤ r' ∨ TensorRec.dim t 0 ≤ c then none
      else (s.elemFail n t false (mIdx g r' c)).orElse fun _ => s.scaleFail n recs t false (mIdx g r' c)

def State.vecFail (s : State) (n : Nat) (recs : Tbl TensorRec) (o : Operand) (t : TensorRec) (g i k : Nat) : Option Fail :=
  if o.col then s.matFail n recs t g i k else s.matFail n recs t g k i

/-- The first fault among the operands of one step of a sub-block; a block that the occupancy map leaves out is not read. -/
def State.stepFail (s : State) (f : Feed) (sh : Shape) (it : Item) (sb : Nat × Nat) (k : Nat) : Option Fail :=
  let a (i : Nat) : Option Fail := if s.occZero f f.ao f.ar 0 i k then none else s.vecFail f.ctx f.fl.recs f.ao f.ar 0 i (k - f.k0)
  let b (j : Nat) : Option Fail := if s.occZero f f.bo f.br f.group j k then none else s.vecFail f.ctx f.fl.recs f.bo f.br f.group j (k - f.k0)
  ((rowsOfSub sh it sb.1).findSome? fun i => a (it.row0 + sb.1 * 128 + i)).orElse fun _ =>
    (List.range 128).findSome? fun j => b (it.col0 + sb.2 * 128 + j)

/-- The fault of the operands of a cycle, with the queue of its descriptor. -/
def State.cycleFail (s : State) (it : Item) : Option (Nat × Fail) :=
  match s.matOf it with
  | none => none
  | some (m, d) =>
    let it := s.seekTurn m d.shape stageWindows it
    match (segAt m it.kPos).bind fun g => s.feed it g with
    | some f =>
      let sb := (subBlocks d.shape).getD (it.sub % (subBlocks d.shape).length) (0, 0)
      if decide (it.kHi ≤ it.kPos) || it.atStageEnd then none
      else ((s.turnSteps m d.shape it it.sub).findSome? fun k => s.stepFail f d.shape it sb k).map fun e => (f.fl.queue, e)
    | none => none

/-- K_STEP_ISSUE: the k-steps of one cycle enter the slot of one sub-block (R16, R27, R62). Operands that cannot be read are a fault of
the squad's fetch unit, and nothing is issued (R145, R167). -/
def execKStepIssue (sq : Nat) (s : State) : Res :=
  match (s.squad sq).arr.current with
  | none => .next s
  | some it =>
    if (s.squad sq).fenced || !s.working it.ctx || (s.squad sq).arr.reload != 0 || it.atStageEnd then .next s
    else match s.cycleFail it with
      | some (q, e) => .next (s.engineFault it.ctx sq q 0x01 e false)
      | none => match s.issueCycle sq it with
        | some t => .next t
        | none => .next s

/-! ## TILE_CHECK_VERDICT -/

/-- Every part of a draining item's tile but the item's own has committed (R45). -/
def MatOp.othersDone (m : MatOp) (it : Item) : Bool :=
  (List.range m.parts).all fun p => p == it.part || m.partVals.any fun e => e.1 == it.index / m.parts && e.2.1 == p

/-- What the commit of a tile writes to memory: the descriptor, its output and the elements. -/
def State.tileWrites (s : State) (m : MatOp) (d : Descriptor) (dr : Drain) : Option (Flight × TensorRec × List (List Nat)) :=
  let it := dr.item
  match (segAt m it.kLo).bind fun g => s.feed it g, (s.ctx it.ctx).fl m.seq with
  | some f, some last =>
    if last.desc.destTag.isSome || !m.othersDone it then none
    else (last.operand 2).map fun o => (last, o.2, (s.tileOut it d.shape d.accFmt f last.recs o.2 dr.flat).map (·.1))
  | _, _ => none

/-- The places of the send ring that a tile for a reduction takes, with the queue of its descriptor (R89). -/
def State.ringWrites (s : State) (m : MatOp) (d : Descriptor) (dr : Drain) : Option (Nat × List (Nat × Nat)) :=
  let it := dr.item
  match d.destTag, (segAt m it.kLo).bind fun g => s.feed it g, (s.ctx it.ctx).fl m.seq with
  | some tag, some f, some last =>
    if !m.othersDone it then none
    else (last.operand 2).map fun o =>
      (last.queue, (s.ctx it.ctx).ringSpans tag o.2.fmt o.2 ((s.tileOut it d.shape d.accFmt f last.recs o.2 dr.flat).map (·.1)))
  | _, _, _ => none

/-- The ring's writes go through partition P3: none while they wait for it (R89, R140). -/
def State.ringRegulate (s : State) (m : MatOp) (d : Descriptor) (dr : Drain) : Option State :=
  match s.ringWrites m d dr with
  | none => some s
  | some (_, l) => s.regulate 3 (burstsAt (l.flatMap fun r => s.places dr.item.ctx none (r.1 + ·) r.2))

/-- The fault of a tile's commit, with the queue of its descriptor (R89, R145, R167). -/
def State.tileFault (s : State) (m : MatOp) (d : Descriptor) (dr : Drain) : Option (Nat × Fail) :=
  match s.tileWrites m d dr with
  | none => (s.ringWrites m d dr).bind fun p => (p.2.findSome? fun r => s.writeFail dr.item.ctx none (r.1 + ·) 0 r.2).map fun e => (p.1, e)
  | some (f, t, idxs) =>
    let n := dr.item.ctx
    ((idxs.findSome? fun x => (s.elemFail n t true x).orElse fun _ => s.scaleFail n f.recs t true x).orElse fun _ =>
      s.poisonFail n f.recs t idxs).map fun e => (f.queue, e)

/-- The bursts that a tile's output covers are written whole (R145). -/
def State.freshTile (s : State) (m : MatOp) (d : Descriptor) (dr : Drain) : State :=
  match s.tileWrites m d dr with
  | none => s
  | some (f, t, idxs) => s.rewrite (s.writeSet dr.item.ctx f.recs t idxs)

/-- The verdict commits the tile: its checks pass, or its third run drains what its second drained (R25, R293). -/
def MatOp.commits (m : MatOp) (sq : Nat) (dr : Drain) (pass : Bool) : Bool :=
  pass || (match m.ladder.find? fun l => l.index == dr.item.index with
    | some l => l.home != sq && l.runs == 2 && l.fold == dr.fold
    | none => false)

/-- A verdict of a tile whose output can be written. -/
def State.verdict (s : State) (sq : Nat) (m : MatOp) (d : Descriptor) (dr : Drain) (rf cf : List Nat) (det : Nat) : State :=
  let t := s.modSquad sq fun q => { q with arr := { q.arr with drain := none } }
  if rf.isEmpty && cf.isEmpty then (t.freshTile m d dr).tilePass sq m d dr
  else
    let t := t.modSquad sq fun q => { q with arr := { q.arr with checkFail := capTo max32 (q.arr.checkFail + 1) } }
    (if m.commits sq dr false then t.freshTile m d dr else t).tileFail sq m d dr rf cf det

/-- TILE_CHECK_VERDICT: the tile is committed or enters classification (R25, R290, R293). A tile whose output cannot be written keeps its
drained values: its context is suspended for the fault, and the verdict comes again (R167, R168). A detector's fault in
the same cycle is only recorded: the checksum's verdict is taken alone (R307). -/
def execTileCheckVerdict (sq : Nat) (s : State) : Res :=
  match (s.squad sq).arr.drain with
  | none => .next s
  | some dr0 =>
    if !dr0.rungs.isEmpty || !s.working dr0.item.ctx then .next s
    else match (s.ctx dr0.item.ctx).mats.find? fun m => m.seq == dr0.item.seq with
      | none => .next (s.modSquad sq fun q => { q with arr := { q.arr with drain := none } })
      | some m =>
        match (s.ctx dr0.item.ctx).matDesc m with
        | none => .next s
        | some d =>
          if (s.ctx dr0.item.ctx).ringFull d then .next s else
          let dr := { dr0 with vals := applyErrs dr0.errs.cells dr0.vals }
          let v := dr.verdict d.accFmt d.shape
          let commits := m.commits sq dr (v.1.isEmpty && v.2.isEmpty)
          match (if commits then s.tileFault m d dr else none), (if commits then s.ringRegulate m d dr else some s) with
          | some (q, e), _ => .next (s.engineFault dr.item.ctx sq q 0x01 e true)
          | none, some t => .next (t.verdict sq m d dr v.1 v.2 dr.errs.det)
          | none, none => .next s

end Sys2Proof.Machine
end

