-- ==== Sys2Proof/Machine/LedgerCmds.lean ====
section
/-! DEFINITION. The ledger's commands: device and host records, reading, the key, the clear procedure (R310, R311, R316, R317, R319
to R324, R337). -/

namespace Sys2Proof.Machine

/-! ## Records -/

/-- LEDGER_RECORD_WRITE: a block offers a device record (R310). -/
def execLedgerRecordWrite (ch : Nat) (o : Offer) (s : State) : Res := .next (s.record ch o)

/-- RATE_INTERVAL: the counts of each CODE restart (R316). -/
def execRateInterval (s : State) : Res := .next (s.setLedger { s.ledger with rate := [] })

/-- The 40 bytes of LEDG_HMB. -/
def State.hmbBytes (s : State) : List Byte := (List.range 10).flatMap fun i => leBytes 4 (s.rg (pgLEDG + 0x160 + 4 * i))

/-- A submission that is refused (R317). -/
def hostBad (b : List Byte) (crc : Nat) : Bool :=
  let cls := leNat (b.take 2) / 1024
  let sev := leNat ((b.drop 2).take 1)
  (crc32 b).toNat != crc || decide (cls < 0x30) || sev / 64 == 3 || sev / 8 % 8 != 0

/-- A host record is written at once, or waits for an erase to end (R317, R324). -/
def State.hostRecord (s : State) (o : Offer) : State :=
  let r := s.stamp o true false
  let t := s.setLedger { s.ledger with uid := s.ledger.uid + 1 }
  if t.ledger.erasing.isSome then t.setLedger { t.ledger with waiting := t.ledger.waiting ++ [(0, r)] } else t.writeRec r

/-- HOST_RECORD_SUBMIT. -/
def execHostRecordSubmit (s : State) : Res :=
  let b := s.hmbBytes
  if s.ledger.busy then .next s
  else
    let t := s.setLedger { s.ledger with busy := true }
    if hostBad b (s.rg (pgLEDG + 0x188)) then .next (t.setLedger { t.ledger with hostReject := bump32 t.ledger.hostReject })
    else
      let o : Offer := { code := leNat (b.take 2), sev := leNat ((b.drop 2).take 1) / 64, fclass := 0, srcType := 0x52, srcInst := leNat ((b.drop 4).take 2),
                         payload := b.drop 8 }
      if t.floodMode (o.code / 1024) = 2 then
        .next (if t.rateFull o.code then t.setLedger (t.ledger.suppress o.code) else (t.setLedger (t.ledger.countRate o.code)).hostRecord o)
      else .next (t.hostRecord o)

/-- HMB_READY. -/
def execHmbReady (s : State) : Res := guard s.ledger.busy s ((s.setLedger { s.ledger with busy := false }).raise 242)

/-- LEDGER_READ_SELECT (R319). -/
def execLedgerReadSelect (index : Nat) (s : State) : Res :=
  let i := index % 2 ^ 17
  .next (s.setLedger { s.ledger with rdIndex := i, rdData := s.ledger.slotBytes i })

/-- PON_S_SAVE (R311). -/
def execPonSSave (s : State) : Res := .next (s.setMram { s.mram with ponS := s.dev.ponLive })

/-! ## The key (R320) -/

def tenS : Nat := 10000000000

/-- A key may be taken: none is provisioned, or the REKEY window is open. -/
def State.keyOpen (s : State) : Bool := s.mram.key.isNone || s.ledger.rekeyOpen.isSome

/-- KEY_WORD_WRITE. -/
def execKeyWordWrite (i : Nat) (w : Word) (s : State) : Res :=
  if !s.keyOpen then
    let t := s.badCommand pgLEDG
    .next (if i = 7 then t.log 4 0x4C03 1 0 0x51 0 (leBytes 1 0 ++ leBytes 1 (b2n s.host.active)) else t)
  else
    let st := tins i w s.ledger.stage
    match (List.range 8).mapM fun k => tfind st k with
    | none => .next (s.setLedger { s.ledger with stage := st })
    | some k =>
      let t := (s.setLedger { s.ledger with stage := [], rekeyOpen := none }).setMram { s.mram with key := some k }
      .next (t.log 4 0x0002 0 0 0x51 0 (leBytes 1 (b2n s.mram.key.isSome)))

/-- REKEY_WINDOW_CLOSE: after 10 s. -/
def execRekeyWindowClose (s : State) : Res :=
  guard (match s.ledger.rekeyOpen with
    | some t => decide (t + tenS ≤ s.clk.ltb)
    | none => false) s (s.setLedger { s.ledger with rekeyOpen := none, stage := [] })

/-! ## The clear (R321 to R324) -/

/-- The procedure writes STATUS: vector 241. -/
def State.clrStatus (s : State) (v : Nat) : State := (s.setLedger { s.ledger with status := v }).raise 241

/-- CLEAR_REQUEST. During an erase it has no effect (DEDUCED, log 42). -/
def execClearRequest (scope : Nat) (s : State) : Res :=
  let l := s.ledger
  let t := s.setLedger { l with scope := scope % 4 }
  if l.erasing.isSome then .next t
  else if l.lockUntil.isSome then .next (t.clrStatus 7)
  else if scope % 4 = 3 then .next ((t.setLedger { t.ledger with chal := none }).clrStatus 3)
  else
    let c := padTo 16 (Config.challenge l.chalCount)
    .next ((t.setLedger { t.ledger with chal := some (c, s.clk.ltb), chalBytes := c, chalCount := l.chalCount + 1, latched := scope % 4 }).clrStatus 1)

/-- The 29 bytes under the HMAC: challenge, SCOPE, serial, LEDG_HEAD. -/
def State.clrMessage (s : State) (chal : List Byte) : List Byte :=
  chal ++ leBytes 1 s.ledger.latched ++ leBytes 8 s.dev.serial.toNat ++ leBytes 4 s.ledger.head.toNat

/-- The response that the key calls for. -/
def State.clrExpect (s : State) (key : List Word) (chal : List Byte) : List Byte := hmac (key.flatMap fun w => leBytes 4 w.toNat) (s.clrMessage chal)

/-- The slots that a scope erases. -/
def erases (scope slot : Nat) : Bool := match scope with
  | 0 => decide (fatalSlots ≤ slot)
  | 1 => true
  | _ => false

/-- The oldest or newest SEQ of the slots to be erased. -/
def edgeSeq (newest : Bool) (l : Tbl Rec) : Nat :=
  match l with
  | [] => 0
  | e :: r => (r.foldl (fun (a : Rec) x => if (if newest then decide (a.order < x.2.order) else decide (x.2.order < a.order)) then x.2 else a) e.2).seq.toNat

/-- The payload of R323. -/
def State.clrPayload (s : State) : List Byte :=
  let l := s.ledger
  let gone := l.slots.filter fun e => erases l.latched e.1
  let sup := (l.suppr.map (·.2)).foldl (· + ·) 0
  leBytes 1 l.latched ++ leBytes 1 (b2n s.host.active) ++ [0#8, 0#8] ++ leBytes 4 (edgeSeq false gone) ++ leBytes 4 (edgeSeq true gone) ++ leBytes 4 gone.length ++
    leBytes 4 (capTo max32 (l.droppedInfo.toNat + l.droppedWarn.toNat)) ++ leBytes 4 l.fatalLost.toNat ++ leBytes 4 (capTo max32 sup) ++ leBytes 4 l.hostReject.toNat

/-- The cleared record is written into the fatal region, which scope ALL erases first; then the erase runs (R322, R324). -/
def State.startClear (s : State) : State :=
  let l := s.ledger
  let r := s.stamp { code := 0x0001, sev := 3, fclass := 0, srcType := 0x51, srcInst := 0, payload := s.clrPayload } false false
  let t := s.setLedger { l with uid := l.uid + 1, slots := if l.latched = 1 then l.slots.filter fun e => decide (fatalSlots ≤ e.1) else l.slots }
  let t := t.writeRec r
  (t.setLedger { t.ledger with erasing := some l.latched }).setMram { t.mram with erase := some l.latched }

/-- CLEAR_SUBMIT: the checks of step 4, in the order EXPIRED, NO_KEY, DENIED, FATAL_FULL (DEDUCED, log 42). -/
def execClearSubmit (resp : List Byte) (s : State) : Res :=
  let l := s.ledger
  let t := s.setLedger { l with chal := none }
  if l.erasing.isSome then .next s
  else match l.chal with
    | none => .next (t.clrStatus 4)
    | some (c, at_) =>
      if at_ + tenS < s.clk.ltb then .next (t.clrStatus 4)
      else match s.mram.key with
        | none => .next (t.clrStatus 5)
        | some k =>
          if s.clrExpect k c ≠ resp then
            let u := t.setLedger { t.ledger with mism := l.mism + 1, lockUntil := if 3 ≤ l.mism + 1 then some (s.clk.ltb + 60000000000) else l.lockUntil }
            .next ((u.log 4 0x4C02 1 0 0x51 0 (leBytes 1 l.latched ++ leBytes 1 (b2n s.host.active))).clrStatus 3)
          else if l.latched ≠ 1 ∧ l.fatalFree = 0 then .next (t.clrStatus 6)
          else .next (t.startClear.clrStatus 8)

/-- The erase of a scope ends; records written after the cleared record stay (DEDUCED, log 42): counters, the slots in scope, the records held meanwhile (R322, R324). No class has a candidate afterwards (R315). -/
def State.endErase (s : State) (scope : Nat) : State :=
  let l := s.ledger
  let at_ := (l.slots.filter fun e => e.2.code == 0x0001).foldl (fun m e => max m e.2.order) 0
  let keep (e : Nat × Rec) : Bool := !erases scope e.1 || decide (e.1 < fatalSlots) || decide (at_ < e.2.order)
  let t := s.setLedger { l with slots := l.slots.filter keep, droppedInfo := 0, droppedWarn := 0, fatalLost := 0, suppr := [], hostReject := 0, erasing := none, cand := [] }
  (t.setMram { t.mram with erase := none }).flushErase

/-- CLEAR_DONE: a REKEY opens its window (R320, R322). -/
def execClearDone (s : State) : Res :=
  match s.ledger.erasing with
  | none => .next s
  | some scope =>
    let t := s.endErase scope
    let t := t.setLedger { t.ledger with mism := 0, rekeyOpen := if scope = 2 then some t.clk.ltb else t.ledger.rekeyOpen }
    .next (t.clrStatus 2)

/-- CHALLENGE_EXPIRY: 10 s after it was drawn. -/
def execChallengeExpiry (s : State) : Res :=
  guard (match s.ledger.chal with
    | some (_, t) => decide (t + tenS ≤ s.clk.ltb)
    | none => false) s (s.setLedger { s.ledger with chal := none })

/-- LOCKOUT_END: 60 s after the third mismatch. -/
def execLockoutEnd (s : State) : Res :=
  guard (match s.ledger.lockUntil with
    | some t => decide (t ≤ s.clk.ltb)
    | none => false) s (s.setLedger { s.ledger with lockUntil := none })

end Sys2Proof.Machine
end

