-- ==== Sys2Proof/Machine/Bar2.lean ====
section
/-! DEFINITION. Requests through the BAR2 aperture: reading and writing device memory, requests that a held pseudo-channel delays, and
the NF_STATE of what the host overwrites (R53, R145, R150, R152, R347). -/

namespace Sys2Proof.Machine

/-- The bursts that bytes of a space lie in, by their first byte. -/
def burstsOf (off len : Nat) : List Nat := (List.range ((off + len + 63) / 64 - off / 64)).map fun i => (off / 64 + i) * 64

/-- Write burst by burst: a whole burst re-encodes it and leaves the poison list; a part of an uncorrectable burst is discarded and the
writer told; writes to a lost pseudo-channel are discarded (R145, R152). -/
def State.hostBytes (s : State) (space : Nat) : Nat → Nat → List Byte → State
  | 0, _, _ => s
  | n + 1, off, l =>
    let a := l.take (64 - off % 64)
    let k := s.pcOf space off
    let put := (s.hbmWrite space off a)
    let t := if a.isEmpty || s.mram.lost.contains k || (s.chan (k / 512)).down then s
      else if a.length = 64 then put.modChan (k / 512) fun h => { h with poison := h.poison.filter (· != (space, off / 64)) }
      else if s.burstBad space off then s.emit (.uncorrectable .host) else put
    t.hostBytes space n (off + a.length) (l.drop (64 - off % 64))

/-- A write of the host sets NF_STATE UNKNOWN and clears MAP_VALID (R53, R55). -/
def State.hostTouched (s : State) (space off len : Nat) : State :=
  let f (n : Nat) (c : Ctx) : Ctx := { c with tensors := c.tensors.map fun e => if s.tensorHit n space off len e.2 then (e.1, { e.2 with nf := .unknown, mapValid := false }) else e }
  (s.modCtx 0 (f 0)).modCtx 1 (f 1)

/-- A BAR2 request is served: a read is poisoned when a burst of it is uncorrectable. -/
def State.serveBar2 (s : State) (r : Bar2Req) : State :=
  match r.data with
  | none =>
    if (burstsOf r.off r.len).any fun o => s.burstBad r.space o then s.emit (.bytes true (List.replicate r.len 0#8))
    else s.emit (.bytes false (s.hbmRead r.space r.off r.len))
  | some l => (s.hostBytes r.space (l.length / 64 + 2) r.off l).hostTouched r.space r.off l.length

/-- A request that meets a held pseudo-channel. -/
def State.bar2Waits (s : State) (r : Bar2Req) : Bool := (burstsOf r.off r.len).any fun o => s.pcHeld (s.pcOf r.space o)

/-- The requests that need wait no longer are served, in their order. -/
def State.serveOpen (s : State) : State :=
  (s.host.bar2Open.filter fun r => !s.bar2Waits r).foldl (fun (t : State) r => t.serveBar2 r)
    (s.setHost { s.host with bar2Open := s.host.bar2Open.filter fun r => s.bar2Waits r })

end Sys2Proof.Machine
end

