-- ==== Sys2Proof/Machine/Preempt.lean ====
section
/-! DEFINITION. Doorbells, pre-emption, restart points, spill and fill, yielding (R92, R167, R179 to R188, R348). -/

namespace Sys2Proof.Machine

/-! ## Requests (R179, R181, R187) -/

/-- The urgent context starts running. -/
def State.urgentRuns (s : State) : State :=
  (s.modCtx 1 fun c => { c with running := true, request := false, yielding := false, yielded := false, pendingQ := 0 }).raise 174

/-- A pre-emption request: nothing while the urgent context runs or a request is in progress; with the routine context not started the
urgent context starts at once; a fill in progress stops. A lost context is still started until RESET (R388). -/
def State.preempt (s : State) : State :=
  if s.ctx1.running || s.ctx1.request || !s.ctx1.started || s.ctx1.lost || !s.up then s
  else if !s.ctx0.started then s.urgentRuns
  else if s.ctx0.filling then (s.modCtx 1 fun c => { c with request := true }).modCtx 0 fun c => { c with filling := false, stopping := [] }
  else (s.modCtx 1 fun c => { c with request := true }).modCtx 0 fun c => { c with stopping := (c.stopping ++ s.engines 0).dedup }

/-- The descriptor at a queue's head. -/
def Ctx.headDesc (c : Ctx) (q : Nat) : Option Descriptor := (c.queue q).queued.head?

/-- The head of an urgent queue may run on a doorbell: NBT = 0, or NBT at most ST + NBT_LEAD (R179). -/
def State.headMayRun (s : State) (q : Nat) : Bool :=
  match s.ctx1.headDesc q with
  | none => false
  | some d => d.nbt == 0 || (s.clk.known && decide (d.nbt.toNat ≤ s.clk.st.toNat + s.nbtLead * 1000))

/-- PREEMPT_NBT_LEAD (R179): System Time reaches NBT - NBT_LEAD of an urgent head. -/
def execPreemptNbtLead (q : Nat) (s : State) : Res :=
  match s.ctx1.headDesc q with
  | none => .next s
  | some d =>
    guard (s.clk.known && d.nbt != 0 && decide (d.nbt.toNat ≤ s.clk.st.toNat + s.nbtLead * 1000) && decide (s.clk.st.toNat ≤ d.nbt.toNat)) s s.preempt

/-! ## Doorbells (R92, R348) -/

/-- A doorbell breaks the rules of the ring. -/
def Queue.refuses (x : Queue) (tail : Nat) (wrap : Bool) : Bool :=
  let y := { x with tail := tail, tailWrap := wrap }
  x.log2 == 0 || decide (2 ^ x.log2 ≤ tail) || decide (2 ^ x.log2 < y.count) || decide (y.count < x.count)

/-- The tail moves past the descriptors that the host wrote into the ring (DESIGN CHOICE, log 7). -/
def Queue.accept (x : Queue) (tail : Nat) (wrap : Bool) (recs : List Descriptor) : Queue :=
  let y := { x with tail := tail, tailWrap := wrap }
  let n := 2 ^ x.log2
  { y with ring := ((List.range (y.count - x.count)).zip recs).foldl (fun t p => tins ((x.tail + p.1) % n) p.2 t) x.ring }

/-- HOST_DOORBELL (R92, R179, R302, R348, R388). -/
def execHostDoorbell (port : Bool) (n q tail : Nat) (wrap : Bool) (recs : List Descriptor) (s : State) : Res :=
  if s.host.noneActive || port != s.host.active then .next (s.badCommand pgHOST)
  else if (s.ctx n).lost then .next s
  else
    let x := (s.ctx n).queue q
    if x.refuses tail wrap then .next ((s.modCtx n fun c => c.modQueue q fun y => { y with overrun := true }).raise (167 + 8 * n))
    else
      let t := (s.modCtx n fun c => c.modQueue q fun y => y.accept tail wrap recs).setRg (pgHOST + 0x200 + 4 * (16 * n + q)) (tail + 2 ^ 20 * b2n wrap)
      .next (if n = 1 && (x.tail != tail || x.tailWrap != wrap) && t.headMayRun q then t.preempt else t)

/-! ## Restart points (R41, R115, R167, R181, R182) -/

/-- The cycles of an item's next turn: three for the products of split FP32 (R27, R62). -/
def State.turnCycles (s : State) (m : MatOp) (sh : Shape) (it : Item) : Nat :=
  if !s.turnCosts m sh it it.sub then 0
  else match (segAt m it.kPos).bind fun g => s.feed it g with
    | some f => if f.ar.fmt = .fp32 then 3 else 1
    | none => 1

/-- Turns of a stage at most: 16 of each of 8 sub-blocks in each window. -/
def stageTurns : Nat := 128 * stageWindows

/-- The array work of an item goes on to the end of its stage, if no more than left cycles remain of it and no access of it faults. -/
def State.finishStage (s : State) (sq : Nat) (ctx seq index : Nat) : Nat → Nat → Option State
  | 0, _ => none
  | fuel + 1, left =>
    match (s.squad sq).arr.items.find? fun i => i.ctx == ctx && i.seq == seq && i.index == index with
    | none => none
    | some it0 =>
      match s.matOf it0 with
      | none => none
      | some (m, d) =>
        let it := s.seekTurn m d.shape stageWindows it0
        if it.atStageEnd || decide (it.kHi ≤ it.kPos) then s.issueCycle sq it0
        else if left < s.turnCycles m d.shape it || (s.cycleFail it0).isSome then none
        else match s.issueCycle sq it0 with
          | some t => t.finishStage sq ctx seq index fuel (left - s.turnCycles m d.shape it)
          | none => none

/-- The checksum cells of a sub-block as they stand at the start of a stage. -/
def State.chkAt (s : State) (m : MatOp) (d : Descriptor) (it : Item) (n k : Nat) : Slot :=
  let sb := (subBlocks d.shape).getD n (0, 0)
  let sl := (List.range (k - it.kLo)).foldl (fun sl i =>
    match (segAt m (it.kLo + i)).bind fun g => if g.run then s.feed it g else none with
    | none => sl
    | some f => if s.summedStep f d.shape it sb (it.kLo + i) then s.issueStep m d.shape d.accFmt it sb f (it.kLo + i) sl else sl) Slot.zero
  { sl with cells := [], open_ := [] }

/-- The stage in progress is abandoned: its slots are discarded and the item goes back to the stage's first k-step (R182). -/
def State.abandonStage (s : State) (sq : Nat) (it : Item) : State :=
  match s.matOf it with
  | none => s
  | some (m, d) =>
    let k := max it.kLo (it.stage * 4096)
    if it.kHi ≤ k then s
    else s.modSquad sq fun q =>
      let a := q.arr
      let sl := ((List.range it.slots.length).zip it.slots).foldl (fun t p => tset Slot.zero t p.2 (s.chkAt m d it p.1 k)) a.slots
      { q with arr := { a with slots := sl }.setItem { it with kPos := k, sub := 0 } }

/-- An item's stage has been issued to its end and is not closed: the last one too (R182). -/
def Item.stageDone (it : Item) : Bool := it.atStageEnd || (decide (it.kHi ≤ it.kPos) && decide (it.stage * 4096 < it.kHi))

/-- An item stops: its stage is finished when at most ARR_LIMIT cycles remain, and closed into its latches, else abandoned (R182). -/
def State.stopItem (s : State) (sq : Nat) (it : Item) : State :=
  match (if it.stageDone || decide (it.kHi ≤ it.kPos) then some s else s.finishStage sq it.ctx it.seq it.index stageTurns s.arrLimit) with
  | none => s.abandonStage sq it
  | some t =>
    match (t.squad sq).arr.items.find? fun i => i.ctx == it.ctx && i.seq == it.seq && i.index == it.index with
    | none => t
    | some j =>
      if !j.stageDone then t
      else match t.matOf j with
        | none => t
        | some (m, d) =>
          let b := t.closeAll m d j (t.squad sq).arr
          if b.latched j then s.abandonStage sq it else t.modSquad sq fun q => { q with arr := b.closeStage j }

/-- The items that the walkers of a context on a squad have still to serve: those of its array with their first unclosed stage, and
those that its walkers run, have queued or have records of (R115, R167). -/
def State.walkJobs (s : State) (sq n : Nat) : List (Nat × Nat × Option Item) :=
  let q := s.squad sq
  let its := q.arr.items.filter fun i => i.ctx == n
  let jobs := q.walkers.flatMap fun e =>
    (if e.2.ctx = n ∧ e.2.state ≠ WState.idle ∧ e.2.state ≠ WState.ended then [(e.2.seq, e.2.item)] else []) ++
      (((tget [] q.fifo e.1).filter fun r => r.ctx == n).map fun r => (r.seq, r.item)) ++
      ((e.2.next.filter fun j => j.ctx == n).map fun j => (j.seq, j.item))
  let more := jobs.dedup.filter fun p => !(its.any fun i => i.seq == p.1 && i.index == p.2) &&
    (s.ctx n).flight.any fun f => f.seq == p.1 && !f.commitMap.contains p.2
  (its.map fun i => (i.seq, i.index, some i)) ++ more.map fun p => (p.1, p.2, none)

/-- The walkers of a context on a squad are reset, their streams' handles returned, and started again with the restart point's stage
in their argument blocks (R115, R167). -/
def State.resetWalkers (s : State) (sq n : Nat) : State :=
  let t := s.modSquad sq fun q =>
    { q with
      walkers := q.walkers.filter fun e => e.2.ctx != n
      fifo := (q.fifo.map fun e => (e.1, e.2.filter fun r => r.ctx != n)).filter fun e => !e.2.isEmpty
      pools := q.pools.map fun e => if e.1 / 8 = n then (e.1, freshPool e.2) else e
      passq := q.passq.map fun e => if e.1 / 16 = n then (e.1, { e.2 with entries := [] }) else e }
  (s.walkJobs sq n).foldl (fun (u : State) j => match j.2.2 with
    | some it =>
      let parts := match (s.ctx n).mats.find? fun m => m.seq == it.seq with | some m => m.parts | none => 1
      u.startWalkers sq n j.1 j.2.1 (j.2.1 / parts) it.group it.part it.stage
    | none => u.startWalkers sq n j.1 j.2.1 j.2.1 0 0 0) t

/-- Deliveries of a context on a squad stop, and its spilled copies are discarded: they are fetched again (R205). -/
def State.dropCopies (s : State) (n sq : Nat) : State :=
  s.setNet { s.net with groups := s.net.groups.map fun e => if groupCtx e.1 = n then (e.1, { e.2 with recv := e.2.recv.filter fun r => r.squad != sq }) else e }

/-- An engine stands at its restart point. -/
def State.atRestart (s : State) (n : Nat) (e : Engine) : State :=
  match e with
  | .array sq => ((s.squad sq).arr.items.filter fun i => i.ctx == n).foldl (fun (t : State) i => t.stopItem sq i) s
  | .fetch sq => (s.dropCopies n sq).resetWalkers sq n
  | .update sq => s.modSquad sq fun q => { q with upe := match q.upe with
      | some u => if u.ctx = n then none else some u
      | none => none }
  | .vector _ | .row _ | .dispatcher _ => s
  | .dma c d => (match (s.dma c d).state, (s.dma c d).xfer with
    | 1, some x => if x.ctx = n ∧ x.seq.isSome then s.dmaStop c d x 5 8 0 0 else s
    | _, _ => s)
  | .collective tag => (match (s.ctx n).tags.find? fun g => g.tag == tag with
    | some g => (s.abortTag n tag (g.epoch + 1) 0xFF).emit (.abortTag n tag (g.epoch + 1))
    | none => s)

/-- ENGINE_RESTART_POINT (R167, R168, R181, R182). -/
def execEngineRestartPoint (n : Nat) (e : Engine) (s : State) : Res :=
  guard ((s.ctx n).stopping.contains e) s ((s.atRestart n e).modCtx n fun c => { c with stopping := c.stopping.filter (· != e) })

/-- Stopped engines of a context go on: its DMA channels from their residue, its flights (R170, R186). -/
def State.restartEngines (s : State) (n : Nat) : State :=
  let t := s.modCtx n fun c => { c with flight := c.flight.map fun f => if f.phase == Phase.stopped && !f.expired then { f with phase := .issued } else f }
  { t with chans := t.chans.map fun e => (e.1, { e.2 with dma := e.2.dma.map fun d =>
      match d.2.xfer with
      | some x => if x.ctx = n && x.seq.isSome && d.2.state == 2 && d.2.restartable && !d.2.disabled then (d.1, { d.2 with state := 1, restartable := false }) else d
      | none => d }) }

/-! ## Spill and fill (R134, R183, R186 to R188) -/

def State.spillVa (s : State) : Nat := bits (s.rg64 (pgDISP 0 + 0x110)) 47 30 * 2 ^ 30
/-- First store byte of the urgent share. -/
def State.shareBase (s : State) : Nat := 2 ^ 24 - s.urgentShare * 2 ^ 20
/-- Pages of 64 KiB in the share. -/
def State.sharePages (s : State) : List Nat := List.range (s.urgentShare * 16)
/-- The virtual address of page p of squad q's copy: each squad's copy lies at a fixed offset (DESIGN CHOICE, log 20). -/
def State.copyVa (s : State) (q p : Nat) : Nat := s.spillVa + q / 16 * 2 ^ 30 + q % 16 * 2 ^ 26 + p * 65536
/-- Where page p of a squad's copy lies, for a spill or fill access. -/
def State.copyAt (s : State) (q p : Nat) (write : Bool) : Option (Nat × Nat) :=
  match s.xlate 0 (s.copyVa q p) write none (some (q / 16)) with
  | .inr x => some x
  | .inl _ => none

/-- The pages that are moved. -/
def State.copyPages (s : State) : List (Nat × Nat) := (List.range 64).flatMap fun q => s.sharePages.map fun p => (q, p)

/-- Cells with keys lo to hi - 1, moved to another place. -/
def moveCells (src dst : List Host.Cell) (lo to_ n : Nat) : List Host.Cell :=
  (src.filter fun e => decide (lo ≤ e.1 ∧ e.1 < lo + n)).foldl (fun m e => cellSet m (e.1 - lo + to_) e.2)
    (dst.filter fun e => !decide (to_ ≤ e.1 ∧ e.1 < to_ + n))

/-- A page written whole leaves the poison list (R145). -/
def State.freshPage (s : State) (space off : Nat) : State :=
  if s.anyPoison then s.modChan (space % 4) fun h => { h with poison := h.poison.filter fun e => !(e.1 == space && decide (off ≤ e.2 * 64 ∧ e.2 * 64 < off + 65536)) }
  else s

/-- Copy one page of a squad store out. -/
def State.spillPage (s : State) (q p : Nat) : State :=
  (s.copyAt q p true).elim s fun e =>
    (s.freshPage e.1 e.2).setHbm (moveCells s.store s.hbm (storeKey q (s.shareBase + p * 65536)) (hbmKey e.1 e.2) 65536)

/-- Pages of 64 KiB that a slot's close latch takes (R26, R183). -/
def latchSize (f : AccFmt) : Nat := if f = .fp32e then 2 else 1
/-- Page i of a slot's close latch in its squad's copy: behind the 8 MiB of the largest share (DESIGN CHOICE, log 20). -/
def latchPage (f : AccFmt) (slot i : Nat) : Nat := 128 + slot * latchSize f + i
/-- Cells of a close latch in one page. -/
def latchCells (f : AccFmt) : Nat := 16384 / latchSize f

/-- The full close latches that wait with a squad's routine work, page by page: the slot and the page within it. -/
def Squad.latchPages (q : Squad) : List (Nat × Nat) :=
  match q.saved with
  | some a => a.latch.flatMap fun e => (List.range (latchSize a.fmt)).map fun i => (e.1, i)
  | none => []

/-- The bytes of page i of a close latch, cell by cell in the slot's order (DESIGN CHOICE, log 20). -/
def latchBytes (f : AccFmt) (cells : Tbl W64) (i : Nat) : List Byte :=
  (List.range (latchCells f)).flatMap fun j => leBytes (4 * latchSize f) (tget 0 cells (i * latchCells f + j)).toNat

/-- A squad's full close latches go to the spill area, where their values then stand (R183). -/
def State.spillLatches (s : State) (q : Nat) : State :=
  match (s.squad q).saved with
  | none => s
  | some a =>
    ((s.squad q).latchPages.foldl (fun (t : State) e => (t.copyAt q (latchPage a.fmt e.1 e.2) true).elim t fun x =>
      (t.freshPage x.1 x.2).hbmWrite x.1 x.2 (latchBytes a.fmt (match tfind a.latch e.1 with | some l => l.2 | none => []) e.2)) s).modSquad q fun y =>
        { y with saved := some { a with latch := a.latch.map fun e => (e.1, (e.2.1, [])) } }

/-- They come back from there (R186). -/
def State.fillLatches (s : State) (q : Nat) : State :=
  match (s.squad q).saved with
  | none => s
  | some a =>
    let w := 4 * latchSize a.fmt
    let page (slot i : Nat) : List Byte := (s.copyAt q (latchPage a.fmt slot i) false).elim [] fun x => s.hbmRead x.1 x.2 65536
    let cells (slot : Nat) : Tbl W64 := (List.range (latchSize a.fmt)).foldl (fun t i =>
      (List.range (latchCells a.fmt)).foldl (fun t j => tset 0 t (i * latchCells a.fmt + j) (BitVec.ofNat 64 (leNat (((page slot i).drop (w * j)).take w)))) t) []
    s.modSquad q fun y => { y with saved := some { a with latch := a.latch.map fun e => (e.1, (e.2.1, cells e.1)) } }

/-- Every page of the copy in the spill area: the share's pages and the full close latches (R183). -/
def State.spillPages (s : State) : List (Nat × Nat) :=
  s.copyPages ++ (List.range 64).flatMap fun q => match (s.squad q).saved with
    | some a => (s.squad q).latchPages.map fun e => (q, latchPage a.fmt e.1 e.2)
    | none => []

/-- The first page of the copy whose translation faults, as the fault log records it (R169, R188). -/
def State.copyFault (s : State) (write : Bool) : Option FlogRec :=
  s.spillPages.findSome? fun e => match s.xlate 0 (s.copyVa e.1 e.2) write none (some (e.1 / 16)) with
    | .inl (t, l) => some { va := BitVec.ofNat 64 (s.copyVa e.1 e.2), ftype := t, srcType := 0x01, srcInst := e.1, write := write, level := l, queue := 0, chan := e.1 / 16 }
    | .inr _ => none

/-- Copy it back. -/
def State.fillPage (s : State) (q p : Nat) : State :=
  (s.copyAt q p false).elim s fun e =>
    s.setStore (moveCells s.hbm s.store (hbmKey e.1 e.2) (storeKey q (s.shareBase + p * 65536)) 65536)

/-- A page of the copy cannot be read (R188). -/
def State.fillBad (s : State) (q p : Nat) : Bool :=
  match s.copyAt q p false with
  | none => true
  | some (sp, off) => (List.range 1024).any fun i => s.burstBad sp (off + 64 * i)

/-- The array's work waits with the routine context: its items, closed partials and the tile that drains (R167, R181, R183). -/
def Squad.keepArr (q : Squad) : Squad :=
  match q.saved with
  | some _ => q
  | none => { q with saved := some q.arr, arr := { q.arr with items := [], latch := [], rungs := [], slots := [], drain := none, reload := 0 } }

/-- The routine context's array work comes back. -/
def Squad.backArr (q : Squad) : Squad :=
  match q.saved with
  | some a => { q with saved := none, arr := { q.arr with fmt := a.fmt, items := a.items, latch := a.latch, rungs := a.rungs, slots := a.slots, drain := a.drain, reload := a.reload } }
  | none => q

def State.eachSquad (s : State) (f : Squad → Squad) : State := (List.range 64).foldl (fun (t : State) q => t.modSquad q f) s

/-- A translation fault of a spill or fill access: logged, and the routine context is lost (R169, R188). -/
def State.spillFault (s : State) (r : FlogRec) : State :=
  ((s.modCtx 0 (·.flogAdd r)).log r.chan 0x2001 0 0 r.srcType r.srcInst (FlogRec.bytes r)).loseCtx 0 6 0 0 0 false

/-- The copy in the spill area is written whole: shares and close latches (R183). -/
def State.spillAll (s : State) : State :=
  (List.range 64).foldl (fun (t : State) q => t.spillLatches q) (s.copyPages.foldl (fun (t : State) e => t.spillPage e.1 e.2) s)

/-- SPILL_COMPLETE: every engine stands at its restart point; the copy is made unless the spill area still holds one; the urgent
context starts. A page that faults loses the routine context (R183, R184, R187, R188; vectors: DEDUCED, log 37). -/
def execSpillComplete (s : State) : Res :=
  if !s.ctx1.request || !s.ctx0.stopping.isEmpty then .next s
  else if !s.ctx0.started then .next s.urgentRuns
  else
    let t := s.eachSquad Squad.keepArr
    let u := (t.modCtx 0 fun c => { c with preempted := true, spilled := true }).raise 166
    if s.ctx0.spilled then .next u.urgentRuns
    else match t.copyFault true with
      | some r => .next ((u.spillFault r).urgentRuns)
      | none => .next (u.spillAll.urgentRuns)

/-- YIELD (R186). -/
def execYieldWrite (s : State) : Res :=
  if !s.ctx1.running then .next (s.badCommand (pgDISP 1)) else .next (s.modCtx 1 fun c => { c with yielding := true })

/-- Queues of a context that are not empty, as a bitmap. -/
def Ctx.waitingMap (c : Ctx) : BitVec 16 :=
  BitVec.ofNat 16 ((List.range 16).foldl (fun m q => if 0 < (c.queue q).count then m + 2 ^ q else m) 0)

/-- YIELD_TAKES_EFFECT: no urgent descriptor is issued and unfinished (R186). -/
def execYieldTakesEffect (s : State) : Res :=
  if !s.ctx1.yielding || s.ctx1.flight.any (fun f => f.phase != Phase.admitted && f.phase != Phase.ready) then .next s
  else
    let t := s.modCtx 1 fun c => { c with pendingQ := c.waitingMap, running := false, yielding := false, yielded := true }
    .next ((t.modCtx 0 fun c => { c with filling := c.preempted }).raise 174)

/-- Shares and close latches come back from the spill area (R186). -/
def State.fillAll (s : State) : State :=
  (List.range 64).foldl (fun (t : State) q => t.fillLatches q) (s.copyPages.foldl (fun (t : State) e => t.fillPage e.1 e.2) s)

/-- FILL_COMPLETE: the copy is back, and every routine engine restarts from its restart point (R186, R188). -/
def execFillComplete (s : State) : Res :=
  if !s.ctx0.filling then .next s
  else
    let t := (s.modCtx 0 fun c => { c with preempted := false, filling := false, spilled := false }).raise 166
    match (if s.ctx0.spilled then s.copyFault false else none) with
    | some r => .next (t.spillFault r)
    | none =>
      if s.ctx0.spilled && s.spillPages.any (fun e => s.fillBad e.1 e.2) then .next (t.loseCtx 0 6 0 0 0 false)
      else
        let u := (if s.ctx0.spilled then t.fillAll else t).eachSquad Squad.backArr
        .next (if s.ctx0.suspended || s.ctx0.lost then u else u.restartEngines 0)

end Sys2Proof.Machine
end

