-- ==== Sys2Proof/Machine/Contexts.lean ====
section
/-! DEFINITION. The host's commands to a context: START, RESUME, ABORT, RESET, SKIP, RETRY, flags, ring placement; wait deadlines
and mutual waits (R92, R97, R101, R107 to R109, R170, R188, R248, R264, R277, R280, R282, R302, R388, R390). -/

namespace Sys2Proof.Machine

/-! ## START (R188, R388) -/

/-- The first page, from an offset of a channel's spill range on, that is not pinned spill space with R and W: its address and the level
at which that was found. -/
def State.spillRangeBad (s : State) (c va : Nat) : Nat → Nat → Option (Nat × Nat)
  | 0, _ => none
  | n + 1, o =>
    if 2 ^ 30 ≤ o then none
    else match s.walk 0 (va + o) with
      | .leaf sp _ lg r w p _ => if (leafFault (some c) none true sp r w p).isSome then some (va + o, leafLevel lg) else s.spillRangeBad c va n (o + (2 ^ lg - (va + o) % 2 ^ lg))
      | .fault _ l => some (va + o, l)

/-- The first page of the spill range that fails the check: its channel, address and level. -/
def State.badSpill (s : State) : Option (Nat × Nat × Nat) :=
  (List.range 4).findSome? fun c => (s.spillRangeBad c (s.spillVa + c * 2 ^ 30) 16385 0).map fun e => (c, e.1, e.2)

/-- The fields of a context that START begins afresh. -/
def Ctx.begin_ (c : Ctx) : Ctx :=
  { c with started := true, spb := none, spbSeen := false, stepStarts := [], stepNo := 0, overrunSeen := [], eta := BitVec.allOnes 64,
           etaSeen := false, summaries := [], exchGrad := [], exchTags := [], stallNs := 0, mutualCnt := 0, commit := if c.upd.undecided then c.commit else Commit.reset,
           plan := c.planNext.orElse fun _ => c.plan, planNext := none }

/-- CONTEXT_START (R160, R179, R188, R388). -/
def execContextStart (n : Nat) (s : State) : Res :=
  if (s.ctx n).started || !s.dev.ready || !s.up || s.root n % 2 == 0 || rootMalformed (s.root n) then .next (s.badCommand (pgDISP n))
  else match (if n = 0 then s.badSpill else none) with
    | some (c, va, level) =>
      .next ((s.modCtx 0 (·.flogAdd { va := BitVec.ofNat 64 va, ftype := 7, srcType := 0x13, srcInst := 0, write := false, level := level,
                                      queue := 0, chan := c })).badCommand (pgDISP 0))
    | none =>
      let t := s.modCtx n Ctx.begin_
      if n = 0 then .next (if s.ctx1.running then t.modCtx 0 fun c => { c with preempted := true } else t)
      else .next (if (List.range 16).any fun q => t.headMayRun q then t.preempt else t)

/-! ## RESUME, ABORT, RESET (R109, R170, R280, R282, R302) -/

/-- RESUME of a suspended or halted context (R109, R170). -/
def execResume (n : Nat) (s : State) : Res :=
  let c := s.ctx n
  if !c.suspended && !c.halted then .next (s.badCommand (pgDISP n))
  else
    let t := s.modCtx n fun c => { c with suspended := false, halted := false, mutualCnt := 0, stopping := if n = 0 && s.ctx1.request then c.stopping else [] }
    .next (if n = 0 && (c.preempted || s.ctx1.request) then t else t.restartEngines n)

/-- The root that has reported its commit deadline sends ABORT before it is lost (R277, R282). -/
def State.rootAbort (s : State) (n : Nat) : State :=
  let c := s.ctx n
  match c.commit.own with
  | some v =>
    if c.rank = 0 && c.commit.halted && !c.commit.decided then
      (s.sendDown n 2 { step := v.step, reason := 0, digest := 0, round := c.commit.round }).modCtx n fun c =>
        { c with upd := { c.upd with decision := v.step, verdict := 2 }, commit := { c.commit with decided := true } }
    else s
  | none => s

/-- The queue that a host's abort names in the record: the first halted one with its descriptor (R302). -/
def Ctx.haltedAt (c : Ctx) : Nat × Nat × Nat :=
  match (List.range 16).find? fun q => (c.queue q).halt != Halt.none with
  | none => (0, 0, 0)
  | some q => match c.flight.find? fun f => f.queue == q with
    | some f => (q, f.qindex, f.seq)
    | none => (q, (c.queue q).head, 0)

/-- The host makes a context lost. -/
def State.hostLose (s : State) (n cause : Nat) : State :=
  let k := (s.ctx n).haltedAt
  (s.rootAbort n).loseCtx n cause k.1 k.2.1 k.2.2 false

/-- ABORT (R101, R170, R248, R280, R302). -/
def execAbort (n : Nat) (s : State) : Res :=
  if !(s.ctx n).started || (s.ctx n).lost then .next (s.badCommand (pgDISP n)) else .next (s.hostLose n 5)

/-- A queue emptied (DEDUCED, log 37). -/
def Queue.empty_ (x : Queue) : Queue := { x with head := 0, headWrap := false, tail := 0, tailWrap := false, ring := [], halt := .none }

/-- What RESET leaves (R97, R302, R388). -/
def Ctx.afterReset (c : Ctx) : Ctx :=
  { c with queues := (c.queues.map fun e => (e.1, e.2.empty_)).filter (fun e => e.2 != Queue.reset), flags := 0 }
def Ctx.stopAll (c : Ctx) : Ctx :=
  { c with started := false, lost := false, halted := false, suspended := false, preempted := false, filling := false, spilled := false, stopping := [],
           flight := [], mats := [], tags := [], grants := [], sendRing := [], sends := [], huddles := [], mutualCnt := 0 }

/-- RESET (R302, R388). -/
def execContextReset (n : Nat) (s : State) : Res :=
  if !(s.ctx n).started && !(s.ctx n).lost then .next (s.modCtx n Ctx.afterReset)
  else
    let t := if (s.ctx n).lost then s else s.hostLose n 7
    .next ((t.modCtx n fun c => (c.afterReset).stopAll).settle n)

/-! ## Wait deadlines (R100, R101) -/

/-- Bits of the waits that are not satisfied. -/
def Flight.openWaits (f : Flight) : Nat := (List.range 4).foldl (fun m i => if f.latched.getD i false then m else m + 2 ^ i) 0
def waitFlags (d : Descriptor) : List Byte := (List.range 4).map fun i => match d.waits.getD i none with
  | some p => BitVec.ofNat 8 p.1
  | none => 0#8

/-- SHOT_CLOCK_EXPIRY: a wait-deadline fault halts the queue (R101). -/
def execShotClockExpiry (n q : Nat) (s : State) : Res :=
  match (s.ctx n).headFlight q with
  | none => .next s
  | some f =>
    if f.phase != Phase.admitted || f.waitsDone || f.desc.shot == 0 || decide (f.shotNs < f.desc.shot * 1000) || ((s.ctx n).queue q).halt != Halt.none then .next s
    else
      let t := s.modCtx n fun c => c.modQueue q fun x => { x with halt := .waitDeadline }
      .next ((t.log 0 0x1C01 2 0 0x13 q (leBytes 1 n ++ leBytes 1 q ++ [0#8, 0#8] ++ leBytes 4 f.qindex ++ waitFlags f.desc ++ leBytes 1 f.openWaits)).raise
        (128 + 16 * n + q))

/-! ## Mutual waits (R107, R108) -/

/-- A flag that only descriptors and the device write. -/
def innerFlag (f : Nat) : Bool := decide (f < 224) || decide (240 ≤ f)

/-- The first unsatisfied wait of a head on such a flag. -/
def Ctx.flagBlock (c : Ctx) (q : Nat) : Option (Nat × Bool) :=
  match c.headFlight q with
  | some f => (List.range 4).findSome? fun i => match f.desc.waits.getD i none with
      | some p => if innerFlag p.1 && !(f.latched.getD i false) then some p else none
      | none => none
  | none => (c.headDesc q).bind fun d => (List.range 4).findSome? fun i => match d.waits.getD i none with
      | some p => if innerFlag p.1 && c.flag p.1 != p.2 then some p else none
      | none => none

/-- The queue of the descriptor, not issued, with which a head conflicts. -/
def Ctx.sbBlock (c : Ctx) (q : Nat) : Option Nat :=
  match c.headFlight q with
  | some f => (c.conflict f).bind fun g => if g.phase == Phase.admitted || g.phase == Phase.ready then some g.queue else none
  | none => none

def Ctx.blocked (c : Ctx) (q : Nat) : Bool := decide (0 < (c.queue q).count) && ((c.flagBlock q).isSome || (c.sbBlock q).isSome)

/-- Every non-empty queue is blocked, at least one is non-empty, and nothing is issued and not complete. -/
def Ctx.mutual_ (c : Ctx) : Bool :=
  (List.range 16).any (fun q => decide (0 < (c.queue q).count)) && (List.range 16).all (fun q => (c.queue q).count == 0 || c.blocked q) &&
    c.flight.all fun f => f.phase == Phase.admitted || f.phase == Phase.ready

/-- The lowest queue that sets a flag to a value within 256 descriptors of its head. -/
def Ctx.setter (c : Ctx) (p : Nat × Bool) : Option Nat :=
  (List.range 16).find? fun q => ((c.queue q).queued.take 256).any fun d => d.set0 == some p || d.set1 == some p

/-- What a blocked queue waits for: its flag or 0xFF, and the queue that follows in the graph. -/
def Ctx.waitEdge (c : Ctx) (q : Nat) : Nat × Option Nat :=
  match c.flagBlock q with
  | some p => (p.1, c.setter p)
  | none => (0xFF, c.sbBlock q)

/-- Follow the graph for a number of edges. -/
def Ctx.follow (c : Ctx) : Nat → Nat → Option Nat
  | 0, q => some q
  | n + 1, q => if c.blocked q then match (c.waitEdge q).2 with
      | some r => c.follow n r
      | none => none
    else none

/-- The length of the cycle that the lowest blocked queue leads to, 0 if none. -/
def Ctx.cycleLen (c : Ctx) : Nat :=
  match (List.range 16).find? c.blocked with
  | none => 0
  | some q => match c.follow 16 q with
    | none => 0
    | some r => (((List.range 16).map (· + 1)).find? fun k => c.follow k r == some r).getD 0

/-- The payload of R108. -/
def Ctx.waitGraphOf (c : Ctx) (n : Nat) : List Byte :=
  let qs := List.range 16
  let bit (f : Nat → Bool) : Nat := qs.foldl (fun m q => if c.blocked q && f q then m + 2 ^ q else m) 0
  let nib := qs.foldl (fun m q => if c.blocked q then m + ((c.waitEdge q).2.getD 0) * 16 ^ q else m) 0
  leBytes 1 n ++ leBytes 1 c.cycleLen ++ leBytes 2 (bit fun _ => true) ++ qs.map (fun q => BitVec.ofNat 8 (if c.blocked q then (c.waitEdge q).1 else 0)) ++
    leBytes 8 nib ++ leBytes 2 (bit fun q => (c.waitEdge q).2.isNone) ++ [0#8, 0#8]

/-- MUTUAL_WAIT: the running context halts after 4,096 cycles in which every queue is blocked (R107, R108). -/
def execMutualWait (n : Nat) (s : State) : Res :=
  let c := s.ctx n
  if n != s.runningCtx || !c.started || c.suspended || c.lost || c.halted || !c.mutual_ || decide (c.mutualCnt < 4096) then .next s
  else
    let g := c.waitGraphOf n
    .next (((s.modCtx n fun c => { c with halted := true, waitGraph := g }).log 0 0x1C02 2 0 0x13 n g).raise (165 + 8 * n))

/-! ## SKIP and RETRY (R101, R106, R109, R248, R264, R277, R280, R295) -/

def State.unhalt (s : State) (n q : Nat) : State := s.modCtx n fun c => c.modQueue q fun x => { x with halt := .none }

/-- A head completes as one whose predicate does not hold; a chain's member is skipped inside the chain. -/
def State.skipFlight (s : State) (n : Nat) (f : Flight) : State :=
  if f.desc.hold || f.desc.chain then
    s.modFlight n f.seq fun x => { x with predOk := false, latched := [true, true, true, true], nbtPassed := true }
  else s.skipHead n f

/-- The head of a queue is skipped, admitted or not. -/
def State.skipAny (s : State) (n q : Nat) : State :=
  match (s.ctx n).headFlight q with
  | some f => s.skipFlight n f
  | none => match (s.ctx n).headDesc q with
    | none => s
    | some d =>
      let t := s.admitHead n q d
      match (t.ctx n).headFlight q with
      | some f => t.skipFlight n f
      | none => t

/-- A collective that is skipped gives its tag back. -/
def State.dropColl (s : State) (n : Nat) (f : Flight) : State :=
  match Descriptor.coll f.desc with
  | none => s
  | some (_, tag) => (s.setNet { s.net with nodes := s.net.nodes.filter fun x => !(x.ctx == n && x.tag == tag) }).modCtx n fun c =>
      { c with tags := c.tags.filter fun g => g.tag != tag, sendRing := c.sendRing.filter fun e => e.tag != tag }

/-- The DMA channel of a flight that stopped for good becomes idle. -/
def State.dropDma (s : State) (seq : Nat) : State :=
  { s with chans := s.chans.map fun e => (e.1, { e.2 with dma := e.2.dma.map fun d => match d.2.xfer with
      | some x => if x.seq = some seq then (d.1, { d.2 with state := 0, xfer := none, restartable := false }) else d
      | none => d }) }

/-- The issued flight of a queue that halted it. -/
def Ctx.lateIn (c : Ctx) (q : Nat) : Option Flight := c.flight.find? fun f => f.queue == q && f.expired

/-- An issued descriptor is skipped: huddle, collective, or a DMA that met an index fault. -/
def State.skipIssued (s : State) (n : Nat) (f : Flight) : State :=
  let t := (s.dropColl n f).dropDma f.seq
  (t.modCtx n fun c => if f.desc.cls = .huddle then c.endHud f else c).finish n f true

/-- The queue is halted on its commit HUDDLE (R280). -/
def Ctx.haltedCommit (c : Ctx) (q : Nat) : Bool := match c.commitFlight with
  | some f => f.queue == q && c.commit.halted
  | none => false

/-- SKIP: of any head while the context is halted or suspended for fault, else of a halted queue's descriptor (R101, R109, R248, R264,
R280, R295, R388, R390). -/
def execSkip (n q : Nat) (s : State) : Res :=
  let c := s.ctx n
  if c.lost then .next (s.badCommand (pgDISP n))
  else match (c.queue q).halt with
    | .none => if c.halted || c.suspended then .next (s.skipAny n q) else .next (s.badCommand (pgDISP n))
    | .refused | .rootDeadline | .memberDeadline => .next (s.badCommand (pgDISP n))
    | .waitDeadline => .next ((s.unhalt n q).skipAny n q)
    | .sanity => (match c.lateIn q with
      | some f => .next ((s.unhalt n q).skipIssued n f)
      | none => .next ((s.unhalt n q).skipAny n q))
    | .huddleDeadline | .collectiveDeadline =>
      if c.haltedCommit q then .next (s.badCommand (pgDISP n))
      else match c.lateIn q with
        | some f => .next ((s.unhalt n q).skipIssued n f)
        | none => .next (s.unhalt n q)

/-- Restart the clock of a flight. -/
def State.restartClock (s : State) (n : Nat) (f : Flight) : State := s.modFlight n f.seq fun x => { x with shotNs := 0, expired := false }

/-- RETRY on a commit HUDDLE: the member keeps waiting, the root begins its rounds again (R277, R280). -/
def State.retryCommit (s : State) (n : Nat) : State :=
  match (s.ctx n).commitFlight with
  | some f => (s.restartClock n f).modCtx n fun c => c.modCommit fun m => { m with halted := false, reopens := 0, queried := false, pairOut := m.pairOut && c.rank != 0 }
  | none => s

/-- RETRY of a refused UPDATE repeats the check (R264). -/
def State.retryUpdate (s : State) (n q : Nat) : State :=
  match (s.ctx n).headFlight q with
  | none => s.unhalt n q
  | some f => match (s.ctx n).refusal with
    | some r => s.refuseUpdate n f r
    | none => ((s.unhalt n q).writeFlag n 245 false).modFlight n f.seq fun x => { x with phase := .ready }

/-- RETRY (R101, R248, R264, R277, R280, R295, R390). -/
def execRetry (n q : Nat) (s : State) : Res :=
  let c := s.ctx n
  if c.lost then .next (s.badCommand (pgDISP n))
  else match (c.queue q).halt with
    | .none | .sanity => .next (s.badCommand (pgDISP n))
    | .waitDeadline => (match c.headFlight q with
      | some f => .next ((s.unhalt n q).restartClock n f)
      | none => .next (s.unhalt n q))
    | .refused => .next (s.retryUpdate n q)
    | .rootDeadline | .memberDeadline => .next ((s.unhalt n q).retryCommit n)
    | .huddleDeadline | .collectiveDeadline =>
      if c.haltedCommit q then .next ((s.unhalt n q).retryCommit n)
      else match c.lateIn q with
        | some f => .next ((s.unhalt n q).restartClock n f)
        | none => .next (s.unhalt n q)

/-! ## Flags and rings (R92, R97, R390) -/

/-- FLAG_WRITE (R97). -/
def execFlagWrite (n flag : Nat) (value : Bool) (s : State) : Res :=
  let c := s.ctx n
  if 240 ≤ flag then .next (s.badCommand (pgDISP n))
  else if 224 ≤ flag || c.quiet then .next (s.writeFlag n flag value)
  else if c.flag flag = value then .next s else .next (s.lockedWrite (pgDISP n))

/-- n of a ring as it is taken (R390). -/
def ringLog2 (v : Nat) : Nat := let w := v % 32; if w = 0 then 0 else if w < 4 then 4 else if 20 < w then 20 else w

/-- QUEUE_RING_PLACE (R92, R327, R390). A base that is not aligned to the ring's size is kept as written, its low 48 bits
(DESIGN CHOICE, log 52). -/
def execQueueRingPlace (n q base log2 : Nat) (s : State) : Res :=
  let c := s.ctx n
  let x := c.queue q
  if c.started && decide (0 < x.count) then
    (if x.base = base % 2 ^ 48 ∧ x.log2 = ringLog2 log2 then .next s else .next (s.lockedWrite (pgDISP n)))
  else .next (s.modCtx n fun c => c.modQueue q fun x =>
    { x.empty_ with base := base % 2 ^ 48, log2 := ringLog2 log2, halt := x.halt })

end Sys2Proof.Machine
end

