-- ==== Sys2Proof/Machine/Ecc.lean ====
section
/-! DEFINITION. The burst code: a Reed-Solomon code word of 72 symbols over GF(2^8) with 0x11D, and its decoder (R142 to R144).
Symbols 0 to 63 are the data bytes, 64 to 71 the check bytes; symbol i is the coefficient of x^(71 - i). -/

namespace Sys2Proof.Machine

/-! ## The field -/

/-- Times alpha. -/
def gfX (a : Byte) : Byte := if a.getLsbD 7 then (a <<< 1) ^^^ 0x1D#8 else a <<< 1
/-- The product of two symbols. -/
def gfMul (a b : Byte) : Byte :=
  ((List.range 8).foldl (fun (p : Byte × Byte) i => (if b.getLsbD i then p.1 ^^^ p.2 else p.1, gfX p.2)) (0, a)).1
def gfPow (a : Byte) : Nat → Byte
  | 0 => 1
  | n + 1 => gfMul a (gfPow a n)
/-- The inverse a^254. -/
def gfInv (a : Byte) : Byte := gfPow a 254
/-- alpha^n. -/
def gfExp (n : Nat) : Byte := Nat.repeat gfX n 1

/-! ## Encoding (R142) -/

/-- Multiply a polynomial, lowest coefficient first, by x - r. -/
def polyTimes (r : Byte) (l : List Byte) : List Byte := List.zipWith (· ^^^ ·) (0 :: l) ((l.map (gfMul r)) ++ [0])
/-- (x - alpha^0) ... (x - alpha^7), lowest coefficient first. -/
def rsGen : List Byte := (List.range 8).foldl (fun p i => polyTimes (gfExp i) p) [1]

/-- One step of the division by the generator: the remainder, highest coefficient first. -/
def rsStep (rem : List Byte) (d : Byte) : List Byte :=
  let f := d ^^^ rem.headD 0
  List.zipWith (· ^^^ ·) (rem.drop 1 ++ [0]) ((rsGen.take 8).reverse.map (gfMul f))
/-- The 8 check bytes of 64 data bytes, check byte 0 first. -/
def rsCheck (data : List Byte) : List Byte := data.foldl rsStep (List.replicate 8 0)

/-! ## Lines (R143) -/

/-- The line of a symbol: data lines 0 to 31, ECC lines 32 to 35. -/
def symLine (i : Nat) : Nat := if i < 64 then i % 32 else 32 + (i - 64) % 4
/-- The two symbols of a line. -/
def lineSyms (l : Nat) : List Nat := if l < 32 then [l, l + 32] else [64 + (l - 32), 68 + (l - 32)]

/-! ## Reading (R142, R144) -/

/-- The stored code word: data bytes, then check bytes. -/
def codeWord (data : List Byte) : List Byte := data ++ rsCheck data

/-- The error value at a symbol of an error pattern; several entries of one symbol add up. -/
def errAt (e : List (Nat × Byte)) (i : Nat) : Byte := e.foldl (fun v p => if p.1 = i then v ^^^ p.2 else v) 0

/-- What a read finds: the code word with the errors that its lines and cells add. -/
def received (data : List Byte) (e : List (Nat × Byte)) : List Byte :=
  ((List.range 72).zip (codeWord data)).map fun p => p.2 ^^^ errAt e p.1

def locator (i : Nat) : Byte := gfExp (71 - i)

/-- Syndrome j: the received word's value at alpha^j. -/
def syndrome (w : List Byte) (j : Nat) : Byte := w.foldl (fun v x => gfMul (gfExp j) v ^^^ x) 0
def syndromes (w : List Byte) : List Byte := (List.range 8).map (syndrome w)

/-- Remove the part of a syndrome sequence that an error at locator x explains. -/
def annihilate (x : Byte) : List Byte → List Byte
  | a :: b :: r => (b ^^^ gfMul x a) :: annihilate x (b :: r)
  | _ => []

def annihilateAll (s : List Byte) (l : List Nat) : List Byte := l.foldl (fun s i => annihilate (locator i) s) s
def allZero (l : List Byte) : Bool := l.all (· == 0)

/-- Unknown symbol errors that explain a syndrome sequence: none, one or two symbols outside the marked ones. -/
def findErrors (s : List Byte) (marked : List Nat) : Option (List Nat) :=
  let r := annihilateAll s marked
  let free := (List.range 72).filter fun i => !marked.contains i
  if allZero r then some []
  else
    match free.find? fun i => allZero (annihilate (locator i) r) with
    | some i => some [i]
    | none => free.findSome? fun i => let t := annihilate (locator i) r
        (free.find? fun j => decide (i < j) && allZero (annihilate (locator j) t)).map fun j => [i, j]

/-- The value that the decoder finds at symbol i of the located symbols. -/
def errValue (s : List Byte) (located : List Nat) (i : Nat) : Byte :=
  let others := located.filter (· != i)
  gfMul ((annihilateAll s others).headD 0) (gfInv (others.foldl (fun v j => gfMul v (locator i ^^^ locator j)) 1))

/-- What a decode gives: the data of a clean burst, the data with the unknown symbols that were corrected, or uncorrectable. -/
inductive Decoded where
  | clean (data : List Byte)
  | corrected (syms : List Nat) (data : List Byte)
  | bad
deriving DecidableEq, Repr

/-- The decoder on a received word with a marked line (R144). -/
def decodeBurst (marked : Option Nat) (w : List Byte) : Decoded :=
  let m := match marked with | some l => lineSyms l | none => []
  let s := syndromes w
  match findErrors s m with
  | none => .bad
  | some u =>
    let loc := m ++ u
    let data := ((List.range 64).zip w).map fun p => p.2 ^^^ (if loc.contains p.1 then errValue s loc p.1 else 0)
    if u.isEmpty then .clean data else .corrected u data

end Sys2Proof.Machine
end

