-- ==== Sys2Proof/Machine/MemCtl.lean ====
section
/-! DEFINITION. The memory controllers: reads and writes of bursts, marks, poison, lost pseudo-channels, regulators, refresh,
scrubbing, retraining and the rebuild (R132 to R159, R296). -/

namespace Sys2Proof.Machine

/-! ## Pseudo-channels lost and retired (R146, R152 to R156) -/

/-- R156: more than 32 lost or retire-pending, or more than 16 lost since the last rebuild. -/
def State.lossLimits (s : State) (c : Nat) : State :=
  let out := ((s.mram.lost ++ s.mram.retire).dedup.filter fun k => k / 512 == c).length
  if 32 < out ∨ 16 < (s.chan c).lostSince then s.channelDown c else s

/-- Position of an element in a list, or its length. -/
def posIn (l : List Nat) (k : Nat) : Nat := l.idxOf k

/-- A loss of a pseudo-channel on which spilled work of the routine context lies loses that context (R154, R188). -/
def State.spillHit (s : State) (k : Nat) : State :=
  let on (e : Nat × Nat) : Bool := (s.copyAt e.1 e.2 false).any fun x => (List.range 128).any fun i => s.pcOf x.1 (x.2 + 512 * i) == k
  if s.ctx0.preempted && s.ctx0.spilled && s.spillPages.any on then s.loseCtx 0 6 0 0 0 false else s

/-- Telemetry entries on a lost pseudo-channel of channel 0 go; those not read are counted as overwritten (R154, R256). -/
def State.teleLoss (s : State) (k : Nat) : State :=
  let gone (e : Nat × List Byte) : Bool := s.pcOf 12 (teleRegion.base + 32 * e.1) == k
  let unread (e : Nat × List Byte) : Bool := decide ((e.1 + teleRing - s.tele.rp % teleRing) % teleRing < s.tele.unread)
  s.setTele { s.tele with ring := s.tele.ring.filter fun e => !gone e, lost := s.tele.lost + (s.tele.ring.filter fun e => gone e && unread e).length }

/-- The receivers of a channel with bytes of their copies on a pseudo-channel. A receiver's copies stand from the region's first byte on
(DESIGN CHOICE, log 50). -/
def State.lagOn (s : State) (k : Nat) : List (Nat × Nat) :=
  s.net.groups.flatMap fun g => (g.2.recv.filter fun r => r.squad / 16 == k / 512 &&
    (List.range (ceilDiv r.spilled.length 512)).any fun i => s.pcOf (12 + k / 512) (lagRegion.base + 512 * i) == k).map fun r => (g.1, r.squad)

/-- The descriptor of a delivery whose spilled copies are lost is replayed: its item is dealt again, or its walkers begin again (R154,
R205). -/
def State.replayDelivery (s : State) (g sq : Nat) : State :=
  let n := groupCtx g
  let t := s.dropCopies n sq
  match (tget [] (s.squad sq).fifo 0).head? with
  | none => t
  | some r =>
    if (s.ctx n).mats.any fun m => m.seq == r.seq then ((t.dropItem sq n r.seq r.item).requeue n r.seq r.item).modFlight n r.seq fun x => { x with replayed := true }
    else (t.resetWalkers sq n).modFlight n r.seq fun x => { x with replayed := true }

/-- A pseudo-channel is lost (R152): the lost map, Error record, vector 177 + 4c; its burst limits, the spill, telemetry and spilled copies
(R154, R156). -/
def State.losePc (s : State) (c p : Nat) : State :=
  let k := c * 512 + p
  if s.mram.lost.contains k then s
  else
    let t := s.setMram { s.mram with lost := s.mram.lost ++ [k] }
    let t := t.modChan c fun h => { h with lostSince := h.lostSince + 1, held := h.held.filter (· != p) }
    let t := t.log c 0x2C02 2 0 0x20 c (leBytes 2 p ++ leBytes 2 (posIn (s.listC c) p) ++ leBytes 2 (posIn s.listW k) ++ leBytes 2 (s.listC c).length ++ leBytes 2 s.listW.length)
    let t := ((t.raise (177 + 4 * c)).spillHit k).teleLoss k
    let t := (s.lagOn k).foldl (fun (u : State) e => u.replayDelivery e.1 e.2) t
    (t.lossLimits c).serveOpen

/-- A pseudo-channel becomes retire-pending: cause 1 second line, 2 repair queue full, 3 repair failed (R146, R158, R159). -/
def State.retirePc (s : State) (c p cause : Nat) : State :=
  let k := c * 512 + p
  if s.mram.retire.contains k || s.mram.lost.contains k then s
  else
    let t := s.setMram { s.mram with retire := s.mram.retire ++ [k] }
    let t := t.log c 0x2803 1 0 0x20 c (leBytes 2 p ++ leBytes 1 cause)
    (t.raise (178 + 4 * c)).lossLimits c

/-- The marked line of a pseudo-channel. -/
def State.markedLine (s : State) (k : Nat) : Option Nat := tfind s.mram.marks k

/-- Mark a line, or retire its pseudo-channel when another is marked (R146). -/
def State.markLine (s : State) (c p line : Nat) : State :=
  let k := c * 512 + p
  match s.markedLine k with
  | some l => if l = line then s else s.retirePc c p 1
  | none =>
    let t := s.setMram { s.mram with marks := tins k line s.mram.marks }
    (t.log c 0x2802 1 0 0x20 c (leBytes 2 p ++ leBytes 1 (if line < 32 then 0 else 1) ++ leBytes 1 (if line < 32 then line else line - 32))).raise (178 + 4 * c)

/-! ## Corrected bursts (R144, R146, R158) -/

def second_ : Nat := 1000000000
def hours24 : Nat := 86400 * second_

/-- The DRAM row of a burst: its granule row (R136; DEDUCED, log 38). -/
def State.rowAt (s : State) (space off : Nat) : Nat := off / 512 / max 1 (if space = 4 then s.listW.length else (s.listC (space % 4)).length)

/-- A DRAM row is queued for repair; a full queue retires the pseudo-channel (R158). -/
def State.queueRow (s : State) (c p row : Nat) : State :=
  if s.mram.repairQ.contains (c, p, row) then s
  else if 256 ≤ (s.mram.repairQ.filter fun e => e.1 == c).length then s.retirePc c p 2
  else s.setMram { s.mram with repairQ := s.mram.repairQ ++ [(c, p, row)] }

/-- A line's corrected bursts of the last second; the sixteenth marks the line. -/
def State.countLine (s : State) (c p line : Nat) : State :=
  let now := s.clk.ltb
  let l := (now, p, line) :: (s.chan c).lineErr.filter fun e => decide (now < e.1 + second_)
  let n := (l.filter fun e => e.2.1 == p && e.2.2 == line).length
  let t := s.modChan c fun h => { h with lineErr := if 16 ≤ n then l.filter (fun e => !(e.2.1 == p && e.2.2 == line)) else l }
  if 16 ≤ n then t.markLine c p line else t

/-- A row's corrected bursts of the last 24 hours: 8 that are not all on one line queue it. -/
def State.countRow (s : State) (c p row line : Nat) : State :=
  let now := s.clk.ltb
  let l := (now, p, row, line) :: (s.chan c).rowErr.filter fun e => decide (now < e.1 + hours24)
  let mine := l.filter fun e => e.2.1 == p && e.2.2.1 == row
  let mixed := mine.any fun e => e.2.2.2 != line || e.2.2.2 == 255
  let t := s.modChan c fun h => { h with rowErr := l }
  if 8 ≤ mine.length ∧ mixed then t.queueRow c p row else t

/-- A burst was corrected on symbols: its pseudo-channel's count, its lines, its row. -/
def State.corrected (s : State) (c p space off : Nat) (syms : List Nat) : State :=
  let lines := (syms.map symLine).dedup
  let t := s.modChan c fun h => { h with corrected := tset 0 h.corrected p (capTo max32 (tget 0 h.corrected p + 1)) }
  let t := lines.foldl (fun (u : State) l => u.countLine c p l) t
  t.countRow c p (s.rowAt space off) (match lines with | [l] => l | _ => 255)

/-! ## Poison (R145, R152) -/

/-- Poisoned bursts of a pseudo-channel. -/
def State.poisonedOf (s : State) (c p : Nat) : Nat := ((s.chan c).poison.filter fun e => s.pcOf e.1 (e.2 * 64) == c * 512 + p).length

/-- Uncorrectable user-memory bursts within an hour: 64 on one channel lead to Sideline (R303, R334). -/
def State.countUc (s : State) (c : Nat) : State :=
  let l := (c, s.clk.ltb) :: s.dev.ucTimes.filter fun e => decide (s.clk.ltb < e.2 + 3600000000000)
  let t := s.setDev { s.dev with ucTimes := l }
  if 64 ≤ (l.filter fun e => e.1 == c).length then t.sideline 4 c else t

/-- The burst enters the poison list: Error record, vector 176 + 4c, its row is queued; a full list or more than 256 of its bursts
lose the pseudo-channel. -/
def State.poisonBurst (s : State) (space off : Nat) (scrub : Bool) : State :=
  let k := s.pcOf space off
  let c := k / 512
  let p := k % 512
  let full := decide (4096 ≤ (s.chan c).poison.length)
  let t := if full then s else s.modChan c fun h => { h with poison := h.poison ++ [(space, off / 64)] }
  let t := t.log c 0x2801 2 0 0x20 c (leBytes 1 space ++ leBytes 1 0 ++ leBytes 6 off ++ leBytes 2 p ++ leBytes 1 (b2n scrub))
  let t := (t.raise (176 + 4 * c)).queueRow c p (s.rowAt space off)
  let t := if space < 5 then t.countUc c else t
  if full || decide (256 < t.poisonedOf c p) then t.losePc c p else t

/-- The uncorrectable-data indication at a DMA channel: DATA_ERROR (R177, R296). -/
def State.chanData (s : State) (c d : Nat) (write : Bool) : State :=
  match (s.dma c d).state, (s.dma c d).xfer with
  | 1, some x => s.dmaFault c d x { ftype := 0, level := 0, va := x.addr (!write) x.pos, data := true } (!write) write write
  | _, _ => s

/-- What the uncorrectable-data indication does at its receiver (R145, R188, R296). -/
def State.indicate (s : State) (req : Requester) (ch : Nat) (write : Bool) : State :=
  let t := s.emit (.uncorrectable req)
  match req with
  | .host => t.emit (.bytes true (List.replicate 64 0#8))
  | .engine n _ st si => if st = 0x11 then t.chanData (si / 32) (si % 32) write else t.suspend n ch
  | .dma c d => t.chanData c d write
  | .table n q st si va level => t.walkFail n q st si va false 6 level ch
  | .spill _ => t.loseCtx 0 6 0 0 0 false
  | .scrub => t

/-! ## Reads and writes of bursts (R138, R142, R144, R145, R150) -/

/-- The 64 bytes of the burst that holds a byte. -/
def burstOf (off : Nat) : Nat := off / 64 * 64
def State.burst (s : State) (space off : Nat) : List Byte := s.hbmRead space (burstOf off) 64

/-- What the decoder makes of a burst as it is read, with its pseudo-channel's marked line. -/
def State.decoded (s : State) (space off : Nat) (errs : List (Nat × Byte)) : Decoded :=
  decodeBurst (s.markedLine (s.pcOf space off)) (received (s.burst space off) errs)

/-- The copy of a byte that serves a read: the other one where its burst of a mirrored region is lost or poisoned (R134, R154). -/
def State.serving (s : State) (space off : Nat) : Nat :=
  if 12 ≤ space ∧ s.burstBad space off = true then (otherCopy off).getD off else off

/-- Store bytes of one burst, in a mirrored region in both copies; a lost pseudo-channel takes none (R134, R152). -/
def State.storeBytes (s : State) (space off : Nat) (l : List Byte) : State :=
  let put (t : State) (o : Nat) : State := if t.mram.lost.contains (t.pcOf space o) then t else t.hbmWrite space o l
  match (if 12 ≤ space then otherCopy off else none) with
  | some o => put (put s off) o
  | none => put s off

/-- A whole burst is encoded anew and leaves the poison list (R142, R145). -/
def State.storeBurst (s : State) (space off : Nat) (l : List Byte) : State :=
  let clear (t : State) (o : Nat) : State := t.modChan (t.pcOf space o / 512) fun h => { h with poison := h.poison.filter (· != (space, o / 64)) }
  match (if 12 ≤ space then otherCopy off else none) with
  | some o => clear (clear (s.storeBytes space off l) off) o
  | none => clear (s.storeBytes space off l) off

/-- A decoded burst goes to its requester; a scrub's is written back when it was corrected; a write of fewer bytes merges its own. -/
def State.deliverBurst (s : State) (r : BurstReq) (data : List Byte) (fixed : Bool) : State :=
  match r.write with
  | some l => (s.storeBytes r.space (burstOf r.off) data).storeBytes r.space r.off l
  | none => if r.req = .scrub then (if fixed then s.storeBytes r.space r.off data else s) else s.emit (.bytes false data)

/-- A burst is read for a request: decoded, to be read once more, or known as bad (R144, R145, R152). -/
def State.readFor (s : State) (r : BurstReq) (errs : List (Nat × Byte)) : State :=
  let k := s.pcOf r.space r.off
  if s.burstBad r.space r.off then s.indicate r.req (k / 512) r.write.isSome
  else match s.decoded r.space r.off errs with
    | .clean data => s.deliverBurst r data false
    | .corrected syms data => (s.corrected (k / 512) (k % 512) r.space r.off syms).deliverBurst r data true
    | .bad => s.modChan (k / 512) fun h => { h with reread := h.reread ++ [r] }

/-- A request that reaches its controller: a write of a whole burst needs no read; a write to a lost pseudo-channel is discarded. -/
def State.perform (s : State) (r : BurstReq) (errs : List (Nat × Byte)) : State :=
  match r.write with
  | none => s.readFor { r with off := s.serving r.space r.off } errs
  | some l =>
    if s.mram.lost.contains (s.pcOf r.space r.off) && (decide (r.space < 12) || (otherCopy r.off).isNone) then s
    else if r.off % 64 = 0 ∧ l.length = 64 then s.storeBurst r.space r.off l
    else s.readFor { r with off := s.serving r.space r.off } errs

/-- Requests that wait for a held pseudo-channel. -/
def State.waitingAt (s : State) (k : Nat) : Nat := ((s.chan (k / 512)).heldQ.filter fun e => s.pcOf e.1.space e.1.off == k).length

/-- A request meets its controller: performed, queued behind a retraining, or not taken where that queue is full (R150). -/
def State.request (s : State) (r : BurstReq) (errs : List (Nat × Byte)) : State :=
  let k := s.pcOf r.space r.off
  if s.pcServes k then s.perform r errs
  else if s.pcHeld k && decide (s.waitingAt k < 32) then s.modChan (k / 512) fun h => { h with heldQ := h.heldQ ++ [(r, errs)] }
  else s

/-- MEM_READ (R138, R144 to R146, R150, R152). -/
def execMemRead (req : Requester) (space off : Nat) (errs : List (Nat × Byte)) (s : State) : Res :=
  .next (s.request { req := req, space := space, off := off, write := none } errs)

/-- MEM_WRITE: a whole burst is encoded anew and leaves the poison list; fewer bytes are a read-modify-write (R142, R145, R150). -/
def execMemWrite (req : Requester) (space off : Nat) (data : List Byte) (errs : List (Nat × Byte)) (s : State) : Res :=
  .next (s.request { req := req, space := space, off := off, write := some (data.take (64 - off % 64)) } errs)

/-- BURST_REREAD: the second read of the oldest such burst decodes, or the burst is poisoned and its requester told (R145). -/
def execBurstReread (c : Nat) (errs : List (Nat × Byte)) (s : State) : Res :=
  match (s.chan c).reread with
  | [] => .next s
  | r :: rest =>
    let k := s.pcOf r.space r.off
    let t := s.modChan c fun h => { h with reread := rest }
    match t.decoded r.space r.off errs with
    | .clean data => .next ((t.corrected c (k % 512) r.space r.off []).deliverBurst r data true)
    | .corrected syms data => .next ((t.corrected c (k % 512) r.space r.off syms).deliverBurst r data true)
    | .bad => .next ((t.poisonBurst r.space r.off (r.req == .scrub)).indicate r.req c r.write.isSome)

/-- STACK_FAILURE: a stack loses its 64 pseudo-channels, or an HBM4 channel its two (R152). -/
def execStackFailure (c k : Nat) (hch : Option Nat) (s : State) : Res :=
  let ps := match hch with
    | none => (List.range 64).map (64 * k + ·)
    | some h => [64 * k + 2 * h, 64 * k + 2 * h + 1]
  guard (s.alive && s.chanUp c) s (ps.foldl (fun (t : State) p => t.losePc c p) s)

/-! ## Regulators (R139 to R141) -/

/-- The first of a list after a given partition, in turn. -/
def afterLast (last : Nat) (l : List Nat) : Option Nat := (List.range 6).findSome? fun i => l.find? (· == (last + 1 + i) % 6)

/-- The partition served: highest priority first, round-robin among equals. -/
def pickPart (prio : Nat → Nat) (last : Nat → Nat) (l : List Nat) : Option Nat :=
  [3, 2, 1, 0].findSome? fun p => afterLast (last p) (l.filter fun x => prio x == p)

/-- MEM_BURST_SLOT: tokened requests first, then borrowers; spill and fill bursts are P5's, served at PRIO 3 (R140). -/
def execMemBurstSlot (c : Nat) (waiting : List Nat) (spill : Bool) (s : State) : Res :=
  let prio (p : Nat) : Nat := if spill && p == 5 then 3 else s.reguF c p 2 % 4
  let last (p : Nat) : Nat := tget 5 (s.chan c).lastServed p
  let w := (waiting.filter (· < 6)) ++ (if spill then [5] else [])
  let tok (p : Nat) : Bool := decide (640 ≤ s.tokens c p) || (spill && p == 5)
  match pickPart prio last (w.filter tok), pickPart prio last (w.filter fun p => !tok p && s.reguF c p 3 % 2 == 0) with
  | some p, _ => .next ((s.setTokens c p (s.tokens c p - 640)).modChan c fun h => { h with lastServed := tins (prio p) p h.lastServed })
  | none, some p => .next (s.modChan c fun h => { h with lastServed := tins (prio p) p h.lastServed })
  | none, none => .next s

/-- One nanosecond of fill (R139, R141). -/
def State.fillTokens (s : State) (c : Nat) : State :=
  (List.range 6).foldl (fun (t : State) p =>
    let v := min (s.bucketDepth c p) (s.tokens c p + (s.reguF c p 0 * 512 : Nat))
    if v = s.bucketDepth c p then t.modChan c fun h => { h with tokens := tdel p h.tokens } else t.setTokens c p v) s

/-- REGU_RATE_WRITE: a sum above 256 is ignored and sets FAULT[0] (R139, R327, R344). -/
def execReguRateWrite (c part value : Nat) (s : State) : Res :=
  let a := pgREGU c + 0x100 + 16 * part
  let v := value % 512
  let sum := ((List.range 6).map fun p => if p = part then v else s.reguF c p 0).foldl (· + ·) 0
  if !s.chanUp c then .next s
  else if s.bit (pgREGU c + 0x2C) 0 then .next (if s.rg a = v then s else s.lockedWrite (pgREGU c))
  else if 256 < sum then .next (s.pageFault (pgREGU c) 0)
  else .next (s.setRg a v)

/-- REGU_BURST_WRITE: the depth in KiB, 4 to 65,536; the bucket is clamped to it (R139, R141). -/
def execReguBurstWrite (c part value : Nat) (s : State) : Res :=
  let a := pgREGU c + 0x104 + 16 * part
  let v := max 4 (min 65536 value)
  if !s.chanUp c then .next s
  else if s.bit (pgREGU c + 0x2C) 0 then .next (if s.rg a = v then s else s.lockedWrite (pgREGU c))
  else .next ((s.setRg a v).setTokens c part (min (s.tokens c part) (v * 10240 : Nat)))

/-! ## Refresh, scrub, retraining (R132, R147 to R151) -/

/-- REFRESH: the stack's temperature readout, the rate that it calls for, which the manual does not state (DESIGN CHOICE, log 11), and its
on-die ECC reports since the last one, which are counted (R132). -/
def execRefresh (c k : Nat) (x : StackReport) (s : State) : Res :=
  let r := s.draw
  guard (s.alive && s.chanUp c) s (r.2.modChan c fun h => { h with
    stackTemp := tset 0 h.stackTemp k x.temp, refreshRate := tset 0 h.refreshRate k r.1.toNat, odEcc := tset 0 h.odEcc k (tget 0 h.odEcc k + x.odEcc) })

/-- The place of a scrub pointer: the local space, the wide space's share, the reserve, whose spill region is the channel's space
8 + c (R134, R147; the order: DEDUCED, log 38). -/
def State.scrubAt (s : State) (c i : Nat) : Option (Nat × Nat) :=
  let l := s.spaceSize c / 64
  let w := s.spaceSize 4 / 64
  if i < l then some (c, 64 * i)
  else if i < l + w then (if s.pcOf 4 (64 * (i - l)) / 512 = c then some (4, 64 * (i - l)) else none)
  else
    let o := 64 * (i - l - w)
    some (if regionAt o = spillRegion then (8 + c, o - spillRegion.base) else (12 + c, o))
def State.scrubTotal (s : State) (c : Nat) : Nat := s.spaceSize c / 64 + s.spaceSize 4 / 64 + 2 ^ 26

/-- The scrub pointer moves on, in MRAM. -/
def State.scrubNext (s : State) (c : Nat) : State :=
  let i := tget 0 s.mram.scrub c
  (s.setMram { s.mram with scrub := tset 0 s.mram.scrub c (if i + 1 < s.scrubTotal c then i + 1 else 0) }).modChan c fun h => { h with scrubBytes := h.scrubBytes + 64 }

/-- SCRUB_READ: inside a maintenance window the next burst is read under P5; a corrected one is written back unless a write to it reached
the controller meanwhile (R147, R148). -/
def execScrubRead (c : Nat) (errs : List (Nat × Byte)) (userWrite : Bool) (s : State) : Res :=
  if !s.alive || !s.chanUp c || !s.maint then .next s
  else match s.scrubAt c (tget 0 s.mram.scrub c) with
    | none => .next (s.scrubNext c)
    | some (space, off) =>
      let k := s.pcOf space off
      match s.regulate 5 [(space, off)] with
      | none => .next s
      | some u =>
        let t := u.scrubNext c
        if t.burstBad space off then .next t
        else match t.decoded space off errs with
          | .corrected syms _ => .next (if userWrite then t.corrected c (k % 512) space off syms
              else t.readFor { req := .scrub, space := space, off := off, write := none } errs)
          | _ => .next (t.readFor { req := .scrub, space := space, off := off, write := none } errs)

/-- SCRUB_BEHIND (R147). -/
def execScrubBehind (c fraction : Nat) (s : State) : Res :=
  guard (s.alive && s.chanUp c) s ((s.log c 0x2C01 1 0 0x20 c (leBytes 4 fraction)).raise (179 + 4 * c))

/-- The stack of a pseudo-channel already has one held. -/
def State.stackHeld (s : State) (c p : Nat) : Bool := (s.chan c).held.any fun q => q / 64 == p / 64

/-- RETRAINING_START: in a window with at least 5 us to run, one pseudo-channel of a stack at a time (R150). -/
def execRetrainingStart (c p : Nat) (s : State) : Res :=
  guard (s.alive && s.chanUp c && s.maintFor 4999 && !s.stackHeld c p && !s.mram.lost.contains (c * 512 + p)) s
    (s.modChan c fun h => { h with held := h.held ++ [p] })

/-- The pseudo-channel is no longer held: the requests that wait for it are performed in their order (R138, R150). -/
def State.release_ (s : State) (c p : Nat) : State :=
  let mine (e : BurstReq × List (Nat × Byte)) : Bool := s.pcOf e.1.space e.1.off == c * 512 + p
  let t := s.modChan c fun h => { h with held := h.held.filter (· != p), heldQ := h.heldQ.filter fun e => !mine e }
  (((s.chan c).heldQ.filter mine).foldl (fun (u : State) e => u.perform e.1 e.2) t).serveOpen

/-- RETRAINING_DONE: failed lines are marked (R146, R150, R151). -/
def execRetrainingDone (c p : Nat) (failed : List Nat) (s : State) : Res :=
  guard ((s.chan c).held.contains p) s
    (failed.foldl (fun (t : State) l => t.markLine c p l)
      ((s.release_ c p).modChan c fun h => { h with trainFails := tset 0 h.trainFails p 0, trainTime := tset 0 h.trainTime p s.clk.ltb }))

/-- RETRAINING_TIMEOUT: abandoned at 4 us; the third in a row loses the pseudo-channel (R151, R152). -/
def execRetrainingTimeout (c p : Nat) (s : State) : Res :=
  let n := tget 0 (s.chan c).trainFails p + 1
  let t := (s.release_ c p).modChan c fun h => { h with trainFails := tset 0 h.trainFails p n }
  guard ((s.chan c).held.contains p) s (if 3 ≤ n then t.losePc c p else t)

/-! ## The rebuild (R155) -/

/-- DEV_USER_CAP in MiB. -/
def State.capMiB (s : State) : Nat := ((List.range 4).map fun c => s.chanCap c / 2 ^ 20).foldl (· + ·) 0

/-- REBUILD: only while no context maps user memory. -/
def execRebuild (s : State) : Res :=
  if s.mapsUser then .next (s.lockedWrite pgDEV)
  else .next (s.setDev { s.dev with rebuildBusy := true, rebuildDone := false })

/-- A byte of a spill region. -/
def spillCell (e : Host.Cell) : Bool := decide (5 * 2 ^ 44 ≤ e.1)

/-- The interleave without lost and retire-pending pseudo-channels; user memory zero; poison lists empty; DEV_USER_CAP. -/
def State.rebuilt (s : State) : State :=
  let out (c : Nat) : List Nat := (List.range 512).filter fun p => s.mram.lost.contains (c * 512 + p) || s.mram.retire.contains (c * 512 + p)
  let t := (List.range 4).foldl (fun (t : State) c => t.modChan c fun h => { h with removed := out c, poison := [], lostSince := 0 }) s
  let t := t.setHbm (t.hbm.filter spillCell)
  t.setDev { t.dev with userCap := t.capMiB }

/-- REBUILD_DONE. -/
def execRebuildDone (s : State) : Res :=
  let t := s.rebuilt
  guard s.dev.rebuildBusy s ((t.setDev { t.dev with rebuildBusy := false, rebuildDone := true }).log 4 0x2C03 0 0 0x56 0 (leBytes 4 t.dev.userCap))

end Sys2Proof.Machine
end

