-- ==== Sys2Proof/Machine/Links.lean ====
section
/-! DEFINITION. Krenar links: flits and their retry, training, lanes and ports lost, identity and class, routing and delivery of
packets (R200, R209 to R233, R305, R341, R342). -/

namespace Sys2Proof.Machine

/-! ## Ports in service (R229, R230, R232) -/

def State.ovr (s : State) (n : Nat) : Bool := s.bit (pgLNK n + 8) 1
/-- The port carries packets: MATCHED, or overridden (R232). -/
def State.carries (s : State) (n : Nat) : Bool :=
  let l := s.link n
  s.alive && s.chanUp (n / 6) && l.inService && (l.cls == 2 || s.ovr n)

/-- The virtual channel of a packet type (R216). -/
def vcOf : PktType → Nat
  | .redData => 1
  | .bulkWrite | .bulkReadReq | .bulkReadData => 2
  | .short => 3
  | .redCtrl | .huddle | .flag | .time | .pair => 0

/-- Receive buffers of a virtual channel, in flits. -/
def vcBuf (v : Nat) : Nat := [64, 1024, 1024, 128].getD v 0

/-! ## Routing (R220 to R222) -/

/-- What the routing rule says of a packet. -/
inductive Fwd where
  | deliver | drop (cause : Nat) | send (prim alt : Nat)
deriving DecidableEq, Repr

/-- The pod table's verdict for a position. -/
def Net.podRoute (t : Net) (pos slice : Nat) : Fwd :=
  let e := (tget 0 t.podTable pos).toNat
  if bits e 55 55 = 0 then .drop 1 else if bits e 63 56 ≠ slice then .drop 2 else .send (bits e 23 0) (bits e 47 24)

/-- Word w of a pod-level entry: word 0 holds the gateway [12:0], the trunks [36:13] and ENABLE [37], words 1 to 4 the permits (DESIGN CHOICE, log 20). -/
def Net.levelWord (t : Net) (e w : Nat) : Nat := (tget 0 t.levelTable (e * 8 + w)).toNat

/-- The rule of R222. -/
def State.routeTo (s : State) (p : Packet) : Fwd :=
  let own := s.devId
  if p.dst = own then .deliver
  else if p.dst / 8192 = own / 8192 then s.net.podRoute (p.dst % 8192) p.slice
  else
    let g := p.dst / 8192 % 8
    let w := s.net.levelWord g 0
    if bits w 37 37 = 0 then .drop 1
    else if bits (s.net.levelWord g (1 + p.slice % 256 / 64)) (p.slice % 64) (p.slice % 64) = 0 then .drop 3
    else if own % 8192 = bits w 12 0 then .send (bits w 36 13) 0
    else s.net.podRoute (bits w 12 0) p.slice

def State.inService (s : State) (set_ : Nat) : List Nat := (List.range 24).filter fun n => bits set_ n n == 1 && s.carries n

/-- The first of a rising list after a number, in turn. -/
def nextAfter (last : Nat) (l : List Nat) : Option Nat := (l.find? fun n => decide (last < n)).orElse fun _ => l.head?

/-- The port a packet leaves on: its arrival port's pair, else round-robin in PRIMARY, else in ALT (R218, R222). -/
def State.outPort (s : State) (arr : Option Nat) (prim alt : Nat) : Option Nat :=
  let pl := s.inService prim
  let pair := arr.bind fun a => (let q := bits (s.rg (pgLNK a + 8)) 12 8; if pl.contains q then some q else none)
  pair.orElse fun _ => (nextAfter s.net.rrPort pl).orElse fun _ => nextAfter s.net.rrPort (s.inService alt)

/-! ## Flits and packets as bytes (R211, R212) -/

/-- Packet types in the order of R212. -/
def typeCode : PktType → Nat
  | .redData => 0 | .redCtrl => 1 | .huddle => 2 | .flag => 3 | .time => 4 | .short => 5 | .bulkWrite => 6 | .bulkReadReq => 7
  | .bulkReadData => 8 | .pair => 9
def typeOf (n : Nat) : Option PktType :=
  [PktType.redData, .redCtrl, .huddle, .flag, .time, .short, .bulkWrite, .bulkReadReq, .bulkReadData, .pair][n]?

/-- The 16 header bytes (R212; log 40 for the type's code). -/
def Packet.header (p : Packet) : List Byte :=
  leBytes 2 p.dst ++ leBytes 2 p.src ++ leBytes 1 p.slice ++ leBytes 1 (p.ctx * 128 + p.dstSquad % 128) ++ leBytes 1 p.len ++ leBytes 1 (typeCode p.ptype) ++
    leBytes 2 p.tag ++ leBytes 2 p.epoch ++ leBytes 4 p.off

/-- The packet that its bytes spell; none where the type is no code of R212. -/
def packetOf (l : List Byte) : Option Packet :=
  let f (a n : Nat) : Nat := leNat ((l.drop a).take n)
  (typeOf (f 7 1)).map fun ty =>
    { dst := f 0 2, src := f 2 2, slice := f 4 1, ctx := f 5 1 / 128, dstSquad := f 5 1 % 128, len := f 6 1, ptype := ty, tag := f 8 2, epoch := f 10 2,
      off := f 12 4, body := l.drop 16 }

/-- A packet's flits: its header and data in bodies of 248 B. -/
def flitsOf (p : Packet) : List TxFlit :=
  let l := Packet.header p ++ p.body
  let k := max 1 (ceilDiv l.length 248)
  (List.range k).map fun i =>
    { vc := vcOf p.ptype, kind := if i = 0 then .first else .cont, body := (l.drop (248 * i)).take 248, last := if i + 1 = k then some p else none }

def kindCode : FlitKind → Nat
  | .idle => 0 | .first => 1 | .cont => 2 | .lctl => 3

/-- Bytes 0 to 251 of a flit (R211). -/
def Flit.bytes (f : Flit) : List Byte :=
  leBytes 4 (f.seq % 4096 * 2 ^ 20 + f.vc % 4 * 2 ^ 18 + kindCode f.kind * 2 ^ 16 + (f.ack.getD 0) % 4096 * 16 + b2n f.ack.isSome * 8) ++ padTo 248 f.body

/-- The flit's CRC is correct. -/
def Flit.crcOk (f : Flit) : Bool := f.crc == crc32 (Flit.bytes f)

/-- The flit with its CRC. -/
def Flit.seal (f : Flit) : Flit := { f with crc := crc32 (Flit.bytes f) }

/-- The body of an LCTL flit that is a NAK: 1 and the expected SEQ (DESIGN CHOICE, log 40). -/
def nakBody (q : Nat) : List Byte := 1#8 :: leBytes 2 q
/-- The SEQ that an LCTL flit names. -/
def Flit.nak (f : Flit) : Option Nat := if f.body.headD 0 = 1 then some (leNat ((f.body.drop 1).take 2)) else none

/-! ## Sending flits (R210, R211, R213, R216, R217) -/

/-- A flit of a port, with the ACK of what it has received and credits of the lowest virtual channel that has some to return. -/
def Link.flit (l : Link) (seq vc : Nat) (kind : FlitKind) (body : List Byte) : Flit :=
  let v := ((List.range 4).find? fun v => decide (0 < tget 0 l.freed v)).getD 0
  Flit.seal { seq := seq, vc := vc, kind := kind, ack := l.lastAck, creditVc := v, credits := min 63 (tget 0 l.freed v), body := body, crc := 0 }

/-- The credits that a flit returns are returned. -/
def Link.returned (l : Link) (f : Flit) : Link := { l with freed := tset 0 l.freed f.creditVc (tget 0 l.freed f.creditVc - f.credits) }

/-- A virtual channel has a flit and a credit; credits are kept as the flits outstanding (R216). -/
def Link.ready (l : Link) (v : Nat) : Bool := !(tget [] l.txQ v).isEmpty && decide (tget 0 l.credits v < vcBuf v)

/-- The virtual channel of the next new flit: VC0 first, but not after a VC0 flit while another waits; VC1 to VC3 in turn (R216, R217). -/
def Link.pickVc (l : Link) : Option Nat :=
  let others := [1, 2, 3].filter l.ready
  if l.ready 0 && !(l.vc0Last && !others.isEmpty) then some 0 else nextAfter l.rrVc others

/-- The new flit of a virtual channel goes out and into the retry buffer. -/
def Link.sendNew (l : Link) (v : Nat) : Link × Option Flit :=
  match tget [] l.txQ v with
  | [] => (l, none)
  | x :: r =>
    let f := l.flit l.txSeq v x.kind x.body
    (({ l with txQ := tset [] l.txQ v r, txBuf := l.txBuf ++ [(l.txSeq, x)], txSeq := (l.txSeq + 1) % 4096, credits := tset 0 l.credits v (tget 0 l.credits v + 1),
               vc0Last := v == 0, rrVc := if v = 0 then l.rrVc else v, idle := 0 } : Link).returned f, some f)

/-- A slot without a packet flit: an IDLE flit goes out where there are credits to return. -/
def Link.idleSlot (l : Link) : Link × Option Flit :=
  let f := l.flit 0 0 .idle []
  let m := { l with idle := min 64 (l.idle + 1), vc0Last := false }
  if f.credits = 0 then (m, none) else (m.returned f, some f)

/-- One flit slot: a replay before anything new, a full retry buffer stops new flits, and a refused port sends no packet (R213, R217, R232). -/
def Link.slot (l : Link) (open_ : Bool) : Link × Option Flit :=
  match l.resend with
  | (q, x) :: r => let f := l.flit q x.vc x.kind x.body
                   (({ l with resend := r, idle := 0 } : Link).returned f, some f)
  | [] => match (if open_ && decide (l.txBuf.length < 512) then l.pickVc else none) with
    | some v => l.sendNew v
    | none => l.idleSlot

/-- Hundredths of a nanosecond in a flit slot (R210, R229). -/
def Link.period (l : Link) : Nat := if l.lanes = 4 then 256 else 128

/-- A nanosecond of a port: the flit slots that it holds. -/
def State.linkTick (s : State) (n : Nat) : State :=
  let l := s.link n
  if !l.inService || !s.chanUp (n / 6) then s
  else if l.slotNs + 100 < l.period then s.setLink n { l with slotNs := l.slotNs + 100 }
  else
    let r := ({ l with slotNs := l.slotNs + 100 - l.period } : Link).slot (s.carries n)
    match r.2 with
    | some f => (s.setLink n r.1).emit (.flit n f)
    | none => s.setLink n r.1

/-- An LCTL flit goes out at once. -/
def State.lctl (s : State) (n : Nat) (body : List Byte) : State :=
  let f := (s.link n).flit 0 0 .lctl body
  (s.setLink n ((s.link n).returned f)).emit (.flit n f)

/-- A packet joins the flits that a port has to send. -/
def State.sendOn (s : State) (n : Nat) (p : Packet) : State :=
  s.modLink n fun l => { l with txQ := tset [] l.txQ (vcOf p.ptype) (tget [] l.txQ (vcOf p.ptype) ++ flitsOf p) }

/-! ## Delivery (R223, R225, R305) -/

/-- A bulk read request: the address and length of its body (DESIGN CHOICE, log 40); poisoned data is marked by the answer's first byte. -/
def State.bulkRead (s : State) (p : Packet) : State :=
  let va := leNat (p.body.take 8)
  let len := min 4096 (leNat ((p.body.drop 8).take 4))
  let r := match s.vread p.ctx none va len with
    | some l => 0#8 :: l
    | none => 1#8 :: List.replicate len 0#8
  s.toNet (s.mkPacket p.ctx p.src 0x7F p.tag p.epoch p.off .bulkReadData r)

/-- A packet of the device's own slice reaches its engines; Sideline mode serves bulk reads alone (R305). -/
def State.deliver (s : State) (p : Packet) : State :=
  if !s.up then (if p.ptype == .bulkReadReq then s.bulkRead p else s)
  else match p.ptype with
    | .redData | .redCtrl => s.reductionIn p
    | .short => if !(s.squad p.dstSquad).fenced && !(s.ctx p.ctx).lost then s.deliverShort (shortOf p) else s
    | .bulkReadReq => s.bulkRead p
    | .bulkWrite =>
      let va := leNat (p.body.take 8)
      (s.rewrite (s.places p.ctx none (fun i => va + i) (p.body.length - 8))).vwrite p.ctx none va (p.body.drop 8)
    | .huddle | .flag | .time | .bulkReadData | .pair => s.emit (.deliver p)

/-- A packet is dropped: counted, with record 0x3801 (R222). -/
def State.dropPkt (s : State) (arr : Option Nat) (p : Packet) (cause : Nat) : State :=
  let c := match arr with | some n => n / 6 | none => 0
  (s.setNet { s.net with dropCnt := capTo max32 (s.net.dropCnt + 1) }).log c 0x3801 1 0 0x32 c (Packet.header p ++ leBytes 1 cause)

/-- A time code or pair packet on a port that may carry it (R225). -/
def State.portOnly (s : State) (arr : Option Nat) (p : Packet) : Bool :=
  match arr with
  | none => false
  | some n => s.carries n && (match p.ptype with
    | .time => bits (s.rg (pgTIME + 8)) 12 8 == n || bits (s.rg (pgTIME + 8)) 20 16 == n
    | _ => (s.link n).planRole == 8 && (s.link n).cls == 2 && p.src == (s.link n).planPeer)

/-- A packet of this device that its DEV_SLICE forbids to issue (R225). -/
def State.unissued (s : State) (p : Packet) : Bool := p.src == s.devId && s.sliceTag == 0 && vcOf p.ptype != 0

/-- The flit buffers of a packet that leaves its receive buffer are free again; VC0 and VC3 are sunk as they arrive (R216). -/
def State.freeRx (s : State) (arr : Option Nat) (p : Packet) : State :=
  match arr with
  | none => s
  | some n =>
    let v := vcOf p.ptype
    if v = 0 ∨ v = 3 then s
    else s.modLink n fun l => { l with rxUsed := tset 0 l.rxUsed v (tget 0 l.rxUsed v - p.len), freed := tset 0 l.freed v (tget 0 l.freed v + min p.len (tget 0 l.rxUsed v)) }

/-- Where a packet enters the network: at the edge router of its arrival port, or at the squad that sends it (R190, R197). -/
def State.entrance (s : State) (arr : Option Nat) (p : Packet) : Nat × Nat :=
  match arr with
  | some n => (n / 6, portRouter n)
  | none =>
    let sq := if p.ptype == .short then (shortOf p).srcSquad % 64 else s.sendSquad
    (sq / 16, sq % 16)

/-- PACKET_FORWARD: the packet at the head of the device's arbiter is delivered, dropped, sent towards a port, or waits there with those
behind it (R222, R223, R225). -/
def execPacketForward (arr : Option Nat) (p : Packet) (s : State) : Res :=
  match s.net.waiting with
  | [] => .next s
  | head :: rest =>
    let t := (s.setNet { s.net with waiting := rest }).freeRx arr p
    let e := s.entrance arr p
    if !s.alive || head != (arr, p) then .next s
    else if p.ptype == .time || (p.ptype == .pair && arr.isSome) then .next (if s.portOnly arr p then t.emit (.deliver p) else t)
    else if s.unissued p then .next t
    else match s.routeTo p with
      | .deliver =>
        if p.slice ≠ s.sliceTag ∨ s.sliceTag = 0 then .next (t.dropPkt arr p 2)
        else if p.dstSquad < 64 then .next (t.inject e.1 e.2 (clsOf p.ptype) (squadGoal p.dstSquad) p)
        else .next (t.deliver p)
      | .drop c => .next (t.dropPkt arr p c)
      | .send prim alt =>
        match s.outPort arr prim alt with
        | some n => .next ((t.setNet { t.net with rrPort := n }).inject e.1 e.2 (clsOf p.ptype) ⟨n / 6, portRouter n, some n⟩ p)
        | none => .next s

/-- An entry of the routing tables: pod entries at 0 to 8191, words of pod-level entries from 8192 (R221; DESIGN CHOICE, log 20). -/
def Net.tableWrite (t : Net) (addr : Nat) (data : W64) : Net :=
  if addr < 8192 then { t with podTable := tset 0 t.podTable addr data }
  else if addr < 8192 + 64 then { t with levelTable := tset 0 t.levelTable (addr - 8192) data } else t
/-- The entry that RTE_TBL_DATA shows for an address (R221). -/
def Net.tableRead (t : Net) (addr : Nat) : W64 :=
  if addr < 8192 then tget 0 t.podTable addr else if addr < 8192 + 64 then tget 0 t.levelTable (addr - 8192) else 0

/-- ROUTING_TABLE_WRITE: a write of RTE_TBL_DATA at the address in RTE_TBL_ADDR, on every channel (R221, R331). -/
def execRoutingTableWrite (addr : Nat) (data : W64) (s : State) : Res :=
  guard (s.alive && s.hostUp) s ((s.setNet (s.net.tableWrite addr data)).setRg (pgRTE + 0x110) addr)

/-! ## Lanes and ports lost (R215, R228 to R230) -/

def max16 : Nat := 0xFFFF

/-- The ports that packets to a device leave on: those of PRIMARY in service, else those of ALT (R222). -/
def State.routePorts (s : State) (dst : Nat) : List Nat :=
  match s.routeTo { dst := dst, src := s.devId, slice := s.sliceTag, ctx := 0, dstSquad := 0x7F, len := 1, ptype := .redData, tag := 0, epoch := 0, off := 0, body := [] } with
  | .send prim alt => if (s.inService prim).isEmpty then s.inService alt else s.inService prim
  | _ => []

/-- The tags of a context whose tree uses a port: another member is reached through it. -/
def State.tagsOn (s : State) (c n : Nat) : List Tag :=
  let ids := match (s.ctx c).slicePlan with | some p => p.ids | none => []
  if ids.any fun d => d != s.devId && (s.routePorts d).contains n then (s.ctx c).tags else []

/-- Abort a tag here and at every participant, with a new epoch (R228). -/
def State.abortAll (s : State) (c n : Nat) (g : Tag) : State :=
  (s.abortTag c g.tag (g.epoch + 1) n).emit (.abortTag c g.tag (g.epoch + 1))

/-- The packets whose flits were not acknowledged, and those still to send, whole (R230). -/
def Link.unacked (l : Link) : List Packet := (l.txBuf.map (·.2) ++ l.txQ.flatMap (·.2)).filterMap (·.last)

/-- A port fails: Error record, vector 192 + n; its packets wait for another port; collectives through it are aborted (R229, R230). -/
def State.failPort (s : State) (n : Nat) : State :=
  let l := s.link n
  if l.failed then s
  else
    let ab := (s.tagsOn 0 n).map (fun g => (0, g)) ++ (s.tagsOn 1 n).map fun g => (1, g)
    let t := s.modLink n fun l => { l with failed := true, up := false, training := false, lanes := 0, txQ := [], txBuf := [], resend := [],
                                           credits := [], nakSent := false, nakRun := 0, rxUsed := [], freed := [], asm := [] }
    let t := t.setNet { t.net with waiting := t.net.waiting ++ l.unacked.map fun p => (none, p) }
    let t := (t.log (n / 6) 0x3402 2 0 0x30 n (leBytes 1 n)).raise (192 + n)
    ab.foldl (fun (u : State) g => u.abortAll g.1 n g.2) t

/-- A half without a failed lane: false 0 to 3, true 4 to 7. -/
def cleanHalf (bad : List Nat) : Option Bool :=
  if bad.all fun k => decide (4 ≤ k) then some false else if bad.all fun k => decide (k < 4) then some true else none

/-- The port begins to train: from the coefficients in MRAM, or with full training from the presets where there are none (R209). -/
def State.trainLink (s : State) (n : Nat) : State :=
  s.modLink n fun l => { l with training := true, up := false, coef := tget [] s.mram.coef n }

/-- Hold the port's traffic and train (R215). -/
def State.retrain (s : State) (n : Nat) : State :=
  (s.trainLink n).modLink n fun l => { l with retrainCnt := capTo max32 (l.retrainCnt + 1), nakSent := false, nakRun := 0, uncTimes := [] }

/-- A lane fails: Warning record, vector; the port trains at the half that is left, or fails (R229). -/
def State.failLane (s : State) (n k : Nat) : State :=
  if (s.link n).laneFail.contains k then s
  else
    let bad := (s.link n).laneFail ++ [k]
    let t := s.modLink n fun l => { l with laneFail := bad }
    (t.log (n / 6) 0x3401 1 0 0x30 n (leBytes 1 n ++ leBytes 1 k ++ leBytes 1 (if (cleanHalf bad).isSome then 4 else 0))).raise (192 + n)

/-- After lanes have failed. -/
def State.afterLanes (s : State) (n : Nat) : State :=
  if (cleanHalf (s.link n).laneFail).isSome then s.retrain n else s.failPort n

/-- The identity block that a port sends (R231, R233). -/
def State.planLoaded (s : State) : Bool := (List.range 24).any fun n => s.bit (pgLNK n + 0x120) 31
def State.identity (s : State) (n : Nat) : Identity :=
  let l := s.link n
  { serial := s.dev.serial, devId := s.devId, port := n, role := l.planRole, rev := if s.planLoaded then l.planRev else 0, lanes := l.lanes }

/-- LNK_TRAIN: the plan of the page takes effect and every failed lane is tried again (R229, R342). -/
def execLnkTrain (n : Nat) (s : State) : Res :=
  let a := s.rg (pgLNK n + 0x120)
  guard (s.alive && s.chanUp (n / 6) && !(s.link n).fenced && !(s.link n).training) s
    ((s.trainLink n).modLink n fun l => { l with failed := false, laneFail := [], lockLoss := [], cls := 7, nakSent := false, nakRun := 0,
                                                 planPeer := bits a 15 0, planPort := bits a 20 16, planRole := bits a 27 24,
                                                 planValid := bits a 31 31 == 1, planRev := BitVec.ofNat 32 (s.rg (pgLNK n + 0x124)) })

/-- TRAINING_COMPLETE: lanes that failed, or link-up with the delay measured, precoding where both ends request it, the coefficients found, the
retry buffer to be resent and the identity sent (R209, R214, R229, R231). -/
def execTrainingComplete (n : Nat) (badLanes : List Nat) (delay : Nat) (x : TrainSet) (s : State) : Res :=
  let l := s.link n
  let new := badLanes.filter fun k => decide (k < 8) && !l.laneFail.contains k && (l.laneFail.isEmpty || cleanHalf l.laneFail == some (decide (4 ≤ k)))
  if !l.training || !s.chanUp (n / 6) then .next s
  else if !new.isEmpty then .next ((new.foldl (fun (t : State) k => t.failLane n k) s).afterLanes n)
  else
    let t := s.modLink n fun l => { l with training := false, up := true, lanes := if l.laneFail.isEmpty then 8 else 4,
                                           half := cleanHalf l.laneFail == some true && !l.laneFail.isEmpty, delay := delay % 65536, precode := x.own && x.peer, cls := 7,
                                           revMismatch := false, strap := false, coef := x.coef, resend := l.txBuf, slotNs := 0, rxFrame := 0, cwBad := false }
    .next (t.emit (.identity n (t.identity n)))

/-! ## Identity and class (R231 to R233) -/

/-- Record 0x3403 and vector 192 + n (R232). -/
def State.badClass (s : State) (n : Nat) : State :=
  let l := s.link n
  (s.log (n / 6) 0x3403 1 0 0x30 n (leBytes 1 n ++ leBytes 1 l.cls ++ leBytes 2 l.planPeer ++ leBytes 1 l.planPort ++ leBytes 1 0 ++ leBytes 2 l.peerId ++ leBytes 1 l.peerPort)).raise (192 + n)

/-- The class of a port that received an identity (R232): code and REV_MISMATCH. -/
def State.classify (s : State) (n : Nat) (b : Identity) : Nat × Bool :=
  let l := s.link n
  let named := (List.range 24).any fun m => (s.link m).planValid && (s.link m).planPeer == b.devId
  if b.rev ≠ l.planRev then (1, true)
  else if !named then (1, false)
  else if l.planValid && l.planPeer == b.devId && l.planPort == b.port then (2, false)
  else if l.planValid && l.planPeer == b.devId then (3, false) else (4, false)

/-- IDENTITY_BLOCK. -/
def execIdentityBlock (n : Nat) (b : Identity) (s : State) : Res :=
  let c := if s.planLoaded then s.classify n b else (2, false)
  let t := s.modLink n fun l => { l with peerSerial := b.serial, peerId := b.devId, peerPort := b.port, peerRole := b.role, peerLanes := b.lanes,
                                         peerRev := b.rev, cls := c.1, revMismatch := c.2, strap := !s.planLoaded }
  guard ((s.link n).inService && s.chanUp (n / 6)) s (if c.1 = 2 then t else t.badClass n)

/-- NO_PEER_TIMEOUT. -/
def execNoPeerTimeout (n : Nat) (s : State) : Res :=
  guard ((s.link n).inService && (s.link n).cls == 7) s ((s.modLink n fun l => { l with cls := 0 }).badClass n)

/-- LOSS_OF_LOCK: the third of a lane within 60 s fails it (R229). -/
def execLossOfLock (n lane : Nat) (s : State) : Res :=
  let l := s.link n
  let now := s.clk.ltb
  let h := (now, lane) :: l.lockLoss.filter fun e => decide (now < e.1 + 60000000000)
  let t := s.modLink n fun l => { l with lockLoss := h }
  guard (l.inService && decide (lane < 8)) s
    (if 3 ≤ (h.filter fun e => e.2 == lane).length ∧ !l.laneFail.contains lane then (t.failLane n lane).afterLanes n else t)

/-- PEER_SILENCE: 1 ms without an answer (R229). -/
def execPeerSilence (n : Nat) (s : State) : Res := guard ((s.link n).up || (s.link n).training) s (s.failPort n)

/-! ## Receiving flits (R213, R215) -/

/-- The sequence numbers from a to b in order, modulo 4096. -/
def seqDist (a b : Nat) : Nat := (b + 4096 - a % 4096) % 4096

/-- An acknowledgement frees the flits up to a SEQ. -/
def Link.acked (l : Link) (a : Nat) : Link :=
  match l.txBuf.head? with
  | none => l
  | some h =>
    if seqDist h.1 a < l.txBuf.length then
      let keep := l.txBuf.drop (seqDist h.1 a + 1)
      { l with txBuf := keep, resend := l.resend.filter fun e => keep.any fun x => x.1 == e.1 }
    else l

/-- Credits that the frame byte returns. -/
def Link.credited (l : Link) (v k : Nat) : Link := { l with credits := tset 0 l.credits v (tget 0 l.credits v - k) }

/-- A NAK for a SEQ: the flits before it are acknowledged, the others are sent again before anything new (R213). -/
def Link.replay (l : Link) (q : Nat) : Link :=
  match l.txBuf.head? with
  | none => l
  | some h =>
    let keep := if seqDist h.1 q < l.txBuf.length then l.txBuf.drop (seqDist h.1 q) else []
    { l with txBuf := keep, resend := keep, retryCnt := capTo max32 (l.retryCnt + 1) }

/-- A frame arrives: five lie in two codewords, so that a codeword begins with the first and within the third. Up to 15 wrong symbols of a
codeword are corrected; a codeword with more marks every flit that it overlaps (R209, R210). -/
def Link.frame (l : Link) (now errs : Nat) : Link × Bool :=
  let fresh := l.rxFrame == 0 || l.rxFrame == 2
  let bad := fresh && decide (15 < errs)
  let m := { l with rxFrame := (l.rxFrame + 1) % 5, cwBad := if fresh then bad else l.cwBad,
                    fecCorr := if fresh && decide (0 < errs ∧ errs ≤ 15) then capTo max32 (l.fecCorr + 1) else l.fecCorr,
                    fecUncorr := if bad then capTo max32 (l.fecUncorr + 1) else l.fecUncorr,
                    uncTimes := if bad then now :: l.uncTimes.filter (fun t => decide (now < t + 1000000000)) else l.uncTimes }
  (m, bad || (l.rxFrame != 0 && l.cwBad))

/-- A flit is discarded; a bad one, or the first out of order, is answered by a NAK naming the expected SEQ, and the sixteenth NAK in a row for
it retrains the port (R213, R215). -/
def State.badFlit (s : State) (n : Nat) (bad : Bool) : State :=
  let l := s.link n
  let nak := bad || !l.nakSent
  let t := s.modLink n fun l => { l with nakSent := true, nakRun := if nak then l.nakRun + 1 else l.nakRun }
  let t := if nak then t.lctl n (nakBody l.rxSeq) else t
  if 16 ≤ (t.link n).nakRun then t.retrain n else t

/-- The receive buffers of a virtual channel hold one more flit. -/
def Link.hasRx (l : Link) (v : Nat) : Bool := decide (tget 0 l.rxUsed v < vcBuf v)

/-- A flit in order is accepted: it takes a buffer, which VC0 and VC3 free at once, and joins the bytes of its packet (R212, R213, R216). -/
def Link.accept (l : Link) (f : Flit) : Link :=
  let sunk := f.vc == 0 || f.vc == 3
  { l with rxSeq := (l.rxSeq + 1) % 4096, nakSent := false, nakRun := 0, lastAck := some f.seq
           rxUsed := if sunk then l.rxUsed else tset 0 l.rxUsed f.vc (tget 0 l.rxUsed f.vc + 1)
           freed := if sunk then tset 0 l.freed f.vc (tget 0 l.freed f.vc + 1) else l.freed
           asm := if f.kind = .first then tset (0, []) l.asm f.vc (1, f.body)
             else tset (0, []) l.asm f.vc ((tget (0, []) l.asm f.vc).1 + 1, (tget (0, []) l.asm f.vc).2 ++ f.body) }

/-- The packet of a virtual channel, once it has all the flits that its header names. -/
def Link.whole (l : Link) (v : Nat) : Option Packet :=
  let a := tget (0, []) l.asm v
  (packetOf a.2).bind fun p => if a.1 = p.len then some p else none

/-- A whole packet goes to the arbiter of the device; a refused port gives none (R222, R232). -/
def State.takePacket (s : State) (n v : Nat) : State :=
  match (s.link n).whole v with
  | none => s
  | some p =>
    let t := s.modLink n fun l => { l with asm := tset (0, []) l.asm v (0, []) }
    if s.carries n then t.setNet { t.net with waiting := t.net.waiting ++ [(some n, p)] } else t.freeRx (some n) p

/-- A good flit: its ACK and credits count; an LCTL flit may be a NAK; one in order with a buffer is accepted (R211, R213). -/
def State.goodFlit (s : State) (n : Nat) (f : Flit) : State :=
  let t := s.modLink n fun l => (match f.ack with | some a => l.acked a | none => l).credited f.creditVc f.credits
  match f.kind with
  | .idle => t
  | .lctl => (match Flit.nak f with | some q => t.modLink n (·.replay q) | none => t)
  | .first | .cont =>
    if f.seq ≠ (s.link n).rxSeq ∨ (s.link n).hasRx f.vc = false then t.badFlit n false
    else (t.modLink n (·.accept f)).takePacket n f.vc

/-- LINK_FLIT_RECEIVE: a frame, with the wrong symbols of the codeword that begins in it (R209 to R213, R215). -/
def execLinkFlitReceive (n : Nat) (x : RxFlit) (s : State) : Res :=
  let l := s.link n
  if !l.inService || !s.chanUp (n / 6) then .next s
  else
    let r := l.frame s.clk.ltb x.errs
    let t := s.setLink n r.1
    if 16 < r.1.uncTimes.length then .next (t.retrain n)
    else if r.2 || !Flit.crcOk x.flit then .next (t.badFlit n true)
    else .next (t.goodFlit n x.flit)

/-- ACK_LCTL_SEND: nothing to send for 64 flit times (R213). -/
def execAckLctlSend (n : Nat) (s : State) : Res :=
  guard ((s.link n).inService && (s.link n).lastAck.isSome && (s.link n).idle == 64) s (s.lctl n [])

end Sys2Proof.Machine
end

