-- ==== Sys2Proof/Machine/Network.lean ====
section
/-! DEFINITION. The on-chip network: routes over mesh and ring, router holes and detours, seams, multicast (R189 to R208). -/

namespace Sys2Proof.Machine

/-! ## Geometry (R189, R190): edge routers 0 to 15, squads row x 4 + column -/

def homeSquad (e : Nat) : Nat := [0, 1, 2, 3, 3, 7, 11, 15, 15, 14, 13, 12, 12, 8, 4, 0].getD e 0
/-- The entry router of a squad. -/
def entryOf (sq : Nat) : Nat := [0, 1, 2, 6, 3, 7, 11, 10, 15, 14, 13, 9, 12, 8, 4, 5].idxOf sq
def partner (e : Nat) : Nat := if e % 2 = 0 then e + 1 else e - 1
/-- A north or south router. -/
def northSouth (e : Nat) : Bool := e / 4 % 2 == 0
/-- A squad lies in the home column of a north or south router, or the home row of the others. -/
def inHomeLine (e sq : Nat) : Bool := if northSouth e then sq % 4 == homeSquad e % 4 else sq / 4 == homeSquad e / 4

/-! ## Routes (R194 to R197, R207, R208) -/

/-- From index a to b, without a. -/
def walkLine (a b : Nat) : List Nat := if a ≤ b then (List.range (b - a)).map (a + 1 + ·) else (List.range (a - b)).map (a - 1 - ·)
def rowPath (r a b : Nat) : List Nat := (walkLine a b).map (4 * r + ·)
def colPath (c a b : Nat) : List Nat := (walkLine a b).map (4 * · + c)

/-- Squads from a to b: along the row and then the column, or the other way. -/
def meshPath (a b : Nat) (vertical : Bool) : List Nat :=
  if vertical then colPath (a % 4) (a / 4) (b / 4) ++ rowPath (b / 4) (a % 4) (b % 4)
  else rowPath (a / 4) (a % 4) (b % 4) ++ colPath (b % 4) (a / 4) (b / 4)

/-- The lane beside a row or column: one higher, or one lower at 3. -/
def beside (i : Nat) : Nat := if i = 3 then 2 else i + 1

/-- A path with its detours round holes: it leaves its line one hop before a hole and returns after it; a path that turns at a hole
cuts the corner (R207). A hole at its end leaves no path. -/
def detour (holes : List Nat) : Nat → List Nat → Option (List Nat)
  | _, [] => some []
  | prev, h :: t =>
    if !holes.contains h then (detour holes h t).map (h :: ·)
    else match t with
      | [] => none
      | x :: r =>
        let hop : List Nat :=
          if prev / 4 = h / 4 then
            (if x / 4 = h / 4 then [4 * beside (h / 4) + prev % 4, 4 * beside (h / 4) + h % 4, 4 * beside (h / 4) + x % 4, x]
             else [4 * (x / 4) + prev % 4, x])
          else
            (if x % 4 = h % 4 then [4 * (prev / 4) + beside (h % 4), 4 * (h / 4) + beside (h % 4), 4 * (x / 4) + beside (h % 4), x]
             else [4 * (prev / 4) + x % 4, x])
        (detour holes x r).map (hop ++ ·)

/-- The holes of a channel, as squads 0 to 15. -/
def Net.holesOf (t : Net) (c : Nat) : List Nat := (t.holes.filter fun q => q / 16 == c).map (· % 16)

/-- The squads that share a mesh link with one. -/
def neighbours (a : Nat) : List Nat :=
  (if a % 4 = 0 then [] else [a - 1]) ++ (if a % 4 = 3 then [] else [a + 1]) ++ (if a < 4 then [] else [a - 4]) ++ (if 12 ≤ a then [] else [a + 4])

/-- A shortest way from the ends of paths, last squad first, to squad b that avoids holes. -/
def maze (holes : List Nat) (b : Nat) : Nat → List (List Nat) → List Nat → Option (List Nat)
  | 0, _, _ => none
  | fuel + 1, front, seen =>
    match front.find? fun p => p.headD 16 == b with
    | some p => some (p.reverse.drop 1)
    | none =>
      let more := front.flatMap fun p => ((neighbours (p.headD 16)).filter fun q => !(holes ++ seen).contains q).map (· :: p)
      maze holes b fuel more (seen ++ more.map (·.headD 16))

/-- The squads from a to b, horizontally or vertically first; the detour of R207 round each hole, or where that meets the other hole the
shortest way round both (DESIGN CHOICE, log 40). -/
def squadPath (holes : List Nat) (a b : Nat) (vertical : Bool) : Option (List Nat) :=
  match detour holes a (meshPath a b vertical) with
  | none => none
  | some m => if m.any holes.contains then maze holes b 16 [[a]] [a] else some m

/-- A router whose home squad is a hole gives way to the next one clockwise (R207). -/
def entryFrom (holes : List Nat) : Nat → Nat → Nat
  | 0, e => e
  | n + 1, e => if holes.contains (homeSquad e) then entryFrom holes n ((e + 1) % 16) else e

/-- Edge routers from e to f, clockwise or anticlockwise. -/
def ringWay (e f : Nat) (cw : Bool) : List Nat :=
  if cw then (List.range ((f + 16 - e) % 16)).map fun i => 16 + (e + 1 + i) % 16 else (List.range ((e + 16 - f) % 16)).map fun i => 16 + (e + 15 - i) % 16

/-- The ring link from En to En+1 that a hop uses. -/
def ringLinks (e f : Nat) (cw : Bool) : List Nat :=
  if cw then (List.range ((f + 16 - e) % 16)).map fun i => (e + i) % 16 else (List.range ((e + 16 - f) % 16)).map fun i => (f + i) % 16

/-- One way round, or the other where a link of it has failed (R208). -/
def Net.ringDir (t : Net) (c e f : Nat) (cw : Bool) : List Nat :=
  ringWay e f (if (ringLinks e f cw).any fun k => t.ringOut.contains (c, k) then !cw else cw)

/-- The shorter way is clockwise; a tie goes clockwise (R197). -/
def shorterCw (e f : Nat) : Bool := decide ((f + 16 - e) % 16 ≤ 8)
def Net.ringPath (t : Net) (c e f : Nat) : List Nat := t.ringDir c e f (shorterCw e f)

/-- The routers of a channel from one to another: between an edge router and a squad by way of the squad's entry router, or for a memory port
(exch) by the router itself or its exchange partner (R195, R197); none where a hole ends the path. -/
def Net.path (t : Net) (c a b : Nat) (exch : Bool) : Option (List Nat) :=
  let holes := t.holesOf c
  let entry (e sq : Nat) : Nat := entryFrom holes 16 (if exch then (if inHomeLine (partner e) sq then partner e else e) else entryOf sq)
  if 16 ≤ a then
    let e := a - 16
    if 16 ≤ b then some (t.ringPath c e (b - 16))
    else
      let g := entry e b
      (squadPath holes (homeSquad g) b (northSouth g)).map fun m => t.ringPath c e g ++ homeSquad g :: m
  else if 16 ≤ b then
    let g := entry (b - 16) a
    (squadPath holes a (homeSquad g) (!northSouth g)).map fun m => m ++ (16 + g) :: t.ringPath c g (b - 16)
  else squadPath holes a b false

/-! ## Seams (R200, R201) -/

/-- A seam by the channel whose seam 0 it is. -/
def seamId (c j : Nat) : Nat := if j = 0 then c else (c + 3) % 4
/-- The channel at the other end. -/
def seamPeer (c j : Nat) : Nat := if j = 0 then (c + 1) % 4 else (c + 3) % 4
/-- The edge router of a seam's lane. -/
def seamRouter (j lane : Nat) : Nat := if j = 0 then 7 - lane else 8 + lane
/-- A seam has a working lane. -/
def Net.seamWorks (t : Net) (k : Nat) : Bool := (List.range 4).any fun l => !t.seamOut.contains (k, l)
/-- The working lane that carries a lane's traffic: the lane, or the next of k + 1, k + 2, k + 3. -/
def Net.laneFor (t : Net) (k lane : Nat) : Nat := (((List.range 4).map fun i => (lane + i) % 4).find? fun l => !t.seamOut.contains (k, l)).getD lane

/-- The seam on which a channel's traffic to another leaves: towards the nearer one, seam 0 to the diagonal one, and the other way round the
die ring where a seam of that way has no working lane. -/
def Net.seamTo (t : Net) (c g : Nat) : Nat :=
  let up := (List.range ((g + 4 - c) % 4)).all fun i => t.seamWorks ((c + i) % 4)
  let down := (List.range ((c + 4 - g) % 4)).all fun i => t.seamWorks ((g + i) % 4)
  if (g + 4 - c) % 4 = 3 then (if down || !up then 1 else 0) else if up || !down then 0 else 1

/-! ## Packets inside (R193 to R200, R207) -/

/-- The router of its present channel that a packet goes to: its goal, or the router of the seam lane on which it leaves. -/
def Net.target (t : Net) (x : Transit) : Nat :=
  if x.chan = x.goal.chan then x.goal.router
  else let j := t.seamTo x.chan x.goal.chan; 16 + seamRouter j (t.laneFor (seamId x.chan j) x.lane)

/-- A packet that crosses a channel between its two seams (R200). -/
def Net.crosses (t : Net) (x : Transit) : Bool := x.chan != x.src.1 && decide (16 ≤ x.router) && decide (x.chan ≠ x.goal.chan) && decide (16 ≤ t.target x)

/-- The way of a packet through its present channel: between seams lanes 0 and 1 go the short way and 2 and 3 the long way; memory traffic
exchanges in the channel of its memory port. -/
def Net.wayOf (t : Net) (x : Transit) : Option (List Nat) :=
  let e := x.router - 16
  let f := t.target x - 16
  if t.crosses x then some (t.ringDir x.chan e f (if x.lane < 2 then shorterCw e f else !shorterCw e f))
  else t.path x.chan x.router (t.target x) (x.cls == memCls && (if 16 ≤ x.router then x.chan == x.src.1 else x.chan == x.goal.chan) && x.goal.port.isNone)

/-- The buffer set of a route's squads: horizontal-first 0, vertical-first 1, detoured 2 (R193). -/
def routeSet (at_ : Nat) (route : List Nat) : Nat :=
  match (at_ :: route).filter (· < 16) with
  | a :: b :: r =>
    let vert := a % 4 == b % 4
    if b :: r = meshPath a ((b :: r).getLastD a) vert then b2n vert else 2
  | _ => 0

/-- The buffer set of a packet at its next router: its route's, and on the ring 3 while E0 is ahead and 4 from E0 on (R193). -/
def Transit.setAt (x : Transit) (next : Nat) : Nat :=
  if next < 16 ∨ x.router < 16 then x.set else if (x.route.drop 1).contains 16 then 3 else 4

/-- Packets of a class and a set at a router. -/
def Net.load (t : Net) (c r cls set_ : Nat) : Nat := (t.transit.filter fun x => x.chan == c && x.router == r && x.cls == cls && x.setAt r == set_).length

/-- There is a buffer for a packet at the next router; how many there are is free (R193, R199; DESIGN CHOICE, log 12). -/
def Net.fits (t : Net) (x : Transit) (to_ : Nat) : Bool := decide (t.load x.chan to_ x.cls (x.setAt to_) < Config.routerBuffers + 1)

/-- The first of a list by class: control first, and the others in turn from the class after the one served last (R193). -/
def byClass (last : Nat) (l : List Transit) : Option Transit :=
  (l.find? fun x => x.cls == 0).orElse fun _ => [1, 2, 3].findSome? fun i => l.find? fun x => x.cls == (last + i - 1) % 3 + 1

/-- A packet leaves the network: to its squad, its memory port or its link port (R190, R197). -/
def State.arrive (s : State) (x : Transit) : State :=
  match x.goal.port with
  | some n => s.sendOn n x.pkt
  | none => if x.cls = memCls then s.emit (.deliver x.pkt) else s.deliver x.pkt

/-- A packet stands at a router: it leaves the network where it has reached its goal. -/
def State.stand (s : State) (x : Transit) : State :=
  if x.route.isEmpty && x.chan == x.goal.chan && x.router == x.goal.router then s.arrive x
  else s.setNet { s.net with transit := s.net.transit ++ [x] }

/-- A packet takes its way from where it stands; one whose goal is a hole is dropped with the work that it belongs to (R207). -/
def State.route (s : State) (x : Transit) : State :=
  match s.net.wayOf x with
  | some r => s.stand { x with route := r, set := routeSet x.router r }
  | none => s

/-- Every packet of a channel takes its way anew (R201, R207, R208). -/
def State.reroute (s : State) (c : Nat) : State :=
  (s.net.transit.filter fun x => x.chan == c).foldl State.route (s.setNet { s.net with transit := s.net.transit.filter fun x => x.chan != c })

/-- A packet that the memory system or a host port offers at a router waits to enter: 1 to 8 flits of 512 B (R190, R193, R195, R197). -/
def State.offered (s : State) (c at_ dest : Nat) (o : Option MemPacket) : State :=
  match o with
  | none => s
  | some m =>
    if m.pkt.body.length ≤ 4096 ∧ (m.host = false ∨ hostRouter c at_ = true ∨ hostRouter c dest = true) then
      s.setNet { s.net with inq := s.net.inq ++ [{ chan := c, router := at_, cls := memCls, set := 0, src := (c, at_), goal := ⟨c, dest, none⟩, lane := 0,
                                                   route := [], pkt := m.pkt }] }
    else s

/-- The key of the link from a router to another. -/
def hopKey (c at_ to_ : Nat) : Nat := (c * 32 + at_) * 32 + to_

/-- ROUTER_PACKET_ARRIVAL: at a router, from its own source (at_ = next), the next packet that waits to enter; from a router to the next, the
packet that the link serves next; in the order sent within a class (R193 to R199, R206). -/
def execRouterPacketArrival (c at_ next dest : Nat) (offer : Option MemPacket) (s : State) : Res :=
  if !s.alive || !s.chanUp c || (s.net.holesOf c).contains next then .next s
  else
    let last := tget 0 s.net.rrCls (hopKey c at_ next)
    if at_ = next then
      let t := s.offered c at_ dest offer
      if (t.chan c).injectStop then .next t
      else match byClass last (t.net.inq.filter fun x => x.chan == c && x.router == at_ && t.net.fits x at_) with
        | none => .next t
        | some x => .next ((t.setNet { t.net with inq := t.net.inq.erase x, rrCls := tset 0 t.net.rrCls (hopKey c at_ next) x.cls }).route x)
    else match byClass last (s.net.transit.filter fun x => x.chan == c && x.router == at_ && x.route.head? == some next && s.net.fits x next) with
      | none => .next s
      | some x =>
        .next ((s.setNet { s.net with transit := s.net.transit.erase x, rrCls := tset 0 s.net.rrCls (hopKey c at_ next) x.cls }).stand
          { x with router := next, route := x.route.drop 1 })

/-- A nanosecond, 1.6 NCLK cycles, of the edge routers that hold traffic for their squad-to-edge link (R191, R199). -/
def Net.stallTick (t : Net) : Net :=
  let held := (t.transit.filter fun x => decide (16 ≤ x.router) && (x.route.head?.any fun r => decide (r < 16))).map fun x => x.chan * 16 + (x.router - 16)
  { t with stall := held.eraseDups.foldl (fun m k => tset 0 m k (tget 0 m k + 16)) t.stall }

/-- A lane goes out of service: Error record, and its traffic moves; two seams without a lane split the channels (R201, R303). -/
def State.laneOut (s : State) (c j lane : Nat) : State :=
  let k := seamId c j
  let t := s.setNet { s.net with seamOut := s.net.seamOut ++ [(k, lane)], seamRetry := tdel (4 * k + lane) s.net.seamRetry }
  let t := t.log c 0x3002 2 3 0x31 (c * 2 + j) (leBytes 1 (c * 2 + j) ++ leBytes 1 lane)
  let t := (List.range 4).foldl State.reroute t
  if 2 ≤ ((List.range 4).filter fun k => !t.net.seamWorks k).length then t.sideline 3 c else t

/-- The next packet that waits at the other end of a seam's lane. -/
def Net.seamHead (t : Net) (c j lane : Nat) : Option Transit :=
  t.transit.find? fun x => x.chan == seamPeer c j && x.router == 16 + seamRouter (1 - j) lane && x.route.isEmpty && x.chan != x.goal.chan

/-- SEAM_FLIT: the packet crosses and goes on; a failed flit is retried, until the lane's retries are exhausted (R200, R201). -/
def execSeamFlit (c j lane : Nat) (ok : Bool) (p : Option Packet) (s : State) : Res :=
  let k := 4 * seamId c j + lane
  if !s.alive || !s.chanUp c || !s.chanUp (seamPeer c j) || (s.chan c).injectStop || s.net.seamOut.contains (seamId c j, lane) then .next s
  else if (s.net.seamHead c j lane).map (·.pkt) ≠ p then .next s
  else if ok then
    let t := s.setNet { s.net with seamRetry := tset 0 s.net.seamRetry k 0 }
    match s.net.seamHead c j lane with
    | none => .next t
    | some x => .next ((t.setNet { t.net with transit := t.net.transit.erase x }).route { x with chan := c, router := 16 + seamRouter j lane, lane := lane })
  else
    let n := tget 0 s.net.seamRetry k + 1
    let t := s.setNet { s.net with seamRetry := tset 0 s.net.seamRetry k n }
    .next (if Config.seamRetries < n then t.laneOut c j lane else t)

/-! ## Multicast (R204, R205, R384) -/

/-- The group without receivers. -/
def McGroup.idle : McGroup := ⟨0, []⟩
def State.group (s : State) (g : Nat) : McGroup := tget McGroup.idle s.net.groups g
def State.setGroup (s : State) (g : Nat) (v : McGroup) : State := s.setNet { s.net with groups := tset McGroup.idle s.net.groups g v }

/-- A receiver's credit: the space that its deliveries have acquired and not filled (R204). -/
def State.credit (s : State) (g : Nat) (r : McRecv) : Nat := coverage (groupCtx g) (tget [] (s.squad r.squad).fifo 0) r.at_

/-- A group begins with a block that several squads' next deliveries name, those of the lowest such squad first (DESIGN CHOICE, log 40). -/
def State.newGroup (s : State) (g : Nat) : McGroup :=
  match s.unfenced.findSome? fun q => (s.squad q).delivery.filter fun r => r.ctx == groupCtx g && s.shared q r with
  | none => McGroup.idle
  | some r =>
    let all := s.unfenced.filter fun q => (s.squad q).delivery.any fun x => x.ctx == r.ctx && x.addr == r.addr && x.len == r.len
    ⟨r.addr.toNat, all.map fun q => { squad := q, at_ := r.addr.toNat, detached := false, spilled := [] }⟩

/-- RTE_MC_LAG.LIMIT in bytes. -/
def State.lagLimit (s : State) : Nat := (min 1024 (max 4 (s.rg (pgRTE + 0x100) % 2048))) * 1024

/-- The smallest credit among the other attached receivers, less a receiver's own (R204). -/
def State.lag (s : State) (g : Nat) (r : McRecv) : Nat :=
  match ((s.group g).recv.filter fun x => !x.detached && x.squad != r.squad).map (s.credit g) with
  | [] => 0
  | a :: t => t.foldl min a - s.credit g r

/-- Bytes in a channel's multicast lag spill region. -/
def Net.lagSpilled (t : Net) (c : Nat) : Nat :=
  ((t.groups.flatMap fun e => e.2.recv).filter fun r => r.squad / 16 == c).foldl (fun n r => n + r.spilled.length) 0

/-- Detach the receivers that lag beyond the limit, with an Info record each (R204). -/
def State.detachLate (s : State) (g : Nat) : State :=
  let v := s.group g
  let late := v.recv.filter fun r => !r.detached && decide (s.lagLimit < s.lag g r)
  late.foldl (fun (u : State) r => u.log (r.squad / 16) 0x3003 0 0 0x06 r.squad (leBytes 2 r.squad ++ leBytes 2 g))
    (s.setGroup g { v with recv := v.recv.map fun r => if late.contains r then { r with detached := true } else r })

/-- Bytes of the source from an address on land in a squad's deliveries, one after the other; a delivery that is full has its handle
pushed on the queue that the mesh produces (R123, R204). -/
def State.landAll (s : State) (sq : Nat) : Nat → Nat → List Byte → State
  | 0, _, _ => s
  | fuel + 1, a, l =>
    match l, (s.squad sq).delivery with
    | [], _ | _, none => s
    | _, some r =>
      let room := r.addr.toNat + r.len.toNat - a
      let t := s.land sq r (a - r.addr.toNat) (l.take room)
      if l.length < room then t
      else (t.modSquad sq fun q => ({ q with fifo := tset [] q.fifo 0 ((tget [] q.fifo 0).drop 1) }).handOn .mesh r).landAll sq fuel (a + room) (l.drop room)

/-- One receiver takes a copy: into its buffers, or behind its copies in the spill region (R204). -/
def State.takeCopy (s : State) (g : Nat) (r : McRecv) (l : List Byte) : State :=
  let put (t : State) (x : McRecv) : State := let v := t.group g; t.setGroup g { v with recv := v.recv.map fun y => if y.squad = r.squad then x else y }
  if r.detached then put s { r with spilled := r.spilled ++ l }
  else put (s.landAll r.squad 33 r.at_ l) { r with at_ := r.at_ + l.length }

/-- A receiver has no part of the group's data still to come. -/
def State.served (s : State) (g : Nat) (r : McRecv) : Bool := s.credit g r == 0 && r.spilled.isEmpty

/-- The bursts of a group's next bytes at their source. -/
def State.sourceBursts (s : State) (g len : Nat) : List (Nat × Nat) :=
  burstsAt ((List.range len).filterMap fun i => s.place (groupCtx g) ((s.group g).src + i) false none)

/-- The partition of a group's deliveries. -/
def State.groupPart (s : State) (g : Nat) : Nat := ((s.group g).recv.findSome? fun r => (s.squad r.squad).delivery.map (·.part)).getD 0

/-- Every receiver can take a flit of a group: its credit covers it, or the spill region of its channel does (R204, R205). -/
def State.groupFits (s : State) (g len : Nat) : Bool :=
  (s.group g).recv.all fun r => if r.detached then decide (s.net.lagSpilled (r.squad / 16) + len ≤ 2 ^ 30) else decide (len ≤ s.credit g r)

/-- The group that a flit goes to: the one in progress without fenced squads, or a new one. -/
def State.openGroup (s : State) (g : Nat) : State :=
  let v := s.group g
  if v.recv.all (s.served g) then s.setGroup g (s.newGroup g) else s

/-- MULTICAST_FLIT_SEND: bytes are read from memory once and go to every receiver (R29, R204, R205). -/
def execMulticastFlitSend (g len : Nat) (s : State) : Res :=
  let n := groupCtx g
  if !s.working n then .next s
  else
    let t := (s.openGroup g).detachLate g
    let v := t.group g
    if v.recv.isEmpty || !t.groupFits g len then .next t
    else match t.vread n none v.src len, t.regulate (t.groupPart g) (t.sourceBursts g len) with
      | some l, some u =>
        let u := u.setGroup g { v with src := v.src + len }
        .next (v.recv.foldl (fun (w : State) r => (w.takeCopy g r l).emit (.multicast g r.squad len)) u)
      | none, _ => .next (match v.recv.head?.bind fun r => (t.squad r.squad).delivery.map fun x => (r.squad, x) with
        | some (sq, x) => (match t.fetchFail x with
          | some e => t.engineFault n sq (match (t.ctx n).fl x.seq with | some f => f.queue | none => 0) 0x01 e false
          | none => t)
        | none => t)
      | _, none => .next t

/-- MULTICAST_REATTACH: the receiver reads its spilled copies back as far as it has space, ahead of any live copy; it is attached again
when none are left and its lag is within the limit (R204). -/
def execMulticastReattach (g sq : Nat) (s : State) : Res :=
  match (s.group g).recv.find? fun r => r.squad == sq && r.detached with
  | none => .next s
  | some r =>
    let l := r.spilled.take (s.credit g r)
    let t := s.landAll sq 33 r.at_ l
    let x := { r with at_ := r.at_ + l.length, spilled := r.spilled.drop l.length }
    let put (u : State) (y : McRecv) : State := let v := u.group g; u.setGroup g { v with recv := v.recv.map fun z => if z.squad = sq then y else z }
    let u := put t x
    guard (s.working (groupCtx g)) s (if x.spilled.isEmpty && decide (u.lag g x ≤ u.lagLimit) then put u { x with detached := false } else u)

/-! ## Failures (R207, R208) -/

/-- Two squads share a mesh link. -/
def adjacent (a b : Nat) : Bool :=
  (a / 4 == b / 4 && (a % 4 == b % 4 + 1 || b % 4 == a % 4 + 1)) || (a % 4 == b % 4 && (a / 4 == b / 4 + 1 || b / 4 == a / 4 + 1))

/-- ROUTER_HOLE: the squad is fenced and injection stops; a third hole, or one beside another, takes the channel down (R207). -/
def execRouterHole (sq : Nat) (s : State) : Res :=
  let c := sq / 16
  let old := s.net.holesOf c
  if !s.alive || !s.chanUp c || s.net.holes.contains sq then .next s
  else
    let t := s.setNet { s.net with holes := s.net.holes ++ [sq] }
    let t := t.log c 0x3001 2 3 0x06 sq (leBytes 2 sq)
    let t := t.fence sq 3
    if 2 ≤ old.length ∨ old.any (adjacent (sq % 16)) then .next (t.channelDown c) else .next (t.modChan c fun h => { h with injectStop := true })

/-- DETOUR_RESUME: the packets at a failed router are discarded, and those that another squad or a port sent are sent again; the detours apply, and
injection resumes (R207). -/
def execDetourResume (c : Nat) (s : State) : Res :=
  let bad := s.net.holesOf c
  let lost := s.net.transit.filter fun x => x.chan == c && bad.contains x.router
  let again := (lost.filter fun x => !(s.net.holes.contains (x.src.1 * 16 + x.src.2) && decide (x.src.2 < 16))).map fun x =>
    { x with chan := x.src.1, router := x.src.2, set := 0, route := [] }
  guard ((s.chan c).injectStop) s
    (((s.setNet { s.net with transit := s.net.transit.filter (fun x => !lost.contains x), inq := s.net.inq ++ again }).reroute c).modChan c fun h =>
      { h with injectStop := false })

/-- EDGE_ROUTER_FAILURE: its 32 pseudo-channels are lost and the channel goes down (R208). -/
def execEdgeRouterFailure (c e : Nat) (s : State) : Res :=
  if !s.alive || !s.chanUp c || s.net.edgeOut.contains (c * 16 + e) then .next s
  else
    let t := s.setNet { s.net with edgeOut := s.net.edgeOut ++ [c * 16 + e] }
    .next (((List.range 32).foldl (fun (u : State) i => u.losePc c (32 * e + i)) t).channelDown c)

/-- RING_LINK_FAILURE: the link from En to En+1; a second one takes the channel down (R208). -/
def execRingLinkFailure (c e : Nat) (s : State) : Res :=
  if !s.alive || !s.chanUp c || s.net.ringOut.contains (c, e) then .next s
  else
    let t := s.setNet { s.net with ringOut := s.net.ringOut ++ [(c, e)] }
    .next (if 2 ≤ (t.net.ringOut.filter fun x => x.1 == c).length then t.channelDown c else t.reroute c)

end Sys2Proof.Machine
end

