-- ==== Sys2Proof/Machine/BringUp.lean ====
section
/-! DEFINITION. What a channel's reset brings up: repair maps, assignment and latency of its arrays, fences that lift, its stacks
and its part of the interleave (R17, R18, R20 to R22, R159, R299, R344, R362, R363). -/

namespace Sys2Proof.Machine

/-! ## Arrays (R17, R18, R20, R22) -/

/-- The combined map of faulty physical rows and columns. -/
def State.repairMap (s : State) (sq : Nat) : List Nat × List Nat :=
  let f := tget ([], []) s.dev.fuseMap sq
  let g := tget ([], []) s.mram.field sq
  ((List.range 131).filter fun r => (f.1 ++ g.1).contains r, (List.range 130).filter fun q => (f.2 ++ g.2).contains q)

/-- Logical lines 0 to 127 and the checksum line on the first 129 physical lines that are not faulty. -/
def assignLines (total : Nat) (bad : List Nat) : List Nat := ((List.range total).filter fun r => !bad.contains r).take 129

/-- Spares that an assignment uses. -/
def sparesOf (rows cols : List Nat) : Nat := ((rows ++ cols).filter fun r => decide (129 ≤ r)).length

/-- An array after its map is loaded, with its assignment and its skew tables: a line at physical position p has r = p / 16 (R17, R19). -/
def arrOf (m : List Nat × List Nat) : Arr :=
  if 2 < m.1.length ∨ 1 < m.2.length then { Arr.reset with unrepairable := true, badRows := m.1, badCols := m.2 }
  else
    let r := assignLines 131 m.1
    let q := assignLines 130 m.2
    { Arr.reset with rows := r, cols := q, rowSkew := r.map (· / 16), colSkew := q.map (· / 16), badRows := m.1, badCols := m.2, bench := sparesOf r q, fillLat := if sparesOf r q = 0 then 17 else 18 }

/-- The field repairs that CLEAR_FIELD removed go (R339). -/
def State.dropField (s : State) (sq : Nat) : State :=
  if s.mram.fieldDrop.contains sq then
    s.setMram { s.mram with field := tdel sq s.mram.field, benched := s.mram.benched.filter (· != sq), fieldDrop := s.mram.fieldDrop.filter (· != sq) }
  else s

/-- A fence that a reset lifts (R299): CHECKSUM with a field repair for it loaded, LAT_HOLD. -/
def State.lifts (s : State) (sq cause : Nat) : Bool := cause == 5 || (cause == 1 && s.mram.benched.contains sq)

/-- Load a squad's map: it re-enters service where its fence lifts, or is fenced as unrepairable, or held when its latency exceeds a
given L (R18, R22, R299). -/
def State.loadSquad (s : State) (l : Option Nat) (sq : Nat) : State :=
  let s := s.dropField sq
  let a := arrOf (s.repairMap sq)
  let old := tfind s.mram.fences sq
  let stay := match old with
    | some c => if s.lifts sq c then none else some c
    | none => none
  let t := s.setMram { s.mram with fences := (match stay with
    | some _ => s.mram.fences
    | none => tdel sq s.mram.fences), benched := if stay = some 1 then s.mram.benched else s.mram.benched.filter (· != sq) }
  let hold := match l with
    | some v => decide (v < a.fillLat)
    | none => false
  let t := t.setSquad sq { Squad.reset with fenced := stay.isSome, cause := stay.getD 0, arr := { a with latHold := hold } }
  let t := t.setNet { t.net with holes := if stay = some 3 then t.net.holes else t.net.holes.filter (· != sq) }
  if a.unrepairable then t.fence sq 4 else if hold then t.fence sq 5 else t

/-- The largest fill latency of the assigned arrays, or 18 with FILL18 as set before start-up (R21). -/
def State.latency (s : State) : Nat :=
  if s.dev.fill18Now then 18 else (List.range 64).foldl (fun m sq => max m (s.squad sq).arr.fillLat) 17

/-! ## Stacks (R159) -/

/-- Step 3: a queued row is repaired, or retires its pseudo-channel. The spare resources left are as the stack reports (DESIGN CHOICE, log 11). -/
def State.repairRow (s : State) (c : Nat) (ok : Bool) (e : Nat × Nat × Nat) : State :=
  let pay := leBytes 2 e.2.1 ++ leBytes 4 e.2.2
  if ok then
    let d := s.draw
    (d.2.modChan c fun h => { h with pprLeft := tset 0 h.pprLeft (e.2.1 / 64) (d.1.toNat % 2 ^ 32) }).log c 0x2C04 0 0 0x20 c pay
  else (s.retirePc c e.2.1 3).log c 0x2C05 1 0 0x20 c pay

/-- The seams' lanes that fail training are out of service (R201). -/
def State.seamSteps (s : State) (c : Nat) (b : BringUp) : State :=
  (b.badSeam.filter fun e => !s.net.seamOut.contains (seamId c e.1, e.2)).foldl (fun (u : State) e => u.laneOut c e.1 e.2) s

/-- Steps 1 to 4: identity, training, queued rows by their position in the queue, marked lines. A channel that the lost map in MRAM
leaves beyond the limits is taken down again (R133, R156). -/
def State.stackSteps (s : State) (c : Nat) (b : BringUp) : State :=
  let t := (b.badStacks.flatMap fun k => (List.range 64).map (64 * k + ·)).foldl (fun (u : State) p => u.losePc c p) s
  let t := b.badLines.foldl (fun (u : State) e => match e.2 with
    | [] => u
    | [l] => u.markLine c e.1 l
    | _ => u.losePc c e.1) t
  let q := t.mram.repairQ.filter fun e => e.1 == c
  let t := t.setMram { t.mram with repairQ := t.mram.repairQ.filter fun e => e.1 != c }
  let t := ((List.range q.length).zip q).foldl (fun (u : State) e => u.repairRow c (!b.rowFails.contains e.1) e.2) t
  (t.setMram { t.mram with marks := t.mram.marks.filter fun e => !(e.1 / 512 == c && b.linesPass.contains (e.1 % 512)) }).lossLimits c

/-- A channel's blocks at their reset values; what the interleave left out stays out until the rebuild. -/
def State.blankChan (s : State) (c : Nat) : State :=
  s.setChan c { Chan.reset with removed := (s.chan c).removed, poison := (s.chan c).poison, lostSince := (s.chan c).lostSince, pprLeft := (s.chan c).pprLeft }

/-! ## One channel alone (R301, R362) -/

/-- A register that the reset of a channel leaves: another channel's, a global page's, a replicated page's, or one of CMGR, CLK and
PWR (R326, R331, R344; DEDUCED, log 41). -/
def keepReg (c a : Nat) : Bool :=
  pageChan a != some c || (match pageKind a with
    | .mmu | .disp _ | .rte | .clk | .cmgr | .pwr => true
    | _ => false)

/-- A byte outside channel c's local memory, the wide memory and c's spill region. -/
def keptCell (c : Nat) (e : Host.Cell) : Bool := !([c, 4, 8 + c].contains (e.1 / 2 ^ 44))

/-- Step 5 for one channel: its pseudo-channels that are out leave L_c and L_w; its local and spill space and wide space read zero
(R155; DEDUCED, log 41). -/
def State.rebuildChan (s : State) (c : Nat) : State :=
  let out := (List.range 512).filter fun p => s.mram.lost.contains (c * 512 + p) || s.mram.retire.contains (c * 512 + p)
  let t := (List.range 4).foldl (fun (u : State) k => u.modChan k fun h => { h with poison := h.poison.filter fun e => e.1 != 4 }) s
  let t := t.modChan c fun h => { h with removed := out, poison := [], lostSince := 0 }
  let t := t.setHbm (t.hbm.filter (keptCell c))
  let t := t.setDev { t.dev with userCap := t.capMiB }
  t.log c 0x2C03 0 0 0x56 0 (leBytes 4 t.dev.userCap)

/-- Steps 3 to 5 for a channel alone: its packets are gone, and its seams train again (R201). -/
def State.resetChan (s : State) (c : Nat) (b : BringUp) : State :=
  let t := s.setRegs (s.regs.filter fun e => keepReg c e.1)
  let t := { t with latchA := t.latchA.filter (fun e => keepReg c e.1), latchB := t.latchB.filter (fun e => keepReg c e.1),
                    store := t.store.filter fun e => e.1 / 2 ^ 28 != c }
  let t := t.blankChan c
  let t := (List.range 16).foldl (fun (u : State) i => u.loadSquad (some u.dev.normL) (16 * c + i)) t
  let t := t.setNet { t.net with
    seamOut := t.net.seamOut.filter fun e => e.1 != c && e.1 != seamId c 1
    inq := t.net.inq.filter fun x => x.chan != c
    transit := t.net.transit.filter fun x => x.chan != c }
  let t := ((t.seamSteps c b).stackSteps c b).rebuildChan c
  if t.dev.mode = .reduced ∧ t.countA = 64 then t.setMode .full 2 c else t

end Sys2Proof.Machine
end

