-- ==== Sys2Proof/Machine/Faults.lean ====
section
/-! DEFINITION. Detector faults and watchdogs, fences commanded and cleared, entry to Sideline mode, the reset of one channel (R285 to
R287, R291, R292, R294, R297 to R301, R303, R304, R332, R339, R362, R372). -/

namespace Sys2Proof.Machine

/-- The source type of a journal replay's record. -/
def jrnType : Nat := 0x14

/-- Record 0x1801: work replayed, on the same engine or another. -/
def State.logWork (s : State) (ch seq : Nat) (cls : Cls) (moved : Bool) : State :=
  s.log ch 0x1801 0 2 jrnType ch (leBytes 4 seq ++ leBytes 1 (clsIndex cls) ++ leBytes 1 (b2n moved))

/-- A detector's fault of an item or block on a squad: it runs once more there; a second fault fences the squad (R294). The flag says
that it is the second. -/
def State.squadFault (s : State) (n sq : Nat) (f : Flight) (item : Nat) : Bool × State :=
  if markOf f.faulted item 1 = some sq then (true, ((s.logWork (sq / 16) f.seq f.desc.cls true).fence sq 2).charge n f.seq)
  else (false, ((s.logWork (sq / 16) f.seq f.desc.cls false).modCtx n (·.modFl f.seq fun y => { y with faulted := faultMark item sq 1 :: y.faulted })).charge n f.seq)

/-- The item an array or its walkers have in hand: context, descriptor, item. -/
def State.itemOf (s : State) (sq : Nat) : Option Item :=
  (s.squad sq).arr.items.head?.orElse fun _ => (s.squad sq).arr.drain.map (·.item)

/-- An item goes back to its first unclosed stage on its squad. A tile that drains takes its slots and rungs back where no other item
holds the slots, else it is dealt to the squad again (R291, R294). -/
def State.redoItem (s : State) (sq : Nat) (it : Item) : State :=
  let a := (s.squad sq).arr
  let same (i : Item) : Bool := i.ctx == it.ctx && i.seq == it.seq && i.index == it.index
  match a.drain with
  | some d =>
    if !same d.item then s.abandonStage sq it
    else if a.items.all fun i => i.slots.all fun k => !it.slots.contains k then
      (s.modSquad sq fun q => { q with arr := { q.arr with drain := none, items := it :: q.arr.items, rungs := d.held ++ q.arr.rungs } }).abandonStage sq it
    else
      let t := s.dropItem sq it.ctx it.seq it.index
      t.modCtx it.ctx fun c => { c with mats := c.mats.map fun m => if m.seq = it.seq then { m with assigned := (sq, it.index) :: m.assigned } else m }
  | none => s.abandonStage sq it

/-- A matrix item faults: it goes back to its first unclosed stage (R291). -/
def State.faultItem (s : State) (sq : Nat) (it : Item) : State :=
  match (s.ctx it.ctx).flight.find? fun x => x.seq == it.seq with
  | none => s
  | some f =>
    let r := s.squadFault it.ctx sq f it.index
    if r.1 || (r.2.ctx it.ctx).lost then r.2
    else r.2.redoItem sq it

/-- A block faults: what has been done of it is discarded. -/
def State.faultBlock (s : State) (n sq : Nat) (f : Flight) (b : Nat) : State :=
  (s.squadFault n sq f b).2.modSquad sq fun q => { q with upe := match q.upe with
    | some u => if u.ctx = n ∧ u.seq = f.seq ∧ u.block = b then none else some u
    | none => none }

/-- A DMA transfer faults: once more from its residue, or on another channel while its own is disabled (R294; log 40 for a host-owned
one). -/
def State.dmaDisable (s : State) (c d : Nat) : State :=
  if (s.dma c d).disabled then s
  else
    let t := (s.modDma c d fun k => { k with disabled := true }).log c 0x1402 2 3 0x11 (c * 32 + d) (leBytes 2 (c * 32 + d))
    match (t.dma c d).state, (t.dma c d).xfer with
    | 1, some x => if x.seq.isNone then (t.dmaStop c d x 1 8 0 0).dmaSignal c d 1 else (t.modDma c d fun k => { k with state := 2, xfer := some x.committed, restartable := true }).rescueDma c
    | _, _ => t

/-- The DMA channel's fault. -/
def State.faultDma (s : State) (c d : Nat) : State :=
  match (s.dma c d).state, (s.dma c d).xfer with
  | 1, some x =>
    let second := decide (1 ≤ (s.dma c d).faults)
    let t := match x.seq with
      | some q => (s.logWork c q .dma second).charge x.ctx q
      | none => s
    if (t.dma c d).xfer.isNone then (if second then t.dmaDisable c d else t)
    else if second then t.dmaDisable c d else t.modDma c d fun k => { k with faults := 1, xfer := some x.committed }
  | _, _ => s

/-- The class of an engine's blocks. -/
def clsOfEngine : Engine → Cls
  | .row _ => .row
  | .update _ => .update
  | _ => .vector

/-- A fault of what an engine has in hand (R294). -/
def State.engineFails (s : State) (e : Engine) : State :=
  match e with
  | .array sq | .fetch sq => (match s.itemOf sq with
    | some it => if s.working it.ctx then s.faultItem sq it else s
    | none => s)
  | .vector sq | .row sq | .update sq => (match s.blockOf sq (clsOfEngine e) with
    | some (n, f, b) => s.faultBlock n sq f b
    | none => s)
  | .dma c d => s.faultDma c d
  | .collective tag => (match (s.ctx s.runningCtx).tags.find? fun g => g.tag == tag with
    | some g => s.abortAll s.runningCtx 0xFF g
    | none => s)
  | .dispatcher _ => s

/-- The context and descriptor that an engine of a squad works for. -/
def State.engineWork (s : State) (e : Engine) : Option (Nat × Flight) :=
  match e with
  | .array sq | .fetch sq => (s.itemOf sq).bind fun it => ((s.ctx it.ctx).flight.find? fun x => x.seq == it.seq).map fun f => (it.ctx, f)
  | .vector sq | .row sq | .update sq => (s.blockOf sq (clsOfEngine e)).map fun p => (p.1, p.2.1)
  | _ => none

/-- A tensor in squad stores that a completed descriptor wrote: no descriptor in flight writes it (R294). -/
def State.recomputable (s : State) (n h : Nat) : Bool :=
  ((s.ctx n).flight.any fun f => f.fp.any fun e => e.write && e.handle == h) ||
    (match tfind (s.ctx n).tensors h with
     | some t => (match t.home with
       | .squad _ | .distributed => false
       | _ => true)
     | none => true)

/-- The routine context's share is on its way to the spill area (R183). -/
def State.spilling (s : State) : Bool := s.ctx1.request && s.ctx0.stopping.isEmpty && s.ctx0.started && !s.ctx0.spilled

/-- A fetch unit could not read a squad-store word that is to be spilled: the routine context is lost (R188). -/
def State.spillUnread (s : State) (e : Engine) (data : Option Nat) : Bool :=
  s.spilling && data.isSome && (match e with | .fetch _ => true | _ => false)

/-- DETECTOR_FAULT: replay, fence, or a lost context for a squad-store word that cannot be recomputed (R188, R294). -/
def execDetectorFault (e : Engine) (data : Option Nat) (s : State) : Res :=
  if s.spillUnread e data then .next (s.loseCtx 0 6 0 0 0 false)
  else match data, s.engineWork e with
  | some h, some (n, f) => if s.recomputable n h then .next (s.engineFails e) else .next (s.loseByDevice n 3 f.queue f.qindex f.seq)
  | _, _ => guard s.alive s (s.engineFails e)

/-- ENGINE_WATCHDOG (R287): frozen while the context does not work. -/
def execEngineWatchdog (e : Engine) (s : State) : Res := guard s.alive s (s.engineFails e)

/-- CMGR_WATCHDOG: a restart, or the channel's end at a second miss within an hour (R287). -/
def execCmgrWatchdog (c : Nat) (s : State) : Res :=
  let now := s.clk.ltb
  let again := match (s.chan c).wdMiss with
    | some t => decide (now < t + 3600000000000)
    | none => false
  guard (s.alive && s.chanUp c) s
    (if again then s.channelDown c else (s.modChan c fun h => { h with wdMiss := some now }).log c 0x0C01 1 0 0x40 c (leBytes 1 c))

/-! ## Fences (R297, R299, R332) -/

/-- SQ_FENCE_WRITE. -/
def execSqFenceWrite (sq : Nat) (s : State) : Res := guard (s.alive && s.chanUp (sq / 16)) s (s.fence sq 6)

/-- DMACH_FENCE_WRITE. -/
def execDmachFenceWrite (c d : Nat) (s : State) : Res := guard (s.alive && s.chanUp c) s (s.dmaDisable c d)

/-- LNK_FENCE_WRITE: as a failed port is taken (R230, R332). -/
def execLnkFenceWrite (n : Nat) (s : State) : Res :=
  guard (s.alive && s.chanUp (n / 6)) s ((s.failPort n).modLink n fun l => { l with fenced := true })

/-- FENCE_CLEAR: neither context started; a squad leaves the fence list and returns at its channel's next reset. -/
def execFenceClear (t : FenceTarget) (s : State) : Res :=
  match t with
  | .squad sq =>
    if !s.alive || !s.chanUp (sq / 16) then .next s
    else if !s.noneStarted then .next (s.lockedWrite (pgSQ sq))
    else .next (s.setMram { s.mram with fences := tdel sq s.mram.fences, suspect := tdel sq s.mram.suspect })
  | .dma c d =>
    if !s.alive || !s.chanUp c then .next s
    else if !s.noneStarted then .next (s.lockedWrite (pgDMACH c d))
    else .next (s.modDma c d fun k => { k with disabled := false })
  | .port n =>
    if !s.alive || !s.chanUp (n / 6) then .next s
    else if !s.noneStarted then .next (s.lockedWrite (pgLNK n))
    else .next (s.modLink n fun l => { l with fenced := false })

/-! ## Sideline and channel reset -/

/-- DEV_MODE_SIDELINE. -/
def execDevModeSideline (s : State) : Res := .next (s.sideline 9 0xFF)

/-- A channel's reset is in progress. -/
def State.resetting (s : State) : Bool := (List.range 4).any fun c => (s.chan c).inReset

/-- SIDELINE_N_INPUT: low for at least 1 us; a channel reset in progress completes first (R303, R307). -/
def execSidelineNInput (ns : Nat) (s : State) : Res :=
  guard (decide (1000 ≤ ns)) s
    (if s.alive && s.resetting then s.setDev { s.dev with sidelinePending := some (7 + 256 * 0xFF) } else s.sideline 7 0xFF)

/-- A Sideline entry that waited for a channel's reset follows it (R307). -/
def State.takePending (s : State) : State :=
  match s.dev.sidelinePending with
  | some v => if s.resetting then s else (s.setDev { s.dev with sidelinePending := none }).sideline (v % 256) (v / 256)
  | none => s

/-- CMGR page of a channel. -/
def pgCMGR (c : Nat) : Nat := c * 0x400000 + 0x300000

/-- CHANNEL_RESET: neither context started. While JTAG selects one of its stacks, the channel stays in reset (R157). -/
def execChannelReset (c : Nat) (b : BringUp) (s : State) : Res :=
  if !s.alive then .next s
  else if !s.noneStarted then .next (s.lockedWrite (pgCMGR c))
  else match s.jtag.stack with
    | some k => if k / 8 = c then .next (s.modChan c fun h => { h with inReset := true }) else .next (s.resetChan c b).takePending
    | none => .next (s.resetChan c b).takePending

/-- ARR_CLEAR_FIELD. -/
def execArrClearField (sq : Nat) (s : State) : Res :=
  if !s.alive || !s.chanUp (sq / 16) then .next s
  else if !s.noneStarted then .next (s.lockedWrite (pgARR sq))
  else .next (s.setMram { s.mram with fieldDrop := (s.mram.fieldDrop ++ [sq]).dedup })

end Sys2Proof.Machine
end

