-- ==== Sys2Proof/Machine/Time.lean ====
section
/-! DEFINITION. System Time: its sources, whistles, corrections, holdover, loss of references, its end; maintenance windows; and
the nanosecond that passes while no command waits (R99, R100, R107, R139, R149, R234 to R245, R250, R311, R335, R386). -/

namespace Sys2Proof.Machine

/-! ## Sources and ports (R225, R235) -/

/-- TIME_CTRL.SOURCE, 3 taken as 0: LINK 0, PIN 1, MASTER 2. -/
def State.timeSource (s : State) : Nat := let v := s.rg (pgTIME + 8) % 4; if v = 3 then 0 else v
def State.upPort (s : State) : Nat := bits (s.rg (pgTIME + 8)) 12 8
def State.altPort (s : State) : Nat := bits (s.rg (pgTIME + 8)) 20 16
/-- The up port is in service and MATCHED. -/
def State.upGood (s : State) : Bool := (s.link s.upPort).inService && (s.link s.upPort).cls == 2
/-- Whistles of a port are taken. -/
def State.takesFrom (s : State) (port : Nat) : Bool :=
  s.timeSource == 0 && s.carries port && (port == s.upPort || (port == s.altPort && !s.upGood))
/-- The interval of whistles, 2^20 ns. -/
def whistleNs : Nat := 2 ^ 20

/-- Write the ST-known flag of both contexts (R239). -/
def State.flag242 (s : State) (v : Bool) : State := (s.writeFlag 0 242 v).writeFlag 1 242 v

/-- ST is set for the first time; start-up step 7 ends (R239, R360). -/
def State.firstTime (s : State) (st : W64) : State :=
  let t := s.setClk { s.clk with st := st, known := true, stopped := false, slewE := 0, slewT := 0, halfLeft := 0, halfPhase := false }
  let t := t.setDev { t.dev with step := if t.dev.step = 6 then 7 else t.dev.step }
  ((t.flag242 true).log 4 0x4001 0 0 0x50 0 (leBytes 8 st.toNat)).event pgTIME 0 216

/-- ST becomes unknown (R238, R240, R386). -/
def State.forgetTime (s : State) : State :=
  (s.setClk { s.clk with known := false, slewE := 0, slewT := 0, halfLeft := 0 }).flag242 false

/-- TIME_LAST_E. -/
def satInt32 (e : Int) : Int := max (-(2 ^ 31)) (min (2 ^ 31 - 1) e)

/-- The correction of a known ST by e (R238). -/
def State.correct (s : State) (e : Int) : State :=
  let s := s.setClk { s.clk with lastE := satInt32 e }
  if -64 ≤ e ∧ e ≤ 64 then
    s.setClk { s.clk with slewE := e, slewT := whistleNs, halfLeft := 0, trim := Config.rateTrim s.clk.trim e }
  else if 64 < e then
    let t := s.setClk { s.clk with st := s.clk.st + BitVec.ofInt 64 e, slewE := 0, slewT := 0, halfLeft := 0 }
    (t.log 4 0x4002 1 0 0x50 0 (leInt 8 e)).event pgTIME 2 217
  else if -(2 ^ 20) ≤ e then
    let t := s.setClk { s.clk with halfLeft := e.natAbs, slewE := 0, slewT := 0 }
    (t.log 4 0x4003 1 0 0x50 0 (leInt 8 e)).event pgTIME 2 217
  else (s.forgetTime.log 4 0x4004 2 0 0x50 0 (leInt 8 e)).event pgTIME 2 217

/-- A whistle instant whose ST is estimated: first setting or correction; holdover ends (R238 to R240). -/
def State.takeWhistle (s : State) (est : Nat) (hops : Nat) : State :=
  let s := s.setClk { s.clk with lastWhistle := s.clk.ltb, holdover := false, hops := hops, deep := decide (32 < hops) }
  if s.clk.stopped then s
  else if s.clk.known then s.correct ((est : Int) - (s.clk.st.toNat : Int)) else s.firstTime (BitVec.ofNat 64 est)

/-- The packet of a whistle: slice tag 0, and its 32 body bytes; no other header field is used (R212, R236). -/
def State.whistlePacket (s : State) (w : Whistle) : Packet :=
  { dst := 0, src := s.devId, slice := 0, ctx := 0, dstSquad := 0x7F, len := 1, ptype := .time, tag := 0, epoch := 0, off := 0,
    body := leBytes 8 w.t.toNat ++ leBytes 8 w.c ++ leBytes 2 w.master ++ leBytes 1 w.hops ++ List.replicate 13 0#8 }

/-- Send a whistle on every port of DOWN_MASK that carries packets, as a VC0 packet (R232, R236). -/
def State.sendWhistle (s : State) (w : Whistle) : State :=
  ((List.range 24).filter fun n => s.bit (pgTIME + 0x100) n && s.carries n).foldl (fun (t : State) n => t.sendOn n (t.whistlePacket w)) s

/-- WHISTLE_SEND: at a multiple of 2^20 ns of a known ST (R236, R241). A LINK device sends only what it forwards. -/
def execWhistleSend (s : State) : Res :=
  let t := if s.bit (pgTIME + 8) 2 then s.emit .pulse else s
  guard (s.alive && s.clk.known && decide (s.clk.st.toNat % whistleNs = 0)) s
    (if s.timeSource = 0 then t else t.sendWhistle { t := s.clk.st, c := 0, master := s.devId, hops := 0 })

/-- The corrected copy of a whistle goes on, unless it has crossed 255 links (R236, R381). -/
def State.forwardWhistle (s : State) (w : Whistle) (wp residence : Nat) : State :=
  if 255 ≤ w.hops then s else s.sendWhistle { w with c := (w.c + 16 * wp + residence) % 2 ^ 64, hops := w.hops + 1 }

/-- WHISTLE_RECEIVE: the estimate T + C + w_p; the corrected copy goes on (R236, R238). Residence is in 1/16 ns. -/
def execWhistleReceive (port : Nat) (w : Whistle) (residence : Nat) (s : State) : Res :=
  let wp := (s.link port).delay
  guard (s.takesFrom port) s ((s.takeWhistle (w.t.toNat + w.c / 16 + wp) w.hops).forwardWhistle w wp residence)

/-- WHISTLE_IN_EDGE: PIN mode; the first edge marks the seed (R241). -/
def execWhistleInEdge (s : State) : Res :=
  let v := if s.clk.seedArmed then some s.clk.seed else s.clk.pinNext
  match v with
  | none => .next s
  | some st => guard (s.alive && s.timeSource == 1) s
      ((s.setClk { s.clk with seedArmed := false, pinNext := some (st + BitVec.ofNat 64 whistleNs) }).takeWhistle st.toNat 0)

/-- WHISTLE_SEED: the host writes TIME_WHISTLE_SEED, which arms it. -/
def execWhistleSeed (v : W64) (s : State) : Res :=
  .next ((s.setRg64 (pgTIME + 0x118) v.toNat).setClk { s.clk with seed := v, seedArmed := true })

/-- HOLDOVER: four intervals without a whistle (R240). -/
def execHoldover (s : State) : Res :=
  guard (s.alive && s.clk.known && s.timeSource != 2 && !s.clk.holdover && decide (s.clk.lastWhistle + 4 * whistleNs ≤ s.clk.ltb)) s
    (((s.setClk { s.clk with holdover := true }).log 4 0x4005 1 0 0x50 0 (leBytes 8 s.clk.st.toNat)).event pgTIME 1 216)

/-- TREF_LOSS: the module turns to its own reference (R240, R374). -/
def execTrefLoss (s : State) : Res :=
  guard (s.alive && s.clk.trefLock) s (((s.setClk { s.clk with trefLock := false, onModule := true }).log 4 0x4006 2 0 0x50 0 []).raise 216)

/-- TREF_RETURN: TREF stable for 1 ms. -/
def execTrefReturn (s : State) : Res :=
  guard (s.alive && !s.clk.trefLock) s (s.setClk { s.clk with trefLock := true, onModule := false, baseLock := true })

/-- TIME_BASE_LOCK_LOSS: neither reference is usable (R240). -/
def execTimeBaseLockLoss (s : State) : Res :=
  guard (s.alive && s.clk.baseLock) s
    (((s.setClk { s.clk with baseLock := false, trefLock := false, onModule := false }).forgetTime).log 4 0x4007 2 0 0x50 0 [])

/-- TIME_SET: MASTER only (R235, R335). -/
def execTimeSet (v : W64) (s : State) : Res :=
  if s.timeSource ≠ 2 then .next (s.badCommand pgTIME)
  else
    let t := s.setRg64 (pgTIME + 0x110) v.toNat
    .next (if t.clk.known then t.setClk { t.clk with st := v, slewE := 0, slewT := 0, halfLeft := 0 } else t.firstTime v)

/-- ST_END: ST stops at 2^64 - 1 and KNOWN clears (R386). -/
def execStEnd (s : State) : Res :=
  guard (s.clk.known && s.clk.st == BitVec.allOnes 64) s (s.forgetTime.setClk { s.forgetTime.clk with stopped := true })

/-- MAINTENANCE_WINDOW_OPEN: the records held are written (R245). -/
def execMaintenanceWindowOpen (n : Nat) (s : State) : Res :=
  guard (s.alive && n == s.runningCtx && s.maint && s.ledger.erasing.isNone) s s.flushHeld

/-! ## One nanosecond (DESIGN CHOICE, log 6) -/

/-- How far ST moves in a nanosecond of the local time base: half rate, slew over 2^20 ns, trim in units of 2^-32 (R238). -/
def Clock.advance (c : Clock) : Nat × Clock :=
  if 0 < c.halfLeft then
    if c.halfPhase then (0, { c with halfPhase := false, halfLeft := c.halfLeft - 1 }) else (1, { c with halfPhase := true })
  else
    let k : Int := (whistleNs - c.slewT : Nat)
    let d : Int := if c.slewT = 0 then 0 else Int.fdiv (c.slewE * (k + 1)) whistleNs - Int.fdiv (c.slewE * k) whistleNs
    let a := c.trimAcc + c.trim
    let w := Int.fdiv a (2 ^ 32)
    ((1 + d + w).toNat, { c with slewT := c.slewT - 1, trimAcc := a - w * 2 ^ 32 })

/-- ST after n ns, which stops at its greatest value. -/
def Clock.runSt (c : Clock) (n : Nat) : Clock :=
  if c.known then { c with st := if 2 ^ 64 ≤ c.st.toNat + n then BitVec.allOnes 64 else c.st + BitVec.ofNat 64 n } else c

/-- The clocks after a nanosecond; cyc counts tenths of CCLK cycles. -/
def Clock.tick (c : Clock) : Clock :=
  if !c.baseLock then c
  else
    let p := c.advance
    { p.2.runSt p.1 with ltb := c.ltb + 1, cyc := c.cyc + c.cclk }

/-- Clocks of a context that are not frozen (R100, R107, R185, R186). -/
def Ctx.clocksRun (c : Ctx) : Bool := c.started && !c.suspended && !c.halted && !c.lost && !c.preempted && !c.yielded

/-- A flight's shot clock runs (R100, R248): waits unsatisfied, or members awaited. -/
def Flight.clockRuns (f : Flight) : Bool :=
  f.desc.shot != 0 && !f.expired &&
    ((f.phase == Phase.admitted && !f.waitsDone) || (f.phase == Phase.issued && (f.desc.cls == Cls.huddle || f.desc.cls == Cls.collective)))

def Flight.tick (f : Flight) : Flight := if f.clockRuns then { f with shotNs := f.shotNs + 1 } else f

/-- A drain of the context waits for the send ring (R250). -/
def State.drainWaits (s : State) (n : Nat) : Bool :=
  s.squads.any fun e => match e.2.arr.drain with
    | some d => d.item.ctx == n && (match (s.ctx n).mats.find? fun m => m.seq == d.item.seq with
      | some m => (match (s.ctx n).matDesc m with
        | some x => (s.ctx n).ringFull x
        | none => false)
      | none => false)
    | none => false

/-- A context after a nanosecond that spans some cycles. -/
def Ctx.tick (c : Ctx) (cycles : Nat) (waits : Bool) : Ctx :=
  if c.clocksRun then
    { c with flight := c.flight.map Flight.tick, mutualCnt := if c.mutual_ then c.mutualCnt + cycles else 0, stallNs := c.stallNs + b2n waits }
  else c

/-- PON_S: seconds on the aux rail, saturating (R310, R311). -/
def Dev.tick (d : Dev) : Dev :=
  if d.ponNs + 1 < 1000000000 then { d with ponNs := d.ponNs + 1 } else { d with ponNs := 0, ponLive := capTo max32 (d.ponLive + 1) }

/-- A nanosecond passes; while the local time base has no lock, nothing that counts on it does (R100, R139, R240). -/
def State.tick (s : State) : State :=
  let t := if s.dev.aux then s.setDev s.dev.tick else s
  if !s.alive || !s.clk.baseLock then t
  else
    let k := s.clk.tick
    let cyc := k.cyc / 10 - s.clk.cyc / 10
    let w0 := s.drainWaits 0
    let w1 := s.drainWaits 1
    let t := ((t.setClk k).modCtx 0 fun c => c.tick cyc w0).modCtx 1 fun c => c.tick cyc w1
    let t := ((List.range 4).filter t.chanUp).foldl (fun (u : State) c => u.fillTokens c) t
    (List.range 24).foldl State.linkTick (t.setNet t.net.stallTick)

end Sys2Proof.Machine
end

