-- ==== Sys2Proof/Machine/Power.lean ====
section
/-! DEFINITION. Input power, capping, rail over-current, temperature, CCLK, and the power-down to Dark (R303, R310, R311, R366 to R372,
R375 to R377, R379). Units: 10 mV, W, 100 MHz, 0.25 degrees C. -/

namespace Sys2Proof.Machine

/-! ## Power-down (R303, R310, R311, R370) -/

/-- What of the ledger controller outlives Dark. -/
def Ledger.off (l : Ledger) (now : Nat) : Ledger :=
  { Ledger.reset with slots := l.slots, order := l.order, uid := l.uid, head := l.head, any := l.any, wraps := l.wraps, fatalLost := l.fatalLost,
                      droppedInfo := l.droppedInfo, droppedWarn := l.droppedWarn, hostReject := l.hostReject, suppr := l.suppr,
                      chalCount := l.chalCount, mism := l.mism, lockUntil := l.lockUntil.map (· - now) }

/-- What of the device-wide state outlives Dark. -/
def Dev.off (d : Dev) : Dev :=
  { Dev.reset with strap := d.strap, sysResetN := d.sysResetN, ponLive := d.ponLive, ponNs := d.ponNs, aux := d.aux, serial := d.serial,
                   fuseMap := d.fuseMap, secMin := d.secMin }

/-- Device reset: all but MRAM, fuses, pins and what the aux rail keeps is at its reset value. -/
def State.deviceReset (s : State) : State :=
  { State.reset with pending := s.pending, free := s.free, out := s.out, mram := s.mram, ledger := s.ledger.off s.clk.ltb, dev := s.dev.off,
                     host := { HostPorts.reset with perstA := s.host.perstA, perstB := s.host.perstB },
                     pwr := { Power.reset with thermTrip := s.pwr.thermTrip },
                     watch := { Watch.reset with alert := s.watch.alert, fatalSince := s.watch.fatalSince },
                     jtag := s.jtag, smbSlot := s.smbSlot }

/-- A record written with hold-up energy. -/
def State.writeHoldup (s : State) (r : Rec) : State := s.writeRec { r with holdup := true }

/-- The mode-change record of the entry to Dark, vector 248, ALERT[0]. -/
def State.darkRecord (s : State) (trigger : Nat) : State :=
  if s.alive then
    let o : Offer := { code := 0x0401, sev := modeSev .dark trigger, fclass := 0, srcType := 0x56, srcInst := 0, payload := s.modePayload s.dev.mode .dark trigger 0xFF }
    let t := (s.setLedger { s.ledger with uid := s.ledger.uid + 1 }).writeHoldup (s.stamp o false true)
    (t.raise 248).alert 0
  else s

/-- Held records, and those waiting since step 1 stamped with the advanced count (R311). -/
def State.holdupHeld (s : State) : State :=
  let t := s.ledger.waiting.foldl (fun (u : State) e => u.writeHoldup { e.2 with pcycle := if s.alive then e.2.pcycle else u.mram.pcycle })
    (s.setLedger { s.ledger with waiting := [] })
  s.ledger.held.foldl (fun (u : State) e => u.writeHoldup e.2) (t.setLedger { t.ledger with held := [] })

/-- The power-down: PCYCLE, the mode-change record, held records, PON_S and the link coefficients go to MRAM; the device is Dark. -/
def State.powerDown (s : State) (trigger : Nat) : State :=
  if s.alive || decide (0 < s.dev.step) then
    let t := (s.advancePcycle.darkRecord trigger).holdupHeld
    (t.setMram { t.mram with ponS := t.dev.ponLive, coef := t.links.filterMap fun e => if e.2.coef.isEmpty then none else some (e.1, e.2.coef) }).deviceReset
  else s

/-- VIN_UNDERVOLTAGE: below 38 V for 100 us. -/
def execVinUndervoltage (v : Nat) (s : State) : Res := guard (decide (v < 3800)) s (s.powerDown 10)

/-- VIN_OVERVOLTAGE: above 64 V for 10 us. -/
def execVinOvervoltage (v : Nat) (s : State) : Res :=
  guard (decide (6400 < v) && (s.alive || decide (0 < s.dev.step))) s ((s.log 4 0x0802 2 0 0x42 0 (leBytes 2 v)).powerDown 13)

/-- SYS_RESET_N_ASSERT: a pulse of more than 10 us (R369). -/
def execSysResetNAssert (ns : Nat) (s : State) : Res :=
  let t := s.powerDown 11
  guard (decide (10000 < ns)) s (t.setDev { t.dev with sysResetN := false })

/-- AUX_RAIL_LOSS: the hold-up store completes the writes; what lives on the aux rail is lost. -/
def execAuxRailLoss (s : State) : Res :=
  let t := s.powerDown 10
  .next { t with dev := { t.dev with aux := false, ponNs := 0 }, mram := { t.mram with ponS := t.dev.ponLive },
                 ledger := { t.ledger with mism := 0, lockUntil := none }, pwr := Power.reset, watch := Watch.reset, jtag := Jtag.reset, smbSlot := 0 }

/-! ## Input power and capping (R368, R376, R377) -/

/-- VIN_OUT_OF_RANGE: outside 40 to 60 V for 1 ms, within 38 to 64 V. -/
def execVinOutOfRange (v : Nat) (s : State) : Res :=
  guard (s.alive && decide (3800 ≤ v ∧ v ≤ 6400 ∧ (v < 4000 ∨ 6000 < v))) s
    (((s.setPwr { s.pwr with vIn := v, vinLow := decide (v < 4000), vinHigh := decide (6000 < v) }).log 4 0x0801 1 0 0x42 0 (leBytes 2 v)).raise 254)

/-- The cap in force. -/
def State.capNow (s : State) : Nat :=
  let v := s.rg (pgPWR 0 + 0x140)
  max 1500 (min 3000 (if s.runningCtx = 1 then bits v 27 16 else bits v 11 0))

/-- A value stepped down by 100 MHz, to 0.8 GHz at least. -/
def stepDown (v : Nat) : Nat := max 8 (v - 1)
/-- A value stepped up by 100 MHz, to 1.6 GHz at most. -/
def stepUp (v : Nat) : Nat := min 16 (v + 1)

/-- CAP_STEP_DOWN: the 100 us average exceeds the cap; at 0.8 GHz CAP_UNMET is set with a Warning. -/
def execCapStepDown (w : Nat) (s : State) : Res :=
  let t := s.setPwr { s.pwr with pIn := w, capVal := stepDown s.pwr.capVal }
  guard (s.alive && decide (s.capNow < w)) s
    (if s.clk.cclk = 8 ∧ !s.pwr.capUnmet then
      ((t.setPwr { t.pwr with capUnmet := true }).log 4 0x0803 1 0 0x42 0 (leBytes 2 w ++ leBytes 2 s.capNow)).raise 254
    else t)

/-- CAP_STEP_UP: below the cap less 150 W for 1 ms. -/
def execCapStepUp (w : Nat) (s : State) : Res :=
  guard (s.alive && decide (w + 150 < s.capNow)) s (s.setPwr { s.pwr with pIn := w, capVal := stepUp s.pwr.capVal, capUnmet := false })

/-- RAIL_OVERCURRENT: a rail above its limit for 1 us. -/
def execRailOvercurrent (c k peak : Nat) (s : State) : Res :=
  let old := s.pwr.peaks.find? fun e => e.1 == c && e.2.1 == k
  let m := match old with
    | some e => max e.2.2 peak
    | none => peak
  guard s.alive s (s.setPwr { s.pwr with railVal := 8, overRails := if s.pwr.overRails.contains (c, k) then s.pwr.overRails else (c, k) :: s.pwr.overRails,
                                         peaks := (c, k, m) :: s.pwr.peaks.filter fun e => !(e.1 == c && e.2.1 == k) })

/-- RAIL_OVERCURRENT_END: 10 ms without over-current. -/
def execRailOvercurrentEnd (c k : Nat) (s : State) : Res :=
  let left := s.pwr.overRails.filter (· != (c, k))
  let peak := match s.pwr.peaks.find? fun e => e.1 == c && e.2.1 == k with
    | some e => e.2.2
    | none => 0
  guard (s.alive && s.pwr.overRails.contains (c, k)) s
    ((s.setPwr { s.pwr with overRails := left, railVal := if left.isEmpty then 16 else 8, peaks := s.pwr.peaks.filter fun e => !(e.1 == c && e.2.1 == k) }).log 4
      0x0804 1 0 0x42 c (leBytes 1 c ++ leBytes 1 k ++ leBytes 2 peak))

/-! ## CCLK (R376) -/

/-- The CLK page cap. -/
def State.clkCap (s : State) : Nat := max 8 (min 16 (s.rg (pgCLK + 0x100)))
/-- The lowest of the four values. -/
def State.cclkTarget (s : State) : Nat := min (min s.clkCap s.pwr.capVal) (min s.pwr.thermVal s.pwr.railVal)

/-- CCLK_CHANGE. -/
def execCclkChange (s : State) : Res :=
  let t := s.setClk { s.clk with cclk := s.cclkTarget }
  guard (s.alive && s.cclkTarget != s.clk.cclk) s ((t.setWatch { t.watch with throttled := true }).raise 250)

/-! ## Temperature (R303, R372, R379) -/

/-- The readings of a thermal event. -/
def State.setTemps (s : State) (t : Temps) : State :=
  s.setPwr { s.pwr with tDie := (List.range 4).foldl (fun m c => tset 0 m c (t.die.getD c 0)) s.pwr.tDie,
                        tStack := (List.range 4).foldl (fun m c => tset 0 m c (t.stack.getD c 0)) s.pwr.tStack }

/-- THERMAL_STEP_DOWN: any junction or stack at 90 C or more. -/
def execThermalStepDown (t : Temps) (s : State) : Res :=
  let u := s.setTemps t
  guard (s.alive && (t.die ++ t.stack).any (fun x => decide (360 ≤ x))) s (u.setPwr { u.pwr with thermVal := stepDown u.pwr.thermVal })

/-- THERMAL_STEP_UP: all below 87 C for 10 ms. -/
def execThermalStepUp (t : Temps) (s : State) : Res :=
  let u := s.setTemps t
  guard (s.alive && (t.die ++ t.stack).all (fun x => decide (x < 348))) s (u.setPwr { u.pwr with thermVal := stepUp u.pwr.thermVal })

/-- THERMAL_TRIP_WARNING: a junction at 100 C with CCLK at 0.8 GHz, or a stack at 95 C. -/
def execThermalTripWarning (t : Temps) (s : State) : Res :=
  let u := (s.setTemps t).alert 3
  guard (s.alive && ((s.clk.cclk == 8 && t.die.any fun x => decide (400 ≤ x)) || t.stack.any fun x => decide (380 ≤ x))) s
    ((u.setWatch { u.watch with tripWarn := true }).sideline 5 0xFF)

/-- THERMAL_TRIP: a die at 105 C; THERMTRIP_N is latched low, the device is Dark. -/
def execThermalTrip (t : Temps) (s : State) : Res :=
  let u := s.alert 3
  guard ((s.alive || decide (0 < s.dev.step)) && t.die.any fun x => decide (420 ≤ x)) s ((u.setPwr { u.pwr with thermTrip := true }).powerDown 12)

/-- THERMTRIP_RELEASE: VIN48 absent for 1 s. -/
def execThermtripRelease (s : State) : Res :=
  let t := s.powerDown 10
  .next (t.setPwr { t.pwr with thermTrip := false })

end Sys2Proof.Machine
end

