-- ==== Sys2Proof/Machine/Boot.lean ====
section
/-! DEFINITION. Start-up: STARTUP, BOOT_GO, the verdict on the image, and steps 3 to 6 (R17 to R21, R133, R159, R233, R299, R303, R311, R324,
R348, R350, R357, R360 to R363). -/

namespace Sys2Proof.Machine

/-- STARTUP: step 1, with an interrupted erase finished, and the rails; STRAP is sampled and gives DEV_ID; FILL18 as it stands is the one
that this start-up applies (R21, R233, R324, R334, R360, R369). -/
def execStartup (s : State) : Res :=
  let t := s.deviceReset
  let t := t.setDev { t.dev with aux := true, ponLive := if s.dev.aux then t.dev.ponLive else t.mram.ponS, step := 1, fill18Now := t.mram.fill18, railsUp := true, sysResetN := true }
  let t := t.setClk { t.clk with trefLock := true }
  let t := t.setRg (pgDEV + 0x110) (t.dev.strap % 4096)
  guard (!s.alive && s.dev.step == 0) s
    (match t.mram.erase with
     | some scope => (t.endErase scope).setDev t.dev
     | none => t)

/-- BOOT_GO: through the active port, while the image is awaited or has failed (R348, R361). -/
def execBootGo (port : Bool) (s : State) : Res :=
  if s.host.noneActive || port != s.host.active then .next (s.badCommand pgHOST)
  else if s.dev.step == 1 && (s.host.boot == 0 || s.host.boot == 3) then .next (s.setHost { s.host with boot := 1 })
  else .next (s.badCommand pgHOST)

/-- The stepping B1 in DEV_STEPPING's layout (R334). -/
def steppingB1 : Nat := 0x4201

/-- HOST_BOOT_RESULT of an image (R348, R361; DEDUCED, log 43). -/
def State.imageCode (s : State) (i : Image) : Nat :=
  if !i.fetched then 5 else if !i.headerOk then 4 else if i.stepping ≠ steppingB1 then 6
  else if !(Config.imageSigned i.bytes) then 2 else if i.security < s.dev.secMin then 3 else 1

/-- A failed boot (R311, R334, R361). -/
def State.bootFailed (s : State) (code : Nat) : State :=
  let t := (s.setHost { s.host with boot := 3, bootResult := code }).setDev { s.dev with fwVer := 0 }
  let t := t.advancePcycle
  let r := t.stamp { code := 0x4C01, sev := 2, fclass := 0, srcType := 0x52, srcInst := 0, payload := leBytes 1 code } false false
  ((t.setLedger { t.ledger with uid := t.ledger.uid + 1 }).writeRec r).flushWaiting

/-- Step 3: maps and the fence list, assignment, L (R17, R18, R21, R299). -/
def State.startArrays (s : State) : State :=
  let t := (List.range 64).foldl (fun (u : State) sq => u.loadSquad none sq) s
  t.setDev { t.dev with normL := t.latency, step := 3 }

/-- What bring-up finds nothing to report of. -/
def BringUp.none_ : BringUp := ⟨[], [], [], [], []⟩

/-- Step 4: the stacks of every channel, and the rebuild (R155, R159). -/
def State.startStacks (s : State) (found : List BringUp) : State :=
  let t := (List.range 4).foldl (fun (u : State) c => u.stackSteps c (found.getD c BringUp.none_)) s
  let t := t.rebuilt
  (t.log 4 0x2C03 0 0 0x56 0 (leBytes 4 t.dev.userCap)).setDev { t.dev with step := 4 }

/-- Step 5: seams and links begin training (R201, R209, R229, R360). -/
def State.startLinks (s : State) (found : List BringUp) : State :=
  let t := (List.range 4).foldl (fun (u : State) c => u.seamSteps c (found.getD c BringUp.none_)) s
  let t := (List.range 24).foldl (fun (u : State) n => u.trainLink n) t
  t.setDev { t.dev with step := 5 }

/-- Step 6: PCYCLE, records held since step 1, the mode, READY; a sideline request of start-up follows (R303, R311, R357). -/
def State.startReady (s : State) : State :=
  let t := s.advancePcycle.flushWaiting
  let t := t.setMode (if (List.range 64).any fun sq => (t.squad sq).fenced then .reduced else .full) 0 0xFF
  let t := t.setDev { t.dev with ready := true, step := if t.clk.known then 7 else 6, sidelinePending := none }
  match s.dev.sidelinePending with
  | some v => t.sideline (v % 256) (v / 256)
  | none => t

/-- BOOT_VERIFY. While JTAG selects a stack, bring-up waits (R157). -/
def execBootVerify (img : Image) (found : List BringUp) (s : State) : Res :=
  let code := s.imageCode img
  if s.host.boot != 1 || s.alive || s.jtag.stack.isSome then .next s
  else if code ≠ 1 then .next (s.bootFailed code)
  else
    let t := (s.setHost { s.host with boot := 2, bootResult := 1, image := img.bytes }).setDev { s.dev with fwVer := img.version, step := 2 }
    .next (((t.startArrays).startStacks found).startLinks found).startReady

end Sys2Proof.Machine
end

