-- ==== Sys2Proof/Machine/HostPort.lean ====
section
/-! DEFINITION. The host ports: the aperture, BAR2, failover, PERST, links (R53, R145, R305, R345 to R352). -/

namespace Sys2Proof.Machine

/-! ## The aperture and BAR2 (R345, R347) -/

/-- A write of HOST_APERTURE: SPACE above 4 is taken as 0. -/
def apertureOf (v : Word) : Word :=
  let n := v.toNat
  BitVec.ofNat 32 ((if 4 < n % 16 then 0 else n % 16) + bits n 15 8 * 256)

/-- HOST_APERTURE_WRITE: it reads back at once and takes effect after the earlier BAR2 requests. -/
def execHostApertureWrite (v : Word) (s : State) : Res := guard s.hostUp s (s.setHost { s.host with apPending := some (apertureOf v) })

/-- APERTURE_APPLY. -/
def execApertureApply (s : State) : Res :=
  match s.host.apPending with
  | some v => guard s.host.bar2Open.isEmpty s (s.setHost { s.host with aperture := v, apPending := none })
  | none => .next s

def State.apSpace (s : State) : Nat := s.host.aperture.toNat % 16
/-- The place of a byte of the window. -/
def State.apOff (s : State) (off : Nat) : Nat := bits s.host.aperture.toNat 15 8 * 2 ^ 36 + off

/-- A request on the active port: Unsupported Request beyond the space; else it is served, or waits for a held pseudo-channel. -/
def State.bar2Go (s : State) (r : Bar2Req) : State :=
  if s.spaceSize r.space < r.off + r.len then s.emit .unsupported
  else if s.bar2Waits r then s.setHost { s.host with bar2Open := s.host.bar2Open ++ [r] } else s.serveBar2 r

/-- BAR2_ACCESS. The logical records stand where the host writes them (DESIGN CHOICE, log 7). -/
def execBar2Access (port : Bool) (a : Bar2Op) (s : State) : Res :=
  if !s.alive then .next s
  else if s.host.noneActive || port != s.host.active then .next (s.emit .unsupported)
  else match a with
    | .read off len => .next (s.bar2Go { port := port, space := s.apSpace, off := s.apOff off, len := len, data := none })
    | .write off l => .next (s.bar2Go { port := port, space := s.apSpace, off := s.apOff off, len := l.length, data := some l })
    | .poisonedWrite _ _ => .next (s.setHost { s.host with poisonedWrites := capTo max32 (s.host.poisonedWrites + 1) })
    | .putTensor n h r => .next (s.modCtx n fun c => { c with tensors := tins h r c.tensors })
    | .putShard n r => .next (s.modCtx n fun c => { c with shard := some r })
    | .putSlice n r => .next (s.modCtx n fun c => { c with slicePlan := some r })
    | .putSpb n r => .next (s.modCtx n fun c => { c with spbHost := some r })

/-! ## Failover (R350 to R352) -/

/-- One DMA channel with a host-memory side stops: host-owned with ABORTED and a restartable residue, dispatcher-owned going on from
what is committed. -/
def State.stopHostSide (s : State) (c d : Nat) : State :=
  match (s.dma c d).state, (s.dma c d).xfer with
  | 1, some x =>
    if !x.srcHost && !x.dstHost then s
    else if x.seq.isSome then s.modDma c d fun k => { k with xfer := some x.committed }
    else (s.dmaStop c d x 1 8 0 0).dmaSignal c d 1
  | _, _ => s

/-- Steps 1 and 2: requests accepted on the old port complete, or end with Completer Abort when its link is down; DMA stops. -/
def State.leavePort (s : State) : State :=
  let up := if s.host.active then s.host.linkB else s.host.linkA
  let t := s.setHost { s.host with bar2Open := [] }
  let t := s.host.bar2Open.foldl (fun (u : State) r => if up then u.serveBar2 r else u.emit .completerAbort) t
  (List.range 4).foldl (fun (u : State) c => (List.range 32).foldl (fun (w : State) d => w.stopHostSide c d) u) t

/-- Step 3: pending vectors go to the new port. -/
def State.movePending (s : State) : State :=
  s.host.pendingVecs.foldl (fun (t : State) v => t.emit (.vector s.host.active v)) (s.setHost { s.host with pendingVecs := [] })

/-- The channel that a port sits on. -/
def portChan (port : Bool) : Nat := if port then 2 else 0

/-- ACTIVATE through the standby port, from step 1 of start-up (R361). In Sideline mode only a surviving channel's port can be active. -/
def execActivate (port : Bool) (s : State) : Res :=
  let off := (s.chan (portChan port)).down || !s.dev.aux || !s.dev.railsUp || (if port then s.host.perstB else s.host.perstA)
  if off || (!s.host.noneActive && port == s.host.active) then .next s
  else
    let t := if s.host.noneActive then s else (s.setHost { s.host with noneActive := true }).leavePort
    let t := (t.setHost { t.host with active := port, noneActive := false }).movePending
    .next ((t.setMram { t.mram with failover := capTo 65535 (t.mram.failover + 1) }).raise 253)

/-- PERST_ASSERT: that port's function is reset; the active port's loss leaves none active. -/
def execPerstAssert (port : Bool) (s : State) : Res :=
  let h := s.host
  let was := !h.noneActive && port == h.active
  let h := if port then { h with perstB := true, linkB := false } else { h with perstA := true, linkA := false }
  let t := s.setHost { h with noneActive := h.noneActive || was }
  .next (if was then t.leavePort else t)

/-- PERST_RELEASE: the port returns as standby. -/
def execPerstRelease (port : Bool) (s : State) : Res :=
  .next (s.setHost (if port then { s.host with perstB := false } else { s.host with perstA := false }))

/-- HOST_PORT_LINK_CHANGE: a link that goes down ends the requests pending on its port with Completer Abort. -/
def execHostPortLinkChange (port up : Bool) (s : State) : Res :=
  let h := if port then { s.host with linkB := up } else { s.host with linkA := up }
  let t := s.setHost { h with bar2Open := if up then h.bar2Open else h.bar2Open.filter fun r => r.port != port }
  .next (if up then t else (s.host.bar2Open.filter fun r => r.port == port).foldl (fun (u : State) _ => u.emit .completerAbort) t)

end Sys2Proof.Machine
end

