-- ==== Sys2Proof/Machine/Board.lean ====
section
/-! DEFINITION. What the aux rail serves: the Watch Port window and its writes, the TAP, SMBus (R157, R338, R353 to R359, R375). -/

namespace Sys2Proof.Machine

/-! ## The Watch Port (R338, R353 to R357) -/

/-- Bits of a list of positions. -/
def maskOf (l : List Nat) : Nat := l.foldl (fun m i => m + 2 ^ i) 0
/-- The ports that satisfy p, as a mask. -/
def State.portMask (s : State) (p : Link → Bool) : Nat := maskOf ((List.range 24).filter fun n => p (s.link n))
/-- Pseudo-channels of a channel lost or retire-pending. -/
def State.pcOut (s : State) (c : Nat) : Nat := ((s.mram.lost ++ s.mram.retire).dedup.filter fun k => k / 512 == c).length

/-- Word 0x00. -/
def State.health (s : State) : Nat :=
  b2n (s.dev.mode == .sideline) * 32768 + b2n s.watch.fatalSince * 16384 + b2n s.watch.throttled * 8192 + b2n s.watch.tripWarn * 4096 +
    maskOf ((List.range 4).filter fun c => (s.chan c).down) * 256 + b2n s.ctx1.lost * 128 + b2n s.ctx0.lost * 64 + b2n s.clk.known * 32 +
    b2n s.clk.holdover * 16 + b2n (s.portMask (fun l => l.failed || (l.inService && l.lanes == 4)) != 0) * 8 +
    b2n (!(s.mram.lost.isEmpty && s.mram.retire.isEmpty)) * 4 + b2n ((List.range 64).any fun q => (s.squad q).fenced) * 2 + b2n s.watch.heartbeat

/-- The words of the window that the device knows; the measured words 0x08 to 0x11 as last sampled. -/
def State.wpWord (s : State) (w : Nat) : Nat :=
  if !s.alive then 0
  else if w = 0 then s.health
  else if w = 1 then Mode.code s.dev.mode + 4 * s.countA
  else if w < 6 then maskOf ((List.range 16).filter fun i => (s.squad (16 * (w - 2) + i)).fenced)
  else if w = 6 then 0
  else if w = 7 then s.watch.alert.toNat
  else if w < 12 then tget 0 s.pwr.tDie (w - 8)
  else if w < 16 then tget 0 s.pwr.tStack (w - 12)
  else if w = 16 then s.pwr.pIn
  else if w = 17 then s.pwr.vIn
  else if w = 18 then s.clk.cclk
  else if w < 23 then s.pcOut (w - 19)
  else if w < 25 then s.portMask (·.inService) / 2 ^ (16 * (w - 23)) % 65536
  else if w < 27 then s.portMask (fun l => l.inService && l.lanes == 4) / 2 ^ (16 * (w - 25)) % 65536
  else if w < 29 then s.ledger.head.toNat / 2 ^ (16 * (w - 27)) % 65536
  else if w < 33 then (if s.clk.known then s.clk.st.toNat / 2 ^ (16 * (w - 29)) % 65536 else 0)
  else 0

/-- A measured word is sampled: its value is free (DESIGN CHOICE, log 14). -/
def State.sample (s : State) (w : Nat) : State :=
  if s.alive && decide (8 ≤ w ∧ w < 18) then
    let v := s.draw.1.toNat % 65536
    let t := s.draw.2
    if w < 12 then t.setPwr { t.pwr with tDie := tset 0 t.pwr.tDie (w - 8) v }
    else if w < 16 then t.setPwr { t.pwr with tStack := tset 0 t.pwr.tStack (w - 12) v }
    else if w = 16 then t.setPwr { t.pwr with pIn := v } else t.setPwr { t.pwr with vIn := v }
  else s

/-- WP_READ: zero while Dark (R357). -/
def execWpRead (w : Nat) (s : State) : Res :=
  let t := s.sample w
  guard s.dev.aux s (t.emit (.wpData (BitVec.ofNat 16 (t.wpWord w))))

/-- WP_FENCE_WRITE: words 0x02 to 0x05, cause 6. -/
def execWpFenceWrite (w : Nat) (v : Half) (s : State) : Res :=
  guard (s.alive && decide (2 ≤ w ∧ w < 6)) s
    (((List.range 16).filter fun i => v.toNat / 2 ^ i % 2 == 1).foldl (fun (t : State) i => t.fence (16 * (w - 2) + i) 6) s)

/-- WP_SIDELINE_CMD: 0x51DE. -/
def execWpSidelineCmd (v : Half) (s : State) : Res := guard (s.alive && v == 0x51DE#16) s (s.sideline 8 0xFF)

/-- WP_ALERT_CLEAR: W1C; bit 2 is the ALERT_ACK (R355). -/
def execWpAlertClear (v : Half) (s : State) : Res :=
  guard s.alive s (s.setWatch { s.watch with alert := s.watch.alert &&& ~~~(v.setWidth 5), fatalSince := s.watch.fatalSince && !v.getLsbD 2 })

/-- WP_HEARTBEAT. -/
def execWpHeartbeat (s : State) : Res := guard s.alive s (s.setWatch { s.watch with heartbeat := !s.watch.heartbeat })

/-! ## JTAG (R157, R358) -/

/-- Load an instruction; one that drives the lands acts as BYPASS, with its own capture, unless SYS_RESET_N is low. -/
def State.loadIr (s : State) (ir : Nat) (drives : Bool) : State :=
  if drives && s.dev.sysResetN then s.setJtag { ir := ir, effective := false, capture := 0x05, stack := none }
  else s.setJtag { ir := ir, effective := true, capture := 0x01, stack := none }

/-- The least significant bits of a number, first out. -/
def bitsOut (n v : Nat) : List Bool := (List.range n).map fun i => v / 2 ^ i % 2 == 1

/-- A capture of the boundary register from the lands. -/
def State.scanOut (s : State) : State :=
  (s.setFree (s.free + 1)).emit (.tdo ((List.range Config.boundaryLen).map (Config.boundaryBit s.free)))

/-- The data register of an instruction of the boundary register, or the bypass bit. -/
def State.scanIf (s : State) : State := if s.jtag.effective then s.scanOut else s.emit (.tdo [false])

/-- BYPASS. -/
def execBypass (s : State) : Res := guard s.dev.aux s ((s.loadIr 0xFF false).emit (.tdo [false]))

/-- IDCODE. -/
def execIdcode (s : State) : Res := guard s.dev.aux s ((s.loadIr 0x01 false).emit (.tdo (bitsOut 32 0x143204E5)))

/-- SAMPLE/PRELOAD. -/
def execSamplePreload (s : State) : Res := guard s.dev.aux s (s.loadIr 0x02 false).scanOut

/-- EXTEST. -/
def execExtest (s : State) : Res := guard s.dev.aux s (s.loadIr 0x03 true).scanIf

/-- EXTEST_PULSE. -/
def execExtestPulse (s : State) : Res := guard s.dev.aux s (s.loadIr 0x04 true).scanIf

/-- EXTEST_TRAIN. -/
def execExtestTrain (s : State) : Res := guard s.dev.aux s (s.loadIr 0x05 true).scanIf

/-- CLAMP: the bypass register lies between TDI and TDO. -/
def execClampIr (s : State) : Res := guard s.dev.aux s ((s.loadIr 0x06 true).emit (.tdo [false]))

/-- HIGHZ. -/
def execHighz (s : State) : Res := guard s.dev.aux s ((s.loadIr 0x07 true).emit (.tdo [false]))

/-- STACK_1500: accepted while the stack's channel is held in reset, Dark included (R157). -/
def execStack1500 (k : Nat) (s : State) : Res :=
  let t := s.loadIr 0x10 false
  guard s.dev.aux s (if k < 32 ∧ (!s.alive || (s.chan (k / 8)).inReset) then t.setJtag { t.jtag with stack := some k } else t)

/-- TRST_N_RESET: IDCODE is selected. -/
def execTrstNReset (s : State) : Res := guard s.dev.aux s (s.setJtag Jtag.reset)

/-! ## SMBus (R359, R375) -/

/-- The target's answer. -/
def State.smb (s : State) (l : List Byte) : State := s.emit (.smb l)

/-- "TGR-432-M" and a space. -/
def partNumber : List Byte := [0x54#8, 0x47#8, 0x52#8, 0x2D#8, 0x34#8, 0x33#8, 0x32#8, 0x2D#8, 0x4D#8, 0x20#8]

/-- SMB_IDENT. -/
def execSmbIdent (s : State) : Res :=
  guard s.dev.aux s (s.smb (leBytes 8 s.dev.serial.toNat ++ partNumber ++ leBytes 2 steppingB1 ++ leBytes 4 s.dev.fwVer.toNat))

/-- SMB_HEALTH. -/
def execSmbHealth (s : State) : Res := guard s.dev.aux s (s.smb ([0, 1, 7, 0x12].flatMap fun w => leBytes 2 (s.wpWord w)))

/-- n free readings of 2 bytes, zeros where they need dies that are off. -/
def State.readings (s : State) (on : Bool) : Nat → List Byte × State
  | 0 => ([], s)
  | n + 1 =>
    let r := s.draw.2.readings on n
    (leBytes 2 (if on then s.draw.1.toNat % 65536 else 0) ++ r.1, r.2)

/-- SMB_THERMAL: eight measured words. -/
def execSmbThermal (s : State) : Res :=
  let r := s.readings s.alive 8
  guard s.dev.aux s (r.2.smb r.1)

/-- SMB_POWER: input power and voltage, aux power, then die, stack and link power of each channel. -/
def execSmbPower (s : State) : Res :=
  let a := s.readings true 3
  let b := a.2.readings s.alive 12
  guard s.dev.aux s (b.2.smb (a.1 ++ [0#8, 0#8] ++ b.1))

/-- SMB_LEDG_SEL. -/
def execSmbLedgSel (slot : Nat) (s : State) : Res := guard (s.dev.aux && decide (slot < allSlots)) s { s with smbSlot := slot }

/-- SMB_LEDG_LO. -/
def execSmbLedgLo (s : State) : Res := guard s.dev.aux s (s.smb ((s.ledger.slotBytes s.smbSlot).take 32))

/-- SMB_LEDG_HI. -/
def execSmbLedgHi (s : State) : Res := guard s.dev.aux s (s.smb ((s.ledger.slotBytes s.smbSlot).drop 32))

/-- SMB_COUNTS. -/
def execSmbCounts (s : State) : Res :=
  guard s.dev.aux s (s.smb (leBytes 4 s.mram.pcycle ++ leBytes 4 s.dev.ponLive ++ leBytes 4 s.ledger.head.toNat ++ leBytes 4 s.ledger.fatalFree))

end Sys2Proof.Machine
end

