-- ==== Sys2Proof/Machine/RegRead.lean ====
section
/-! DEFINITION. What a register of BAR0 reads as: identities, capabilities, statuses, fields that live elsewhere in the state
(R325 to R343, R375, R390 to R392). Offsets the manual does not give are the model's own (DESIGN CHOICE, log 20). -/

namespace Sys2Proof.Machine

/-! ## Identity (R329) -/

/-- Block type code of a page; the five pages beside SQ by their place. -/
def blockType (a : Nat) : Nat :=
  match pageKind a with
  | .sq => 0x01
  | .squadOther => 1 + a % 0x8000 / 0x1000
  | .dma => 0x10 | .dmach => 0x11 | .mmu => 0x12 | .disp _ => 0x13 | .jrn => 0x14 | .mem => 0x20 | .mphy => 0x21 | .regu => 0x22
  | .lnk _ => 0x30 | .seam => 0x31 | .rte => 0x32 | .cmgr => 0x40 | .clk => 0x41 | .pwr => 0x42 | .time => 0x50 | .ledg => 0x51
  | .host => 0x52 | .watch => 0x53 | .upd => 0x54 | .tele => 0x55 | .dev => 0x56 | .none => 0

/-- The channel of a channel page's address. -/
def chanOf (a : Nat) : Nat := a / 0x400000
/-- The squad of a squad page's address. -/
def squadOf (a : Nat) : Nat := 16 * chanOf a + a % 0x400000 / 0x8000
/-- The DMA channel of a DMACH page's address. -/
def dmachOf (a : Nat) : Nat := (a % 0x400000 - 0x101000) / 0x1000
/-- The stack of a MEM or MPHY page's address. -/
def stackOf (a : Nat) : Nat := a % 0x8000 / 0x1000

/-- INST. -/
def instOf (a : Nat) : Nat :=
  match pageKind a with
  | .sq | .squadOther => squadOf a
  | .dmach => 32 * chanOf a + dmachOf a
  | .mem | .mphy => 8 * chanOf a + stackOf a
  | .lnk n => n
  | .seam => 2 * chanOf a + (a % 0x400000 - 0x206000) / 0x1000
  | .disp n => 2 * chanOf a + n
  | .dma | .mmu | .jrn | .regu | .rte | .cmgr | .clk | .pwr => chanOf a
  | _ => 0

/-- X_CAPS (R334 to R341, R390, R392). -/
def capsOf (a : Nat) : Nat :=
  match pageKind a with
  | .squadOther => (match a % 0x8000 / 0x1000 with
    | 1 => 8 + 8 * 2 ^ 8 + 12 * 2 ^ 12 + 131 * 2 ^ 16 + 130 * 2 ^ 24
    | 2 => 16
    | 3 => 6 + 32 * 2 ^ 4 + 8 * 2 ^ 12 + 16 * 2 ^ 16 + 8 * 2 ^ 24 + 6 * 2 ^ 28
    | 4 => 262144
    | _ => 256)
  | .disp _ => 16 + 20 * 2 ^ 8 + 256 * 2 ^ 16
  | .jrn => 1024
  | .lnk _ => 512 + 8 * 2 ^ 10
  | .rte => 1024 + 4096 * 2 ^ 16
  | .time => 64
  | .upd => 4096 + 32 * 2 ^ 16 + 16 * 2 ^ 24
  | .dev => 64
  | _ => 0

/-! ## Parts of values -/

/-- 32-bit word i of bytes. -/
def wordAt (l : List Byte) (i : Nat) : Nat := leNat ((l.drop (4 * i)).take 4)
/-- Low or high half of a 64-bit quantity by the address's bit 2 against its LO register. -/
def half (v : Nat) (hi : Bool) : Nat := if hi then v / 2 ^ 32 % 2 ^ 32 else v % 2 ^ 32
/-- Bit positions of a list of flags. -/
def flagBits (l : List Bool) : Nat := maskOf ((List.range l.length).filter fun i => l.getD i false)

/-- ARR_REPAIR's layout of a map. -/
def repairWord (rows cols : List Nat) : Nat :=
  let f (l : List Nat) (i : Nat) : Nat := match l[i]? with
    | some v => 256 + v
    | none => 0
  f rows 0 * 2 ^ 23 + f rows 1 * 2 ^ 14 + f cols 0 * 2 ^ 5 + min 3 (rows.length - 2) * 8 + min 3 (cols.length - 1) * 2

/-- The combined map that the next reset will apply. -/
def State.nextMap (s : State) (sq : Nat) : List Nat × List Nat :=
  if s.mram.fieldDrop.contains sq then tget ([], []) s.dev.fuseMap sq else s.repairMap sq

/-- X_FENCE of a squad. -/
def State.sqFence (s : State) (sq : Nat) : Nat := b2n (s.squad sq).fenced + (s.squad sq).cause * 16

/-- MEM_LOST_POS: position of a stack's first lost pseudo-channel in L_c and L_w, then n and N. -/
def State.lostPos (s : State) (c k : Nat) (hi : Bool) : Nat :=
  if hi then (s.listC c).length + s.listW.length * 2 ^ 16
  else match (s.mram.lost.filter fun x => x / 512 == c && x % 512 / 64 == k && !((s.chan c).removed.contains (x % 512))).head? with
    | some x => posIn (s.listC c) (x % 512) + posIn s.listW x * 2 ^ 16
    | none => 0

/-- Uncorrectable user-memory bursts of a channel in the last hour, at most 64. -/
def State.ucCount (s : State) (c : Nat) : Nat := min 64 (s.dev.ucTimes.filter fun e => e.1 == c && decide (s.clk.ltb < e.2 + 3600000000000)).length

/-! ## Pages -/

/-- ARR to RTR (R339, R392). -/
def State.peekSquad (s : State) (a : Nat) : Option Nat :=
  let sq := squadOf a
  let r := (s.squad sq).arr
  match a % 0x8000 / 0x1000, a % 0x1000 with
  | 1, 0x0C => some (r.fillLat + s.dev.normL * 2 ^ 8 + r.bench * 2 ^ 16 + b2n r.unrepairable * 2 ^ 20 + b2n r.latHold * 2 ^ 21 + b2n r.repairPend * 2 ^ 22 +
      b2n (!r.items.isEmpty || r.drain.isSome) * 2 ^ 24)
  | 1, 0x100 => some (repairWord r.badRows r.badCols)
  | 1, 0x104 => let m := tget ([], []) s.dev.fuseMap sq; some (repairWord m.1 m.2)
  | 1, 0x108 => let m := s.nextMap sq; some (repairWord m.1 m.2)
  | 1, 0x110 => some r.checkFail
  | 1, 0x114 => some r.tiles
  | 3, 0x100 => some 65536
  | 4, 0x100 => some 65536
  | _, _ => none

/-- DMACH (R340). -/
def State.peekDma (s : State) (a : Nat) : Option Nat :=
  let d := s.dma (chanOf a) (dmachOf a)
  let o := a % 0x1000
  if o = 0x0C then some (d.state + b2n d.disabled * 2 ^ 8)
  else if 0x180 ≤ o ∧ o < 0x1A0 then some (wordAt d.sw ((o - 0x180) / 4))
  else if o = 0x1A0 ∨ o = 0x1A4 then some (half d.bytes.toNat (o == 0x1A4)) else none

/-- MMU (R391). -/
def State.peekMmu (s : State) (o : Nat) : Option Nat :=
  let r := s.rg (pgMMU + o)
  if o = 0x11C then some (r / 2 % 4 * 2 + (1 - bits r 8 8) * 2 ^ 8)
  else if o = 0x124 then some (s.ctx0.flog.length + s.ctx1.flog.length * 2 ^ 8)
  else if o = 0x128 then some (min 65535 s.ctx0.flogLost + min 65535 s.ctx1.flogLost * 2 ^ 16)
  else if 0x130 ≤ o ∧ o < 0x140 then
    let sel := s.rg (pgMMU + 0x12C)
    some (match (s.ctx (bits sel 8 8)).flog[sel % 16]? with
      | some e => wordAt (FlogRec.bytes e) ((o - 0x130) / 4)
      | none => 0)
  else none

/-- DISPn (R390). -/
def State.peekDisp (s : State) (n o : Nat) : Option Nat :=
  let c := s.ctx n
  if o = 0x0C then some (flagBits [c.started, s.issuing n, c.suspended, c.halted, c.lost, if n = 0 then c.preempted else c.yielded] +
      (if n = 1 then c.pendingQ.toNat else 0) * 2 ^ 16)
  else if o = 0x100 then some (512 + 1024 * 2 ^ 16 + 8 * 2 ^ 28)
  else if o = 0x120 then
    some (maskOf ((List.range 16).filter fun q => (c.queue q).halt != .none) + maskOf ((List.range 16).filter fun q => (c.queue q).overrun) * 2 ^ 16)
  else if 0x140 ≤ o ∧ o < 0x160 then some (c.flags.toNat / 2 ^ (8 * (o - 0x140)) % 2 ^ 32)
  else if 0x180 ≤ o ∧ o < 0x1A0 then some (wordAt c.waitGraph ((o - 0x180) / 4))
  else if 0x200 ≤ o ∧ o < 0x400 then
    let x := c.queue ((o - 0x200) / 0x20)
    match o % 0x20 with
    | 0x00 => some (half x.base false)
    | 0x04 => some (half x.base true)
    | 0x08 => some x.log2
    | 0x0C => some (x.head + b2n x.headWrap * 2 ^ 20)
    | 0x10 => some (x.tail + b2n x.tailWrap * 2 ^ 20)
    | _ => none
  else none

/-- LNK (R341). -/
def State.peekLnk (s : State) (n o : Nat) : Option Nat :=
  let l := s.link n
  match o with
  | 0x0C => some (l.lanes + b2n l.up * 16 + b2n l.training * 32 + b2n l.half * 64 + l.cls * 256 + b2n l.revMismatch * 2 ^ 11 + b2n l.strap * 2 ^ 12 + b2n l.precode * 2 ^ 13)
  | 0x100 => some (half l.peerSerial.toNat false)
  | 0x104 => some (half l.peerSerial.toNat true)
  | 0x108 => some l.peerId
  | 0x10C => some (l.peerPort + l.peerRole * 2 ^ 8 + l.peerLanes * 2 ^ 16)
  | 0x110 => some l.peerRev.toNat
  | 0x114 => some l.delay
  | 0x118 => some l.retryCnt
  | 0x11C => some l.retrainCnt
  | 0x128 => some l.fecCorr
  | 0x12C => some l.fecUncorr
  | 0x130 => some (maskOf (l.laneFail.dedup))
  | _ => none

/-- TIME (R335). -/
def State.peekTime (s : State) (o : Nat) : Option Nat :=
  let k := s.clk
  match o with
  | 0x0C => some (b2n k.known + b2n k.holdover * 2 + b2n k.deep * 4 + b2n k.trefLock * 8 + k.hops * 256)
  | 0x108 => some (if k.known then half k.st.toNat false else 0)
  | 0x10C => some (if k.known then half k.st.toNat true else 0)
  | 0x120 => some (k.lastE % (2 : Int) ^ 32).toNat
  | _ => none

/-- UPD (R336). The digest is undefined while it is formed. -/
def State.peekUpd (s : State) (o : Nat) : Option Nat :=
  if o = 0x0C then some (b2n (s.ctx0.upd.redigest || s.ctx1.upd.redigest))
  else if 0x100 ≤ o ∧ o < 0x200 then
    let u := (s.ctx ((o - 0x100) / 0x80)).upd
    match o % 0x80 with
    | 0x00 => some u.step.toNat
    | 0x04 => some (u.step.toNat % 2)
    | 0x10 => some (u.exp + u.growth * 2 ^ 16)
    | 0x18 => some (half u.frozenCnt.toNat false)
    | 0x1C => some (half u.frozenCnt.toNat true)
    | 0x20 => some (half (if u.redigest then (Config.freeValue (s.free - 1)).toNat else u.digest.toNat) false)
    | 0x24 => some (half (if u.redigest then (Config.freeValue (s.free - 1)).toNat else u.digest.toNat) true)
    | 0x28 => some u.digestStep.toNat
    | 0x30 => some (half u.stepDigest.toNat false)
    | 0x34 => some (half u.stepDigest.toNat true)
    | 0x38 => some u.decision.toNat
    | 0x3C => some (u.verdict + b2n u.undecided * 16)
    | _ => none
  else none

/-- LEDG (R321, R337). Words that are written only read zero. -/
def State.peekLedg (s : State) (o : Nat) : Option Nat :=
  let l := s.ledger
  if o = 0x100 then some l.head.toNat
  else if o = 0x104 then some l.wraps.toNat
  else if o = 0x108 then some l.fatalFree
  else if o = 0x10C then some l.fatalLost.toNat
  else if o = 0x110 then some l.droppedInfo.toNat
  else if o = 0x114 then some l.droppedWarn.toNat
  else if o = 0x118 then some l.hostReject.toNat
  else if o = 0x11C then some l.rdIndex
  else if 0x120 ≤ o ∧ o < 0x160 then some (wordAt l.rdData ((o - 0x120) / 4))
  else if o = 0x18C then some (b2n l.busy * 2)
  else if o = 0x190 then some (l.scope * 2 ^ 16 + l.status * 2 ^ 24)
  else if 0x1A0 ≤ o ∧ o < 0x1B0 then some (wordAt l.chalBytes ((o - 0x1A0) / 4))
  else if 0x1B0 ≤ o ∧ o < 0x1F0 then some 0
  else if 0x400 ≤ o ∧ o < 0x500 then some (tget 0 l.suppr ((o - 0x400) / 4))
  else none

/-- HOST (R348), as read through a port. -/
def State.peekHost (s : State) (port : Bool) (o : Nat) : Option Nat :=
  let h := s.host
  match o with
  | 0x0C => some (flagBits [port, h.active, h.noneActive, h.linkA, h.linkB] + h.boot * 32 + s.dev.step * 256 + b2n s.dev.ready * 2 ^ 11)
  | 0x38 => some h.poisonedWrites
  | 0x100 => some (h.apPending.getD h.aperture).toNat
  | 0x104 => some (b2n h.apPending.isSome)
  | 0x11C => some h.bootResult
  | 0x120 => some s.mram.failover
  | _ => none

/-- TELE (R244, R251, R256, R258). -/
def State.peekTele (s : State) (o : Nat) : Option Nat :=
  let e := if s.clk.known then s.ctx1.eta.toNat else 2 ^ 64 - 1
  match o with
  | 0x100 => some s.tele.wp
  | 0x104 => some s.tele.rp
  | 0x108 => some s.tele.lost
  | 0x110 => some (half s.ctx0.stallNs false)
  | 0x114 => some (half s.ctx0.stallNs true)
  | 0x118 => some (half s.ctx1.stallNs false)
  | 0x11C => some (half s.ctx1.stallNs true)
  | 0x120 => some (half s.ctx0.exposed false)
  | 0x124 => some (half s.ctx0.exposed true)
  | 0x128 => some (half s.ctx1.exposed false)
  | 0x12C => some (half s.ctx1.exposed true)
  | 0x130 => some (half e false)
  | 0x134 => some (half e true)
  | _ => if 0x200 ≤ o ∧ o < 0x400 then some (tget 0 s.tele.overrun ((o - 0x200) / 4)) else none

/-- DEV (R334). -/
def State.peekDev (s : State) (o : Nat) : Option Nat :=
  match o with
  | 0x100 => some (half s.dev.serial.toNat false)
  | 0x104 => some (half s.dev.serial.toNat true)
  | 0x108 => some steppingB1
  | 0x10C => some s.dev.fwVer.toNat
  | 0x118 => some (if s.alive then Mode.code s.dev.mode else 0)
  | 0x11C => some (b2n s.mram.fill18 + b2n s.dev.fill18Now * 2 ^ 16)
  | 0x120 => some s.dev.userCap
  | 0x128 => some (b2n s.dev.rebuildDone * 2 + b2n s.dev.rebuildBusy * 4)
  | 0x130 => some (s.ucCount 0 + s.ucCount 1 * 2 ^ 7 + s.ucCount 2 * 2 ^ 14 + s.ucCount 3 * 2 ^ 21 + min 3 (recent s.clk.ltb s.dev.lostTimes).length * 2 ^ 30)
  | 0x134 => some s.mram.pcycle
  | 0x138 => some s.dev.ponLive
  | 0x13C => some s.dev.strap
  | _ => none

/-- PWR (R375), rails and aux as last sampled. -/
def State.peekPwr (s : State) (c o : Nat) : Option Nat :=
  let p := s.pwr
  if o = 0x0C then some (flagBits [p.capUnmet, decide (p.capVal < 16), decide (p.thermVal < 16), decide (p.railVal < 16), p.vinLow, p.vinHigh])
  else if 0x100 ≤ o ∧ o < 0x130 then
    let r := tget Rail.reset p.rails (6 * c + (o - 0x100) / 8)
    some (if o % 8 = 0 then r.mv + r.cur * 2 ^ 16 else r.pow + r.peak * 2 ^ 16)
  else if o = 0x144 then some p.aux
  else none

/-- A register that does not read as it was written. -/
def State.peekOwn (s : State) (port : Bool) (a : Nat) : Option Nat :=
  let o := a % 0x1000
  let c := chanOf a
  match pageKind a with
  | .squadOther => s.peekSquad a
  | .sq => if o = 0x104 then some (min 65535 (tget 0 s.mram.suspect (squadOf a))) else none
  | .dmach => s.peekDma a
  | .mmu => s.peekMmu o
  | .disp n => s.peekDisp n o
  | .jrn => if o = 0x104 then some (s.ctx0.journal + s.ctx1.journal * 2 ^ 16) else none
  | .mem =>
    if o = 0x100 ∨ o = 0x104 then some (s.lostPos c (stackOf a) (o == 0x104))
    else if o = 0x108 then some (tget 0 (s.chan c).pprLeft (stackOf a)) else none
  | .regu => if 0x160 ≤ o ∧ o < 0x178 then some ((s.tokens c ((o - 0x160) / 4) / 10) % (2 : Int) ^ 32).toNat else none
  | .lnk n => s.peekLnk n o
  | .rte =>
    if o = 0x104 then some s.net.dropCnt
    else if 0x140 ≤ o ∧ o < 0x180 then some (tget 0 s.net.stall (c * 16 + (o - 0x140) / 4) / 10 % 2 ^ 32)
    else if o = 0x118 ∨ o = 0x11C then some (half (s.net.tableRead (s.rg (pgRTE + 0x110))).toNat (o == 0x11C))
    else if o = 0x108 ∨ o = 0x10C then some (half (maskOf s.net.holes) (o == 0x10C)) else none
  | .pwr => s.peekPwr c o
  | .time => s.peekTime o
  | .ledg => s.peekLedg o
  | .host => s.peekHost port o
  | .watch => if 0x400 ≤ o ∧ o < 0x800 then some (s.wpWord ((o - 0x400) / 4)) else none
  | .upd => s.peekUpd o
  | .tele => s.peekTele o
  | .dev => s.peekDev o
  | _ => none

/-- A register of which only the cycle or event count that the manual leaves to the hardware is known: its value is free (DESIGN CHOICE, log 11). -/
def freeCount (a : Nat) : Bool :=
  let o := a % 0x1000
  decide (0x30 ≤ o ∧ o < 0x40) && !(pageKind a == .host && o == 0x38)

/-- X_FENCE (R332). -/
def State.peekFence (s : State) (a : Nat) : Nat :=
  match pageKind a with
  | .sq | .squadOther => s.sqFence (squadOf a)
  | .dmach => b2n (s.dma (chanOf a) (dmachOf a)).disabled
  | .lnk n => b2n (s.link n).fenced
  | _ => 0

/-- The value of the register at an aligned address of an accessible page. -/
def State.peek (s : State) (port : Bool) (a : Nat) : Nat :=
  let o := a % 0x1000
  if pageKind a == .none then 0
  else if o = 0x00 then blockType a * 2 ^ 24 + instOf a * 2 ^ 16 + 1
  else if o = 0x04 then capsOf a
  else if o = 0x24 then s.peekFence a
  else if o = 0x20 then 0
  else if freeCount a then (Config.freeValue (s.free - 1)).toNat % 2 ^ 32
  else match s.peekOwn port a with
    | some v => v
    | none => s.rg a

end Sys2Proof.Machine
end

