-- ==== Sys2Proof/Machine/Registers.lean ====
section
/-! DEFINITION. REGISTER_WRITE, REGISTER_READ, X_IRQ_FORCE and X_LOCK: access, reserved fields, W1C, RWL and restricted fields, the
X_HI latch (R5, R6, R325 to R328, R330 to R344, R348, R375, R390 to R392). A register or field whose write is a command of its own
keeps its value here. -/

namespace Sys2Proof.Machine

/-! ## Access (R325, R326, R346) -/

/-- A page that answers: the aux rail and the rails are up; a channel's pages while it is neither in reset nor down, CMGR, CLK and PWR
always. -/
def State.pageOn (s : State) (a : Nat) : Bool :=
  s.dev.aux && s.dev.railsUp && (match pageChan a, pageKind a with
    | none, _ => true
    | some _, .cmgr | some _, .clk | some _, .pwr => true
    | some c, _ => s.alive && s.chanUp c)

/-- A port reaches a page: the active port all of them, the standby port the HOST page. -/
def State.portReaches (s : State) (port : Bool) (a : Nat) : Bool :=
  s.pageOn a && (pageKind a == .host || (!s.host.noneActive && port == s.host.active))

/-- An access of a size and alignment that BAR0 accepts. -/
def aligned (a : Nat) (wide : Bool) : Bool := if wide then a % 8 == 0 else a % 4 == 0

/-! ## The fields of a register -/

/-- How a field takes a write: kept, cleared by ones, or not written by this command (read only, or a command of its own). -/
inductive Acc where
  | rw | w1c | other
deriving DecidableEq, Repr

/-- A placed field: its place, its access, whether its condition holds, and the value taken for a value written. -/
structure Fld where
  lo : Nat
  width : Nat
  acc : Acc
  ok : Bool
  take : Nat → Nat

def rwF (lo width : Nat) : Fld := ⟨lo, width, .rw, true, id⟩
def rwIf (lo width : Nat) (ok : Bool) : Fld := ⟨lo, width, .rw, ok, id⟩
def rwAs (lo width : Nat) (ok : Bool) (f : Nat → Nat) : Fld := ⟨lo, width, .rw, ok, f⟩
def w1cF (lo width : Nat) : Fld := ⟨lo, width, .w1c, true, id⟩
def otherF (lo width : Nat) : Fld := ⟨lo, width, .other, true, id⟩

/-- LOCK of a page. -/
def State.locked (s : State) (a : Nat) : Bool := s.bit (a / 0x1000 * 0x1000 + 0x2C) 0

/-- The common header but for CTRL (R328). -/
def headerFields (kind : PageKind) (o : Nat) : List Fld :=
  match o with
  | 0x10 => [w1cF 0 16, w1cF 30 1, w1cF 31 1]
  | 0x14 | 0x1C | 0x28 => [rwF 0 32]
  | 0x18 => [w1cF 0 32]
  | 0x24 => (match kind with
    | .sq | .dmach | .lnk _ => [otherF 0 1, otherF 4 4, otherF 8 1]
    | _ => [otherF 0 32])
  | 0x2C => [otherF 0 1]
  | _ => [otherF 0 32]

/-- The shapes of DMACH (R340): offset within one side. -/
def shapeFields (o : Nat) : List Fld :=
  match o with
  | 0x04 | 0x08 => [rwF 0 25]
  | 0x0C => [rwF 0 9]
  | _ => [rwF 0 32]

/-- DMACH. -/
def State.dmaFields (s : State) (a : Nat) : List Fld :=
  let o := a % 0x1000
  let idle := (s.dma (chanOf a) (dmachOf a)).state == 0
  if o = 0x08 then [otherF 0 3, rwIf 3 1 idle, rwF 4 1, rwF 8 3, rwF 12 2, rwF 14 1, rwF 15 1, rwF 16 1]
  else if 0x100 ≤ o ∧ o < 0x110 then [rwF 0 32]
  else if 0x120 ≤ o ∧ o < 0x160 then shapeFields (o % 0x20)
  else if o = 0x16C then [rwF 0 13]
  else if 0x160 ≤ o ∧ o < 0x180 then (if o = 0x174 then [] else [rwF 0 32])
  else [otherF 0 32]

/-- MMU (R391). Bits that a field's row says are ignored are placed and not kept. -/
def mmuFields (o : Nat) : List Fld :=
  match o with
  | 0x110 => [otherF 0 16, rwF 16 16]
  | 0x114 => [rwF 0 16, otherF 16 16]
  | 0x118 => [rwF 0 32]
  | 0x11C => [otherF 0 1, rwF 1 1, rwF 2 1, otherF 8 1]
  | 0x120 => [otherF 0 1, otherF 8 1]
  | 0x12C => [rwF 0 4, rwF 8 1]
  | _ => [otherF 0 32]

/-- DISPn (R390). -/
def State.dispFields (s : State) (n o : Nat) : List Fld :=
  match o with
  | 0x08 => [otherF 0 7, rwF 8 4]
  | 0x110 => if n = 0 then [rwIf 30 2 (!s.ctx0.started)] else [otherF 0 32]
  | 0x114 => if n = 0 then [rwIf 0 16 (!s.ctx0.started)] else [otherF 0 32]
  | 0x120 => [otherF 0 16, w1cF 16 16]
  | 0x124 => [otherF 0 9]
  | _ => [otherF 0 32]

/-- LEDG (R321, R337). -/
def ledgFields (o : Nat) : List Fld :=
  if o = 0x160 then [rwF 0 24]
  else if o = 0x164 then [rwF 0 16]
  else if 0x168 ≤ o ∧ o < 0x18C then [rwF 0 32]
  else if o = 0x11C then [otherF 0 17]
  else if o = 0x18C then [otherF 0 2]
  else if o = 0x190 then [otherF 0 2, rwF 16 2, otherF 24 4]
  else if 0x200 ≤ o ∧ o < 0x300 then [rwAs 0 2 true fun v => if v = 3 then 0 else v]
  else if 0x300 ≤ o ∧ o < 0x400 then [rwAs 0 8 true fun v => max 1 v]
  else [otherF 0 32]

/-- UPD (R336). A write of 0 to G is ignored. -/
def State.updFields (s : State) (o : Nat) : List Fld :=
  if o = 0x08 then [rwF 0 1, rwF 1 1, otherF 4 3, rwF 8 1, rwF 9 1]
  else if o = 0x108 ∨ o = 0x188 then [rwF 0 32]
  else if o = 0x10C ∨ o = 0x18C then [rwF 0 16]
  else if o = 0x110 ∨ o = 0x190 then [otherF 0 5, otherF 16 16]
  else if o = 0x200 then [rwAs 0 16 s.noneStarted fun v => if v = 0 then s.lsG else v]
  else if o = 0x204 then [rwF 0 4]
  else if o = 0x208 ∨ o = 0x20C then [rwF 0 32]
  else [otherF 0 32]

/-- DEV (R180, R334). -/
def State.devFields (s : State) (a : Nat) : List Fld :=
  match a % 0x1000 with
  | 0x110 => [rwIf 0 16 s.noneStarted]
  | 0x114 => [rwIf 0 8 s.noneStarted]
  | 0x118 => [otherF 0 2, otherF 8 1]
  | 0x11C => [rwIf 0 1 (!s.locked a), otherF 16 1]
  | 0x124 => [rwAs 0 7 (!s.mapsUser) (capTo 64)]
  | 0x128 => [otherF 0 3]
  | 0x12C => [rwAs 0 11 true (capTo 1024), rwAs 20 4 (!s.locked a && !s.ctx0.started) (capTo 8), rwAs 24 8 true fun v => max 20 v]
  | _ => [otherF 0 32]

/-- The placed fields of a register. All bits of an address that no page occupies, and of an offset that no table of its page gives, are
placed and take nothing: a write there is ignored (R5, R333; for an offset without a row DEDUCED from R333's "addresses not listed", log 10). -/
def State.fields (s : State) (a : Nat) : List Fld :=
  let o := a % 0x1000
  let k := pageKind a
  if k = .none then [otherF 0 32]
  else if o < 0x40 ∧ o ≠ 0x08 then headerFields k o
  else match k with
    | .sq => if o = 0x100 then [rwAs 0 8 true fun v => max 1 v] else if o = 0x08 then [] else [otherF 0 32]
    | .squadOther => if o = 0x10C ∧ a % 0x8000 / 0x1000 = 1 then [otherF 0 1] else if o = 0x08 then [] else [otherF 0 32]
    | .dmach => s.dmaFields a
    | .mmu => if o = 0x08 then [] else mmuFields o
    | .disp n => s.dispFields n o
    | .jrn => if o = 0x100 then [rwAs 0 11 s.noneStarted (capTo 1024)] else if o = 0x08 then [] else [otherF 0 32]
    | .regu =>
      if o = 0x08 then []
      else if 0x100 ≤ o ∧ o < 0x160 then
        (match o % 16 / 4 with
         | 2 => [rwIf 0 2 (!s.locked a)]
         | 3 => [rwIf 0 1 (!s.locked a)]
         | _ => [otherF 0 32])
      else [otherF 0 32]
    | .lnk _ => (match o with
      | 0x08 => [otherF 0 1, rwF 1 1, rwF 8 5]
      | 0x120 => [rwF 0 16, rwF 16 5, rwF 24 4, rwF 31 1]
      | 0x124 => [rwF 0 32]
      | _ => [otherF 0 32])
    | .rte => if o = 0x100 then [rwAs 0 11 true fun v => max 4 (min 1024 v)] else if o = 0x110 then [rwF 0 32] else if o = 0x08 then [] else [otherF 0 32]
    | .cmgr => if o = 0x08 then [otherF 0 1] else [otherF 0 32]
    | .clk => if o = 0x100 then [rwF 0 5] else if o = 0x08 then [] else [otherF 0 32]
    | .pwr =>
      if o = 0x140 then (if chanOf a = 0 then [rwF 0 12, rwF 16 12] else [otherF 0 32]) else if o = 0x08 then [] else [otherF 0 32]
    | .time => (match o with
      | 0x08 => [rwAs 0 2 s.noneStarted (fun v => if v = 3 then 0 else v), rwF 2 1, rwF 8 5, rwF 16 5]
      | 0x100 => [rwF 0 24]
      | 0x110 | 0x118 => [rwF 0 32]
      | _ => [otherF 0 32])
    | .ledg => if o = 0x08 then [] else ledgFields o
    | .host => (match o with
      | 0x08 => [otherF 0 1, otherF 8 1]
      | 0x110 | 0x114 => [rwF 0 32]
      | 0x118 => [rwF 0 25]
      | _ => [otherF 0 32])
    | .upd => s.updFields o
    | .tele => if o = 0x104 then [rwF 0 32] else if o = 0x08 then [] else [otherF 0 32]
    | .dev => if o = 0x08 then [] else s.devFields a
    | .none => [otherF 0 32]
    | _ => if o = 0x08 then [] else [otherF 0 32]

/-! ## REGISTER_WRITE (R5, R6, R327, R328) -/

/-- The bits that a register's fields place. -/
def placedBits (l : List Fld) : Nat := l.foldl (fun m f => m ||| (2 ^ f.width - 1) * 2 ^ f.lo) 0
/-- A value with a field replaced. -/
def setBits (v lo width x : Nat) : Nat := v - bits v (lo + width - 1) lo * 2 ^ lo + x % 2 ^ width * 2 ^ lo

/-- One field takes its part of a write: the new value, and whether a restricted field would have changed. -/
def Fld.step (f : Fld) (v : Nat) (acc : Nat × Bool) : Nat × Bool :=
  let old := bits acc.1 (f.lo + f.width - 1) f.lo
  let x := bits v (f.lo + f.width - 1) f.lo
  match f.acc with
  | .rw => if f.ok then (setBits acc.1 f.lo f.width (f.take x), acc.2) else (acc.1, acc.2 || f.take x != old)
  | .w1c => (setBits acc.1 f.lo f.width (old &&& (2 ^ f.width - 1 - x)), acc.2)
  | .other => acc

/-- Where the fields that this command writes are kept: most as written, some beside. -/
def State.stored (s : State) (a : Nat) : Nat :=
  match pageKind a, a % 0x1000 with
  | .tele, 0x104 => s.tele.rp
  | .ledg, 0x190 => s.ledger.scope * 2 ^ 16
  | .dev, 0x11C => b2n s.mram.fill18
  | .disp n, 0x120 => maskOf ((List.range 16).filter fun q => ((s.ctx n).queue q).overrun) * 2 ^ 16
  | _, _ => s.rg a

/-- An unmasked FAULT bit sets IRQ_STATUS.FAULT (R328). -/
def State.unmask (s : State) (page old : Nat) : State :=
  if (s.rg (page + 0x10) &&& old &&& (2 ^ 32 - 1 - s.rg (page + 0x14))) = 0 then s else s.event page 31 255

/-- Keep a register's new value. -/
def State.keep (s : State) (a v : Nat) : State :=
  match pageKind a, a % 0x1000 with
  | .tele, 0x104 => s.setTele { s.tele with rp := v }
  | .ledg, 0x190 => s.setLedger { s.ledger with scope := bits v 17 16 }
  | .dev, 0x11C => s.setMram { s.mram with fill18 := v % 2 == 1 }
  | .disp n, 0x120 => s.modCtx n fun c => (List.range 16).foldl (fun (k : Ctx) q => k.modQueue q fun x => { x with overrun := x.overrun && bits v (16 + q) (16 + q) == 1 }) c
  | _, 0x14 => (s.setRg a v).unmask (a / 0x1000 * 0x1000) (s.rg a)
  | _, _ => s.setRg a v

/-- A 32-bit write: none where a reserved field is written with ones. -/
def State.writeWord (s : State) (a v : Nat) : Option State :=
  let fs := s.fields a
  if v &&& (2 ^ 32 - 1 - placedBits fs) ≠ 0 then none
  else
    let r := fs.foldl (fun acc f => f.step v acc) (s.stored a, false)
    let t := if r.1 = s.stored a then s else s.keep a r.1
    some (if r.2 then t.lockedWrite (a / 0x1000 * 0x1000) else t)

/-- The words of a write, low first. -/
def State.writeWords (s : State) (a v : Nat) (wide : Bool) : Option State :=
  match s.writeWord a (v % 2 ^ 32) with
  | none => none
  | some t => if wide then t.writeWord (a + 4) (v / 2 ^ 32 % 2 ^ 32) else some t

/-- REGISTER_WRITE. -/
def execRegisterWrite (port : Bool) (a : Nat) (wide : Bool) (v : W64) (s : State) : Res :=
  if !aligned a wide || !s.portReaches port a then .next s
  else match s.writeWords a v.toNat wide with
    | some t => .next t
    | none => .refused .reservedFieldWritten

/-! ## X_IRQ_FORCE and X_LOCK (R328, R344) -/

/-- The vector of an EVENT bit that a field table places (R335, R340, R349); bit 31 is FAULT. -/
def eventVector (page i : Nat) : Option Nat :=
  if i = 31 then some 255
  else match pageKind page with
    | .time => if i < 2 then some 216 else if i = 2 then some 217 else if i = 3 then some 218 else none
    | .dmach => if i < 2 then some (32 * chanOf page + dmachOf page) else none
    | _ => none

/-- The vector of a bit is raised while it is enabled; a host-owned DMA channel's always (R175). -/
def State.forceRaise (s : State) (page i : Nat) : State :=
  match eventVector page i with
  | some v => if s.bit (page + 0x1C) i || (pageKind page == .dmach && i < 2 && s.hostOwned (chanOf page) (dmachOf page)) then s.raise v else s
  | none => s

/-- IRQ_FORCE. -/
def execIrqForce (page : Nat) (v : Word) (s : State) : Res :=
  let t := s.setRg (page + 0x18) (s.rg (page + 0x18) ||| v.toNat)
  guard (s.hostUp && s.pageOn page && pageKind page != .none) s
    (((List.range 32).filter fun i => v.getLsbD i).foldl (fun (u : State) i => u.forceRaise page i) t)

/-- PAGE_LOCK. -/
def execPageLock (page : Nat) (s : State) : Res :=
  guard (s.hostUp && s.pageOn page && pageKind page != .none) s (s.setRg (page + 0x2C) 1)

/-! ## REGISTER_READ (R325, R375) -/

/-- The LO register of a 64-bit pair. -/
def isLo (a : Nat) : Bool :=
  let o := a % 0x1000
  match pageKind a with
  | .dmach => [0x100, 0x108, 0x130, 0x138, 0x150, 0x158, 0x160, 0x178, 0x1A0].contains o
  | .mmu => [0x100, 0x108, 0x110].contains o
  | .disp n => (o == 0x110 && n == 0) || (decide (0x200 ≤ o ∧ o < 0x400) && o % 0x20 == 0)
  | .lnk _ => o == 0x100
  | .time => [0x108, 0x110, 0x118].contains o
  | .upd => [0x108, 0x118, 0x120, 0x130, 0x188, 0x198, 0x1A0, 0x1B0, 0x208].contains o
  | .host => o == 0x110
  | .tele => [0x110, 0x118, 0x120, 0x128, 0x130].contains o
  | .rte => o == 0x108 || o == 0x118
  | .dev => o == 0x100
  | _ => false

/-- The latch of a port. -/
def State.latchOf (s : State) (port : Bool) : Tbl Word := if port then s.latchB else s.latchA

/-- A 32-bit read: HI comes from the port's latch once its LO has been read; LO latches HI. -/
def State.readWord (s : State) (port : Bool) (a : Nat) : Nat × State :=
  let v := s.peek port a
  if isLo a then
    let l := tins (homeAddr (a + 4)) (BitVec.ofNat 32 (s.peek port (a + 4))) (s.latchOf port)
    (v, if port then { s with latchB := l } else { s with latchA := l })
  else if isLo (a - 4) then
    (match tfind (s.latchOf port) (homeAddr a) with
     | some w => (w.toNat, s)
     | none => (v, s))
  else (v, s)

/-- Measured values are sampled at the read (DESIGN CHOICE, log 14). -/
def State.touch (s : State) (a : Nat) : State :=
  let o := a % 0x1000
  match pageKind a with
  | .watch => if 0x400 ≤ o then s.sample ((o - 0x400) / 4) else s
  | .pwr =>
    let v := s.draw.1.toNat
    if 0x100 ≤ o ∧ o < 0x130 then
      let k := 6 * chanOf a + (o - 0x100) / 8
      let r := tget Rail.reset s.pwr.rails k
      let r := if o % 8 = 0 then { r with mv := v % 2 ^ 16, cur := v / 2 ^ 16 % 2 ^ 16 } else { r with pow := v % 2 ^ 16, peak := max r.peak (v / 2 ^ 16 % 2 ^ 16) }
      (s.draw.2).setPwr { s.pwr with rails := tset Rail.reset s.pwr.rails k r }
    else if o = 0x144 then (s.draw.2).setPwr { s.pwr with aux := v % 2 ^ 16 }
    else s
  | _ => if freeCount a || (pageKind a == .upd) then s.draw.2 else s

/-- A read of PWR_RAILk_P restarts PEAK (R375). -/
def State.restartPeak (s : State) (a : Nat) : State :=
  let o := a % 0x1000
  if pageKind a == .pwr && decide (0x100 ≤ o ∧ o < 0x130) && o % 8 == 4 then
    let k := 6 * chanOf a + (o - 0x100) / 8
    s.setPwr { s.pwr with rails := tset Rail.reset s.pwr.rails k { tget Rail.reset s.pwr.rails k with peak := 0 } }
  else s

/-- REGISTER_READ: zero where nothing answers; a 64-bit read takes both halves at one instant and leaves the latch. -/
def execRegisterRead (port : Bool) (a : Nat) (wide : Bool) (s : State) : Res :=
  if !aligned a wide || !s.portReaches port a then .next (s.emit (.word 0))
  else if wide then
    let t := (s.touch a).touch (a + 4)
    .next (((t.emit (.word (BitVec.ofNat 64 (t.peek port a % 2 ^ 32 + t.peek port (a + 4) * 2 ^ 32)))).restartPeak a).restartPeak (a + 4))
  else
    let t := s.touch a
    let r := t.readWord port a
    .next ((r.2.emit (.word (BitVec.ofNat 64 (r.1 % 2 ^ 32)))).restartPeak a)

end Sys2Proof.Machine
end

