-- ==== Sys2Proof/Machine/Translate.lean ====
section
/-! DEFINITION. Translation misses, the translation caches, roots, invalidation and the fault logs (R160, R164 to R169, R188, R391). -/

namespace Sys2Proof.Machine

/-! ## Caches (R164) -/

/-- The cache of a channel that a requester uses: 0 to 15 its squads, 16 its DMA engine, 17 its walker. -/
def cacheOf : Requester → Nat
  | .engine _ _ st si | .table _ _ st si _ _ => if st = 0x11 then 16 else if st = 0x01 ∨ st = 0x05 then si % 16 else 17
  | .dma _ _ => 16
  | .spill _ | .host | .scrub => 17

/-- The channel on which a requester's miss is walked (R169). -/
def reqChan : Requester → Nat
  | .engine _ _ st si | .table _ _ st si _ _ => if st = 0x11 then si / 32 % 4 else if st = 0x01 ∨ st = 0x05 then si / 16 % 4 else 0
  | .dma c _ | .spill c => c
  | .host | .scrub => 0

/-- Entries a cache holds. -/
def cacheSize (k : Nat) : Nat := if k < 16 then 256 else if k = 16 then 1024 else 64

/-- Enter a translation; a full cache drops its oldest entry (DESIGN CHOICE, log 39). -/
def Chan.cacheAdd (h : Chan) (e : Tlb) : Chan :=
  if h.tlb.contains e then h
  else
    let own := h.tlb.filter fun x => x.cache == e.cache
    let others := h.tlb.filter fun x => x.cache != e.cache
    { h with tlb := (e :: own).take (cacheSize e.cache) ++ others }

/-- The table pointers that a walk passes, with the size log2 of what each maps: the upper levels. -/
def State.uppers (s : State) (va : Nat) : Nat → Nat → Nat → List (Nat × Nat)
  | 0, _, _ => []
  | n + 1, space, off =>
    let level := 3 - n
    let e := s.tableEntry space (off + 8 * levelIndex level va)
    if e % 2 = 0 ∨ e / 2 % 2 = 1 then []
    else (match level with | 0 => 39 | 1 => 30 | _ => 21, e) :: s.uppers va n (entrySpace e) (entryAddr e)

def pageOf (va lg : Nat) : Nat := va / 2 ^ lg * 2 ^ lg

/-- The caches after a walk that ends at a leaf. -/
def State.cacheFill (s : State) (n c k va lg entry : Nat) : State :=
  let r := s.root n
  let ups := s.uppers va 3 (entrySpace r) (entryAddr r)
  s.modChan c fun h =>
    let h := ups.foldl (fun (h : Chan) e => h.cacheAdd { cache := 17, ctx := n, va := pageOf va e.1, log2 := e.1, entry := BitVec.ofNat 64 e.2 }) h
    h.cacheAdd { cache := k, ctx := n, va := pageOf va lg, log2 := lg, entry := BitVec.ofNat 64 entry }

/-! ## TRANSLATION_WALK (R164, R166, R168, R178, R188) -/

/-- What a fault of a requester's walk does. -/
def State.walkFault (s : State) (n : Nat) (req : Requester) (va : W64) (write : Bool) (ftype level : Nat) : State :=
  let s := if ftype = 6 then s.emit (.uncorrectable req) else s
  match req with
  | .engine m q st si | .table m q st si _ _ => s.walkFail m q st si va write ftype level (reqChan req)
  | .dma c d => s.chanFault c d va write ftype level
  | .spill c => s.spillFault { va := va, ftype := ftype, srcType := 0x01, srcInst := c * 16, write := write, level := level, queue := 0, chan := c }
  | .host | .scrub => s

/-- TRANSLATION_WALK: a translation that the requester's cache keeps, or a fault. -/
def execTranslationWalk (n : Nat) (req : Requester) (va : W64) (write : Bool) (home : Option Nat) (s : State) : Res :=
  let spill := match req with
    | .spill c => some c
    | _ => none
  if !s.alive || !s.chanUp (reqChan req) || req == .host || req == .scrub then .next s
  else match s.walk n va.toNat with
    | .fault t l => .next (s.walkFault n req va write t l)
    | .leaf sp _ lg r w p e =>
      match leafFault spill home write sp r w p with
      | some t => .next (s.walkFault n req va write t (leafLevel lg))
      | none => .next (s.cacheFill n (reqChan req) (cacheOf req) va.toNat lg e)

/-! ## The MMU page (R165, R169, R391) -/

/-- MMU_ROOT_WRITE: the context is not started (R160, R327). -/
def execMmuRootWrite (n : Nat) (value : W64) (s : State) : Res :=
  if (s.ctx n).started then .next (if s.root n = value.toNat then s else s.lockedWrite pgMMU)
  else
    let t := (s.setRg (pgMMU + 0x100 + 8 * n) (value.toNat % 2 ^ 32)).setRg (pgMMU + 0x104 + 8 * n) (value.toNat / 2 ^ 32)
    .next ((List.range 4).foldl (fun (u : State) c => u.modChan c fun h => { h with tlb := h.tlb.filter fun e => e.ctx != n }) t)

/-- An entry that an invalidation drops. -/
def Tlb.hit (e : Tlb) (n lo len : Nat) (all : Bool) : Bool :=
  e.ctx == n && (all || (decide (e.va < lo + len) && decide (lo < e.va + 2 ^ e.log2)))

/-- MMU_INVAL.START; bit 8 kept at 0x11C is DONE inverted. -/
def execMmuInval (n : Nat) (va : W64) (pages : Nat) (all : Bool) (s : State) : Res :=
  if s.bit (pgMMU + 0x11C) 8 then .next (s.badCommand pgMMU)
  else
    let lo := bits va.toNat 47 16 * 65536
    let len := max 1 (pages % 2 ^ 32) * 65536
    let t := ((s.setRg (pgMMU + 0x110) (lo % 2 ^ 32)).setRg (pgMMU + 0x114) (lo / 2 ^ 32)).setRg (pgMMU + 0x118) pages
    let t := t.setRg (pgMMU + 0x11C) (256 + 4 * b2n all + 2 * (n % 2))
    .next ((List.range 4).foldl (fun (u : State) c => u.modChan c fun h => { h with tlb := h.tlb.filter fun e => !e.hit n lo len all }) t)

/-- MMU_INVAL.DONE. -/
def execMmuInvalDone (s : State) : Res := .next (s.setRg (pgMMU + 0x11C) (s.rg (pgMMU + 0x11C) % 256))

/-- MMU_FLOG_ACK. -/
def execMmuFlogAck (n : Nat) (s : State) : Res := .next (s.modCtx n fun c => { c with flog := [], flogLost := 0 })

end Sys2Proof.Machine
end

