-- ==== Sys2Proof/Machine/Dispatch.lean ====
section
/-! DEFINITION. One arm per command: a direct call of its meaning. -/

namespace Sys2Proof.Machine

open Sys2Proof

/-- The effect of a command on everything but the queue. -/
def exec (i : Instr) (s : State) : Host.Outcome State Fault Refusal :=
  match i with
  | .hostDoorbell port ctx q tail wrap recs => Sys2Proof.Machine.execHostDoorbell port ctx q tail wrap recs s
  | .preemptNbtLead q => Sys2Proof.Machine.execPreemptNbtLead q s
  | .spillComplete => Sys2Proof.Machine.execSpillComplete s
  | .yieldWrite => Sys2Proof.Machine.execYieldWrite s
  | .yieldTakesEffect => Sys2Proof.Machine.execYieldTakesEffect s
  | .fillComplete => Sys2Proof.Machine.execFillComplete s
  | .descriptorAdmit ctx q => Sys2Proof.Machine.execDescriptorAdmit ctx q s
  | .descriptorReady ctx q => Sys2Proof.Machine.execDescriptorReady ctx q s
  | .notBeforeTimeReached ctx q => Sys2Proof.Machine.execNotBeforeTimeReached ctx q s
  | .descriptorIssue ctx cls => Sys2Proof.Machine.execDescriptorIssue ctx cls s
  | .descriptorComplete ctx seq => Sys2Proof.Machine.execDescriptorComplete ctx seq s
  | .shotClockExpiry ctx q => Sys2Proof.Machine.execShotClockExpiry ctx q s
  | .mutualWait ctx => Sys2Proof.Machine.execMutualWait ctx s
  | .contextStart ctx => Sys2Proof.Machine.execContextStart ctx s
  | .resume ctx => Sys2Proof.Machine.execResume ctx s
  | .abort ctx => Sys2Proof.Machine.execAbort ctx s
  | .contextReset ctx => Sys2Proof.Machine.execContextReset ctx s
  | .skip ctx q => Sys2Proof.Machine.execSkip ctx q s
  | .retry ctx q => Sys2Proof.Machine.execRetry ctx q s
  | .flagWrite ctx flag value => Sys2Proof.Machine.execFlagWrite ctx flag value s
  | .queueRingPlace ctx q base log2 => Sys2Proof.Machine.execQueueRingPlace ctx q base log2 s
  | .workItemDeal sq => Sys2Proof.Machine.execWorkItemDeal sq s
  | .reload sq => Sys2Proof.Machine.execReload sq s
  | .kStepIssue sq => Sys2Proof.Machine.execKStepIssue sq s
  | .stageClose sq => Sys2Proof.Machine.execStageClose sq s
  | .closeLatchEmpty sq slot => Sys2Proof.Machine.execCloseLatchEmpty sq slot s
  | .rungCombine sq slot => Sys2Proof.Machine.execRungCombine sq slot s
  | .drainStart sq errs => Sys2Proof.Machine.execDrainStart sq errs s
  | .tileCheckVerdict sq => Sys2Proof.Machine.execTileCheckVerdict sq s
  | .blockCommit e => Sys2Proof.Machine.execBlockCommit e s
  | .engineRestartPoint ctx e => Sys2Proof.Machine.execEngineRestartPoint ctx e s
  | .functionLoad ctx slot r => Sys2Proof.Machine.execFunctionLoad ctx slot r s
  | .walkLibraryLoad ctx r => Sys2Proof.Machine.execWalkLibraryLoad ctx r s
  | .updateProgramLoad ctx n r => Sys2Proof.Machine.execUpdateProgramLoad ctx n r s
  | .stepPlanLoad ctx r => Sys2Proof.Machine.execStepPlanLoad ctx r s
  | .walkAdd sq w => Sys2Proof.Machine.execWalkAdd sq w s
  | .walkSub sq w => Sys2Proof.Machine.execWalkSub sq w s
  | .walkMul sq w => Sys2Proof.Machine.execWalkMul sq w s
  | .walkAnd sq w => Sys2Proof.Machine.execWalkAnd sq w s
  | .walkOr sq w => Sys2Proof.Machine.execWalkOr sq w s
  | .walkXor sq w => Sys2Proof.Machine.execWalkXor sq w s
  | .walkShl sq w => Sys2Proof.Machine.execWalkShl sq w s
  | .walkShr sq w => Sys2Proof.Machine.execWalkShr sq w s
  | .walkMin sq w => Sys2Proof.Machine.execWalkMin sq w s
  | .walkMax sq w => Sys2Proof.Machine.execWalkMax sq w s
  | .walkCmp sq w => Sys2Proof.Machine.execWalkCmp sq w s
  | .walkSel sq w => Sys2Proof.Machine.execWalkSel sq w s
  | .walkMov sq w => Sys2Proof.Machine.execWalkMov sq w s
  | .walkMovi sq w => Sys2Proof.Machine.execWalkMovi sq w s
  | .walkArg sq w => Sys2Proof.Machine.execWalkArg sq w s
  | .walkLoop sq w => Sys2Proof.Machine.execWalkLoop sq w s
  | .walkEndloop sq w => Sys2Proof.Machine.execWalkEndloop sq w s
  | .walkBr sq w => Sys2Proof.Machine.execWalkBr sq w s
  | .walkBrc sq w => Sys2Proof.Machine.execWalkBrc sq w s
  | .walkEmit sq w => Sys2Proof.Machine.execWalkEmit sq w s
  | .walkEnd sq w => Sys2Proof.Machine.execWalkEnd sq w s
  | .walkAttach sq w => Sys2Proof.Machine.execWalkAttach sq w s
  | .walkDetach sq w => Sys2Proof.Machine.execWalkDetach sq w s
  | .walkAcquire sq w => Sys2Proof.Machine.execWalkAcquire sq w s
  | .walkPush sq w => Sys2Proof.Machine.execWalkPush sq w s
  | .walkPop sq w => Sys2Proof.Machine.execWalkPop sq w s
  | .walkRelease sq w => Sys2Proof.Machine.execWalkRelease sq w s
  | .poolGrant sq ctx pool => Sys2Proof.Machine.execPoolGrant sq ctx pool s
  | .popWake sq ctx q => Sys2Proof.Machine.execPopWake sq ctx q s
  | .updAdd sq => Sys2Proof.Machine.execUpdAdd sq s
  | .updSub sq => Sys2Proof.Machine.execUpdSub sq s
  | .updMul sq => Sys2Proof.Machine.execUpdMul sq s
  | .updFma sq => Sys2Proof.Machine.execUpdFma sq s
  | .updSqrt sq => Sys2Proof.Machine.execUpdSqrt sq s
  | .updRsqrt sq => Sys2Proof.Machine.execUpdRsqrt sq s
  | .updMax sq => Sys2Proof.Machine.execUpdMax sq s
  | .updMin sq => Sys2Proof.Machine.execUpdMin sq s
  | .updAbs sq => Sys2Proof.Machine.execUpdAbs sq s
  | .updSel sq => Sys2Proof.Machine.execUpdSel sq s
  | .updClamp sq => Sys2Proof.Machine.execUpdClamp sq s
  | .updScl sq => Sys2Proof.Machine.execUpdScl sq s
  | .shortPassMessage m => Sys2Proof.Machine.execShortPassMessage m s
  | .overflowDeliver c ctx => Sys2Proof.Machine.execOverflowDeliver c ctx s
  | .heldMessageRelease ctx => Sys2Proof.Machine.execHeldMessageRelease ctx s
  | .squadHuddleArrival ctx number sq => Sys2Proof.Machine.execSquadHuddleArrival ctx number sq s
  | .huddlePacket p => Sys2Proof.Machine.execHuddlePacket p s
  | .huddleShotClockExpiry ctx q => Sys2Proof.Machine.execHuddleShotClockExpiry ctx q s
  | .memRead req space off errs => Sys2Proof.Machine.execMemRead req space off errs s
  | .memWrite req space off data errs => Sys2Proof.Machine.execMemWrite req space off data errs s
  | .burstReread c errs => Sys2Proof.Machine.execBurstReread c errs s
  | .stackFailure c k hch => Sys2Proof.Machine.execStackFailure c k hch s
  | .memBurstSlot c waiting spill => Sys2Proof.Machine.execMemBurstSlot c waiting spill s
  | .refresh c k r => Sys2Proof.Machine.execRefresh c k r s
  | .scrubRead c errs userWrite => Sys2Proof.Machine.execScrubRead c errs userWrite s
  | .scrubBehind c fraction => Sys2Proof.Machine.execScrubBehind c fraction s
  | .retrainingStart c p => Sys2Proof.Machine.execRetrainingStart c p s
  | .retrainingDone c p failed => Sys2Proof.Machine.execRetrainingDone c p failed s
  | .retrainingTimeout c p => Sys2Proof.Machine.execRetrainingTimeout c p s
  | .rebuild => Sys2Proof.Machine.execRebuild s
  | .rebuildDone => Sys2Proof.Machine.execRebuildDone s
  | .reguRateWrite c part value => Sys2Proof.Machine.execReguRateWrite c part value s
  | .reguBurstWrite c part value => Sys2Proof.Machine.execReguBurstWrite c part value s
  | .translationWalk ctx req va write home => Sys2Proof.Machine.execTranslationWalk ctx req va write home s
  | .mmuRootWrite ctx value => Sys2Proof.Machine.execMmuRootWrite ctx value s
  | .mmuInval ctx va pages all => Sys2Proof.Machine.execMmuInval ctx va pages all s
  | .mmuInvalDone => Sys2Proof.Machine.execMmuInvalDone s
  | .mmuFlogAck ctx => Sys2Proof.Machine.execMmuFlogAck ctx s
  | .dmaStart c d => Sys2Proof.Machine.execDmaStart c d s
  | .dmaAbort c d => Sys2Proof.Machine.execDmaAbort c d s
  | .dmaResume c d => Sys2Proof.Machine.execDmaResume c d s
  | .dmaBurstCommit c d hostData => Sys2Proof.Machine.execDmaBurstCommit c d hostData s
  | .dmaOrderingRead c d => Sys2Proof.Machine.execDmaOrderingRead c d s
  | .detectorFault e data => Sys2Proof.Machine.execDetectorFault e data s
  | .engineWatchdog e => Sys2Proof.Machine.execEngineWatchdog e s
  | .cmgrWatchdog c => Sys2Proof.Machine.execCmgrWatchdog c s
  | .sqFenceWrite sq => Sys2Proof.Machine.execSqFenceWrite sq s
  | .dmachFenceWrite c d => Sys2Proof.Machine.execDmachFenceWrite c d s
  | .lnkFenceWrite n => Sys2Proof.Machine.execLnkFenceWrite n s
  | .fenceClear t => Sys2Proof.Machine.execFenceClear t s
  | .devModeSideline => Sys2Proof.Machine.execDevModeSideline s
  | .sidelineNInput ns => Sys2Proof.Machine.execSidelineNInput ns s
  | .channelReset c b => Sys2Proof.Machine.execChannelReset c b s
  | .arrClearField sq => Sys2Proof.Machine.execArrClearField sq s
  | .routerPacketArrival c at_ next dest offer => Sys2Proof.Machine.execRouterPacketArrival c at_ next dest offer s
  | .seamFlit c j lane ok p => Sys2Proof.Machine.execSeamFlit c j lane ok p s
  | .combineNode ctx tag node right off data => Sys2Proof.Machine.execCombineNode ctx tag node right off data s
  | .multicastFlitSend g len => Sys2Proof.Machine.execMulticastFlitSend g len s
  | .multicastReattach g sq => Sys2Proof.Machine.execMulticastReattach g sq s
  | .routerHole sq => Sys2Proof.Machine.execRouterHole sq s
  | .detourResume c => Sys2Proof.Machine.execDetourResume c s
  | .edgeRouterFailure c e => Sys2Proof.Machine.execEdgeRouterFailure c e s
  | .ringLinkFailure c e => Sys2Proof.Machine.execRingLinkFailure c e s
  | .linkFlitReceive n f => Sys2Proof.Machine.execLinkFlitReceive n f s
  | .ackLctlSend n => Sys2Proof.Machine.execAckLctlSend n s
  | .packetForward port p => Sys2Proof.Machine.execPacketForward port p s
  | .routingTableWrite addr data => Sys2Proof.Machine.execRoutingTableWrite addr data s
  | .tagGrant ctx tag epoch => Sys2Proof.Machine.execTagGrant ctx tag epoch s
  | .collectiveAbort ctx tag epoch => Sys2Proof.Machine.execCollectiveAbort ctx tag epoch s
  | .collectiveRestart ctx tag => Sys2Proof.Machine.execCollectiveRestart ctx tag s
  | .lnkTrain n => Sys2Proof.Machine.execLnkTrain n s
  | .trainingComplete n badLanes delay t => Sys2Proof.Machine.execTrainingComplete n badLanes delay t s
  | .identityBlock n b => Sys2Proof.Machine.execIdentityBlock n b s
  | .noPeerTimeout n => Sys2Proof.Machine.execNoPeerTimeout n s
  | .lossOfLock n lane => Sys2Proof.Machine.execLossOfLock n lane s
  | .peerSilence n => Sys2Proof.Machine.execPeerSilence n s
  | .whistleSend => Sys2Proof.Machine.execWhistleSend s
  | .whistleReceive port w residence => Sys2Proof.Machine.execWhistleReceive port w residence s
  | .whistleInEdge => Sys2Proof.Machine.execWhistleInEdge s
  | .holdover => Sys2Proof.Machine.execHoldover s
  | .trefLoss => Sys2Proof.Machine.execTrefLoss s
  | .trefReturn => Sys2Proof.Machine.execTrefReturn s
  | .timeBaseLockLoss => Sys2Proof.Machine.execTimeBaseLockLoss s
  | .timeSet v => Sys2Proof.Machine.execTimeSet v s
  | .whistleSeed v => Sys2Proof.Machine.execWhistleSeed v s
  | .stEnd => Sys2Proof.Machine.execStEnd s
  | .maintenanceWindowOpen ctx => Sys2Proof.Machine.execMaintenanceWindowOpen ctx s
  | .voteReceive ctx lo hi v => Sys2Proof.Machine.execVoteReceive ctx lo hi v s
  | .commitShotClockExpiry ctx => Sys2Proof.Machine.execCommitShotClockExpiry ctx s
  | .pairPacket ctx src port step exp growth digest => Sys2Proof.Machine.execPairPacket ctx src port step exp growth digest s
  | .commitReceive ctx d => Sys2Proof.Machine.execCommitReceive ctx d s
  | .holdReceive ctx d => Sys2Proof.Machine.execHoldReceive ctx d s
  | .commitAbortReceive ctx d => Sys2Proof.Machine.execCommitAbortReceive ctx d s
  | .memberCommitClockExpiry ctx => Sys2Proof.Machine.execMemberCommitClockExpiry ctx s
  | .decisionQuery ctx src step => Sys2Proof.Machine.execDecisionQuery ctx src step s
  | .decisionAnswer ctx commit d => Sys2Proof.Machine.execDecisionAnswer ctx commit d s
  | .decisionQueryTimeout ctx => Sys2Proof.Machine.execDecisionQueryTimeout ctx s
  | .completeCommit => Sys2Proof.Machine.execCompleteCommit s
  | .discardVote => Sys2Proof.Machine.execDiscardVote s
  | .redigest => Sys2Proof.Machine.execRedigest s
  | .redigestDone ctx => Sys2Proof.Machine.execRedigestDone ctx s
  | .updStepWrite ctx v => Sys2Proof.Machine.execUpdStepWrite ctx v s
  | .lossScaleWrite ctx exp growth => Sys2Proof.Machine.execLossScaleWrite ctx exp growth s
  | .ledgerRecordWrite chan o => Sys2Proof.Machine.execLedgerRecordWrite chan o s
  | .rateInterval => Sys2Proof.Machine.execRateInterval s
  | .hostRecordSubmit => Sys2Proof.Machine.execHostRecordSubmit s
  | .hmbReady => Sys2Proof.Machine.execHmbReady s
  | .ledgerReadSelect index => Sys2Proof.Machine.execLedgerReadSelect index s
  | .keyWordWrite idx w => Sys2Proof.Machine.execKeyWordWrite idx w s
  | .rekeyWindowClose => Sys2Proof.Machine.execRekeyWindowClose s
  | .clearRequest scope => Sys2Proof.Machine.execClearRequest scope s
  | .clearSubmit resp => Sys2Proof.Machine.execClearSubmit resp s
  | .clearDone => Sys2Proof.Machine.execClearDone s
  | .challengeExpiry => Sys2Proof.Machine.execChallengeExpiry s
  | .lockoutEnd => Sys2Proof.Machine.execLockoutEnd s
  | .ponSSave => Sys2Proof.Machine.execPonSSave s
  | .registerWrite port addr wide value => Sys2Proof.Machine.execRegisterWrite port addr wide value s
  | .irqForce page bits => Sys2Proof.Machine.execIrqForce page bits s
  | .pageLock page => Sys2Proof.Machine.execPageLock page s
  | .bar2Access port a => Sys2Proof.Machine.execBar2Access port a s
  | .hostApertureWrite value => Sys2Proof.Machine.execHostApertureWrite value s
  | .apertureApply => Sys2Proof.Machine.execApertureApply s
  | .activate port => Sys2Proof.Machine.execActivate port s
  | .perstAssert port => Sys2Proof.Machine.execPerstAssert port s
  | .perstRelease port => Sys2Proof.Machine.execPerstRelease port s
  | .bootGo port => Sys2Proof.Machine.execBootGo port s
  | .bootVerify img found => Sys2Proof.Machine.execBootVerify img found s
  | .startup => Sys2Proof.Machine.execStartup s
  | .sysResetNAssert ns => Sys2Proof.Machine.execSysResetNAssert ns s
  | .vinOutOfRange tenMv => Sys2Proof.Machine.execVinOutOfRange tenMv s
  | .vinUndervoltage tenMv => Sys2Proof.Machine.execVinUndervoltage tenMv s
  | .vinOvervoltage tenMv => Sys2Proof.Machine.execVinOvervoltage tenMv s
  | .capStepDown watts => Sys2Proof.Machine.execCapStepDown watts s
  | .capStepUp watts => Sys2Proof.Machine.execCapStepUp watts s
  | .railOvercurrent c k peak => Sys2Proof.Machine.execRailOvercurrent c k peak s
  | .railOvercurrentEnd c k => Sys2Proof.Machine.execRailOvercurrentEnd c k s
  | .cclkChange => Sys2Proof.Machine.execCclkChange s
  | .thermalStepDown t => Sys2Proof.Machine.execThermalStepDown t s
  | .thermalStepUp t => Sys2Proof.Machine.execThermalStepUp t s
  | .thermalTripWarning t => Sys2Proof.Machine.execThermalTripWarning t s
  | .thermalTrip t => Sys2Proof.Machine.execThermalTrip t s
  | .thermtripRelease => Sys2Proof.Machine.execThermtripRelease s
  | .wpHeartbeat => Sys2Proof.Machine.execWpHeartbeat s
  | .wpRead word => Sys2Proof.Machine.execWpRead word s
  | .wpFenceWrite word value => Sys2Proof.Machine.execWpFenceWrite word value s
  | .wpSidelineCmd value => Sys2Proof.Machine.execWpSidelineCmd value s
  | .wpAlertClear value => Sys2Proof.Machine.execWpAlertClear value s
  | .bypass => Sys2Proof.Machine.execBypass s
  | .idcode => Sys2Proof.Machine.execIdcode s
  | .samplePreload => Sys2Proof.Machine.execSamplePreload s
  | .extest => Sys2Proof.Machine.execExtest s
  | .extestPulse => Sys2Proof.Machine.execExtestPulse s
  | .extestTrain => Sys2Proof.Machine.execExtestTrain s
  | .clampIr => Sys2Proof.Machine.execClampIr s
  | .highz => Sys2Proof.Machine.execHighz s
  | .stack1500 select => Sys2Proof.Machine.execStack1500 select s
  | .trstNReset => Sys2Proof.Machine.execTrstNReset s
  | .smbIdent => Sys2Proof.Machine.execSmbIdent s
  | .smbHealth => Sys2Proof.Machine.execSmbHealth s
  | .smbThermal => Sys2Proof.Machine.execSmbThermal s
  | .smbPower => Sys2Proof.Machine.execSmbPower s
  | .smbLedgSel slot => Sys2Proof.Machine.execSmbLedgSel slot s
  | .smbLedgLo => Sys2Proof.Machine.execSmbLedgLo s
  | .smbLedgHi => Sys2Proof.Machine.execSmbLedgHi s
  | .smbCounts => Sys2Proof.Machine.execSmbCounts s
  | .auxRailLoss => Sys2Proof.Machine.execAuxRailLoss s
  | .registerRead port addr wide => Sys2Proof.Machine.execRegisterRead port addr wide s
  | .hostPortLinkChange port up => Sys2Proof.Machine.execHostPortLinkChange port up s

end Sys2Proof.Machine
end

