-- ==== Sys2Proof/Machine/Step.lean ====
section
/-! DEFINITION. The step: the command at the front of the queue, or one nanosecond of the device's clocks. -/

namespace Sys2Proof.Machine

/-- One step: exec of the front command on the queue's rest; on an empty queue one nanosecond passes (DESIGN CHOICE, log 6). -/
def step (s : State) : Host.Outcome State Fault Refusal :=
  match s.pending with
  | [] => .next s.tick
  | c :: r => exec c (s.setPending r)

/-- The command that a word spells, put at the front of the queue: none is, so s is unchanged (DEDUCED, log 18). -/
def State.withFetchWord (s : State) (nbits w : Nat) : State :=
  match decodeTableWord nbits w with
  | some c => s.setPending (c :: s.pending)
  | none => s

end Sys2Proof.Machine
end

