-- ==== Sys2Proof/Safety.lean ====
section
/-! DEFINITION. What a good state and a good outcome are, in the terms the statements use. -/

namespace Sys2Proof.Machine

/-- Both memories are in their canonical form: the stacks' bytes and the squad stores. -/
def MemOk (s : State) : Prop := Memory.wf s.hbm = true ∧ Memory.wf s.store = true

/-- The waiting commands and the two memories, which most commands leave alone. -/
def State.mem (s : State) : List Instr × List Host.Cell × List Host.Cell := (s.pending, s.hbm, s.store)

/-- What every command keeps: the waiting commands as they are, and the memories' canonical form. -/
def Keeps (s t : State) : Prop := t.pending = s.pending ∧ (MemOk s → MemOk t)

/-- The outcome is a next state that keeps what every command keeps. -/
def Goes (s : State) (r : Res) : Prop := ∃ t, r = .next t ∧ Keeps s t

/-- The parts of the state, one for each of its fields. -/
inductive Part where
  | pending | free | out | regs | latchA | latchB | hbm | store | clk | dev | mram | ctx0 | ctx1 | squads | chans | links | net
  | ledger | tele | host | pwr | watch | jtag | smbSlot | flightSeq
deriving DecidableEq, Repr

/-- Two states agree on a part. -/
def Part.same (s t : State) : Part → Prop
  | .pending => t.pending = s.pending
  | .free => t.free = s.free
  | .out => t.out = s.out
  | .regs => t.regs = s.regs
  | .latchA => t.latchA = s.latchA
  | .latchB => t.latchB = s.latchB
  | .hbm => t.hbm = s.hbm
  | .store => t.store = s.store
  | .clk => t.clk = s.clk
  | .dev => t.dev = s.dev
  | .mram => t.mram = s.mram
  | .ctx0 => t.ctx0 = s.ctx0
  | .ctx1 => t.ctx1 = s.ctx1
  | .squads => t.squads = s.squads
  | .chans => t.chans = s.chans
  | .links => t.links = s.links
  | .net => t.net = s.net
  | .ledger => t.ledger = s.ledger
  | .tele => t.tele = s.tele
  | .host => t.host = s.host
  | .pwr => t.pwr = s.pwr
  | .watch => t.watch = s.watch
  | .jtag => t.jtag = s.jtag
  | .smbSlot => t.smbSlot = s.smbSlot
  | .flightSeq => t.flightSeq = s.flightSeq

/-- t differs from s in no part but those listed. -/
def Only (ps : List Part) (s t : State) : Prop := ∀ p, p ∉ ps → p.same s t

/-- The parts of the state a command may change, each by the rules that give the command its effect; every other part it leaves as it is. -/
def footprint : Instr → List Part
  | .hostDoorbell _ _ _ _ _ _ | .yieldWrite | .contextStart _ | .flagWrite _ _ _ | .queueRingPlace _ _ _ _ | .discardVote
  | .updStepWrite _ _ | .lossScaleWrite _ _ _ =>
      [.out, .regs, .ctx0, .ctx1, .host]
  | .preemptNbtLead _ | .yieldTakesEffect =>
      [.out, .ctx0, .ctx1, .host]
  | .spillComplete =>
      [.out, .hbm, .ctx0, .ctx1, .squads, .chans, .ledger, .host, .watch]
  | .fillComplete =>
      [.out, .store, .ctx0, .ctx1, .squads, .chans, .ledger, .host, .watch]
  | .descriptorAdmit _ _ =>
      [.out, .ctx0, .ctx1, .ledger, .host, .watch, .flightSeq]
  | .descriptorReady _ _ =>
      [.out, .regs, .ctx0, .ctx1, .squads, .ledger, .tele, .host, .watch]
  | .notBeforeTimeReached _ _ | .stepPlanLoad _ _ | .squadHuddleArrival _ _ _ | .mmuFlogAck _ | .redigest | .redigestDone _ =>
      [.ctx0, .ctx1]
  | .descriptorIssue _ _ =>
      [.out, .regs, .hbm, .store, .ctx0, .ctx1,
       .squads, .chans, .net, .ledger, .tele, .host, .watch]
  | .descriptorComplete _ _ =>
      [.free, .out, .regs, .hbm, .store, .ctx0, .ctx1,
       .squads, .chans, .net, .ledger, .tele, .host, .watch]
  | .shotClockExpiry _ _ | .mutualWait _ | .huddleShotClockExpiry _ _ | .voteReceive _ _ _ _ | .commitShotClockExpiry _
  | .pairPacket _ _ _ _ _ _ _ | .commitReceive _ _ | .holdReceive _ _ | .memberCommitClockExpiry _ | .decisionQueryTimeout _ =>
      [.out, .ctx0, .ctx1, .ledger, .host, .watch]
  | .resume _ =>
      [.out, .regs, .ctx0, .ctx1, .chans, .host]
  | .abort _ | .translationWalk _ _ _ _ _ =>
      [.out, .regs, .ctx0, .ctx1, .squads, .chans, .ledger, .host, .watch]
  | .contextReset _ | .shortPassMessage _ | .heldMessageRelease _ | .commitAbortReceive _ _ | .decisionAnswer _ _ _ =>
      [.out, .ctx0, .ctx1, .squads, .chans, .ledger, .host, .watch]
  | .skip _ _ =>
      [.out, .regs, .ctx0, .ctx1, .squads, .chans, .net, .ledger, .tele, .host, .watch, .flightSeq]
  | .retry _ _ | .completeCommit =>
      [.out, .regs, .ctx0, .ctx1, .ledger, .host, .watch]
  | .workItemDeal _ | .functionLoad _ _ _ | .walkLibraryLoad _ _ | .updateProgramLoad _ _ _ =>
      [.ctx0, .ctx1, .squads]
  | .reload _ | .stageClose _ | .closeLatchEmpty _ _ | .rungCombine _ _ | .drainStart _ _ | .walkLoop _ _ | .walkEndloop _ _
  | .walkBr _ _ | .walkBrc _ _ | .walkEnd _ _ | .updAdd _ | .updSub _ | .updMul _ | .updFma _ | .updSqrt _ | .updRsqrt _
  | .updMax _ | .updMin _ | .updAbs _ | .updSel _ | .updClamp _ | .updScl _ =>
      [.squads]
  | .kStepIssue _ =>
      [.out, .ctx0, .ctx1, .squads, .ledger, .host, .watch]
  | .tileCheckVerdict _ | .blockCommit _ =>
      [.out, .hbm, .store, .dev, .mram, .ctx0,
       .ctx1, .squads, .chans, .net, .ledger, .host, .watch]
  | .engineRestartPoint _ _ =>
      [.out, .ctx0, .ctx1, .squads, .chans, .net, .ledger, .host, .watch]
  | .walkAdd _ _ | .walkSub _ _ | .walkMul _ _ | .walkAnd _ _ | .walkOr _ _ | .walkXor _ _ | .walkShl _ _ | .walkShr _ _
  | .walkMin _ _ | .walkMax _ _ | .walkCmp _ _ | .walkSel _ _ | .walkMov _ _ | .walkMovi _ _ | .walkEmit _ _
  | .walkAttach _ _ | .walkDetach _ _ | .walkAcquire _ _ | .walkPush _ _ | .walkPop _ _ | .walkRelease _ _
  | .poolGrant _ _ _ | .popWake _ _ _ | .cmgrWatchdog _ | .devModeSideline | .sidelineNInput _ | .wpSidelineCmd _ =>
      [.out, .dev, .ctx0, .ctx1, .squads, .chans, .ledger, .host, .watch]
  | .walkArg _ _ =>
      [.free, .out, .dev, .ctx0, .ctx1, .squads, .chans, .ledger, .host, .watch]
  | .overflowDeliver _ _ =>
      [.squads, .chans]
  | .huddlePacket _ =>
      [.out, .ctx0, .ctx1]
  | .memRead _ _ _ _ | .memWrite _ _ _ _ _ | .scrubRead _ _ _ | .retrainingDone _ _ _ =>
      [.out, .regs, .hbm, .dev, .mram, .ctx0, .ctx1, .squads, .chans, .ledger, .host, .watch]
  | .burstReread _ _ | .retrainingTimeout _ _ =>
      [.out, .regs, .hbm, .dev, .mram, .ctx0, .ctx1,
       .squads, .chans, .net, .ledger, .tele, .host, .watch]
  | .stackFailure _ _ _ | .edgeRouterFailure _ _ =>
      [.out, .hbm, .dev, .mram, .ctx0, .ctx1,
       .squads, .chans, .net, .ledger, .tele, .host, .watch]
  | .memBurstSlot _ _ _ | .retrainingStart _ _ =>
      [.chans]
  | .refresh _ _ _ =>
      [.free, .chans]
  | .scrubBehind _ _ | .maintenanceWindowOpen _ | .ledgerRecordWrite _ _ | .hostRecordSubmit =>
      [.out, .ledger, .host, .watch]
  | .rebuild =>
      [.out, .regs, .dev, .host]
  | .rebuildDone =>
      [.out, .hbm, .dev, .chans, .ledger, .host, .watch]
  | .reguRateWrite _ _ _ | .irqForce _ _ | .bootGo _ =>
      [.out, .regs, .host]
  | .reguBurstWrite _ _ _ | .mmuRootWrite _ _ | .mmuInval _ _ _ _ | .dmaResume _ _ =>
      [.out, .regs, .chans, .host]
  | .mmuInvalDone | .pageLock _ =>
      [.regs]
  | .dmaStart _ _ | .dmaAbort _ _ | .dmachFenceWrite _ _ =>
      [.out, .regs, .ctx0, .ctx1, .chans, .ledger, .host, .watch]
  | .dmaBurstCommit _ _ _ =>
      [.out, .regs, .hbm, .store, .ctx0, .ctx1, .chans, .ledger, .host, .watch]
  | .dmaOrderingRead _ _ =>
      [.out, .regs, .hbm, .store, .ctx0, .ctx1, .chans, .host]
  | .detectorFault _ _ | .engineWatchdog _ =>
      [.out, .regs, .dev, .mram, .ctx0, .ctx1, .squads, .chans, .net, .ledger, .host, .watch]
  | .sqFenceWrite _ | .routerHole _ | .wpFenceWrite _ _ =>
      [.out, .dev, .mram, .ctx0, .ctx1, .squads, .chans, .net, .ledger, .host, .watch]
  | .lnkFenceWrite _ | .trainingComplete _ _ _ _ | .lossOfLock _ _ | .peerSilence _ =>
      [.out, .ctx0, .ctx1, .links, .net, .ledger, .host, .watch]
  | .fenceClear _ =>
      [.out, .regs, .mram, .chans, .links, .host]
  | .channelReset _ _ =>
      [.free, .out, .regs, .latchA, .latchB, .hbm, .store, .dev, .mram,
       .ctx0, .ctx1, .squads, .chans, .links, .net, .ledger, .tele, .host, .watch]
  | .arrClearField _ =>
      [.out, .regs, .mram, .host]
  | .routerPacketArrival _ _ _ _ _ | .detourResume _ | .packetForward _ _ =>
      [.out, .hbm, .store, .ctx0, .ctx1, .squads, .chans, .links, .net, .ledger, .host, .watch]
  | .seamFlit _ _ _ _ _ | .ringLinkFailure _ _ =>
      [.out, .hbm, .store, .dev, .ctx0, .ctx1,
       .squads, .chans, .links, .net, .ledger, .host, .watch]
  | .combineNode _ _ _ _ _ _ | .collectiveRestart _ _ =>
      [.out, .hbm, .store, .ctx0, .ctx1, .net, .ledger, .host, .watch]
  | .multicastFlitSend _ _ =>
      [.out, .hbm, .store, .ctx0, .ctx1, .squads, .chans, .net, .ledger, .host, .watch]
  | .multicastReattach _ _ =>
      [.hbm, .store, .squads, .net]
  | .linkFlitReceive _ _ =>
      [.out, .links, .net]
  | .ackLctlSend _ | .whistleSend =>
      [.out, .links]
  | .routingTableWrite _ _ =>
      [.regs, .net]
  | .tagGrant _ _ _ =>
      [.ctx0, .ctx1, .net]
  | .collectiveAbort _ _ _ =>
      [.out, .ctx0, .ctx1, .net, .ledger, .host, .watch]
  | .lnkTrain _ =>
      [.links]
  | .identityBlock _ _ | .noPeerTimeout _ =>
      [.out, .links, .ledger, .host, .watch]
  | .whistleReceive _ _ _ =>
      [.out, .regs, .clk, .dev, .ctx0, .ctx1, .links, .ledger, .host, .watch]
  | .whistleInEdge | .timeSet _ =>
      [.out, .regs, .clk, .dev, .ctx0, .ctx1, .ledger, .host, .watch]
  | .holdover =>
      [.out, .regs, .clk, .ledger, .host, .watch]
  | .trefLoss =>
      [.out, .clk, .ledger, .host, .watch]
  | .trefReturn =>
      [.clk]
  | .timeBaseLockLoss =>
      [.out, .clk, .ctx0, .ctx1, .ledger, .host, .watch]
  | .whistleSeed _ =>
      [.regs, .clk]
  | .stEnd =>
      [.clk, .ctx0, .ctx1]
  | .decisionQuery _ _ _ | .smbIdent | .smbHealth | .smbLedgLo | .smbLedgHi | .smbCounts =>
      [.out]
  | .rateInterval | .ledgerReadSelect _ | .rekeyWindowClose | .challengeExpiry | .lockoutEnd =>
      [.ledger]
  | .hmbReady | .clearRequest _ =>
      [.out, .ledger, .host]
  | .keyWordWrite _ _ =>
      [.out, .regs, .mram, .ledger, .host, .watch]
  | .clearSubmit _ | .clearDone =>
      [.out, .mram, .ledger, .host, .watch]
  | .ponSSave =>
      [.mram]
  | .registerWrite _ _ _ _ =>
      [.out, .regs, .mram, .ctx0, .ctx1, .ledger, .tele, .host]
  | .bar2Access _ _ =>
      [.out, .hbm, .ctx0, .ctx1, .chans, .host]
  | .hostApertureWrite _ | .apertureApply | .perstRelease _ =>
      [.host]
  | .activate _ =>
      [.out, .regs, .hbm, .mram, .ctx0, .ctx1, .chans, .ledger, .host, .watch]
  | .perstAssert _ =>
      [.out, .regs, .hbm, .ctx0, .ctx1, .chans, .ledger, .host, .watch]
  | .bootVerify _ _ =>
      [.free, .out, .hbm, .store, .dev, .mram, .ctx0, .ctx1,
       .squads, .chans, .links, .net, .ledger, .tele, .host, .watch]
  | .startup | .sysResetNAssert _ | .vinUndervoltage _ | .vinOvervoltage _ | .thermalTrip _ | .thermtripRelease =>
      [.out, .regs, .latchA, .latchB, .hbm, .store, .clk, .dev, .mram, .ctx0,
       .ctx1, .squads, .chans, .links, .net, .ledger, .tele, .host, .pwr, .watch, .flightSeq]
  | .vinOutOfRange _ | .capStepDown _ | .railOvercurrentEnd _ _ =>
      [.out, .ledger, .host, .pwr, .watch]
  | .capStepUp _ | .railOvercurrent _ _ _ | .thermalStepDown _ | .thermalStepUp _ =>
      [.pwr]
  | .cclkChange =>
      [.out, .clk, .host, .watch]
  | .thermalTripWarning _ =>
      [.out, .dev, .ctx0, .ctx1, .squads, .chans, .ledger, .host, .pwr, .watch]
  | .wpHeartbeat | .wpAlertClear _ =>
      [.watch]
  | .wpRead _ =>
      [.free, .out, .pwr]
  | .bypass | .idcode | .clampIr | .highz =>
      [.out, .jtag]
  | .samplePreload | .extest | .extestPulse | .extestTrain =>
      [.free, .out, .jtag]
  | .stack1500 _ | .trstNReset =>
      [.jtag]
  | .smbThermal | .smbPower =>
      [.free, .out]
  | .smbLedgSel _ =>
      [.smbSlot]
  | .auxRailLoss =>
      [.out, .regs, .latchA, .latchB, .hbm, .store, .clk, .dev, .mram, .ctx0, .ctx1,
       .squads, .chans, .links, .net, .ledger, .tele, .host, .pwr, .watch, .jtag, .smbSlot, .flightSeq]
  | .registerRead _ _ _ =>
      [.free, .out, .latchA, .latchB, .pwr]
  | .hostPortLinkChange _ _ =>
      [.out, .host]

end Sys2Proof.Machine
end

