-- ==== Sys2Proof/Certificates/Slice0/Obligations.lean ====
section
/-! DEFINITION. The statements for the provers, one def of the namespace of obligations each, with the predicates they are written in. -/

open Sys2Proof Sys2Proof.Machine

/-! ## The queue, reset and what holds of every command -/

/-- A step takes the command at the front of the queue and is exec of it on the queue's rest. -/
def Obligations.StepRunsFrontCommand : Prop :=
  ∀ (c : Instr) (r : List Instr) (s : State), step (s.setPending (c :: r)) = exec c (s.setPending r)

/-- On an empty queue one nanosecond passes (log 6, the model's choice): the local time base advances while its clock is locked, the links may send, and the
memories, the registers, everything logged and the device's mode stay; a device that is Dark or has lost its base clock counts in the aux domain alone. -/
def Obligations.EmptyQueuePassesTime : Prop :=
  ∀ s : State, s.pending = [] →
    ∃ t, step s = .next t ∧ t.pending = [] ∧ Only [.clk, .dev, .ctx0, .ctx1, .chans, .links, .net, .out] s t ∧ t.dev.mode = s.dev.mode ∧
      (s.alive = false ∨ s.clk.baseLock = false → Only [.dev] s t) ∧
      (s.alive = true → s.clk.baseLock = true → t.clk.ltb = s.clk.ltb + 1)

/-- The state after reset: Dark and not started up, nothing waiting, nothing listed in either memory, both contexts not started, every queue
empty and its halt clear, the ledger empty with its fatal region free, the UPD state at its reset values, the sequences at zero. -/
def Obligations.ResetState : Prop :=
  MemOk State.reset ∧ State.reset.pending = [] ∧ State.reset.hbm = [] ∧ State.reset.store = [] ∧
    State.reset.dev.mode = .dark ∧ State.reset.dev.step = 0 ∧ State.reset.ctx0.started = false ∧ State.reset.ctx1.started = false ∧
    (∀ n q, ((State.reset.ctx n).queue q).count = 0 ∧ ((State.reset.ctx n).queue q).halt = .none) ∧
    (∀ n f, (State.reset.ctx n).flag f = false) ∧
    State.reset.ledger.head.toNat = 0 ∧ State.reset.ledger.fatalFree = 8192 ∧ State.reset.clk.known = false ∧
    (∀ a, State.reset.rg a = regReset a) ∧ State.reset.smbSlot = 0

/-- No command ends in a fault, and only a register write refuses: where it would write a reserved field other than zero, which the spec forbids. -/
def Obligations.OnlyReservedWritesStop : Prop :=
  ∀ (c : Instr) (s : State),
    (∃ t, exec c s = .next t) ∨
      (exec c s = .refused .reservedFieldWritten ∧
        ∃ port a wide v, c = .registerWrite port a wide v ∧ aligned a wide = true ∧ s.portReaches port a = true ∧ s.writeWords a v.toNat wide = none)

/-- No command touches the commands that wait behind it. -/
def Obligations.CommandsLeaveTheQueue : Prop :=
  ∀ (c : Instr) (s t : State), exec c s = .next t → t.pending = s.pending

/-- The memories' canonical form is an invariant of every step: a command, or a nanosecond on an empty queue. -/
def Obligations.StepKeepsMemoryForm : Prop :=
  ∀ s t : State, MemOk s → step s = .next t → MemOk t

/-- The frame of every command: the parts of the state outside its footprint are as they were. -/
def Obligations.CommandsKeepTheirFootprint : Prop :=
  ∀ (c : Instr) (s t : State), exec c s = .next t → Only (footprint c) s t

/-! ## Walk programs and pass queues -/

namespace Sys2Proof.Machine

/-- What a register keeps of a value: LOOP_COUNT registers hold 32 bits (R117). -/
def regKept : WReg → W64 → W64
  | .count _, v => (v.truncate 32).zeroExtend 64
  | _, v => v

/-- The registers an instruction may write: LOOP_REMAIN and LOOP_INDEX are not writable (R117). -/
def regWritable : WReg → Bool
  | .g _ | .count _ => true
  | .remain _ | .index _ => false

/-- Walker w of squad sq, which stood at k, has executed one scalar instruction that gives register d the value v: the walker is at the next
instruction, d reads what it keeps of v, every other register reads as before and nothing else of the walker or of the device has changed;
a write to LOOP_REMAIN or LOOP_INDEX is a walk-program sanity fault instead. -/
def ScalarDone (s : State) (sq w : Nat) (k : Walker) (d : WReg) (v : W64) (r : Res) : Prop :=
  if regWritable d then
    ∃ g count, r = .next (s.setWalker sq w { k with g := g, count := count, pc := k.pc + 1 }) ∧
      ({ k with g := g, count := count } : Walker).rd d = regKept d v ∧
      ∀ e, e ≠ d → ({ k with g := g, count := count } : Walker).rd e = k.rd e
  else r = .next (s.walkSanity sq w)

end Sys2Proof.Machine

/-- The scalar instructions of a walk program and ARG, with each one's result modulo 2^64. -/
def Obligations.WalkScalarsWriteTheirResult : Prop :=
  ∀ (s : State) (sq w : Nat) (k : Walker) (d a b : WReg),
    (s.curWalk sq w = some (k, .add d a b) → ScalarDone s sq w k d (k.rd a + k.rd b) (exec (.walkAdd sq w) s)) ∧
    (s.curWalk sq w = some (k, .sub d a b) → ScalarDone s sq w k d (k.rd a - k.rd b) (exec (.walkSub sq w) s)) ∧
    (s.curWalk sq w = some (k, .mul d a b) → ScalarDone s sq w k d (k.rd a * k.rd b) (exec (.walkMul sq w) s)) ∧
    (s.curWalk sq w = some (k, .and d a b) → ScalarDone s sq w k d (k.rd a &&& k.rd b) (exec (.walkAnd sq w) s)) ∧
    (s.curWalk sq w = some (k, .or d a b) → ScalarDone s sq w k d (k.rd a ||| k.rd b) (exec (.walkOr sq w) s)) ∧
    (s.curWalk sq w = some (k, .xor d a b) → ScalarDone s sq w k d (k.rd a ^^^ k.rd b) (exec (.walkXor sq w) s)) ∧
    (s.curWalk sq w = some (k, .shl d a b) → (k.rd b).toNat < 64 → ScalarDone s sq w k d (k.rd a <<< (k.rd b).toNat) (exec (.walkShl sq w) s)) ∧
    (s.curWalk sq w = some (k, .shr d a b) → (k.rd b).toNat < 64 → ScalarDone s sq w k d (k.rd a >>> (k.rd b).toNat) (exec (.walkShr sq w) s)) ∧
    (s.curWalk sq w = some (k, .shl d a b) → 64 ≤ (k.rd b).toNat → ∃ v, ScalarDone s sq w k d v (exec (.walkShl sq w) s)) ∧
    (s.curWalk sq w = some (k, .shr d a b) → 64 ≤ (k.rd b).toNat → ∃ v, ScalarDone s sq w k d v (exec (.walkShr sq w) s)) ∧
    (s.curWalk sq w = some (k, .min d a b) →
      ScalarDone s sq w k d (if (k.rd a).toNat ≤ (k.rd b).toNat then k.rd a else k.rd b) (exec (.walkMin sq w) s)) ∧
    (s.curWalk sq w = some (k, .max d a b) →
      ScalarDone s sq w k d (if (k.rd a).toNat ≤ (k.rd b).toNat then k.rd b else k.rd a) (exec (.walkMax sq w) s)) ∧
    (∀ r, s.curWalk sq w = some (k, .cmp r d a b) → ScalarDone s sq w k d (if walkRel r (k.rd a) (k.rd b) then 1 else 0) (exec (.walkCmp sq w) s)) ∧
    (∀ c, s.curWalk sq w = some (k, .sel d c a b) → ScalarDone s sq w k d (if k.rd c = 0 then k.rd b else k.rd a) (exec (.walkSel sq w) s)) ∧
    (s.curWalk sq w = some (k, .mov d a) → ScalarDone s sq w k d (k.rd a) (exec (.walkMov sq w) s)) ∧
    (∀ v, s.curWalk sq w = some (k, .movi d v) → ScalarDone s sq w k d v (exec (.walkMovi sq w) s)) ∧
    (∀ i v, s.curWalk sq w = some (k, .arg d i) → k.args[i]? = some v → ScalarDone s sq w k d v (exec (.walkArg sq w) s)) ∧
    (∀ i, s.curWalk sq w = some (k, .arg d i) → k.args[i]? = none →
      ∃ v, ScalarDone (s.setFree (s.free + 1)) sq w k d v (exec (.walkArg sq w) s))

/-- R118: LOOP latches the count last written, a count of 0 skips the body, ENDLOOP counts down and returns to the body's first instruction or leaves the level
inactive, and a write to the level's LOOP_COUNT changes neither LOOP_REMAIN nor the iteration and reads back. -/
def Obligations.WalkLoopsLatchTheirCount : Prop :=
  ∀ (s : State) (sq w l : Nat) (k : Walker),
    (s.curWalk sq w = some (k, .loop l) → tget 0 k.count l ≠ 0 →
      exec (.walkLoop sq w) s = .next (s.setWalker sq w
        { k with remain := tset 0 k.remain l (tget 0 k.count l), index := tset 0 k.index l 0, pc := k.pc + 1 })) ∧
    (s.curWalk sq w = some (k, .loop l) → tget 0 k.count l = 0 → ∀ e, k.pc < e → k.code[e]? = some (.endloop l) →
      (∀ j, k.pc < j → j < e → k.code[j]? ≠ some (.endloop l)) →
      exec (.walkLoop sq w) s = .next (s.setWalker sq w { k with pc := e + 1 })) ∧
    (s.curWalk sq w = some (k, .endloop l) → tget 0 k.remain l = 1 →
      exec (.walkEndloop sq w) s = .next (s.setWalker sq w
        { k with remain := tset 0 k.remain l 0, index := tset 0 k.index l 0, pc := k.pc + 1 })) ∧
    (s.curWalk sq w = some (k, .endloop l) → tget 0 k.remain l ≠ 1 → ∀ b, b < k.pc → k.code[b]? = some (.loop l) →
      (∀ j, b < j → j < k.pc → k.code[j]? ≠ some (.loop l)) →
      exec (.walkEndloop sq w) s = .next (s.setWalker sq w
        { k with remain := tset 0 k.remain l (tget 0 k.remain l - 1), index := tset 0 k.index l (tget 0 k.index l + 1), pc := b + 1 })) ∧
    (∀ v, s.curWalk sq w = some (k, .movi (.count l) v) → ∃ k', exec (.walkMovi sq w) s = .next (s.setWalker sq w k') ∧ k'.remain = k.remain ∧
      k'.index = k.index ∧ k'.rd (.count l) = (v.truncate 32).zeroExtend 64) ∧
    (({ k with remain := tset 0 k.remain l (tget 0 k.count l), index := tset 0 k.index l 0, pc := k.pc + 1 } : Walker).rd (.remain l) = k.rd (.count l))

/-- BR, BRC and END: the branch target, the fall through, and the walker that ends its item and takes the next one dealt. EMIT: a record in the footprint enters
the FIFO behind those there; with 32 there the walker waits; a record outside the footprint is a sanity fault and is not emitted. -/
def Obligations.WalkBranchesAndEmits : Prop :=
  (∀ (s : State) (sq w : Nat) (k : Walker),
      (∀ p, s.curWalk sq w = some (k, .br p) → exec (.walkBr sq w) s = .next (s.setWalker sq w { k with pc := p })) ∧
      (∀ c p, s.curWalk sq w = some (k, .brc c p) → k.rd c ≠ 0 → exec (.walkBrc sq w) s = .next (s.setWalker sq w { k with pc := p })) ∧
      (∀ c p, s.curWalk sq w = some (k, .brc c p) → k.rd c = 0 → exec (.walkBrc sq w) s = .next (s.setWalker sq w { k with pc := k.pc + 1 })) ∧
      (s.curWalk sq w = some (k, .done) → k.next = [] → exec (.walkEnd sq w) s = .next (s.setWalker sq w { k with state := .ended })) ∧
      (∀ j r, s.curWalk sq w = some (k, .done) → k.next = j :: r →
        ∃ k', exec (.walkEnd sq w) s = .next (s.setWalker sq w k') ∧ k'.ctx = j.ctx ∧ k'.seq = j.seq ∧ k'.item = j.item ∧ k'.code = j.code ∧
          k'.args = j.args ∧ k'.fp = j.fp ∧ k'.pc = 0 ∧ k'.state = .running ∧ k'.next = r ∧ (∀ d, k'.rd d = 0))) ∧
  (∀ (s : State) (sq w : Nat) (k : Walker) (write : Bool) (a l x : WReg) (tg : WTarget) (part : Nat) (y : EmitArgs),
      s.curWalk sq w = some (k, .emit write a l x tg part y) →
        (s.emitOk sq w k write (k.rd a) (k.rd l) (k.rd x) tg part = true → (tget [] (s.squad sq).fifo w).length < 32 →
          ∃ t rec, exec (.walkEmit sq w) s = .next t ∧ tget [] (t.squad sq).fifo w = tget [] (s.squad sq).fifo w ++ [rec] ∧
            rec.addr = k.rd a ∧ rec.len = k.rd l ∧ rec.aux = k.rd x ∧ rec.write = write ∧ rec.part = part ∧ rec.ctx = k.ctx ∧ rec.seq = k.seq ∧
            rec.pool = (match tg with | .mem => none | .pool p h => some (p, (k.rd h).toNat)) ∧ rec.x = y ∧ rec.item = k.item ∧
            rec.index = y.index.map k.rd ∧ rec.stat = y.stat.map k.rd ∧
            rec.note = (match y.note with | some r => (k.rd r).truncate 32 | none => 0) ∧
            tget Walker.reset (t.squad sq).walkers w = { k with pc := k.pc + 1, state := .running } ∧
            (∀ v, v ≠ w → tget [] (t.squad sq).fifo v = tget [] (s.squad sq).fifo v ∧
              tget Walker.reset (t.squad sq).walkers v = tget Walker.reset (s.squad sq).walkers v) ∧
            (∀ m, m ≠ sq → t.squad m = s.squad m) ∧ Only [.squads] s t) ∧
        (s.emitOk sq w k write (k.rd a) (k.rd l) (k.rd x) tg part = true → 32 ≤ (tget [] (s.squad sq).fifo w).length →
          exec (.walkEmit sq w) s = .next (s.setWalker sq w { k with state := .fifoFull })) ∧
        (s.emitOk sq w k write (k.rd a) (k.rd l) (k.rd x) tg part = false → exec (.walkEmit sq w) s = .next (s.walkSanity sq w)))

/-- ATTACH, DETACH, ACQUIRE and RELEASE: the grant conditions of R124 written out, the wait where they fail, what each does to its pool, and the grant to a
waiting walker, which goes on as if its instruction had been granted at once; the stream whose shared request was granted last is remembered. -/
def Obligations.PoolsGrantByTheirRule : Prop :=
  (∀ (s : State) (sq w p id : Nat) (k : Walker) (pl : Pool), s.pool sq k.ctx p = some pl →
      (∀ rr cc part, s.curWalk sq w = some (k, .attach p id rr cc part) →
        (pl.streams.map (·.reserve)).sum + (k.rd rr).toNat ≤ pl.plan.buffers → 2 ≤ (k.rd rr).toNat → (k.rd rr).toNat ≤ (k.rd cc).toNat →
        (k.rd cc).toNat ≤ pl.plan.buffers →
        ((k.rd rr).toNat + (pl.streams.map fun t => t.reserve - t.charged.length).sum ≤ pl.free.length → pl.streams.length < 8 →
          pl.stream id = none →
          exec (.walkAttach sq w) s = .next ((s.setPool sq k.ctx p { pl with streams := pl.streams ++
            [{ id := id, ctx := k.ctx, seq := k.seq, item := k.item, queue := k.queue, ahead := k.ahead, reserve := (k.rd rr).toNat,
               ceiling := (k.rd cc).toNat, charged := [], part := part }] }).setWalker sq w k.adv)) ∧
        (pl.free.length < (k.rd rr).toNat + (pl.streams.map fun t => t.reserve - t.charged.length).sum ∨ 8 ≤ pl.streams.length ∨
            (∃ t, pl.stream id = some t) →
          exec (.walkAttach sq w) s = .next (s.setWalker sq w { k with state := .attach p id (k.rd rr).toNat (k.rd cc).toNat part }))) ∧
      (∀ rr cc part, s.curWalk sq w = some (k, .attach p id rr cc part) →
        pl.plan.buffers < (pl.streams.map (·.reserve)).sum + (k.rd rr).toNat ∨ (k.rd rr).toNat < 2 ∨ (k.rd cc).toNat < (k.rd rr).toNat ∨
          pl.plan.buffers < (k.rd cc).toNat →
        exec (.walkAttach sq w) s = .next (s.walkSanity sq w)) ∧
      (∀ t, s.curWalk sq w = some (k, .detach p id) → pl.stream id = some t →
        (t.charged = [] → exec (.walkDetach sq w) s = .next ((s.setPool sq k.ctx p (pl.detach id)).setWalker sq w k.adv)) ∧
        (t.charged ≠ [] → exec (.walkDetach sq w) s = .next (s.setWalker sq w { k with state := .detach p id }))) ∧
      (∀ t d h r, s.curWalk sq w = some (k, .acquire p id d) → pl.stream id = some t → pl.free = h :: r →
        (t.charged.length < t.reserve ∨
          (t.charged.length < t.ceiling ∧ ((pl.streams.filter (·.id ≠ id)).map fun u => u.reserve - u.charged.length).sum < pl.free.length) →
          ScalarDone (s.setPool sq k.ctx p { pl with free := r, last := if t.charged.length < t.reserve then pl.last else id,
                                                     streams := pl.streams.map fun u => if u.id = id then { u with charged := u.charged ++ [h] } else u })
            sq w { k with state := .running } d (BitVec.ofNat 64 h) (exec (.walkAcquire sq w) s))) ∧
      (∀ t d, s.curWalk sq w = some (k, .acquire p id d) → pl.stream id = some t →
        pl.free = [] ∨ (t.reserve ≤ t.charged.length ∧
          (t.ceiling ≤ t.charged.length ∨ pl.free.length ≤ ((pl.streams.filter (·.id ≠ id)).map fun u => u.reserve - u.charged.length).sum)) →
        exec (.walkAcquire sq w) s = .next (s.setWalker sq w { k with state := .acquire p id d })) ∧
      (∀ hr, s.curWalk sq w = some (k, .release p hr) → ∃ pl',
        exec (.walkRelease sq w) s = .next ((s.setPool sq k.ctx p pl').setWalker sq w k.adv) ∧
        (∀ t, t ∈ pl'.streams → (k.rd hr).toNat ∉ t.charged) ∧
        ((∃ t, t ∈ pl.streams ∧ (k.rd hr).toNat ∈ t.charged) → (k.rd hr).toNat ∈ pl'.free) ∧ (∀ h, h ∈ pl.free → h ∈ pl'.free))) ∧
  (∀ (s : State) (sq n p w : Nat) (k : Walker) (pl : Pool), s.pool sq n p = some pl → pl.nextWaiter n p (s.squad sq).walkers = some (w, k) →
      k.ctx = n ∧
      (∀ id r c part, k.state = .attach p id r c part →
        pl.canAttach id r = true ∧
        (pl.badAttach r c = false → exec (.poolGrant sq n p) s =
          .next ((s.setPool sq n p (pl.attach k id r c part)).setWalker sq w { k.adv with state := .running }))) ∧
      (∀ id d, k.state = .acquire p id d →
        (∃ t, pl.stream id = some t ∧ pl.canAcquire t = true) ∧
        exec (.poolGrant sq n p) s = .next (s.giveHandle sq w p id pl d k)) ∧
      (∀ id, k.state = .detach p id →
        (∃ t, pl.stream id = some t ∧ t.charged = []) ∧
        exec (.poolGrant sq n p) s = .next ((s.setPool sq n p (pl.detach id)).setWalker sq w { k.adv with state := .running })))

/-- PUSH and POP: first in, first out; a POP on an empty queue waits and takes the entry that comes; a queue not bound to the walker and a register that cannot
be written are a sanity fault that leaves the entry. -/
def Obligations.PassQueuesAreFirstInFirstOut : Prop :=
  ∀ (s : State) (sq w q : Nat) (k : Walker) (v : PassQ) (h note : WReg), s.passQ sq k.ctx q = some v →
    (s.curWalk sq w = some (k, .push q h note) → v.plan.producer = .walker w →
      exec (.walkPush sq w) s = .next ((s.setPassQ sq k.ctx q
        { v with entries := v.entries ++ [((k.rd h).toNat, (k.rd note).truncate 32)] }).setWalker sq w k.adv)) ∧
    (s.curWalk sq w = some (k, .push q h note) → v.plan.producer ≠ .walker w → exec (.walkPush sq w) s = .next (s.walkSanity sq w)) ∧
    (s.curWalk sq w = some (k, .pop q h note) → v.plan.consumer ≠ .walker w → exec (.walkPop sq w) s = .next (s.walkSanity sq w)) ∧
    (s.curWalk sq w = some (k, .pop q h note) → v.plan.consumer = .walker w → v.entries = [] →
      exec (.walkPop sq w) s = .next (s.setWalker sq w { k with state := .pop q h note })) ∧
    (∀ e r, v.entries = e :: r → regWritable h = false ∨ regWritable note = false →
      (s.curWalk sq w = some (k, .pop q h note) → v.plan.consumer = .walker w → exec (.walkPop sq w) s = .next (s.walkSanity sq w)) ∧
      (popWaiter (s.squad sq).walkers k.ctx q = some (w, k, h, note) → exec (.popWake sq k.ctx q) s = .next (s.walkSanity sq w))) ∧
    (∀ e r, v.entries = e :: r → regWritable h = true → regWritable note = true →
      (s.curWalk sq w = some (k, .pop q h note) ∧ v.plan.consumer = .walker w →
        ∃ g count, exec (.walkPop sq w) s =
            .next ((s.setPassQ sq k.ctx q { v with entries := r }).setWalker sq w { k with g := g, count := count, pc := k.pc + 1, state := .running }) ∧
          (h ≠ note → ({ k with g := g, count := count } : Walker).rd h = regKept h (BitVec.ofNat 64 e.1)) ∧
          ({ k with g := g, count := count } : Walker).rd note = e.2.zeroExtend 64 ∧
          ∀ x, x ≠ h → x ≠ note → ({ k with g := g, count := count } : Walker).rd x = k.rd x) ∧
      (popWaiter (s.squad sq).walkers k.ctx q = some (w, k, h, note) →
        ∃ g count, exec (.popWake sq k.ctx q) s =
            .next ((s.setPassQ sq k.ctx q { v with entries := r }).setWalker sq w { k with g := g, count := count, pc := k.pc + 1, state := .running }) ∧
          (h ≠ note → ({ k with g := g, count := count } : Walker).rd h = regKept h (BitVec.ofNat 64 e.1)) ∧
          ({ k with g := g, count := count } : Walker).rd note = e.2.zeroExtend 64 ∧
          ∀ x, x ≠ h → x ≠ note → ({ k with g := g, count := count } : Walker).rd x = k.rd x))

/-- The invariant of R124: the free handles cover every attached stream's unfilled reserve; ATTACH under its condition, a grant, a RELEASE of a
charged handle and a DETACH of a stream without handles all keep it. -/
def Obligations.PoolReservesStayCovered : Prop :=
  ∀ (pl : Pool), pl.deficits ≤ pl.free.length →
    (∀ k id r c part, pl.canAttach id r = true → (pl.attach k id r c part).deficits ≤ (pl.attach k id r c part).free.length) ∧
    (∀ t, pl.stream t.id = some t → (pl.streams.map (·.id)).Nodup → pl.canAcquire t = true →
      (pl.acquire t.id).deficits ≤ (pl.acquire t.id).free.length) ∧
    (∀ h, (pl.streams.flatMap (·.charged)).Nodup → h ∉ pl.free →
      (pl.release h).deficits ≤ (pl.release h).free.length) ∧
    (∀ id, (pl.detach id).deficits ≤ (pl.detach id).free.length)

/-- The walk library: one whose programs pass the load check is taken once no queued or in-flight descriptor of the context uses a program,
and waits until then; one that fails the check changes nothing. -/
def Obligations.WalkLibraryIsChecked : Prop :=
  ∀ (s : State) (n : Nat) (r : WalkLib),
    (walkLibOk r = true → (s.ctx n).libInUse = false → exec (.walkLibraryLoad n r) s = .next (s.takeLib n r) ∧ ((s.takeLib n r).ctx n).walkLib = r) ∧
    (walkLibOk r = true → (s.ctx n).libInUse = true →
      exec (.walkLibraryLoad n r) s = .next (s.modCtx n fun c => { c with libWait := c.libWait ++ [r] })) ∧
    (walkLibOk r = false → exec (.walkLibraryLoad n r) s = .next s) ∧
    (walkLibOk r = true → ∀ e, e ∈ r.programs → e.1 < 1024 ∧ e.2.length ≤ 1024)

/-! ## Update programs -/

namespace Sys2Proof.Machine

/-- The source that reads what a destination was given (R266). -/
def dstSource : UDst → USrc
  | .x n => .x n
  | .wOut => .wOut
  | .m1Out => .m1Out
  | .m2Out => .m2Out

/-- Run u of squad sq has executed one instruction that gives destination d of each lane the value f of that lane: within the program the run is at the next
instruction with every lane so changed; at the program's last instruction the lanes so changed are done and the run begins the lanes behind them at the program's
first instruction. Nothing else of the device has changed. -/
def UpdDone (s : State) (sq : Nat) (u : UpdRun) (d : UDst) (f : Lane → Word) (r : Res) : Prop :=
  ∃ t x, r = .next t ∧ (t.squad sq).upe = some x ∧ x.ctx = u.ctx ∧ x.seq = u.seq ∧ x.block = u.block ∧ x.prog = u.prog ∧
    (∀ p, tfind (s.ctx u.ctx).updProgs u.prog = some p → u.pc + 1 < p.code.length →
      x.pc = u.pc + 1 ∧ x.first = u.first ∧ x.done = u.done ∧ x.lanes.length = u.lanes.length ∧
        ∀ (i : Nat) (l : Lane), u.lanes[i]? = some l → x.lanes[i]? = some (l.put d (f l))) ∧
    (∀ p, tfind (s.ctx u.ctx).updProgs u.prog = some p → p.code.length ≤ u.pc + 1 →
      x.pc = 0 ∧ x.first = u.first + u.lanes.length ∧ x.done.length = u.done.length + u.lanes.length ∧
        (∀ (i : Nat) (l : Lane), u.done[i]? = some l → x.done[i]? = some l) ∧
        ∀ (i : Nat) (l : Lane), u.lanes[i]? = some l → x.done[u.done.length + i]? = some (l.put d (f l))) ∧
    (∀ k, k ≠ sq → t.squad k = s.squad k) ∧ (t.squad sq).arr = (s.squad sq).arr ∧ Only [.squads] s t

end Sys2Proof.Machine

/-- The update engine's twelve operations: each lane's destination takes the operation's result on that lane's own sources, every lane keeps
everything else, and the run goes on to the next instruction; at the program's end it goes on to the block's next lanes. -/
def Obligations.UpdateOperationsPutLanes : Prop :=
  (∀ (s : State) (sq : Nat) (u : UpdRun) (v : UpdEnv) (d : UDst) (a b c : USrc),
    (s.updCur sq = some (u, v, .add d a b) → UpdDone s sq u d (fun l => fAdd (v.src l a) (v.src l b)) (exec (.updAdd sq) s)) ∧
    (s.updCur sq = some (u, v, .sub d a b) → UpdDone s sq u d (fun l => fSub (v.src l a) (v.src l b)) (exec (.updSub sq) s)) ∧
    (s.updCur sq = some (u, v, .mul d a b) → UpdDone s sq u d (fun l => fMul (v.src l a) (v.src l b)) (exec (.updMul sq) s)) ∧
    (s.updCur sq = some (u, v, .fma d a b c) → UpdDone s sq u d (fun l => fFma (v.src l a) (v.src l b) (v.src l c)) (exec (.updFma sq) s)) ∧
    (s.updCur sq = some (u, v, .sqrt d a) → UpdDone s sq u d (fun l => fSqrt (v.src l a)) (exec (.updSqrt sq) s)) ∧
    (s.updCur sq = some (u, v, .rsqrt d a) → UpdDone s sq u d (fun l => fRsqrt (v.src l a)) (exec (.updRsqrt sq) s)) ∧
    (s.updCur sq = some (u, v, .max d a b) → UpdDone s sq u d (fun l => fMax (v.src l a) (v.src l b)) (exec (.updMax sq) s)) ∧
    (s.updCur sq = some (u, v, .min d a b) → UpdDone s sq u d (fun l => fMin (v.src l a) (v.src l b)) (exec (.updMin sq) s)) ∧
    (s.updCur sq = some (u, v, .abs d a) → UpdDone s sq u d (fun l => fAbs (v.src l a)) (exec (.updAbs sq) s)) ∧
    (s.updCur sq = some (u, v, .sel d c a b) → UpdDone s sq u d (fun l => fSel (v.src l c) (v.src l a) (v.src l b)) (exec (.updSel sq) s)) ∧
    (s.updCur sq = some (u, v, .clamp d a b c) → UpdDone s sq u d (fun l => fClamp (v.src l a) (v.src l b) (v.src l c)) (exec (.updClamp sq) s)) ∧
    (∀ n, s.updCur sq = some (u, v, .scl d a n) → UpdDone s sq u d (fun l => fScl (v.src l a) n) (exec (.updScl sq) s))) ∧
  (∀ (v : UpdEnv) (l : Lane) (d : UDst) (x : Word), v.src (l.put d x) (dstSource d) = x ∧
    (∀ a, a ≠ dstSource d → v.src (l.put d x) a = v.src l a))

/-! ## The array -/

/-- A work item is dealt to a free array: it takes the slots found for it, which start at zero, the array reloads where its accumulator format changes, and the
item's walkers start; a reload clears the slots and takes the front item's format; the issue of one cycle's k-steps pops the feeders' records at a work
item's first sub-block and touches no other squad, and is the squad's fault instead where an operand cannot be read. -/
def Obligations.ArraysTakeAndRunTheirItems : Prop :=
  (∀ (s : State) (sq n idx : Nat) (m m' : MatOp) (d : Descriptor) (slots : List Nat) (it : Item),
      (s.squad sq).fenced = false → (s.squad sq).arr.allIssued = true → s.dealing = some (n, m) → (s.ctx n).matDesc m = some d →
        m.take s.unfenced sq = some (idx, m') → ((s.squad sq).arr.fmt = d.accFmt ∨ ((s.squad sq).arr.items = [] ∧ (s.squad sq).arr.reload = 0)) →
        (s.squad sq).arr.freeSet d.shape d.accFmt d.accSet = some slots → m.item n d.shape slots idx = some it →
        ∃ t, exec (.workItemDeal sq) s = .next t ∧
          t = ((s.setMat n m').giveItem sq it d.accFmt).startWalkers sq n m.seq idx (idx / m.parts) it.group it.part it.stage ∧
          (t.squad sq).arr.items = (s.squad sq).arr.items ++ [it] ∧
          (t.squad sq).arr.reload = (if (s.squad sq).arr.fmt = d.accFmt then (s.squad sq).arr.reload else 16) ∧
          (∀ k, k ∈ it.slots → tget Slot.zero (t.squad sq).arr.slots k = Slot.zero) ∧
          (∀ k, k ≠ sq → t.squad k = s.squad k)) ∧
  (∀ (s : State) (sq : Nat),
      ((s.squad sq).arr.reload ≠ 0 →
        (∀ it f, (s.squad sq).arr.items.head? = some it → (s.ctx it.ctx).fl it.seq = some f →
          exec (.reload sq) s = .next (s.modSquad sq fun q => { q with arr := { q.arr with reload := 0, slots := [], fmt := f.desc.accFmt } })) ∧
        ((s.squad sq).arr.items = [] →
          exec (.reload sq) s = .next (s.modSquad sq fun q => { q with arr := { q.arr with reload := 0, slots := [] } }))) ∧
      (∀ it, (s.squad sq).arr.current = some it → (s.squad sq).fenced = false → s.working it.ctx = true → (s.squad sq).arr.reload = 0 →
        it.atStageEnd = false →
        (∀ m d, s.matOf it = some (m, d) → s.cycleFail it = none → (s.squad sq).portReady 1 = true → (s.squad sq).portReady 2 = true →
          ∃ t, exec (.kStepIssue sq) s = .next t ∧ s.issueCycle sq it = some t ∧
            ((t.squad sq).fifo = (s.squad sq).fifo ∨ (t.squad sq).fifo = (((s.squad sq).takeRec 1).takeRec 2).fifo) ∧
            ∀ k, k ≠ sq → t.squad k = s.squad k) ∧
        (∀ q e, s.cycleFail it = some (q, e) → exec (.kStepIssue sq) s = .next (s.engineFault it.ctx sq q 0x01 e false))))

/-- Closing: a stage closes all the item's slots into their latches, an emptied latch adds its value as a rung of height 0, two
neighbouring rungs of one height become one rung of the next, a tile that drains combines its own rungs in its own format, and a finished item starts its
drain. -/
def Obligations.ArrayClosesAndDrains : Prop :=
  ∀ (s : State) (sq : Nat),
    (∀ it m d, (s.squad sq).arr.items.find? (fun i => i.atStageEnd && decide (i.kPos < i.kHi)) = some it → s.matOf it = some (m, d) →
      s.working it.ctx = true →
      ((s.closeAll m d it (s.squad sq).arr).latched it = false →
        exec (.stageClose sq) s = .next (s.modSquad sq fun q => { q with arr := (s.closeAll m d it (s.squad sq).arr).closeStage it })) ∧
      ((s.closeAll m d it (s.squad sq).arr).latched it = true → exec (.stageClose sq) s = .next s)) ∧
    (∀ slot st cells, tfind (s.squad sq).arr.latch slot = some (st, cells) →
      ∃ t, exec (.closeLatchEmpty sq slot) s = .next t ∧ tfind (t.squad sq).arr.latch slot = none ∧
        (t.squad sq).arr.rungs = (s.squad sq).arr.rungs ++ [{ slot := slot, level := 0, first := st, cells := cells }] ∧
        (∀ k, k ≠ slot → tfind (t.squad sq).arr.latch k = tfind (s.squad sq).arr.latch k) ∧
        (t.squad sq).arr.slots = (s.squad sq).arr.slots ∧ (t.squad sq).arr.items = (s.squad sq).arr.items ∧ Only [.squads] s t) ∧
    (∀ slot l, (s.squad sq).arr.drain = none → combineRungs (s.squad sq).arr.fmt slot (s.squad sq).arr.rungs = some l →
      exec (.rungCombine sq slot) s = .next (s.modSquad sq fun q => { q with arr := { q.arr with rungs := l } }) ∧
      ∃ x y, x ∈ (s.squad sq).arr.rungs ∧ y ∈ (s.squad sq).arr.rungs ∧ x.slot = slot ∧ y.slot = slot ∧ x.level = y.level ∧
        y.first = x.first + 2 ^ x.level ∧ x.first % 2 ^ (x.level + 1) = 0 ∧
        l = (((s.squad sq).arr.rungs.erase x).erase y) ++
          [{ slot := slot, level := x.level + 1, first := x.first, cells := addCells (s.squad sq).arr.fmt x.cells y.cells }]) ∧
    (∀ slot dr dr', (s.squad sq).arr.drain = some dr → s.working dr.item.ctx = true → dr.combine slot = some dr' →
      exec (.rungCombine sq slot) s = .next (s.modSquad sq fun q => { q with arr := { q.arr with drain := some dr' } }) ∧ dr'.fmt = dr.fmt) ∧
    (∀ it m d errs, (s.squad sq).arr.items.find? (fun i => decide (i.kHi ≤ i.kPos)) = some it → (s.squad sq).arr.drain = none →
      (s.squad sq).arr.reload = 0 → s.working it.ctx = true → (s.squad sq).portReady 3 = true →
      it.slots.any (fun k => (tfind (s.squad sq).arr.latch k).isSome) = false → s.matOf it = some (m, d) →
      exec (.drainStart sq errs) s =
        .next (s.modSquad sq fun q => ({ q with arr := (s.closeAll m d it (s.squad sq).arr).startDrain it errs }).takeRec 3))

/-- The tile check: a drained tile whose row and column checks all pass is committed or ends its replay, one that fails counts CHECK_FAIL (which
stops at its largest value) and goes to the recovery ladder; where the tile cannot be written at its commit, the drain stays and the squad's fault is
taken; a tile for the send ring waits for its partition's tokens. -/
def Obligations.TileCheckCommitsOrReplays : Prop :=
  ∀ (s : State) (sq : Nat) (dr0 : Drain) (m : MatOp) (d : Descriptor),
    (s.squad sq).arr.drain = some dr0 → dr0.rungs = [] → s.working dr0.item.ctx = true → s.matOf dr0.item = some (m, d) →
      (s.ctx dr0.item.ctx).ringFull d = false →
      let dr := { dr0 with vals := applyErrs dr0.errs.cells dr0.vals }
      let done (u : State) := u.modSquad sq fun q => { q with arr := { q.arr with drain := none } }
      let failed (u : State) := (done u).modSquad sq fun q => { q with arr := { q.arr with checkFail := min (2 ^ 32 - 1) (q.arr.checkFail + 1) } }
      let v := dr.verdict d.accFmt d.shape
      (∀ u, v.1 = [] → v.2 = [] → s.tileFault m d dr = none → s.ringRegulate m d dr = some u →
        exec (.tileCheckVerdict sq) s = .next (((done u).freshTile m d dr).tilePass sq m d dr)) ∧
      (v.1 ≠ [] ∨ v.2 ≠ [] → m.commits sq dr false = false →
        exec (.tileCheckVerdict sq) s = .next ((failed s).tileFail sq m d dr v.1 v.2 dr0.errs.det)) ∧
      (∀ u, v.1 ≠ [] ∨ v.2 ≠ [] → m.commits sq dr false = true → s.tileFault m d dr = none → s.ringRegulate m d dr = some u →
        exec (.tileCheckVerdict sq) s = .next (((failed u).freshTile m d dr).tileFail sq m d dr v.1 v.2 dr0.errs.det)) ∧
      (m.commits sq dr (v.1.isEmpty && v.2.isEmpty) = true → s.tileFault m d dr = none → s.ringRegulate m d dr = none →
        exec (.tileCheckVerdict sq) s = .next s) ∧
      (∀ q e, m.commits sq dr (v.1.isEmpty && v.2.isEmpty) = true → s.tileFault m d dr = some (q, e) →
        exec (.tileCheckVerdict sq) s = .next (s.engineFault dr.item.ctx sq q 0x01 e true)) ∧
      (∀ u : State, m.ladder = [] → u.tilePass sq m d dr = u.commitTile sq m d dr)

/-! ## Blocks, restart points and loads -/

/-- The commit of one block by each engine: the block's results are stored and the engine's stream record is consumed; where a translation of the
block fails, nothing is stored and the engine stops at its fault. -/
def Obligations.BlocksCommitWholeOrFault : Prop :=
  ∀ (s : State) (sq n b : Nat) (f : Flight), (s.squad sq).fenced = false →
    (∀ op t mb, (s.squad sq).portReady 4 = true → s.blockOf sq .vector = some (n, f, b) → f.desc.op = .vec op → f.blockTensor = some t →
      (f.desc.mbox.map fun k => (s.mbox sq n k).shown.head?) = mb.map some →
      (s.blockFail n f (blockIdx t b) = none →
        exec (.blockCommit (.vector sq)) s = .next ((((s.freshBlock n f (blockIdx t b)).vecBlock n f mb op t (blockIdx t b)).commitBlock n f b sq).popPort sq 4)) ∧
      (∀ e w, s.blockFail n f (blockIdx t b) = some (e, w) → exec (.blockCommit (.vector sq)) s = .next (s.engineFault n sq f.queue 0x01 e w))) ∧
    (∀ k bw eps x xt y t, (s.squad sq).portReady 5 = true → s.blockOf sq .row = some (n, f, b) → f.desc.op = .row k bw eps → f.operand 0 = some (x, xt) → f.operand 2 = some (y, t) →
      (∀ e w, s.blockFail n f (blockIdx t b) = some (e, w) → exec (.blockCommit (.row sq)) s = .next (s.engineFault n sq f.queue 0x01 e w)) ∧
      (s.blockFail n f (blockIdx t b) = none →
        (∀ e w, (blockTails t b).findSome? (fun tail => s.statFail sq n bw (statVa xt tail)) = some (e, w) →
          exec (.blockCommit (.row sq)) s = .next (s.engineFault n sq f.queue 0x05 e w)) ∧
        ((∀ tail, tail ∈ blockTails t b → s.statFail sq n bw (statVa xt tail) = none) →
          let u := match f.operand 1 with
            | some (_, dt) => if f.itemsDone + 1 = f.items ∧ bw = true ∧ k ≠ RowKind.softmax then s.gammaGrad sq n f k eps xt dt else s
            | none => s
          exec (.blockCommit (.row sq)) s = .next ((((u.freshBlock n f (blockIdx t b)).rowBlock sq n f k bw eps xt t b).commitBlock n f b sq).popPort sq 5)))) ∧
    (∀ e k sh en, (s.squad sq).portReady 4 = true → s.blockOf sq .update = some (n, f, b) → blockAt ((s.ctx n).blockSizes f) 0 b = some (e, k) → (s.ctx n).shard = some sh →
      sh.entries[e]? = some en →
      let first := k * blockElems
      let last := blockLast ((s.ctx n).entrySize f en) k
      (∀ g w, f.desc.op = .norm g w →
        (s.updFail n f en false first last = none →
          ∃ p q, exec (.blockCommit (.update sq)) s =
            .next (((s.modCtx n fun c => { c with upd := { c.upd with parts := c.upd.parts ++ [(b, en.group, p, q)] } }).commitBlock n f b sq).popPort sq 4)) ∧
        (∀ x y, s.updFail n f en false first last = some (x, y) →
          exec (.blockCommit (.update sq)) s = .next (s.engineFault n sq f.queue 0x01 x y))) ∧
      (∀ pr rest u p, f.desc.op = .apply pr rest → s.updFail n f en true first last = none → f.copyMode = false → (s.squad sq).upe = some u →
        tfind (s.ctx n).updProgs pr = some p → u.ctx = n → u.seq = f.seq → u.block = b → u.lanes = [] →
        exec (.blockCommit (.update sq)) s =
          .next (((((s.freshUpd n f en first last).applyBlock n f e en first u.done false p.sr).modSquad sq fun q => { q with upe := none }).commitBlock n f b sq).popPort sq 4)) ∧
      (∀ pr rest, f.desc.op = .apply pr rest → s.updFail n f en true first last = none → f.copyMode = true →
        exec (.blockCommit (.update sq)) s =
          .next ((((s.freshUpd n f en first last).applyBlock n f e en first (List.replicate (last - first) Lane.keep) true []).commitBlock n f b sq).popPort sq 4))) ∧
    (∀ r rs, tget [] (s.squad sq).fifo 0 = r :: rs → (s.squad sq).portReady 0 = true → s.working r.ctx = true →
      (r.write = true ∨ r.pool = none ∨ s.byMesh sq r = false) →
      (∀ e, s.fetchFail r = some e → exec (.blockCommit (.fetch sq)) s =
        .next (s.engineFault r.ctx sq (match (s.ctx r.ctx).fl r.seq with | some f => f.queue | none => 0) 0x01 e r.write)) ∧
      ((∀ i, i < r.len.toNat → (s.access r.ctx (r.addr.toNat + i) r.write none).isRight = true) →
        s.poisonHit (s.places r.ctx none (r.addr.toNat + ·) r.len.toNat) = false →
        (∀ t, s.regulate r.part (s.fetchBursts r) = some t → exec (.blockCommit (.fetch sq)) s = .next ((t.fetchMove sq r).popPort sq 0)) ∧
        (s.regulate r.part (s.fetchBursts r) = none → exec (.blockCommit (.fetch sq)) s = .next s)))

/-- An engine at its restart point is no longer awaited, and a fetch unit, an update run, a DMA transfer or a collective there drops what it held of the context;
the last stop spills once and runs the urgent context with vector 174, a yield ends that with the same vector, and the fill brings the routine context back with
vector 166, or loses it where the spill copy cannot be read. -/
def Obligations.PreemptionStopsSpillsAndFills : Prop :=
  (∀ (s : State) (n : Nat) (e : Engine),
      (e ∉ (s.ctx n).stopping → exec (.engineRestartPoint n e) s = .next s) ∧
      (e ∈ (s.ctx n).stopping → ∃ t, exec (.engineRestartPoint n e) s = .next t ∧
        t = (s.atRestart n e).modCtx n (fun c => { c with stopping := c.stopping.filter (· ≠ e) }) ∧
        (∀ sq, e = .fetch sq → ∀ k, (tget Walker.reset (t.squad sq).walkers k).state = .running →
          (tget Walker.reset (t.squad sq).walkers k).ctx = n → (tget Walker.reset (t.squad sq).walkers k).pc = 0) ∧
        (∀ sq, e = .fetch sq → ∀ k r, r ∈ tget [] (t.squad sq).fifo k → r.ctx ≠ n) ∧
        (∀ c d x, e = .dma c d → (s.dma c d).state = 1 → (s.dma c d).xfer = some x → x.ctx = n → x.seq.isSome = true → (t.dma c d).state = 2) ∧
        (∀ tag g, e = .collective tag → (s.ctx n).tags.find? (fun x => x.tag == tag) = some g →
          ∀ x, x ∈ t.net.nodes → ¬ (x.ctx = n ∧ x.tag = tag)) ∧
        (∀ sq u, e = .update sq → (s.squad sq).upe = some u → u.ctx = n → (t.squad sq).upe = none) ∧
        (∀ sq u, e = .update sq → (s.squad sq).upe = some u → u.ctx ≠ n → (t.squad sq).upe = some u) ∧
        ((∃ sq, e = .vector sq) ∨ (∃ sq, e = .row sq) ∨ (∃ q, e = .dispatcher q) →
          t = s.modCtx n (fun c => { c with stopping := c.stopping.filter (· ≠ e) })))) ∧
  (∀ (s : State),
      (∀ q d, s.ctx1.headDesc q = some d → s.clk.known = true → d.nbt ≠ 0 → d.nbt.toNat ≤ s.clk.st.toNat + s.nbtLead * 1000 → s.clk.st.toNat ≤ d.nbt.toNat →
        exec (.preemptNbtLead q) s = .next s.preempt) ∧
      (s.ctx1.request = true → s.ctx0.stopping = [] → s.ctx0.started = true → ∃ t, exec .spillComplete s = .next t ∧
        t.ctx1.running = true ∧ t.ctx1.request = false ∧ t.store = s.store ∧
        (s.host.noneActive = false → t.out.head? = some (.vector s.host.active 174)) ∧
        ((s.ctx0.spilled = true ∨ (s.eachSquad Squad.keepArr).copyFault true = none) → t.ctx0.preempted = true ∧ t.ctx0.spilled = true) ∧
        ((s.ctx0.spilled = true ∨ ((s.eachSquad Squad.keepArr).copyFault true).isSome = true) → t.hbm = s.hbm) ∧
        (s.ctx0.spilled = false → ((s.eachSquad Squad.keepArr).copyFault true).isSome = true → t.ctx0.lost = true)) ∧
      (s.ctx0.stopping ≠ [] → exec .spillComplete s = .next s) ∧
      (∀ sq h, s.spilling = true → ∃ t, exec (.detectorFault (.fetch sq) (some h)) s = .next t ∧ t = s.loseCtx 0 6 0 0 0 false ∧ t.ctx0.lost = true ∧
        t.ctx0.stopping = [] ∧ t.ctx1 = s.ctx1) ∧
      (s.ctx1.running = true → exec .yieldWrite s = .next (s.modCtx 1 fun c => { c with yielding := true })) ∧
      (s.ctx1.running = false → exec .yieldWrite s = .next (s.badCommand (pgDISP 1))) ∧
      (s.ctx1.yielding = true → (∀ f, f ∈ s.ctx1.flight → f.phase = .admitted ∨ f.phase = .ready) → ∃ t, exec .yieldTakesEffect s = .next t ∧
        t.ctx1.running = false ∧ t.ctx1.yielding = false ∧ t.ctx1.yielded = true ∧ t.ctx0.filling = s.ctx0.preempted ∧
        (s.host.noneActive = false → t.out = .vector s.host.active 174 :: s.out)) ∧
      (s.ctx0.filling = true → ∃ t, exec .fillComplete s = .next t ∧
        t.ctx0.filling = false ∧ t.ctx0.preempted = false ∧ t.ctx0.spilled = false ∧ t.hbm = s.hbm ∧ (s.ctx0.spilled = false → t.store = s.store) ∧
        (s.host.noneActive = false → Out.vector s.host.active 166 ∈ t.out) ∧
        (s.ctx0.spilled = true → ((s.copyFault false).isSome = true ∨ s.spillPages.any (fun e => s.fillBad e.1 e.2) = true) →
          t.ctx0.lost = true ∧ t.store = s.store)))

/-- Records that replace what descriptors use: a function in a slot of the context or an update program is installed at once where no busy descriptor of the
context uses it and waits otherwise; a step plan takes effect at once in a context that is not started and at the next step otherwise. -/
def Obligations.LoadsWaitForTheirUsers : Prop :=
  ∀ (s : State) (n : Nat), n < 2 →
    (∀ slot r, slot / 8 = n → ∃ t, exec (.functionLoad n slot r) s = .next t ∧
      t = (s.modCtx n fun c => { c with fnWait := c.fnWait ++ [(slot, r)] }).settle n ∧
      ((s.ctx n).libWait = [] → (s.ctx n).fnWait = [] → (s.ctx n).busyDescs.any (usesFn slot) = false → tfind (t.ctx n).fns slot = some r ∧ (t.ctx n).fnWait = []) ∧
      ((s.ctx n).libWait = [] → (s.ctx n).fnWait = [] → (s.ctx n).busyDescs.any (usesFn slot) = true → (t.ctx n).fns = (s.ctx n).fns ∧ (t.ctx n).fnWait = [(slot, r)])) ∧
    (∀ slot r, slot / 8 ≠ n → exec (.functionLoad n slot r) s = .next s) ∧
    (∀ k r, ∃ t, exec (.updateProgramLoad n k r) s = .next t ∧
      t = (s.modCtx n fun c => { c with updWait := c.updWait ++ [(k, r)] }).settle n ∧
      ((s.ctx n).libWait = [] → (s.ctx n).updWait = [] → (s.ctx n).busyDescs.any (usesProg k) = false → tfind (t.ctx n).updProgs k = some r ∧ (t.ctx n).updWait = []) ∧
      ((s.ctx n).libWait = [] → (s.ctx n).updWait = [] → (s.ctx n).busyDescs.any (usesProg k) = true → (t.ctx n).updProgs = (s.ctx n).updProgs ∧ (t.ctx n).updWait = [(k, r)])) ∧
    (∀ r, (s.ctx n).started = false → exec (.stepPlanLoad n r) s = .next (s.modCtx n fun c => { c with plan := some r, planNext := none })) ∧
    (∀ r, (s.ctx n).started = true → exec (.stepPlanLoad n r) s = .next (s.modCtx n fun c => { c with planNext := some r }))

/-! ## Queues, the dispatcher and the contexts -/

/-- A doorbell on the active port: the records take their ring positions behind the old tail and the new tail is kept, and the urgent context pre-empts where
its new head may run; one the ring cannot take changes the queue's overrun mark only and raises the context's vector, a lost context takes none, and on the other
port it is a bad command. -/
def Obligations.DoorbellsFillTheRing : Prop :=
  ∀ (s : State) (n q tail : Nat) (wrap : Bool) (recs : List Descriptor), n < 2 → s.host.noneActive = false →
    ((s.ctx n).lost = true → exec (.hostDoorbell s.host.active n q tail wrap recs) s = .next s) ∧
    ((s.ctx n).lost = false →
    (((s.ctx n).queue q).refuses tail wrap = false →
      let x := (s.ctx n).queue q
      let t := (s.modCtx n fun c => c.modQueue q fun y => y.accept tail wrap recs).setRg (pgHOST + 0x200 + 4 * (16 * n + q)) (tail + 2 ^ 20 * b2n wrap)
      ((n = 0 ∨ t.headMayRun q = false ∨ (x.tail = tail ∧ x.tailWrap = wrap)) → exec (.hostDoorbell s.host.active n q tail wrap recs) s = .next t) ∧
      (n = 1 → (x.tail ≠ tail ∨ x.tailWrap ≠ wrap) → t.headMayRun q = true → exec (.hostDoorbell s.host.active n q tail wrap recs) s = .next t.preempt) ∧
      ((t.ctx n).queue q).tail = tail ∧ ((t.ctx n).queue q).tailWrap = wrap ∧ ((t.ctx n).queue q).head = x.head ∧
      ((t.ctx n).queue q).halt = x.halt ∧ (∀ p, p ≠ q → (t.ctx n).queue p = (s.ctx n).queue p) ∧
      (∀ i r, recs[i]? = some r → i < ((t.ctx n).queue q).count - x.count → tfind ((t.ctx n).queue q).ring ((x.tail + i) % 2 ^ x.log2) = some r)) ∧
    (((s.ctx n).queue q).refuses tail wrap = true →
      exec (.hostDoorbell s.host.active n q tail wrap recs) s =
        .next ((s.modCtx n fun c => c.modQueue q fun y => { y with overrun := true }).raise (167 + 8 * n)))) ∧
    (exec (.hostDoorbell (!s.host.active) n q tail wrap recs) s = .next (s.badCommand pgHOST))

/-- Admission: the head that passes its checks and finds room joins the flight behind those admitted before it, in phase Admitted, with the next
sequence number, and stays at the head of its queue; the first check that fails halts the queue and admits nothing. -/
def Obligations.AdmissionIsInOrder : Prop :=
  ∀ (s : State) (n q : Nat) (d : Descriptor), n < 2 → s.admitting n q = true →
    tfind ((s.ctx n).queue q).ring ((s.ctx n).queue q).head = some d →
    (s.firstFail n q d = none → (d.hold = true → 2 ≤ ((s.ctx n).queue q).count) →
      (s.ctx n).sbUsed + (s.footprint n d).length ≤ 512 → (d.cls = .mark ∨ d.cls = .nop ∨ s.journalFree n = true) →
      ∃ t f, exec (.descriptorAdmit n q) s = .next t ∧ (t.ctx n).flight = (s.ctx n).flight ++ [f] ∧ f.desc = d ∧ f.queue = q ∧
        f.phase = .admitted ∧ f.seq = s.flightSeq ∧ f.fp = s.footprint n d ∧ t.flightSeq = s.flightSeq + 1 ∧
        (t.ctx n).queue q = (s.ctx n).queue q ∧ (∀ m, m < 2 → m ≠ n → t.ctx m = s.ctx m) ∧ Only [.ctx0, .ctx1, .flightSeq] s t) ∧
    (∀ k, s.firstFail n q d = some k →
      exec (.descriptorAdmit n q) s = .next (s.sanityFault n q ((s.ctx n).queue q).head k) ∧
      (((s.sanityFault n q ((s.ctx n).queue q).head k).ctx n).queue q).halt = .sanity) ∧
    (512 < (s.ctx n).sbUsed + (s.footprint n d).length → s.firstFail n q d = none → exec (.descriptorAdmit n q) s = .next s)

/-- A head whose waits and NBT have passed becomes Ready, or is skipped where its predicate does not hold; a shot clock that expires halts the queue with its
record and vector; a mutual wait of 4096 cycles halts the context with its wait graph. -/
def Obligations.HeadsBecomeReadyOrHalt : Prop :=
  (∀ (s : State) (n q : Nat) (f : Flight),
      (s.readyHead n q = some f →
        (f.desc.hold = false → f.desc.chain = false → (s.ctx n).runs f = false → exec (.descriptorReady n q) s = .next (s.skipHead n f)) ∧
        ((f.desc.hold = true ∨ f.desc.chain = true ∨ (s.ctx n).runs f = true) → f.desc.counts = none →
          exec (.descriptorReady n q) s = .next (s.toReady n f.seq [])) ∧
        (∀ h e, (f.desc.hold = true ∨ f.desc.chain = true ∨ (s.ctx n).runs f = true) → f.desc.counts = some h → s.readCounts n f h = .inl e →
          exec (.descriptorReady n q) s = .next (s.countsFault n q e)) ∧
        (∀ h l, (f.desc.hold = true ∨ f.desc.chain = true ∨ (s.ctx n).runs f = true) → f.desc.counts = some h → s.readCounts n f h = .inr l →
          (countsOk f l = true → exec (.descriptorReady n q) s = .next (s.toReady n f.seq l)) ∧
          (countsOk f l = false → exec (.descriptorReady n q) s = .next ((s.modCtx n (·.release f.seq)).sanityFault n q f.qindex 7)))) ∧
      (s.readyHead n q = some f → f.waitsDone = true ∧ f.nbtPassed = true ∧ f.phase = .admitted ∧ s.issuing n = true) ∧
      ((s.ctx n).headFlight q = some f → f.nbtPassed = false → (s.ctx n).started = true → s.clk.known = true → f.desc.nbt.toNat ≤ s.clk.st.toNat →
        exec (.notBeforeTimeReached n q) s = .next (s.modFlight n f.seq fun x => { x with nbtPassed := true })) ∧
      ((s.ctx n).headFlight q = some f → f.desc.nbt ≠ 0 → (s.clk.known = false ∨ s.clk.st.toNat < f.desc.nbt.toNat) →
        exec (.notBeforeTimeReached n q) s = .next s)) ∧
  (∀ (s : State) (n q : Nat), n < 2 →
      (∀ f, (s.ctx n).headFlight q = some f → f.phase = .admitted → f.waitsDone = false → f.desc.shot ≠ 0 → f.desc.shot * 1000 ≤ f.shotNs →
        ((s.ctx n).queue q).halt = .none →
        exec (.shotClockExpiry n q) s = .next
          (((s.modCtx n fun c => c.modQueue q fun x => { x with halt := .waitDeadline }).log 0 0x1C01 2 0 0x13 q
            (leBytes 1 n ++ leBytes 1 q ++ [0#8, 0#8] ++ leBytes 4 f.qindex ++ waitFlags f.desc ++ leBytes 1 f.openWaits)).raise (128 + 16 * n + q))) ∧
      (∀ f, (s.ctx n).headFlight q = some f → (f.waitsDone = true ∨ f.desc.shot = 0 ∨ f.shotNs < f.desc.shot * 1000) →
        exec (.shotClockExpiry n q) s = .next s) ∧
      (n = s.runningCtx → (s.ctx n).started = true → (s.ctx n).suspended = false → (s.ctx n).lost = false → (s.ctx n).halted = false →
        (s.ctx n).mutual_ = true → 4096 ≤ (s.ctx n).mutualCnt →
        exec (.mutualWait n) s = .next
          (((s.modCtx n fun c => { c with halted := true, waitGraph := (s.ctx n).waitGraphOf n }).log 0 0x1C02 2 0 0x13 n ((s.ctx n).waitGraphOf n)).raise
            (165 + 8 * n))))

/-- Issue and completion: the descriptor that the round-robin picks is the ready head of its queue without a conflict; it starts its engine and its queue goes on, an
update that the device must refuse is refused and halts its queue, and an issued descriptor whose outputs are all committed completes: it leaves the flight and
its flags are set; nothing issues or completes for a context that may not run. -/
def Obligations.IssueAndCompletion : Prop :=
  ∀ (s : State) (n : Nat),
    (∀ cls f, s.issuing n = true → s.pickIssue n (engineCls cls) = some f → f.desc.cls ≠ .update ∨ (s.ctx n).refusal = none →
      exec (.descriptorIssue n cls) s = .next (s.issueFlight n (engineCls cls) f)) ∧
    (∀ cls f, s.pickIssue n (engineCls cls) = some f → f.phase = .ready ∧ engineCls f.desc.cls = engineCls cls ∧ (s.ctx n).conflict f = none ∧
      s.accepts n f = true ∧ (s.ctx n).headFlight f.queue = some f) ∧
    (∀ cls f, n < 2 → (s.ctx n).fl f.seq = some f → (f.desc.cls = .mark ∨ f.desc.cls = .nop) → f.desc.hold = false → f.desc.chain = false →
      f.desc.phase ≠ 1 → ∃ g,
      ((s.issueFlight n (engineCls cls) f).ctx n).fl f.seq = some g ∧ g.phase = .issued ∧ g.desc = f.desc ∧ g.issueSt = s.stNow ∧
      (((s.issueFlight n (engineCls cls) f).ctx n).queue f.queue).head = (((s.ctx n).queue f.queue).head + 1) % 2 ^ ((s.ctx n).queue f.queue).log2) ∧
    (∀ cls f r, s.issuing n = true → s.pickIssue n (engineCls cls) = some f → f.desc.cls = .update → (s.ctx n).refusal = some r →
      exec (.descriptorIssue n cls) s = .next (s.refuseUpdate n f r)) ∧
    (∀ f r, n < 2 → (((s.refuseUpdate n f r).ctx n).queue f.queue).halt = .refused ∧ ((s.refuseUpdate n f r).ctx n).flag 245 = true) ∧
    (∀ f, n < 2 → ((s.completeOne n f).ctx n).fl f.seq = none ∧
      (∀ k v, f.desc.set1 = some (k, v) → k < 240 → ((s.completeOne n f).ctx n).flag k = v) ∧
      (∀ k v, f.desc.set0 = some (k, v) → k < 240 → (∀ w, f.desc.set1 ≠ some (k, w)) → ((s.completeOne n f).ctx n).flag k = v)) ∧
    (∀ seq f, (s.ctx n).fl seq = some f → f.phase = .issued → s.working n = true → s.outputsDone n f = true →
      (∀ m, (s.ctx n).matOf seq = some m → exec (.descriptorComplete n seq) s = .next (s.completeMat n m)) ∧
      ((s.ctx n).matOf seq = none → (f.desc.send = none ∨ f.sent ≠ none) →
        (s.sendHeld n f = false → exec (.descriptorComplete n seq) s = .next (s.completeOne n f)) ∧
        (s.sendHeld n f = true → exec (.descriptorComplete n seq) s = .next s)) ∧
      (∀ x g, (s.ctx n).matOf seq = none → f.desc.send = some x → f.sent = none → ((s.sendShort n f x).ctx n).fl seq = some g →
        ((s.sendShort n f x).sendHeld n g = false → exec (.descriptorComplete n seq) s = .next ((s.sendShort n f x).completeOne n g)) ∧
        ((s.sendShort n f x).sendHeld n g = true → exec (.descriptorComplete n seq) s = .next (s.sendShort n f x)))) ∧
    (∀ seq f, (s.ctx n).fl seq = some f → s.outputsDone n f = false → exec (.descriptorComplete n seq) s = .next s) ∧
    (s.working n = false → ∀ seq, exec (.descriptorComplete n seq) s = .next s) ∧
    (s.issuing n = false → ∀ cls q, exec (.descriptorIssue n cls) s = .next s ∧ exec (.descriptorReady n q) s = .next s)

/-- CONTEXT_START on a ready device with a usable root: the context is started with its step plan, counters and commit state at their beginning and keeps its queues,
flags, flight and tensors; the routine context is pre-empted where the urgent one runs, and the urgent one pre-empts where a head may run. A bad root, a started
context or a device that is not ready makes it a bad command, and the routine context's spill area that cannot be used is logged beside that. -/
def Obligations.ContextsStartWhenReady : Prop :=
  ∀ (s : State) (n : Nat), n < 2 →
    ((s.ctx n).started = false → s.dev.ready = true → s.up = true → s.root n % 2 = 1 → rootMalformed (s.root n) = false → (n = 0 → s.badSpill = none) →
      ∃ t, exec (.contextStart n) s = .next t ∧ (t.ctx n).started = true ∧ (t.ctx n).stepNo = 0 ∧ (t.ctx n).stepStarts = [] ∧ (t.ctx n).summaries = [] ∧
        (t.ctx n).spb = none ∧ (t.ctx n).mutualCnt = 0 ∧ (t.ctx n).planNext = none ∧
        (t.ctx n).plan = (match (s.ctx n).planNext with | some p => some p | none => (s.ctx n).plan) ∧
        ((s.ctx n).upd.undecided = false → (t.ctx n).commit = Commit.reset) ∧ ((s.ctx n).upd.undecided = true → (t.ctx n).commit = (s.ctx n).commit) ∧
        (t.ctx n).queues = (s.ctx n).queues ∧ (t.ctx n).flags = (s.ctx n).flags ∧ (t.ctx n).flight = (s.ctx n).flight ∧ (t.ctx n).tensors = (s.ctx n).tensors ∧
        (n = 0 → t.ctx1 = s.ctx1 ∧ t.ctx0.preempted = (s.ctx1.running || s.ctx0.preempted)) ∧
        (n = 1 → (∀ q, q < 16 → s.headMayRun q = false) → t.ctx0 = s.ctx0 ∧ t.ctx1.request = s.ctx1.request ∧ t.ctx1.running = s.ctx1.running) ∧
        (n = 1 → (∃ q, q < 16 ∧ s.headMayRun q = true) → s.ctx1.lost = false → s.ctx1.running = false → s.ctx1.request = false →
          (s.ctx0.started = false → t.ctx1.running = true) ∧
          (s.ctx0.started = true → t.ctx1.request = true ∧ t.ctx0.filling = false ∧
            (s.ctx0.filling = false → ∀ e, e ∈ (s.modCtx 1 Ctx.begin_).engines 0 → e ∈ t.ctx0.stopping))) ∧
        Only [.ctx0, .ctx1, .host, .out] s t) ∧
    ((s.ctx n).started = true ∨ s.dev.ready = false ∨ s.up = false ∨ s.root n % 2 = 0 ∨ rootMalformed (s.root n) = true →
      exec (.contextStart n) s = .next (s.badCommand (pgDISP n))) ∧
    (∀ c va l, n = 0 → s.ctx0.started = false → s.dev.ready = true → s.up = true → s.root 0 % 2 = 1 → rootMalformed (s.root 0) = false →
      s.badSpill = some (c, va, l) → ∃ t, exec (.contextStart 0) s = .next t ∧ t.ctx0.started = false ∧ t.ctx1 = s.ctx1)

/-- RESUME, ABORT and CONTEXT_RESET: a suspended or halted context runs on, an aborted one is lost with cause 5, a reset leaves the context not started
with every flag 0 and every queue empty. -/
def Obligations.ContextsResumeAbortAndReset : Prop :=
  ∀ (s : State) (n : Nat), n < 2 →
    (((s.ctx n).suspended = true ∨ (s.ctx n).halted = true) → ∃ t, exec (.resume n) s = .next t ∧ (t.ctx n).suspended = false ∧ (t.ctx n).halted = false ∧
      (t.ctx n).queues = (s.ctx n).queues ∧ (t.ctx n).flags = (s.ctx n).flags ∧
      ((n = 0 → s.ctx0.preempted = false ∧ s.ctx1.request = false) → ∀ f, f ∈ (t.ctx n).flight → f.phase = .stopped → f.expired = true)) ∧
    ((s.ctx n).suspended = false → (s.ctx n).halted = false → exec (.resume n) s = .next (s.badCommand (pgDISP n))) ∧
    ((s.ctx n).started = true → (s.ctx n).lost = false → exec (.abort n) s = .next (s.hostLose n 5) ∧
      ((s.hostLose n 5).ctx n).lost = true) ∧
    (((s.ctx n).started = false ∨ (s.ctx n).lost = true) → exec (.abort n) s = .next (s.badCommand (pgDISP n))) ∧
    (∃ t, exec (.contextReset n) s = .next t ∧ (t.ctx n).started = false ∧ (t.ctx n).lost = false ∧ ((s.ctx n).started = true → (t.ctx n).flight = []) ∧
      (∀ f, (t.ctx n).flag f = false) ∧
      (∀ q, ((t.ctx n).queue q).count = 0 ∧ ((t.ctx n).queue q).halt = .none))

/-- SKIP and RETRY by the reason the queue halted for, and the host's writes of flags and ring placements: what may be written takes its value alone, a locked
write is ignored but for the page's fault bit, a command out of place is bad, and a write equal to what stands does nothing. -/
def Obligations.HostMendsQueuesAndFlags : Prop :=
  (∀ (s : State) (n q : Nat), (s.ctx n).lost = false →
      (((s.ctx n).queue q).halt = .waitDeadline →
        exec (.skip n q) s = .next ((s.unhalt n q).skipAny n q) ∧
        ∀ f, (s.ctx n).headFlight q = some f → exec (.retry n q) s = .next ((s.unhalt n q).restartClock n f)) ∧
      (((s.ctx n).queue q).halt = .none → (s.ctx n).halted = true ∨ (s.ctx n).suspended = true →
        exec (.skip n q) s = .next (s.skipAny n q) ∧ exec (.retry n q) s = .next (s.badCommand (pgDISP n))) ∧
      (((s.ctx n).queue q).halt = .none → (s.ctx n).halted = false → (s.ctx n).suspended = false →
        exec (.skip n q) s = .next (s.badCommand (pgDISP n)) ∧ exec (.retry n q) s = .next (s.badCommand (pgDISP n))) ∧
      (((s.ctx n).queue q).halt = .refused →
        exec (.skip n q) s = .next (s.badCommand (pgDISP n)) ∧ exec (.retry n q) s = .next (s.retryUpdate n q)) ∧
      ((((s.ctx n).queue q).halt = .rootDeadline ∨ ((s.ctx n).queue q).halt = .memberDeadline) →
        exec (.skip n q) s = .next (s.badCommand (pgDISP n)) ∧ exec (.retry n q) s = .next ((s.unhalt n q).retryCommit n)) ∧
      (((s.ctx n).queue q).halt = .sanity →
        exec (.retry n q) s = .next (s.badCommand (pgDISP n)) ∧
        ((s.ctx n).lateIn q = none → exec (.skip n q) s = .next ((s.unhalt n q).skipAny n q))) ∧
      ((((s.ctx n).queue q).halt = .huddleDeadline ∨ ((s.ctx n).queue q).halt = .collectiveDeadline) → (s.ctx n).haltedCommit q = false →
        ∀ f, (s.ctx n).lateIn q = some f →
          exec (.skip n q) s = .next ((s.unhalt n q).skipIssued n f) ∧ exec (.retry n q) s = .next ((s.unhalt n q).restartClock n f))) ∧
  (∀ (s : State) (n : Nat), n < 2 →
      (∀ f v, f < 240 → (224 ≤ f ∨ (s.ctx n).quiet = true) → ∃ t, exec (.flagWrite n f v) s = .next t ∧ (t.ctx n).flag f = v ∧
        (∀ g, g < 256 → g ≠ f → (t.ctx n).flag g = (s.ctx n).flag g)) ∧
      (∀ f v, 240 ≤ f → exec (.flagWrite n f v) s = .next (s.badCommand (pgDISP n))) ∧
      (∀ f v, f < 224 → (s.ctx n).quiet = false → (s.ctx n).flag f = v → exec (.flagWrite n f v) s = .next s) ∧
      (∀ f v, f < 224 → (s.ctx n).quiet = false → (s.ctx n).flag f ≠ v → exec (.flagWrite n f v) s = .next (s.lockedWrite (pgDISP n))) ∧
      (∀ q base log2, ((s.ctx n).started = false ∨ ((s.ctx n).queue q).count = 0) → ∃ t, exec (.queueRingPlace n q base log2) s = .next t ∧
        ((t.ctx n).queue q).base = base % 2 ^ 48 ∧ ((t.ctx n).queue q).log2 = ringLog2 log2 ∧ ((t.ctx n).queue q).count = 0 ∧
        (∀ p, p ≠ q → (t.ctx n).queue p = (s.ctx n).queue p)) ∧
      (∀ q base log2, (s.ctx n).started = true → 0 < ((s.ctx n).queue q).count →
        (((s.ctx n).queue q).base ≠ base % 2 ^ 48 ∨ ((s.ctx n).queue q).log2 ≠ ringLog2 log2) →
        exec (.queueRingPlace n q base log2) s = .next (s.lockedWrite (pgDISP n))))

/-! ## Short pass and huddles -/

/-- The short pass: a message that has not come before is taken by an open mailbox, a full one spills it behind those of its channel's overflow, what is
spilled returns in order to a mailbox with room, a message waits where neither has room or where an earlier one of its source waits, and one that has come
before changes nothing. A mailbox keeps every message it takes, shows a transfer whole, and shows what it showed before first. -/
def Obligations.ShortPassKeepsOrder : Prop :=
  (∀ (s : State) (m : ShortMsg), m.ctx < 2 → s.up = true → (s.squad m.squad).fenced = false → (s.ctx m.ctx).lost = false →
    (s.hasShort m = true → exec (.shortPassMessage m) s = .next s) ∧
    (s.hasShort m = false →
      ((s.ctx m.ctx).sends.any (fun x => ShortMsg.sameRoute x m) = false → s.boxOpen m = true → ∃ t, exec (.shortPassMessage m) s = .next t ∧
        t.mbox m.squad m.ctx m.mbox = (s.mbox m.squad m.ctx m.mbox).take m ∧ (∀ k, k ≠ m.squad → t.squad k = s.squad k) ∧ Only [.squads] s t) ∧
      ((s.ctx m.ctx).sends.any (fun x => ShortMsg.sameRoute x m) = false → s.boxOpen m = false → s.spillRoom m = true →
        ∃ t, exec (.shortPassMessage m) s = .next t ∧
          t.overflow (m.squad / 16) m.ctx = s.overflow (m.squad / 16) m.ctx ++ [m] ∧ t.squads = s.squads) ∧
      ((s.ctx m.ctx).sends.any (fun x => ShortMsg.sameRoute x m) = true ∨ (s.boxOpen m = false ∧ s.spillRoom m = false) →
        exec (.shortPassMessage m) s = .next (s.modCtx m.ctx fun c => { c with sends := c.sends ++ [m] }))) ∧
    (∀ x, s.nextSpilled (s.overflow (m.squad / 16) m.ctx) = some x →
      x ∈ s.overflow (m.squad / 16) m.ctx ∧ (s.mbox x.squad x.ctx x.mbox).size < 16 ∧
      ∃ t, exec (.overflowDeliver (m.squad / 16) m.ctx) s = .next t ∧
        t.mbox x.squad x.ctx x.mbox = (s.mbox x.squad x.ctx x.mbox).take x ∧
        t.overflow (m.squad / 16) m.ctx = (s.overflow (m.squad / 16) m.ctx).erase x) ∧
    ((s.ctx m.ctx).sends.find? (fun x => s.boxOpen x || s.spillRoom x) = some m → ∃ t, exec (.heldMessageRelease m.ctx) s = .next t ∧
      (t.ctx m.ctx).sends = (s.ctx m.ctx).sends.erase m ∧
      (s.boxOpen m = true → t.mbox m.squad m.ctx m.mbox = (s.mbox m.squad m.ctx m.mbox).take m) ∧
      (s.boxOpen m = false → t.overflow (m.squad / 16) m.ctx = s.overflow (m.squad / 16) m.ctx ++ [m])) ∧
    ((s.overflow (m.squad / 16) m.ctx).any (fun x => ShortMsg.sameRoute x m) = true → s.boxOpen m = false)) ∧
  (∀ (b : Mbox) (m : ShortMsg),
    (∃ l, (b.take m).shown = b.shown ++ l ∧ ∀ x, x ∈ l → ∃ y, y ∈ x ∧ x.length = y.count) ∧
    (∀ x, x ∈ b.parts ∨ x = m → x ∈ (b.take m).parts ∨ x ∈ (b.take m).shown.flatten))

/-- Huddles: a squad arrives once its walkers have ended and their handles are back, a completion packet closes the huddle once and goes down the
tree, a count packet covers its ranks, and an expired shot clock halts the queue and reports the huddle or the collective. -/
def Obligations.HuddlesGather : Prop :=
  ∀ (s : State),
    (∀ n k sq f, (s.ctx n).hudFlight k = some f → hudScope f.desc = some .squad → (s.squad sq).fenced = false → s.walkersEnded n sq f = true →
      s.handlesBack n sq f = true → n < 2 → ∃ t, exec (.squadHuddleArrival n k sq) s = .next t ∧
        sq ∈ ((t.ctx n).hud k f.epoch).arrived ∧ (∀ x, x ∈ ((s.ctx n).hud k f.epoch).arrived → x ∈ ((t.ctx n).hud k f.epoch).arrived) ∧ t.squads = s.squads) ∧
    (∀ n k sq f, (s.ctx n).hudFlight k = some f → (s.walkersEnded n sq f = false ∨ s.handlesBack n sq f = false) →
      exec (.squadHuddleArrival n k sq) s = .next s) ∧
    (∀ p : HuddlePkt, s.up = true → (s.ctx p.ctx).lost = false →
      (p.done = true → ((s.ctx p.ctx).hud p.number p.epoch).done = false → exec (.huddlePacket p) s = .next
        ((s.modCtx p.ctx fun c => c.setHud { c.hud p.number p.epoch with done := true }).hudDown p.ctx p.number p.epoch)) ∧
      (p.done = true → ((s.ctx p.ctx).hud p.number p.epoch).done = true → exec (.huddlePacket p) s = .next s) ∧
      (p.done = false → exec (.huddlePacket p) s =
        .next (s.hudRanks p.ctx p.number p.epoch ((List.range (p.hi + 1 - p.lo)).map (p.lo + ·))))) ∧
    (∀ n q f, n < 2 → s.lateFlight n q = some f →
      let t := s.modCtx n fun c => (c.modFl f.seq fun x => { x with expired := true }).modQueue q fun x =>
        { x with halt := if f.desc.cls = .huddle then .huddleDeadline else .collectiveDeadline }
      let h := (s.ctx n).hud (huddleNo f.desc) f.epoch
      (hudScope f.desc = some .squad → exec (.huddleShotClockExpiry n q) s = .next (t.huddleDeadline n q h.number 0 h.arrived.length (2 ^ 32 - 1))) ∧
      (∀ x, hudScope f.desc = some (.device x) →
        exec (.huddleShotClockExpiry n q) s = .next (t.huddleDeadline n q h.number 1 h.arrived.length (2 ^ 32 - 1))) ∧
      (hudScope f.desc = some .slice →
        exec (.huddleShotClockExpiry n q) s = .next (t.huddleDeadline n q h.number 2 h.arrived.length ((s.ctx n).missingRank h))) ∧
      (∀ k tag, hudScope f.desc = none → Descriptor.coll f.desc = some (k, tag) →
        exec (.huddleShotClockExpiry n q) s = .next
          ((t.log 0 0x4402 2 0 0x13 q (leBytes 1 n ++ leBytes 1 q ++ leBytes 2 tag ++ leBytes 4 0 ++ leBytes 4 (s.collKnown n f))).raise 219)))

/-! ## Stacked memory -/

/-- A read burst is answered with the code's correction applied, read again where it cannot be corrected, and indicated where it is known bad; a held
pseudo-channel queues the request while its queue has room, and one that cannot serve takes none. The second read answers or poisons; a scrub read leaves a clean burst, writes a
corrected one back over its own 64 bytes and goes on. Every byte outside the burst is as before. -/
def Obligations.BurstReadsAndScrubs : Prop :=
  (∀ (s : State) (req : Requester) (space off : Nat) (errs : List (Nat × Byte)),
      (s.pcServes (s.pcOf space off) = true →
        let o := s.serving space off
        (s.burstBad space o = false → req ≠ .scrub →
          (∀ d, s.decoded space o errs = .clean d → exec (.memRead req space off errs) s = .next (s.emit (.bytes false d))) ∧
          (∀ syms d, s.decoded space o errs = .corrected syms d → ∃ t, exec (.memRead req space off errs) s = .next t ∧
            t.out.head? = some (.bytes false d) ∧ t.hbm = s.hbm ∧ t.store = s.store)) ∧
        (s.burstBad space o = false → req = .scrub → ∀ d, s.decoded space o errs = .clean d → exec (.memRead req space off errs) s = .next s) ∧
        (s.burstBad space o = false → s.decoded space o errs = .bad →
          exec (.memRead req space off errs) s =
            .next (s.modChan (s.pcOf space o / 512) fun h => { h with reread := h.reread ++ [{ req := req, space := space, off := o, write := none }] })) ∧
        (s.burstBad space o = true → exec (.memRead req space off errs) s = .next (s.indicate req (s.pcOf space o / 512) false))) ∧
      (s.pcServes (s.pcOf space off) = false →
        (s.pcHeld (s.pcOf space off) = true → s.waitingAt (s.pcOf space off) < 32 → exec (.memRead req space off errs) s =
          .next (s.modChan (s.pcOf space off / 512) fun h => { h with heldQ := h.heldQ ++ [({ req := req, space := space, off := off, write := none }, errs)] })) ∧
        (s.pcHeld (s.pcOf space off) = false ∨ 32 ≤ s.waitingAt (s.pcOf space off) → exec (.memRead req space off errs) s = .next s)) ∧
      (space < 12 ∨ s.burstBad space off = false → s.serving space off = off)) ∧
  (∀ (s : State) (c : Nat) (errs : List (Nat × Byte)),
      (∀ r rest, (s.chan c).reread = r :: rest →
        let t := s.modChan c fun h => { h with reread := rest }
        let p := s.pcOf r.space r.off % 512
        (∀ d, s.decoded r.space r.off errs = .clean d →
          exec (.burstReread c errs) s = .next ((t.corrected c p r.space r.off []).deliverBurst r d true)) ∧
        (∀ syms d, s.decoded r.space r.off errs = .corrected syms d →
          exec (.burstReread c errs) s = .next ((t.corrected c p r.space r.off syms).deliverBurst r d true)) ∧
        (s.decoded r.space r.off errs = .bad →
          exec (.burstReread c errs) s = .next ((t.poisonBurst r.space r.off (r.req == .scrub)).indicate r.req c r.write.isSome))) ∧
      ((s.chan c).reread = [] → exec (.burstReread c errs) s = .next s) ∧
      (s.alive = true → s.chanUp c = true → s.maint = true →
        (s.scrubAt c (tget 0 s.mram.scrub c) = none → ∀ u, exec (.scrubRead c errs u) s = .next (s.scrubNext c)) ∧
        (∀ space off, s.scrubAt c (tget 0 s.mram.scrub c) = some (space, off) →
          (∀ u, s.regulate 5 [(space, off)] = none → exec (.scrubRead c errs u) s = .next s) ∧
          (∀ v, s.regulate 5 [(space, off)] = some v →
            (∀ u, v.burstBad space off = true → exec (.scrubRead c errs u) s = .next (v.scrubNext c)) ∧
            (∀ d u, v.burstBad space off = false → s.decoded space off errs = .clean d → exec (.scrubRead c errs u) s = .next (v.scrubNext c)) ∧
            (∀ syms d, v.burstBad space off = false → s.decoded space off errs = .corrected syms d →
              (exec (.scrubRead c errs true) s = .next ((v.scrubNext c).corrected c (s.pcOf space off % 512) space off syms)) ∧
              (space < 12 → ∃ t, exec (.scrubRead c errs false) s = .next t ∧
                (∀ a, a < hbmKey space off ∨ hbmKey space off + 64 ≤ a → cellGet t.hbm a = cellGet s.hbm a) ∧
                (s.pcOf space off ∉ s.mram.lost → ∀ i, i < 64 → cellGet t.hbm (hbmKey space off + i) = d.getD i 0) ∧
                tget 0 t.mram.scrub c = tget 0 (s.scrubNext c).mram.scrub c))))) ∧
      (s.maint = false → ∀ u, exec (.scrubRead c errs u) s = .next s))

/-- A write: a whole burst stores its 64 bytes, in a mirrored region in both copies, and takes its poison mark away; a part of a burst is merged into the corrected
burst, in both copies; a lost pseudo-channel's write is dropped. Every byte of memory outside the burst and its second copy is as before. -/
def Obligations.BurstWritesStoreTheirBytes : Prop :=
  ∀ (s : State) (req : Requester) (space off : Nat) (data : List Byte) (errs : List (Nat × Byte)),
    s.pcServes (s.pcOf space off) = true →
    (space < 12 ∨ otherCopy off = none → s.pcOf space off ∈ s.mram.lost → exec (.memWrite req space off data errs) s = .next s) ∧
    (space < 12 ∨ otherCopy off = none → s.pcOf space off ∉ s.mram.lost → off % 64 = 0 → 64 ≤ data.length → ∃ t, exec (.memWrite req space off data errs) s = .next t ∧
      (∀ i, i < 64 → cellGet t.hbm (hbmKey space off + i) = data.getD i 0) ∧
      (∀ a, a < hbmKey space off ∨ hbmKey space off + 64 ≤ a → cellGet t.hbm a = cellGet s.hbm a) ∧
      (space, off / 64) ∉ (t.chan (s.pcOf space off / 512)).poison ∧
      (∀ x, x ≠ (space, off / 64) → (x ∈ (t.chan (s.pcOf space off / 512)).poison ↔ x ∈ (s.chan (s.pcOf space off / 512)).poison)) ∧
      Only [.hbm, .chans] s t) ∧
    (∀ o, 12 ≤ space → otherCopy off = some o → off % 64 = 0 → 64 ≤ data.length → ∃ t, exec (.memWrite req space off data errs) s = .next t ∧
      (s.pcOf space off ∉ s.mram.lost → ∀ i, i < 64 → cellGet t.hbm (hbmKey space off + i) = data.getD i 0) ∧
      (s.pcOf space o ∉ s.mram.lost → ∀ i, i < 64 → cellGet t.hbm (hbmKey space o + i) = data.getD i 0) ∧
      (∀ a, (a < hbmKey space off ∨ hbmKey space off + 64 ≤ a) → (a < hbmKey space o ∨ hbmKey space o + 64 ≤ a) → cellGet t.hbm a = cellGet s.hbm a) ∧
      Only [.hbm, .chans] s t) ∧
    (∀ o d, 12 ≤ space → otherCopy off = some o → (off % 64 ≠ 0 ∨ data.length < 64) → s.burstBad space off = false → s.decoded space off errs = .clean d →
      ∃ t, exec (.memWrite req space off data errs) s = .next t ∧
        (∀ x, (x = off ∨ x = o) → s.pcOf space x ∉ s.mram.lost →
          (∀ i, i < data.length → off % 64 + i < 64 → cellGet t.hbm (hbmKey space x + i) = data.getD i 0) ∧
          (∀ i, i < 64 → (i < off % 64 ∨ off % 64 + data.length ≤ i) → cellGet t.hbm (hbmKey space (x / 64 * 64) + i) = d.getD i 0)) ∧ Only [.hbm] s t) ∧
    (space < 12 ∨ otherCopy off = none → s.pcOf space off ∉ s.mram.lost → (off % 64 ≠ 0 ∨ data.length < 64) →
      (s.burstBad space off = false →
        (∀ d, s.decoded space off errs = .clean d → ∃ t, exec (.memWrite req space off data errs) s = .next t ∧
          (∀ i, i < data.length → off % 64 + i < 64 → cellGet t.hbm (hbmKey space off + i) = data.getD i 0) ∧
          (∀ i, i < 64 → (i < off % 64 ∨ off % 64 + data.length ≤ i) → cellGet t.hbm (hbmKey space (off / 64 * 64) + i) = d.getD i 0) ∧
          (∀ a, a < hbmKey space (off / 64 * 64) ∨ hbmKey space (off / 64 * 64) + 64 ≤ a → cellGet t.hbm a = cellGet s.hbm a) ∧ Only [.hbm] s t) ∧
        (∀ syms d, s.decoded space off errs = .corrected syms d → ∃ t, exec (.memWrite req space off data errs) s = .next t ∧
          (∀ i, i < data.length → off % 64 + i < 64 → cellGet t.hbm (hbmKey space off + i) = data.getD i 0) ∧
          (∀ i, i < 64 → (i < off % 64 ∨ off % 64 + data.length ≤ i) → cellGet t.hbm (hbmKey space (off / 64 * 64) + i) = d.getD i 0) ∧
          (∀ a, a < hbmKey space (off / 64 * 64) ∨ hbmKey space (off / 64 * 64) + 64 ≤ a → cellGet t.hbm a = cellGet s.hbm a)) ∧
        (s.decoded space off errs = .bad → ∃ t, exec (.memWrite req space off data errs) s = .next t ∧ t.hbm = s.hbm ∧
          (t.chan (s.pcOf space off / 512)).reread = (s.chan (s.pcOf space off / 512)).reread ++
            [{ req := req, space := space, off := off, write := some (data.take (64 - off % 64)) }])) ∧
      (s.burstBad space off = true → exec (.memWrite req space off data errs) s = .next (s.indicate req (s.pcOf space off / 512) true)))

/-- Loss and retraining: a failed stack or hardware channel loses its pseudo-channels, a pseudo-channel is held for retraining alone in its stack,
released at its end, which marks the lines that failed it and begins its time-outs anew, when the requests that waited for it are performed in their order, and lost at the third time-out in a row. -/
def Obligations.RetrainingHoldsAndReleases : Prop :=
  ∀ (s : State) (c p : Nat),
    (s.alive = true → s.chanUp c = true → ∀ k,
      exec (.stackFailure c k none) s = .next (((List.range 64).map (64 * k + ·)).foldl (fun (t : State) x => t.losePc c x) s) ∧
      ∀ h, exec (.stackFailure c k (some h)) s = .next ((s.losePc c (64 * k + 2 * h)).losePc c (64 * k + 2 * h + 1))) ∧
    (s.alive = true → s.chanUp c = true → s.maintFor 4999 = true → (∀ q, q ∈ (s.chan c).held → q / 64 ≠ p / 64) → c * 512 + p ∉ s.mram.lost →
      exec (.retrainingStart c p) s = .next (s.modChan c fun h => { h with held := h.held ++ [p] })) ∧
    ((∃ q, q ∈ (s.chan c).held ∧ q / 64 = p / 64) → exec (.retrainingStart c p) s = .next s) ∧
    (p ∈ (s.chan c).held →
      (∀ l, exec (.retrainingDone c p l) s = .next (l.foldl (fun (t : State) x => t.markLine c p x)
        ((s.release_ c p).modChan c fun h => { h with trainFails := tset 0 h.trainFails p 0, trainTime := tset 0 h.trainTime p s.clk.ltb }))) ∧
      (tget 0 (s.chan c).trainFails p < 2 → exec (.retrainingTimeout c p) s = .next
        ((s.release_ c p).modChan c fun h => { h with trainFails := tset 0 h.trainFails p (tget 0 (s.chan c).trainFails p + 1) })) ∧
      (2 ≤ tget 0 (s.chan c).trainFails p → exec (.retrainingTimeout c p) s = .next
        (((s.release_ c p).modChan c fun h => { h with trainFails := tset 0 h.trainFails p (tget 0 (s.chan c).trainFails p + 1) }).losePc c p))) ∧
    (s.release_ c p = (((s.chan c).heldQ.filter fun e => s.pcOf e.1.space e.1.off == c * 512 + p).foldl (fun (u : State) e => u.perform e.1 e.2)
      (s.modChan c fun h => { h with held := h.held.filter (· != p), heldQ := h.heldQ.filter fun e => !(s.pcOf e.1.space e.1.off == c * 512 + p) })).serveOpen) ∧
    (p ∉ (s.chan c).held → exec (.retrainingTimeout c p) s = .next s ∧ ∀ l, exec (.retrainingDone c p l) s = .next s)

/-- The regulator and refresh: the slot goes to the partition that the rule picks and costs one with enough tokens 64 bytes, without tokens it goes to one that may
borrow it, at no cost, or to none; a rate is kept where the six rates stay within 256, a burst is kept between its bounds and clamps the bucket, locked pages keep
theirs; a refresh takes the stack's temperature and
adds its error reports. -/
def Obligations.RegulatorAndRefresh : Prop :=
  ∀ (s : State) (c : Nat),
    (∀ waiting p, (pickPart (fun p => s.reguF c p 2 % 4) (tget 5 (s.chan c).lastServed)
        ((waiting.filter (· < 6)).filter fun p => decide (640 ≤ s.tokens c p)) = some p) →
      ∃ t, exec (.memBurstSlot c waiting false) s = .next t ∧ t.tokens c p = s.tokens c p - 640 ∧
        tget 5 (t.chan c).lastServed (s.reguF c p 2 % 4) = p ∧ (∀ q, q ≠ p → t.tokens c q = s.tokens c q) ∧ Only [.chans] s t) ∧
    (∀ waiting, (∀ p, p ∈ waiting → p < 6 → s.tokens c p < 640) →
      (∀ p, pickPart (fun p => s.reguF c p 2 % 4) (tget 5 (s.chan c).lastServed) ((waiting.filter (· < 6)).filter fun p => s.reguF c p 3 % 2 == 0) = some p →
        ∃ t, exec (.memBurstSlot c waiting false) s = .next t ∧ tget 5 (t.chan c).lastServed (s.reguF c p 2 % 4) = p ∧
          (∀ q, t.tokens c q = s.tokens c q) ∧ Only [.chans] s t) ∧
      ((∀ p, p ∈ waiting → p < 6 → s.reguF c p 3 % 2 = 1) → exec (.memBurstSlot c waiting false) s = .next s)) ∧
    (s.alive = true → s.chanUp c = true → ∀ k x, ∃ t, exec (.refresh c k x) s = .next t ∧ tget 0 (t.chan c).stackTemp k = x.temp ∧
      tget 0 (t.chan c).odEcc k = tget 0 (s.chan c).odEcc k + x.odEcc ∧
      ∀ j, j ≠ k → tget 0 (t.chan c).stackTemp j = tget 0 (s.chan c).stackTemp j ∧ tget 0 (t.chan c).odEcc j = tget 0 (s.chan c).odEcc j) ∧
    (s.alive = true → s.chanUp c = true → ∀ x, exec (.scrubBehind c x) s = .next ((s.log c 0x2C01 1 0 0x20 c (leBytes 4 x)).raise (179 + 4 * c))) ∧
    (s.chanUp c = true → s.bit (pgREGU c + 0x2C) 0 = false → ∀ part v, part < 6 →
      (((List.range 6).map fun p => if p = part then v % 512 else s.reguF c p 0).sum ≤ 256 →
        exec (.reguRateWrite c part v) s = .next (s.setRg (pgREGU c + 0x100 + 16 * part) (v % 512))) ∧
      (256 < ((List.range 6).map fun p => if p = part then v % 512 else s.reguF c p 0).sum →
        exec (.reguRateWrite c part v) s = .next (s.pageFault (pgREGU c) 0)) ∧
      (exec (.reguBurstWrite c part v) s = .next
        ((s.setRg (pgREGU c + 0x104 + 16 * part) (max 4 (min 65536 v))).setTokens c part
          (min (s.tokens c part) (((max 4 (min 65536 v)) * 10240 : Nat) : Int))))) ∧
    (s.chanUp c = true → s.bit (pgREGU c + 0x2C) 0 = true → ∀ part v,
      (s.rg (pgREGU c + 0x100 + 16 * part) ≠ v % 512 → exec (.reguRateWrite c part v) s = .next (s.lockedWrite (pgREGU c))) ∧
      (s.rg (pgREGU c + 0x100 + 16 * part) = v % 512 → exec (.reguRateWrite c part v) s = .next s) ∧
      (s.rg (pgREGU c + 0x104 + 16 * part) ≠ max 4 (min 65536 v) → exec (.reguBurstWrite c part v) s = .next (s.lockedWrite (pgREGU c))) ∧
      (s.rg (pgREGU c + 0x104 + 16 * part) = max 4 (min 65536 v) → exec (.reguBurstWrite c part v) s = .next s))

/-- The rebuild: refused with the locked-write bit while a root maps user memory, else it runs until its end, which removes the lost and retire-pending
pseudo-channels, empties the poison lists, reports the capacity that is left and records it. -/
def Obligations.RebuildRemovesTheLost : Prop :=
  ∀ (s : State),
    (s.mapsUser = true → exec .rebuild s = .next (s.lockedWrite pgDEV)) ∧
    (s.mapsUser = false → exec .rebuild s = .next (s.setDev { s.dev with rebuildBusy := true, rebuildDone := false })) ∧
    (s.dev.rebuildBusy = false → exec .rebuildDone s = .next s) ∧
    (s.dev.rebuildBusy = true → ∃ t, exec .rebuildDone s = .next t ∧
      t = (s.rebuilt.setDev { s.rebuilt.dev with rebuildBusy := false, rebuildDone := true }).log 4 0x2C03 0 0 0x56 0 (leBytes 4 s.rebuilt.dev.userCap) ∧
      (∀ c, c < 4 → ((s.rebuilt).chan c).poison = [] ∧ ((s.rebuilt).chan c).lostSince = 0 ∧
        ∀ p, p < 512 → (p ∈ ((s.rebuilt).chan c).removed ↔ c * 512 + p ∈ s.mram.lost ∨ c * 512 + p ∈ s.mram.retire)) ∧
      s.rebuilt.store = s.store ∧ s.rebuilt.mram = s.mram)

/-! ## Translation and DMA -/

/-- Translation: a leaf that allows the access fills the cache of its channel, a fault suspends the engine's context with its log; a root is written only
while the context is not started and empties its cached entries; an invalidation removes the entries it covers and runs until its end. -/
def Obligations.TranslationWalksAndInvalidations : Prop :=
  ∀ (s : State) (n : Nat),
    (∀ req va write home, s.alive = true → s.chanUp (reqChan req) = true → req ≠ .host → req ≠ .scrub →
      (∀ sp base lg r w p e, s.walk n va.toNat = .leaf sp base lg r w p e → leafFault (match req with | .spill c => some c | _ => none) home write sp r w p = none →
        exec (.translationWalk n req va write home) s = .next (s.cacheFill n (reqChan req) (cacheOf req) va.toNat lg e)) ∧
      (∀ ft l, s.walk n va.toNat = .fault ft l → exec (.translationWalk n req va write home) s = .next (s.walkFault n req va write ft l)) ∧
      (∀ sp base lg r w p e ft, s.walk n va.toNat = .leaf sp base lg r w p e →
          leafFault (match req with | .spill c => some c | _ => none) home write sp r w p = some ft →
        exec (.translationWalk n req va write home) s =
          .next (s.walkFault n req va write ft (match lg with | 30 => 1 | 21 => 2 | _ => 3)))) ∧
    (∀ v : W64, n < 2 → (s.ctx n).started = false → ∃ t, exec (.mmuRootWrite n v) s = .next t ∧ t.root n = v.toNat ∧
      (∀ c, c < 4 → (t.chan c).tlb = (s.chan c).tlb.filter fun e => e.ctx != n)) ∧
    (∀ v : W64, (s.ctx n).started = true → s.root n = v.toNat → exec (.mmuRootWrite n v) s = .next s) ∧
    (∀ v : W64, (s.ctx n).started = true → s.root n ≠ v.toNat → exec (.mmuRootWrite n v) s = .next (s.lockedWrite pgMMU)) ∧
    (∀ va pages all, s.bit (pgMMU + 0x11C) 8 = true → exec (.mmuInval n va pages all) s = .next (s.badCommand pgMMU)) ∧
    (∀ va pages all, s.bit (pgMMU + 0x11C) 8 = false → ∃ t, exec (.mmuInval n va pages all) s = .next t ∧ t.bit (pgMMU + 0x11C) 8 = true ∧
      (∀ c, c < 4 → ∀ e, e ∈ (t.chan c).tlb ↔ e ∈ (s.chan c).tlb ∧ e.hit n (bits va.toNat 47 16 * 65536) (max 1 (pages % 2 ^ 32) * 65536) all = false)) ∧
    (∃ t, exec .mmuInvalDone s = .next t ∧ t.bit (pgMMU + 0x11C) 8 = false ∧ ∀ a, homeAddr a ≠ homeAddr (pgMMU + 0x11C) → t.rg a = s.rg a) ∧
    (n < 2 → exec (.mmuFlogAck n) s = .next (s.modCtx n fun c => { c with flog := [], flogLost := 0 }))

/-- The DMA commands of a host-owned channel: START takes the registers' transfer, one that breaks a bound or has no mode is rejected with its status, ABORT stops
at the last committed burst and does nothing where nothing runs, RESUME goes on where a restartable transfer stopped; START and RESUME out of their place, and any
of the three on a channel that the host does not own, are bad commands. -/
def Obligations.DmaCommandsStartAndStop : Prop :=
  ∀ (s : State) (c d : Nat), s.chanUp c = true →
    (s.hostOwned c d = false → exec (.dmaStart c d) s = .next (s.badCommand (pgDMACH c d)) ∧ exec (.dmaAbort c d) s = .next (s.badCommand (pgDMACH c d)) ∧
      exec (.dmaResume c d) s = .next (s.badCommand (pgDMACH c d))) ∧
    (s.hostOwned c d = true →
      (∀ m, (s.dma c d).state ≠ 1 → (s.dma c d).disabled = false → modeOf (bits (s.rg (pgDMACH c d + 8)) 10 8) = some m →
        ((s.hostXfer c d m).bad = none → ∃ t, exec (.dmaStart c d) s = .next t ∧ (t.dma c d).state = 1 ∧ (t.dma c d).xfer = some (s.hostXfer c d m) ∧
          (t.dma c d).restartable = false ∧ Only [.chans] s t) ∧
        (∀ b, (s.hostXfer c d m).bad = some b → exec (.dmaStart c d) s = .next (s.dmaReject c d (s.hostXfer c d m) b))) ∧
      ((s.dma c d).state ≠ 1 → (s.dma c d).disabled = false → modeOf (bits (s.rg (pgDMACH c d + 8)) 10 8) = none →
        exec (.dmaStart c d) s = .next (s.dmaReject c d (s.hostXfer c d .prefetch) (2, 5))) ∧
      ((s.dma c d).state = 1 ∨ (s.dma c d).disabled = true → exec (.dmaStart c d) s = .next (s.badCommand (pgDMACH c d))) ∧
      (∀ x, (s.dma c d).state = 1 → (s.dma c d).xfer = some x → ∃ t, exec (.dmaAbort c d) s = .next t ∧
        t = (s.dmaStop c d x 1 8 0 0).dmaSignal c d 1 ∧ (t.dma c d).state = 2 ∧ (t.dma c d).xfer = some x.committed ∧ (t.dma c d).restartable = true ∧
        t.hbm = s.hbm ∧ t.store = s.store) ∧
      ((s.dma c d).state ≠ 1 → exec (.dmaAbort c d) s = .next s) ∧
      ((s.dma c d).state ≠ 1 → (s.dma c d).restartable = true → ∃ t, exec (.dmaResume c d) s = .next t ∧ (t.dma c d).state = 1 ∧
        (t.dma c d).xfer = (s.dma c d).xfer ∧ Only [.chans] s t) ∧
      ((s.dma c d).state = 1 ∨ (s.dma c d).restartable = false → exec (.dmaResume c d) s = .next (s.badCommand (pgDMACH c d))))

/-- One DMA burst: it moves its bytes or none. A run to the host changes no byte of memory; a run to a squad store writes exactly its bytes; an index out
of bounds and a translation fault stop the transfer, a hole of a scatter passes over its element; an ordering read marks what has been committed and ends a
transfer that is complete, and a scatter-add to host memory waits for it before its next sum. -/
def Obligations.DmaBurstsMoveTheirBytes : Prop :=
  ∀ (s : State) (c d : Nat) (x : Xfer) (host : List Byte), (s.dma c d).state = 1 → (s.dma c d).xfer = some x →
    (s.chanUp c = true → s.dmaRuns x = true → x.pos < x.total →
      ¬ (x.dstHost = true ∧ x.mode = .scatterAdd ∧ x.ordered ≠ x.pos) →
      (∀ k l, s.nextBurst x = .move k l → exec (.dmaBurstCommit c d host) s = .next (s.dmaMove c d x k l host)) ∧
      (∀ f a b, s.nextBurst x = .fail f a b → exec (.dmaBurstCommit c d host) s = .next (s.dmaFault c d x f a b false)) ∧
      (s.nextBurst x = .index → exec (.dmaBurstCommit c d host) s = .next (s.dmaIndex c d x)) ∧
      (s.nextBurst x = .hole → exec (.dmaBurstCommit c d host) s = .next (s.dmaMoved c d x (x.elem - x.eoff))) ∧
      (∀ t, exec (.dmaBurstCommit c d host) s = .next t → s.side x 1 = .host → t.hbm = s.hbm ∧ t.store = s.store) ∧
      (∀ k ps q l, s.nextBurst x = .move k ps → s.side x 1 = .store q → x.mode ≠ .scatterAdd → s.partsRead x ps host = .inr l →
        ∃ t, exec (.dmaBurstCommit c d host) s = .next t ∧ t.hbm = s.hbm ∧
          (∀ i (h : i < l.length), cellGet t.store (storeKey q (x.addr false k) + i) = l[i]) ∧
          (∀ j, j < storeKey q (x.addr false k) ∨ storeKey q (x.addr false k) + l.length ≤ j → cellGet t.store j = cellGet s.store j))) ∧
    (x.dstHost = true → x.mode = .scatterAdd → x.ordered ≠ x.pos → exec (.dmaBurstCommit c d host) s = .next s) ∧
    (x.dstHost = true → x.pos < x.total → ∃ t, exec (.dmaOrderingRead c d) s = .next t ∧ (t.dma c d).xfer = some { x with ordered := x.pos } ∧
      (t.dma c d).state = 1 ∧ Only [.chans] s t) ∧
    (x.dstHost = true → x.total ≤ x.pos → exec (.dmaOrderingRead c d) s = .next
      ((s.modDma c d fun k => { k with xfer := some { x with ordered := x.pos } }).dmaDone c d { x with ordered := x.pos })) ∧
    (x.dstHost = false → exec (.dmaOrderingRead c d) s = .next s)

/-! ## Faults, fences and Sideline -/

/-- An engine that fails has its work dealt again where it can be recomputed and loses the context where not, a channel manager's second miss within an hour
takes its channel down; a fence stops its engine and says so where it is read, a squad's is kept in MRAM with its cause and a second one changes nothing. -/
def Obligations.FaultsAndFencesStopEngines : Prop :=
  (∀ (s : State),
      (∀ e h n f, s.spilling = false → s.engineWork e = some (n, f) → s.recomputable n h = true → exec (.detectorFault e (some h)) s = .next (s.engineFails e)) ∧
      (∀ e h n f, s.spilling = false → s.engineWork e = some (n, f) → s.recomputable n h = false →
        exec (.detectorFault e (some h)) s = .next (s.loseByDevice n 3 f.queue f.qindex f.seq)) ∧
      (s.alive = true → s.spilling = false → ∀ e h, s.engineWork e = none → exec (.detectorFault e (some h)) s = .next (s.engineFails e)) ∧
      (s.alive = true → ∀ e, exec (.detectorFault e none) s = .next (s.engineFails e) ∧ exec (.engineWatchdog e) s = .next (s.engineFails e)) ∧
      (s.alive = false → ∀ e, exec (.engineWatchdog e) s = .next s) ∧
      (s.alive = true → ∀ c, s.chanUp c = true →
        ((∀ t, (s.chan c).wdMiss = some t → t + 3600000000000 ≤ s.clk.ltb) →
          exec (.cmgrWatchdog c) s =
            .next ((s.modChan c fun h => { h with wdMiss := some s.clk.ltb }).log c 0x0C01 1 0 0x40 c (leBytes 1 c))) ∧
        (∀ t, (s.chan c).wdMiss = some t → s.clk.ltb < t + 3600000000000 → exec (.cmgrWatchdog c) s = .next (s.channelDown c)))) ∧
  (∀ (s : State), s.alive = true →
      (∀ sq, s.chanUp (sq / 16) = true → (s.squad sq).fenced = false → ∃ t, exec (.sqFenceWrite sq) s = .next t ∧ (t.squad sq).fenced = true ∧
        tfind t.mram.fences sq = some 6) ∧
      (∀ sq, s.chanUp (sq / 16) = true → (s.squad sq).fenced = true → exec (.sqFenceWrite sq) s = .next s) ∧
      (∀ c d, s.chanUp c = true → exec (.dmachFenceWrite c d) s = .next (s.dmaDisable c d) ∧ ((s.dmaDisable c d).dma c d).disabled = true) ∧
      (∀ n, s.chanUp (n / 6) = true → ∃ t, exec (.lnkFenceWrite n) s = .next t ∧ (t.link n).fenced = true ∧ (t.link n).inService = false) ∧
      (∀ w (v : Half), 2 ≤ w → w < 6 → exec (.wpFenceWrite w v) s =
        .next (((List.range 16).filter fun i => v.toNat / 2 ^ i % 2 == 1).foldl (fun (t : State) i => t.fence (16 * (w - 2) + i) 6) s)))

/-- Clearing a fence, the field repairs of a squad and a channel reset: all need both contexts not started, and are locked writes otherwise; a fence list
without the squad, a usable channel and a link that may train again are left. -/
def Obligations.FencesAreClearedWhenNothingRuns : Prop :=
  ∀ (s : State), s.alive = true →
    (s.noneStarted = true →
      (∀ sq, s.chanUp (sq / 16) = true → ∃ t, exec (.fenceClear (.squad sq)) s = .next t ∧ tfind t.mram.fences sq = none ∧
        (∀ k, k ≠ sq → tfind t.mram.fences k = tfind s.mram.fences k) ∧ Only [.mram] s t) ∧
      (∀ c d, s.chanUp c = true → ∃ t, exec (.fenceClear (.dma c d)) s = .next t ∧ (t.dma c d).disabled = false ∧ Only [.chans] s t) ∧
      (∀ n, s.chanUp (n / 6) = true → ∃ t, exec (.fenceClear (.port n)) s = .next t ∧ (t.link n).fenced = false ∧ Only [.links] s t) ∧
      (∀ sq, s.chanUp (sq / 16) = true → ∃ t, exec (.arrClearField sq) s = .next t ∧ sq ∈ t.mram.fieldDrop ∧ Only [.mram] s t) ∧
      (∀ c b, s.jtag.stack = none → exec (.channelReset c b) s = .next (s.resetChan c b).takePending) ∧
      (∀ c b k, s.jtag.stack = some k → k / 8 ≠ c → exec (.channelReset c b) s = .next (s.resetChan c b).takePending) ∧
      (∀ c b k, s.jtag.stack = some k → k / 8 = c → exec (.channelReset c b) s = .next (s.modChan c fun h => { h with inReset := true }))) ∧
    (s.noneStarted = false →
      (∀ sq, s.chanUp (sq / 16) = true → exec (.fenceClear (.squad sq)) s = .next (s.lockedWrite (pgSQ sq)) ∧
        exec (.arrClearField sq) s = .next (s.lockedWrite (pgARR sq))) ∧
      (∀ c b, exec (.channelReset c b) s = .next (s.lockedWrite (pgCMGR c))))

/-- Sideline: each of its commands leaves an operating device in Sideline with both contexts lost and the ALERT bit 0 set; the Watch Port's command needs
its exact value and the pin its 1 µs, which waits for a channel that is in reset. -/
def Obligations.SidelineStopsBothContexts : Prop :=
  ∀ (s : State), s.up = true →
    (∀ trigger c, ∃ t, t = s.sideline trigger c ∧ t.dev.mode = .sideline ∧ t.ctx0.lost = true ∧ t.ctx1.lost = true ∧ t.watch.alert.getLsbD 0 = true ∧
      t.hbm = s.hbm ∧ t.store = s.store ∧ t.mram.lost = s.mram.lost) ∧
    exec .devModeSideline s = .next (s.sideline 9 0xFF) ∧
    (∀ ns, 1000 ≤ ns → s.resetting = false → exec (.sidelineNInput ns) s = .next (s.sideline 7 0xFF)) ∧
    (∀ ns, 1000 ≤ ns → s.resetting = true → ∃ t, exec (.sidelineNInput ns) s = .next t ∧ t.dev.mode = s.dev.mode ∧ t.dev.sidelinePending.isSome = true) ∧
    (∀ v, s.dev.sidelinePending = some v → s.resetting = false → s.takePending.dev.mode = .sideline) ∧
    (∀ ns, ns < 1000 → exec (.sidelineNInput ns) s = .next s) ∧
    exec (.wpSidelineCmd 0x51DE#16) s = .next (s.sideline 8 0xFF) ∧
    (∀ v : Half, v ≠ 0x51DE#16 → exec (.wpSidelineCmd v) s = .next s)

/-- R156: a channel is taken down when it has more than 32 pseudo-channels lost or retire-pending in total, or more than 16 lost since its last rebuild;
the loss of a whole stack does both; a channel taken down puts the device into Sideline mode. -/
def Obligations.ChannelsGoDownPastTheirLimits : Prop :=
  ∀ (s : State) (c : Nat),
    (32 < ((s.mram.lost ++ s.mram.retire).dedup.filter fun k => k / 512 == c).length ∨ 16 < (s.chan c).lostSince → s.lossLimits c = s.channelDown c) ∧
    (((s.mram.lost ++ s.mram.retire).dedup.filter fun k => k / 512 == c).length ≤ 32 → (s.chan c).lostSince ≤ 16 → s.lossLimits c = s) ∧
    (∀ p, c * 512 + p ∉ s.mram.lost → (s.chan c).down = false → (((s.losePc c p).chan c).down = true ↔
      32 < ((s.mram.lost ++ [c * 512 + p] ++ s.mram.retire).dedup.filter fun k => k / 512 == c).length ∨ 16 < (s.chan c).lostSince + 1)) ∧
    (∀ p, c * 512 + p ∉ s.mram.lost → c * 512 + p ∉ s.mram.retire → (s.chan c).down = false → (((s.retirePc c p 1).chan c).down = true ↔
      32 < ((s.mram.lost ++ (s.mram.retire ++ [c * 512 + p])).dedup.filter fun k => k / 512 == c).length ∨ 16 < (s.chan c).lostSince)) ∧
    (s.up = true → (s.chan c).down = false → ((s.channelDown c).chan c).down = true ∧ (s.channelDown c).dev.mode = .sideline) ∧
    (∀ k, k < 8 → s.up = true → s.chanUp c = true → (∃ p, 64 * k ≤ p ∧ p < 64 * k + 64 ∧ c * 512 + p ∉ s.mram.lost) →
      ∃ t, exec (.stackFailure c k none) s = .next t ∧ (t.chan c).down = true ∧ t.dev.mode = .sideline ∧
        32 < ((t.mram.lost ++ t.mram.retire).dedup.filter fun x => x / 512 == c).length)

/-! ## The on-chip network -/

/-- R194: a packet from squad to squad of a channel without holes moves along its row to the destination column, then along the column, one router at a
time, and is delivered at its destination; at each router and link class CTRL goes first. -/
def Obligations.PacketsMoveRowThenColumn : Prop :=
  ∀ (s : State) (c a b : Nat), a < 16 → b < 16 → s.net.holesOf c = [] →
    (∃ row col, (∀ x : Transit, x.chan = c → x.router = a → x.goal.chan = c → x.goal.router = b → s.net.wayOf x = some (row ++ col)) ∧
      (∀ x, x ∈ row → x / 4 = a / 4) ∧ ((row.getLast?.getD a) = 4 * (a / 4) + b % 4) ∧
      (∀ x, x ∈ col → x % 4 = b % 4) ∧ ((row ++ col).getLast?.getD a = b) ∧
      List.IsChain (fun x y => adjacent x y = true) (a :: (row ++ col))) ∧
    (s.alive = true → s.chanUp c = true →
      (∀ x r dest, (s.chan c).injectStop = false → a ≠ b → x.goal = ⟨c, b, none⟩ →
        byClass (tget 0 s.net.rrCls (hopKey c a a)) (s.net.inq.filter fun y => y.chan == c && y.router == a && s.net.fits y a) = some x →
        s.net.wayOf x = some r →
        exec (.routerPacketArrival c a a dest none) s = .next (s.setNet { s.net with inq := s.net.inq.erase x, rrCls := tset 0 s.net.rrCls (hopKey c a a) x.cls, transit := s.net.transit ++ [{ x with route := r, set := routeSet a r }] })) ∧
      (∀ x y r dest, a ≠ y →
        byClass (tget 0 s.net.rrCls (hopKey c a y)) (s.net.transit.filter (fun z => z.chan == c && z.router == a && z.route.head? == some y && s.net.fits z y)) = some x →
        x.route = y :: r → x.goal = ⟨c, b, none⟩ →
        let t : State := s.setNet { s.net with transit := s.net.transit.erase x, rrCls := tset 0 s.net.rrCls (hopKey c a y) x.cls }
        (r ≠ [] → exec (.routerPacketArrival c a y dest none) s = .next (t.setNet { t.net with transit := t.net.transit ++ [{ x with router := y, route := r }] })) ∧
        (r = [] → y = b → x.cls ≠ memCls → exec (.routerPacketArrival c a y dest none) s = .next (t.deliver x.pkt)) ∧
        (r = [] → y = b → x.cls = memCls → exec (.routerPacketArrival c a y dest none) s = .next (t.emit (.deliver x.pkt)))) ∧
      (∀ last l x, byClass last l = some x → x ∈ l ∧ ((∃ y, y ∈ l ∧ y.cls = 0) → x.cls = 0)))

/-- What fails in a channel's network: a hole fences its squad, stops injection until the detours are set, and takes the channel down beside another; a
failed edge router takes its pseudo-channels and the channel; one ring link is gone round, a second takes the channel; a packet crosses a seam's lane, which goes
out when its retries are used up. -/
def Obligations.NetworkFailuresAreContained : Prop :=
  ∀ (s : State) (c : Nat), s.alive = true → s.chanUp c = true →
    (∀ sq, sq / 16 = c → sq ∉ s.net.holes →
      let t := ((s.setNet { s.net with holes := s.net.holes ++ [sq] }).log c 0x3001 2 3 0x06 sq (leBytes 2 sq)).fence sq 3
      ((s.net.holesOf c).length < 2 → (s.net.holesOf c).any (adjacent (sq % 16)) = false →
        exec (.routerHole sq) s = .next (t.modChan c fun h => { h with injectStop := true })) ∧
      (2 ≤ (s.net.holesOf c).length ∨ (s.net.holesOf c).any (adjacent (sq % 16)) = true → exec (.routerHole sq) s = .next (t.channelDown c))) ∧
    ((s.chan c).injectStop = true → ∃ t, exec (.detourResume c) s = .next t ∧ (t.chan c).injectStop = false ∧
      (∀ x, x ∈ t.net.transit → x.chan = c → x.router ∉ s.net.holesOf c) ∧
      (∀ x, x ∈ s.net.transit → x.chan ≠ c → x ∈ t.net.transit)) ∧
    (∀ e, e < 16 → c * 16 + e ∉ s.net.edgeOut → exec (.edgeRouterFailure c e) s =
      .next (((List.range 32).foldl (fun (u : State) i => u.losePc c (32 * e + i)) (s.setNet { s.net with edgeOut := s.net.edgeOut ++ [c * 16 + e] })).channelDown c)) ∧
    (∀ e, (c, e) ∉ s.net.ringOut →
      let t := s.setNet { s.net with ringOut := s.net.ringOut ++ [(c, e)] }
      ((s.net.ringOut.filter fun x => x.1 == c) = [] → exec (.ringLinkFailure c e) s = .next (t.reroute c)) ∧
      ((s.net.ringOut.filter fun x => x.1 == c) ≠ [] → exec (.ringLinkFailure c e) s = .next (t.channelDown c))) ∧
    (∀ j lane, s.chanUp (seamPeer c j) = true → (s.chan c).injectStop = false → (seamId c j, lane) ∉ s.net.seamOut →
      let t := s.setNet { s.net with seamRetry := tset 0 s.net.seamRetry (4 * seamId c j + lane) 0 }
      (s.net.seamHead c j lane = none → exec (.seamFlit c j lane true none) s = .next t) ∧
      (∀ x, s.net.seamHead c j lane = some x → exec (.seamFlit c j lane true (some x.pkt)) s =
        .next ((t.setNet { t.net with transit := t.net.transit.erase x }).route { x with chan := c, router := 16 + seamRouter j lane, lane := lane })) ∧
      (∀ ok p, (s.net.seamHead c j lane).map (·.pkt) ≠ p → exec (.seamFlit c j lane ok p) s = .next s) ∧
      (∀ p, (s.net.seamHead c j lane).map (·.pkt) = p → tget 0 s.net.seamRetry (4 * seamId c j + lane) < Config.seamRetries → exec (.seamFlit c j lane false p) s =
        .next (s.setNet { s.net with seamRetry := tset 0 s.net.seamRetry (4 * seamId c j + lane) (tget 0 s.net.seamRetry (4 * seamId c j + lane) + 1) })) ∧
      (∀ p, (s.net.seamHead c j lane).map (·.pkt) = p → Config.seamRetries ≤ tget 0 s.net.seamRetry (4 * seamId c j + lane) → ∃ t, exec (.seamFlit c j lane false p) s = .next t ∧
        (seamId c j, lane) ∈ t.net.seamOut))

/-- A combine node keeps a child's packet until its sibling's of the same offset, whose value is left combined with right whichever came last; a grant of the tag's
epoch, an abort of a later one and a restart act on their tag, and a grant of a later epoch is kept. Bytes of a multicast group are read once and go to every
receiver, into the buffers of one that is attached and behind the spilled copies of one that is not; a detached receiver that has caught up is attached again. -/
def Obligations.CollectivesAndMulticast : Prop :=
  (∀ (s : State) (n tag l off : Nat) (data : List Byte) (g : Tag) (f : Flight) (k : CollKind), (s.ctx n).tagOf tag = some (g, f, k) →
      (g.aborted = true → ∀ right, exec (.combineNode n tag l right off data) s = .next s) ∧
      (g.aborted = false → l ≤ topLevel ((s.ctx n).opIndex (collOwner k)) (s.ctx n).members →
        (s.ctx n).opIndex (collOwner k) + 2 ^ (l - 1) < (s.ctx n).members →
        let nd := s.net.nodeAt n tag l (collOp k)
        (nd.right.find? (fun e => e.1 == off) = none → exec (.combineNode n tag l false off data) s =
          .next (s.setNet (s.net.setNode { nd with left := nd.left ++ [(off, data)] }))) ∧
        (nd.left.find? (fun e => e.1 == off) = none → exec (.combineNode n tag l true off data) s =
          .next (s.setNet (s.net.setNode { nd with right := nd.right ++ [(off, data)] }))) ∧
        (∀ r, nd.right.find? (fun e => e.1 == off) = some (off, r) → exec (.combineNode n tag l false off data) s =
          .next ((s.setNet (s.net.setNode { nd with right := nd.right.filter fun x => x.1 != off })).feedNode n tag 39 (l + 1) false off (combineBytes nd.op data r))) ∧
        (∀ r, nd.left.find? (fun e => e.1 == off) = some (off, r) → exec (.combineNode n tag l true off data) s =
          .next ((s.setNet (s.net.setNode { nd with left := nd.left.filter fun x => x.1 != off })).feedNode n tag 39 (l + 1) false off (combineBytes nd.op r data)))) ∧
      (n < 2 → ∃ t, exec (.tagGrant n tag g.epoch) s = .next t ∧ (∀ x, x ∈ (t.ctx n).tags → x.tag = tag → x.granted = true) ∧
        (k ≠ .allGather → ∀ x, x ∈ t.net.nodes → ¬ (x.ctx = n ∧ x.tag = tag ∧ x.node = 0)) ∧
        (k = .allGather → g.aborted = false → g.granted = false → t = (s.modCtx n fun c => { c with tags := c.tags.map fun x =>
          if x.tag = tag then { x with granted := true } else x }).gatherOut n tag g.epoch f)) ∧
      (∀ e, e < g.epoch → exec (.tagGrant n tag e) s = .next s) ∧
      (∀ e, g.epoch < e → exec (.tagGrant n tag e) s = .next (s.modCtx n fun c => { c with grants := c.grants.filter (fun x => x.1 != tag) ++ [(tag, e)] })) ∧
      (∀ e, n < 2 → (s.ctx n).tags.find? (fun x => x.tag == tag) = some g → g.epoch < e → ∃ t, exec (.collectiveAbort n tag e) s = .next t ∧
        (∀ x, x ∈ t.net.nodes → ¬ (x.ctx = n ∧ x.tag = tag)) ∧ (∀ x, x ∈ (t.ctx n).tags → x.tag = tag → x.aborted = true ∧ x.epoch = e)) ∧
      (∀ e, (s.ctx n).tags.find? (fun x => x.tag == tag) = some g → e ≤ g.epoch → exec (.collectiveAbort n tag e) s = .next s) ∧
      (g.aborted = true → s.working n = true →
        let t := (s.modCtx n fun c => { c with tags := c.tags.map fun x => if x.tag = tag then { x with aborted := false } else x }).emit (.restart n tag g.epoch)
        (∀ e w, t.enterFail n f k tag = some (e, w) → exec (.collectiveRestart n tag) s = .next (t.collFault n tag { g with aborted := false } f e w)) ∧
        (t.enterFail n f k tag = none →
          (k = .allGather → exec (.collectiveRestart n tag) s = .next (if g.granted then (t.gatherOwn n f).gatherOut n tag g.epoch f else t.gatherOwn n f)) ∧
          (∀ x y z, k = .shortReduce x y z → exec (.collectiveRestart n tag) s = .next (t.contribute n tag 0 (t.shortValue n tag f x))) ∧
          (k = .lossVote → ∃ v, exec (.collectiveRestart n tag) s = .next (t.contribute n tag 0 [v])) ∧
          (∀ x y, k = .reduceScatter x y → exec (.collectiveRestart n tag) s = .next (t.fromRing n tag))))) ∧
  (∀ (s : State) (g : Nat),
      (∀ len l u, s.working (groupCtx g) = true → ((s.group g).recv.map (·.squad)).Nodup → (∃ r, r ∈ (s.group g).recv ∧ 0 < s.credit g r) →
          (∀ r, r ∈ (s.group g).recv → r.detached = false ∧ len ≤ s.credit g r ∧ s.lag g r ≤ s.lagLimit) →
          s.vread (groupCtx g) none (s.group g).src len = some l → s.regulate (s.groupPart g) (s.sourceBursts g len) = some u →
        ∃ t, exec (.multicastFlitSend g len) s = .next t ∧
          t = (s.group g).recv.foldl (fun (w : State) r => (w.takeCopy g r l).emit (.multicast g r.squad len))
            (u.setGroup g { (s.group g) with src := (s.group g).src + len }) ∧
          (t.group g).src = (s.group g).src + len ∧ (t.group g).recv = (s.group g).recv.map fun r => { r with at_ := r.at_ + l.length }) ∧
      (∀ r l, r.detached = true → s.takeCopy g r l = s.setGroup g { (s.group g) with
        recv := (s.group g).recv.map fun y => if y.squad = r.squad then { r with spilled := r.spilled ++ l } else y }) ∧
      (∀ r l x, r.detached = false → l.length < x.addr.toNat + x.len.toNat - r.at_ → l ≠ [] → (s.squad r.squad).delivery = some x → ∃ t, s.takeCopy g r l = t ∧
        t.store = (s.land r.squad x (r.at_ - x.addr.toNat) l).store ∧ t.squads = (s.land r.squad x (r.at_ - x.addr.toNat) l).squads) ∧
      (s.working (groupCtx g) = false → ∀ len, exec (.multicastFlitSend g len) s = .next s) ∧
      (∀ sq r, s.working (groupCtx g) = true → (s.group g).recv = [r] → r.squad = sq → r.detached = true → r.spilled.length ≤ s.credit g r →
        ∃ t, exec (.multicastReattach g sq) s = .next t ∧
        (t.group g).recv = [{ r with at_ := r.at_ + r.spilled.length, spilled := [], detached := false }]))

/-! ## Links -/

/-- A link's training and identity: training drops what the last left and takes the plan's values, a bad lane ends it in a half or a failed port, and a
good one puts the link in service and sends the identity block; the block, or none in time, gives the link its class. -/
def Obligations.LinksTrainAndIdentify : Prop :=
  ∀ (s : State) (n : Nat), s.alive = true → s.chanUp (n / 6) = true →
    ((s.link n).fenced = false → (s.link n).training = false → ∃ t, exec (.lnkTrain n) s = .next t ∧ (t.link n).training = true ∧ (t.link n).up = false ∧
      (t.link n).failed = false ∧ (t.link n).laneFail = [] ∧ (t.link n).planPeer = bits (s.rg (pgLNK n + 0x120)) 15 0 ∧
      (t.link n).planPort = bits (s.rg (pgLNK n + 0x120)) 20 16 ∧ (t.link n).planValid = s.bit (pgLNK n + 0x120) 31 ∧ Only [.links] s t) ∧
    (∀ delay x, (s.link n).training = true → ∃ t, exec (.trainingComplete n [] delay x) s = .next t ∧ (t.link n).training = false ∧
      (t.link n).up = true ∧ (t.link n).delay = delay % 65536 ∧ (t.link n).precode = (x.own && x.peer) ∧ (t.link n).coef = x.coef ∧
      (t.link n).lanes = (if (s.link n).laneFail = [] then 8 else 4) ∧ (t.link n).resend = (s.link n).txBuf ∧
      t.out.head? = some (.identity n (t.identity n))) ∧
    (∀ a b delay x, (s.link n).training = true → (s.link n).laneFail = [] → a < 8 →
      exec (.trainingComplete n [a] delay x) s = .next ((s.failLane n a).retrain n) ∧
      (a < 4 → 4 ≤ b → b < 8 → exec (.trainingComplete n [a, b] delay x) s = .next (((s.failLane n a).failLane n b).failPort n))) ∧
    (∀ b, (s.link n).inService = true → s.planLoaded = true → ∃ t, exec (.identityBlock n b) s = .next t ∧ (t.link n).cls = (s.classify n b).1 ∧
      (t.link n).peerId = b.devId ∧ (t.link n).peerPort = b.port ∧ ((s.classify n b).1 = 2 → Only [.links] s t)) ∧
    ((s.link n).inService = true → (s.link n).cls = 7 → exec (.noPeerTimeout n) s = .next ((s.modLink n fun l => { l with cls := 0 }).badClass n)) ∧
    ((s.link n).up = true ∨ (s.link n).training = true → exec (.peerSilence n) s = .next (s.failPort n) ∧
      ((s.link n).failed = false → ((s.failPort n).link n).failed = true ∧ ((s.failPort n).link n).up = false)) ∧
    (∀ lane, (s.link n).inService = true → lane < 8 → (s.link n).lockLoss = [] → exec (.lossOfLock n lane) s =
      .next (s.modLink n fun l => { l with lockLoss := [(s.clk.ltb, lane)] }))

/-- Flits and packets: a good flit in sequence is taken and its packet, once whole, waits to be forwarded, a bad or unexpected one is asked for again, one that carries
no packet returns its credits, an acknowledgement goes out when nothing has been sent for 64 flit times; the packet at the head of the arbiter goes towards its squad, a port or the device itself, or
is dropped with a record, and one without a port in service keeps those behind it. VC0 is served first, but not twice in a row. -/
def Obligations.FlitsArriveInOrder : Prop :=
  (∀ (s : State) (n : Nat), s.alive = true → s.chanUp (n / 6) = true →
    (∀ f errs, (s.link n).inService = true →
      let r := (s.link n).frame s.clk.ltb errs
      let u := s.setLink n r.1
      (r.1.uncTimes.length ≤ 16 → r.2 = false → Flit.crcOk f = true → (f.kind = .first ∨ f.kind = .cont) → f.seq = (s.link n).rxSeq →
        (s.link n).hasRx f.vc = true →
        ∃ t, exec (.linkFlitReceive n ⟨f, errs⟩) s = .next t ∧ (t.link n).rxSeq = ((s.link n).rxSeq + 1) % 4096 ∧ (t.link n).lastAck = some f.seq ∧
          (t.link n).nakSent = false ∧
          (∀ p, ((s.link n).accept f).whole f.vc = some p → (s.link n).cls = 2 → t.net.waiting = s.net.waiting ++ [(some n, p)]) ∧
          (((s.link n).accept f).whole f.vc = none → t.net = s.net) ∧ (∀ m, m ≠ n → t.link m = s.link m)) ∧
      (r.1.uncTimes.length ≤ 16 → (r.2 = true ∨ Flit.crcOk f = false) → exec (.linkFlitReceive n ⟨f, errs⟩) s = .next (u.badFlit n true) ∧
        ((u.badFlit n true).link n).rxSeq = (s.link n).rxSeq ∧ (u.badFlit n true).net = s.net) ∧
      (r.1.uncTimes.length ≤ 16 → r.2 = false → Flit.crcOk f = true → (f.kind = .first ∨ f.kind = .cont) →
        (f.seq ≠ (s.link n).rxSeq ∨ (s.link n).hasRx f.vc = false) → ∃ t, exec (.linkFlitReceive n ⟨f, errs⟩) s = .next t ∧
          (t.link n).rxSeq = (s.link n).rxSeq ∧ (t.link n).asm = (s.link n).asm ∧ t.net = s.net) ∧
      (r.1.uncTimes.length ≤ 16 → r.2 = false → Flit.crcOk f = true → (f.kind = .idle ∨ f.kind = .lctl) → ∃ t, exec (.linkFlitReceive n ⟨f, errs⟩) s = .next t ∧
        (t.link n).rxSeq = (s.link n).rxSeq ∧ (t.link n).asm = (s.link n).asm ∧ t.net = s.net ∧
        tget 0 (t.link n).credits f.creditVc = tget 0 (s.link n).credits f.creditVc - f.credits) ∧
      (16 < r.1.uncTimes.length → exec (.linkFlitReceive n ⟨f, errs⟩) s = .next (u.retrain n))) ∧
    ((s.link n).inService = false → ∀ f errs, exec (.linkFlitReceive n ⟨f, errs⟩) s = .next s) ∧
    (∀ a, (s.link n).inService = true → (s.link n).lastAck = some a → (s.link n).idle = 64 → ∃ t f, exec (.ackLctlSend n) s = .next t ∧
      t.out = .flit n f :: s.out ∧ f.ack = some a ∧ f.kind = .lctl)) ∧
  (∀ (l : Link) (f : Flit) (p : Packet), f.kind = .first → packetOf f.body = some p → p.len = 1 → (l.accept f).whole f.vc = some p) ∧
  (∀ (s : State) (arr : Option Nat) (p : Packet), s.net.waiting.head? ≠ some (arr, p) → exec (.packetForward arr p) s = .next s) ∧
  (∀ (s : State) (arr : Option Nat) (p : Packet) (rest : List (Option Nat × Packet)), s.alive = true → s.net.waiting = (arr, p) :: rest →
      let t := (s.setNet { s.net with waiting := rest }).freeRx arr p
      let e := s.entrance arr p
      ((p.ptype = .time ∨ (p.ptype = .pair ∧ arr ≠ none)) →
        (s.portOnly arr p = true → exec (.packetForward arr p) s = .next (t.emit (.deliver p))) ∧ (s.portOnly arr p = false → exec (.packetForward arr p) s = .next t)) ∧
      (p.ptype ≠ .time → (p.ptype ≠ .pair ∨ arr = none) →
        (s.unissued p = true → exec (.packetForward arr p) s = .next t) ∧
        (s.unissued p = false →
          (s.routeTo p = .deliver → p.slice = s.sliceTag → s.sliceTag ≠ 0 →
            (p.dstSquad < 64 → exec (.packetForward arr p) s = .next (t.inject e.1 e.2 (clsOf p.ptype) (squadGoal p.dstSquad) p)) ∧
            (64 ≤ p.dstSquad → exec (.packetForward arr p) s = .next (t.deliver p))) ∧
          (s.routeTo p = .deliver → (p.slice ≠ s.sliceTag ∨ s.sliceTag = 0) → exec (.packetForward arr p) s = .next (t.dropPkt arr p 2)) ∧
          (∀ c, s.routeTo p = .drop c → exec (.packetForward arr p) s = .next (t.dropPkt arr p c)) ∧
          (∀ x y m, s.routeTo p = .send x y → s.outPort arr x y = some m →
            exec (.packetForward arr p) s = .next ((t.setNet { t.net with rrPort := m }).inject e.1 e.2 (clsOf p.ptype) ⟨m / 6, portRouter m, some m⟩ p)) ∧
          (∀ x y, s.routeTo p = .send x y → s.outPort arr x y = none → exec (.packetForward arr p) s = .next s)))) ∧
  (∀ (s : State) (a : Nat) (w : W64), s.alive = true → s.hostUp = true →
    (a < 8192 → ∃ t, exec (.routingTableWrite a w) s = .next t ∧ tget 0 t.net.podTable a = w ∧
      (∀ b, b ≠ a → tget 0 t.net.podTable b = tget 0 s.net.podTable b) ∧ t.net.levelTable = s.net.levelTable ∧ Only [.net, .regs] s t) ∧
    (a < 64 → ∃ t, exec (.routingTableWrite (8192 + a) w) s = .next t ∧ tget 0 t.net.levelTable a = w ∧
      (∀ b, b ≠ a → tget 0 t.net.levelTable b = tget 0 s.net.levelTable b) ∧ t.net.podTable = s.net.podTable ∧ Only [.net, .regs] s t)) ∧
  (∀ (l : Link),
    (l.ready 0 = true → (l.vc0Last = false ∨ ∀ v, 1 ≤ v → v ≤ 3 → l.ready v = false) → l.pickVc = some 0) ∧
    (l.vc0Last = true → (∃ v, 1 ≤ v ∧ v ≤ 3 ∧ l.ready v = true) → ∃ v, l.pickVc = some v ∧ 1 ≤ v ∧ v ≤ 3 ∧ l.ready v = true) ∧
    (∀ q x r b, l.resend = (q, x) :: r → ∃ f, (l.slot b).2 = some f ∧ f.seq = q ∧ f.vc = x.vc ∧ f.body = x.body ∧ (l.slot b).1.resend = r))

/-! ## Time -/

/-- Whistles: a source sends its System Time at every multiple of 2^20 ns, with a pulse on its pin where that is enabled, a receiver corrects by the time it was on the way and passes it
on unless it has made 255 hops, a pin edge
takes the seed and then counts on; the first one sets System Time, and a later one slews, steps forward or holds by how far it is off. -/
def Obligations.WhistlesSetSystemTime : Prop :=
  ∀ (s : State),
    (s.alive = true → s.clk.known = true → s.clk.st.toNat % 2 ^ 20 = 0 → s.timeSource ≠ 0 →
      (s.bit (pgTIME + 8) 2 = false → exec .whistleSend s = .next (s.sendWhistle { t := s.clk.st, c := 0, master := s.devId, hops := 0 })) ∧
      (s.bit (pgTIME + 8) 2 = true → exec .whistleSend s = .next ((s.emit .pulse).sendWhistle { t := s.clk.st, c := 0, master := s.devId, hops := 0 }))) ∧
    (s.alive = true → s.clk.known = true → s.clk.st.toNat % 2 ^ 20 = 0 → s.timeSource = 0 →
      exec .whistleSend s = .next (if s.bit (pgTIME + 8) 2 = true then s.emit .pulse else s)) ∧
    (∀ port w r, s.takesFrom port = true → exec (.whistleReceive port w r) s =
      .next (let t := s.takeWhistle (w.t.toNat + w.c / 16 + (s.link port).delay) w.hops
        if w.hops < 255 then t.sendWhistle { w with c := (w.c + 16 * (s.link port).delay + r) % 2 ^ 64, hops := w.hops + 1 } else t)) ∧
    (s.alive = true → s.timeSource = 1 → s.clk.seedArmed = true → exec .whistleInEdge s = .next
      ((s.setClk { s.clk with seedArmed := false, pinNext := some (s.clk.seed + BitVec.ofNat 64 (2 ^ 20)) }).takeWhistle s.clk.seed.toNat 0)) ∧
    (∀ v, s.alive = true → s.timeSource = 1 → s.clk.seedArmed = false → s.clk.pinNext = some v → exec .whistleInEdge s = .next
      ((s.setClk { s.clk with seedArmed := false, pinNext := some (v + BitVec.ofNat 64 (2 ^ 20)) }).takeWhistle v.toNat 0)) ∧
    (∀ v, ∃ t, exec (.whistleSeed v) s = .next t ∧ t.clk = { s.clk with seed := v, seedArmed := true } ∧ Only [.regs, .clk] s t) ∧
    (∀ est hops, s.clk.stopped = false →
      (s.clk.known = false → (s.takeWhistle est hops).clk.known = true ∧ (s.takeWhistle est hops).clk.st = BitVec.ofNat 64 est) ∧
      (s.clk.known = true → (est : Int) - s.clk.st.toNat ≤ 64 → -(2 ^ 20) ≤ (est : Int) - s.clk.st.toNat →
        (s.takeWhistle est hops).clk.st = s.clk.st ∧ (s.takeWhistle est hops).clk.known = true) ∧
      (s.clk.known = true → 64 < (est : Int) - s.clk.st.toNat → est < 2 ^ 64 → (s.takeWhistle est hops).clk.st = BitVec.ofNat 64 est) ∧
      (s.clk.known = true → (est : Int) - s.clk.st.toNat < -(2 ^ 20) → (s.takeWhistle est hops).clk.known = false)) ∧
    (∀ v, s.timeSource = 2 → s.clk.known = true → ∃ t, exec (.timeSet v) s = .next t ∧ t.clk.st = v ∧ t.clk.slewE = 0 ∧ t.clk.slewT = 0 ∧ t.clk.halfLeft = 0) ∧
    (∀ v, s.timeSource = 2 → s.clk.known = false → ∃ t, exec (.timeSet v) s = .next t ∧ t.clk.st = v ∧ t.clk.known = true) ∧
    (∀ v, s.timeSource ≠ 2 → exec (.timeSet v) s = .next (s.badCommand pgTIME))

/-- The references and the windows of time: four missed whistles are a holdover, a lost TREF goes on by the module's own oscillator, a lost base clock and
the end of the counter make System Time unknown with flag 242 cleared, and a maintenance window lets the held records go. -/
def Obligations.TimeReferencesFailAndReturn : Prop :=
  ∀ (s : State),
    (s.alive = true → s.clk.known = true → s.timeSource ≠ 2 → s.clk.holdover = false → s.clk.lastWhistle + 4 * 2 ^ 20 ≤ s.clk.ltb →
      exec .holdover s = .next (((s.setClk { s.clk with holdover := true }).log 4 0x4005 1 0 0x50 0 (leBytes 8 s.clk.st.toNat)).event pgTIME 1 216)) ∧
    (s.clk.ltb < s.clk.lastWhistle + 4 * 2 ^ 20 → exec .holdover s = .next s) ∧
    (s.alive = true → s.clk.trefLock = true → exec .trefLoss s =
      .next (((s.setClk { s.clk with trefLock := false, onModule := true }).log 4 0x4006 2 0 0x50 0 []).raise 216)) ∧
    (s.alive = true → s.clk.trefLock = false → exec .trefReturn s = .next (s.setClk { s.clk with trefLock := true, onModule := false, baseLock := true })) ∧
    (s.alive = true → s.clk.baseLock = true → ∃ t, exec .timeBaseLockLoss s = .next t ∧ t.clk.known = false ∧ t.clk.baseLock = false ∧ t.clk.trefLock = false ∧
      t.ctx0.flag 242 = false ∧ t.ctx1.flag 242 = false) ∧
    (s.clk.known = true → s.clk.st = BitVec.allOnes 64 → ∃ t, exec .stEnd s = .next t ∧ t.clk.known = false ∧ t.clk.stopped = true ∧
      t.ctx0.flag 242 = false ∧ t.ctx1.flag 242 = false) ∧
    (s.clk.st ≠ BitVec.allOnes 64 → exec .stEnd s = .next s) ∧
    (s.alive = true → s.maint = true → s.ledger.erasing = none → exec (.maintenanceWindowOpen s.runningCtx) s = .next s.flushHeld)

/-! ## The commit -/

/-- Votes and decisions: a vote is kept with its span and goes up the tree, a commit that answers the member's ready vote commits the step exactly once, a
hold starts the next round, an abort loses the context unless its step is committed, and a vote of a later step than the decided one begins that step; a commit sets the step, the loss scale, flag 244 and clears flags 240 and 241. -/
def Obligations.DecisionsCommitOnce : Prop :=
  ∀ (s : State) (n : Nat), n < 2 →
    (∀ lo hi v, (s.ctx n).commit.decided = false → exec (.voteReceive n lo hi v) s =
      .next ((s.modCtx n (·.modCommit fun m => { m with votes := putVote m.votes lo hi v })).commitUp n)) ∧
    (∀ lo hi v o, (s.ctx n).commit.decided = true → (s.ctx n).commit.own = some o → o.step.toNat < v.step.toNat → exec (.voteReceive n lo hi v) s =
      .next ((s.modCtx n (·.modCommit fun m => { m.fresh with votes := putVote (m.votes.filter fun e => decide (o.step.toNat < e.2.2.step.toNat)) lo hi v })).commitUp n)) ∧
    (∀ d v, (s.ctx n).votedReady d.step = true → (s.ctx n).commit.decided = false → (s.ctx n).commit.own = some v → ∃ t,
      exec (.commitReceive n d) s = .next t ∧ t = (s.sendDown n 0 d).applyCommit n d.step d.digest v.exp v.growth ∧
      (t.ctx n).upd.step = d.step ∧ (t.ctx n).upd.exp = v.exp ∧ (t.ctx n).upd.growth = v.growth ∧ (t.ctx n).upd.verdict = 1 ∧
      (t.ctx n).commit.decided = true ∧ (t.ctx n).flag 240 = false ∧ (t.ctx n).flag 241 = false ∧ (t.ctx n).flag 244 = true) ∧
    (∀ d, ((s.ctx n).votedReady d.step = false ∨ (s.ctx n).commit.decided = true) → exec (.commitReceive n d) s = .next (s.sendDown n 0 d)) ∧
    (∀ d, d.reason ≠ 9 → (s.ctx n).commit.decided = false → exec (.holdReceive n d) s = .next ((s.sendDown n 1 d).noteHold n d)) ∧
    (∀ d v, d.reason = 9 → (s.ctx n).commit.decided = false → (s.ctx n).commit.own = some v →
      ∃ t, exec (.holdReceive n d) s = .next t ∧ (t.ctx n).commit.round = d.round) ∧
    (∀ d, ((s.ctx n).upd.verdict ≠ 1 ∨ (s.ctx n).upd.decision ≠ d.step) → exec (.commitAbortReceive n d) s = .next ((s.sendDown n 2 d).applyAbort n d.step)) ∧
    (∀ d, (s.ctx n).upd.verdict = 1 → (s.ctx n).upd.decision = d.step → exec (.commitAbortReceive n d) s = .next (s.sendDown n 2 d)) ∧
    (∀ d : Decision, (s.ctx n).lost = false → ((s.applyAbort n d.step).ctx n).lost = true ∧ ((s.applyAbort n d.step).ctx n).upd.verdict = 2) ∧
    (∀ src port st e g dg, (s.ctx n).commit.decided = false → s.alive = true → s.chanUp (port / 6) = true → (s.link port).pairs src = true → exec (.pairPacket n src port st e g dg) s =
      .next ((s.modCtx n (·.modCommit fun m => { m with pairIn := some (st, e, g, dg) })).rootDecide n)) ∧
    (∀ src st, (s.ctx n).upd.decision = st → (s.ctx n).upd.verdict ≠ 0 → exec (.decisionQuery n src st) s =
      .next (s.emit (.answer n src (some ((s.ctx n).upd.verdict == 1)) { step := st, reason := 0, digest := (s.ctx n).upd.stepDigest, round := 0 }))) ∧
    (∀ src st, (s.ctx n).upd.decision ≠ st → exec (.decisionQuery n src st) s = .next s) ∧
    (∀ d v, (s.ctx n).commit.own = some v → (s.ctx n).votedReady d.step = true → (s.ctx n).commit.decided = false → (s.ctx n).commit.queried = true →
      exec (.decisionAnswer n true d) s = .next (s.applyCommit n d.step d.digest v.exp v.growth) ∧
      exec (.decisionAnswer n false d) s = .next (s.applyAbort n d.step))

/-- The commit's shot clocks: the root reopens the round while it may and halts after that with its record, a ready member asks for the decision, one that
did not vote ready halts, and an unanswered question leaves the context undecided. -/
def Obligations.CommitClocksReopenQueryAndHalt : Prop :=
  ∀ (s : State) (n : Nat), n < 2 →
    ((s.ctx n).rank = 0 → (s.ctx n).commitExpired 1 = true → (s.ctx n).commit.decided = false → (s.ctx n).commit.halted = false →
      ∀ v, (s.ctx n).commit.own = some v →
      (s.reopenMax ≤ (s.ctx n).commit.reopens → exec (.commitShotClockExpiry n) s =
        .next (((s.haltCommit n .rootDeadline).log 4 0x4805 2 0 0x54 0 (leBytes 1 n ++ [0#8, 0#8, 0#8] ++ leBytes 4 v.step.toNat ++
          leBytes 4 ((s.ctx n).commit.votes.foldl (fun k e => k + e.2.2.count) 0))).raise (230 + n))) ∧
      ((s.ctx n).commit.reopens < s.reopenMax → ∃ t, exec (.commitShotClockExpiry n) s = .next t ∧ (t.ctx n).commit.round = (s.ctx n).commit.round + 1 ∧
        (t.ctx n).commit.reopens = (s.ctx n).commit.reopens + 1 ∧ (t.ctx n).flag 249 = true)) ∧
    (∀ f v, (s.ctx n).commitFlight = some f → (s.ctx n).commitExpired (s.reopenMax + 2) = true → (s.ctx n).commit.decided = false →
      (s.ctx n).commit.halted = false → (s.ctx n).commit.queried = false → (s.ctx n).rank ≠ 0 → (s.ctx n).commit.own = some v →
      (v.ready = true → exec (.memberCommitClockExpiry n) s = .next
        ((s.modCtx n fun c => (c.modCommit fun m => { m with queried := true }).modFl f.seq fun x => { x with shotNs := 0 }).emit (.query n v.step))) ∧
      (v.ready = false → exec (.memberCommitClockExpiry n) s = .next
        ((s.haltCommit n .huddleDeadline).huddleDeadline n f.queue (huddleNo f.desc) 2 (s.ctx n).commit.votes.length (2 ^ 32 - 1)))) ∧
    (∀ f v, (s.ctx n).commitFlight = some f → (s.ctx n).commit.own = some v → (s.ctx n).commit.queried = true → (s.ctx n).commit.decided = false →
      (s.ctx n).commit.halted = false → (s.ctx n).commitExpired 1 = true → ∃ t, exec (.decisionQueryTimeout n) s = .next t ∧
        (t.ctx n).upd.undecided = true ∧ (t.ctx n).upd.decision = v.step ∧ (t.ctx n).commit.halted = true ∧
        ((t.ctx n).queue f.queue).halt = .memberDeadline)

/-- What the host does about an undecided step, the digest and the update state: the commands act on the context the page selects and only where it may be
resolved; the step and the loss scale are written only while the context is not started or is halted. -/
def Obligations.HostResolvesTheStep : Prop :=
  ∀ (s : State),
    ((s.ctx s.resolveCtx).resolvable = true →
      ((s.ctx s.resolveCtx).upd.undecided = true →
        (∀ v, (s.ctx s.resolveCtx).commit.own = some v →
          exec .completeCommit s = .next (s.applyCommit s.resolveCtx v.step s.resolveDigest v.exp v.growth)) ∧
        exec .discardVote s = .next (s.modCtx s.resolveCtx fun c => { c with upd := { c.upd with undecided := false } })) ∧
      ((s.ctx s.resolveCtx).upd.undecided = false →
        exec .completeCommit s = .next (s.badCommand pgUPD) ∧ exec .discardVote s = .next (s.badCommand pgUPD))) ∧
    ((s.ctx s.resolveCtx).resolvable = false →
      exec .completeCommit s = .next (s.lockedWrite pgUPD) ∧ exec .discardVote s = .next (s.lockedWrite pgUPD)) ∧
    (∃ t, exec .redigest s = .next t ∧ (t.ctx s.redigestCtx).upd.redigest = true ∧ Only [.ctx0, .ctx1] s t) ∧
    (∀ n, n < 2 → (s.ctx n).upd.redigest = true → ∃ t, exec (.redigestDone n) s = .next t ∧ (t.ctx n).upd.redigest = false ∧
      (t.ctx n).upd.digest = s.bankDigest n ∧ (t.ctx n).upd.digestStep = (s.ctx n).upd.step ∧ Only [.ctx0, .ctx1] s t) ∧
    (∀ n (v : Word), n < 2 →
      (((s.ctx n).started = false ∨ (s.ctx n).halted = true) → ∃ t, exec (.updStepWrite n v) s = .next t ∧ (t.ctx n).upd.step = v ∧ Only [.ctx0, .ctx1] s t) ∧
      ((s.ctx n).quiet = false → (s.ctx n).upd.step ≠ v → exec (.updStepWrite n v) s = .next (s.lockedWrite pgUPD)) ∧
      ((s.ctx n).quiet = false → (s.ctx n).upd.step = v → exec (.updStepWrite n v) s = .next s)) ∧
    (∀ n e g, n < 2 → (s.ctx n).quiet = true → ∃ t, exec (.lossScaleWrite n e g) s = .next t ∧ (t.ctx n).upd.exp = min 24 (e % 32) ∧
      (t.ctx n).upd.growth = g % 2 ^ 16 ∧ (t.ctx n).upd.step = (s.ctx n).upd.step ∧ Only [.ctx0, .ctx1] s t) ∧
    (∀ n e g, (s.ctx n).quiet = false →
      (((s.ctx n).upd.exp ≠ min 24 (e % 32) ∨ (s.ctx n).upd.growth ≠ g % 2 ^ 16) → exec (.lossScaleWrite n e g) s = .next (s.lockedWrite pgUPD)) ∧
      ((s.ctx n).upd.exp = min 24 (e % 32) → (s.ctx n).upd.growth = g % 2 ^ 16 → exec (.lossScaleWrite n e g) s = .next s))

/-! ## The ledger -/

/-- R309: Fatal records, and only they, go to the fatal region, no record there is overwritten, one that finds no free slot is not written and advances
LEDG_FATAL_LOST, and LEDG_FATAL_FREE reports the free slots. -/
def Obligations.FatalRecordsKeepTheirRegion : Prop :=
  ∀ (s : State) (r : Rec),
    (∀ k x, k < 8192 → tfind s.ledger.slots k = some x → tfind (s.writeRec r).ledger.slots k = some x) ∧
    (r.sev ≠ 3 → ∀ k, k < 8192 → tfind (s.writeRec r).ledger.slots k = tfind s.ledger.slots k) ∧
    (r.sev = 3 → (∃ k, k < 8192 ∧ tfind s.ledger.slots k = none) →
      ∃ k x, k < 8192 ∧ tfind s.ledger.slots k = none ∧ tfind (s.writeRec r).ledger.slots k = some x ∧ x.code = r.code ∧ x.payload = r.payload ∧
        ∀ j, j ≠ k → tfind (s.writeRec r).ledger.slots j = tfind s.ledger.slots j) ∧
    (r.sev = 3 → (∀ k, k < 8192 → tfind s.ledger.slots k ≠ none) →
      (s.writeRec r).ledger.slots = s.ledger.slots ∧ (s.writeRec r).ledger.fatalLost = bump32 s.ledger.fatalLost) ∧
    (r.sev = 3 → ∀ k, 8192 ≤ k → tfind (s.writeRec r).ledger.slots k = tfind s.ledger.slots k) ∧
    (∀ port, s.dev.aux = true → s.dev.railsUp = true → s.host.noneActive = false → port = s.host.active →
      ∃ t, exec (.registerRead port (pgLEDG + 0x108) false) s = .next t ∧
        t.out.head? = some (.word (BitVec.ofNat 64 (8192 - (s.ledger.slots.filter fun e => decide (e.1 < 8192)).length)))) ∧
    (∀ ch o, o.sev = 3 → s.dev.mode ≠ .dark → s.ledger.erasing = none → exec (.ledgerRecordWrite ch o) s =
      .next ((s.setLedger (s.ledger.newCand (o.code / 1024) s.clk.ltb)).writeRec (s.stamp o false false)))

/-- The ledger's host port: a good submitted record whose class is not in RATE is a host record and a bad one is counted, the interval's end clears the rate
counts, a read selects its slot's bytes; the key, the challenge and the clear run in their order and times, a wrong response counts and the third locks out. -/
def Obligations.LedgerCommandsFollowTheirProcedure : Prop :=
  ∀ (s : State),
    exec .rateInterval s = .next (s.setLedger { s.ledger with rate := [] }) ∧
    (s.ledger.busy = true → exec .hostRecordSubmit s = .next s ∧ exec .hmbReady s = .next ((s.setLedger { s.ledger with busy := false }).raise 242)) ∧
    (s.ledger.busy = false → hostBad s.hmbBytes (s.rg (pgLEDG + 0x188)) = true → ∃ t, exec .hostRecordSubmit s = .next t ∧
      t.ledger.hostReject = bump32 s.ledger.hostReject ∧ t.ledger.busy = true ∧ t.ledger.slots = s.ledger.slots) ∧
    (s.ledger.busy = false → hostBad s.hmbBytes (s.rg (pgLEDG + 0x188)) = false → s.floodMode (leNat (s.hmbBytes.take 2) / 1024) ≠ 2 →
      exec .hostRecordSubmit s = .next ((s.setLedger { s.ledger with busy := true }).hostRecord
        { code := leNat (s.hmbBytes.take 2), sev := leNat ((s.hmbBytes.drop 2).take 1) / 64, fclass := 0, srcType := 0x52,
          srcInst := leNat ((s.hmbBytes.drop 4).take 2), payload := s.hmbBytes.drop 8 })) ∧
    (∀ i, exec (.ledgerReadSelect i) s = .next (s.setLedger { s.ledger with rdIndex := i % 2 ^ 17, rdData := s.ledger.slotBytes (i % 2 ^ 17) })) ∧
    exec .ponSSave s = .next (s.setMram { s.mram with ponS := s.dev.ponLive }) ∧
    (∀ i w, s.keyOpen = true → ((List.range 8).mapM fun k => tfind (tins i w s.ledger.stage) k) = none →
      exec (.keyWordWrite i w) s = .next (s.setLedger { s.ledger with stage := tins i w s.ledger.stage })) ∧
    (∀ i w k, s.keyOpen = true → ((List.range 8).mapM fun k => tfind (tins i w s.ledger.stage) k) = some k → ∃ t,
      exec (.keyWordWrite i w) s = .next t ∧ t.mram.key = some k ∧ t.ledger.stage = [] ∧ t.ledger.rekeyOpen = none) ∧
    (∀ i w, s.keyOpen = false → i ≠ 7 → exec (.keyWordWrite i w) s = .next (s.badCommand pgLEDG)) ∧
    (∀ at_, s.ledger.rekeyOpen = some at_ → at_ + 10000000000 ≤ s.clk.ltb →
      exec .rekeyWindowClose s = .next (s.setLedger { s.ledger with rekeyOpen := none, stage := [] })) ∧
    (∀ scope, scope < 3 → s.ledger.erasing = none → s.ledger.lockUntil = none → ∃ t c, exec (.clearRequest scope) s = .next t ∧
      t.ledger.chal = some (c, s.clk.ltb) ∧ t.ledger.latched = scope ∧ t.ledger.status = 1 ∧ t.ledger.slots = s.ledger.slots) ∧
    (s.ledger.erasing = none → s.ledger.lockUntil.isSome = true → ∀ scope, ∃ t, exec (.clearRequest scope) s = .next t ∧ t.ledger.status = 7 ∧
      t.ledger.chal = s.ledger.chal) ∧
    (∀ c at_ key resp, s.ledger.erasing = none → s.ledger.chal = some (c, at_) → s.clk.ltb ≤ at_ + 10000000000 → s.mram.key = some key →
      (s.clrExpect key c ≠ resp → ∃ t, exec (.clearSubmit resp) s = .next t ∧ t.ledger.chal = none ∧ t.ledger.status = 3 ∧ t.mram.erase = s.mram.erase ∧
        t.ledger.mism = s.ledger.mism + 1 ∧ (2 ≤ s.ledger.mism → t.ledger.lockUntil = some (s.clk.ltb + 60000000000))) ∧
      (s.clrExpect key c = resp → (s.ledger.latched = 1 ∨ s.ledger.fatalFree ≠ 0) → ∃ t, exec (.clearSubmit resp) s = .next t ∧ t.ledger.chal = none ∧
        t.ledger.erasing = some s.ledger.latched ∧ t.mram.erase = some s.ledger.latched ∧ t.ledger.status = 8)) ∧
    (∀ resp, s.ledger.erasing = none → s.ledger.chal = none → ∃ t, exec (.clearSubmit resp) s = .next t ∧ t.ledger.status = 4 ∧ t.ledger.slots = s.ledger.slots) ∧
    (∀ scope, s.ledger.erasing = some scope → ∃ t, exec .clearDone s = .next t ∧ t.ledger.mism = 0 ∧ t.ledger.status = 2 ∧
      (scope = 2 → t.ledger.rekeyOpen.isSome = true)) ∧
    (∀ c at_, s.ledger.chal = some (c, at_) → at_ + 10000000000 ≤ s.clk.ltb → exec .challengeExpiry s = .next (s.setLedger { s.ledger with chal := none })) ∧
    (∀ at_, s.ledger.lockUntil = some at_ → at_ ≤ s.clk.ltb → exec .lockoutEnd s = .next (s.setLedger { s.ledger with lockUntil := none }))

/-! ## Registers and host ports -/

/-- Register accesses: a write whose reserved fields are zero completes, one that its port does not reach or that is not aligned does nothing, a read answers
the word and zero where nothing is reached; the pages of a channel that is in reset or down do neither but for CMGR, CLK and PWR; LOCK and IRQ_FORCE set their bits. -/
def Obligations.RegisterAccessesReachTheirPage : Prop :=
  ∀ (s : State) (port : Bool) (a : Nat),
    (∀ v : W64, aligned a false = true → s.portReaches port a = true → (v.toNat % 2 ^ 32) &&& (2 ^ 32 - 1 - placedBits (s.fields a)) = 0 →
      ∃ t, exec (.registerWrite port a false v) s = .next t ∧ Only (footprint (.registerWrite port a false v)) s t) ∧
    (∀ v : W64, aligned a false = true → s.portReaches port a = true → (v.toNat % 2 ^ 32) &&& (2 ^ 32 - 1 - placedBits (s.fields a)) ≠ 0 →
      exec (.registerWrite port a false v) s = .refused .reservedFieldWritten) ∧
    (∀ (v : W64) w t, aligned a w = true → s.portReaches port a = true → s.writeWords a v.toNat w = some t → exec (.registerWrite port a w v) s = .next t) ∧
    (∀ (v : W64) w, (aligned a w = false ∨ s.portReaches port a = false) → exec (.registerWrite port a w v) s = .next s ∧
      exec (.registerRead port a w) s = .next (s.emit (.word 0))) ∧
    (∀ (v : W64) w c, pageChan a = some c → s.chanUp c = false → pageKind a ≠ .cmgr → pageKind a ≠ .clk → pageKind a ≠ .pwr →
      exec (.registerWrite port a w v) s = .next s ∧ exec (.registerRead port a w) s = .next (s.emit (.word 0))) ∧
    (aligned a false = true → s.portReaches port a = true → ∃ t w, exec (.registerRead port a false) s = .next t ∧ t.out = .word w :: s.out ∧
      t.hbm = s.hbm ∧ t.store = s.store ∧ t.regs = s.regs ∧ t.ledger = s.ledger ∧
      (s.touch a = s → isLo (a - 4) = false → w = BitVec.ofNat 64 (s.peek port a % 2 ^ 32))) ∧
    (∀ page, s.hostUp = true → s.pageOn page = true → pageKind page ≠ .none →
      exec (.pageLock page) s = .next (s.setRg (page + 0x2C) 1) ∧
      (∃ t, exec (.irqForce page 0) s = .next t ∧ t = s.setRg (page + 0x18) (s.rg (page + 0x18))) ∧
      (∀ v : Word, ∃ t, exec (.irqForce page v) s = .next t ∧ t.rg (page + 0x18) = s.rg (page + 0x18) ||| v.toNat))

/-- The host ports: one port at a time is active, the other's BAR2 and doorbells do nothing; the aperture changes once no BAR2 request waits; a read answers
the bytes of its space, a record is taken by its context; ACTIVATE moves the active port with vector 253, and a port reset leaves none active. -/
def Obligations.HostPortsTakeTurns : Prop :=
  ∀ (s : State),
    (s.hostUp = true → ∀ v, exec (.hostApertureWrite v) s = .next (s.setHost { s.host with apPending := some (apertureOf v) })) ∧
    (∀ v, s.host.apPending = some v → s.host.bar2Open = [] → exec .apertureApply s = .next (s.setHost { s.host with aperture := v, apPending := none })) ∧
    (∀ v, s.host.apPending = some v → s.host.bar2Open ≠ [] → exec .apertureApply s = .next s) ∧
    (s.alive = true → s.host.noneActive = false →
      (∀ op, exec (.bar2Access (!s.host.active) op) s = .next (s.emit .unsupported)) ∧
      (∀ off len, s.spaceSize s.apSpace < s.apOff off + len → exec (.bar2Access s.host.active (.read off len)) s = .next (s.emit .unsupported)) ∧
      (∀ off len, s.apOff off + len ≤ s.spaceSize s.apSpace →
        s.bar2Waits { port := s.host.active, space := s.apSpace, off := s.apOff off, len := len, data := none } = false →
        (burstsOf (s.apOff off) len).any (fun o => s.burstBad s.apSpace o) = false →
        exec (.bar2Access s.host.active (.read off len)) s = .next (s.emit (.bytes false (s.hbmRead s.apSpace (s.apOff off) len)))) ∧
      (∀ off l, exec (.bar2Access s.host.active (.write off l)) s =
        .next (s.bar2Go { port := s.host.active, space := s.apSpace, off := s.apOff off, len := l.length, data := some l })) ∧
      (∀ off len, exec (.bar2Access s.host.active (.poisonedWrite off len)) s =
        .next (s.setHost { s.host with poisonedWrites := min (2 ^ 32 - 1) (s.host.poisonedWrites + 1) })) ∧
      (∀ n h r, exec (.bar2Access s.host.active (.putTensor n h r)) s = .next (s.modCtx n fun c => { c with tensors := tins h r c.tensors }))) ∧
    (s.alive = false → ∀ port op, exec (.bar2Access port op) s = .next s) ∧
    (∀ port, (s.chan (portChan port)).down = false → s.dev.aux = true → s.dev.railsUp = true → (if port then s.host.perstB else s.host.perstA) = false →
      (s.host.noneActive = true ∨ port ≠ s.host.active) → ∃ t, exec (.activate port) s = .next t ∧ t.host.active = port ∧ t.host.noneActive = false ∧
        t.host.pendingVecs = []) ∧
    (∀ port, s.host.noneActive = false → port = s.host.active → exec (.activate port) s = .next s) ∧
    (∀ port, ∃ t, exec (.perstAssert port) s = .next t ∧ (if port then t.host.perstB else t.host.perstA) = true ∧
      (port = s.host.active → t.host.noneActive = true) ∧ t.host.active = s.host.active) ∧
    (exec (.perstRelease true) s = .next (s.setHost { s.host with perstB := false }) ∧ exec (.perstRelease false) s = .next (s.setHost { s.host with perstA := false })) ∧
    (∀ port up, ∃ t, exec (.hostPortLinkChange port up) s = .next t ∧ (if port then t.host.linkB else t.host.linkA) = up ∧
      (up = false → ∀ r, r ∈ t.host.bar2Open → r.port ≠ port))

/-! ## Start-up, power and temperature -/

/-- Start-up and the ways down: start-up leaves step 1 with the rails up, memory and contexts at reset, BOOT_GO on the active port at step 1 has the image
fetched, a good image brings the device to Full or Reduced and a bad one names its code; each power-down leaves the device Dark at step 0 and
keeps the key and the waiting commands. -/
def Obligations.StartUpAndPowerDown : Prop :=
  ∀ (s : State),
    (s.alive = false → s.dev.step = 0 → ∃ t, exec .startup s = .next t ∧ t.dev.step = 1 ∧ t.dev.railsUp = true ∧ t.dev.aux = true ∧ t.dev.mode = .dark ∧
      t.hbm = [] ∧ t.store = [] ∧ t.ctx0.started = false ∧ t.ctx1.started = false ∧ t.mram.key = s.mram.key ∧ t.mram.lost = s.mram.lost) ∧
    (s.alive = true → exec .startup s = .next s) ∧
    (s.host.noneActive = false → s.dev.step = 1 → (s.host.boot = 0 ∨ s.host.boot = 3) →
      exec (.bootGo s.host.active) s = .next (s.setHost { s.host with boot := 1 })) ∧
    (s.host.noneActive = false → exec (.bootGo (!s.host.active)) s = .next (s.badCommand pgHOST)) ∧
    (s.host.boot = 1 → s.alive = false → s.jtag.stack = none → ∀ img found,
      (s.imageCode img ≠ 1 → exec (.bootVerify img found) s = .next (s.bootFailed (s.imageCode img))) ∧
      (s.imageCode img = 1 → ∃ t, exec (.bootVerify img found) s = .next t ∧ t.dev.fwVer = img.version ∧ t.host.boot = 2 ∧
        t.host.bootResult = 1 ∧ t.alive = true)) ∧
    (∀ t, (s.alive = true ∨ 0 < s.dev.step) →
      (∃ v, v < 3800 ∧ exec (.vinUndervoltage v) s = .next t) ∨ (∃ v, 6400 < v ∧ exec (.vinOvervoltage v) s = .next t) ∨
        (∃ ns, 10000 < ns ∧ exec (.sysResetNAssert ns) s = .next t) ∨ exec .auxRailLoss s = .next t ∨ exec .thermtripRelease s = .next t →
      t.dev.mode = .dark ∧ t.dev.step = 0 ∧ t.hbm = [] ∧ t.store = [] ∧ t.ctx0.started = false ∧ t.ctx1.started = false ∧ t.mram.key = s.mram.key ∧
        t.pending = s.pending) ∧
    (∀ v, v < 3800 → exec (.vinUndervoltage v) s = .next (s.powerDown 10)) ∧
    (∀ v, 6400 < v → s.alive = true → exec (.vinOvervoltage v) s = .next ((s.log 4 0x0802 2 0 0x42 0 (leBytes 2 v)).powerDown 13)) ∧
    (∀ ns, 10000 < ns → ∃ t, exec (.sysResetNAssert ns) s = .next t ∧ t.dev.sysResetN = false) ∧
    (∀ ns, ns ≤ 10000 → exec (.sysResetNAssert ns) s = .next s) ∧
    (∃ t, exec .auxRailLoss s = .next t ∧ t.dev.aux = false ∧ t.jtag = Jtag.reset ∧ t.watch = Watch.reset) ∧
    (∃ t, exec .thermtripRelease s = .next t ∧ t.pwr.thermTrip = false)

/-- Input voltage, power cap, rails, clock and temperature: each event moves its own limit one step within 8 to 16 (rails: 8 while one is over), the core clock
follows the least of the four with vector 250, a warning stops in Sideline and a trip goes Dark with THERMTRIP_N driven. -/
def Obligations.LimitsFollowPowerAndHeat : Prop :=
  ∀ (s : State), s.alive = true →
    (∀ v, 3800 ≤ v → v ≤ 6400 → (v < 4000 ∨ 6000 < v) → ∃ t, exec (.vinOutOfRange v) s = .next t ∧ t.pwr.vIn = v ∧
      t.pwr.vinLow = decide (v < 4000) ∧ t.pwr.vinHigh = decide (6000 < v)) ∧
    (∀ w, s.capNow < w → ∃ t, exec (.capStepDown w) s = .next t ∧ t.pwr.capVal = max 8 (s.pwr.capVal - 1) ∧
      t.pwr.capUnmet = (s.pwr.capUnmet || decide (s.clk.cclk = 8))) ∧
    (∀ w, w + 150 < s.capNow → ∃ t, exec (.capStepUp w) s = .next t ∧ t.pwr.capVal = min 16 (s.pwr.capVal + 1) ∧ t.pwr.capUnmet = false) ∧
    (∀ c k peak, ∃ t, exec (.railOvercurrent c k peak) s = .next t ∧ t.pwr.railVal = 8 ∧ (c, k) ∈ t.pwr.overRails ∧ t.clk = s.clk) ∧
    (∀ c k, (c, k) ∈ s.pwr.overRails → ∃ t, exec (.railOvercurrentEnd c k) s = .next t ∧ (c, k) ∉ t.pwr.overRails ∧
      ((∀ r, r ∈ s.pwr.overRails → r = (c, k)) → t.pwr.railVal = 16)) ∧
    (s.cclkTarget ≠ s.clk.cclk → ∃ t, exec .cclkChange s = .next t ∧
      t.clk.cclk = min (min s.clkCap s.pwr.capVal) (min s.pwr.thermVal s.pwr.railVal) ∧ t.watch.throttled = true) ∧
    (∀ x : Temps, (x.die ++ x.stack).any (fun y => decide (360 ≤ y)) = true → ∃ t, exec (.thermalStepDown x) s = .next t ∧
      t.pwr.thermVal = max 8 (s.pwr.thermVal - 1)) ∧
    (∀ x : Temps, (x.die ++ x.stack).all (fun y => decide (y < 348)) = true → ∃ t, exec (.thermalStepUp x) s = .next t ∧
      t.pwr.thermVal = min 16 (s.pwr.thermVal + 1)) ∧
    (∀ x : Temps, s.up = true → x.stack.any (fun y => decide (380 ≤ y)) = true → ∃ t, exec (.thermalTripWarning x) s = .next t ∧ t.dev.mode = .sideline ∧
      t.watch.alert.getLsbD 3 = true) ∧
    (∀ x : Temps, x.die.any (fun y => decide (420 ≤ y)) = true → ∃ t, exec (.thermalTrip x) s = .next t ∧ t.dev.mode = .dark ∧ t.pwr.thermTrip = true)

/-! ## Watch Port, SMBus and JTAG -/

/-- The board's ports while the aux rail is up: a Watch Port read answers its word, ALERT bits clear where ones are written and the others stay, the heartbeat
turns; the SMBus answers its blocks and keeps its ledger slot. -/
def Obligations.WatchAndManagementPorts : Prop :=
  ∀ (s : State), s.dev.aux = true →
    (∀ w, exec (.wpRead w) s = .next ((s.sample w).emit (.wpData (BitVec.ofNat 16 ((s.sample w).wpWord w))))) ∧
    (∀ w, (w < 8 ∨ 18 ≤ w) → exec (.wpRead w) s = .next (s.emit (.wpData (BitVec.ofNat 16 (s.wpWord w))))) ∧
    (s.alive = true → (∀ v : Half, ∃ t, exec (.wpAlertClear v) s = .next t ∧
        (∀ i, i < 5 → t.watch.alert.getLsbD i = (s.watch.alert.getLsbD i && !v.getLsbD i)) ∧ t.watch.heartbeat = s.watch.heartbeat ∧ Only [.watch] s t) ∧
      exec .wpHeartbeat s = .next (s.setWatch { s.watch with heartbeat := !s.watch.heartbeat })) ∧
    (exec .smbIdent s = .next (s.smb (leBytes 8 s.dev.serial.toNat ++ partNumber ++ leBytes 2 steppingB1 ++ leBytes 4 s.dev.fwVer.toNat))) ∧
    (exec .smbHealth s = .next (s.smb ([0, 1, 7, 0x12].flatMap fun w => leBytes 2 (s.wpWord w)))) ∧
    (∃ t l, exec .smbThermal s = .next t ∧ t.out = .smb l :: s.out ∧ l.length = 16 ∧ Only [.free, .out] s t) ∧
    (∃ t l, exec .smbPower s = .next t ∧ t.out = .smb l :: s.out ∧ l.length = 32 ∧ Only [.free, .out] s t) ∧
    (∀ slot, slot < 122880 → ∃ t, exec (.smbLedgSel slot) s = .next t ∧ t.smbSlot = slot ∧ Only [.smbSlot] s t) ∧
    (∀ slot, 122880 ≤ slot → exec (.smbLedgSel slot) s = .next s) ∧
    (exec .smbLedgLo s = .next (s.smb ((s.ledger.slotBytes s.smbSlot).take 32)) ∧ exec .smbLedgHi s = .next (s.smb ((s.ledger.slotBytes s.smbSlot).drop 32))) ∧
    (exec .smbCounts s = .next (s.smb (leBytes 4 s.mram.pcycle ++ leBytes 4 s.dev.ponLive ++ leBytes 4 s.ledger.head.toNat ++ leBytes 4 s.ledger.fatalFree)))

/-- JTAG while the aux rail is up: each instruction is loaded and answers its register, one that drives pins is effective only while SYS_RESET_N is asserted,
STACK_1500 selects a stack where the device allows it, and TRST_N resets the port alone. -/
def Obligations.JtagInstructionsLoadTheirRegister : Prop :=
  ∀ (s : State), s.dev.aux = true →
    (exec .bypass s = .next ((s.loadIr 0xFF false).emit (.tdo [false])) ∧ exec .idcode s = .next ((s.loadIr 0x01 false).emit (.tdo (bitsOut 32 0x143204E5))) ∧
      exec .clampIr s = .next ((s.loadIr 0x06 true).emit (.tdo [false])) ∧ exec .highz s = .next ((s.loadIr 0x07 true).emit (.tdo [false]))) ∧
    (∃ t l, exec .samplePreload s = .next t ∧ t.out = .tdo l :: s.out ∧ t.jtag.ir = 2 ∧ t.jtag.effective = true) ∧
    (∀ c ir, (c = Instr.extest ∧ ir = 3) ∨ (c = .extestPulse ∧ ir = 4) ∨ (c = .extestTrain ∧ ir = 5) → ∃ t l, exec c s = .next t ∧ t.out = .tdo l :: s.out ∧
      t.jtag.ir = ir ∧ t.jtag.effective = !s.dev.sysResetN ∧ (s.dev.sysResetN = true → l = [false] ∧ t.free = s.free)) ∧
    (∀ k, k < 32 → (s.alive = false ∨ (s.chan (k / 8)).inReset = true) → ∃ t, exec (.stack1500 k) s = .next t ∧ t.jtag.stack = some k ∧ t.jtag.ir = 0x10) ∧
    (∀ k, (32 ≤ k ∨ (s.alive = true ∧ (s.chan (k / 8)).inReset = false)) → ∃ t, exec (.stack1500 k) s = .next t ∧ t.jtag.stack = none) ∧
    (exec .trstNReset s = .next (s.setJtag Jtag.reset)) ∧
    (∀ c, c ∈ [Instr.bypass, .idcode, .samplePreload, .extest, .extestPulse, .extestTrain, .clampIr, .highz, .trstNReset] → ∀ t, exec c s = .next t →
      Only [.free, .out, .jtag] s t)
end

