-- ==== Sys2Proof/Laws/State.lean ====
section
/-! SUPPORT. What each update of the state leaves in each field: one lemma per field and update. -/

namespace Sys2Proof.Machine


/-! ### setClk -/

@[simp] theorem State.setClk_pending (s : State) (v : Clock) : (s.setClk v).pending = s.pending := rfl
@[simp] theorem State.setClk_free (s : State) (v : Clock) : (s.setClk v).free = s.free := rfl
@[simp] theorem State.setClk_out (s : State) (v : Clock) : (s.setClk v).out = s.out := rfl
@[simp] theorem State.setClk_regs (s : State) (v : Clock) : (s.setClk v).regs = s.regs := rfl
@[simp] theorem State.setClk_latchA (s : State) (v : Clock) : (s.setClk v).latchA = s.latchA := rfl
@[simp] theorem State.setClk_latchB (s : State) (v : Clock) : (s.setClk v).latchB = s.latchB := rfl
@[simp] theorem State.setClk_hbm (s : State) (v : Clock) : (s.setClk v).hbm = s.hbm := rfl
@[simp] theorem State.setClk_store (s : State) (v : Clock) : (s.setClk v).store = s.store := rfl
@[simp] theorem State.setClk_clk (s : State) (v : Clock) : (s.setClk v).clk = v := rfl
@[simp] theorem State.setClk_dev (s : State) (v : Clock) : (s.setClk v).dev = s.dev := rfl
@[simp] theorem State.setClk_mram (s : State) (v : Clock) : (s.setClk v).mram = s.mram := rfl
@[simp] theorem State.setClk_ctx0 (s : State) (v : Clock) : (s.setClk v).ctx0 = s.ctx0 := rfl
@[simp] theorem State.setClk_ctx1 (s : State) (v : Clock) : (s.setClk v).ctx1 = s.ctx1 := rfl
@[simp] theorem State.setClk_squads (s : State) (v : Clock) : (s.setClk v).squads = s.squads := rfl
@[simp] theorem State.setClk_chans (s : State) (v : Clock) : (s.setClk v).chans = s.chans := rfl
@[simp] theorem State.setClk_links (s : State) (v : Clock) : (s.setClk v).links = s.links := rfl
@[simp] theorem State.setClk_net (s : State) (v : Clock) : (s.setClk v).net = s.net := rfl
@[simp] theorem State.setClk_ledger (s : State) (v : Clock) : (s.setClk v).ledger = s.ledger := rfl
@[simp] theorem State.setClk_tele (s : State) (v : Clock) : (s.setClk v).tele = s.tele := rfl
@[simp] theorem State.setClk_host (s : State) (v : Clock) : (s.setClk v).host = s.host := rfl
@[simp] theorem State.setClk_pwr (s : State) (v : Clock) : (s.setClk v).pwr = s.pwr := rfl
@[simp] theorem State.setClk_watch (s : State) (v : Clock) : (s.setClk v).watch = s.watch := rfl
@[simp] theorem State.setClk_jtag (s : State) (v : Clock) : (s.setClk v).jtag = s.jtag := rfl
@[simp] theorem State.setClk_smbSlot (s : State) (v : Clock) : (s.setClk v).smbSlot = s.smbSlot := rfl
@[simp] theorem State.setClk_flightSeq (s : State) (v : Clock) : (s.setClk v).flightSeq = s.flightSeq := rfl

/-! ### setDev -/

@[simp] theorem State.setDev_pending (s : State) (v : Dev) : (s.setDev v).pending = s.pending := rfl
@[simp] theorem State.setDev_free (s : State) (v : Dev) : (s.setDev v).free = s.free := rfl
@[simp] theorem State.setDev_out (s : State) (v : Dev) : (s.setDev v).out = s.out := rfl
@[simp] theorem State.setDev_regs (s : State) (v : Dev) : (s.setDev v).regs = s.regs := rfl
@[simp] theorem State.setDev_latchA (s : State) (v : Dev) : (s.setDev v).latchA = s.latchA := rfl
@[simp] theorem State.setDev_latchB (s : State) (v : Dev) : (s.setDev v).latchB = s.latchB := rfl
@[simp] theorem State.setDev_hbm (s : State) (v : Dev) : (s.setDev v).hbm = s.hbm := rfl
@[simp] theorem State.setDev_store (s : State) (v : Dev) : (s.setDev v).store = s.store := rfl
@[simp] theorem State.setDev_clk (s : State) (v : Dev) : (s.setDev v).clk = s.clk := rfl
@[simp] theorem State.setDev_dev (s : State) (v : Dev) : (s.setDev v).dev = v := rfl
@[simp] theorem State.setDev_mram (s : State) (v : Dev) : (s.setDev v).mram = s.mram := rfl
@[simp] theorem State.setDev_ctx0 (s : State) (v : Dev) : (s.setDev v).ctx0 = s.ctx0 := rfl
@[simp] theorem State.setDev_ctx1 (s : State) (v : Dev) : (s.setDev v).ctx1 = s.ctx1 := rfl
@[simp] theorem State.setDev_squads (s : State) (v : Dev) : (s.setDev v).squads = s.squads := rfl
@[simp] theorem State.setDev_chans (s : State) (v : Dev) : (s.setDev v).chans = s.chans := rfl
@[simp] theorem State.setDev_links (s : State) (v : Dev) : (s.setDev v).links = s.links := rfl
@[simp] theorem State.setDev_net (s : State) (v : Dev) : (s.setDev v).net = s.net := rfl
@[simp] theorem State.setDev_ledger (s : State) (v : Dev) : (s.setDev v).ledger = s.ledger := rfl
@[simp] theorem State.setDev_tele (s : State) (v : Dev) : (s.setDev v).tele = s.tele := rfl
@[simp] theorem State.setDev_host (s : State) (v : Dev) : (s.setDev v).host = s.host := rfl
@[simp] theorem State.setDev_pwr (s : State) (v : Dev) : (s.setDev v).pwr = s.pwr := rfl
@[simp] theorem State.setDev_watch (s : State) (v : Dev) : (s.setDev v).watch = s.watch := rfl
@[simp] theorem State.setDev_jtag (s : State) (v : Dev) : (s.setDev v).jtag = s.jtag := rfl
@[simp] theorem State.setDev_smbSlot (s : State) (v : Dev) : (s.setDev v).smbSlot = s.smbSlot := rfl
@[simp] theorem State.setDev_flightSeq (s : State) (v : Dev) : (s.setDev v).flightSeq = s.flightSeq := rfl

/-! ### setMram -/

@[simp] theorem State.setMram_pending (s : State) (v : Mram) : (s.setMram v).pending = s.pending := rfl
@[simp] theorem State.setMram_free (s : State) (v : Mram) : (s.setMram v).free = s.free := rfl
@[simp] theorem State.setMram_out (s : State) (v : Mram) : (s.setMram v).out = s.out := rfl
@[simp] theorem State.setMram_regs (s : State) (v : Mram) : (s.setMram v).regs = s.regs := rfl
@[simp] theorem State.setMram_latchA (s : State) (v : Mram) : (s.setMram v).latchA = s.latchA := rfl
@[simp] theorem State.setMram_latchB (s : State) (v : Mram) : (s.setMram v).latchB = s.latchB := rfl
@[simp] theorem State.setMram_hbm (s : State) (v : Mram) : (s.setMram v).hbm = s.hbm := rfl
@[simp] theorem State.setMram_store (s : State) (v : Mram) : (s.setMram v).store = s.store := rfl
@[simp] theorem State.setMram_clk (s : State) (v : Mram) : (s.setMram v).clk = s.clk := rfl
@[simp] theorem State.setMram_dev (s : State) (v : Mram) : (s.setMram v).dev = s.dev := rfl
@[simp] theorem State.setMram_mram (s : State) (v : Mram) : (s.setMram v).mram = v := rfl
@[simp] theorem State.setMram_ctx0 (s : State) (v : Mram) : (s.setMram v).ctx0 = s.ctx0 := rfl
@[simp] theorem State.setMram_ctx1 (s : State) (v : Mram) : (s.setMram v).ctx1 = s.ctx1 := rfl
@[simp] theorem State.setMram_squads (s : State) (v : Mram) : (s.setMram v).squads = s.squads := rfl
@[simp] theorem State.setMram_chans (s : State) (v : Mram) : (s.setMram v).chans = s.chans := rfl
@[simp] theorem State.setMram_links (s : State) (v : Mram) : (s.setMram v).links = s.links := rfl
@[simp] theorem State.setMram_net (s : State) (v : Mram) : (s.setMram v).net = s.net := rfl
@[simp] theorem State.setMram_ledger (s : State) (v : Mram) : (s.setMram v).ledger = s.ledger := rfl
@[simp] theorem State.setMram_tele (s : State) (v : Mram) : (s.setMram v).tele = s.tele := rfl
@[simp] theorem State.setMram_host (s : State) (v : Mram) : (s.setMram v).host = s.host := rfl
@[simp] theorem State.setMram_pwr (s : State) (v : Mram) : (s.setMram v).pwr = s.pwr := rfl
@[simp] theorem State.setMram_watch (s : State) (v : Mram) : (s.setMram v).watch = s.watch := rfl
@[simp] theorem State.setMram_jtag (s : State) (v : Mram) : (s.setMram v).jtag = s.jtag := rfl
@[simp] theorem State.setMram_smbSlot (s : State) (v : Mram) : (s.setMram v).smbSlot = s.smbSlot := rfl
@[simp] theorem State.setMram_flightSeq (s : State) (v : Mram) : (s.setMram v).flightSeq = s.flightSeq := rfl

/-! ### setNet -/

@[simp] theorem State.setNet_pending (s : State) (v : Net) : (s.setNet v).pending = s.pending := rfl
@[simp] theorem State.setNet_free (s : State) (v : Net) : (s.setNet v).free = s.free := rfl
@[simp] theorem State.setNet_out (s : State) (v : Net) : (s.setNet v).out = s.out := rfl
@[simp] theorem State.setNet_regs (s : State) (v : Net) : (s.setNet v).regs = s.regs := rfl
@[simp] theorem State.setNet_latchA (s : State) (v : Net) : (s.setNet v).latchA = s.latchA := rfl
@[simp] theorem State.setNet_latchB (s : State) (v : Net) : (s.setNet v).latchB = s.latchB := rfl
@[simp] theorem State.setNet_hbm (s : State) (v : Net) : (s.setNet v).hbm = s.hbm := rfl
@[simp] theorem State.setNet_store (s : State) (v : Net) : (s.setNet v).store = s.store := rfl
@[simp] theorem State.setNet_clk (s : State) (v : Net) : (s.setNet v).clk = s.clk := rfl
@[simp] theorem State.setNet_dev (s : State) (v : Net) : (s.setNet v).dev = s.dev := rfl
@[simp] theorem State.setNet_mram (s : State) (v : Net) : (s.setNet v).mram = s.mram := rfl
@[simp] theorem State.setNet_ctx0 (s : State) (v : Net) : (s.setNet v).ctx0 = s.ctx0 := rfl
@[simp] theorem State.setNet_ctx1 (s : State) (v : Net) : (s.setNet v).ctx1 = s.ctx1 := rfl
@[simp] theorem State.setNet_squads (s : State) (v : Net) : (s.setNet v).squads = s.squads := rfl
@[simp] theorem State.setNet_chans (s : State) (v : Net) : (s.setNet v).chans = s.chans := rfl
@[simp] theorem State.setNet_links (s : State) (v : Net) : (s.setNet v).links = s.links := rfl
@[simp] theorem State.setNet_net (s : State) (v : Net) : (s.setNet v).net = v := rfl
@[simp] theorem State.setNet_ledger (s : State) (v : Net) : (s.setNet v).ledger = s.ledger := rfl
@[simp] theorem State.setNet_tele (s : State) (v : Net) : (s.setNet v).tele = s.tele := rfl
@[simp] theorem State.setNet_host (s : State) (v : Net) : (s.setNet v).host = s.host := rfl
@[simp] theorem State.setNet_pwr (s : State) (v : Net) : (s.setNet v).pwr = s.pwr := rfl
@[simp] theorem State.setNet_watch (s : State) (v : Net) : (s.setNet v).watch = s.watch := rfl
@[simp] theorem State.setNet_jtag (s : State) (v : Net) : (s.setNet v).jtag = s.jtag := rfl
@[simp] theorem State.setNet_smbSlot (s : State) (v : Net) : (s.setNet v).smbSlot = s.smbSlot := rfl
@[simp] theorem State.setNet_flightSeq (s : State) (v : Net) : (s.setNet v).flightSeq = s.flightSeq := rfl

/-! ### setLedger -/

@[simp] theorem State.setLedger_pending (s : State) (v : Ledger) : (s.setLedger v).pending = s.pending := rfl
@[simp] theorem State.setLedger_free (s : State) (v : Ledger) : (s.setLedger v).free = s.free := rfl
@[simp] theorem State.setLedger_out (s : State) (v : Ledger) : (s.setLedger v).out = s.out := rfl
@[simp] theorem State.setLedger_regs (s : State) (v : Ledger) : (s.setLedger v).regs = s.regs := rfl
@[simp] theorem State.setLedger_latchA (s : State) (v : Ledger) : (s.setLedger v).latchA = s.latchA := rfl
@[simp] theorem State.setLedger_latchB (s : State) (v : Ledger) : (s.setLedger v).latchB = s.latchB := rfl
@[simp] theorem State.setLedger_hbm (s : State) (v : Ledger) : (s.setLedger v).hbm = s.hbm := rfl
@[simp] theorem State.setLedger_store (s : State) (v : Ledger) : (s.setLedger v).store = s.store := rfl
@[simp] theorem State.setLedger_clk (s : State) (v : Ledger) : (s.setLedger v).clk = s.clk := rfl
@[simp] theorem State.setLedger_dev (s : State) (v : Ledger) : (s.setLedger v).dev = s.dev := rfl
@[simp] theorem State.setLedger_mram (s : State) (v : Ledger) : (s.setLedger v).mram = s.mram := rfl
@[simp] theorem State.setLedger_ctx0 (s : State) (v : Ledger) : (s.setLedger v).ctx0 = s.ctx0 := rfl
@[simp] theorem State.setLedger_ctx1 (s : State) (v : Ledger) : (s.setLedger v).ctx1 = s.ctx1 := rfl
@[simp] theorem State.setLedger_squads (s : State) (v : Ledger) : (s.setLedger v).squads = s.squads := rfl
@[simp] theorem State.setLedger_chans (s : State) (v : Ledger) : (s.setLedger v).chans = s.chans := rfl
@[simp] theorem State.setLedger_links (s : State) (v : Ledger) : (s.setLedger v).links = s.links := rfl
@[simp] theorem State.setLedger_net (s : State) (v : Ledger) : (s.setLedger v).net = s.net := rfl
@[simp] theorem State.setLedger_ledger (s : State) (v : Ledger) : (s.setLedger v).ledger = v := rfl
@[simp] theorem State.setLedger_tele (s : State) (v : Ledger) : (s.setLedger v).tele = s.tele := rfl
@[simp] theorem State.setLedger_host (s : State) (v : Ledger) : (s.setLedger v).host = s.host := rfl
@[simp] theorem State.setLedger_pwr (s : State) (v : Ledger) : (s.setLedger v).pwr = s.pwr := rfl
@[simp] theorem State.setLedger_watch (s : State) (v : Ledger) : (s.setLedger v).watch = s.watch := rfl
@[simp] theorem State.setLedger_jtag (s : State) (v : Ledger) : (s.setLedger v).jtag = s.jtag := rfl
@[simp] theorem State.setLedger_smbSlot (s : State) (v : Ledger) : (s.setLedger v).smbSlot = s.smbSlot := rfl
@[simp] theorem State.setLedger_flightSeq (s : State) (v : Ledger) : (s.setLedger v).flightSeq = s.flightSeq := rfl

/-! ### setTele -/

@[simp] theorem State.setTele_pending (s : State) (v : Tele) : (s.setTele v).pending = s.pending := rfl
@[simp] theorem State.setTele_free (s : State) (v : Tele) : (s.setTele v).free = s.free := rfl
@[simp] theorem State.setTele_out (s : State) (v : Tele) : (s.setTele v).out = s.out := rfl
@[simp] theorem State.setTele_regs (s : State) (v : Tele) : (s.setTele v).regs = s.regs := rfl
@[simp] theorem State.setTele_latchA (s : State) (v : Tele) : (s.setTele v).latchA = s.latchA := rfl
@[simp] theorem State.setTele_latchB (s : State) (v : Tele) : (s.setTele v).latchB = s.latchB := rfl
@[simp] theorem State.setTele_hbm (s : State) (v : Tele) : (s.setTele v).hbm = s.hbm := rfl
@[simp] theorem State.setTele_store (s : State) (v : Tele) : (s.setTele v).store = s.store := rfl
@[simp] theorem State.setTele_clk (s : State) (v : Tele) : (s.setTele v).clk = s.clk := rfl
@[simp] theorem State.setTele_dev (s : State) (v : Tele) : (s.setTele v).dev = s.dev := rfl
@[simp] theorem State.setTele_mram (s : State) (v : Tele) : (s.setTele v).mram = s.mram := rfl
@[simp] theorem State.setTele_ctx0 (s : State) (v : Tele) : (s.setTele v).ctx0 = s.ctx0 := rfl
@[simp] theorem State.setTele_ctx1 (s : State) (v : Tele) : (s.setTele v).ctx1 = s.ctx1 := rfl
@[simp] theorem State.setTele_squads (s : State) (v : Tele) : (s.setTele v).squads = s.squads := rfl
@[simp] theorem State.setTele_chans (s : State) (v : Tele) : (s.setTele v).chans = s.chans := rfl
@[simp] theorem State.setTele_links (s : State) (v : Tele) : (s.setTele v).links = s.links := rfl
@[simp] theorem State.setTele_net (s : State) (v : Tele) : (s.setTele v).net = s.net := rfl
@[simp] theorem State.setTele_ledger (s : State) (v : Tele) : (s.setTele v).ledger = s.ledger := rfl
@[simp] theorem State.setTele_tele (s : State) (v : Tele) : (s.setTele v).tele = v := rfl
@[simp] theorem State.setTele_host (s : State) (v : Tele) : (s.setTele v).host = s.host := rfl
@[simp] theorem State.setTele_pwr (s : State) (v : Tele) : (s.setTele v).pwr = s.pwr := rfl
@[simp] theorem State.setTele_watch (s : State) (v : Tele) : (s.setTele v).watch = s.watch := rfl
@[simp] theorem State.setTele_jtag (s : State) (v : Tele) : (s.setTele v).jtag = s.jtag := rfl
@[simp] theorem State.setTele_smbSlot (s : State) (v : Tele) : (s.setTele v).smbSlot = s.smbSlot := rfl
@[simp] theorem State.setTele_flightSeq (s : State) (v : Tele) : (s.setTele v).flightSeq = s.flightSeq := rfl

/-! ### setHost -/

@[simp] theorem State.setHost_pending (s : State) (v : HostPorts) : (s.setHost v).pending = s.pending := rfl
@[simp] theorem State.setHost_free (s : State) (v : HostPorts) : (s.setHost v).free = s.free := rfl
@[simp] theorem State.setHost_out (s : State) (v : HostPorts) : (s.setHost v).out = s.out := rfl
@[simp] theorem State.setHost_regs (s : State) (v : HostPorts) : (s.setHost v).regs = s.regs := rfl
@[simp] theorem State.setHost_latchA (s : State) (v : HostPorts) : (s.setHost v).latchA = s.latchA := rfl
@[simp] theorem State.setHost_latchB (s : State) (v : HostPorts) : (s.setHost v).latchB = s.latchB := rfl
@[simp] theorem State.setHost_hbm (s : State) (v : HostPorts) : (s.setHost v).hbm = s.hbm := rfl
@[simp] theorem State.setHost_store (s : State) (v : HostPorts) : (s.setHost v).store = s.store := rfl
@[simp] theorem State.setHost_clk (s : State) (v : HostPorts) : (s.setHost v).clk = s.clk := rfl
@[simp] theorem State.setHost_dev (s : State) (v : HostPorts) : (s.setHost v).dev = s.dev := rfl
@[simp] theorem State.setHost_mram (s : State) (v : HostPorts) : (s.setHost v).mram = s.mram := rfl
@[simp] theorem State.setHost_ctx0 (s : State) (v : HostPorts) : (s.setHost v).ctx0 = s.ctx0 := rfl
@[simp] theorem State.setHost_ctx1 (s : State) (v : HostPorts) : (s.setHost v).ctx1 = s.ctx1 := rfl
@[simp] theorem State.setHost_squads (s : State) (v : HostPorts) : (s.setHost v).squads = s.squads := rfl
@[simp] theorem State.setHost_chans (s : State) (v : HostPorts) : (s.setHost v).chans = s.chans := rfl
@[simp] theorem State.setHost_links (s : State) (v : HostPorts) : (s.setHost v).links = s.links := rfl
@[simp] theorem State.setHost_net (s : State) (v : HostPorts) : (s.setHost v).net = s.net := rfl
@[simp] theorem State.setHost_ledger (s : State) (v : HostPorts) : (s.setHost v).ledger = s.ledger := rfl
@[simp] theorem State.setHost_tele (s : State) (v : HostPorts) : (s.setHost v).tele = s.tele := rfl
@[simp] theorem State.setHost_host (s : State) (v : HostPorts) : (s.setHost v).host = v := rfl
@[simp] theorem State.setHost_pwr (s : State) (v : HostPorts) : (s.setHost v).pwr = s.pwr := rfl
@[simp] theorem State.setHost_watch (s : State) (v : HostPorts) : (s.setHost v).watch = s.watch := rfl
@[simp] theorem State.setHost_jtag (s : State) (v : HostPorts) : (s.setHost v).jtag = s.jtag := rfl
@[simp] theorem State.setHost_smbSlot (s : State) (v : HostPorts) : (s.setHost v).smbSlot = s.smbSlot := rfl
@[simp] theorem State.setHost_flightSeq (s : State) (v : HostPorts) : (s.setHost v).flightSeq = s.flightSeq := rfl

/-! ### setPwr -/

@[simp] theorem State.setPwr_pending (s : State) (v : Power) : (s.setPwr v).pending = s.pending := rfl
@[simp] theorem State.setPwr_free (s : State) (v : Power) : (s.setPwr v).free = s.free := rfl
@[simp] theorem State.setPwr_out (s : State) (v : Power) : (s.setPwr v).out = s.out := rfl
@[simp] theorem State.setPwr_regs (s : State) (v : Power) : (s.setPwr v).regs = s.regs := rfl
@[simp] theorem State.setPwr_latchA (s : State) (v : Power) : (s.setPwr v).latchA = s.latchA := rfl
@[simp] theorem State.setPwr_latchB (s : State) (v : Power) : (s.setPwr v).latchB = s.latchB := rfl
@[simp] theorem State.setPwr_hbm (s : State) (v : Power) : (s.setPwr v).hbm = s.hbm := rfl
@[simp] theorem State.setPwr_store (s : State) (v : Power) : (s.setPwr v).store = s.store := rfl
@[simp] theorem State.setPwr_clk (s : State) (v : Power) : (s.setPwr v).clk = s.clk := rfl
@[simp] theorem State.setPwr_dev (s : State) (v : Power) : (s.setPwr v).dev = s.dev := rfl
@[simp] theorem State.setPwr_mram (s : State) (v : Power) : (s.setPwr v).mram = s.mram := rfl
@[simp] theorem State.setPwr_ctx0 (s : State) (v : Power) : (s.setPwr v).ctx0 = s.ctx0 := rfl
@[simp] theorem State.setPwr_ctx1 (s : State) (v : Power) : (s.setPwr v).ctx1 = s.ctx1 := rfl
@[simp] theorem State.setPwr_squads (s : State) (v : Power) : (s.setPwr v).squads = s.squads := rfl
@[simp] theorem State.setPwr_chans (s : State) (v : Power) : (s.setPwr v).chans = s.chans := rfl
@[simp] theorem State.setPwr_links (s : State) (v : Power) : (s.setPwr v).links = s.links := rfl
@[simp] theorem State.setPwr_net (s : State) (v : Power) : (s.setPwr v).net = s.net := rfl
@[simp] theorem State.setPwr_ledger (s : State) (v : Power) : (s.setPwr v).ledger = s.ledger := rfl
@[simp] theorem State.setPwr_tele (s : State) (v : Power) : (s.setPwr v).tele = s.tele := rfl
@[simp] theorem State.setPwr_host (s : State) (v : Power) : (s.setPwr v).host = s.host := rfl
@[simp] theorem State.setPwr_pwr (s : State) (v : Power) : (s.setPwr v).pwr = v := rfl
@[simp] theorem State.setPwr_watch (s : State) (v : Power) : (s.setPwr v).watch = s.watch := rfl
@[simp] theorem State.setPwr_jtag (s : State) (v : Power) : (s.setPwr v).jtag = s.jtag := rfl
@[simp] theorem State.setPwr_smbSlot (s : State) (v : Power) : (s.setPwr v).smbSlot = s.smbSlot := rfl
@[simp] theorem State.setPwr_flightSeq (s : State) (v : Power) : (s.setPwr v).flightSeq = s.flightSeq := rfl

/-! ### setWatch -/

@[simp] theorem State.setWatch_pending (s : State) (v : Watch) : (s.setWatch v).pending = s.pending := rfl
@[simp] theorem State.setWatch_free (s : State) (v : Watch) : (s.setWatch v).free = s.free := rfl
@[simp] theorem State.setWatch_out (s : State) (v : Watch) : (s.setWatch v).out = s.out := rfl
@[simp] theorem State.setWatch_regs (s : State) (v : Watch) : (s.setWatch v).regs = s.regs := rfl
@[simp] theorem State.setWatch_latchA (s : State) (v : Watch) : (s.setWatch v).latchA = s.latchA := rfl
@[simp] theorem State.setWatch_latchB (s : State) (v : Watch) : (s.setWatch v).latchB = s.latchB := rfl
@[simp] theorem State.setWatch_hbm (s : State) (v : Watch) : (s.setWatch v).hbm = s.hbm := rfl
@[simp] theorem State.setWatch_store (s : State) (v : Watch) : (s.setWatch v).store = s.store := rfl
@[simp] theorem State.setWatch_clk (s : State) (v : Watch) : (s.setWatch v).clk = s.clk := rfl
@[simp] theorem State.setWatch_dev (s : State) (v : Watch) : (s.setWatch v).dev = s.dev := rfl
@[simp] theorem State.setWatch_mram (s : State) (v : Watch) : (s.setWatch v).mram = s.mram := rfl
@[simp] theorem State.setWatch_ctx0 (s : State) (v : Watch) : (s.setWatch v).ctx0 = s.ctx0 := rfl
@[simp] theorem State.setWatch_ctx1 (s : State) (v : Watch) : (s.setWatch v).ctx1 = s.ctx1 := rfl
@[simp] theorem State.setWatch_squads (s : State) (v : Watch) : (s.setWatch v).squads = s.squads := rfl
@[simp] theorem State.setWatch_chans (s : State) (v : Watch) : (s.setWatch v).chans = s.chans := rfl
@[simp] theorem State.setWatch_links (s : State) (v : Watch) : (s.setWatch v).links = s.links := rfl
@[simp] theorem State.setWatch_net (s : State) (v : Watch) : (s.setWatch v).net = s.net := rfl
@[simp] theorem State.setWatch_ledger (s : State) (v : Watch) : (s.setWatch v).ledger = s.ledger := rfl
@[simp] theorem State.setWatch_tele (s : State) (v : Watch) : (s.setWatch v).tele = s.tele := rfl
@[simp] theorem State.setWatch_host (s : State) (v : Watch) : (s.setWatch v).host = s.host := rfl
@[simp] theorem State.setWatch_pwr (s : State) (v : Watch) : (s.setWatch v).pwr = s.pwr := rfl
@[simp] theorem State.setWatch_watch (s : State) (v : Watch) : (s.setWatch v).watch = v := rfl
@[simp] theorem State.setWatch_jtag (s : State) (v : Watch) : (s.setWatch v).jtag = s.jtag := rfl
@[simp] theorem State.setWatch_smbSlot (s : State) (v : Watch) : (s.setWatch v).smbSlot = s.smbSlot := rfl
@[simp] theorem State.setWatch_flightSeq (s : State) (v : Watch) : (s.setWatch v).flightSeq = s.flightSeq := rfl

/-! ### setJtag -/

@[simp] theorem State.setJtag_pending (s : State) (v : Jtag) : (s.setJtag v).pending = s.pending := rfl
@[simp] theorem State.setJtag_free (s : State) (v : Jtag) : (s.setJtag v).free = s.free := rfl
@[simp] theorem State.setJtag_out (s : State) (v : Jtag) : (s.setJtag v).out = s.out := rfl
@[simp] theorem State.setJtag_regs (s : State) (v : Jtag) : (s.setJtag v).regs = s.regs := rfl
@[simp] theorem State.setJtag_latchA (s : State) (v : Jtag) : (s.setJtag v).latchA = s.latchA := rfl
@[simp] theorem State.setJtag_latchB (s : State) (v : Jtag) : (s.setJtag v).latchB = s.latchB := rfl
@[simp] theorem State.setJtag_hbm (s : State) (v : Jtag) : (s.setJtag v).hbm = s.hbm := rfl
@[simp] theorem State.setJtag_store (s : State) (v : Jtag) : (s.setJtag v).store = s.store := rfl
@[simp] theorem State.setJtag_clk (s : State) (v : Jtag) : (s.setJtag v).clk = s.clk := rfl
@[simp] theorem State.setJtag_dev (s : State) (v : Jtag) : (s.setJtag v).dev = s.dev := rfl
@[simp] theorem State.setJtag_mram (s : State) (v : Jtag) : (s.setJtag v).mram = s.mram := rfl
@[simp] theorem State.setJtag_ctx0 (s : State) (v : Jtag) : (s.setJtag v).ctx0 = s.ctx0 := rfl
@[simp] theorem State.setJtag_ctx1 (s : State) (v : Jtag) : (s.setJtag v).ctx1 = s.ctx1 := rfl
@[simp] theorem State.setJtag_squads (s : State) (v : Jtag) : (s.setJtag v).squads = s.squads := rfl
@[simp] theorem State.setJtag_chans (s : State) (v : Jtag) : (s.setJtag v).chans = s.chans := rfl
@[simp] theorem State.setJtag_links (s : State) (v : Jtag) : (s.setJtag v).links = s.links := rfl
@[simp] theorem State.setJtag_net (s : State) (v : Jtag) : (s.setJtag v).net = s.net := rfl
@[simp] theorem State.setJtag_ledger (s : State) (v : Jtag) : (s.setJtag v).ledger = s.ledger := rfl
@[simp] theorem State.setJtag_tele (s : State) (v : Jtag) : (s.setJtag v).tele = s.tele := rfl
@[simp] theorem State.setJtag_host (s : State) (v : Jtag) : (s.setJtag v).host = s.host := rfl
@[simp] theorem State.setJtag_pwr (s : State) (v : Jtag) : (s.setJtag v).pwr = s.pwr := rfl
@[simp] theorem State.setJtag_watch (s : State) (v : Jtag) : (s.setJtag v).watch = s.watch := rfl
@[simp] theorem State.setJtag_jtag (s : State) (v : Jtag) : (s.setJtag v).jtag = v := rfl
@[simp] theorem State.setJtag_smbSlot (s : State) (v : Jtag) : (s.setJtag v).smbSlot = s.smbSlot := rfl
@[simp] theorem State.setJtag_flightSeq (s : State) (v : Jtag) : (s.setJtag v).flightSeq = s.flightSeq := rfl

/-! ### setOut -/

@[simp] theorem State.setOut_pending (s : State) (v : List Out) : (s.setOut v).pending = s.pending := rfl
@[simp] theorem State.setOut_free (s : State) (v : List Out) : (s.setOut v).free = s.free := rfl
@[simp] theorem State.setOut_out (s : State) (v : List Out) : (s.setOut v).out = v := rfl
@[simp] theorem State.setOut_regs (s : State) (v : List Out) : (s.setOut v).regs = s.regs := rfl
@[simp] theorem State.setOut_latchA (s : State) (v : List Out) : (s.setOut v).latchA = s.latchA := rfl
@[simp] theorem State.setOut_latchB (s : State) (v : List Out) : (s.setOut v).latchB = s.latchB := rfl
@[simp] theorem State.setOut_hbm (s : State) (v : List Out) : (s.setOut v).hbm = s.hbm := rfl
@[simp] theorem State.setOut_store (s : State) (v : List Out) : (s.setOut v).store = s.store := rfl
@[simp] theorem State.setOut_clk (s : State) (v : List Out) : (s.setOut v).clk = s.clk := rfl
@[simp] theorem State.setOut_dev (s : State) (v : List Out) : (s.setOut v).dev = s.dev := rfl
@[simp] theorem State.setOut_mram (s : State) (v : List Out) : (s.setOut v).mram = s.mram := rfl
@[simp] theorem State.setOut_ctx0 (s : State) (v : List Out) : (s.setOut v).ctx0 = s.ctx0 := rfl
@[simp] theorem State.setOut_ctx1 (s : State) (v : List Out) : (s.setOut v).ctx1 = s.ctx1 := rfl
@[simp] theorem State.setOut_squads (s : State) (v : List Out) : (s.setOut v).squads = s.squads := rfl
@[simp] theorem State.setOut_chans (s : State) (v : List Out) : (s.setOut v).chans = s.chans := rfl
@[simp] theorem State.setOut_links (s : State) (v : List Out) : (s.setOut v).links = s.links := rfl
@[simp] theorem State.setOut_net (s : State) (v : List Out) : (s.setOut v).net = s.net := rfl
@[simp] theorem State.setOut_ledger (s : State) (v : List Out) : (s.setOut v).ledger = s.ledger := rfl
@[simp] theorem State.setOut_tele (s : State) (v : List Out) : (s.setOut v).tele = s.tele := rfl
@[simp] theorem State.setOut_host (s : State) (v : List Out) : (s.setOut v).host = s.host := rfl
@[simp] theorem State.setOut_pwr (s : State) (v : List Out) : (s.setOut v).pwr = s.pwr := rfl
@[simp] theorem State.setOut_watch (s : State) (v : List Out) : (s.setOut v).watch = s.watch := rfl
@[simp] theorem State.setOut_jtag (s : State) (v : List Out) : (s.setOut v).jtag = s.jtag := rfl
@[simp] theorem State.setOut_smbSlot (s : State) (v : List Out) : (s.setOut v).smbSlot = s.smbSlot := rfl
@[simp] theorem State.setOut_flightSeq (s : State) (v : List Out) : (s.setOut v).flightSeq = s.flightSeq := rfl

/-! ### setRegs -/

@[simp] theorem State.setRegs_pending (s : State) (v : Tbl Word) : (s.setRegs v).pending = s.pending := rfl
@[simp] theorem State.setRegs_free (s : State) (v : Tbl Word) : (s.setRegs v).free = s.free := rfl
@[simp] theorem State.setRegs_out (s : State) (v : Tbl Word) : (s.setRegs v).out = s.out := rfl
@[simp] theorem State.setRegs_regs (s : State) (v : Tbl Word) : (s.setRegs v).regs = v := rfl
@[simp] theorem State.setRegs_latchA (s : State) (v : Tbl Word) : (s.setRegs v).latchA = s.latchA := rfl
@[simp] theorem State.setRegs_latchB (s : State) (v : Tbl Word) : (s.setRegs v).latchB = s.latchB := rfl
@[simp] theorem State.setRegs_hbm (s : State) (v : Tbl Word) : (s.setRegs v).hbm = s.hbm := rfl
@[simp] theorem State.setRegs_store (s : State) (v : Tbl Word) : (s.setRegs v).store = s.store := rfl
@[simp] theorem State.setRegs_clk (s : State) (v : Tbl Word) : (s.setRegs v).clk = s.clk := rfl
@[simp] theorem State.setRegs_dev (s : State) (v : Tbl Word) : (s.setRegs v).dev = s.dev := rfl
@[simp] theorem State.setRegs_mram (s : State) (v : Tbl Word) : (s.setRegs v).mram = s.mram := rfl
@[simp] theorem State.setRegs_ctx0 (s : State) (v : Tbl Word) : (s.setRegs v).ctx0 = s.ctx0 := rfl
@[simp] theorem State.setRegs_ctx1 (s : State) (v : Tbl Word) : (s.setRegs v).ctx1 = s.ctx1 := rfl
@[simp] theorem State.setRegs_squads (s : State) (v : Tbl Word) : (s.setRegs v).squads = s.squads := rfl
@[simp] theorem State.setRegs_chans (s : State) (v : Tbl Word) : (s.setRegs v).chans = s.chans := rfl
@[simp] theorem State.setRegs_links (s : State) (v : Tbl Word) : (s.setRegs v).links = s.links := rfl
@[simp] theorem State.setRegs_net (s : State) (v : Tbl Word) : (s.setRegs v).net = s.net := rfl
@[simp] theorem State.setRegs_ledger (s : State) (v : Tbl Word) : (s.setRegs v).ledger = s.ledger := rfl
@[simp] theorem State.setRegs_tele (s : State) (v : Tbl Word) : (s.setRegs v).tele = s.tele := rfl
@[simp] theorem State.setRegs_host (s : State) (v : Tbl Word) : (s.setRegs v).host = s.host := rfl
@[simp] theorem State.setRegs_pwr (s : State) (v : Tbl Word) : (s.setRegs v).pwr = s.pwr := rfl
@[simp] theorem State.setRegs_watch (s : State) (v : Tbl Word) : (s.setRegs v).watch = s.watch := rfl
@[simp] theorem State.setRegs_jtag (s : State) (v : Tbl Word) : (s.setRegs v).jtag = s.jtag := rfl
@[simp] theorem State.setRegs_smbSlot (s : State) (v : Tbl Word) : (s.setRegs v).smbSlot = s.smbSlot := rfl
@[simp] theorem State.setRegs_flightSeq (s : State) (v : Tbl Word) : (s.setRegs v).flightSeq = s.flightSeq := rfl

/-! ### setHbm -/

@[simp] theorem State.setHbm_pending (s : State) (v : List Host.Cell) : (s.setHbm v).pending = s.pending := rfl
@[simp] theorem State.setHbm_free (s : State) (v : List Host.Cell) : (s.setHbm v).free = s.free := rfl
@[simp] theorem State.setHbm_out (s : State) (v : List Host.Cell) : (s.setHbm v).out = s.out := rfl
@[simp] theorem State.setHbm_regs (s : State) (v : List Host.Cell) : (s.setHbm v).regs = s.regs := rfl
@[simp] theorem State.setHbm_latchA (s : State) (v : List Host.Cell) : (s.setHbm v).latchA = s.latchA := rfl
@[simp] theorem State.setHbm_latchB (s : State) (v : List Host.Cell) : (s.setHbm v).latchB = s.latchB := rfl
@[simp] theorem State.setHbm_hbm (s : State) (v : List Host.Cell) : (s.setHbm v).hbm = v := rfl
@[simp] theorem State.setHbm_store (s : State) (v : List Host.Cell) : (s.setHbm v).store = s.store := rfl
@[simp] theorem State.setHbm_clk (s : State) (v : List Host.Cell) : (s.setHbm v).clk = s.clk := rfl
@[simp] theorem State.setHbm_dev (s : State) (v : List Host.Cell) : (s.setHbm v).dev = s.dev := rfl
@[simp] theorem State.setHbm_mram (s : State) (v : List Host.Cell) : (s.setHbm v).mram = s.mram := rfl
@[simp] theorem State.setHbm_ctx0 (s : State) (v : List Host.Cell) : (s.setHbm v).ctx0 = s.ctx0 := rfl
@[simp] theorem State.setHbm_ctx1 (s : State) (v : List Host.Cell) : (s.setHbm v).ctx1 = s.ctx1 := rfl
@[simp] theorem State.setHbm_squads (s : State) (v : List Host.Cell) : (s.setHbm v).squads = s.squads := rfl
@[simp] theorem State.setHbm_chans (s : State) (v : List Host.Cell) : (s.setHbm v).chans = s.chans := rfl
@[simp] theorem State.setHbm_links (s : State) (v : List Host.Cell) : (s.setHbm v).links = s.links := rfl
@[simp] theorem State.setHbm_net (s : State) (v : List Host.Cell) : (s.setHbm v).net = s.net := rfl
@[simp] theorem State.setHbm_ledger (s : State) (v : List Host.Cell) : (s.setHbm v).ledger = s.ledger := rfl
@[simp] theorem State.setHbm_tele (s : State) (v : List Host.Cell) : (s.setHbm v).tele = s.tele := rfl
@[simp] theorem State.setHbm_host (s : State) (v : List Host.Cell) : (s.setHbm v).host = s.host := rfl
@[simp] theorem State.setHbm_pwr (s : State) (v : List Host.Cell) : (s.setHbm v).pwr = s.pwr := rfl
@[simp] theorem State.setHbm_watch (s : State) (v : List Host.Cell) : (s.setHbm v).watch = s.watch := rfl
@[simp] theorem State.setHbm_jtag (s : State) (v : List Host.Cell) : (s.setHbm v).jtag = s.jtag := rfl
@[simp] theorem State.setHbm_smbSlot (s : State) (v : List Host.Cell) : (s.setHbm v).smbSlot = s.smbSlot := rfl
@[simp] theorem State.setHbm_flightSeq (s : State) (v : List Host.Cell) : (s.setHbm v).flightSeq = s.flightSeq := rfl

/-! ### setStore -/

@[simp] theorem State.setStore_pending (s : State) (v : List Host.Cell) : (s.setStore v).pending = s.pending := rfl
@[simp] theorem State.setStore_free (s : State) (v : List Host.Cell) : (s.setStore v).free = s.free := rfl
@[simp] theorem State.setStore_out (s : State) (v : List Host.Cell) : (s.setStore v).out = s.out := rfl
@[simp] theorem State.setStore_regs (s : State) (v : List Host.Cell) : (s.setStore v).regs = s.regs := rfl
@[simp] theorem State.setStore_latchA (s : State) (v : List Host.Cell) : (s.setStore v).latchA = s.latchA := rfl
@[simp] theorem State.setStore_latchB (s : State) (v : List Host.Cell) : (s.setStore v).latchB = s.latchB := rfl
@[simp] theorem State.setStore_hbm (s : State) (v : List Host.Cell) : (s.setStore v).hbm = s.hbm := rfl
@[simp] theorem State.setStore_store (s : State) (v : List Host.Cell) : (s.setStore v).store = v := rfl
@[simp] theorem State.setStore_clk (s : State) (v : List Host.Cell) : (s.setStore v).clk = s.clk := rfl
@[simp] theorem State.setStore_dev (s : State) (v : List Host.Cell) : (s.setStore v).dev = s.dev := rfl
@[simp] theorem State.setStore_mram (s : State) (v : List Host.Cell) : (s.setStore v).mram = s.mram := rfl
@[simp] theorem State.setStore_ctx0 (s : State) (v : List Host.Cell) : (s.setStore v).ctx0 = s.ctx0 := rfl
@[simp] theorem State.setStore_ctx1 (s : State) (v : List Host.Cell) : (s.setStore v).ctx1 = s.ctx1 := rfl
@[simp] theorem State.setStore_squads (s : State) (v : List Host.Cell) : (s.setStore v).squads = s.squads := rfl
@[simp] theorem State.setStore_chans (s : State) (v : List Host.Cell) : (s.setStore v).chans = s.chans := rfl
@[simp] theorem State.setStore_links (s : State) (v : List Host.Cell) : (s.setStore v).links = s.links := rfl
@[simp] theorem State.setStore_net (s : State) (v : List Host.Cell) : (s.setStore v).net = s.net := rfl
@[simp] theorem State.setStore_ledger (s : State) (v : List Host.Cell) : (s.setStore v).ledger = s.ledger := rfl
@[simp] theorem State.setStore_tele (s : State) (v : List Host.Cell) : (s.setStore v).tele = s.tele := rfl
@[simp] theorem State.setStore_host (s : State) (v : List Host.Cell) : (s.setStore v).host = s.host := rfl
@[simp] theorem State.setStore_pwr (s : State) (v : List Host.Cell) : (s.setStore v).pwr = s.pwr := rfl
@[simp] theorem State.setStore_watch (s : State) (v : List Host.Cell) : (s.setStore v).watch = s.watch := rfl
@[simp] theorem State.setStore_jtag (s : State) (v : List Host.Cell) : (s.setStore v).jtag = s.jtag := rfl
@[simp] theorem State.setStore_smbSlot (s : State) (v : List Host.Cell) : (s.setStore v).smbSlot = s.smbSlot := rfl
@[simp] theorem State.setStore_flightSeq (s : State) (v : List Host.Cell) : (s.setStore v).flightSeq = s.flightSeq := rfl

/-! ### setPending -/

@[simp] theorem State.setPending_pending (s : State) (v : List Instr) : (s.setPending v).pending = v := rfl
@[simp] theorem State.setPending_free (s : State) (v : List Instr) : (s.setPending v).free = s.free := rfl
@[simp] theorem State.setPending_out (s : State) (v : List Instr) : (s.setPending v).out = s.out := rfl
@[simp] theorem State.setPending_regs (s : State) (v : List Instr) : (s.setPending v).regs = s.regs := rfl
@[simp] theorem State.setPending_latchA (s : State) (v : List Instr) : (s.setPending v).latchA = s.latchA := rfl
@[simp] theorem State.setPending_latchB (s : State) (v : List Instr) : (s.setPending v).latchB = s.latchB := rfl
@[simp] theorem State.setPending_hbm (s : State) (v : List Instr) : (s.setPending v).hbm = s.hbm := rfl
@[simp] theorem State.setPending_store (s : State) (v : List Instr) : (s.setPending v).store = s.store := rfl
@[simp] theorem State.setPending_clk (s : State) (v : List Instr) : (s.setPending v).clk = s.clk := rfl
@[simp] theorem State.setPending_dev (s : State) (v : List Instr) : (s.setPending v).dev = s.dev := rfl
@[simp] theorem State.setPending_mram (s : State) (v : List Instr) : (s.setPending v).mram = s.mram := rfl
@[simp] theorem State.setPending_ctx0 (s : State) (v : List Instr) : (s.setPending v).ctx0 = s.ctx0 := rfl
@[simp] theorem State.setPending_ctx1 (s : State) (v : List Instr) : (s.setPending v).ctx1 = s.ctx1 := rfl
@[simp] theorem State.setPending_squads (s : State) (v : List Instr) : (s.setPending v).squads = s.squads := rfl
@[simp] theorem State.setPending_chans (s : State) (v : List Instr) : (s.setPending v).chans = s.chans := rfl
@[simp] theorem State.setPending_links (s : State) (v : List Instr) : (s.setPending v).links = s.links := rfl
@[simp] theorem State.setPending_net (s : State) (v : List Instr) : (s.setPending v).net = s.net := rfl
@[simp] theorem State.setPending_ledger (s : State) (v : List Instr) : (s.setPending v).ledger = s.ledger := rfl
@[simp] theorem State.setPending_tele (s : State) (v : List Instr) : (s.setPending v).tele = s.tele := rfl
@[simp] theorem State.setPending_host (s : State) (v : List Instr) : (s.setPending v).host = s.host := rfl
@[simp] theorem State.setPending_pwr (s : State) (v : List Instr) : (s.setPending v).pwr = s.pwr := rfl
@[simp] theorem State.setPending_watch (s : State) (v : List Instr) : (s.setPending v).watch = s.watch := rfl
@[simp] theorem State.setPending_jtag (s : State) (v : List Instr) : (s.setPending v).jtag = s.jtag := rfl
@[simp] theorem State.setPending_smbSlot (s : State) (v : List Instr) : (s.setPending v).smbSlot = s.smbSlot := rfl
@[simp] theorem State.setPending_flightSeq (s : State) (v : List Instr) : (s.setPending v).flightSeq = s.flightSeq := rfl

/-! ### setFree -/

@[simp] theorem State.setFree_pending (s : State) (v : Nat) : (s.setFree v).pending = s.pending := rfl
@[simp] theorem State.setFree_free (s : State) (v : Nat) : (s.setFree v).free = v := rfl
@[simp] theorem State.setFree_out (s : State) (v : Nat) : (s.setFree v).out = s.out := rfl
@[simp] theorem State.setFree_regs (s : State) (v : Nat) : (s.setFree v).regs = s.regs := rfl
@[simp] theorem State.setFree_latchA (s : State) (v : Nat) : (s.setFree v).latchA = s.latchA := rfl
@[simp] theorem State.setFree_latchB (s : State) (v : Nat) : (s.setFree v).latchB = s.latchB := rfl
@[simp] theorem State.setFree_hbm (s : State) (v : Nat) : (s.setFree v).hbm = s.hbm := rfl
@[simp] theorem State.setFree_store (s : State) (v : Nat) : (s.setFree v).store = s.store := rfl
@[simp] theorem State.setFree_clk (s : State) (v : Nat) : (s.setFree v).clk = s.clk := rfl
@[simp] theorem State.setFree_dev (s : State) (v : Nat) : (s.setFree v).dev = s.dev := rfl
@[simp] theorem State.setFree_mram (s : State) (v : Nat) : (s.setFree v).mram = s.mram := rfl
@[simp] theorem State.setFree_ctx0 (s : State) (v : Nat) : (s.setFree v).ctx0 = s.ctx0 := rfl
@[simp] theorem State.setFree_ctx1 (s : State) (v : Nat) : (s.setFree v).ctx1 = s.ctx1 := rfl
@[simp] theorem State.setFree_squads (s : State) (v : Nat) : (s.setFree v).squads = s.squads := rfl
@[simp] theorem State.setFree_chans (s : State) (v : Nat) : (s.setFree v).chans = s.chans := rfl
@[simp] theorem State.setFree_links (s : State) (v : Nat) : (s.setFree v).links = s.links := rfl
@[simp] theorem State.setFree_net (s : State) (v : Nat) : (s.setFree v).net = s.net := rfl
@[simp] theorem State.setFree_ledger (s : State) (v : Nat) : (s.setFree v).ledger = s.ledger := rfl
@[simp] theorem State.setFree_tele (s : State) (v : Nat) : (s.setFree v).tele = s.tele := rfl
@[simp] theorem State.setFree_host (s : State) (v : Nat) : (s.setFree v).host = s.host := rfl
@[simp] theorem State.setFree_pwr (s : State) (v : Nat) : (s.setFree v).pwr = s.pwr := rfl
@[simp] theorem State.setFree_watch (s : State) (v : Nat) : (s.setFree v).watch = s.watch := rfl
@[simp] theorem State.setFree_jtag (s : State) (v : Nat) : (s.setFree v).jtag = s.jtag := rfl
@[simp] theorem State.setFree_smbSlot (s : State) (v : Nat) : (s.setFree v).smbSlot = s.smbSlot := rfl
@[simp] theorem State.setFree_flightSeq (s : State) (v : Nat) : (s.setFree v).flightSeq = s.flightSeq := rfl

/-! ### setSquad, modSquad -/

@[simp] theorem State.setSquad_pending (s : State) (n : Nat) (v : Squad) : (s.setSquad n v).pending = s.pending := rfl
@[simp] theorem State.setSquad_free (s : State) (n : Nat) (v : Squad) : (s.setSquad n v).free = s.free := rfl
@[simp] theorem State.setSquad_out (s : State) (n : Nat) (v : Squad) : (s.setSquad n v).out = s.out := rfl
@[simp] theorem State.setSquad_regs (s : State) (n : Nat) (v : Squad) : (s.setSquad n v).regs = s.regs := rfl
@[simp] theorem State.setSquad_latchA (s : State) (n : Nat) (v : Squad) : (s.setSquad n v).latchA = s.latchA := rfl
@[simp] theorem State.setSquad_latchB (s : State) (n : Nat) (v : Squad) : (s.setSquad n v).latchB = s.latchB := rfl
@[simp] theorem State.setSquad_hbm (s : State) (n : Nat) (v : Squad) : (s.setSquad n v).hbm = s.hbm := rfl
@[simp] theorem State.setSquad_store (s : State) (n : Nat) (v : Squad) : (s.setSquad n v).store = s.store := rfl
@[simp] theorem State.setSquad_clk (s : State) (n : Nat) (v : Squad) : (s.setSquad n v).clk = s.clk := rfl
@[simp] theorem State.setSquad_dev (s : State) (n : Nat) (v : Squad) : (s.setSquad n v).dev = s.dev := rfl
@[simp] theorem State.setSquad_mram (s : State) (n : Nat) (v : Squad) : (s.setSquad n v).mram = s.mram := rfl
@[simp] theorem State.setSquad_ctx0 (s : State) (n : Nat) (v : Squad) : (s.setSquad n v).ctx0 = s.ctx0 := rfl
@[simp] theorem State.setSquad_ctx1 (s : State) (n : Nat) (v : Squad) : (s.setSquad n v).ctx1 = s.ctx1 := rfl
@[simp] theorem State.setSquad_squads (s : State) (n : Nat) (v : Squad) : (s.setSquad n v).squads = tset Squad.reset s.squads n v := rfl
@[simp] theorem State.setSquad_chans (s : State) (n : Nat) (v : Squad) : (s.setSquad n v).chans = s.chans := rfl
@[simp] theorem State.setSquad_links (s : State) (n : Nat) (v : Squad) : (s.setSquad n v).links = s.links := rfl
@[simp] theorem State.setSquad_net (s : State) (n : Nat) (v : Squad) : (s.setSquad n v).net = s.net := rfl
@[simp] theorem State.setSquad_ledger (s : State) (n : Nat) (v : Squad) : (s.setSquad n v).ledger = s.ledger := rfl
@[simp] theorem State.setSquad_tele (s : State) (n : Nat) (v : Squad) : (s.setSquad n v).tele = s.tele := rfl
@[simp] theorem State.setSquad_host (s : State) (n : Nat) (v : Squad) : (s.setSquad n v).host = s.host := rfl
@[simp] theorem State.setSquad_pwr (s : State) (n : Nat) (v : Squad) : (s.setSquad n v).pwr = s.pwr := rfl
@[simp] theorem State.setSquad_watch (s : State) (n : Nat) (v : Squad) : (s.setSquad n v).watch = s.watch := rfl
@[simp] theorem State.setSquad_jtag (s : State) (n : Nat) (v : Squad) : (s.setSquad n v).jtag = s.jtag := rfl
@[simp] theorem State.setSquad_smbSlot (s : State) (n : Nat) (v : Squad) : (s.setSquad n v).smbSlot = s.smbSlot := rfl
@[simp] theorem State.setSquad_flightSeq (s : State) (n : Nat) (v : Squad) : (s.setSquad n v).flightSeq = s.flightSeq := rfl
@[simp] theorem State.modSquad_pending (s : State) (n : Nat) (f : Squad → Squad) : (s.modSquad n f).pending = s.pending := rfl
@[simp] theorem State.modSquad_free (s : State) (n : Nat) (f : Squad → Squad) : (s.modSquad n f).free = s.free := rfl
@[simp] theorem State.modSquad_out (s : State) (n : Nat) (f : Squad → Squad) : (s.modSquad n f).out = s.out := rfl
@[simp] theorem State.modSquad_regs (s : State) (n : Nat) (f : Squad → Squad) : (s.modSquad n f).regs = s.regs := rfl
@[simp] theorem State.modSquad_latchA (s : State) (n : Nat) (f : Squad → Squad) : (s.modSquad n f).latchA = s.latchA := rfl
@[simp] theorem State.modSquad_latchB (s : State) (n : Nat) (f : Squad → Squad) : (s.modSquad n f).latchB = s.latchB := rfl
@[simp] theorem State.modSquad_hbm (s : State) (n : Nat) (f : Squad → Squad) : (s.modSquad n f).hbm = s.hbm := rfl
@[simp] theorem State.modSquad_store (s : State) (n : Nat) (f : Squad → Squad) : (s.modSquad n f).store = s.store := rfl
@[simp] theorem State.modSquad_clk (s : State) (n : Nat) (f : Squad → Squad) : (s.modSquad n f).clk = s.clk := rfl
@[simp] theorem State.modSquad_dev (s : State) (n : Nat) (f : Squad → Squad) : (s.modSquad n f).dev = s.dev := rfl
@[simp] theorem State.modSquad_mram (s : State) (n : Nat) (f : Squad → Squad) : (s.modSquad n f).mram = s.mram := rfl
@[simp] theorem State.modSquad_ctx0 (s : State) (n : Nat) (f : Squad → Squad) : (s.modSquad n f).ctx0 = s.ctx0 := rfl
@[simp] theorem State.modSquad_ctx1 (s : State) (n : Nat) (f : Squad → Squad) : (s.modSquad n f).ctx1 = s.ctx1 := rfl
@[simp] theorem State.modSquad_squads (s : State) (n : Nat) (f : Squad → Squad) : (s.modSquad n f).squads = tset Squad.reset s.squads n (f (s.squad n)) := rfl
@[simp] theorem State.modSquad_chans (s : State) (n : Nat) (f : Squad → Squad) : (s.modSquad n f).chans = s.chans := rfl
@[simp] theorem State.modSquad_links (s : State) (n : Nat) (f : Squad → Squad) : (s.modSquad n f).links = s.links := rfl
@[simp] theorem State.modSquad_net (s : State) (n : Nat) (f : Squad → Squad) : (s.modSquad n f).net = s.net := rfl
@[simp] theorem State.modSquad_ledger (s : State) (n : Nat) (f : Squad → Squad) : (s.modSquad n f).ledger = s.ledger := rfl
@[simp] theorem State.modSquad_tele (s : State) (n : Nat) (f : Squad → Squad) : (s.modSquad n f).tele = s.tele := rfl
@[simp] theorem State.modSquad_host (s : State) (n : Nat) (f : Squad → Squad) : (s.modSquad n f).host = s.host := rfl
@[simp] theorem State.modSquad_pwr (s : State) (n : Nat) (f : Squad → Squad) : (s.modSquad n f).pwr = s.pwr := rfl
@[simp] theorem State.modSquad_watch (s : State) (n : Nat) (f : Squad → Squad) : (s.modSquad n f).watch = s.watch := rfl
@[simp] theorem State.modSquad_jtag (s : State) (n : Nat) (f : Squad → Squad) : (s.modSquad n f).jtag = s.jtag := rfl
@[simp] theorem State.modSquad_smbSlot (s : State) (n : Nat) (f : Squad → Squad) : (s.modSquad n f).smbSlot = s.smbSlot := rfl
@[simp] theorem State.modSquad_flightSeq (s : State) (n : Nat) (f : Squad → Squad) : (s.modSquad n f).flightSeq = s.flightSeq := rfl

/-! ### setChan, modChan -/

@[simp] theorem State.setChan_pending (s : State) (n : Nat) (v : Chan) : (s.setChan n v).pending = s.pending := rfl
@[simp] theorem State.setChan_free (s : State) (n : Nat) (v : Chan) : (s.setChan n v).free = s.free := rfl
@[simp] theorem State.setChan_out (s : State) (n : Nat) (v : Chan) : (s.setChan n v).out = s.out := rfl
@[simp] theorem State.setChan_regs (s : State) (n : Nat) (v : Chan) : (s.setChan n v).regs = s.regs := rfl
@[simp] theorem State.setChan_latchA (s : State) (n : Nat) (v : Chan) : (s.setChan n v).latchA = s.latchA := rfl
@[simp] theorem State.setChan_latchB (s : State) (n : Nat) (v : Chan) : (s.setChan n v).latchB = s.latchB := rfl
@[simp] theorem State.setChan_hbm (s : State) (n : Nat) (v : Chan) : (s.setChan n v).hbm = s.hbm := rfl
@[simp] theorem State.setChan_store (s : State) (n : Nat) (v : Chan) : (s.setChan n v).store = s.store := rfl
@[simp] theorem State.setChan_clk (s : State) (n : Nat) (v : Chan) : (s.setChan n v).clk = s.clk := rfl
@[simp] theorem State.setChan_dev (s : State) (n : Nat) (v : Chan) : (s.setChan n v).dev = s.dev := rfl
@[simp] theorem State.setChan_mram (s : State) (n : Nat) (v : Chan) : (s.setChan n v).mram = s.mram := rfl
@[simp] theorem State.setChan_ctx0 (s : State) (n : Nat) (v : Chan) : (s.setChan n v).ctx0 = s.ctx0 := rfl
@[simp] theorem State.setChan_ctx1 (s : State) (n : Nat) (v : Chan) : (s.setChan n v).ctx1 = s.ctx1 := rfl
@[simp] theorem State.setChan_squads (s : State) (n : Nat) (v : Chan) : (s.setChan n v).squads = s.squads := rfl
@[simp] theorem State.setChan_chans (s : State) (n : Nat) (v : Chan) : (s.setChan n v).chans = tset Chan.reset s.chans n v := rfl
@[simp] theorem State.setChan_links (s : State) (n : Nat) (v : Chan) : (s.setChan n v).links = s.links := rfl
@[simp] theorem State.setChan_net (s : State) (n : Nat) (v : Chan) : (s.setChan n v).net = s.net := rfl
@[simp] theorem State.setChan_ledger (s : State) (n : Nat) (v : Chan) : (s.setChan n v).ledger = s.ledger := rfl
@[simp] theorem State.setChan_tele (s : State) (n : Nat) (v : Chan) : (s.setChan n v).tele = s.tele := rfl
@[simp] theorem State.setChan_host (s : State) (n : Nat) (v : Chan) : (s.setChan n v).host = s.host := rfl
@[simp] theorem State.setChan_pwr (s : State) (n : Nat) (v : Chan) : (s.setChan n v).pwr = s.pwr := rfl
@[simp] theorem State.setChan_watch (s : State) (n : Nat) (v : Chan) : (s.setChan n v).watch = s.watch := rfl
@[simp] theorem State.setChan_jtag (s : State) (n : Nat) (v : Chan) : (s.setChan n v).jtag = s.jtag := rfl
@[simp] theorem State.setChan_smbSlot (s : State) (n : Nat) (v : Chan) : (s.setChan n v).smbSlot = s.smbSlot := rfl
@[simp] theorem State.setChan_flightSeq (s : State) (n : Nat) (v : Chan) : (s.setChan n v).flightSeq = s.flightSeq := rfl
@[simp] theorem State.modChan_pending (s : State) (n : Nat) (f : Chan → Chan) : (s.modChan n f).pending = s.pending := rfl
@[simp] theorem State.modChan_free (s : State) (n : Nat) (f : Chan → Chan) : (s.modChan n f).free = s.free := rfl
@[simp] theorem State.modChan_out (s : State) (n : Nat) (f : Chan → Chan) : (s.modChan n f).out = s.out := rfl
@[simp] theorem State.modChan_regs (s : State) (n : Nat) (f : Chan → Chan) : (s.modChan n f).regs = s.regs := rfl
@[simp] theorem State.modChan_latchA (s : State) (n : Nat) (f : Chan → Chan) : (s.modChan n f).latchA = s.latchA := rfl
@[simp] theorem State.modChan_latchB (s : State) (n : Nat) (f : Chan → Chan) : (s.modChan n f).latchB = s.latchB := rfl
@[simp] theorem State.modChan_hbm (s : State) (n : Nat) (f : Chan → Chan) : (s.modChan n f).hbm = s.hbm := rfl
@[simp] theorem State.modChan_store (s : State) (n : Nat) (f : Chan → Chan) : (s.modChan n f).store = s.store := rfl
@[simp] theorem State.modChan_clk (s : State) (n : Nat) (f : Chan → Chan) : (s.modChan n f).clk = s.clk := rfl
@[simp] theorem State.modChan_dev (s : State) (n : Nat) (f : Chan → Chan) : (s.modChan n f).dev = s.dev := rfl
@[simp] theorem State.modChan_mram (s : State) (n : Nat) (f : Chan → Chan) : (s.modChan n f).mram = s.mram := rfl
@[simp] theorem State.modChan_ctx0 (s : State) (n : Nat) (f : Chan → Chan) : (s.modChan n f).ctx0 = s.ctx0 := rfl
@[simp] theorem State.modChan_ctx1 (s : State) (n : Nat) (f : Chan → Chan) : (s.modChan n f).ctx1 = s.ctx1 := rfl
@[simp] theorem State.modChan_squads (s : State) (n : Nat) (f : Chan → Chan) : (s.modChan n f).squads = s.squads := rfl
@[simp] theorem State.modChan_chans (s : State) (n : Nat) (f : Chan → Chan) : (s.modChan n f).chans = tset Chan.reset s.chans n (f (s.chan n)) := rfl
@[simp] theorem State.modChan_links (s : State) (n : Nat) (f : Chan → Chan) : (s.modChan n f).links = s.links := rfl
@[simp] theorem State.modChan_net (s : State) (n : Nat) (f : Chan → Chan) : (s.modChan n f).net = s.net := rfl
@[simp] theorem State.modChan_ledger (s : State) (n : Nat) (f : Chan → Chan) : (s.modChan n f).ledger = s.ledger := rfl
@[simp] theorem State.modChan_tele (s : State) (n : Nat) (f : Chan → Chan) : (s.modChan n f).tele = s.tele := rfl
@[simp] theorem State.modChan_host (s : State) (n : Nat) (f : Chan → Chan) : (s.modChan n f).host = s.host := rfl
@[simp] theorem State.modChan_pwr (s : State) (n : Nat) (f : Chan → Chan) : (s.modChan n f).pwr = s.pwr := rfl
@[simp] theorem State.modChan_watch (s : State) (n : Nat) (f : Chan → Chan) : (s.modChan n f).watch = s.watch := rfl
@[simp] theorem State.modChan_jtag (s : State) (n : Nat) (f : Chan → Chan) : (s.modChan n f).jtag = s.jtag := rfl
@[simp] theorem State.modChan_smbSlot (s : State) (n : Nat) (f : Chan → Chan) : (s.modChan n f).smbSlot = s.smbSlot := rfl
@[simp] theorem State.modChan_flightSeq (s : State) (n : Nat) (f : Chan → Chan) : (s.modChan n f).flightSeq = s.flightSeq := rfl

/-! ### setLink, modLink -/

@[simp] theorem State.setLink_pending (s : State) (n : Nat) (v : Link) : (s.setLink n v).pending = s.pending := rfl
@[simp] theorem State.setLink_free (s : State) (n : Nat) (v : Link) : (s.setLink n v).free = s.free := rfl
@[simp] theorem State.setLink_out (s : State) (n : Nat) (v : Link) : (s.setLink n v).out = s.out := rfl
@[simp] theorem State.setLink_regs (s : State) (n : Nat) (v : Link) : (s.setLink n v).regs = s.regs := rfl
@[simp] theorem State.setLink_latchA (s : State) (n : Nat) (v : Link) : (s.setLink n v).latchA = s.latchA := rfl
@[simp] theorem State.setLink_latchB (s : State) (n : Nat) (v : Link) : (s.setLink n v).latchB = s.latchB := rfl
@[simp] theorem State.setLink_hbm (s : State) (n : Nat) (v : Link) : (s.setLink n v).hbm = s.hbm := rfl
@[simp] theorem State.setLink_store (s : State) (n : Nat) (v : Link) : (s.setLink n v).store = s.store := rfl
@[simp] theorem State.setLink_clk (s : State) (n : Nat) (v : Link) : (s.setLink n v).clk = s.clk := rfl
@[simp] theorem State.setLink_dev (s : State) (n : Nat) (v : Link) : (s.setLink n v).dev = s.dev := rfl
@[simp] theorem State.setLink_mram (s : State) (n : Nat) (v : Link) : (s.setLink n v).mram = s.mram := rfl
@[simp] theorem State.setLink_ctx0 (s : State) (n : Nat) (v : Link) : (s.setLink n v).ctx0 = s.ctx0 := rfl
@[simp] theorem State.setLink_ctx1 (s : State) (n : Nat) (v : Link) : (s.setLink n v).ctx1 = s.ctx1 := rfl
@[simp] theorem State.setLink_squads (s : State) (n : Nat) (v : Link) : (s.setLink n v).squads = s.squads := rfl
@[simp] theorem State.setLink_chans (s : State) (n : Nat) (v : Link) : (s.setLink n v).chans = s.chans := rfl
@[simp] theorem State.setLink_links (s : State) (n : Nat) (v : Link) : (s.setLink n v).links = tset Link.reset s.links n v := rfl
@[simp] theorem State.setLink_net (s : State) (n : Nat) (v : Link) : (s.setLink n v).net = s.net := rfl
@[simp] theorem State.setLink_ledger (s : State) (n : Nat) (v : Link) : (s.setLink n v).ledger = s.ledger := rfl
@[simp] theorem State.setLink_tele (s : State) (n : Nat) (v : Link) : (s.setLink n v).tele = s.tele := rfl
@[simp] theorem State.setLink_host (s : State) (n : Nat) (v : Link) : (s.setLink n v).host = s.host := rfl
@[simp] theorem State.setLink_pwr (s : State) (n : Nat) (v : Link) : (s.setLink n v).pwr = s.pwr := rfl
@[simp] theorem State.setLink_watch (s : State) (n : Nat) (v : Link) : (s.setLink n v).watch = s.watch := rfl
@[simp] theorem State.setLink_jtag (s : State) (n : Nat) (v : Link) : (s.setLink n v).jtag = s.jtag := rfl
@[simp] theorem State.setLink_smbSlot (s : State) (n : Nat) (v : Link) : (s.setLink n v).smbSlot = s.smbSlot := rfl
@[simp] theorem State.setLink_flightSeq (s : State) (n : Nat) (v : Link) : (s.setLink n v).flightSeq = s.flightSeq := rfl
@[simp] theorem State.modLink_pending (s : State) (n : Nat) (f : Link → Link) : (s.modLink n f).pending = s.pending := rfl
@[simp] theorem State.modLink_free (s : State) (n : Nat) (f : Link → Link) : (s.modLink n f).free = s.free := rfl
@[simp] theorem State.modLink_out (s : State) (n : Nat) (f : Link → Link) : (s.modLink n f).out = s.out := rfl
@[simp] theorem State.modLink_regs (s : State) (n : Nat) (f : Link → Link) : (s.modLink n f).regs = s.regs := rfl
@[simp] theorem State.modLink_latchA (s : State) (n : Nat) (f : Link → Link) : (s.modLink n f).latchA = s.latchA := rfl
@[simp] theorem State.modLink_latchB (s : State) (n : Nat) (f : Link → Link) : (s.modLink n f).latchB = s.latchB := rfl
@[simp] theorem State.modLink_hbm (s : State) (n : Nat) (f : Link → Link) : (s.modLink n f).hbm = s.hbm := rfl
@[simp] theorem State.modLink_store (s : State) (n : Nat) (f : Link → Link) : (s.modLink n f).store = s.store := rfl
@[simp] theorem State.modLink_clk (s : State) (n : Nat) (f : Link → Link) : (s.modLink n f).clk = s.clk := rfl
@[simp] theorem State.modLink_dev (s : State) (n : Nat) (f : Link → Link) : (s.modLink n f).dev = s.dev := rfl
@[simp] theorem State.modLink_mram (s : State) (n : Nat) (f : Link → Link) : (s.modLink n f).mram = s.mram := rfl
@[simp] theorem State.modLink_ctx0 (s : State) (n : Nat) (f : Link → Link) : (s.modLink n f).ctx0 = s.ctx0 := rfl
@[simp] theorem State.modLink_ctx1 (s : State) (n : Nat) (f : Link → Link) : (s.modLink n f).ctx1 = s.ctx1 := rfl
@[simp] theorem State.modLink_squads (s : State) (n : Nat) (f : Link → Link) : (s.modLink n f).squads = s.squads := rfl
@[simp] theorem State.modLink_chans (s : State) (n : Nat) (f : Link → Link) : (s.modLink n f).chans = s.chans := rfl
@[simp] theorem State.modLink_links (s : State) (n : Nat) (f : Link → Link) : (s.modLink n f).links = tset Link.reset s.links n (f (s.link n)) := rfl
@[simp] theorem State.modLink_net (s : State) (n : Nat) (f : Link → Link) : (s.modLink n f).net = s.net := rfl
@[simp] theorem State.modLink_ledger (s : State) (n : Nat) (f : Link → Link) : (s.modLink n f).ledger = s.ledger := rfl
@[simp] theorem State.modLink_tele (s : State) (n : Nat) (f : Link → Link) : (s.modLink n f).tele = s.tele := rfl
@[simp] theorem State.modLink_host (s : State) (n : Nat) (f : Link → Link) : (s.modLink n f).host = s.host := rfl
@[simp] theorem State.modLink_pwr (s : State) (n : Nat) (f : Link → Link) : (s.modLink n f).pwr = s.pwr := rfl
@[simp] theorem State.modLink_watch (s : State) (n : Nat) (f : Link → Link) : (s.modLink n f).watch = s.watch := rfl
@[simp] theorem State.modLink_jtag (s : State) (n : Nat) (f : Link → Link) : (s.modLink n f).jtag = s.jtag := rfl
@[simp] theorem State.modLink_smbSlot (s : State) (n : Nat) (f : Link → Link) : (s.modLink n f).smbSlot = s.smbSlot := rfl
@[simp] theorem State.modLink_flightSeq (s : State) (n : Nat) (f : Link → Link) : (s.modLink n f).flightSeq = s.flightSeq := rfl

/-! ### setCtx, modCtx -/

@[simp] theorem State.setCtx_pending (s : State) (n : Nat) (c : Ctx) : (s.setCtx n c).pending = s.pending := by unfold State.setCtx; split <;> rfl
@[simp] theorem State.setCtx_free (s : State) (n : Nat) (c : Ctx) : (s.setCtx n c).free = s.free := by unfold State.setCtx; split <;> rfl
@[simp] theorem State.setCtx_out (s : State) (n : Nat) (c : Ctx) : (s.setCtx n c).out = s.out := by unfold State.setCtx; split <;> rfl
@[simp] theorem State.setCtx_regs (s : State) (n : Nat) (c : Ctx) : (s.setCtx n c).regs = s.regs := by unfold State.setCtx; split <;> rfl
@[simp] theorem State.setCtx_latchA (s : State) (n : Nat) (c : Ctx) : (s.setCtx n c).latchA = s.latchA := by unfold State.setCtx; split <;> rfl
@[simp] theorem State.setCtx_latchB (s : State) (n : Nat) (c : Ctx) : (s.setCtx n c).latchB = s.latchB := by unfold State.setCtx; split <;> rfl
@[simp] theorem State.setCtx_hbm (s : State) (n : Nat) (c : Ctx) : (s.setCtx n c).hbm = s.hbm := by unfold State.setCtx; split <;> rfl
@[simp] theorem State.setCtx_store (s : State) (n : Nat) (c : Ctx) : (s.setCtx n c).store = s.store := by unfold State.setCtx; split <;> rfl
@[simp] theorem State.setCtx_clk (s : State) (n : Nat) (c : Ctx) : (s.setCtx n c).clk = s.clk := by unfold State.setCtx; split <;> rfl
@[simp] theorem State.setCtx_dev (s : State) (n : Nat) (c : Ctx) : (s.setCtx n c).dev = s.dev := by unfold State.setCtx; split <;> rfl
@[simp] theorem State.setCtx_mram (s : State) (n : Nat) (c : Ctx) : (s.setCtx n c).mram = s.mram := by unfold State.setCtx; split <;> rfl
@[simp] theorem State.setCtx_squads (s : State) (n : Nat) (c : Ctx) : (s.setCtx n c).squads = s.squads := by unfold State.setCtx; split <;> rfl
@[simp] theorem State.setCtx_chans (s : State) (n : Nat) (c : Ctx) : (s.setCtx n c).chans = s.chans := by unfold State.setCtx; split <;> rfl
@[simp] theorem State.setCtx_links (s : State) (n : Nat) (c : Ctx) : (s.setCtx n c).links = s.links := by unfold State.setCtx; split <;> rfl
@[simp] theorem State.setCtx_net (s : State) (n : Nat) (c : Ctx) : (s.setCtx n c).net = s.net := by unfold State.setCtx; split <;> rfl
@[simp] theorem State.setCtx_ledger (s : State) (n : Nat) (c : Ctx) : (s.setCtx n c).ledger = s.ledger := by unfold State.setCtx; split <;> rfl
@[simp] theorem State.setCtx_tele (s : State) (n : Nat) (c : Ctx) : (s.setCtx n c).tele = s.tele := by unfold State.setCtx; split <;> rfl
@[simp] theorem State.setCtx_host (s : State) (n : Nat) (c : Ctx) : (s.setCtx n c).host = s.host := by unfold State.setCtx; split <;> rfl
@[simp] theorem State.setCtx_pwr (s : State) (n : Nat) (c : Ctx) : (s.setCtx n c).pwr = s.pwr := by unfold State.setCtx; split <;> rfl
@[simp] theorem State.setCtx_watch (s : State) (n : Nat) (c : Ctx) : (s.setCtx n c).watch = s.watch := by unfold State.setCtx; split <;> rfl
@[simp] theorem State.setCtx_jtag (s : State) (n : Nat) (c : Ctx) : (s.setCtx n c).jtag = s.jtag := by unfold State.setCtx; split <;> rfl
@[simp] theorem State.setCtx_smbSlot (s : State) (n : Nat) (c : Ctx) : (s.setCtx n c).smbSlot = s.smbSlot := by unfold State.setCtx; split <;> rfl
@[simp] theorem State.setCtx_flightSeq (s : State) (n : Nat) (c : Ctx) : (s.setCtx n c).flightSeq = s.flightSeq := by unfold State.setCtx; split <;> rfl
@[simp] theorem State.modCtx_pending (s : State) (n : Nat) (f : Ctx → Ctx) : (s.modCtx n f).pending = s.pending := State.setCtx_pending s n _
@[simp] theorem State.modCtx_free (s : State) (n : Nat) (f : Ctx → Ctx) : (s.modCtx n f).free = s.free := State.setCtx_free s n _
@[simp] theorem State.modCtx_out (s : State) (n : Nat) (f : Ctx → Ctx) : (s.modCtx n f).out = s.out := State.setCtx_out s n _
@[simp] theorem State.modCtx_regs (s : State) (n : Nat) (f : Ctx → Ctx) : (s.modCtx n f).regs = s.regs := State.setCtx_regs s n _
@[simp] theorem State.modCtx_latchA (s : State) (n : Nat) (f : Ctx → Ctx) : (s.modCtx n f).latchA = s.latchA := State.setCtx_latchA s n _
@[simp] theorem State.modCtx_latchB (s : State) (n : Nat) (f : Ctx → Ctx) : (s.modCtx n f).latchB = s.latchB := State.setCtx_latchB s n _
@[simp] theorem State.modCtx_hbm (s : State) (n : Nat) (f : Ctx → Ctx) : (s.modCtx n f).hbm = s.hbm := State.setCtx_hbm s n _
@[simp] theorem State.modCtx_store (s : State) (n : Nat) (f : Ctx → Ctx) : (s.modCtx n f).store = s.store := State.setCtx_store s n _
@[simp] theorem State.modCtx_clk (s : State) (n : Nat) (f : Ctx → Ctx) : (s.modCtx n f).clk = s.clk := State.setCtx_clk s n _
@[simp] theorem State.modCtx_dev (s : State) (n : Nat) (f : Ctx → Ctx) : (s.modCtx n f).dev = s.dev := State.setCtx_dev s n _
@[simp] theorem State.modCtx_mram (s : State) (n : Nat) (f : Ctx → Ctx) : (s.modCtx n f).mram = s.mram := State.setCtx_mram s n _
@[simp] theorem State.modCtx_squads (s : State) (n : Nat) (f : Ctx → Ctx) : (s.modCtx n f).squads = s.squads := State.setCtx_squads s n _
@[simp] theorem State.modCtx_chans (s : State) (n : Nat) (f : Ctx → Ctx) : (s.modCtx n f).chans = s.chans := State.setCtx_chans s n _
@[simp] theorem State.modCtx_links (s : State) (n : Nat) (f : Ctx → Ctx) : (s.modCtx n f).links = s.links := State.setCtx_links s n _
@[simp] theorem State.modCtx_net (s : State) (n : Nat) (f : Ctx → Ctx) : (s.modCtx n f).net = s.net := State.setCtx_net s n _
@[simp] theorem State.modCtx_ledger (s : State) (n : Nat) (f : Ctx → Ctx) : (s.modCtx n f).ledger = s.ledger := State.setCtx_ledger s n _
@[simp] theorem State.modCtx_tele (s : State) (n : Nat) (f : Ctx → Ctx) : (s.modCtx n f).tele = s.tele := State.setCtx_tele s n _
@[simp] theorem State.modCtx_host (s : State) (n : Nat) (f : Ctx → Ctx) : (s.modCtx n f).host = s.host := State.setCtx_host s n _
@[simp] theorem State.modCtx_pwr (s : State) (n : Nat) (f : Ctx → Ctx) : (s.modCtx n f).pwr = s.pwr := State.setCtx_pwr s n _
@[simp] theorem State.modCtx_watch (s : State) (n : Nat) (f : Ctx → Ctx) : (s.modCtx n f).watch = s.watch := State.setCtx_watch s n _
@[simp] theorem State.modCtx_jtag (s : State) (n : Nat) (f : Ctx → Ctx) : (s.modCtx n f).jtag = s.jtag := State.setCtx_jtag s n _
@[simp] theorem State.modCtx_smbSlot (s : State) (n : Nat) (f : Ctx → Ctx) : (s.modCtx n f).smbSlot = s.smbSlot := State.setCtx_smbSlot s n _
@[simp] theorem State.modCtx_flightSeq (s : State) (n : Nat) (f : Ctx → Ctx) : (s.modCtx n f).flightSeq = s.flightSeq := State.setCtx_flightSeq s n _
@[simp] theorem State.setCtx_ctx0_zero (s : State) (c : Ctx) : (s.setCtx 0 c).ctx0 = c := rfl
@[simp] theorem State.setCtx_ctx1_zero (s : State) (c : Ctx) : (s.setCtx 0 c).ctx1 = s.ctx1 := rfl
@[simp] theorem State.setCtx_ctx0_one (s : State) (c : Ctx) : (s.setCtx 1 c).ctx0 = s.ctx0 := rfl
@[simp] theorem State.setCtx_ctx1_one (s : State) (c : Ctx) : (s.setCtx 1 c).ctx1 = c := rfl
@[simp] theorem State.ctx_zero (s : State) : s.ctx 0 = s.ctx0 := rfl
@[simp] theorem State.ctx_one (s : State) : s.ctx 1 = s.ctx1 := rfl
@[simp] theorem State.ctx_setCtx_self (s : State) (n : Nat) (c : Ctx) : (s.setCtx n c).ctx n = c := by
  unfold State.setCtx State.ctx; split <;> rfl
@[simp] theorem State.ctx_modCtx_self (s : State) (n : Nat) (f : Ctx → Ctx) : (s.modCtx n f).ctx n = f (s.ctx n) :=
  State.ctx_setCtx_self s n _

@[simp] theorem State.ctx_setClk (s : State) (n : Nat) (v : Clock) : (s.setClk v).ctx n = s.ctx n := rfl
@[simp] theorem State.squad_setClk (s : State) (n : Nat) (v : Clock) : (s.setClk v).squad n = s.squad n := rfl
@[simp] theorem State.chan_setClk (s : State) (n : Nat) (v : Clock) : (s.setClk v).chan n = s.chan n := rfl
@[simp] theorem State.link_setClk (s : State) (n : Nat) (v : Clock) : (s.setClk v).link n = s.link n := rfl
@[simp] theorem State.ctx_setDev (s : State) (n : Nat) (v : Dev) : (s.setDev v).ctx n = s.ctx n := rfl
@[simp] theorem State.squad_setDev (s : State) (n : Nat) (v : Dev) : (s.setDev v).squad n = s.squad n := rfl
@[simp] theorem State.chan_setDev (s : State) (n : Nat) (v : Dev) : (s.setDev v).chan n = s.chan n := rfl
@[simp] theorem State.link_setDev (s : State) (n : Nat) (v : Dev) : (s.setDev v).link n = s.link n := rfl
@[simp] theorem State.ctx_setMram (s : State) (n : Nat) (v : Mram) : (s.setMram v).ctx n = s.ctx n := rfl
@[simp] theorem State.squad_setMram (s : State) (n : Nat) (v : Mram) : (s.setMram v).squad n = s.squad n := rfl
@[simp] theorem State.chan_setMram (s : State) (n : Nat) (v : Mram) : (s.setMram v).chan n = s.chan n := rfl
@[simp] theorem State.link_setMram (s : State) (n : Nat) (v : Mram) : (s.setMram v).link n = s.link n := rfl
@[simp] theorem State.ctx_setNet (s : State) (n : Nat) (v : Net) : (s.setNet v).ctx n = s.ctx n := rfl
@[simp] theorem State.squad_setNet (s : State) (n : Nat) (v : Net) : (s.setNet v).squad n = s.squad n := rfl
@[simp] theorem State.chan_setNet (s : State) (n : Nat) (v : Net) : (s.setNet v).chan n = s.chan n := rfl
@[simp] theorem State.link_setNet (s : State) (n : Nat) (v : Net) : (s.setNet v).link n = s.link n := rfl
@[simp] theorem State.ctx_setLedger (s : State) (n : Nat) (v : Ledger) : (s.setLedger v).ctx n = s.ctx n := rfl
@[simp] theorem State.squad_setLedger (s : State) (n : Nat) (v : Ledger) : (s.setLedger v).squad n = s.squad n := rfl
@[simp] theorem State.chan_setLedger (s : State) (n : Nat) (v : Ledger) : (s.setLedger v).chan n = s.chan n := rfl
@[simp] theorem State.link_setLedger (s : State) (n : Nat) (v : Ledger) : (s.setLedger v).link n = s.link n := rfl
@[simp] theorem State.ctx_setTele (s : State) (n : Nat) (v : Tele) : (s.setTele v).ctx n = s.ctx n := rfl
@[simp] theorem State.squad_setTele (s : State) (n : Nat) (v : Tele) : (s.setTele v).squad n = s.squad n := rfl
@[simp] theorem State.chan_setTele (s : State) (n : Nat) (v : Tele) : (s.setTele v).chan n = s.chan n := rfl
@[simp] theorem State.link_setTele (s : State) (n : Nat) (v : Tele) : (s.setTele v).link n = s.link n := rfl
@[simp] theorem State.ctx_setHost (s : State) (n : Nat) (v : HostPorts) : (s.setHost v).ctx n = s.ctx n := rfl
@[simp] theorem State.squad_setHost (s : State) (n : Nat) (v : HostPorts) : (s.setHost v).squad n = s.squad n := rfl
@[simp] theorem State.chan_setHost (s : State) (n : Nat) (v : HostPorts) : (s.setHost v).chan n = s.chan n := rfl
@[simp] theorem State.link_setHost (s : State) (n : Nat) (v : HostPorts) : (s.setHost v).link n = s.link n := rfl
@[simp] theorem State.ctx_setPwr (s : State) (n : Nat) (v : Power) : (s.setPwr v).ctx n = s.ctx n := rfl
@[simp] theorem State.squad_setPwr (s : State) (n : Nat) (v : Power) : (s.setPwr v).squad n = s.squad n := rfl
@[simp] theorem State.chan_setPwr (s : State) (n : Nat) (v : Power) : (s.setPwr v).chan n = s.chan n := rfl
@[simp] theorem State.link_setPwr (s : State) (n : Nat) (v : Power) : (s.setPwr v).link n = s.link n := rfl
@[simp] theorem State.ctx_setWatch (s : State) (n : Nat) (v : Watch) : (s.setWatch v).ctx n = s.ctx n := rfl
@[simp] theorem State.squad_setWatch (s : State) (n : Nat) (v : Watch) : (s.setWatch v).squad n = s.squad n := rfl
@[simp] theorem State.chan_setWatch (s : State) (n : Nat) (v : Watch) : (s.setWatch v).chan n = s.chan n := rfl
@[simp] theorem State.link_setWatch (s : State) (n : Nat) (v : Watch) : (s.setWatch v).link n = s.link n := rfl
@[simp] theorem State.ctx_setJtag (s : State) (n : Nat) (v : Jtag) : (s.setJtag v).ctx n = s.ctx n := rfl
@[simp] theorem State.squad_setJtag (s : State) (n : Nat) (v : Jtag) : (s.setJtag v).squad n = s.squad n := rfl
@[simp] theorem State.chan_setJtag (s : State) (n : Nat) (v : Jtag) : (s.setJtag v).chan n = s.chan n := rfl
@[simp] theorem State.link_setJtag (s : State) (n : Nat) (v : Jtag) : (s.setJtag v).link n = s.link n := rfl
@[simp] theorem State.ctx_setOut (s : State) (n : Nat) (v : List Out) : (s.setOut v).ctx n = s.ctx n := rfl
@[simp] theorem State.squad_setOut (s : State) (n : Nat) (v : List Out) : (s.setOut v).squad n = s.squad n := rfl
@[simp] theorem State.chan_setOut (s : State) (n : Nat) (v : List Out) : (s.setOut v).chan n = s.chan n := rfl
@[simp] theorem State.link_setOut (s : State) (n : Nat) (v : List Out) : (s.setOut v).link n = s.link n := rfl
@[simp] theorem State.ctx_setRegs (s : State) (n : Nat) (v : Tbl Word) : (s.setRegs v).ctx n = s.ctx n := rfl
@[simp] theorem State.squad_setRegs (s : State) (n : Nat) (v : Tbl Word) : (s.setRegs v).squad n = s.squad n := rfl
@[simp] theorem State.chan_setRegs (s : State) (n : Nat) (v : Tbl Word) : (s.setRegs v).chan n = s.chan n := rfl
@[simp] theorem State.link_setRegs (s : State) (n : Nat) (v : Tbl Word) : (s.setRegs v).link n = s.link n := rfl
@[simp] theorem State.ctx_setHbm (s : State) (n : Nat) (v : List Host.Cell) : (s.setHbm v).ctx n = s.ctx n := rfl
@[simp] theorem State.squad_setHbm (s : State) (n : Nat) (v : List Host.Cell) : (s.setHbm v).squad n = s.squad n := rfl
@[simp] theorem State.chan_setHbm (s : State) (n : Nat) (v : List Host.Cell) : (s.setHbm v).chan n = s.chan n := rfl
@[simp] theorem State.link_setHbm (s : State) (n : Nat) (v : List Host.Cell) : (s.setHbm v).link n = s.link n := rfl
@[simp] theorem State.ctx_setStore (s : State) (n : Nat) (v : List Host.Cell) : (s.setStore v).ctx n = s.ctx n := rfl
@[simp] theorem State.squad_setStore (s : State) (n : Nat) (v : List Host.Cell) : (s.setStore v).squad n = s.squad n := rfl
@[simp] theorem State.chan_setStore (s : State) (n : Nat) (v : List Host.Cell) : (s.setStore v).chan n = s.chan n := rfl
@[simp] theorem State.link_setStore (s : State) (n : Nat) (v : List Host.Cell) : (s.setStore v).link n = s.link n := rfl
@[simp] theorem State.ctx_setPending (s : State) (n : Nat) (v : List Instr) : (s.setPending v).ctx n = s.ctx n := rfl
@[simp] theorem State.squad_setPending (s : State) (n : Nat) (v : List Instr) : (s.setPending v).squad n = s.squad n := rfl
@[simp] theorem State.chan_setPending (s : State) (n : Nat) (v : List Instr) : (s.setPending v).chan n = s.chan n := rfl
@[simp] theorem State.link_setPending (s : State) (n : Nat) (v : List Instr) : (s.setPending v).link n = s.link n := rfl
@[simp] theorem State.ctx_setFree (s : State) (n : Nat) (v : Nat) : (s.setFree v).ctx n = s.ctx n := rfl
@[simp] theorem State.squad_setFree (s : State) (n : Nat) (v : Nat) : (s.setFree v).squad n = s.squad n := rfl
@[simp] theorem State.chan_setFree (s : State) (n : Nat) (v : Nat) : (s.setFree v).chan n = s.chan n := rfl
@[simp] theorem State.link_setFree (s : State) (n : Nat) (v : Nat) : (s.setFree v).link n = s.link n := rfl

/-! ### what goes out -/


@[simp] theorem State.emit_pending (s : State) (o : Out) : (s.emit o).pending = s.pending := rfl
@[simp] theorem State.emit_free (s : State) (o : Out) : (s.emit o).free = s.free := rfl
@[simp] theorem State.emit_out (s : State) (o : Out) : (s.emit o).out = o :: s.out := rfl
@[simp] theorem State.emit_regs (s : State) (o : Out) : (s.emit o).regs = s.regs := rfl
@[simp] theorem State.emit_latchA (s : State) (o : Out) : (s.emit o).latchA = s.latchA := rfl
@[simp] theorem State.emit_latchB (s : State) (o : Out) : (s.emit o).latchB = s.latchB := rfl
@[simp] theorem State.emit_hbm (s : State) (o : Out) : (s.emit o).hbm = s.hbm := rfl
@[simp] theorem State.emit_store (s : State) (o : Out) : (s.emit o).store = s.store := rfl
@[simp] theorem State.emit_clk (s : State) (o : Out) : (s.emit o).clk = s.clk := rfl
@[simp] theorem State.emit_dev (s : State) (o : Out) : (s.emit o).dev = s.dev := rfl
@[simp] theorem State.emit_mram (s : State) (o : Out) : (s.emit o).mram = s.mram := rfl
@[simp] theorem State.emit_ctx0 (s : State) (o : Out) : (s.emit o).ctx0 = s.ctx0 := rfl
@[simp] theorem State.emit_ctx1 (s : State) (o : Out) : (s.emit o).ctx1 = s.ctx1 := rfl
@[simp] theorem State.emit_squads (s : State) (o : Out) : (s.emit o).squads = s.squads := rfl
@[simp] theorem State.emit_chans (s : State) (o : Out) : (s.emit o).chans = s.chans := rfl
@[simp] theorem State.emit_links (s : State) (o : Out) : (s.emit o).links = s.links := rfl
@[simp] theorem State.emit_net (s : State) (o : Out) : (s.emit o).net = s.net := rfl
@[simp] theorem State.emit_ledger (s : State) (o : Out) : (s.emit o).ledger = s.ledger := rfl
@[simp] theorem State.emit_tele (s : State) (o : Out) : (s.emit o).tele = s.tele := rfl
@[simp] theorem State.emit_host (s : State) (o : Out) : (s.emit o).host = s.host := rfl
@[simp] theorem State.emit_pwr (s : State) (o : Out) : (s.emit o).pwr = s.pwr := rfl
@[simp] theorem State.emit_watch (s : State) (o : Out) : (s.emit o).watch = s.watch := rfl
@[simp] theorem State.emit_jtag (s : State) (o : Out) : (s.emit o).jtag = s.jtag := rfl
@[simp] theorem State.emit_smbSlot (s : State) (o : Out) : (s.emit o).smbSlot = s.smbSlot := rfl
@[simp] theorem State.emit_flightSeq (s : State) (o : Out) : (s.emit o).flightSeq = s.flightSeq := rfl

end Sys2Proof.Machine
end

