-- ==== Sys2Proof/Laws/Memory.lean ====
section
/-! SUPPORT. The sparse tables and the byte memories: reading after a write, and the canonical form. -/

namespace Sys2Proof.Machine

/-! ## Tables -/

section
variable {α : Type} (d v : α) (t : Tbl α) (k q : Nat)

@[simp] theorem tget_tins_self : tget d (tins k v t) k = v := by
  induction t with
  | nil => simp [tins, tget]
  | cons e r ih =>
    obtain ⟨i, w⟩ := e
    simp only [tins]
    split
    · simp [tget]
    · split
      · simp [tget]
      · rename_i h; simp [tget, h, ih]

theorem tget_tins_ne (h : q ≠ k) : tget d (tins k v t) q = tget d t q := by
  induction t with
  | nil => simp [tins, tget, h.symm]
  | cons e r ih =>
    obtain ⟨i, w⟩ := e
    simp only [tins]
    split
    · simp [tget, h.symm]
    · split
      · rename_i h1; subst h1; simp [tget, h.symm]
      · simp [tget, ih]

@[simp] theorem tget_tdel_self : tget d (tdel k t) k = d := by
  induction t with
  | nil => simp [tdel, tget]
  | cons e r ih =>
    obtain ⟨i, w⟩ := e
    by_cases h : i = k
    · subst h; simpa [tdel] using ih
    · simp only [tdel, List.filter, bne_iff_ne.mpr h, tget, h, if_false]; exact ih

theorem tget_tdel_ne (h : q ≠ k) : tget d (tdel k t) q = tget d t q := by
  induction t with
  | nil => simp [tdel, tget]
  | cons e r ih =>
    obtain ⟨i, w⟩ := e
    by_cases hk : i = k
    · subst hk
      have : tdel i ((i, w) :: r) = tdel i r := by simp [tdel]
      rw [this, ih]; simp [tget, h.symm]
    · have : tdel k ((i, w) :: r) = (i, w) :: tdel k r := by simp [tdel, hk]
      rw [this]; simp only [tget, ih]

@[simp] theorem tget_tset_self [DecidableEq α] : tget d (tset d t k v) k = v := by
  unfold tset; split
  · rename_i h; simp [h]
  · simp

theorem tget_tset_ne [DecidableEq α] (h : q ≠ k) : tget d (tset d t k v) q = tget d t q := by
  unfold tset; split
  · exact tget_tdel_ne d t k q h
  · exact tget_tins_ne d v t k q h

end

@[simp] theorem State.squad_setSquad_self (s : State) (n : Nat) (v : Squad) : (s.setSquad n v).squad n = v := tget_tset_self _ _ _ _
theorem State.squad_setSquad_ne (s : State) (n m : Nat) (v : Squad) (h : m ≠ n) : (s.setSquad n v).squad m = s.squad m :=
  tget_tset_ne _ _ _ _ _ h
@[simp] theorem State.squad_modSquad_self (s : State) (n : Nat) (f : Squad → Squad) : (s.modSquad n f).squad n = f (s.squad n) :=
  tget_tset_self _ _ _ _
theorem State.squad_modSquad_ne (s : State) (n m : Nat) (f : Squad → Squad) (h : m ≠ n) : (s.modSquad n f).squad m = s.squad m :=
  tget_tset_ne _ _ _ _ _ h
@[simp] theorem State.chan_setChan_self (s : State) (n : Nat) (v : Chan) : (s.setChan n v).chan n = v := tget_tset_self _ _ _ _
@[simp] theorem State.chan_modChan_self (s : State) (n : Nat) (f : Chan → Chan) : (s.modChan n f).chan n = f (s.chan n) :=
  tget_tset_self _ _ _ _
theorem State.chan_modChan_ne (s : State) (n m : Nat) (f : Chan → Chan) (h : m ≠ n) : (s.modChan n f).chan m = s.chan m :=
  tget_tset_ne _ _ _ _ _ h
@[simp] theorem State.link_setLink_self (s : State) (n : Nat) (v : Link) : (s.setLink n v).link n = v := tget_tset_self _ _ _ _
@[simp] theorem State.link_modLink_self (s : State) (n : Nat) (f : Link → Link) : (s.modLink n f).link n = f (s.link n) :=
  tget_tset_self _ _ _ _
theorem State.link_modLink_ne (s : State) (n m : Nat) (f : Link → Link) (h : m ≠ n) : (s.modLink n f).link m = s.link m :=
  tget_tset_ne _ _ _ _ _ h

/-! ## Bytes -/

@[simp] theorem cellGet_cellSet_self (m : List Host.Cell) (a : Nat) (b : Byte) : cellGet (cellSet m a b) a = b := tget_tset_self _ _ _ _
theorem cellGet_cellSet_ne (m : List Host.Cell) (a q : Nat) (b : Byte) (h : q ≠ a) : cellGet (cellSet m a b) q = cellGet m q :=
  tget_tset_ne _ _ _ _ _ h

/-- A byte outside the written ones reads as before. -/
theorem cellGet_cellWrite_outside (l : List Byte) (m : List Host.Cell) (a q : Nat) (h : q < a ∨ a + l.length ≤ q) :
    cellGet (cellWrite m a l) q = cellGet m q := by
  induction l generalizing m a with
  | nil => rfl
  | cons b r ih =>
    simp only [List.length_cons] at h
    rw [cellWrite, ih _ _ (by omega), cellGet_cellSet_ne _ _ _ _ (by omega)]

/-- A written byte reads as written. -/
theorem cellGet_cellWrite_inside (l : List Byte) (m : List Host.Cell) (a i : Nat) (h : i < l.length) :
    cellGet (cellWrite m a l) (a + i) = l[i] := by
  induction l generalizing m a i with
  | nil => simp at h
  | cons b r ih =>
    cases i with
    | zero => rw [cellWrite, cellGet_cellWrite_outside _ _ _ _ (by omega)]; simp
    | succ i =>
      have hi : i < r.length := by simpa using h
      rw [cellWrite, show a + (i + 1) = a + 1 + i by omega, ih _ _ _ hi]; rfl

/-! ## The canonical form -/

theorem Memory.wf_iff (m : List Host.Cell) :
    Memory.wf m = true ↔ m.Pairwise (fun x y => x.1 < y.1) ∧ ∀ e ∈ m, e.2 ≠ 0#8 := by
  induction m with
  | nil => simp [Memory.wf]
  | cons e r ih =>
    obtain ⟨a, b⟩ := e
    cases r with
    | nil => simp [Memory.wf]
    | cons e' r =>
      obtain ⟨a', b'⟩ := e'
      simp only [Memory.wf, Bool.and_eq_true, decide_eq_true_eq, ih, bne_iff_ne]
      constructor
      · rintro ⟨⟨hb, ha⟩, hp, hz⟩
        refine ⟨List.pairwise_cons.mpr ⟨fun x hx => ?_, hp⟩, ?_⟩
        · rcases List.mem_cons.mp hx with rfl | hx
          · exact ha
          · exact Nat.lt_trans ha ((List.pairwise_cons.mp hp).1 x hx)
        · intro x hx
          rcases List.mem_cons.mp hx with rfl | hx
          · exact hb
          · exact hz x hx
      · rintro ⟨hp, hz⟩
        have h := List.pairwise_cons.mp hp
        exact ⟨⟨hz _ (List.mem_cons_self ..), h.1 _ (List.mem_cons_self ..)⟩, h.2, fun x hx => hz x (List.mem_cons_of_mem _ hx)⟩

/-- Leaving entries out keeps the form. -/
theorem Memory.wf_filter (p : Host.Cell → Bool) (m : List Host.Cell) (h : Memory.wf m = true) : Memory.wf (m.filter p) = true := by
  rw [Memory.wf_iff] at *
  exact ⟨h.1.filter p, fun e he => h.2 e (List.mem_filter.mp he).1⟩

theorem mem_tins {α : Type} (k : Nat) (v : α) (t : Tbl α) (e : Nat × α) (h : e ∈ tins k v t) : e = (k, v) ∨ e ∈ t := by
  induction t with
  | nil => simpa [tins] using h
  | cons x r ih =>
    obtain ⟨i, w⟩ := x
    simp only [tins] at h
    split at h
    · simpa using h
    · split at h
      · rcases List.mem_cons.mp h with h | h
        · exact .inl h
        · exact .inr (List.mem_cons_of_mem _ h)
      · rcases List.mem_cons.mp h with h | h
        · exact .inr (by simp [h])
        · exact (ih h).imp id (List.mem_cons_of_mem _)

theorem tins_sorted {α : Type} (k : Nat) (v : α) (t : Tbl α) (h : t.Pairwise (fun x y => x.1 < y.1)) :
    (tins k v t).Pairwise (fun x y => x.1 < y.1) := by
  induction t with
  | nil => simp [tins]
  | cons x r ih =>
    obtain ⟨i, w⟩ := x
    have hx := List.pairwise_cons.mp h
    simp only [tins]
    split
    · rename_i hk
      refine List.pairwise_cons.mpr ⟨fun y hy => ?_, h⟩
      rcases List.mem_cons.mp hy with rfl | hy
      · exact hk
      · exact Nat.lt_trans hk (hx.1 y hy)
    · split
      · rename_i hk; subst hk; exact List.pairwise_cons.mpr ⟨hx.1, hx.2⟩
      · refine List.pairwise_cons.mpr ⟨fun y hy => ?_, ih hx.2⟩
        rcases mem_tins k v r y hy with rfl | hy
        · simp; omega
        · exact hx.1 y hy

theorem Memory.wf_cellSet (m : List Host.Cell) (a : Nat) (b : Byte) (h : Memory.wf m = true) : Memory.wf (cellSet m a b) = true := by
  unfold cellSet tset
  split
  · exact Memory.wf_filter _ m h
  · rename_i hb
    rw [Memory.wf_iff] at *
    refine ⟨tins_sorted a b m h.1, fun e he => ?_⟩
    rcases mem_tins a b m e he with rfl | he
    · exact hb
    · exact h.2 e he

theorem Memory.wf_cellWrite (l : List Byte) (m : List Host.Cell) (a : Nat) (h : Memory.wf m = true) :
    Memory.wf (cellWrite m a l) = true := by
  induction l generalizing m a with
  | nil => exact h
  | cons b r ih => exact ih _ _ (Memory.wf_cellSet m a b h)

/-! ## The queue and the memories under the updates -/

@[simp] theorem State.setClk_mem (s : State) (v : Clock) : (s.setClk v).mem = s.mem := rfl
@[simp] theorem State.setDev_mem (s : State) (v : Dev) : (s.setDev v).mem = s.mem := rfl
@[simp] theorem State.setMram_mem (s : State) (v : Mram) : (s.setMram v).mem = s.mem := rfl
@[simp] theorem State.setNet_mem (s : State) (v : Net) : (s.setNet v).mem = s.mem := rfl
@[simp] theorem State.setLedger_mem (s : State) (v : Ledger) : (s.setLedger v).mem = s.mem := rfl
@[simp] theorem State.setTele_mem (s : State) (v : Tele) : (s.setTele v).mem = s.mem := rfl
@[simp] theorem State.setHost_mem (s : State) (v : HostPorts) : (s.setHost v).mem = s.mem := rfl
@[simp] theorem State.setPwr_mem (s : State) (v : Power) : (s.setPwr v).mem = s.mem := rfl
@[simp] theorem State.setWatch_mem (s : State) (v : Watch) : (s.setWatch v).mem = s.mem := rfl
@[simp] theorem State.setJtag_mem (s : State) (v : Jtag) : (s.setJtag v).mem = s.mem := rfl
@[simp] theorem State.setOut_mem (s : State) (v : List Out) : (s.setOut v).mem = s.mem := rfl
@[simp] theorem State.setRegs_mem (s : State) (v : Tbl Word) : (s.setRegs v).mem = s.mem := rfl
@[simp] theorem State.setFree_mem (s : State) (v : Nat) : (s.setFree v).mem = s.mem := rfl
@[simp] theorem State.setSquad_mem (s : State) (n : Nat) (v : Squad) : (s.setSquad n v).mem = s.mem := rfl
@[simp] theorem State.modSquad_mem (s : State) (n : Nat) (f : Squad → Squad) : (s.modSquad n f).mem = s.mem := rfl
@[simp] theorem State.setChan_mem (s : State) (n : Nat) (v : Chan) : (s.setChan n v).mem = s.mem := rfl
@[simp] theorem State.modChan_mem (s : State) (n : Nat) (f : Chan → Chan) : (s.modChan n f).mem = s.mem := rfl
@[simp] theorem State.setLink_mem (s : State) (n : Nat) (v : Link) : (s.setLink n v).mem = s.mem := rfl
@[simp] theorem State.modLink_mem (s : State) (n : Nat) (f : Link → Link) : (s.modLink n f).mem = s.mem := rfl
@[simp] theorem State.setCtx_mem (s : State) (n : Nat) (c : Ctx) : (s.setCtx n c).mem = s.mem := by unfold State.setCtx; split <;> rfl
@[simp] theorem State.modCtx_mem (s : State) (n : Nat) (f : Ctx → Ctx) : (s.modCtx n f).mem = s.mem := State.setCtx_mem s n _
@[simp] theorem State.emit_mem (s : State) (o : Out) : (s.emit o).mem = s.mem := rfl
@[simp] theorem State.draw_mem (s : State) : s.draw.2.mem = s.mem := rfl

/-- Folding a function that leaves the queue and the memories alone leaves them alone. -/
theorem foldl_mem {α : Type} (f : State → α → State) (h : ∀ u x, (f u x).mem = u.mem) (l : List α) (s : State) :
    (l.foldl f s).mem = s.mem := by
  induction l generalizing s with
  | nil => rfl
  | cons x r ih => rw [List.foldl_cons, ih, h]

end Sys2Proof.Machine
end

