-- ==== Sys2Proof/Laws/Only.lean ====
section
/-! SUPPORT. Which parts of the state an operation may change. Each lemma reads: while the parts it changes are among those allowed,
the operation does not matter for Only. -/

namespace Sys2Proof.Machine

@[simp] theorem Only.refl {ps : List Part} {s : State} : Only ps s s := fun p _ => by cases p <;> rfl

/-- An operation within the allowed parts does not matter. -/
theorem only_iff {ps fs : List Part} {s u t : State} (k : Only fs u t) (hp : ∀ p ∈ fs, p ∈ ps) : Only ps s t ↔ Only ps s u := by
  constructor <;> intro h p hn <;> have h1 := h p hn <;> have h2 := k p (fun hf => hn (hp p hf))
  · cases p <;> exact h2.symm.trans h1
  · cases p <;> exact h2.trans h1

theorem Only.mono {ps fs : List Part} {s t : State} (k : Only fs s t) (hp : ∀ p ∈ fs, p ∈ ps) : Only ps s t := (only_iff k hp).mpr .refl

theorem only_foldl {ps : List Part} {α : Type} {f : State → α → State} {l : List α} {s u : State}
    (hf : ∀ u x, Only ps s (f u x) ↔ Only ps s u) : Only ps s (l.foldl f u) ↔ Only ps s u := by
  induction l generalizing u with
  | nil => exact Iff.rfl
  | cons x r ih => exact ih.trans (hf u x)

theorem only_foldl_fst {ps : List Part} {α β : Type} {f : State × β → α → State × β} {l : List α} {s : State} {a : State × β}
    (hf : ∀ a x, Only ps s (f a x).1 ↔ Only ps s a.1) : Only ps s (l.foldl f a).1 ↔ Only ps s a.1 := by
  induction l generalizing a with
  | nil => exact Iff.rfl
  | cons x r ih => exact ih.trans (hf a x)

/-- An operation whose parts are none of the memories and not the queue leaves all three alone. -/
theorem mem_of_only {fs : List Part} {s t : State} (h : Only fs s t) (hp : Part.pending ∉ fs ∧ Part.hbm ∉ fs ∧ Part.store ∉ fs) : t.mem = s.mem := by
  have h1 := h .pending hp.1
  have h2 := h .hbm hp.2.1
  have h3 := h .store hp.2.2
  simp only [Part.same] at h1 h2 h3
  simp only [State.mem, h1, h2, h3]

/-- Every next state among the outcomes differs from s in no part but those listed. -/
def OnlyR (ps : List Part) (s : State) (r : Res) : Prop := ∀ t, r = .next t → Only ps s t

@[simp] theorem onlyR_next {ps : List Part} {s t : State} : OnlyR ps s (.next t) ↔ Only ps s t :=
  ⟨fun h => h t rfl, fun h u hu => by cases hu; exact h⟩

@[simp] theorem onlyR_refused {ps : List Part} {s : State} {r : Refusal} : OnlyR ps s (.refused r) := fun _ h => by cases h

@[simp] theorem onlyR_guard {ps : List Part} {s t : State} {b : Bool} : OnlyR ps s (guard b s t) ↔ (b = true → Only ps s t) := by
  cases b <;> simp [guard]

/-! ### The updates -/

section
variable {ps : List Part} {s u : State}

@[simp] theorem State.setClk_only (hp : Part.clk ∈ ps) (v : Clock) : Only ps s (u.setClk v) ↔ Only ps s u :=
  only_iff (fs := [.clk]) (fun p h => by cases p <;> first | rfl | exact absurd (by decide) h) (by simpa using hp)
@[simp] theorem State.setDev_only (hp : Part.dev ∈ ps) (v : Dev) : Only ps s (u.setDev v) ↔ Only ps s u :=
  only_iff (fs := [.dev]) (fun p h => by cases p <;> first | rfl | exact absurd (by decide) h) (by simpa using hp)
@[simp] theorem State.setMram_only (hp : Part.mram ∈ ps) (v : Mram) : Only ps s (u.setMram v) ↔ Only ps s u :=
  only_iff (fs := [.mram]) (fun p h => by cases p <;> first | rfl | exact absurd (by decide) h) (by simpa using hp)
@[simp] theorem State.setNet_only (hp : Part.net ∈ ps) (v : Net) : Only ps s (u.setNet v) ↔ Only ps s u :=
  only_iff (fs := [.net]) (fun p h => by cases p <;> first | rfl | exact absurd (by decide) h) (by simpa using hp)
@[simp] theorem State.setLedger_only (hp : Part.ledger ∈ ps) (v : Ledger) : Only ps s (u.setLedger v) ↔ Only ps s u :=
  only_iff (fs := [.ledger]) (fun p h => by cases p <;> first | rfl | exact absurd (by decide) h) (by simpa using hp)
@[simp] theorem State.setTele_only (hp : Part.tele ∈ ps) (v : Tele) : Only ps s (u.setTele v) ↔ Only ps s u :=
  only_iff (fs := [.tele]) (fun p h => by cases p <;> first | rfl | exact absurd (by decide) h) (by simpa using hp)
@[simp] theorem State.setHost_only (hp : Part.host ∈ ps) (v : HostPorts) : Only ps s (u.setHost v) ↔ Only ps s u :=
  only_iff (fs := [.host]) (fun p h => by cases p <;> first | rfl | exact absurd (by decide) h) (by simpa using hp)
@[simp] theorem State.setPwr_only (hp : Part.pwr ∈ ps) (v : Power) : Only ps s (u.setPwr v) ↔ Only ps s u :=
  only_iff (fs := [.pwr]) (fun p h => by cases p <;> first | rfl | exact absurd (by decide) h) (by simpa using hp)
@[simp] theorem State.setWatch_only (hp : Part.watch ∈ ps) (v : Watch) : Only ps s (u.setWatch v) ↔ Only ps s u :=
  only_iff (fs := [.watch]) (fun p h => by cases p <;> first | rfl | exact absurd (by decide) h) (by simpa using hp)
@[simp] theorem State.setJtag_only (hp : Part.jtag ∈ ps) (v : Jtag) : Only ps s (u.setJtag v) ↔ Only ps s u :=
  only_iff (fs := [.jtag]) (fun p h => by cases p <;> first | rfl | exact absurd (by decide) h) (by simpa using hp)
@[simp] theorem State.setOut_only (hp : Part.out ∈ ps) (v : List Out) : Only ps s (u.setOut v) ↔ Only ps s u :=
  only_iff (fs := [.out]) (fun p h => by cases p <;> first | rfl | exact absurd (by decide) h) (by simpa using hp)
@[simp] theorem State.setRegs_only (hp : Part.regs ∈ ps) (v : Tbl Word) : Only ps s (u.setRegs v) ↔ Only ps s u :=
  only_iff (fs := [.regs]) (fun p h => by cases p <;> first | rfl | exact absurd (by decide) h) (by simpa using hp)
@[simp] theorem State.setHbm_only (hp : Part.hbm ∈ ps) (v : List Host.Cell) : Only ps s (u.setHbm v) ↔ Only ps s u :=
  only_iff (fs := [.hbm]) (fun p h => by cases p <;> first | rfl | exact absurd (by decide) h) (by simpa using hp)
@[simp] theorem State.setStore_only (hp : Part.store ∈ ps) (v : List Host.Cell) : Only ps s (u.setStore v) ↔ Only ps s u :=
  only_iff (fs := [.store]) (fun p h => by cases p <;> first | rfl | exact absurd (by decide) h) (by simpa using hp)
@[simp] theorem State.setPending_only (hp : Part.pending ∈ ps) (v : List Instr) : Only ps s (u.setPending v) ↔ Only ps s u :=
  only_iff (fs := [.pending]) (fun p h => by cases p <;> first | rfl | exact absurd (by decide) h) (by simpa using hp)
@[simp] theorem State.setFree_only (hp : Part.free ∈ ps) (v : Nat) : Only ps s (u.setFree v) ↔ Only ps s u :=
  only_iff (fs := [.free]) (fun p h => by cases p <;> first | rfl | exact absurd (by decide) h) (by simpa using hp)
@[simp] theorem State.setSquad_only (hp : Part.squads ∈ ps) (n : Nat) (v : Squad) : Only ps s (u.setSquad n v) ↔ Only ps s u :=
  only_iff (fs := [.squads]) (fun p h => by cases p <;> first | rfl | exact absurd (by decide) h) (by simpa using hp)
@[simp] theorem State.modSquad_only (hp : Part.squads ∈ ps) (n : Nat) (f : Squad → Squad) : Only ps s (u.modSquad n f) ↔ Only ps s u :=
  State.setSquad_only hp _ _
@[simp] theorem State.setChan_only (hp : Part.chans ∈ ps) (n : Nat) (v : Chan) : Only ps s (u.setChan n v) ↔ Only ps s u :=
  only_iff (fs := [.chans]) (fun p h => by cases p <;> first | rfl | exact absurd (by decide) h) (by simpa using hp)
@[simp] theorem State.modChan_only (hp : Part.chans ∈ ps) (n : Nat) (f : Chan → Chan) : Only ps s (u.modChan n f) ↔ Only ps s u :=
  State.setChan_only hp _ _
@[simp] theorem State.setLink_only (hp : Part.links ∈ ps) (n : Nat) (v : Link) : Only ps s (u.setLink n v) ↔ Only ps s u :=
  only_iff (fs := [.links]) (fun p h => by cases p <;> first | rfl | exact absurd (by decide) h) (by simpa using hp)
@[simp] theorem State.modLink_only (hp : Part.links ∈ ps) (n : Nat) (f : Link → Link) : Only ps s (u.modLink n f) ↔ Only ps s u :=
  State.setLink_only hp _ _
@[simp] theorem State.setCtx_only (hp : Part.ctx0 ∈ ps ∧ Part.ctx1 ∈ ps) (n : Nat) (c : Ctx) : Only ps s (u.setCtx n c) ↔ Only ps s u :=
  only_iff (fs := [.ctx0, .ctx1]) (fun p h => by unfold State.setCtx; cases p <;> split <;> first | rfl | exact absurd (by decide) h) (by simpa using hp)
@[simp] theorem State.modCtx_only (hp : Part.ctx0 ∈ ps ∧ Part.ctx1 ∈ ps) (n : Nat) (f : Ctx → Ctx) : Only ps s (u.modCtx n f) ↔ Only ps s u :=
  State.setCtx_only hp _ _
@[simp] theorem State.emit_only (hp : Part.out ∈ ps) (o : Out) : Only ps s (u.emit o) ↔ Only ps s u :=
  only_iff (fs := [.out]) (fun p h => by cases p <;> first | rfl | exact absurd (by decide) h) (by simpa using hp)
@[simp] theorem State.draw_only (hp : Part.free ∈ ps) : Only ps s u.draw.2 ↔ Only ps s u :=
  only_iff (fs := [.free]) (fun p h => by cases p <;> first | rfl | exact absurd (by decide) h) (by simpa using hp)

end

end Sys2Proof.Machine
end

