-- ==== Sys2Proof/Laws/OnlyCore.lean ====
section
/-! SUPPORT. Which parts the shared operations may change: records, degradation, walkers, arrays, telemetry, collectives, tile checks. -/

namespace Sys2Proof.Machine

variable {ps : List Part} {s0 s : State}

/-! ### Ops -/

@[simp] theorem State.hbmWrite_only (hp : Part.hbm ∈ ps) (space off : Nat) (l : List Byte) : Only ps s0 (s.hbmWrite space off l) ↔ Only ps s0 s := by
  simp [State.hbmWrite, hp]
@[simp] theorem State.storeWrite_only (hp : Part.store ∈ ps) (sq off : Nat) (l : List Byte) : Only ps s0 (s.storeWrite sq off l) ↔ Only ps s0 s := by
  simp [State.storeWrite, hp]
@[simp] theorem State.setRg_only (hp : Part.regs ∈ ps) (a v : Nat) : Only ps s0 (s.setRg a v) ↔ Only ps s0 s := by
  simp [State.setRg, hp]
@[simp] theorem State.raise_only (hp : Part.out ∈ ps ∧ Part.host ∈ ps) (v : Nat) : Only ps s0 (s.raise v) ↔ Only ps s0 s := by
  simp [State.raise, hp, apply_ite (Only ps s0)]
@[simp] theorem State.event_only (hp : Part.out ∈ ps ∧ Part.regs ∈ ps ∧ Part.host ∈ ps) (page bit v : Nat) : Only ps s0 (s.event page bit v) ↔ Only ps s0 s := by
  simp [State.event, hp, apply_ite (Only ps s0)]
@[simp] theorem State.pageFault_only (hp : Part.out ∈ ps ∧ Part.regs ∈ ps ∧ Part.host ∈ ps) (page i : Nat) : Only ps s0 (s.pageFault page i) ↔ Only ps s0 s := by
  simp [State.pageFault, hp, apply_ite (Only ps s0)]
@[simp] theorem State.lockedWrite_only (hp : Part.out ∈ ps ∧ Part.regs ∈ ps ∧ Part.host ∈ ps) (page : Nat) : Only ps s0 (s.lockedWrite page) ↔ Only ps s0 s := by
  simp [State.lockedWrite, hp]
@[simp] theorem State.badCommand_only (hp : Part.out ∈ ps ∧ Part.regs ∈ ps ∧ Part.host ∈ ps) (page : Nat) : Only ps s0 (s.badCommand page) ↔ Only ps s0 s := by
  simp [State.badCommand, hp]

/-! ### Mmu -/

@[simp] theorem State.setTokens_only (hp : Part.chans ∈ ps) (c part : Nat) (v : Int) : Only ps s0 (s.setTokens c part v) ↔ Only ps s0 s := by
  simp [State.setTokens, hp]
theorem State.spendBurst_only (hp : Part.chans ∈ ps) (c part : Nat) (t : State) (h : s.spendBurst c part = some t) : Only ps s0 t ↔ Only ps s0 s := by
  unfold State.spendBurst at h
  (repeat' split at h) <;> simp at h <;> subst h <;> simp [hp]
theorem State.regulate_only (hp : Part.chans ∈ ps) (part : Nat) (bursts : List (Nat × Nat)) (t : State) (h : s.regulate part bursts = some t) : Only ps s0 t ↔ Only ps s0 s := by
  unfold State.regulate at h
  induction bursts generalizing s with
  | nil => simp at h; subst h; exact Iff.rfl
  | cons b r ih =>
    rw [List.foldlM_cons] at h
    dsimp only at h
    split at h
    · simp at h
    · cases hx : s.spendBurst (s.pcOf b.1 b.2 / 512) part with
      | none => simp [hx] at h
      | some u =>
        rw [hx] at h
        exact (ih h).trans (State.spendBurst_only hp _ _ _ hx)
@[simp] theorem State.vwrite_only (hp : Part.hbm ∈ ps) (ctx : Nat) (home : Option Nat) (va : Nat) (y0 : List Byte) : Only ps s0 (s.vwrite ctx home va y0) ↔ Only ps s0 s := by
  induction y0 generalizing s va with
  | nil => exact Iff.rfl
  | cons b r ih =>
    unfold State.vwrite; split
    · refine (ih _).trans ?_
      split <;> simp [hp]
    · exact ih _
@[simp] theorem State.rewrite_only (hp : Part.chans ∈ ps) (pl : List (Nat × Nat)) : Only ps s0 (s.rewrite pl) ↔ Only ps s0 s := by
  simp [State.rewrite, hp, apply_ite (Only ps s0), only_foldl]

/-! ### Operands -/

@[simp] theorem State.locWrite_only (hp : Part.hbm ∈ ps ∧ Part.store ∈ ps) (ctx : Nat) (h : Option Nat) (l : Loc) (bs : List Byte) : Only ps s0 (s.locWrite ctx h l bs) ↔ Only ps s0 s := by
  simp only [State.locWrite]; (repeat' split) <;> simp [hp]
@[simp] theorem State.putCode_only (hp : Part.hbm ∈ ps ∧ Part.store ∈ ps) (ctx : Nat) (t : TensorRec) (idx : List Nat) (v : Nat) : Only ps s0 (s.putCode ctx t idx v) ↔ Only ps s0 s := by
  simp only [State.putCode]; (repeat' split) <;> simp [hp]
@[simp] theorem State.putNum_only (hp : Part.hbm ∈ ps ∧ Part.store ∈ ps) (ctx : Nat) (t : TensorRec) (stoch rep : Bool) (step : Nat) (idx : List Nat) (x : Num) (neg : Bool) : Only ps s0 (s.putNum ctx t stoch rep step idx x neg).st ↔ Only ps s0 s := by
  simp [State.putNum, hp]
@[simp] theorem State.putBlock_only (hp : Part.hbm ∈ ps ∧ Part.store ∈ ps) (ctx : Nat) (recs : Tbl TensorRec) (t : TensorRec) (stoch : Bool) (step : Nat) (xs : List (List Nat × Num)) : Only ps s0 (s.putBlock ctx recs t stoch step xs).st ↔ Only ps s0 s := by
  simp only [State.putBlock]; (repeat' split) <;> simp [hp, apply_ite (Only ps s0), only_foldl]
@[simp] theorem State.putMx_only (hp : Part.hbm ∈ ps ∧ Part.store ∈ ps) (n : Nat) (recs : Tbl TensorRec) (t : TensorRec) (st : Bool) (step : Nat) (every : Bool) (k : Nat)
    (w : Wrote) (keep xs : List (List Nat × Num)) :
    Only ps s0 (State.putMx n recs t st step every k w keep xs).1.st ↔ Only ps s0 w.st := by
  induction k generalizing w keep xs with
  | zero => exact Iff.rfl
  | succ k ih =>
    unfold State.putMx; split
    · exact Iff.rfl
    · dsimp only; split
      · exact (ih _ _ _).trans (by simp [hp])
      · exact ih _ _ _
@[simp] theorem State.putVals_only (hp : Part.hbm ∈ ps ∧ Part.store ∈ ps) (ctx : Nat) (recs : Tbl TensorRec) (t : TensorRec) (stoch rep : Bool) (step : Nat) (xs : List (List Nat × Num)) : Only ps s0 (s.putVals ctx recs t stoch rep step xs).st ↔ Only ps s0 s := by
  unfold State.putVals; split
  · exact State.putMx_only hp _ _ _ _ _ _ _ _ _ _
  · have hf (l : List (List Nat × Num)) (w : Wrote) : Only ps s0 (l.foldl (fun (w : Wrote) p =>
        let r := w.st.putNum ctx t stoch rep step p.1 p.2 false
        ({ st := r.st, ovf := w.ovf || r.ovf, nonf := w.nonf || r.nonf } : Wrote)) w).st ↔ Only ps s0 w.st := by
      induction l generalizing w with
      | nil => exact Iff.rfl
      | cons x r ih => exact (ih _).trans (by simp [hp])
    exact hf _ _

/-! ### Records -/

@[simp] theorem State.alert_only (hp : Part.watch ∈ ps) (i : Nat) : Only ps s0 (s.alert i) ↔ Only ps s0 s := by
  simp [State.alert, hp]
@[simp] theorem State.dropVector_only (hp : Part.out ∈ ps ∧ Part.host ∈ ps) : Only ps s0 (s.dropVector) ↔ Only ps s0 s := by
  simp [State.dropVector, hp]
@[simp] theorem State.dropRec_only (hp : Part.out ∈ ps ∧ Part.ledger ∈ ps ∧ Part.host ∈ ps) (sev : Nat) : Only ps s0 (s.dropRec sev) ↔ Only ps s0 s := by
  simp [State.dropRec, hp]
@[simp] theorem State.fatalLow_only (hp : Part.out ∈ ps ∧ Part.host ∈ ps) (before : Nat) : Only ps s0 (s.fatalLow before) ↔ Only ps s0 s := by
  simp [State.fatalLow, hp, apply_ite (Only ps s0)]
@[simp] theorem State.fatalWritten_only (hp : Part.out ∈ ps ∧ Part.host ∈ ps ∧ Part.watch ∈ ps) : Only ps s0 (s.fatalWritten) ↔ Only ps s0 s := by
  simp [State.fatalWritten, hp]
@[simp] theorem State.writeRec_only (hp : Part.out ∈ ps ∧ Part.ledger ∈ ps ∧ Part.host ∈ ps ∧ Part.watch ∈ ps) (r : Rec) : Only ps s0 (s.writeRec r) ↔ Only ps s0 s := by
  simp only [State.writeRec]; (repeat' split) <;> simp [hp]
@[simp] theorem State.holdRec_only (hp : Part.out ∈ ps ∧ Part.ledger ∈ ps ∧ Part.host ∈ ps) (ch : Nat) (r : Rec) : Only ps s0 (s.holdRec ch r) ↔ Only ps s0 s := by
  simp [State.holdRec, hp, apply_ite (Only ps s0)]
@[simp] theorem State.admitRec_only (hp : Part.out ∈ ps ∧ Part.ledger ∈ ps ∧ Part.host ∈ ps ∧ Part.watch ∈ ps) (ch : Nat) (r : Rec) : Only ps s0 (s.admitRec ch r) ↔ Only ps s0 s := by
  simp [State.admitRec, hp, apply_ite (Only ps s0)]
@[simp] theorem State.record_only (hp : Part.out ∈ ps ∧ Part.ledger ∈ ps ∧ Part.host ∈ ps ∧ Part.watch ∈ ps) (ch : Nat) (o : Offer) : Only ps s0 (s.record ch o) ↔ Only ps s0 s := by
  simp only [State.record]; (repeat' split) <;> simp [hp]
@[simp] theorem State.log_only (hp : Part.out ∈ ps ∧ Part.ledger ∈ ps ∧ Part.host ∈ ps ∧ Part.watch ∈ ps) (ch code sev cls srcType srcInst : Nat) (payload : List Byte) : Only ps s0 (s.log ch code sev cls srcType srcInst payload) ↔ Only ps s0 s := by
  simp [State.log, hp]
@[simp] theorem State.flushHeld_only (hp : Part.out ∈ ps ∧ Part.ledger ∈ ps ∧ Part.host ∈ ps ∧ Part.watch ∈ ps) : Only ps s0 (s.flushHeld) ↔ Only ps s0 s := by
  simp [State.flushHeld, hp, apply_ite (Only ps s0), only_foldl]
@[simp] theorem State.advancePcycle_only (hp : Part.dev ∈ ps ∧ Part.mram ∈ ps) : Only ps s0 (s.advancePcycle) ↔ Only ps s0 s := by
  simp [State.advancePcycle, hp, apply_ite (Only ps s0)]
@[simp] theorem State.flushWaiting_only (hp : Part.out ∈ ps ∧ Part.ledger ∈ ps ∧ Part.host ∈ ps ∧ Part.watch ∈ ps) : Only ps s0 (s.flushWaiting) ↔ Only ps s0 s := by
  simp [State.flushWaiting, hp, apply_ite (Only ps s0), only_foldl]
@[simp] theorem State.flushErase_only (hp : Part.out ∈ ps ∧ Part.ledger ∈ ps ∧ Part.host ∈ ps ∧ Part.watch ∈ ps) : Only ps s0 (s.flushErase) ↔ Only ps s0 s := by
  simp [State.flushErase, hp, apply_ite (Only ps s0), only_foldl]

/-! ### Degrade -/

@[simp] theorem State.setMode_only (hp : Part.out ∈ ps ∧ Part.dev ∈ ps ∧ Part.ledger ∈ ps ∧ Part.host ∈ ps ∧ Part.watch ∈ ps) (new : Mode) (trigger chan : Nat) : Only ps s0 (s.setMode new trigger chan) ↔ Only ps s0 s := by
  simp [State.setMode, hp, apply_ite (Only ps s0)]
@[simp] theorem State.stopEngines_only (hp : Part.squads ∈ ps ∧ Part.chans ∈ ps) (n : Nat) : Only ps s0 (s.stopEngines n) ↔ Only ps s0 s := by
  refine only_iff (fs := [.squads, .chans]) (fun p h => ?_) (by simpa using hp)
  unfold State.stopEngines
  cases p <;> first | rfl | exact absurd (by decide) h
@[simp] theorem State.abortTags_only (hp : Part.out ∈ ps) (n : Nat) : Only ps s0 (s.abortTags n) ↔ Only ps s0 s := by
  simp [State.abortTags, hp, apply_ite (Only ps s0), only_foldl]
@[simp] theorem State.loseCtx_only (hp : Part.out ∈ ps ∧ Part.ctx0 ∈ ps ∧ Part.ctx1 ∈ ps ∧ Part.squads ∈ ps ∧ Part.chans ∈ ps ∧ Part.ledger ∈ ps ∧ Part.host ∈ ps ∧ Part.watch ∈ ps) (n cause q qindex seq : Nat) (keep : Bool) : Only ps s0 (s.loseCtx n cause q qindex seq keep) ↔ Only ps s0 s := by
  simp [State.loseCtx, hp, apply_ite (Only ps s0)]
@[simp] theorem State.sideline_only (hp : Part.out ∈ ps ∧ Part.dev ∈ ps ∧ Part.ctx0 ∈ ps ∧ Part.ctx1 ∈ ps ∧ Part.squads ∈ ps ∧ Part.chans ∈ ps ∧ Part.ledger ∈ ps ∧ Part.host ∈ ps ∧ Part.watch ∈ ps) (trigger chan : Nat) : Only ps s0 (s.sideline trigger chan) ↔ Only ps s0 s := by
  simp only [State.sideline]; (repeat' split) <;> simp [hp]
@[simp] theorem State.loseByDevice_only (hp : Part.out ∈ ps ∧ Part.dev ∈ ps ∧ Part.ctx0 ∈ ps ∧ Part.ctx1 ∈ ps ∧ Part.squads ∈ ps ∧ Part.chans ∈ ps ∧ Part.ledger ∈ ps ∧ Part.host ∈ ps ∧ Part.watch ∈ ps) (n cause q qindex seq : Nat) : Only ps s0 (s.loseByDevice n cause q qindex seq) ↔ Only ps s0 s := by
  simp [State.loseByDevice, hp, apply_ite (Only ps s0)]
@[simp] theorem State.channelDown_only (hp : Part.out ∈ ps ∧ Part.dev ∈ ps ∧ Part.ctx0 ∈ ps ∧ Part.ctx1 ∈ ps ∧ Part.squads ∈ ps ∧ Part.chans ∈ ps ∧ Part.ledger ∈ ps ∧ Part.host ∈ ps ∧ Part.watch ∈ ps) (c : Nat) : Only ps s0 (s.channelDown c) ↔ Only ps s0 s := by
  simp [State.channelDown, hp, apply_ite (Only ps s0)]
@[simp] theorem State.releaseSquad_only (hp : Part.ctx0 ∈ ps ∧ Part.ctx1 ∈ ps ∧ Part.squads ∈ ps) (sq : Nat) : Only ps s0 (s.releaseSquad sq) ↔ Only ps s0 s := by
  simp [State.releaseSquad, hp]
@[simp] theorem State.leaveGroups_only (hp : Part.net ∈ ps) (sq : Nat) : Only ps s0 (s.leaveGroups sq) ↔ Only ps s0 s := by
  simp [State.leaveGroups, hp]
@[simp] theorem State.fence_only (hp : Part.out ∈ ps ∧ Part.dev ∈ ps ∧ Part.mram ∈ ps ∧ Part.ctx0 ∈ ps ∧ Part.ctx1 ∈ ps ∧ Part.squads ∈ ps ∧ Part.chans ∈ ps ∧ Part.net ∈ ps ∧ Part.ledger ∈ ps ∧ Part.host ∈ ps ∧ Part.watch ∈ ps) (sq cause : Nat) : Only ps s0 (s.fence sq cause) ↔ Only ps s0 s := by
  simp only [State.fence]; (repeat' split) <;> simp [hp]
@[simp] theorem State.charge_only (hp : Part.out ∈ ps ∧ Part.ctx0 ∈ ps ∧ Part.ctx1 ∈ ps ∧ Part.squads ∈ ps ∧ Part.chans ∈ ps ∧ Part.ledger ∈ ps ∧ Part.host ∈ ps ∧ Part.watch ∈ ps) (n seq : Nat) : Only ps s0 (s.charge n seq) ↔ Only ps s0 s := by
  simp only [State.charge]; (repeat' split) <;> simp [hp]
@[simp] theorem State.requeue_only (hp : Part.ctx0 ∈ ps ∧ Part.ctx1 ∈ ps) (n seq item : Nat) : Only ps s0 (s.requeue n seq item) ↔ Only ps s0 s := by
  simp [State.requeue, hp]
@[simp] theorem State.dropItem_only (hp : Part.squads ∈ ps) (sq n seq item : Nat) : Only ps s0 (s.dropItem sq n seq item) ↔ Only ps s0 s := by
  simp [State.dropItem, hp]
@[simp] theorem State.walkSanity_only (hp : Part.out ∈ ps ∧ Part.dev ∈ ps ∧ Part.ctx0 ∈ ps ∧ Part.ctx1 ∈ ps ∧ Part.squads ∈ ps ∧ Part.chans ∈ ps ∧ Part.ledger ∈ ps ∧ Part.host ∈ ps ∧ Part.watch ∈ ps) (sq w : Nat) : Only ps s0 (s.walkSanity sq w) ↔ Only ps s0 s := by
  simp only [State.walkSanity]; (repeat' split) <;> simp [hp]
@[simp] theorem State.afterCommit_only (hp : Part.out ∈ ps ∧ Part.dev ∈ ps ∧ Part.mram ∈ ps ∧ Part.ctx0 ∈ ps ∧ Part.ctx1 ∈ ps ∧ Part.squads ∈ ps ∧ Part.chans ∈ ps ∧ Part.net ∈ ps ∧ Part.ledger ∈ ps ∧ Part.host ∈ ps ∧ Part.watch ∈ ps) (n seq item sq : Nat) : Only ps s0 (s.afterCommit n seq item sq) ↔ Only ps s0 s := by
  simp only [State.afterCommit]; (repeat' split) <;> simp [hp]

/-! ### Walk -/

@[simp] theorem State.startWalkers_only (hp : Part.squads ∈ ps) (sq n seq item tile group part stage : Nat) : Only ps s0 (s.startWalkers sq n seq item tile group part stage) ↔ Only ps s0 s := by
  unfold State.startWalkers; dsimp only; split
  · exact Iff.rfl
  · refine only_foldl fun u w => ?_
    split
    · exact Iff.rfl
    · simp [hp]
@[simp] theorem State.setWalker_only (hp : Part.squads ∈ ps) (sq w : Nat) (k : Walker) : Only ps s0 (s.setWalker sq w k) ↔ Only ps s0 s := by
  simp [State.setWalker, hp]
@[simp] theorem State.walkScalar_only (hp : Part.out ∈ ps ∧ Part.dev ∈ ps ∧ Part.ctx0 ∈ ps ∧ Part.ctx1 ∈ ps ∧ Part.squads ∈ ps ∧ Part.chans ∈ ps ∧ Part.ledger ∈ ps ∧ Part.host ∈ ps ∧ Part.watch ∈ ps) (sq w : Nat) (d : WReg) (v : W64) (k : Walker) : Only ps s0 (s.walkScalar sq w d v k) ↔ Only ps s0 s := by
  simp only [State.walkScalar]; (repeat' split) <;> simp [hp]
@[simp] theorem State.setPool_only (hp : Part.squads ∈ ps) (sq n p : Nat) (pl : Pool) : Only ps s0 (s.setPool sq n p pl) ↔ Only ps s0 s := by
  simp [State.setPool, hp]
@[simp] theorem State.setPassQ_only (hp : Part.squads ∈ ps) (sq n q : Nat) (v : PassQ) : Only ps s0 (s.setPassQ sq n q v) ↔ Only ps s0 s := by
  simp [State.setPassQ, hp]
@[simp] theorem State.giveHandle_only (hp : Part.out ∈ ps ∧ Part.dev ∈ ps ∧ Part.ctx0 ∈ ps ∧ Part.ctx1 ∈ ps ∧ Part.squads ∈ ps ∧ Part.chans ∈ ps ∧ Part.ledger ∈ ps ∧ Part.host ∈ ps ∧ Part.watch ∈ ps) (sq w p id : Nat) (pl : Pool) (d : WReg) (k : Walker) : Only ps s0 (s.giveHandle sq w p id pl d k) ↔ Only ps s0 s := by
  simp [State.giveHandle, hp]
@[simp] theorem State.popInto_only (hp : Part.out ∈ ps ∧ Part.dev ∈ ps ∧ Part.ctx0 ∈ ps ∧ Part.ctx1 ∈ ps ∧ Part.squads ∈ ps ∧ Part.chans ∈ ps ∧ Part.ledger ∈ ps ∧ Part.host ∈ ps ∧ Part.watch ∈ ps) (sq w q : Nat) (v : PassQ) (h note : WReg) (k : Walker) : Only ps s0 (s.popInto sq w q v h note k) ↔ Only ps s0 s := by
  simp only [State.popInto]; (repeat' split) <;> simp [hp]
@[simp] theorem State.planPools_only (hp : Part.squads ∈ ps) (n : Nat) (first : Bool) : Only ps s0 (s.planPools n first) ↔ Only ps s0 s := by
  simp [State.planPools, hp, apply_ite (Only ps s0), only_foldl]
@[simp] theorem State.takeLib_only (hp : Part.ctx0 ∈ ps ∧ Part.ctx1 ∈ ps ∧ Part.squads ∈ ps) (n : Nat) (l : WalkLib) : Only ps s0 (s.takeLib n l) ↔ Only ps s0 s := by
  simp [State.takeLib, hp, apply_ite (Only ps s0)]

/-! ### Array -/

@[simp] theorem State.setMat_only (hp : Part.ctx0 ∈ ps ∧ Part.ctx1 ∈ ps) (n : Nat) (m : MatOp) : Only ps s0 (s.setMat n m) ↔ Only ps s0 s := by
  simp [State.setMat, hp]
@[simp] theorem State.giveItem_only (hp : Part.squads ∈ ps) (sq : Nat) (it : Item) (acc : AccFmt) : Only ps s0 (s.giveItem sq it acc) ↔ Only ps s0 s := by
  simp [State.giveItem, hp]
@[simp] theorem State.feedPop_only (hp : Part.squads ∈ ps) (sq : Nat) (begins : Bool) : Only ps s0 (s.feedPop sq begins) ↔ Only ps s0 s := by
  simp [State.feedPop, hp, apply_ite (Only ps s0)]
theorem State.issueCycle_only (hp : Part.squads ∈ ps) (sq : Nat) (it0 : Item) (t : State) (h : s.issueCycle sq it0 = some t) : Only ps s0 t ↔ Only ps s0 s := by
  unfold State.issueCycle at h; dsimp only at h
  (repeat' split at h) <;> simp at h <;> subst h <;> simp [hp]

/-! ### Stream -/

@[simp] theorem State.streamPut_only (hp : Part.hbm ∈ ps ∧ Part.store ∈ ps) (n : Nat) (t : TensorRec) (k : Nat) (b : Byte) : Only ps s0 (s.streamPut n t k b) ↔ Only ps s0 s := by
  simp [State.streamPut, hp, apply_ite (Only ps s0), only_foldl]
@[simp] theorem State.streamWrite_only (hp : Part.hbm ∈ ps ∧ Part.store ∈ ps) (n : Nat) (t : TensorRec) (k : Nat) (y0 : List Byte) : Only ps s0 (s.streamWrite n t k y0) ↔ Only ps s0 s := by
  induction y0 generalizing s k with
  | nil => exact Iff.rfl
  | cons b r ih => exact (ih _).trans (by simp [hp])
@[simp] theorem State.edgeFill_only (hp : Part.hbm ∈ ps ∧ Part.store ∈ ps) (n : Nat) (t : TensorRec) : Only ps s0 (s.edgeFill n t) ↔ Only ps s0 s := by
  unfold State.edgeFill; dsimp only; split
  · exact Iff.rfl
  · refine only_foldl fun u x => only_foldl fun u x => only_foldl fun u x => ?_
    split <;> simp [hp]

/-! ### Flags -/

@[simp] theorem State.writeFlag_only (hp : Part.ctx0 ∈ ps ∧ Part.ctx1 ∈ ps) (n f : Nat) (v : Bool) : Only ps s0 (s.writeFlag n f v) ↔ Only ps s0 s := by
  simp [State.writeFlag, hp]

/-! ### Telemetry -/

@[simp] theorem State.teleWrite_only (hp : Part.out ∈ ps ∧ Part.tele ∈ ps ∧ Part.host ∈ ps) (e : List Byte) : Only ps s0 (s.teleWrite e) ↔ Only ps s0 s := by
  simp [State.teleWrite, hp, apply_ite (Only ps s0)]
@[simp] theorem State.noteOverrun_only (hp : Part.out ∈ ps ∧ Part.regs ∈ ps ∧ Part.ctx0 ∈ ps ∧ Part.ctx1 ∈ ps ∧ Part.ledger ∈ ps ∧ Part.tele ∈ ps ∧ Part.host ∈ ps ∧ Part.watch ∈ ps) (n w : Nat) : Only ps s0 (s.noteOverrun n w) ↔ Only ps s0 s := by
  simp [State.noteOverrun, hp]
@[simp] theorem State.telemetry_only (hp : Part.out ∈ ps ∧ Part.regs ∈ ps ∧ Part.ctx0 ∈ ps ∧ Part.ctx1 ∈ ps ∧ Part.ledger ∈ ps ∧ Part.tele ∈ ps ∧ Part.host ∈ ps ∧ Part.watch ∈ ps) (n : Nat) (f : Flight) (skipped : Bool) : Only ps s0 (s.telemetry n f skipped) ↔ Only ps s0 s := by
  simp [State.telemetry, hp, apply_ite (Only ps s0), only_foldl]
@[simp] theorem State.takeSpb_only (hp : Part.out ∈ ps ∧ Part.ctx0 ∈ ps ∧ Part.ctx1 ∈ ps ∧ Part.ledger ∈ ps ∧ Part.host ∈ ps ∧ Part.watch ∈ ps) (n : Nat) : Only ps s0 (s.takeSpb n) ↔ Only ps s0 s := by
  simp only [State.takeSpb]; (repeat' split) <;> simp [hp]
@[simp] theorem State.urgentEta_only (hp : Part.out ∈ ps ∧ Part.ctx0 ∈ ps ∧ Part.ctx1 ∈ ps ∧ Part.ledger ∈ ps ∧ Part.host ∈ ps ∧ Part.watch ∈ ps) : Only ps s0 (s.urgentEta) ↔ Only ps s0 s := by
  simp only [State.urgentEta]; (repeat' split) <;> simp [hp]
@[simp] theorem State.stepStart_only (hp : Part.out ∈ ps ∧ Part.ctx0 ∈ ps ∧ Part.ctx1 ∈ ps ∧ Part.ledger ∈ ps ∧ Part.host ∈ ps ∧ Part.watch ∈ ps) (n : Nat) : Only ps s0 (s.stepStart n) ↔ Only ps s0 s := by
  simp [State.stepStart, hp, apply_ite (Only ps s0)]

/-! ### Suspend -/

@[simp] theorem State.suspend_only (hp : Part.out ∈ ps ∧ Part.ctx0 ∈ ps ∧ Part.ctx1 ∈ ps ∧ Part.host ∈ ps) (n ch : Nat) : Only ps s0 (s.suspend n ch) ↔ Only ps s0 s := by
  simp [State.suspend, hp, apply_ite (Only ps s0)]
@[simp] theorem State.transFault_only (hp : Part.out ∈ ps ∧ Part.ctx0 ∈ ps ∧ Part.ctx1 ∈ ps ∧ Part.ledger ∈ ps ∧ Part.host ∈ ps ∧ Part.watch ∈ ps) (n : Nat) (r : FlogRec) : Only ps s0 (s.transFault n r) ↔ Only ps s0 s := by
  simp [State.transFault, hp]
@[simp] theorem State.sanityFault_only (hp : Part.out ∈ ps ∧ Part.ctx0 ∈ ps ∧ Part.ctx1 ∈ ps ∧ Part.ledger ∈ ps ∧ Part.host ∈ ps ∧ Part.watch ∈ ps) (n q qindex check : Nat) : Only ps s0 (s.sanityFault n q qindex check) ↔ Only ps s0 s := by
  simp [State.sanityFault, hp]

/-! ### ShortPass -/

@[simp] theorem State.toNet_only (hp : Part.net ∈ ps) (p : Packet) : Only ps s0 (s.toNet p) ↔ Only ps s0 s := by
  simp [State.toNet, hp]
@[simp] theorem State.inject_only (hp : Part.net ∈ ps) (c r cls : Nat) (g : Goal) (p : Packet) : Only ps s0 (s.inject c r cls g p) ↔ Only ps s0 s := by
  simp [State.inject, hp]
@[simp] theorem State.modFlight_only (hp : Part.ctx0 ∈ ps ∧ Part.ctx1 ∈ ps) (n seq : Nat) (f : Flight → Flight) : Only ps s0 (s.modFlight n seq f) ↔ Only ps s0 s := by
  simp [State.modFlight, hp]
@[simp] theorem State.deposit_only (hp : Part.squads ∈ ps) (m : ShortMsg) : Only ps s0 (s.deposit m) ↔ Only ps s0 s := by
  simp [State.deposit, hp]
@[simp] theorem State.setOverflow_only (hp : Part.chans ∈ ps) (c n : Nat) (l : List ShortMsg) : Only ps s0 (s.setOverflow c n l) ↔ Only ps s0 s := by
  simp [State.setOverflow, hp]
@[simp] theorem State.spillShort_only (hp : Part.out ∈ ps ∧ Part.chans ∈ ps ∧ Part.ledger ∈ ps ∧ Part.host ∈ ps ∧ Part.watch ∈ ps) (m : ShortMsg) : Only ps s0 (s.spillShort m) ↔ Only ps s0 s := by
  simp [State.spillShort, hp]
@[simp] theorem State.holdShort_only (hp : Part.ctx0 ∈ ps ∧ Part.ctx1 ∈ ps) (m : ShortMsg) : Only ps s0 (s.holdShort m) ↔ Only ps s0 s := by
  simp [State.holdShort, hp, apply_ite (Only ps s0)]
@[simp] theorem State.placeShort_only (hp : Part.out ∈ ps ∧ Part.ctx0 ∈ ps ∧ Part.ctx1 ∈ ps ∧ Part.squads ∈ ps ∧ Part.chans ∈ ps ∧ Part.ledger ∈ ps ∧ Part.host ∈ ps ∧ Part.watch ∈ ps) (m : ShortMsg) : Only ps s0 (s.placeShort m) ↔ Only ps s0 s := by
  simp [State.placeShort, hp, apply_ite (Only ps s0)]
@[simp] theorem State.deliverShort_only (hp : Part.out ∈ ps ∧ Part.ctx0 ∈ ps ∧ Part.ctx1 ∈ ps ∧ Part.squads ∈ ps ∧ Part.chans ∈ ps ∧ Part.ledger ∈ ps ∧ Part.host ∈ ps ∧ Part.watch ∈ ps) (m : ShortMsg) : Only ps s0 (s.deliverShort m) ↔ Only ps s0 s := by
  simp [State.deliverShort, hp, apply_ite (Only ps s0)]
@[simp] theorem State.dropTransfer_only (hp : Part.squads ∈ ps) (sq n mb : Nat) (l : List ShortMsg) : Only ps s0 (s.dropTransfer sq n mb l) ↔ Only ps s0 s := by
  simp only [State.dropTransfer]; (repeat' split) <;> simp [hp]
@[simp] theorem State.readDone_only (hp : Part.squads ∈ ps) (n : Nat) (d : Descriptor) : Only ps s0 (s.readDone n d) ↔ Only ps s0 s := by
  unfold State.readDone; split
  · exact Iff.rfl
  · exact only_foldl fun u x => only_foldl fun u x => by simp [hp]
@[simp] theorem State.sendData_only (hp : Part.free ∈ ps) (n : Nat) (f : Flight) (len : Nat) : Only ps s0 (s.sendData n f len).2 ↔ Only ps s0 s := by
  have h (l : List Nat) (p : List Byte × State) :
      Only ps s0 (l.foldl (fun (p : List Byte × State) _ => (p.1 ++ [p.2.draw.1.truncate 8], p.2.draw.2)) p).2 ↔ Only ps s0 p.2 := by
    induction l generalizing p with
    | nil => exact Iff.rfl
    | cons x r ih => exact (ih _).trans (State.draw_only (by simpa using hp))
  exact h _ _
@[simp] theorem State.sendShort_only (hp : Part.free ∈ ps ∧ Part.ctx0 ∈ ps ∧ Part.ctx1 ∈ ps ∧ Part.net ∈ ps) (n : Nat) (f : Flight) (x : SendSpec) : Only ps s0 (s.sendShort n f x) ↔ Only ps s0 s := by
  simp [State.sendShort, hp, apply_ite (Only ps s0), only_foldl]

/-! ### Collect -/

@[simp] theorem State.toMembers_only (hp : Part.net ∈ ps) (n tag epoch off : Nat) (ty : PktType) (body : List Byte) : Only ps s0 (s.toMembers n tag epoch off ty body) ↔ Only ps s0 s := by
  simp [State.toMembers, hp, apply_ite (Only ps s0), only_foldl]
@[simp] theorem State.abortTag_only (hp : Part.out ∈ ps ∧ Part.ctx0 ∈ ps ∧ Part.ctx1 ∈ ps ∧ Part.net ∈ ps ∧ Part.ledger ∈ ps ∧ Part.host ∈ ps ∧ Part.watch ∈ ps) (n tag epoch port : Nat) : Only ps s0 (s.abortTag n tag epoch port) ↔ Only ps s0 s := by
  simp [State.abortTag, hp]
@[simp] theorem State.collFault_only (hp : Part.out ∈ ps ∧ Part.ctx0 ∈ ps ∧ Part.ctx1 ∈ ps ∧ Part.net ∈ ps ∧ Part.ledger ∈ ps ∧ Part.host ∈ ps ∧ Part.watch ∈ ps) (n tag : Nat) (g : Tag) (f : Flight) (e : Fail) (write : Bool) : Only ps s0 (s.collFault n tag g f e write) ↔ Only ps s0 s := by
  simp [State.collFault, hp, apply_ite (Only ps s0)]
@[simp] theorem State.resultFlag_only (hp : Part.ctx0 ∈ ps ∧ Part.ctx1 ∈ ps) (n : Nat) (k : CollKind) (data : List Byte) : Only ps s0 (s.resultFlag n k data) ↔ Only ps s0 s := by
  simp only [State.resultFlag]; (repeat' split) <;> simp [hp]
@[simp] theorem State.depositResult_only (hp : Part.out ∈ ps ∧ Part.ctx0 ∈ ps ∧ Part.ctx1 ∈ ps ∧ Part.squads ∈ ps ∧ Part.chans ∈ ps ∧ Part.ledger ∈ ps ∧ Part.host ∈ ps ∧ Part.watch ∈ ps) (n tag sq mb : Nat) (data : List Byte) : Only ps s0 (s.depositResult n tag sq mb data) ↔ Only ps s0 s := by
  simp [State.depositResult, hp, apply_ite (Only ps s0), only_foldl]
@[simp] theorem State.memberResult_only (hp : Part.out ∈ ps ∧ Part.ctx0 ∈ ps ∧ Part.ctx1 ∈ ps ∧ Part.squads ∈ ps ∧ Part.chans ∈ ps ∧ Part.ledger ∈ ps ∧ Part.host ∈ ps ∧ Part.watch ∈ ps) (n tag seq : Nat) (k : CollKind) (data : List Byte) : Only ps s0 (s.memberResult n tag seq k data) ↔ Only ps s0 s := by
  simp only [State.memberResult]; (repeat' split) <;> simp [hp, apply_ite (Only ps s0), only_foldl]
@[simp] theorem State.rootResult_only (hp : Part.out ∈ ps ∧ Part.hbm ∈ ps ∧ Part.store ∈ ps ∧ Part.ctx0 ∈ ps ∧ Part.ctx1 ∈ ps ∧ Part.net ∈ ps ∧ Part.ledger ∈ ps ∧ Part.host ∈ ps ∧ Part.watch ∈ ps) (n tag : Nat) (g : Tag) (f : Flight) (k : CollKind) (off : Nat) (data : List Byte) : Only ps s0 (s.rootResult n tag g f k off data) ↔ Only ps s0 s := by
  simp only [State.rootResult]; (repeat' split) <;> simp [hp]
@[simp] theorem State.sendUp_only (hp : Part.net ∈ ps) (n tag : Nat) (g : Tag) (k : CollKind) (a off : Nat) (data : List Byte) : Only ps s0 (s.sendUp n tag g k a off data) ↔ Only ps s0 s := by
  simp [State.sendUp, hp, apply_ite (Only ps s0)]
@[simp] theorem State.feedNode_only (hp : Part.out ∈ ps ∧ Part.hbm ∈ ps ∧ Part.store ∈ ps ∧ Part.ctx0 ∈ ps ∧ Part.ctx1 ∈ ps ∧ Part.net ∈ ps ∧ Part.ledger ∈ ps ∧ Part.host ∈ ps ∧ Part.watch ∈ ps) (n tag : Nat) (y0 : Nat) (y1 : Nat) (y2 : Bool) (y3 : Nat) (y4 : List Byte) : Only ps s0 (s.feedNode n tag y0 y1 y2 y3 y4) ↔ Only ps s0 s := by
  induction y0 generalizing s y1 y2 y3 y4 with
  | zero => exact Iff.rfl
  | succ k ih =>
    unfold State.feedNode; dsimp only
    (repeat' split) <;> first | exact Iff.rfl | exact ih _ _ _ _ | exact (ih _ _ _ _).trans (by simp [hp]) | (simp [hp]; done)
@[simp] theorem State.contribute_only (hp : Part.out ∈ ps ∧ Part.hbm ∈ ps ∧ Part.store ∈ ps ∧ Part.ctx0 ∈ ps ∧ Part.ctx1 ∈ ps ∧ Part.net ∈ ps ∧ Part.ledger ∈ ps ∧ Part.host ∈ ps ∧ Part.watch ∈ ps) (n tag off : Nat) (data : List Byte) : Only ps s0 (s.contribute n tag off data) ↔ Only ps s0 s := by
  simp [State.contribute, hp, apply_ite (Only ps s0), only_foldl]
@[simp] theorem State.fromRing_only (hp : Part.out ∈ ps ∧ Part.hbm ∈ ps ∧ Part.store ∈ ps ∧ Part.ctx0 ∈ ps ∧ Part.ctx1 ∈ ps ∧ Part.net ∈ ps ∧ Part.ledger ∈ ps ∧ Part.host ∈ ps ∧ Part.watch ∈ ps) (n tag : Nat) : Only ps s0 (s.fromRing n tag) ↔ Only ps s0 s := by
  unfold State.fromRing
  refine only_foldl fun u e => ?_
  split <;> simp [hp]
@[simp] theorem State.gatherOwn_only (hp : Part.hbm ∈ ps ∧ Part.store ∈ ps ∧ Part.ctx0 ∈ ps ∧ Part.ctx1 ∈ ps) (n : Nat) (f : Flight) : Only ps s0 (s.gatherOwn n f) ↔ Only ps s0 s := by
  simp only [State.gatherOwn]; (repeat' split) <;> simp [hp]
@[simp] theorem State.gatherOut_only (hp : Part.net ∈ ps) (n tag epoch : Nat) (f : Flight) : Only ps s0 (s.gatherOut n tag epoch f) ↔ Only ps s0 s := by
  simp only [State.gatherOut]; (repeat' split) <;> simp [hp, apply_ite (Only ps s0), only_foldl]
@[simp] theorem State.enterColl_only (hp : Part.out ∈ ps ∧ Part.hbm ∈ ps ∧ Part.store ∈ ps ∧ Part.ctx0 ∈ ps ∧ Part.ctx1 ∈ ps ∧ Part.net ∈ ps ∧ Part.ledger ∈ ps ∧ Part.host ∈ ps ∧ Part.watch ∈ ps) (n : Nat) (f : Flight) (k : CollKind) (g : Tag) : Only ps s0 (s.enterColl n f k g) ↔ Only ps s0 s := by
  simp only [State.enterColl]; (repeat' split) <;> simp [hp]
@[simp] theorem State.startColl_only (hp : Part.out ∈ ps ∧ Part.hbm ∈ ps ∧ Part.store ∈ ps ∧ Part.ctx0 ∈ ps ∧ Part.ctx1 ∈ ps ∧ Part.net ∈ ps ∧ Part.ledger ∈ ps ∧ Part.host ∈ ps ∧ Part.watch ∈ ps) (n : Nat) (f : Flight) (k : CollKind) (tag : Nat) : Only ps s0 (s.startColl n f k tag) ↔ Only ps s0 s := by
  simp only [State.startColl]; (repeat' split) <;> simp [hp]
@[simp] theorem State.endColl_only (hp : Part.out ∈ ps ∧ Part.ctx0 ∈ ps ∧ Part.ctx1 ∈ ps ∧ Part.squads ∈ ps ∧ Part.chans ∈ ps ∧ Part.net ∈ ps ∧ Part.ledger ∈ ps ∧ Part.host ∈ ps ∧ Part.watch ∈ ps) (n : Nat) (f : Flight) : Only ps s0 (s.endColl n f) ↔ Only ps s0 s := by
  simp only [State.endColl]; (repeat' split) <;> simp [hp]
@[simp] theorem State.reductionIn_only (hp : Part.out ∈ ps ∧ Part.hbm ∈ ps ∧ Part.store ∈ ps ∧ Part.ctx0 ∈ ps ∧ Part.ctx1 ∈ ps ∧ Part.squads ∈ ps ∧ Part.chans ∈ ps ∧ Part.net ∈ ps ∧ Part.ledger ∈ ps ∧ Part.host ∈ ps ∧ Part.watch ∈ ps) (p : Packet) : Only ps s0 (s.reductionIn p) ↔ Only ps s0 s := by
  simp only [State.reductionIn]; (repeat' split) <;> simp [hp]

/-! ### TileCheck -/

@[simp] theorem Wrote.note_only (hp : Part.ctx0 ∈ ps ∧ Part.ctx1 ∈ ps) (w : Wrote) (n seq pos : Nat) (rep : Bool) :
    Only ps s0 (w.note n seq pos rep) ↔ Only ps s0 w.st := by
  unfold Wrote.note; dsimp only; split <;> simp [hp]
@[simp] theorem State.putFlight_only (hp : Part.hbm ∈ ps ∧ Part.store ∈ ps ∧ Part.ctx0 ∈ ps ∧ Part.ctx1 ∈ ps) (n seq pos : Nat) (recs : Tbl TensorRec) (t : TensorRec) (stoch rep every : Bool) (step : Nat) (xs : List (List Nat × Num)) : Only ps s0 (s.putFlight n seq pos recs t stoch rep every step xs) ↔ Only ps s0 s := by
  unfold State.putFlight; dsimp only
  split <;> simp [hp]
@[simp] theorem State.putCodes_only (hp : Part.hbm ∈ ps ∧ Part.store ∈ ps ∧ Part.ctx0 ∈ ps ∧ Part.ctx1 ∈ ps) (n seq pos : Nat) (t : TensorRec) (xs : List (List Nat × Nat)) : Only ps s0 (s.putCodes n seq pos t xs) ↔ Only ps s0 s := by
  simp [State.putCodes, hp, only_foldl]
@[simp] theorem State.sendTile_only (hp : Part.out ∈ ps ∧ Part.hbm ∈ ps ∧ Part.store ∈ ps ∧ Part.ctx0 ∈ ps ∧ Part.ctx1 ∈ ps ∧ Part.chans ∈ ps ∧ Part.net ∈ ps ∧ Part.ledger ∈ ps ∧ Part.host ∈ ps ∧ Part.watch ∈ ps) (n tag : Nat) (fmt : Fmt) (xs : List (List Nat × Num)) (step : Nat) (stoch : Bool) (t : TensorRec) : Only ps s0 (s.sendTile n tag fmt xs step stoch t).st ↔ Only ps s0 s := by
  simp [State.sendTile, hp, apply_ite (Only ps s0), only_foldl]
@[simp] theorem State.outputTile_only (hp : Part.out ∈ ps ∧ Part.hbm ∈ ps ∧ Part.store ∈ ps ∧ Part.ctx0 ∈ ps ∧ Part.ctx1 ∈ ps ∧ Part.chans ∈ ps ∧ Part.net ∈ ps ∧ Part.ledger ∈ ps ∧ Part.host ∈ ps ∧ Part.watch ∈ ps) (it : Item) (last : Flight) (f : Feed) (vals : Tbl W64) : Only ps s0 (s.outputTile it last f vals) ↔ Only ps s0 s := by
  simp only [State.outputTile]
  (repeat' split) <;> simp [hp]
@[simp] theorem State.commitTile_only (hp : Part.out ∈ ps ∧ Part.hbm ∈ ps ∧ Part.store ∈ ps ∧ Part.dev ∈ ps ∧ Part.mram ∈ ps ∧ Part.ctx0 ∈ ps ∧ Part.ctx1 ∈ ps ∧ Part.squads ∈ ps ∧ Part.chans ∈ ps ∧ Part.net ∈ ps ∧ Part.ledger ∈ ps ∧ Part.host ∈ ps ∧ Part.watch ∈ ps) (sq : Nat) (m : MatOp) (d : Descriptor) (dr : Drain) : Only ps s0 (s.commitTile sq m d dr) ↔ Only ps s0 s := by
  simp only [State.commitTile]; (repeat' split) <;> simp [hp]
@[simp] theorem State.transient_only (hp : Part.out ∈ ps ∧ Part.dev ∈ ps ∧ Part.mram ∈ ps ∧ Part.ctx0 ∈ ps ∧ Part.ctx1 ∈ ps ∧ Part.squads ∈ ps ∧ Part.chans ∈ ps ∧ Part.net ∈ ps ∧ Part.ledger ∈ ps ∧ Part.host ∈ ps ∧ Part.watch ∈ ps) (sq : Nat) : Only ps s0 (s.transient sq) ↔ Only ps s0 s := by
  simp [State.transient, hp, apply_ite (Only ps s0)]
@[simp] theorem State.suspect_only (hp : Part.mram ∈ ps) (sq : Nat) : Only ps s0 (s.suspect sq) ↔ Only ps s0 s := by
  simp [State.suspect, hp]
@[simp] theorem State.logReplay_only (hp : Part.out ∈ ps ∧ Part.ledger ∈ ps ∧ Part.host ∈ ps ∧ Part.watch ∈ ps) (sq0 : Nat) (sq1 : Option Nat) (idx seq : Nat) : Only ps s0 (s.logReplay sq0 sq1 idx seq) ↔ Only ps s0 s := by
  simp [State.logReplay, hp]
@[simp] theorem State.fieldRepair_only (hp : Part.out ∈ ps ∧ Part.mram ∈ ps ∧ Part.squads ∈ ps ∧ Part.ledger ∈ ps ∧ Part.host ∈ ps ∧ Part.watch ∈ ps) (sq : Nat) (p : Bool × Nat) : Only ps s0 (s.fieldRepair sq p) ↔ Only ps s0 s := by
  simp [State.fieldRepair, hp]
@[simp] theorem State.fenceChecksum_only (hp : Part.out ∈ ps ∧ Part.dev ∈ ps ∧ Part.mram ∈ ps ∧ Part.ctx0 ∈ ps ∧ Part.ctx1 ∈ ps ∧ Part.squads ∈ ps ∧ Part.chans ∈ ps ∧ Part.net ∈ ps ∧ Part.ledger ∈ ps ∧ Part.host ∈ ps ∧ Part.watch ∈ ps) (l : Ladder) : Only ps s0 (s.fenceChecksum l) ↔ Only ps s0 s := by
  simp only [State.fenceChecksum]; (repeat' split) <;> simp [hp]
@[simp] theorem State.tilePass_only (hp : Part.out ∈ ps ∧ Part.hbm ∈ ps ∧ Part.store ∈ ps ∧ Part.dev ∈ ps ∧ Part.mram ∈ ps ∧ Part.ctx0 ∈ ps ∧ Part.ctx1 ∈ ps ∧ Part.squads ∈ ps ∧ Part.chans ∈ ps ∧ Part.net ∈ ps ∧ Part.ledger ∈ ps ∧ Part.host ∈ ps ∧ Part.watch ∈ ps) (sq : Nat) (m : MatOp) (d : Descriptor) (dr : Drain) : Only ps s0 (s.tilePass sq m d dr) ↔ Only ps s0 s := by
  simp only [State.tilePass]; (repeat' split) <;> simp [hp]
@[simp] theorem State.logData_only (hp : Part.out ∈ ps ∧ Part.ledger ∈ ps ∧ Part.host ∈ ps ∧ Part.watch ∈ ps) (sq0 sq idx seq : Nat) (rf cf : List Nat) (det : Nat) : Only ps s0 (s.logData sq0 sq idx seq rf cf det) ↔ Only ps s0 s := by
  simp [State.logData, hp, apply_ite (Only ps s0), only_foldl]
@[simp] theorem State.ladderStart_only (hp : Part.out ∈ ps ∧ Part.ctx0 ∈ ps ∧ Part.ctx1 ∈ ps ∧ Part.squads ∈ ps ∧ Part.chans ∈ ps ∧ Part.ledger ∈ ps ∧ Part.host ∈ ps ∧ Part.watch ∈ ps) (sq : Nat) (m : MatOp) (dr : Drain) (rf cf : List Nat) : Only ps s0 (s.ladderStart sq m dr rf cf) ↔ Only ps s0 s := by
  simp [State.ladderStart, hp, apply_ite (Only ps s0), only_foldl]
@[simp] theorem State.uncharge_only (hp : Part.ctx0 ∈ ps ∧ Part.ctx1 ∈ ps) (n seq : Nat) : Only ps s0 (s.uncharge n seq) ↔ Only ps s0 s := by
  simp [State.uncharge, hp]
@[simp] theorem State.tileFail_only (hp : Part.out ∈ ps ∧ Part.hbm ∈ ps ∧ Part.store ∈ ps ∧ Part.dev ∈ ps ∧ Part.mram ∈ ps ∧ Part.ctx0 ∈ ps ∧ Part.ctx1 ∈ ps ∧ Part.squads ∈ ps ∧ Part.chans ∈ ps ∧ Part.net ∈ ps ∧ Part.ledger ∈ ps ∧ Part.host ∈ ps ∧ Part.watch ∈ ps) (sq : Nat) (m : MatOp) (d : Descriptor) (dr : Drain) (rf cf : List Nat) (det : Nat) : Only ps s0 (s.tileFail sq m d dr rf cf det) ↔ Only ps s0 s := by
  unfold State.tileFail; dsimp only
  (repeat' split) <;> first | exact Iff.rfl | (simp [hp]; done)

end Sys2Proof.Machine
end

