-- ==== Sys2Proof/Laws/OnlyEngines.lean ====
section
/-! SUPPORT. Which parts the operations of updates, commits, admission, DMA, huddles, issue and pre-emption may change. -/

namespace Sys2Proof.Machine

variable {ps : List Part} {s0 s : State}

/-! ### Update -/

@[simp] theorem State.updApply_only (hp : Part.squads ∈ ps) (sq : Nat) (u : UpdRun) (d : UDst) (f : Lane → Word) : Only ps s0 (s.updApply sq u d f) ↔ Only ps s0 s := by
  simp [State.updApply, hp, apply_ite (Only ps s0), only_foldl]
@[simp] theorem State.writeOut_only (hp : Part.hbm ∈ ps ∧ Part.store ∈ ps) (n : Nat) (f : Flight) (e out : Nat) (src dst : Option Nat) (first : Nat) (keep : List Bool) (vals : List (Option Word)) (stoch : Bool) : Only ps s0 (s.writeOut n f e out src dst first keep vals stoch).1 ↔ Only ps s0 s := by
  unfold State.writeOut; dsimp only; split
  · exact only_foldl_fst (a := (s, [])) fun acc x => by simp [hp]
  · exact Iff.rfl
@[simp] theorem State.applyBlock_only (hp : Part.out ∈ ps ∧ Part.hbm ∈ ps ∧ Part.store ∈ ps ∧ Part.ctx0 ∈ ps ∧ Part.ctx1 ∈ ps ∧ Part.host ∈ ps) (n : Nat) (f : Flight) (e : Nat) (en : ShardEntry) (first : Nat) (lanes : List Lane) (copy : Bool) (sr : List Bool) : Only ps s0 (s.applyBlock n f e en first lanes copy sr) ↔ Only ps s0 s := by
  simp only [State.applyBlock]; (repeat' split) <;> simp [hp]
@[simp] theorem State.strictEnd_only (hp : Part.out ∈ ps ∧ Part.ctx0 ∈ ps ∧ Part.ctx1 ∈ ps ∧ Part.ledger ∈ ps ∧ Part.host ∈ ps ∧ Part.watch ∈ ps) (n : Nat) : Only ps s0 (s.strictEnd n) ↔ Only ps s0 s := by
  simp only [State.strictEnd]; (repeat' split) <;> simp [hp]

/-! ### Commit -/

@[simp] theorem State.applyCommit_only (hp : Part.out ∈ ps ∧ Part.ctx0 ∈ ps ∧ Part.ctx1 ∈ ps ∧ Part.ledger ∈ ps ∧ Part.host ∈ ps ∧ Part.watch ∈ ps) (n : Nat) (step : Word) (digest : W64) (exp growth : Nat) : Only ps s0 (s.applyCommit n step digest exp growth) ↔ Only ps s0 s := by
  simp only [State.applyCommit]; (repeat' split) <;> simp [hp]
@[simp] theorem State.sendDown_only (hp : Part.out ∈ ps) (n kind : Nat) (d : Decision) : Only ps s0 (s.sendDown n kind d) ↔ Only ps s0 s := by
  simp [State.sendDown, hp, apply_ite (Only ps s0)]
@[simp] theorem State.noteHold_only (hp : Part.out ∈ ps ∧ Part.ctx0 ∈ ps ∧ Part.ctx1 ∈ ps ∧ Part.ledger ∈ ps ∧ Part.host ∈ ps ∧ Part.watch ∈ ps) (n : Nat) (d : Decision) : Only ps s0 (s.noteHold n d) ↔ Only ps s0 s := by
  simp [State.noteHold, hp]
@[simp] theorem State.applyAbort_only (hp : Part.out ∈ ps ∧ Part.ctx0 ∈ ps ∧ Part.ctx1 ∈ ps ∧ Part.squads ∈ ps ∧ Part.chans ∈ ps ∧ Part.ledger ∈ ps ∧ Part.host ∈ ps ∧ Part.watch ∈ ps) (n : Nat) (step : Word) : Only ps s0 (s.applyAbort n step) ↔ Only ps s0 s := by
  simp only [State.applyAbort]; (repeat' split) <;> simp [hp]
@[simp] theorem State.rootHold_only (hp : Part.out ∈ ps ∧ Part.ctx0 ∈ ps ∧ Part.ctx1 ∈ ps ∧ Part.ledger ∈ ps ∧ Part.host ∈ ps ∧ Part.watch ∈ ps) (n reason : Nat) (v : Vote) : Only ps s0 (s.rootHold n reason v) ↔ Only ps s0 s := by
  simp [State.rootHold, hp]
@[simp] theorem State.rootCommit_only (hp : Part.out ∈ ps ∧ Part.ctx0 ∈ ps ∧ Part.ctx1 ∈ ps ∧ Part.ledger ∈ ps ∧ Part.host ∈ ps ∧ Part.watch ∈ ps) (n : Nat) (v : Vote) : Only ps s0 (s.rootCommit n v) ↔ Only ps s0 s := by
  simp [State.rootCommit, hp]
@[simp] theorem State.rootPair_only (hp : Part.out ∈ ps ∧ Part.ctx0 ∈ ps ∧ Part.ctx1 ∈ ps ∧ Part.ledger ∈ ps ∧ Part.host ∈ ps ∧ Part.watch ∈ ps) (n : Nat) (v : Vote) : Only ps s0 (s.rootPair n v) ↔ Only ps s0 s := by
  simp only [State.rootPair]; (repeat' split) <;> simp [hp]
@[simp] theorem State.rootDecide_only (hp : Part.out ∈ ps ∧ Part.ctx0 ∈ ps ∧ Part.ctx1 ∈ ps ∧ Part.ledger ∈ ps ∧ Part.host ∈ ps ∧ Part.watch ∈ ps) (n : Nat) : Only ps s0 (s.rootDecide n) ↔ Only ps s0 s := by
  simp only [State.rootDecide]; (repeat' split) <;> simp [hp]
@[simp] theorem State.commitUp_only (hp : Part.out ∈ ps ∧ Part.ctx0 ∈ ps ∧ Part.ctx1 ∈ ps ∧ Part.ledger ∈ ps ∧ Part.host ∈ ps ∧ Part.watch ∈ ps) (n : Nat) : Only ps s0 (s.commitUp n) ↔ Only ps s0 s := by
  simp only [State.commitUp]; (repeat' split) <;> simp [hp]
@[simp] theorem State.castVote_only (hp : Part.out ∈ ps ∧ Part.ctx0 ∈ ps ∧ Part.ctx1 ∈ ps ∧ Part.ledger ∈ ps ∧ Part.host ∈ ps ∧ Part.watch ∈ ps) (n step reason : Nat) : Only ps s0 (s.castVote n step reason) ↔ Only ps s0 s := by
  simp [State.castVote, hp, apply_ite (Only ps s0)]
@[simp] theorem State.commitArrive_only (hp : Part.out ∈ ps ∧ Part.ctx0 ∈ ps ∧ Part.ctx1 ∈ ps ∧ Part.ledger ∈ ps ∧ Part.host ∈ ps ∧ Part.watch ∈ ps) (n : Nat) : Only ps s0 (s.commitArrive n) ↔ Only ps s0 s := by
  simp [State.commitArrive, hp]
@[simp] theorem State.haltCommit_only (hp : Part.ctx0 ∈ ps ∧ Part.ctx1 ∈ ps) (n : Nat) (h : Halt) : Only ps s0 (s.haltCommit n h) ↔ Only ps s0 s := by
  simp only [State.haltCommit]; (repeat' split) <;> simp [hp]
@[simp] theorem State.huddleDeadline_only (hp : Part.out ∈ ps ∧ Part.ledger ∈ ps ∧ Part.host ∈ ps ∧ Part.watch ∈ ps) (n q number scope arrived missing : Nat) : Only ps s0 (s.huddleDeadline n q number scope arrived missing) ↔ Only ps s0 s := by
  simp [State.huddleDeadline, hp]

/-! ### Admit -/

@[simp] theorem State.admitHead_only (hp : Part.ctx0 ∈ ps ∧ Part.ctx1 ∈ ps ∧ Part.flightSeq ∈ ps) (n q : Nat) (d : Descriptor) : Only ps s0 (s.admitHead n q d) ↔ Only ps s0 s := by
  refine only_iff (fs := [.ctx0, .ctx1, .flightSeq]) (fun p h => ?_) (by simpa using hp)
  unfold State.admitHead
  cases p <;> first | exact absurd (by decide) h | simp [Part.same]

/-! ### Dma -/

@[simp] theorem State.setRg64_only (hp : Part.regs ∈ ps) (a v : Nat) : Only ps s0 (s.setRg64 a v) ↔ Only ps s0 s := by
  simp [State.setRg64, hp]
@[simp] theorem State.modDma_only (hp : Part.chans ∈ ps) (c d : Nat) (f : Dma → Dma) : Only ps s0 (s.modDma c d f) ↔ Only ps s0 s := by
  simp [State.modDma, hp]
@[simp] theorem State.sideWrite_only (hp : Part.out ∈ ps ∧ Part.hbm ∈ ps ∧ Part.store ∈ ps) (x : Xfer) (k : Nat) (l : List Byte) : Only ps s0 (s.sideWrite x k l) ↔ Only ps s0 s := by
  simp only [State.sideWrite]; (repeat' split) <;> simp [hp, apply_ite (Only ps s0), only_foldl]
@[simp] theorem State.hostDmaTouched_only (hp : Part.ctx0 ∈ ps ∧ Part.ctx1 ∈ ps) (pl : List (Nat × Nat)) (all : Bool) : Only ps s0 (s.hostDmaTouched pl all) ↔ Only ps s0 s := by
  simp [State.hostDmaTouched, hp]
@[simp] theorem State.dmaSignal_only (hp : Part.out ∈ ps ∧ Part.regs ∈ ps ∧ Part.host ∈ ps) (c d bit : Nat) : Only ps s0 (s.dmaSignal c d bit) ↔ Only ps s0 s := by
  simp [State.dmaSignal, hp, apply_ite (Only ps s0)]
@[simp] theorem State.putStatus_only (hp : Part.out ∈ ps ∧ Part.ctx0 ∈ ps ∧ Part.ctx1 ∈ ps ∧ Part.chans ∈ ps) (c d : Nat) (x : Xfer) (w : List Byte) : Only ps s0 (s.putStatus c d x w) ↔ Only ps s0 s := by
  simp only [State.putStatus]; (repeat' split) <;> simp [hp]
@[simp] theorem State.dmaStop_only (hp : Part.out ∈ ps ∧ Part.ctx0 ∈ ps ∧ Part.ctx1 ∈ ps ∧ Part.chans ∈ ps ∧ Part.ledger ∈ ps ∧ Part.host ∈ ps ∧ Part.watch ∈ ps) (c d : Nat) (x : Xfer) (state flags ftype va : Nat) : Only ps s0 (s.dmaStop c d x state flags ftype va) ↔ Only ps s0 s := by
  simp [State.dmaStop, hp, apply_ite (Only ps s0)]
@[simp] theorem State.rescueDma_only (hp : Part.chans ∈ ps) (c : Nat) : Only ps s0 (s.rescueDma c) ↔ Only ps s0 s := by
  simp only [State.rescueDma]; (repeat' split) <;> simp [hp]
@[simp] theorem State.dmaDone_only (hp : Part.out ∈ ps ∧ Part.regs ∈ ps ∧ Part.hbm ∈ ps ∧ Part.store ∈ ps ∧ Part.ctx0 ∈ ps ∧ Part.ctx1 ∈ ps ∧ Part.chans ∈ ps ∧ Part.host ∈ ps) (c d : Nat) (x : Xfer) : Only ps s0 (s.dmaDone c d x) ↔ Only ps s0 s := by
  simp only [State.dmaDone]; (repeat' split) <;> simp [hp]
@[simp] theorem State.startDma_only (hp : Part.chans ∈ ps) (n : Nat) (f : Flight) : Only ps s0 (s.startDma n f) ↔ Only ps s0 s := by
  simp only [State.startDma]; (repeat' split) <;> simp [hp]
@[simp] theorem State.dmaReject_only (hp : Part.out ∈ ps ∧ Part.regs ∈ ps ∧ Part.ctx0 ∈ ps ∧ Part.ctx1 ∈ ps ∧ Part.chans ∈ ps ∧ Part.ledger ∈ ps ∧ Part.host ∈ ps ∧ Part.watch ∈ ps) (c d : Nat) (x : Xfer) (b : Nat × Nat) : Only ps s0 (s.dmaReject c d x b) ↔ Only ps s0 s := by
  simp [State.dmaReject, hp]
@[simp] theorem State.dmaFault_only (hp : Part.out ∈ ps ∧ Part.regs ∈ ps ∧ Part.ctx0 ∈ ps ∧ Part.ctx1 ∈ ps ∧ Part.chans ∈ ps ∧ Part.ledger ∈ ps ∧ Part.host ∈ ps ∧ Part.watch ∈ ps) (c d : Nat) (x : Xfer) (f : Fail) (src dst write : Bool) : Only ps s0 (s.dmaFault c d x f src dst write) ↔ Only ps s0 s := by
  simp only [State.dmaFault]; (repeat' split) <;> simp [hp]
@[simp] theorem State.chanFault_only (hp : Part.out ∈ ps ∧ Part.regs ∈ ps ∧ Part.ctx0 ∈ ps ∧ Part.ctx1 ∈ ps ∧ Part.chans ∈ ps ∧ Part.ledger ∈ ps ∧ Part.host ∈ ps ∧ Part.watch ∈ ps) (c d : Nat) (va : W64) (write : Bool) (ftype level : Nat) : Only ps s0 (s.chanFault c d va write ftype level) ↔ Only ps s0 s := by
  simp only [State.chanFault]; (repeat' split) <;> simp [hp]
@[simp] theorem State.walkFail_only (hp : Part.out ∈ ps ∧ Part.regs ∈ ps ∧ Part.ctx0 ∈ ps ∧ Part.ctx1 ∈ ps ∧ Part.chans ∈ ps ∧ Part.ledger ∈ ps ∧ Part.host ∈ ps ∧ Part.watch ∈ ps) (n q st si : Nat) (va : W64) (write : Bool) (ftype level ch : Nat) : Only ps s0 (s.walkFail n q st si va write ftype level ch) ↔ Only ps s0 s := by
  simp [State.walkFail, hp, apply_ite (Only ps s0)]
@[simp] theorem State.dmaIndex_only (hp : Part.out ∈ ps ∧ Part.regs ∈ ps ∧ Part.ctx0 ∈ ps ∧ Part.ctx1 ∈ ps ∧ Part.chans ∈ ps ∧ Part.ledger ∈ ps ∧ Part.host ∈ ps ∧ Part.watch ∈ ps) (c d : Nat) (x : Xfer) : Only ps s0 (s.dmaIndex c d x) ↔ Only ps s0 s := by
  simp only [State.dmaIndex]; (repeat' split) <;> simp [hp]
@[simp] theorem State.dmaNote_only (hp : Part.ctx0 ∈ ps ∧ Part.ctx1 ∈ ps) (x : Xfer) (k len : Nat) : Only ps s0 (s.dmaNote x k len) ↔ Only ps s0 s := by
  simp only [State.dmaNote]; (repeat' split) <;> simp [hp]
@[simp] theorem State.dmaMoved_only (hp : Part.out ∈ ps ∧ Part.regs ∈ ps ∧ Part.hbm ∈ ps ∧ Part.store ∈ ps ∧ Part.ctx0 ∈ ps ∧ Part.ctx1 ∈ ps ∧ Part.chans ∈ ps ∧ Part.host ∈ ps) (c d : Nat) (x : Xfer) (n : Nat) : Only ps s0 (s.dmaMoved c d x n) ↔ Only ps s0 s := by
  simp [State.dmaMoved, hp, apply_ite (Only ps s0)]
@[simp] theorem State.dmaMove_only (hp : Part.out ∈ ps ∧ Part.regs ∈ ps ∧ Part.hbm ∈ ps ∧ Part.store ∈ ps ∧ Part.ctx0 ∈ ps ∧ Part.ctx1 ∈ ps ∧ Part.chans ∈ ps ∧ Part.ledger ∈ ps ∧ Part.host ∈ ps ∧ Part.watch ∈ ps) (c d : Nat) (x : Xfer) (dstK : Nat) (parts : List (Nat × Option Nat)) (host : List Byte) : Only ps s0 (s.dmaMove c d x dstK parts host) ↔ Only ps s0 s := by
  simp only [State.dmaMove]; (repeat' split) <;> simp [hp]

/-! ### Huddle -/

@[simp] theorem State.hudDown_only (hp : Part.out ∈ ps) (n k e : Nat) : Only ps s0 (s.hudDown n k e) ↔ Only ps s0 s := by
  simp [State.hudDown, hp, apply_ite (Only ps s0)]
@[simp] theorem State.hudRanks_only (hp : Part.out ∈ ps ∧ Part.ctx0 ∈ ps ∧ Part.ctx1 ∈ ps) (n k e : Nat) (rs : List Nat) : Only ps s0 (s.hudRanks n k e rs) ↔ Only ps s0 s := by
  simp [State.hudRanks, hp, apply_ite (Only ps s0)]
@[simp] theorem State.hudIssue_only (hp : Part.out ∈ ps ∧ Part.ctx0 ∈ ps ∧ Part.ctx1 ∈ ps ∧ Part.ledger ∈ ps ∧ Part.host ∈ ps ∧ Part.watch ∈ ps) (n : Nat) (f : Flight) : Only ps s0 (s.hudIssue n f) ↔ Only ps s0 s := by
  simp only [State.hudIssue]; (repeat' split) <;> simp [hp]

/-! ### Retire -/

@[simp] theorem State.settle_only (hp : Part.ctx0 ∈ ps ∧ Part.ctx1 ∈ ps ∧ Part.squads ∈ ps) (n : Nat) : Only ps s0 (s.settle n) ↔ Only ps s0 s := by
  simp [State.settle, hp, apply_ite (Only ps s0), only_foldl]
@[simp] theorem State.genMap_only (hp : Part.hbm ∈ ps ∧ Part.store ∈ ps) (n : Nat) (recs : Tbl TensorRec) (t : TensorRec) : Only ps s0 (s.genMap n recs t) ↔ Only ps s0 s := by
  simp only [State.genMap]; (repeat' split) <;> simp [hp, apply_ite (Only ps s0), only_foldl]
@[simp] theorem State.noteWritten_only (hp : Part.hbm ∈ ps ∧ Part.store ∈ ps ∧ Part.ctx0 ∈ ps ∧ Part.ctx1 ∈ ps) (n : Nat) (d : Descriptor) (recs : Tbl TensorRec) (r : TensorRec) (h : Nat) (bad whole : Bool) : Only ps s0 (s.noteWritten n d recs r h bad whole) ↔ Only ps s0 s := by
  simp only [State.noteWritten]; (repeat' split) <;> simp [hp]
@[simp] theorem State.noteMask_only (hp : Part.ctx0 ∈ ps ∧ Part.ctx1 ∈ ps) (n : Nat) (f : Flight) (h : Nat) : Only ps s0 (s.noteMask n f h) ↔ Only ps s0 s := by
  simp [State.noteMask, hp, apply_ite (Only ps s0)]
@[simp] theorem State.noteOutputs_only (hp : Part.hbm ∈ ps ∧ Part.store ∈ ps ∧ Part.ctx0 ∈ ps ∧ Part.ctx1 ∈ ps) (n : Nat) (f : Flight) : Only ps s0 (s.noteOutputs n f) ↔ Only ps s0 s := by
  unfold State.noteOutputs; dsimp only
  (repeat' split) <;> first
    | exact Iff.rfl
    | (refine only_foldl fun u x => ?_
       first | (simp [hp]; done) | (split <;> simp [hp]))
@[simp] theorem State.finish_only (hp : Part.out ∈ ps ∧ Part.regs ∈ ps ∧ Part.ctx0 ∈ ps ∧ Part.ctx1 ∈ ps ∧ Part.squads ∈ ps ∧ Part.ledger ∈ ps ∧ Part.tele ∈ ps ∧ Part.host ∈ ps ∧ Part.watch ∈ ps) (n : Nat) (f : Flight) (skipped : Bool) : Only ps s0 (s.finish n f skipped) ↔ Only ps s0 s := by
  simp [State.finish, hp]
@[simp] theorem State.skipHead_only (hp : Part.out ∈ ps ∧ Part.regs ∈ ps ∧ Part.ctx0 ∈ ps ∧ Part.ctx1 ∈ ps ∧ Part.squads ∈ ps ∧ Part.ledger ∈ ps ∧ Part.tele ∈ ps ∧ Part.host ∈ ps ∧ Part.watch ∈ ps) (n : Nat) (f : Flight) : Only ps s0 (s.skipHead n f) ↔ Only ps s0 s := by
  simp [State.skipHead, hp]
@[simp] theorem State.endOp_only (hp : Part.out ∈ ps ∧ Part.ctx0 ∈ ps ∧ Part.ctx1 ∈ ps ∧ Part.squads ∈ ps ∧ Part.chans ∈ ps ∧ Part.net ∈ ps ∧ Part.ledger ∈ ps ∧ Part.host ∈ ps ∧ Part.watch ∈ ps) (n : Nat) (f : Flight) : Only ps s0 (s.endOp n f) ↔ Only ps s0 s := by
  simp only [State.endOp]; (repeat' split) <;> simp [hp]
@[simp] theorem State.flushMx_only (hp : Part.hbm ∈ ps ∧ Part.store ∈ ps ∧ Part.ctx0 ∈ ps ∧ Part.ctx1 ∈ ps) (n : Nat) (f : Flight) : Only ps s0 (s.flushMx n f) ↔ Only ps s0 s := by
  unfold State.flushMx
  refine only_foldl fun u x => ?_
  split <;> simp [hp]
@[simp] theorem State.endOutputs_only (hp : Part.out ∈ ps ∧ Part.hbm ∈ ps ∧ Part.store ∈ ps ∧ Part.ctx0 ∈ ps ∧ Part.ctx1 ∈ ps ∧ Part.squads ∈ ps ∧ Part.chans ∈ ps ∧ Part.net ∈ ps ∧ Part.ledger ∈ ps ∧ Part.host ∈ ps ∧ Part.watch ∈ ps) (n : Nat) (f : Flight) : Only ps s0 (s.endOutputs n f) ↔ Only ps s0 s := by
  simp [State.endOutputs, hp]
@[simp] theorem State.completeOne_only (hp : Part.out ∈ ps ∧ Part.regs ∈ ps ∧ Part.hbm ∈ ps ∧ Part.store ∈ ps ∧ Part.ctx0 ∈ ps ∧ Part.ctx1 ∈ ps ∧ Part.squads ∈ ps ∧ Part.chans ∈ ps ∧ Part.net ∈ ps ∧ Part.ledger ∈ ps ∧ Part.tele ∈ ps ∧ Part.host ∈ ps ∧ Part.watch ∈ ps) (n : Nat) (f : Flight) : Only ps s0 (s.completeOne n f) ↔ Only ps s0 s := by
  simp [State.completeOne, hp]
@[simp] theorem State.completeMat_only (hp : Part.out ∈ ps ∧ Part.regs ∈ ps ∧ Part.hbm ∈ ps ∧ Part.store ∈ ps ∧ Part.ctx0 ∈ ps ∧ Part.ctx1 ∈ ps ∧ Part.squads ∈ ps ∧ Part.chans ∈ ps ∧ Part.net ∈ ps ∧ Part.ledger ∈ ps ∧ Part.tele ∈ ps ∧ Part.host ∈ ps ∧ Part.watch ∈ ps) (n : Nat) (m : MatOp) : Only ps s0 (s.completeMat n m) ↔ Only ps s0 s := by
  unfold State.completeMat; dsimp only
  refine (State.modCtx_only (by simp [hp]) _ _).trans (only_foldl fun u g => ?_)
  (repeat' split) <;> simp [hp]

/-! ### Issue -/

@[simp] theorem State.toReady_only (hp : Part.ctx0 ∈ ps ∧ Part.ctx1 ∈ ps) (n seq : Nat) (rows : List Nat) : Only ps s0 (s.toReady n seq rows) ↔ Only ps s0 s := by
  simp [State.toReady, hp]
@[simp] theorem State.countsFault_only (hp : Part.out ∈ ps ∧ Part.ctx0 ∈ ps ∧ Part.ctx1 ∈ ps ∧ Part.ledger ∈ ps ∧ Part.host ∈ ps ∧ Part.watch ∈ ps) (n q : Nat) (e : Fail) : Only ps s0 (s.countsFault n q e) ↔ Only ps s0 s := by
  simp [State.countsFault, hp, apply_ite (Only ps s0)]
@[simp] theorem State.denseRecord_only (hp : Part.out ∈ ps ∧ Part.ledger ∈ ps ∧ Part.host ∈ ps ∧ Part.watch ∈ ps) (n : Nat) (f : Flight) : Only ps s0 (s.denseRecord n f) ↔ Only ps s0 s := by
  simp only [State.denseRecord]; (repeat' split) <;> simp [hp]
@[simp] theorem State.issueMat_only (hp : Part.out ∈ ps ∧ Part.regs ∈ ps ∧ Part.ctx0 ∈ ps ∧ Part.ctx1 ∈ ps ∧ Part.squads ∈ ps ∧ Part.ledger ∈ ps ∧ Part.tele ∈ ps ∧ Part.host ∈ ps ∧ Part.watch ∈ ps) (n : Nat) (f : Flight) : Only ps s0 (s.issueMat n f) ↔ Only ps s0 s := by
  simp [State.issueMat, hp, apply_ite (Only ps s0), only_foldl]
@[simp] theorem State.startBlocks_only (hp : Part.squads ∈ ps) (n seq items : Nat) : Only ps s0 (s.startBlocks n seq items) ↔ Only ps s0 s := by
  simp [State.startBlocks, hp, apply_ite (Only ps s0), only_foldl]
@[simp] theorem State.issueBlocks_only (hp : Part.ctx0 ∈ ps ∧ Part.ctx1 ∈ ps ∧ Part.squads ∈ ps) (n seq items : Nat) : Only ps s0 (s.issueBlocks n seq items) ↔ Only ps s0 s := by
  simp [State.issueBlocks, hp]
@[simp] theorem State.readNorms_only (hp : Part.ctx0 ∈ ps ∧ Part.ctx1 ∈ ps) (n : Nat) (d : Descriptor) : Only ps s0 (s.readNorms n d) ↔ Only ps s0 s := by
  simp only [State.readNorms]; (repeat' split) <;> simp [hp]
@[simp] theorem State.issueUpdate_only (hp : Part.ctx0 ∈ ps ∧ Part.ctx1 ∈ ps ∧ Part.squads ∈ ps) (n : Nat) (f : Flight) : Only ps s0 (s.issueUpdate n f) ↔ Only ps s0 s := by
  simp only [State.issueUpdate]; (repeat' split) <;> simp [hp]
@[simp] theorem State.startEngine_only (hp : Part.out ∈ ps ∧ Part.regs ∈ ps ∧ Part.hbm ∈ ps ∧ Part.store ∈ ps ∧ Part.ctx0 ∈ ps ∧ Part.ctx1 ∈ ps ∧ Part.squads ∈ ps ∧ Part.chans ∈ ps ∧ Part.net ∈ ps ∧ Part.ledger ∈ ps ∧ Part.tele ∈ ps ∧ Part.host ∈ ps ∧ Part.watch ∈ ps) (n : Nat) (f : Flight) : Only ps s0 (s.startEngine n f) ↔ Only ps s0 s := by
  simp only [State.startEngine]; (repeat' split) <;> simp [hp, apply_ite (Only ps s0), only_foldl]
@[simp] theorem State.stampIssue_only (hp : Part.ctx0 ∈ ps ∧ Part.ctx1 ∈ ps) (n : Nat) (k : Cls) (f : Flight) : Only ps s0 (s.stampIssue n k f) ↔ Only ps s0 s := by
  simp [State.stampIssue, hp]
@[simp] theorem State.issueFlight_only (hp : Part.out ∈ ps ∧ Part.regs ∈ ps ∧ Part.hbm ∈ ps ∧ Part.store ∈ ps ∧ Part.ctx0 ∈ ps ∧ Part.ctx1 ∈ ps ∧ Part.squads ∈ ps ∧ Part.chans ∈ ps ∧ Part.net ∈ ps ∧ Part.ledger ∈ ps ∧ Part.tele ∈ ps ∧ Part.host ∈ ps ∧ Part.watch ∈ ps) (n : Nat) (k : Cls) (f : Flight) : Only ps s0 (s.issueFlight n k f) ↔ Only ps s0 s := by
  simp only [State.issueFlight]; (repeat' split) <;> simp [hp]
@[simp] theorem State.refuseUpdate_only (hp : Part.out ∈ ps ∧ Part.ctx0 ∈ ps ∧ Part.ctx1 ∈ ps ∧ Part.ledger ∈ ps ∧ Part.host ∈ ps ∧ Part.watch ∈ ps) (n : Nat) (f : Flight) (reason : Nat) : Only ps s0 (s.refuseUpdate n f reason) ↔ Only ps s0 s := by
  simp [State.refuseUpdate, hp]

/-! ### Block -/

@[simp] theorem State.freshBlock_only (hp : Part.chans ∈ ps) (n : Nat) (f : Flight) (idxs : List (List Nat)) : Only ps s0 (s.freshBlock n f idxs) ↔ Only ps s0 s := by
  unfold State.freshBlock
  refine only_foldl fun u x => ?_
  (repeat' split) <;> simp [hp]
@[simp] theorem State.engineFault_only (hp : Part.out ∈ ps ∧ Part.ctx0 ∈ ps ∧ Part.ctx1 ∈ ps ∧ Part.ledger ∈ ps ∧ Part.host ∈ ps ∧ Part.watch ∈ ps) (n sq q src : Nat) (e : Fail) (write : Bool) : Only ps s0 (s.engineFault n sq q src e write) ↔ Only ps s0 s := by
  simp [State.engineFault, hp, apply_ite (Only ps s0)]
@[simp] theorem State.putOut_only (hp : Part.hbm ∈ ps ∧ Part.store ∈ ps ∧ Part.ctx0 ∈ ps ∧ Part.ctx1 ∈ ps) (n : Nat) (f : Flight) (pos : Nat) (t : TensorRec) (xs : List (List Nat × Num)) : Only ps s0 (s.putOut n f pos t xs) ↔ Only ps s0 s := by
  simp [State.putOut, hp]
@[simp] theorem State.putCast_only (hp : Part.hbm ∈ ps ∧ Part.store ∈ ps ∧ Part.ctx0 ∈ ps ∧ Part.ctx1 ∈ ps) (n : Nat) (f : Flight) (src : TensorRec) (pos : Nat) (t : TensorRec) (xs : List (List Nat × Num)) : Only ps s0 (s.putCast n f src pos t xs) ↔ Only ps s0 s := by
  unfold State.putCast; dsimp only
  (repeat' split) <;> first
    | (simp [hp]; done)
    | exact only_foldl fun u x => by simp [hp]
@[simp] theorem State.vecBlock_only (hp : Part.hbm ∈ ps ∧ Part.store ∈ ps ∧ Part.ctx0 ∈ ps ∧ Part.ctx1 ∈ ps) (n : Nat) (f : Flight) (mb : Option (List ShortMsg)) (op : VecOp) (t : TensorRec) (idxs : List (List Nat)) : Only ps s0 (s.vecBlock n f mb op t idxs) ↔ Only ps s0 s := by
  simp only [State.vecBlock]; (repeat' split) <;> simp [hp]
@[simp] theorem State.dropStat_only (hp : Part.squads ∈ ps) (k : Nat) : Only ps s0 (s.dropStat k) ↔ Only ps s0 s := by
  simp [State.dropStat, hp, apply_ite (Only ps s0), only_foldl]
@[simp] theorem State.writeStat_only (hp : Part.hbm ∈ ps ∧ Part.squads ∈ ps) (sq n : Nat) (va : Option Nat) (p : Word × Word) : Only ps s0 (s.writeStat sq n va p) ↔ Only ps s0 s := by
  simp only [State.writeStat]; (repeat' split) <;> simp [hp]
@[simp] theorem State.rowStep_only (hp : Part.hbm ∈ ps ∧ Part.store ∈ ps ∧ Part.ctx0 ∈ ps ∧ Part.ctx1 ∈ ps ∧ Part.squads ∈ ps) (sq n : Nat) (f : Flight) (k : RowKind) (bw : Bool) (eps : Word) (xt t : TensorRec) (tail : List Nat) : Only ps s0 (s.rowStep sq n f k bw eps xt t tail) ↔ Only ps s0 s := by
  simp only [State.rowStep]; (repeat' split) <;> simp [hp]
@[simp] theorem State.rowBlock_only (hp : Part.hbm ∈ ps ∧ Part.store ∈ ps ∧ Part.ctx0 ∈ ps ∧ Part.ctx1 ∈ ps ∧ Part.squads ∈ ps) (sq n : Nat) (f : Flight) (k : RowKind) (bw : Bool) (eps : Word) (xt t : TensorRec) (b : Nat) : Only ps s0 (s.rowBlock sq n f k bw eps xt t b) ↔ Only ps s0 s := by
  simp [State.rowBlock, hp, apply_ite (Only ps s0), only_foldl]
@[simp] theorem State.gammaGrad_only (hp : Part.hbm ∈ ps ∧ Part.store ∈ ps ∧ Part.ctx0 ∈ ps ∧ Part.ctx1 ∈ ps) (sq n : Nat) (f : Flight) (k : RowKind) (eps : Word) (xt dt : TensorRec) : Only ps s0 (s.gammaGrad sq n f k eps xt dt) ↔ Only ps s0 s := by
  simp only [State.gammaGrad]; (repeat' split) <;> simp [hp]
@[simp] theorem State.commitBlock_only (hp : Part.out ∈ ps ∧ Part.dev ∈ ps ∧ Part.mram ∈ ps ∧ Part.ctx0 ∈ ps ∧ Part.ctx1 ∈ ps ∧ Part.squads ∈ ps ∧ Part.chans ∈ ps ∧ Part.net ∈ ps ∧ Part.ledger ∈ ps ∧ Part.host ∈ ps ∧ Part.watch ∈ ps) (n : Nat) (f : Flight) (b sq : Nat) : Only ps s0 (s.commitBlock n f b sq) ↔ Only ps s0 s := by
  simp [State.commitBlock, hp]
@[simp] theorem State.popPort_only (hp : Part.squads ∈ ps) (sq w : Nat) : Only ps s0 (s.popPort sq w) ↔ Only ps s0 s := by
  simp [State.popPort, hp]
@[simp] theorem State.commitVector_only (hp : Part.out ∈ ps ∧ Part.hbm ∈ ps ∧ Part.store ∈ ps ∧ Part.dev ∈ ps ∧ Part.mram ∈ ps ∧ Part.ctx0 ∈ ps ∧ Part.ctx1 ∈ ps ∧ Part.squads ∈ ps ∧ Part.chans ∈ ps ∧ Part.net ∈ ps ∧ Part.ledger ∈ ps ∧ Part.host ∈ ps ∧ Part.watch ∈ ps) (sq : Nat) : Only ps s0 (s.commitVector sq) ↔ Only ps s0 s := by
  simp only [State.commitVector]; (repeat' split) <;> simp [hp]
@[simp] theorem State.commitRow_only (hp : Part.out ∈ ps ∧ Part.hbm ∈ ps ∧ Part.store ∈ ps ∧ Part.dev ∈ ps ∧ Part.mram ∈ ps ∧ Part.ctx0 ∈ ps ∧ Part.ctx1 ∈ ps ∧ Part.squads ∈ ps ∧ Part.chans ∈ ps ∧ Part.net ∈ ps ∧ Part.ledger ∈ ps ∧ Part.host ∈ ps ∧ Part.watch ∈ ps) (sq : Nat) : Only ps s0 (s.commitRow sq) ↔ Only ps s0 s := by
  simp only [State.commitRow]; (repeat' split) <;> simp [hp]
@[simp] theorem State.freshUpd_only (hp : Part.chans ∈ ps) (n : Nat) (f : Flight) (en : ShardEntry) (first last : Nat) : Only ps s0 (s.freshUpd n f en first last) ↔ Only ps s0 s := by
  unfold State.freshUpd; dsimp only; refine only_foldl fun u x => ?_; (repeat' split) <;> first | exact Iff.rfl | (simp [hp]; done)
@[simp] theorem State.commitUpdate_only (hp : Part.out ∈ ps ∧ Part.hbm ∈ ps ∧ Part.store ∈ ps ∧ Part.dev ∈ ps ∧ Part.mram ∈ ps ∧ Part.ctx0 ∈ ps ∧ Part.ctx1 ∈ ps ∧ Part.squads ∈ ps ∧ Part.chans ∈ ps ∧ Part.net ∈ ps ∧ Part.ledger ∈ ps ∧ Part.host ∈ ps ∧ Part.watch ∈ ps) (sq : Nat) : Only ps s0 (s.commitUpdate sq) ↔ Only ps s0 s := by
  simp only [State.commitUpdate]; (repeat' split) <;> simp [hp]
@[simp] theorem State.land_only (hp : Part.hbm ∈ ps ∧ Part.store ∈ ps) (sq : Nat) (r : StreamRec) (k : Nat) (l : List Byte) : Only ps s0 (s.land sq r k l) ↔ Only ps s0 s := by
  simp only [State.land]; (repeat' split) <;> simp [hp]
@[simp] theorem State.fetchMove_only (hp : Part.hbm ∈ ps ∧ Part.store ∈ ps ∧ Part.chans ∈ ps) (sq : Nat) (r : StreamRec) : Only ps s0 (s.fetchMove sq r) ↔ Only ps s0 s := by
  simp [State.fetchMove, hp, apply_ite (Only ps s0)]
@[simp] theorem State.commitFetch_only (hp : Part.out ∈ ps ∧ Part.hbm ∈ ps ∧ Part.store ∈ ps ∧ Part.ctx0 ∈ ps ∧ Part.ctx1 ∈ ps ∧ Part.squads ∈ ps ∧ Part.chans ∈ ps ∧ Part.ledger ∈ ps ∧ Part.host ∈ ps ∧ Part.watch ∈ ps) (sq : Nat) : Only ps s0 (s.commitFetch sq) ↔ Only ps s0 s := by
  unfold State.commitFetch
  (repeat' split) <;> first
    | exact Iff.rfl
    | (simp [hp]; done)
    | (rename_i t h
       exact (by simp [hp] : Only ps s0 ((t.fetchMove sq _).popPort sq 0) ↔ Only ps s0 t).trans (State.regulate_only (by simp [hp]) _ _ _ h))
theorem State.ringRegulate_only (hp : Part.chans ∈ ps) (m : MatOp) (d : Descriptor) (dr : Drain) (t : State) (h : s.ringRegulate m d dr = some t) : Only ps s0 t ↔ Only ps s0 s := by
  unfold State.ringRegulate at h
  split at h
  · cases h; exact Iff.rfl
  · exact State.regulate_only hp _ _ _ h
@[simp] theorem State.freshTile_only (hp : Part.chans ∈ ps) (m : MatOp) (d : Descriptor) (dr : Drain) : Only ps s0 (s.freshTile m d dr) ↔ Only ps s0 s := by
  simp only [State.freshTile]; (repeat' split) <;> simp [hp]
@[simp] theorem State.verdict_only (hp : Part.out ∈ ps ∧ Part.hbm ∈ ps ∧ Part.store ∈ ps ∧ Part.dev ∈ ps ∧ Part.mram ∈ ps ∧ Part.ctx0 ∈ ps ∧ Part.ctx1 ∈ ps ∧ Part.squads ∈ ps ∧ Part.chans ∈ ps ∧ Part.net ∈ ps ∧ Part.ledger ∈ ps ∧ Part.host ∈ ps ∧ Part.watch ∈ ps) (sq : Nat) (m : MatOp) (d : Descriptor) (dr : Drain) (rf cf : List Nat) (det : Nat) : Only ps s0 (s.verdict sq m d dr rf cf det) ↔ Only ps s0 s := by
  simp [State.verdict, hp, apply_ite (Only ps s0)]

/-! ### LedgerCmds -/

@[simp] theorem State.hostRecord_only (hp : Part.out ∈ ps ∧ Part.ledger ∈ ps ∧ Part.host ∈ ps ∧ Part.watch ∈ ps) (o : Offer) : Only ps s0 (s.hostRecord o) ↔ Only ps s0 s := by
  simp only [State.hostRecord]; (repeat' split) <;> simp [hp]
@[simp] theorem State.clrStatus_only (hp : Part.out ∈ ps ∧ Part.ledger ∈ ps ∧ Part.host ∈ ps) (v : Nat) : Only ps s0 (s.clrStatus v) ↔ Only ps s0 s := by
  simp [State.clrStatus, hp]
@[simp] theorem State.startClear_only (hp : Part.out ∈ ps ∧ Part.mram ∈ ps ∧ Part.ledger ∈ ps ∧ Part.host ∈ ps ∧ Part.watch ∈ ps) : Only ps s0 (s.startClear) ↔ Only ps s0 s := by
  simp [State.startClear, hp]
@[simp] theorem State.endErase_only (hp : Part.out ∈ ps ∧ Part.mram ∈ ps ∧ Part.ledger ∈ ps ∧ Part.host ∈ ps ∧ Part.watch ∈ ps) (scope : Nat) : Only ps s0 (s.endErase scope) ↔ Only ps s0 s := by
  simp [State.endErase, hp]

/-! ### Bar2 -/

@[simp] theorem State.hostBytes_only (hp : Part.out ∈ ps ∧ Part.hbm ∈ ps ∧ Part.chans ∈ ps) (space : Nat) (y0 : Nat) (y1 : Nat) (y2 : List Byte) : Only ps s0 (s.hostBytes space y0 y1 y2) ↔ Only ps s0 s := by
  induction y0 generalizing s y1 y2 with
  | zero => exact Iff.rfl
  | succ k ih =>
    unfold State.hostBytes; dsimp only
    refine (ih _ _).trans ?_
    (repeat' split) <;> first | exact Iff.rfl | (simp [hp]; done)
@[simp] theorem State.hostTouched_only (hp : Part.ctx0 ∈ ps ∧ Part.ctx1 ∈ ps) (space off len : Nat) : Only ps s0 (s.hostTouched space off len) ↔ Only ps s0 s := by
  simp [State.hostTouched, hp]
@[simp] theorem State.serveBar2_only (hp : Part.out ∈ ps ∧ Part.hbm ∈ ps ∧ Part.ctx0 ∈ ps ∧ Part.ctx1 ∈ ps ∧ Part.chans ∈ ps) (r : Bar2Req) : Only ps s0 (s.serveBar2 r) ↔ Only ps s0 s := by
  simp only [State.serveBar2]; (repeat' split) <;> simp [hp]
@[simp] theorem State.serveOpen_only (hp : Part.out ∈ ps ∧ Part.hbm ∈ ps ∧ Part.ctx0 ∈ ps ∧ Part.ctx1 ∈ ps ∧ Part.chans ∈ ps ∧ Part.host ∈ ps) : Only ps s0 (s.serveOpen) ↔ Only ps s0 s := by
  simp [State.serveOpen, hp, apply_ite (Only ps s0), only_foldl]

/-! ### Preempt -/

@[simp] theorem State.urgentRuns_only (hp : Part.out ∈ ps ∧ Part.ctx0 ∈ ps ∧ Part.ctx1 ∈ ps ∧ Part.host ∈ ps) : Only ps s0 (s.urgentRuns) ↔ Only ps s0 s := by
  simp [State.urgentRuns, hp]
@[simp] theorem State.preempt_only (hp : Part.out ∈ ps ∧ Part.ctx0 ∈ ps ∧ Part.ctx1 ∈ ps ∧ Part.host ∈ ps) : Only ps s0 (s.preempt) ↔ Only ps s0 s := by
  simp [State.preempt, hp, apply_ite (Only ps s0)]
theorem State.finishStage_only (hp : Part.squads ∈ ps) (sq : Nat) (ctx seq index : Nat) (y0 : Nat) (y1 : Nat) (t : State) (h : s.finishStage sq ctx seq index y0 y1 = some t) : Only ps s0 t ↔ Only ps s0 s := by
  induction y0 generalizing s y1 with
  | zero => simp [State.finishStage] at h
  | succ n ih =>
    unfold State.finishStage at h
    dsimp only at h
    (repeat' split at h) <;> first
      | (simp at h; done)
      | exact State.issueCycle_only (by simp [hp]) _ _ _ h
      | (rename_i hi
         exact (ih _ h).trans (State.issueCycle_only (by simp [hp]) _ _ _ hi))
@[simp] theorem State.abandonStage_only (hp : Part.squads ∈ ps) (sq : Nat) (it : Item) : Only ps s0 (s.abandonStage sq it) ↔ Only ps s0 s := by
  simp only [State.abandonStage]; (repeat' split) <;> simp [hp]
@[simp] theorem State.stopItem_only (hp : Part.squads ∈ ps) (sq : Nat) (it : Item) : Only ps s0 (s.stopItem sq it) ↔ Only ps s0 s := by
  unfold State.stopItem
  generalize hr : (if (it.stageDone || decide (it.kHi ≤ it.kPos)) = true then some s else s.finishStage sq it.ctx it.seq it.index stageTurns s.arrLimit) = o
  cases o with
  | none => simp [hp]
  | some t =>
    have h : Only ps s0 t ↔ Only ps s0 s := by
      split at hr
      · cases hr; exact Iff.rfl
      · exact State.finishStage_only (by simp [hp]) _ _ _ _ _ _ _ hr
    dsimp only
    (repeat' split) <;> simp [hp, h]
@[simp] theorem State.resetWalkers_only (hp : Part.squads ∈ ps) (sq n : Nat) : Only ps s0 (s.resetWalkers sq n) ↔ Only ps s0 s := by
  unfold State.resetWalkers; dsimp only
  refine (only_foldl fun u j => ?_).trans (by simp [hp])
  split <;> simp [hp]
@[simp] theorem State.dropCopies_only (hp : Part.net ∈ ps) (n sq : Nat) : Only ps s0 (s.dropCopies n sq) ↔ Only ps s0 s := by
  simp [State.dropCopies, hp]
@[simp] theorem State.atRestart_only (hp : Part.out ∈ ps ∧ Part.ctx0 ∈ ps ∧ Part.ctx1 ∈ ps ∧ Part.squads ∈ ps ∧ Part.chans ∈ ps ∧ Part.net ∈ ps ∧ Part.ledger ∈ ps ∧ Part.host ∈ ps ∧ Part.watch ∈ ps) (n : Nat) (e : Engine) : Only ps s0 (s.atRestart n e) ↔ Only ps s0 s := by
  simp only [State.atRestart]; (repeat' split) <;> simp [hp, apply_ite (Only ps s0), only_foldl]
@[simp] theorem State.restartEngines_only (hp : Part.ctx0 ∈ ps ∧ Part.ctx1 ∈ ps ∧ Part.chans ∈ ps) (n : Nat) : Only ps s0 (s.restartEngines n) ↔ Only ps s0 s := by
  refine only_iff (fs := [.ctx0, .ctx1, .chans]) (fun p h => ?_) (by simpa using hp)
  unfold State.restartEngines
  cases p <;> first | exact absurd (by decide) h | simp [Part.same]
@[simp] theorem State.freshPage_only (hp : Part.chans ∈ ps) (space off : Nat) : Only ps s0 (s.freshPage space off) ↔ Only ps s0 s := by
  simp [State.freshPage, hp, apply_ite (Only ps s0)]
@[simp] theorem State.spillPage_only (hp : Part.hbm ∈ ps ∧ Part.chans ∈ ps) (q p : Nat) : Only ps s0 (s.spillPage q p) ↔ Only ps s0 s := by
  unfold State.spillPage
  cases s.copyAt q p true with
  | none => exact Iff.rfl
  | some e => exact (State.setHbm_only (by simp [hp]) _).trans (State.freshPage_only (by simp [hp]) _ _)
@[simp] theorem State.spillLatches_only (hp : Part.hbm ∈ ps ∧ Part.squads ∈ ps ∧ Part.chans ∈ ps) (q : Nat) : Only ps s0 (s.spillLatches q) ↔ Only ps s0 s := by
  unfold State.spillLatches
  split
  · exact Iff.rfl
  · rw [State.modSquad_only (by simp [hp])]
    refine only_foldl fun u e => ?_
    cases u.copyAt q _ true with
    | none => exact Iff.rfl
    | some x => exact (State.hbmWrite_only (by simp [hp]) _ _ _).trans (State.freshPage_only (by simp [hp]) _ _)
@[simp] theorem State.fillLatches_only (hp : Part.squads ∈ ps) (q : Nat) : Only ps s0 (s.fillLatches q) ↔ Only ps s0 s := by
  simp only [State.fillLatches]; (repeat' split) <;> simp [hp]
@[simp] theorem State.fillPage_only (hp : Part.store ∈ ps) (q p : Nat) : Only ps s0 (s.fillPage q p) ↔ Only ps s0 s := by
  unfold State.fillPage
  cases s.copyAt q p false with
  | none => exact Iff.rfl
  | some e => exact State.setStore_only hp _
@[simp] theorem State.eachSquad_only (hp : Part.squads ∈ ps) (f : Squad → Squad) : Only ps s0 (s.eachSquad f) ↔ Only ps s0 s := by
  simp [State.eachSquad, hp, apply_ite (Only ps s0), only_foldl]
@[simp] theorem State.spillFault_only (hp : Part.out ∈ ps ∧ Part.ctx0 ∈ ps ∧ Part.ctx1 ∈ ps ∧ Part.squads ∈ ps ∧ Part.chans ∈ ps ∧ Part.ledger ∈ ps ∧ Part.host ∈ ps ∧ Part.watch ∈ ps) (r : FlogRec) : Only ps s0 (s.spillFault r) ↔ Only ps s0 s := by
  simp [State.spillFault, hp]
@[simp] theorem State.spillAll_only (hp : Part.hbm ∈ ps ∧ Part.squads ∈ ps ∧ Part.chans ∈ ps) : Only ps s0 (s.spillAll) ↔ Only ps s0 s := by
  simp [State.spillAll, hp, apply_ite (Only ps s0), only_foldl]
@[simp] theorem State.fillAll_only (hp : Part.store ∈ ps ∧ Part.squads ∈ ps) : Only ps s0 (s.fillAll) ↔ Only ps s0 s := by
  simp [State.fillAll, hp, apply_ite (Only ps s0), only_foldl]

end Sys2Proof.Machine
end

