-- ==== Sys2Proof/Laws/OnlyDevice.lean ====
section
/-! SUPPORT. Which parts the operations of contexts, memory control, links, network, faults, time, power, boot, host and registers may change. -/

namespace Sys2Proof.Machine

variable {ps : List Part} {s0 s : State}

/-! ### Contexts -/

@[simp] theorem State.rootAbort_only (hp : Part.out ∈ ps ∧ Part.ctx0 ∈ ps ∧ Part.ctx1 ∈ ps) (n : Nat) : Only ps s0 (s.rootAbort n) ↔ Only ps s0 s := by
  simp only [State.rootAbort]; (repeat' split) <;> simp [hp]
@[simp] theorem State.hostLose_only (hp : Part.out ∈ ps ∧ Part.ctx0 ∈ ps ∧ Part.ctx1 ∈ ps ∧ Part.squads ∈ ps ∧ Part.chans ∈ ps ∧ Part.ledger ∈ ps ∧ Part.host ∈ ps ∧ Part.watch ∈ ps) (n cause : Nat) : Only ps s0 (s.hostLose n cause) ↔ Only ps s0 s := by
  simp [State.hostLose, hp]
@[simp] theorem State.unhalt_only (hp : Part.ctx0 ∈ ps ∧ Part.ctx1 ∈ ps) (n q : Nat) : Only ps s0 (s.unhalt n q) ↔ Only ps s0 s := by
  simp [State.unhalt, hp]
@[simp] theorem State.skipFlight_only (hp : Part.out ∈ ps ∧ Part.regs ∈ ps ∧ Part.ctx0 ∈ ps ∧ Part.ctx1 ∈ ps ∧ Part.squads ∈ ps ∧ Part.ledger ∈ ps ∧ Part.tele ∈ ps ∧ Part.host ∈ ps ∧ Part.watch ∈ ps) (n : Nat) (f : Flight) : Only ps s0 (s.skipFlight n f) ↔ Only ps s0 s := by
  simp [State.skipFlight, hp, apply_ite (Only ps s0)]
@[simp] theorem State.skipAny_only (hp : Part.out ∈ ps ∧ Part.regs ∈ ps ∧ Part.ctx0 ∈ ps ∧ Part.ctx1 ∈ ps ∧ Part.squads ∈ ps ∧ Part.ledger ∈ ps ∧ Part.tele ∈ ps ∧ Part.host ∈ ps ∧ Part.watch ∈ ps ∧ Part.flightSeq ∈ ps) (n q : Nat) : Only ps s0 (s.skipAny n q) ↔ Only ps s0 s := by
  simp only [State.skipAny]; (repeat' split) <;> simp [hp]
@[simp] theorem State.dropColl_only (hp : Part.ctx0 ∈ ps ∧ Part.ctx1 ∈ ps ∧ Part.net ∈ ps) (n : Nat) (f : Flight) : Only ps s0 (s.dropColl n f) ↔ Only ps s0 s := by
  simp only [State.dropColl]; (repeat' split) <;> simp [hp]
@[simp] theorem State.dropDma_only (hp : Part.chans ∈ ps) (seq : Nat) : Only ps s0 (s.dropDma seq) ↔ Only ps s0 s := by
  refine only_iff (fs := [.chans]) (fun p h => ?_) (by simpa using hp)
  unfold State.dropDma
  cases p <;> first | rfl | exact absurd (by decide) h
@[simp] theorem State.skipIssued_only (hp : Part.out ∈ ps ∧ Part.regs ∈ ps ∧ Part.ctx0 ∈ ps ∧ Part.ctx1 ∈ ps ∧ Part.squads ∈ ps ∧ Part.chans ∈ ps ∧ Part.net ∈ ps ∧ Part.ledger ∈ ps ∧ Part.tele ∈ ps ∧ Part.host ∈ ps ∧ Part.watch ∈ ps) (n : Nat) (f : Flight) : Only ps s0 (s.skipIssued n f) ↔ Only ps s0 s := by
  simp [State.skipIssued, hp]
@[simp] theorem State.restartClock_only (hp : Part.ctx0 ∈ ps ∧ Part.ctx1 ∈ ps) (n : Nat) (f : Flight) : Only ps s0 (s.restartClock n f) ↔ Only ps s0 s := by
  simp [State.restartClock, hp]
@[simp] theorem State.retryCommit_only (hp : Part.ctx0 ∈ ps ∧ Part.ctx1 ∈ ps) (n : Nat) : Only ps s0 (s.retryCommit n) ↔ Only ps s0 s := by
  simp only [State.retryCommit]; (repeat' split) <;> simp [hp]
@[simp] theorem State.retryUpdate_only (hp : Part.out ∈ ps ∧ Part.ctx0 ∈ ps ∧ Part.ctx1 ∈ ps ∧ Part.ledger ∈ ps ∧ Part.host ∈ ps ∧ Part.watch ∈ ps) (n q : Nat) : Only ps s0 (s.retryUpdate n q) ↔ Only ps s0 s := by
  simp only [State.retryUpdate]; (repeat' split) <;> simp [hp]

/-! ### MemCtl -/

@[simp] theorem State.lossLimits_only (hp : Part.out ∈ ps ∧ Part.dev ∈ ps ∧ Part.ctx0 ∈ ps ∧ Part.ctx1 ∈ ps ∧ Part.squads ∈ ps ∧ Part.chans ∈ ps ∧ Part.ledger ∈ ps ∧ Part.host ∈ ps ∧ Part.watch ∈ ps) (c : Nat) : Only ps s0 (s.lossLimits c) ↔ Only ps s0 s := by
  simp [State.lossLimits, hp, apply_ite (Only ps s0)]
@[simp] theorem State.spillHit_only (hp : Part.out ∈ ps ∧ Part.ctx0 ∈ ps ∧ Part.ctx1 ∈ ps ∧ Part.squads ∈ ps ∧ Part.chans ∈ ps ∧ Part.ledger ∈ ps ∧ Part.host ∈ ps ∧ Part.watch ∈ ps) (k : Nat) : Only ps s0 (s.spillHit k) ↔ Only ps s0 s := by
  simp [State.spillHit, hp, apply_ite (Only ps s0)]
@[simp] theorem State.teleLoss_only (hp : Part.tele ∈ ps) (k : Nat) : Only ps s0 (s.teleLoss k) ↔ Only ps s0 s := by
  simp [State.teleLoss, hp]
@[simp] theorem State.replayDelivery_only (hp : Part.ctx0 ∈ ps ∧ Part.ctx1 ∈ ps ∧ Part.squads ∈ ps ∧ Part.net ∈ ps) (g sq : Nat) : Only ps s0 (s.replayDelivery g sq) ↔ Only ps s0 s := by
  simp only [State.replayDelivery]; (repeat' split) <;> simp [hp]
@[simp] theorem State.losePc_only (hp : Part.out ∈ ps ∧ Part.hbm ∈ ps ∧ Part.dev ∈ ps ∧ Part.mram ∈ ps ∧ Part.ctx0 ∈ ps ∧ Part.ctx1 ∈ ps ∧ Part.squads ∈ ps ∧ Part.chans ∈ ps ∧ Part.net ∈ ps ∧ Part.ledger ∈ ps ∧ Part.tele ∈ ps ∧ Part.host ∈ ps ∧ Part.watch ∈ ps) (c p : Nat) : Only ps s0 (s.losePc c p) ↔ Only ps s0 s := by
  simp [State.losePc, hp, apply_ite (Only ps s0), only_foldl]
@[simp] theorem State.retirePc_only (hp : Part.out ∈ ps ∧ Part.dev ∈ ps ∧ Part.mram ∈ ps ∧ Part.ctx0 ∈ ps ∧ Part.ctx1 ∈ ps ∧ Part.squads ∈ ps ∧ Part.chans ∈ ps ∧ Part.ledger ∈ ps ∧ Part.host ∈ ps ∧ Part.watch ∈ ps) (c p cause : Nat) : Only ps s0 (s.retirePc c p cause) ↔ Only ps s0 s := by
  simp [State.retirePc, hp, apply_ite (Only ps s0)]
@[simp] theorem State.markLine_only (hp : Part.out ∈ ps ∧ Part.dev ∈ ps ∧ Part.mram ∈ ps ∧ Part.ctx0 ∈ ps ∧ Part.ctx1 ∈ ps ∧ Part.squads ∈ ps ∧ Part.chans ∈ ps ∧ Part.ledger ∈ ps ∧ Part.host ∈ ps ∧ Part.watch ∈ ps) (c p line : Nat) : Only ps s0 (s.markLine c p line) ↔ Only ps s0 s := by
  simp only [State.markLine]; (repeat' split) <;> simp [hp]
@[simp] theorem State.queueRow_only (hp : Part.out ∈ ps ∧ Part.dev ∈ ps ∧ Part.mram ∈ ps ∧ Part.ctx0 ∈ ps ∧ Part.ctx1 ∈ ps ∧ Part.squads ∈ ps ∧ Part.chans ∈ ps ∧ Part.ledger ∈ ps ∧ Part.host ∈ ps ∧ Part.watch ∈ ps) (c p row : Nat) : Only ps s0 (s.queueRow c p row) ↔ Only ps s0 s := by
  simp [State.queueRow, hp, apply_ite (Only ps s0)]
@[simp] theorem State.countLine_only (hp : Part.out ∈ ps ∧ Part.dev ∈ ps ∧ Part.mram ∈ ps ∧ Part.ctx0 ∈ ps ∧ Part.ctx1 ∈ ps ∧ Part.squads ∈ ps ∧ Part.chans ∈ ps ∧ Part.ledger ∈ ps ∧ Part.host ∈ ps ∧ Part.watch ∈ ps) (c p line : Nat) : Only ps s0 (s.countLine c p line) ↔ Only ps s0 s := by
  simp [State.countLine, hp, apply_ite (Only ps s0)]
@[simp] theorem State.countRow_only (hp : Part.out ∈ ps ∧ Part.dev ∈ ps ∧ Part.mram ∈ ps ∧ Part.ctx0 ∈ ps ∧ Part.ctx1 ∈ ps ∧ Part.squads ∈ ps ∧ Part.chans ∈ ps ∧ Part.ledger ∈ ps ∧ Part.host ∈ ps ∧ Part.watch ∈ ps) (c p row line : Nat) : Only ps s0 (s.countRow c p row line) ↔ Only ps s0 s := by
  simp [State.countRow, hp, apply_ite (Only ps s0)]
@[simp] theorem State.corrected_only (hp : Part.out ∈ ps ∧ Part.dev ∈ ps ∧ Part.mram ∈ ps ∧ Part.ctx0 ∈ ps ∧ Part.ctx1 ∈ ps ∧ Part.squads ∈ ps ∧ Part.chans ∈ ps ∧ Part.ledger ∈ ps ∧ Part.host ∈ ps ∧ Part.watch ∈ ps) (c p space off : Nat) (syms : List Nat) : Only ps s0 (s.corrected c p space off syms) ↔ Only ps s0 s := by
  simp [State.corrected, hp, apply_ite (Only ps s0), only_foldl]
@[simp] theorem State.countUc_only (hp : Part.out ∈ ps ∧ Part.dev ∈ ps ∧ Part.ctx0 ∈ ps ∧ Part.ctx1 ∈ ps ∧ Part.squads ∈ ps ∧ Part.chans ∈ ps ∧ Part.ledger ∈ ps ∧ Part.host ∈ ps ∧ Part.watch ∈ ps) (c : Nat) : Only ps s0 (s.countUc c) ↔ Only ps s0 s := by
  simp [State.countUc, hp, apply_ite (Only ps s0)]
@[simp] theorem State.poisonBurst_only (hp : Part.out ∈ ps ∧ Part.hbm ∈ ps ∧ Part.dev ∈ ps ∧ Part.mram ∈ ps ∧ Part.ctx0 ∈ ps ∧ Part.ctx1 ∈ ps ∧ Part.squads ∈ ps ∧ Part.chans ∈ ps ∧ Part.net ∈ ps ∧ Part.ledger ∈ ps ∧ Part.tele ∈ ps ∧ Part.host ∈ ps ∧ Part.watch ∈ ps) (space off : Nat) (scrub : Bool) : Only ps s0 (s.poisonBurst space off scrub) ↔ Only ps s0 s := by
  simp [State.poisonBurst, hp, apply_ite (Only ps s0)]
@[simp] theorem State.chanData_only (hp : Part.out ∈ ps ∧ Part.regs ∈ ps ∧ Part.ctx0 ∈ ps ∧ Part.ctx1 ∈ ps ∧ Part.chans ∈ ps ∧ Part.ledger ∈ ps ∧ Part.host ∈ ps ∧ Part.watch ∈ ps) (c d : Nat) (write : Bool) : Only ps s0 (s.chanData c d write) ↔ Only ps s0 s := by
  simp only [State.chanData]; (repeat' split) <;> simp [hp]
@[simp] theorem State.indicate_only (hp : Part.out ∈ ps ∧ Part.regs ∈ ps ∧ Part.ctx0 ∈ ps ∧ Part.ctx1 ∈ ps ∧ Part.squads ∈ ps ∧ Part.chans ∈ ps ∧ Part.ledger ∈ ps ∧ Part.host ∈ ps ∧ Part.watch ∈ ps) (req : Requester) (ch : Nat) (write : Bool) : Only ps s0 (s.indicate req ch write) ↔ Only ps s0 s := by
  simp only [State.indicate]; (repeat' split) <;> simp [hp]
@[simp] theorem State.storeBytes_only (hp : Part.hbm ∈ ps) (space off : Nat) (l : List Byte) : Only ps s0 (s.storeBytes space off l) ↔ Only ps s0 s := by
  simp only [State.storeBytes]; (repeat' split) <;> simp [hp]
@[simp] theorem State.storeBurst_only (hp : Part.hbm ∈ ps ∧ Part.chans ∈ ps) (space off : Nat) (l : List Byte) : Only ps s0 (s.storeBurst space off l) ↔ Only ps s0 s := by
  simp only [State.storeBurst]; (repeat' split) <;> simp [hp]
@[simp] theorem State.deliverBurst_only (hp : Part.out ∈ ps ∧ Part.hbm ∈ ps) (r : BurstReq) (data : List Byte) (fixed : Bool) : Only ps s0 (s.deliverBurst r data fixed) ↔ Only ps s0 s := by
  simp only [State.deliverBurst]; (repeat' split) <;> simp [hp]
@[simp] theorem State.readFor_only (hp : Part.out ∈ ps ∧ Part.regs ∈ ps ∧ Part.hbm ∈ ps ∧ Part.dev ∈ ps ∧ Part.mram ∈ ps ∧ Part.ctx0 ∈ ps ∧ Part.ctx1 ∈ ps ∧ Part.squads ∈ ps ∧ Part.chans ∈ ps ∧ Part.ledger ∈ ps ∧ Part.host ∈ ps ∧ Part.watch ∈ ps) (r : BurstReq) (errs : List (Nat × Byte)) : Only ps s0 (s.readFor r errs) ↔ Only ps s0 s := by
  simp only [State.readFor]; (repeat' split) <;> simp [hp]
@[simp] theorem State.perform_only (hp : Part.out ∈ ps ∧ Part.regs ∈ ps ∧ Part.hbm ∈ ps ∧ Part.dev ∈ ps ∧ Part.mram ∈ ps ∧ Part.ctx0 ∈ ps ∧ Part.ctx1 ∈ ps ∧ Part.squads ∈ ps ∧ Part.chans ∈ ps ∧ Part.ledger ∈ ps ∧ Part.host ∈ ps ∧ Part.watch ∈ ps) (r : BurstReq) (errs : List (Nat × Byte)) : Only ps s0 (s.perform r errs) ↔ Only ps s0 s := by
  simp only [State.perform]; (repeat' split) <;> simp [hp]
@[simp] theorem State.request_only (hp : Part.out ∈ ps ∧ Part.regs ∈ ps ∧ Part.hbm ∈ ps ∧ Part.dev ∈ ps ∧ Part.mram ∈ ps ∧ Part.ctx0 ∈ ps ∧ Part.ctx1 ∈ ps ∧ Part.squads ∈ ps ∧ Part.chans ∈ ps ∧ Part.ledger ∈ ps ∧ Part.host ∈ ps ∧ Part.watch ∈ ps) (r : BurstReq) (errs : List (Nat × Byte)) : Only ps s0 (s.request r errs) ↔ Only ps s0 s := by
  simp [State.request, hp, apply_ite (Only ps s0)]
@[simp] theorem State.fillTokens_only (hp : Part.chans ∈ ps) (c : Nat) : Only ps s0 (s.fillTokens c) ↔ Only ps s0 s := by
  simp [State.fillTokens, hp, apply_ite (Only ps s0), only_foldl]
@[simp] theorem State.scrubNext_only (hp : Part.mram ∈ ps ∧ Part.chans ∈ ps) (c : Nat) : Only ps s0 (s.scrubNext c) ↔ Only ps s0 s := by
  simp [State.scrubNext, hp]
@[simp] theorem State.release__only (hp : Part.out ∈ ps ∧ Part.regs ∈ ps ∧ Part.hbm ∈ ps ∧ Part.dev ∈ ps ∧ Part.mram ∈ ps ∧ Part.ctx0 ∈ ps ∧ Part.ctx1 ∈ ps ∧ Part.squads ∈ ps ∧ Part.chans ∈ ps ∧ Part.ledger ∈ ps ∧ Part.host ∈ ps ∧ Part.watch ∈ ps) (c p : Nat) : Only ps s0 (s.release_ c p) ↔ Only ps s0 s := by
  simp [State.release_, hp, apply_ite (Only ps s0), only_foldl]
@[simp] theorem State.rebuilt_only (hp : Part.hbm ∈ ps ∧ Part.dev ∈ ps ∧ Part.chans ∈ ps) : Only ps s0 (s.rebuilt) ↔ Only ps s0 s := by
  simp [State.rebuilt, hp, apply_ite (Only ps s0), only_foldl]

/-! ### Links -/

@[simp] theorem State.linkTick_only (hp : Part.out ∈ ps ∧ Part.links ∈ ps) (n : Nat) : Only ps s0 (s.linkTick n) ↔ Only ps s0 s := by
  simp only [State.linkTick]; (repeat' split) <;> simp [hp]
@[simp] theorem State.lctl_only (hp : Part.out ∈ ps ∧ Part.links ∈ ps) (n : Nat) (body : List Byte) : Only ps s0 (s.lctl n body) ↔ Only ps s0 s := by
  simp [State.lctl, hp]
@[simp] theorem State.sendOn_only (hp : Part.links ∈ ps) (n : Nat) (p : Packet) : Only ps s0 (s.sendOn n p) ↔ Only ps s0 s := by
  simp [State.sendOn, hp]
@[simp] theorem State.bulkRead_only (hp : Part.net ∈ ps) (p : Packet) : Only ps s0 (s.bulkRead p) ↔ Only ps s0 s := by
  simp [State.bulkRead, hp]
@[simp] theorem State.deliver_only (hp : Part.out ∈ ps ∧ Part.hbm ∈ ps ∧ Part.store ∈ ps ∧ Part.ctx0 ∈ ps ∧ Part.ctx1 ∈ ps ∧ Part.squads ∈ ps ∧ Part.chans ∈ ps ∧ Part.net ∈ ps ∧ Part.ledger ∈ ps ∧ Part.host ∈ ps ∧ Part.watch ∈ ps) (p : Packet) : Only ps s0 (s.deliver p) ↔ Only ps s0 s := by
  simp only [State.deliver]; (repeat' split) <;> simp [hp]
@[simp] theorem State.dropPkt_only (hp : Part.out ∈ ps ∧ Part.net ∈ ps ∧ Part.ledger ∈ ps ∧ Part.host ∈ ps ∧ Part.watch ∈ ps) (arr : Option Nat) (p : Packet) (cause : Nat) : Only ps s0 (s.dropPkt arr p cause) ↔ Only ps s0 s := by
  simp [State.dropPkt, hp]
@[simp] theorem State.freeRx_only (hp : Part.links ∈ ps) (arr : Option Nat) (p : Packet) : Only ps s0 (s.freeRx arr p) ↔ Only ps s0 s := by
  simp only [State.freeRx]; (repeat' split) <;> simp [hp]
@[simp] theorem State.abortAll_only (hp : Part.out ∈ ps ∧ Part.ctx0 ∈ ps ∧ Part.ctx1 ∈ ps ∧ Part.net ∈ ps ∧ Part.ledger ∈ ps ∧ Part.host ∈ ps ∧ Part.watch ∈ ps) (c n : Nat) (g : Tag) : Only ps s0 (s.abortAll c n g) ↔ Only ps s0 s := by
  simp [State.abortAll, hp]
@[simp] theorem State.failPort_only (hp : Part.out ∈ ps ∧ Part.ctx0 ∈ ps ∧ Part.ctx1 ∈ ps ∧ Part.links ∈ ps ∧ Part.net ∈ ps ∧ Part.ledger ∈ ps ∧ Part.host ∈ ps ∧ Part.watch ∈ ps) (n : Nat) : Only ps s0 (s.failPort n) ↔ Only ps s0 s := by
  simp [State.failPort, hp, apply_ite (Only ps s0), only_foldl]
@[simp] theorem State.trainLink_only (hp : Part.links ∈ ps) (n : Nat) : Only ps s0 (s.trainLink n) ↔ Only ps s0 s := by
  simp [State.trainLink, hp]
@[simp] theorem State.retrain_only (hp : Part.links ∈ ps) (n : Nat) : Only ps s0 (s.retrain n) ↔ Only ps s0 s := by
  simp [State.retrain, hp]
@[simp] theorem State.failLane_only (hp : Part.out ∈ ps ∧ Part.links ∈ ps ∧ Part.ledger ∈ ps ∧ Part.host ∈ ps ∧ Part.watch ∈ ps) (n k : Nat) : Only ps s0 (s.failLane n k) ↔ Only ps s0 s := by
  simp [State.failLane, hp, apply_ite (Only ps s0)]
@[simp] theorem State.afterLanes_only (hp : Part.out ∈ ps ∧ Part.ctx0 ∈ ps ∧ Part.ctx1 ∈ ps ∧ Part.links ∈ ps ∧ Part.net ∈ ps ∧ Part.ledger ∈ ps ∧ Part.host ∈ ps ∧ Part.watch ∈ ps) (n : Nat) : Only ps s0 (s.afterLanes n) ↔ Only ps s0 s := by
  simp [State.afterLanes, hp, apply_ite (Only ps s0)]
@[simp] theorem State.badClass_only (hp : Part.out ∈ ps ∧ Part.ledger ∈ ps ∧ Part.host ∈ ps ∧ Part.watch ∈ ps) (n : Nat) : Only ps s0 (s.badClass n) ↔ Only ps s0 s := by
  simp [State.badClass, hp]
@[simp] theorem State.badFlit_only (hp : Part.out ∈ ps ∧ Part.links ∈ ps) (n : Nat) (bad : Bool) : Only ps s0 (s.badFlit n bad) ↔ Only ps s0 s := by
  simp [State.badFlit, hp, apply_ite (Only ps s0)]
@[simp] theorem State.takePacket_only (hp : Part.links ∈ ps ∧ Part.net ∈ ps) (n v : Nat) : Only ps s0 (s.takePacket n v) ↔ Only ps s0 s := by
  simp only [State.takePacket]; (repeat' split) <;> simp [hp]
@[simp] theorem State.goodFlit_only (hp : Part.out ∈ ps ∧ Part.links ∈ ps ∧ Part.net ∈ ps) (n : Nat) (f : Flit) : Only ps s0 (s.goodFlit n f) ↔ Only ps s0 s := by
  simp only [State.goodFlit]; (repeat' split) <;> simp [hp]

/-! ### Network -/

@[simp] theorem State.arrive_only (hp : Part.out ∈ ps ∧ Part.hbm ∈ ps ∧ Part.store ∈ ps ∧ Part.ctx0 ∈ ps ∧ Part.ctx1 ∈ ps ∧ Part.squads ∈ ps ∧ Part.chans ∈ ps ∧ Part.links ∈ ps ∧ Part.net ∈ ps ∧ Part.ledger ∈ ps ∧ Part.host ∈ ps ∧ Part.watch ∈ ps) (x : Transit) : Only ps s0 (s.arrive x) ↔ Only ps s0 s := by
  simp only [State.arrive]; (repeat' split) <;> simp [hp]
@[simp] theorem State.stand_only (hp : Part.out ∈ ps ∧ Part.hbm ∈ ps ∧ Part.store ∈ ps ∧ Part.ctx0 ∈ ps ∧ Part.ctx1 ∈ ps ∧ Part.squads ∈ ps ∧ Part.chans ∈ ps ∧ Part.links ∈ ps ∧ Part.net ∈ ps ∧ Part.ledger ∈ ps ∧ Part.host ∈ ps ∧ Part.watch ∈ ps) (x : Transit) : Only ps s0 (s.stand x) ↔ Only ps s0 s := by
  simp [State.stand, hp, apply_ite (Only ps s0)]
@[simp] theorem State.route_only (hp : Part.out ∈ ps ∧ Part.hbm ∈ ps ∧ Part.store ∈ ps ∧ Part.ctx0 ∈ ps ∧ Part.ctx1 ∈ ps ∧ Part.squads ∈ ps ∧ Part.chans ∈ ps ∧ Part.links ∈ ps ∧ Part.net ∈ ps ∧ Part.ledger ∈ ps ∧ Part.host ∈ ps ∧ Part.watch ∈ ps) (x : Transit) : Only ps s0 (s.route x) ↔ Only ps s0 s := by
  simp only [State.route]; (repeat' split) <;> simp [hp]
@[simp] theorem State.reroute_only (hp : Part.out ∈ ps ∧ Part.hbm ∈ ps ∧ Part.store ∈ ps ∧ Part.ctx0 ∈ ps ∧ Part.ctx1 ∈ ps ∧ Part.squads ∈ ps ∧ Part.chans ∈ ps ∧ Part.links ∈ ps ∧ Part.net ∈ ps ∧ Part.ledger ∈ ps ∧ Part.host ∈ ps ∧ Part.watch ∈ ps) (c : Nat) : Only ps s0 (s.reroute c) ↔ Only ps s0 s := by
  simp [State.reroute, hp, apply_ite (Only ps s0), only_foldl]
@[simp] theorem State.offered_only (hp : Part.net ∈ ps) (c at_ dest : Nat) (o : Option MemPacket) : Only ps s0 (s.offered c at_ dest o) ↔ Only ps s0 s := by
  simp only [State.offered]; (repeat' split) <;> simp [hp]
@[simp] theorem State.laneOut_only (hp : Part.out ∈ ps ∧ Part.hbm ∈ ps ∧ Part.store ∈ ps ∧ Part.dev ∈ ps ∧ Part.ctx0 ∈ ps ∧ Part.ctx1 ∈ ps ∧ Part.squads ∈ ps ∧ Part.chans ∈ ps ∧ Part.links ∈ ps ∧ Part.net ∈ ps ∧ Part.ledger ∈ ps ∧ Part.host ∈ ps ∧ Part.watch ∈ ps) (c j lane : Nat) : Only ps s0 (s.laneOut c j lane) ↔ Only ps s0 s := by
  simp [State.laneOut, hp, apply_ite (Only ps s0), only_foldl]
@[simp] theorem State.setGroup_only (hp : Part.net ∈ ps) (g : Nat) (v : McGroup) : Only ps s0 (s.setGroup g v) ↔ Only ps s0 s := by
  simp [State.setGroup, hp]
@[simp] theorem State.detachLate_only (hp : Part.out ∈ ps ∧ Part.net ∈ ps ∧ Part.ledger ∈ ps ∧ Part.host ∈ ps ∧ Part.watch ∈ ps) (g : Nat) : Only ps s0 (s.detachLate g) ↔ Only ps s0 s := by
  simp [State.detachLate, hp, apply_ite (Only ps s0), only_foldl]
@[simp] theorem State.landAll_only (hp : Part.hbm ∈ ps ∧ Part.store ∈ ps ∧ Part.squads ∈ ps) (sq : Nat) (y0 : Nat) (y1 : Nat) (y2 : List Byte) : Only ps s0 (s.landAll sq y0 y1 y2) ↔ Only ps s0 s := by
  induction y0 generalizing s y1 y2 with
  | zero => exact Iff.rfl
  | succ k ih =>
    unfold State.landAll
    split
    · exact Iff.rfl
    · exact Iff.rfl
    · dsimp only
      split
      · simp [hp]
      · exact (ih _ _).trans (by simp [hp])
@[simp] theorem State.takeCopy_only (hp : Part.hbm ∈ ps ∧ Part.store ∈ ps ∧ Part.squads ∈ ps ∧ Part.net ∈ ps) (g : Nat) (r : McRecv) (l : List Byte) : Only ps s0 (s.takeCopy g r l) ↔ Only ps s0 s := by
  simp [State.takeCopy, hp, apply_ite (Only ps s0)]
@[simp] theorem State.openGroup_only (hp : Part.net ∈ ps) (g : Nat) : Only ps s0 (s.openGroup g) ↔ Only ps s0 s := by
  simp [State.openGroup, hp, apply_ite (Only ps s0)]

/-! ### BringUp -/

@[simp] theorem State.dropField_only (hp : Part.mram ∈ ps) (sq : Nat) : Only ps s0 (s.dropField sq) ↔ Only ps s0 s := by
  simp [State.dropField, hp, apply_ite (Only ps s0)]
@[simp] theorem State.loadSquad_only (hp : Part.out ∈ ps ∧ Part.dev ∈ ps ∧ Part.mram ∈ ps ∧ Part.ctx0 ∈ ps ∧ Part.ctx1 ∈ ps ∧ Part.squads ∈ ps ∧ Part.chans ∈ ps ∧ Part.net ∈ ps ∧ Part.ledger ∈ ps ∧ Part.host ∈ ps ∧ Part.watch ∈ ps) (l : Option Nat) (sq : Nat) : Only ps s0 (s.loadSquad l sq) ↔ Only ps s0 s := by
  simp [State.loadSquad, hp, apply_ite (Only ps s0)]
@[simp] theorem State.repairRow_only (hp : Part.free ∈ ps ∧ Part.out ∈ ps ∧ Part.dev ∈ ps ∧ Part.mram ∈ ps ∧ Part.ctx0 ∈ ps ∧ Part.ctx1 ∈ ps ∧ Part.squads ∈ ps ∧ Part.chans ∈ ps ∧ Part.ledger ∈ ps ∧ Part.host ∈ ps ∧ Part.watch ∈ ps) (c : Nat) (ok : Bool) (e : Nat × Nat × Nat) : Only ps s0 (s.repairRow c ok e) ↔ Only ps s0 s := by
  simp [State.repairRow, hp, apply_ite (Only ps s0)]
@[simp] theorem State.seamSteps_only (hp : Part.out ∈ ps ∧ Part.hbm ∈ ps ∧ Part.store ∈ ps ∧ Part.dev ∈ ps ∧ Part.ctx0 ∈ ps ∧ Part.ctx1 ∈ ps ∧ Part.squads ∈ ps ∧ Part.chans ∈ ps ∧ Part.links ∈ ps ∧ Part.net ∈ ps ∧ Part.ledger ∈ ps ∧ Part.host ∈ ps ∧ Part.watch ∈ ps) (c : Nat) (b : BringUp) : Only ps s0 (s.seamSteps c b) ↔ Only ps s0 s := by
  simp [State.seamSteps, hp, apply_ite (Only ps s0), only_foldl]
@[simp] theorem State.stackSteps_only (hp : Part.free ∈ ps ∧ Part.out ∈ ps ∧ Part.hbm ∈ ps ∧ Part.dev ∈ ps ∧ Part.mram ∈ ps ∧ Part.ctx0 ∈ ps ∧ Part.ctx1 ∈ ps ∧ Part.squads ∈ ps ∧ Part.chans ∈ ps ∧ Part.net ∈ ps ∧ Part.ledger ∈ ps ∧ Part.tele ∈ ps ∧ Part.host ∈ ps ∧ Part.watch ∈ ps) (c : Nat) (b : BringUp) : Only ps s0 (s.stackSteps c b) ↔ Only ps s0 s := by
  unfold State.stackSteps; dsimp only
  refine (State.lossLimits_only (by simp [hp]) _).trans ((State.setMram_only (by simp [hp]) _).trans ((only_foldl fun u x => by simp [hp]).trans
    ((State.setMram_only (by simp [hp]) _).trans ((only_foldl fun u x => ?_).trans (only_foldl fun u x => by simp [hp])))))
  split <;> simp [hp]
@[simp] theorem State.blankChan_only (hp : Part.chans ∈ ps) (c : Nat) : Only ps s0 (s.blankChan c) ↔ Only ps s0 s := by
  simp [State.blankChan, hp]
@[simp] theorem State.rebuildChan_only (hp : Part.out ∈ ps ∧ Part.hbm ∈ ps ∧ Part.dev ∈ ps ∧ Part.chans ∈ ps ∧ Part.ledger ∈ ps ∧ Part.host ∈ ps ∧ Part.watch ∈ ps) (c : Nat) : Only ps s0 (s.rebuildChan c) ↔ Only ps s0 s := by
  simp [State.rebuildChan, hp, apply_ite (Only ps s0), only_foldl]
@[simp] theorem State.resetChan_only (hp : Part.free ∈ ps ∧ Part.out ∈ ps ∧ Part.regs ∈ ps ∧ Part.latchA ∈ ps ∧ Part.latchB ∈ ps ∧ Part.hbm ∈ ps ∧ Part.store ∈ ps ∧ Part.dev ∈ ps ∧ Part.mram ∈ ps ∧ Part.ctx0 ∈ ps ∧ Part.ctx1 ∈ ps ∧ Part.squads ∈ ps ∧ Part.chans ∈ ps ∧ Part.links ∈ ps ∧ Part.net ∈ ps ∧ Part.ledger ∈ ps ∧ Part.tele ∈ ps ∧ Part.host ∈ ps ∧ Part.watch ∈ ps) (c : Nat) (b : BringUp) : Only ps s0 (s.resetChan c b) ↔ Only ps s0 s := by
  have h0 : Only ps s0 ({ s.setRegs (s.regs.filter fun e => keepReg c e.1) with
            latchA := s.latchA.filter (fun e => keepReg c e.1), latchB := s.latchB.filter (fun e => keepReg c e.1),
            store := s.store.filter fun e => e.1 / 2 ^ 28 != c } : State) ↔ Only ps s0 s := by
    refine only_iff (fs := [.regs, .latchA, .latchB, .store]) (fun p h => ?_) (by simp [hp])
    cases p <;> first | rfl | exact absurd (by decide) h
  unfold State.resetChan; dsimp only
  split
  · rw [State.setMode_only (by simp [hp]), State.rebuildChan_only (by simp [hp]), State.stackSteps_only (by simp [hp]),
      State.seamSteps_only (by simp [hp]), State.setNet_only (by simp [hp]), only_foldl (fun u x => by simp [hp]), State.blankChan_only (by simp [hp])]
    exact h0
  · rw [State.rebuildChan_only (by simp [hp]), State.stackSteps_only (by simp [hp]),
      State.seamSteps_only (by simp [hp]), State.setNet_only (by simp [hp]), only_foldl (fun u x => by simp [hp]), State.blankChan_only (by simp [hp])]
    exact h0

/-! ### Faults -/

@[simp] theorem State.logWork_only (hp : Part.out ∈ ps ∧ Part.ledger ∈ ps ∧ Part.host ∈ ps ∧ Part.watch ∈ ps) (ch seq : Nat) (cls : Cls) (moved : Bool) : Only ps s0 (s.logWork ch seq cls moved) ↔ Only ps s0 s := by
  simp [State.logWork, hp]
@[simp] theorem State.squadFault_only (hp : Part.out ∈ ps ∧ Part.dev ∈ ps ∧ Part.mram ∈ ps ∧ Part.ctx0 ∈ ps ∧ Part.ctx1 ∈ ps ∧ Part.squads ∈ ps ∧ Part.chans ∈ ps ∧ Part.net ∈ ps ∧ Part.ledger ∈ ps ∧ Part.host ∈ ps ∧ Part.watch ∈ ps) (n sq : Nat) (f : Flight) (item : Nat) : Only ps s0 (s.squadFault n sq f item).2 ↔ Only ps s0 s := by
  simp only [State.squadFault]; (repeat' split) <;> simp [hp]
@[simp] theorem State.redoItem_only (hp : Part.ctx0 ∈ ps ∧ Part.ctx1 ∈ ps ∧ Part.squads ∈ ps) (sq : Nat) (it : Item) : Only ps s0 (s.redoItem sq it) ↔ Only ps s0 s := by
  simp only [State.redoItem]; (repeat' split) <;> simp [hp]
@[simp] theorem State.faultItem_only (hp : Part.out ∈ ps ∧ Part.dev ∈ ps ∧ Part.mram ∈ ps ∧ Part.ctx0 ∈ ps ∧ Part.ctx1 ∈ ps ∧ Part.squads ∈ ps ∧ Part.chans ∈ ps ∧ Part.net ∈ ps ∧ Part.ledger ∈ ps ∧ Part.host ∈ ps ∧ Part.watch ∈ ps) (sq : Nat) (it : Item) : Only ps s0 (s.faultItem sq it) ↔ Only ps s0 s := by
  simp only [State.faultItem]; (repeat' split) <;> simp [hp]
@[simp] theorem State.faultBlock_only (hp : Part.out ∈ ps ∧ Part.dev ∈ ps ∧ Part.mram ∈ ps ∧ Part.ctx0 ∈ ps ∧ Part.ctx1 ∈ ps ∧ Part.squads ∈ ps ∧ Part.chans ∈ ps ∧ Part.net ∈ ps ∧ Part.ledger ∈ ps ∧ Part.host ∈ ps ∧ Part.watch ∈ ps) (n sq : Nat) (f : Flight) (b : Nat) : Only ps s0 (s.faultBlock n sq f b) ↔ Only ps s0 s := by
  simp [State.faultBlock, hp]
@[simp] theorem State.dmaDisable_only (hp : Part.out ∈ ps ∧ Part.regs ∈ ps ∧ Part.ctx0 ∈ ps ∧ Part.ctx1 ∈ ps ∧ Part.chans ∈ ps ∧ Part.ledger ∈ ps ∧ Part.host ∈ ps ∧ Part.watch ∈ ps) (c d : Nat) : Only ps s0 (s.dmaDisable c d) ↔ Only ps s0 s := by
  simp only [State.dmaDisable]; (repeat' split) <;> simp [hp]
@[simp] theorem State.faultDma_only (hp : Part.out ∈ ps ∧ Part.regs ∈ ps ∧ Part.ctx0 ∈ ps ∧ Part.ctx1 ∈ ps ∧ Part.squads ∈ ps ∧ Part.chans ∈ ps ∧ Part.ledger ∈ ps ∧ Part.host ∈ ps ∧ Part.watch ∈ ps) (c d : Nat) : Only ps s0 (s.faultDma c d) ↔ Only ps s0 s := by
  simp only [State.faultDma]; (repeat' split) <;> simp [hp]
@[simp] theorem State.engineFails_only (hp : Part.out ∈ ps ∧ Part.regs ∈ ps ∧ Part.dev ∈ ps ∧ Part.mram ∈ ps ∧ Part.ctx0 ∈ ps ∧ Part.ctx1 ∈ ps ∧ Part.squads ∈ ps ∧ Part.chans ∈ ps ∧ Part.net ∈ ps ∧ Part.ledger ∈ ps ∧ Part.host ∈ ps ∧ Part.watch ∈ ps) (e : Engine) : Only ps s0 (s.engineFails e) ↔ Only ps s0 s := by
  simp only [State.engineFails]; (repeat' split) <;> simp [hp]
@[simp] theorem State.takePending_only (hp : Part.out ∈ ps ∧ Part.dev ∈ ps ∧ Part.ctx0 ∈ ps ∧ Part.ctx1 ∈ ps ∧ Part.squads ∈ ps ∧ Part.chans ∈ ps ∧ Part.ledger ∈ ps ∧ Part.host ∈ ps ∧ Part.watch ∈ ps) : Only ps s0 (s.takePending) ↔ Only ps s0 s := by
  simp only [State.takePending]; (repeat' split) <;> simp [hp]

/-! ### Time -/

@[simp] theorem State.flag242_only (hp : Part.ctx0 ∈ ps ∧ Part.ctx1 ∈ ps) (v : Bool) : Only ps s0 (s.flag242 v) ↔ Only ps s0 s := by
  simp [State.flag242, hp]
@[simp] theorem State.firstTime_only (hp : Part.out ∈ ps ∧ Part.regs ∈ ps ∧ Part.clk ∈ ps ∧ Part.dev ∈ ps ∧ Part.ctx0 ∈ ps ∧ Part.ctx1 ∈ ps ∧ Part.ledger ∈ ps ∧ Part.host ∈ ps ∧ Part.watch ∈ ps) (st : W64) : Only ps s0 (s.firstTime st) ↔ Only ps s0 s := by
  simp [State.firstTime, hp]
@[simp] theorem State.forgetTime_only (hp : Part.clk ∈ ps ∧ Part.ctx0 ∈ ps ∧ Part.ctx1 ∈ ps) : Only ps s0 (s.forgetTime) ↔ Only ps s0 s := by
  simp [State.forgetTime, hp]
@[simp] theorem State.correct_only (hp : Part.out ∈ ps ∧ Part.regs ∈ ps ∧ Part.clk ∈ ps ∧ Part.ctx0 ∈ ps ∧ Part.ctx1 ∈ ps ∧ Part.ledger ∈ ps ∧ Part.host ∈ ps ∧ Part.watch ∈ ps) (e : Int) : Only ps s0 (s.correct e) ↔ Only ps s0 s := by
  simp [State.correct, hp, apply_ite (Only ps s0)]
@[simp] theorem State.takeWhistle_only (hp : Part.out ∈ ps ∧ Part.regs ∈ ps ∧ Part.clk ∈ ps ∧ Part.dev ∈ ps ∧ Part.ctx0 ∈ ps ∧ Part.ctx1 ∈ ps ∧ Part.ledger ∈ ps ∧ Part.host ∈ ps ∧ Part.watch ∈ ps) (est : Nat) (hops : Nat) : Only ps s0 (s.takeWhistle est hops) ↔ Only ps s0 s := by
  simp only [State.takeWhistle]; (repeat' split) <;> simp [hp]
@[simp] theorem State.sendWhistle_only (hp : Part.links ∈ ps) (w : Whistle) : Only ps s0 (s.sendWhistle w) ↔ Only ps s0 s := by
  simp [State.sendWhistle, hp, apply_ite (Only ps s0), only_foldl]
@[simp] theorem State.forwardWhistle_only (hp : Part.links ∈ ps) (w : Whistle) (wp residence : Nat) : Only ps s0 (s.forwardWhistle w wp residence) ↔ Only ps s0 s := by
  simp [State.forwardWhistle, hp, apply_ite (Only ps s0)]
@[simp] theorem State.tick_only (hp : Part.out ∈ ps ∧ Part.clk ∈ ps ∧ Part.dev ∈ ps ∧ Part.ctx0 ∈ ps ∧ Part.ctx1 ∈ ps ∧ Part.chans ∈ ps ∧ Part.links ∈ ps ∧ Part.net ∈ ps) : Only ps s0 (s.tick) ↔ Only ps s0 s := by
  simp [State.tick, hp, apply_ite (Only ps s0), only_foldl]

/-! ### Power -/

@[simp] theorem State.deviceReset_only (hp : Part.out ∈ ps ∧ Part.regs ∈ ps ∧ Part.latchA ∈ ps ∧ Part.latchB ∈ ps ∧ Part.hbm ∈ ps ∧ Part.store ∈ ps ∧ Part.clk ∈ ps ∧ Part.dev ∈ ps ∧ Part.mram ∈ ps ∧ Part.ctx0 ∈ ps ∧ Part.ctx1 ∈ ps ∧ Part.squads ∈ ps ∧ Part.chans ∈ ps ∧ Part.links ∈ ps ∧ Part.net ∈ ps ∧ Part.ledger ∈ ps ∧ Part.tele ∈ ps ∧ Part.host ∈ ps ∧ Part.pwr ∈ ps ∧ Part.watch ∈ ps ∧ Part.flightSeq ∈ ps) : Only ps s0 (s.deviceReset) ↔ Only ps s0 s := by
  refine only_iff (fs := [.out, .regs, .latchA, .latchB, .hbm, .store, .clk, .dev, .mram, .ctx0, .ctx1, .squads, .chans, .links, .net, .ledger, .tele, .host, .pwr, .watch, .flightSeq]) (fun p h => ?_) (by simpa using hp)
  cases p <;> first | rfl | exact absurd (by decide) h
@[simp] theorem State.writeHoldup_only (hp : Part.out ∈ ps ∧ Part.ledger ∈ ps ∧ Part.host ∈ ps ∧ Part.watch ∈ ps) (r : Rec) : Only ps s0 (s.writeHoldup r) ↔ Only ps s0 s := by
  simp [State.writeHoldup, hp]
@[simp] theorem State.darkRecord_only (hp : Part.out ∈ ps ∧ Part.ledger ∈ ps ∧ Part.host ∈ ps ∧ Part.watch ∈ ps) (trigger : Nat) : Only ps s0 (s.darkRecord trigger) ↔ Only ps s0 s := by
  simp [State.darkRecord, hp, apply_ite (Only ps s0)]
@[simp] theorem State.holdupHeld_only (hp : Part.out ∈ ps ∧ Part.ledger ∈ ps ∧ Part.host ∈ ps ∧ Part.watch ∈ ps) : Only ps s0 (s.holdupHeld) ↔ Only ps s0 s := by
  simp [State.holdupHeld, hp, apply_ite (Only ps s0), only_foldl]
@[simp] theorem State.powerDown_only (hp : Part.out ∈ ps ∧ Part.regs ∈ ps ∧ Part.latchA ∈ ps ∧ Part.latchB ∈ ps ∧ Part.hbm ∈ ps ∧ Part.store ∈ ps ∧ Part.clk ∈ ps ∧ Part.dev ∈ ps ∧ Part.mram ∈ ps ∧ Part.ctx0 ∈ ps ∧ Part.ctx1 ∈ ps ∧ Part.squads ∈ ps ∧ Part.chans ∈ ps ∧ Part.links ∈ ps ∧ Part.net ∈ ps ∧ Part.ledger ∈ ps ∧ Part.tele ∈ ps ∧ Part.host ∈ ps ∧ Part.pwr ∈ ps ∧ Part.watch ∈ ps ∧ Part.flightSeq ∈ ps) (trigger : Nat) : Only ps s0 (s.powerDown trigger) ↔ Only ps s0 s := by
  unfold State.powerDown; dsimp only; split <;> simp [hp]
@[simp] theorem State.setTemps_only (hp : Part.pwr ∈ ps) (t : Temps) : Only ps s0 (s.setTemps t) ↔ Only ps s0 s := by
  simp [State.setTemps, hp]

/-! ### Boot -/

@[simp] theorem State.bootFailed_only (hp : Part.out ∈ ps ∧ Part.dev ∈ ps ∧ Part.mram ∈ ps ∧ Part.ledger ∈ ps ∧ Part.host ∈ ps ∧ Part.watch ∈ ps) (code : Nat) : Only ps s0 (s.bootFailed code) ↔ Only ps s0 s := by
  simp [State.bootFailed, hp]
@[simp] theorem State.startArrays_only (hp : Part.out ∈ ps ∧ Part.dev ∈ ps ∧ Part.mram ∈ ps ∧ Part.ctx0 ∈ ps ∧ Part.ctx1 ∈ ps ∧ Part.squads ∈ ps ∧ Part.chans ∈ ps ∧ Part.net ∈ ps ∧ Part.ledger ∈ ps ∧ Part.host ∈ ps ∧ Part.watch ∈ ps) : Only ps s0 (s.startArrays) ↔ Only ps s0 s := by
  simp [State.startArrays, hp, apply_ite (Only ps s0), only_foldl]
@[simp] theorem State.startStacks_only (hp : Part.free ∈ ps ∧ Part.out ∈ ps ∧ Part.hbm ∈ ps ∧ Part.dev ∈ ps ∧ Part.mram ∈ ps ∧ Part.ctx0 ∈ ps ∧ Part.ctx1 ∈ ps ∧ Part.squads ∈ ps ∧ Part.chans ∈ ps ∧ Part.net ∈ ps ∧ Part.ledger ∈ ps ∧ Part.tele ∈ ps ∧ Part.host ∈ ps ∧ Part.watch ∈ ps) (found : List BringUp) : Only ps s0 (s.startStacks found) ↔ Only ps s0 s := by
  simp [State.startStacks, hp, apply_ite (Only ps s0), only_foldl]
@[simp] theorem State.startLinks_only (hp : Part.out ∈ ps ∧ Part.hbm ∈ ps ∧ Part.store ∈ ps ∧ Part.dev ∈ ps ∧ Part.ctx0 ∈ ps ∧ Part.ctx1 ∈ ps ∧ Part.squads ∈ ps ∧ Part.chans ∈ ps ∧ Part.links ∈ ps ∧ Part.net ∈ ps ∧ Part.ledger ∈ ps ∧ Part.host ∈ ps ∧ Part.watch ∈ ps) (found : List BringUp) : Only ps s0 (s.startLinks found) ↔ Only ps s0 s := by
  simp [State.startLinks, hp, apply_ite (Only ps s0), only_foldl]
@[simp] theorem State.startReady_only (hp : Part.out ∈ ps ∧ Part.dev ∈ ps ∧ Part.mram ∈ ps ∧ Part.ctx0 ∈ ps ∧ Part.ctx1 ∈ ps ∧ Part.squads ∈ ps ∧ Part.chans ∈ ps ∧ Part.ledger ∈ ps ∧ Part.host ∈ ps ∧ Part.watch ∈ ps) : Only ps s0 (s.startReady) ↔ Only ps s0 s := by
  simp only [State.startReady]; (repeat' split) <;> simp [hp]

/-! ### HostPort -/

@[simp] theorem State.bar2Go_only (hp : Part.out ∈ ps ∧ Part.hbm ∈ ps ∧ Part.ctx0 ∈ ps ∧ Part.ctx1 ∈ ps ∧ Part.chans ∈ ps ∧ Part.host ∈ ps) (r : Bar2Req) : Only ps s0 (s.bar2Go r) ↔ Only ps s0 s := by
  simp [State.bar2Go, hp, apply_ite (Only ps s0)]
@[simp] theorem State.stopHostSide_only (hp : Part.out ∈ ps ∧ Part.regs ∈ ps ∧ Part.ctx0 ∈ ps ∧ Part.ctx1 ∈ ps ∧ Part.chans ∈ ps ∧ Part.ledger ∈ ps ∧ Part.host ∈ ps ∧ Part.watch ∈ ps) (c d : Nat) : Only ps s0 (s.stopHostSide c d) ↔ Only ps s0 s := by
  simp only [State.stopHostSide]; (repeat' split) <;> simp [hp]
@[simp] theorem State.leavePort_only (hp : Part.out ∈ ps ∧ Part.regs ∈ ps ∧ Part.hbm ∈ ps ∧ Part.ctx0 ∈ ps ∧ Part.ctx1 ∈ ps ∧ Part.chans ∈ ps ∧ Part.ledger ∈ ps ∧ Part.host ∈ ps ∧ Part.watch ∈ ps) : Only ps s0 (s.leavePort) ↔ Only ps s0 s := by
  unfold State.leavePort; dsimp only
  rw [only_foldl (fun u x => only_foldl fun u x => by simp [hp]), only_foldl]
  · simp [hp]
  · intro u x; (repeat' split) <;> simp [hp]
@[simp] theorem State.movePending_only (hp : Part.out ∈ ps ∧ Part.host ∈ ps) : Only ps s0 (s.movePending) ↔ Only ps s0 s := by
  simp [State.movePending, hp, apply_ite (Only ps s0), only_foldl]

/-! ### Board -/

@[simp] theorem State.sample_only (hp : Part.free ∈ ps ∧ Part.pwr ∈ ps) (w : Nat) : Only ps s0 (s.sample w) ↔ Only ps s0 s := by
  simp [State.sample, hp, apply_ite (Only ps s0)]
@[simp] theorem State.loadIr_only (hp : Part.jtag ∈ ps) (ir : Nat) (drives : Bool) : Only ps s0 (s.loadIr ir drives) ↔ Only ps s0 s := by
  simp [State.loadIr, hp, apply_ite (Only ps s0)]
@[simp] theorem State.scanOut_only (hp : Part.free ∈ ps ∧ Part.out ∈ ps) : Only ps s0 (s.scanOut) ↔ Only ps s0 s := by
  simp [State.scanOut, hp]
@[simp] theorem State.scanIf_only (hp : Part.free ∈ ps ∧ Part.out ∈ ps) : Only ps s0 (s.scanIf) ↔ Only ps s0 s := by
  simp [State.scanIf, hp, apply_ite (Only ps s0)]
@[simp] theorem State.smb_only (hp : Part.out ∈ ps) (l : List Byte) : Only ps s0 (s.smb l) ↔ Only ps s0 s := by
  simp [State.smb, hp]
@[simp] theorem State.readings_only (hp : Part.free ∈ ps) (on : Bool) (y0 : Nat) : Only ps s0 (s.readings on y0).2 ↔ Only ps s0 s := by
  induction y0 generalizing s with
  | zero => exact Iff.rfl
  | succ n ih => exact (ih (s := s.draw.2)).trans (by simp [hp])

/-! ### Registers -/

@[simp] theorem State.unmask_only (hp : Part.out ∈ ps ∧ Part.regs ∈ ps ∧ Part.host ∈ ps) (page old : Nat) : Only ps s0 (s.unmask page old) ↔ Only ps s0 s := by
  simp [State.unmask, hp, apply_ite (Only ps s0)]
@[simp] theorem State.keep_only (hp : Part.out ∈ ps ∧ Part.regs ∈ ps ∧ Part.mram ∈ ps ∧ Part.ctx0 ∈ ps ∧ Part.ctx1 ∈ ps ∧ Part.ledger ∈ ps ∧ Part.tele ∈ ps ∧ Part.host ∈ ps) (a v : Nat) : Only ps s0 (s.keep a v) ↔ Only ps s0 s := by
  simp only [State.keep]; (repeat' split) <;> simp [hp]
theorem State.writeWord_only (hp : Part.out ∈ ps ∧ Part.regs ∈ ps ∧ Part.mram ∈ ps ∧ Part.ctx0 ∈ ps ∧ Part.ctx1 ∈ ps ∧ Part.ledger ∈ ps ∧ Part.tele ∈ ps ∧ Part.host ∈ ps) (a v : Nat) (t : State) (h : s.writeWord a v = some t) : Only ps s0 t ↔ Only ps s0 s := by
  unfold State.writeWord at h; dsimp only at h
  split at h
  · simp at h
  · simp only [Option.some.injEq] at h; subst h
    (repeat' split) <;> simp [hp]
theorem State.writeWords_only (hp : Part.out ∈ ps ∧ Part.regs ∈ ps ∧ Part.mram ∈ ps ∧ Part.ctx0 ∈ ps ∧ Part.ctx1 ∈ ps ∧ Part.ledger ∈ ps ∧ Part.tele ∈ ps ∧ Part.host ∈ ps) (a v : Nat) (wide : Bool) (t : State) (h : s.writeWords a v wide = some t) : Only ps s0 t ↔ Only ps s0 s := by
  unfold State.writeWords at h
  split at h
  · simp at h
  · rename_i x hx
    split at h
    · exact (State.writeWord_only hp _ _ _ h).trans (State.writeWord_only hp _ _ _ hx)
    · cases h; exact State.writeWord_only hp _ _ _ hx
@[simp] theorem State.forceRaise_only (hp : Part.out ∈ ps ∧ Part.host ∈ ps) (page i : Nat) : Only ps s0 (s.forceRaise page i) ↔ Only ps s0 s := by
  simp only [State.forceRaise]; (repeat' split) <;> simp [hp]
@[simp] theorem State.readWord_only (hp : Part.latchA ∈ ps ∧ Part.latchB ∈ ps) (port : Bool) (a : Nat) : Only ps s0 (s.readWord port a).2 ↔ Only ps s0 s := by
  refine only_iff (fs := [.latchA, .latchB]) (fun p h => ?_) (by simp [hp])
  unfold State.readWord; dsimp only
  cases p <;> (repeat' split) <;> first | rfl | exact absurd (by decide) h
@[simp] theorem State.touch_only (hp : Part.free ∈ ps ∧ Part.pwr ∈ ps) (a : Nat) : Only ps s0 (s.touch a) ↔ Only ps s0 s := by
  simp only [State.touch]; (repeat' split) <;> simp [hp]
@[simp] theorem State.restartPeak_only (hp : Part.pwr ∈ ps) (a : Nat) : Only ps s0 (s.restartPeak a) ↔ Only ps s0 s := by
  simp [State.restartPeak, hp, apply_ite (Only ps s0)]

/-! ### Translate -/

@[simp] theorem State.cacheFill_only (hp : Part.chans ∈ ps) (n c k va lg entry : Nat) : Only ps s0 (s.cacheFill n c k va lg entry) ↔ Only ps s0 s := by
  simp [State.cacheFill, hp]
@[simp] theorem State.walkFault_only (hp : Part.out ∈ ps ∧ Part.regs ∈ ps ∧ Part.ctx0 ∈ ps ∧ Part.ctx1 ∈ ps ∧ Part.squads ∈ ps ∧ Part.chans ∈ ps ∧ Part.ledger ∈ ps ∧ Part.host ∈ ps ∧ Part.watch ∈ ps) (n : Nat) (req : Requester) (va : W64) (write : Bool) (ftype level : Nat) : Only ps s0 (s.walkFault n req va write ftype level) ↔ Only ps s0 s := by
  simp only [State.walkFault]; (repeat' split) <;> simp [hp]

end Sys2Proof.Machine
end

