-- ==== Sys2Proof/Laws/FrameCore.lean ====
section
/-! SUPPORT. The queue and the memories under the shared operations: records, degradation, walkers, arrays, telemetry, collectives, tile checks. -/

namespace Sys2Proof.Machine

variable {s : State}

/-! ### Ops -/

@[simp] theorem State.setRg_mem (a v : Nat) : (s.setRg a v).mem = s.mem :=
  mem_of_only ((State.setRg_only (ps := [.regs]) (by decide) a v).mpr .refl) (by decide)
@[simp] theorem State.raise_mem (v : Nat) : (s.raise v).mem = s.mem :=
  mem_of_only ((State.raise_only (ps := [.out, .host]) (by decide) v).mpr .refl) (by decide)
@[simp] theorem State.event_mem (page bit v : Nat) : (s.event page bit v).mem = s.mem :=
  mem_of_only ((State.event_only (ps := [.out, .regs, .host]) (by decide) page bit v).mpr .refl) (by decide)
@[simp] theorem State.pageFault_mem (page i : Nat) : (s.pageFault page i).mem = s.mem :=
  mem_of_only ((State.pageFault_only (ps := [.out, .regs, .host]) (by decide) page i).mpr .refl) (by decide)
@[simp] theorem State.lockedWrite_mem (page : Nat) : (s.lockedWrite page).mem = s.mem :=
  mem_of_only ((State.lockedWrite_only (ps := [.out, .regs, .host]) (by decide) page).mpr .refl) (by decide)
@[simp] theorem State.badCommand_mem (page : Nat) : (s.badCommand page).mem = s.mem :=
  mem_of_only ((State.badCommand_only (ps := [.out, .regs, .host]) (by decide) page).mpr .refl) (by decide)

/-! ### Mmu -/

@[simp] theorem State.setTokens_mem (c part : Nat) (v : Int) : (s.setTokens c part v).mem = s.mem :=
  mem_of_only ((State.setTokens_only (ps := [.chans]) (by decide) c part v).mpr .refl) (by decide)
theorem State.spendBurst_mem (c part : Nat) (t : State) (h : s.spendBurst c part = some t) : t.mem = s.mem :=
  mem_of_only ((State.spendBurst_only (ps := [.chans]) (by decide) c part t h).mpr .refl) (by decide)
theorem State.regulate_mem (part : Nat) (bursts : List (Nat × Nat)) (t : State) (h : s.regulate part bursts = some t) : t.mem = s.mem :=
  mem_of_only ((State.regulate_only (ps := [.chans]) (by decide) part bursts t h).mpr .refl) (by decide)
@[simp] theorem State.rewrite_mem (pl : List (Nat × Nat)) : (s.rewrite pl).mem = s.mem :=
  mem_of_only ((State.rewrite_only (ps := [.chans]) (by decide) pl).mpr .refl) (by decide)

/-! ### Records -/

@[simp] theorem State.alert_mem (i : Nat) : (s.alert i).mem = s.mem :=
  mem_of_only ((State.alert_only (ps := [.watch]) (by decide) i).mpr .refl) (by decide)
@[simp] theorem State.dropVector_mem : (s.dropVector).mem = s.mem :=
  mem_of_only ((State.dropVector_only (ps := [.out, .host]) (by decide)).mpr .refl) (by decide)
@[simp] theorem State.dropRec_mem (sev : Nat) : (s.dropRec sev).mem = s.mem :=
  mem_of_only ((State.dropRec_only (ps := [.out, .ledger, .host]) (by decide) sev).mpr .refl) (by decide)
@[simp] theorem State.fatalLow_mem (before : Nat) : (s.fatalLow before).mem = s.mem :=
  mem_of_only ((State.fatalLow_only (ps := [.out, .host]) (by decide) before).mpr .refl) (by decide)
@[simp] theorem State.fatalWritten_mem : (s.fatalWritten).mem = s.mem :=
  mem_of_only ((State.fatalWritten_only (ps := [.out, .host, .watch]) (by decide)).mpr .refl) (by decide)
@[simp] theorem State.writeRec_mem (r : Rec) : (s.writeRec r).mem = s.mem :=
  mem_of_only ((State.writeRec_only (ps := [.out, .ledger, .host, .watch]) (by decide) r).mpr .refl) (by decide)
@[simp] theorem State.holdRec_mem (ch : Nat) (r : Rec) : (s.holdRec ch r).mem = s.mem :=
  mem_of_only ((State.holdRec_only (ps := [.out, .ledger, .host]) (by decide) ch r).mpr .refl) (by decide)
@[simp] theorem State.admitRec_mem (ch : Nat) (r : Rec) : (s.admitRec ch r).mem = s.mem :=
  mem_of_only ((State.admitRec_only (ps := [.out, .ledger, .host, .watch]) (by decide) ch r).mpr .refl) (by decide)
@[simp] theorem State.record_mem (ch : Nat) (o : Offer) : (s.record ch o).mem = s.mem :=
  mem_of_only ((State.record_only (ps := [.out, .ledger, .host, .watch]) (by decide) ch o).mpr .refl) (by decide)
@[simp] theorem State.log_mem (ch code sev cls srcType srcInst : Nat) (payload : List Byte) : (s.log ch code sev cls srcType srcInst payload).mem = s.mem :=
  mem_of_only ((State.log_only (ps := [.out, .ledger, .host, .watch]) (by decide) ch code sev cls srcType srcInst payload).mpr .refl) (by decide)
@[simp] theorem State.flushHeld_mem : (s.flushHeld).mem = s.mem :=
  mem_of_only ((State.flushHeld_only (ps := [.out, .ledger, .host, .watch]) (by decide)).mpr .refl) (by decide)
@[simp] theorem State.advancePcycle_mem : (s.advancePcycle).mem = s.mem :=
  mem_of_only ((State.advancePcycle_only (ps := [.dev, .mram]) (by decide)).mpr .refl) (by decide)
@[simp] theorem State.flushWaiting_mem : (s.flushWaiting).mem = s.mem :=
  mem_of_only ((State.flushWaiting_only (ps := [.out, .ledger, .host, .watch]) (by decide)).mpr .refl) (by decide)
@[simp] theorem State.flushErase_mem : (s.flushErase).mem = s.mem :=
  mem_of_only ((State.flushErase_only (ps := [.out, .ledger, .host, .watch]) (by decide)).mpr .refl) (by decide)

/-! ### Degrade -/

@[simp] theorem State.setMode_mem (new : Mode) (trigger chan : Nat) : (s.setMode new trigger chan).mem = s.mem :=
  mem_of_only ((State.setMode_only (ps := [.out, .dev, .ledger, .host, .watch]) (by decide) new trigger chan).mpr .refl) (by decide)
@[simp] theorem State.stopEngines_mem (n : Nat) : (s.stopEngines n).mem = s.mem :=
  mem_of_only ((State.stopEngines_only (ps := [.squads, .chans]) (by decide) n).mpr .refl) (by decide)
@[simp] theorem State.abortTags_mem (n : Nat) : (s.abortTags n).mem = s.mem :=
  mem_of_only ((State.abortTags_only (ps := [.out]) (by decide) n).mpr .refl) (by decide)
@[simp] theorem State.loseCtx_mem (n cause q qindex seq : Nat) (keep : Bool) : (s.loseCtx n cause q qindex seq keep).mem = s.mem :=
  mem_of_only ((State.loseCtx_only (ps := [.out, .ctx0, .ctx1, .squads, .chans, .ledger, .host, .watch]) (by decide) n cause q qindex seq keep).mpr .refl) (by decide)
@[simp] theorem State.sideline_mem (trigger chan : Nat) : (s.sideline trigger chan).mem = s.mem :=
  mem_of_only ((State.sideline_only (ps := [.out, .dev, .ctx0, .ctx1, .squads, .chans, .ledger, .host, .watch]) (by decide) trigger chan).mpr .refl) (by decide)
@[simp] theorem State.loseByDevice_mem (n cause q qindex seq : Nat) : (s.loseByDevice n cause q qindex seq).mem = s.mem :=
  mem_of_only ((State.loseByDevice_only (ps := [.out, .dev, .ctx0, .ctx1, .squads, .chans, .ledger, .host, .watch]) (by decide) n cause q qindex seq).mpr .refl) (by decide)
@[simp] theorem State.channelDown_mem (c : Nat) : (s.channelDown c).mem = s.mem :=
  mem_of_only ((State.channelDown_only (ps := [.out, .dev, .ctx0, .ctx1, .squads, .chans, .ledger, .host, .watch]) (by decide) c).mpr .refl) (by decide)
@[simp] theorem State.releaseSquad_mem (sq : Nat) : (s.releaseSquad sq).mem = s.mem :=
  mem_of_only ((State.releaseSquad_only (ps := [.ctx0, .ctx1, .squads]) (by decide) sq).mpr .refl) (by decide)
@[simp] theorem State.leaveGroups_mem (sq : Nat) : (s.leaveGroups sq).mem = s.mem :=
  mem_of_only ((State.leaveGroups_only (ps := [.net]) (by decide) sq).mpr .refl) (by decide)
@[simp] theorem State.fence_mem (sq cause : Nat) : (s.fence sq cause).mem = s.mem :=
  mem_of_only ((State.fence_only (ps := [.out, .dev, .mram, .ctx0, .ctx1, .squads, .chans, .net, .ledger, .host, .watch]) (by decide) sq cause).mpr .refl) (by decide)
@[simp] theorem State.charge_mem (n seq : Nat) : (s.charge n seq).mem = s.mem :=
  mem_of_only ((State.charge_only (ps := [.out, .ctx0, .ctx1, .squads, .chans, .ledger, .host, .watch]) (by decide) n seq).mpr .refl) (by decide)
@[simp] theorem State.requeue_mem (n seq item : Nat) : (s.requeue n seq item).mem = s.mem :=
  mem_of_only ((State.requeue_only (ps := [.ctx0, .ctx1]) (by decide) n seq item).mpr .refl) (by decide)
@[simp] theorem State.dropItem_mem (sq n seq item : Nat) : (s.dropItem sq n seq item).mem = s.mem :=
  mem_of_only ((State.dropItem_only (ps := [.squads]) (by decide) sq n seq item).mpr .refl) (by decide)
@[simp] theorem State.walkSanity_mem (sq w : Nat) : (s.walkSanity sq w).mem = s.mem :=
  mem_of_only ((State.walkSanity_only (ps := [.out, .dev, .ctx0, .ctx1, .squads, .chans, .ledger, .host, .watch]) (by decide) sq w).mpr .refl) (by decide)
@[simp] theorem State.afterCommit_mem (n seq item sq : Nat) : (s.afterCommit n seq item sq).mem = s.mem :=
  mem_of_only ((State.afterCommit_only (ps := [.out, .dev, .mram, .ctx0, .ctx1, .squads, .chans, .net, .ledger, .host, .watch]) (by decide) n seq item sq).mpr .refl) (by decide)

/-! ### Walk -/

@[simp] theorem State.startWalkers_mem (sq n seq item tile group part stage : Nat) : (s.startWalkers sq n seq item tile group part stage).mem = s.mem :=
  mem_of_only ((State.startWalkers_only (ps := [.squads]) (by decide) sq n seq item tile group part stage).mpr .refl) (by decide)
@[simp] theorem State.setWalker_mem (sq w : Nat) (k : Walker) : (s.setWalker sq w k).mem = s.mem :=
  mem_of_only ((State.setWalker_only (ps := [.squads]) (by decide) sq w k).mpr .refl) (by decide)
@[simp] theorem State.walkScalar_mem (sq w : Nat) (d : WReg) (v : W64) (k : Walker) : (s.walkScalar sq w d v k).mem = s.mem :=
  mem_of_only ((State.walkScalar_only (ps := [.out, .dev, .ctx0, .ctx1, .squads, .chans, .ledger, .host, .watch]) (by decide) sq w d v k).mpr .refl) (by decide)
@[simp] theorem State.setPool_mem (sq n p : Nat) (pl : Pool) : (s.setPool sq n p pl).mem = s.mem :=
  mem_of_only ((State.setPool_only (ps := [.squads]) (by decide) sq n p pl).mpr .refl) (by decide)
@[simp] theorem State.setPassQ_mem (sq n q : Nat) (v : PassQ) : (s.setPassQ sq n q v).mem = s.mem :=
  mem_of_only ((State.setPassQ_only (ps := [.squads]) (by decide) sq n q v).mpr .refl) (by decide)
@[simp] theorem State.giveHandle_mem (sq w p id : Nat) (pl : Pool) (d : WReg) (k : Walker) : (s.giveHandle sq w p id pl d k).mem = s.mem :=
  mem_of_only ((State.giveHandle_only (ps := [.out, .dev, .ctx0, .ctx1, .squads, .chans, .ledger, .host, .watch]) (by decide) sq w p id pl d k).mpr .refl) (by decide)
@[simp] theorem State.popInto_mem (sq w q : Nat) (v : PassQ) (h note : WReg) (k : Walker) : (s.popInto sq w q v h note k).mem = s.mem :=
  mem_of_only ((State.popInto_only (ps := [.out, .dev, .ctx0, .ctx1, .squads, .chans, .ledger, .host, .watch]) (by decide) sq w q v h note k).mpr .refl) (by decide)
@[simp] theorem State.planPools_mem (n : Nat) (first : Bool) : (s.planPools n first).mem = s.mem :=
  mem_of_only ((State.planPools_only (ps := [.squads]) (by decide) n first).mpr .refl) (by decide)
@[simp] theorem State.takeLib_mem (n : Nat) (l : WalkLib) : (s.takeLib n l).mem = s.mem :=
  mem_of_only ((State.takeLib_only (ps := [.ctx0, .ctx1, .squads]) (by decide) n l).mpr .refl) (by decide)

/-! ### Array -/

@[simp] theorem State.setMat_mem (n : Nat) (m : MatOp) : (s.setMat n m).mem = s.mem :=
  mem_of_only ((State.setMat_only (ps := [.ctx0, .ctx1]) (by decide) n m).mpr .refl) (by decide)
@[simp] theorem State.giveItem_mem (sq : Nat) (it : Item) (acc : AccFmt) : (s.giveItem sq it acc).mem = s.mem :=
  mem_of_only ((State.giveItem_only (ps := [.squads]) (by decide) sq it acc).mpr .refl) (by decide)
@[simp] theorem State.feedPop_mem (sq : Nat) (begins : Bool) : (s.feedPop sq begins).mem = s.mem :=
  mem_of_only ((State.feedPop_only (ps := [.squads]) (by decide) sq begins).mpr .refl) (by decide)
theorem State.issueCycle_mem (sq : Nat) (it0 : Item) (t : State) (h : s.issueCycle sq it0 = some t) : t.mem = s.mem :=
  mem_of_only ((State.issueCycle_only (ps := [.squads]) (by decide) sq it0 t h).mpr .refl) (by decide)

/-! ### Flags -/

@[simp] theorem State.writeFlag_mem (n f : Nat) (v : Bool) : (s.writeFlag n f v).mem = s.mem :=
  mem_of_only ((State.writeFlag_only (ps := [.ctx0, .ctx1]) (by decide) n f v).mpr .refl) (by decide)

/-! ### Telemetry -/

@[simp] theorem State.teleWrite_mem (e : List Byte) : (s.teleWrite e).mem = s.mem :=
  mem_of_only ((State.teleWrite_only (ps := [.out, .tele, .host]) (by decide) e).mpr .refl) (by decide)
@[simp] theorem State.noteOverrun_mem (n w : Nat) : (s.noteOverrun n w).mem = s.mem :=
  mem_of_only ((State.noteOverrun_only (ps := [.out, .regs, .ctx0, .ctx1, .ledger, .tele, .host, .watch]) (by decide) n w).mpr .refl) (by decide)
@[simp] theorem State.telemetry_mem (n : Nat) (f : Flight) (skipped : Bool) : (s.telemetry n f skipped).mem = s.mem :=
  mem_of_only ((State.telemetry_only (ps := [.out, .regs, .ctx0, .ctx1, .ledger, .tele, .host, .watch]) (by decide) n f skipped).mpr .refl) (by decide)
@[simp] theorem State.takeSpb_mem (n : Nat) : (s.takeSpb n).mem = s.mem :=
  mem_of_only ((State.takeSpb_only (ps := [.out, .ctx0, .ctx1, .ledger, .host, .watch]) (by decide) n).mpr .refl) (by decide)
@[simp] theorem State.urgentEta_mem : (s.urgentEta).mem = s.mem :=
  mem_of_only ((State.urgentEta_only (ps := [.out, .ctx0, .ctx1, .ledger, .host, .watch]) (by decide)).mpr .refl) (by decide)
@[simp] theorem State.stepStart_mem (n : Nat) : (s.stepStart n).mem = s.mem :=
  mem_of_only ((State.stepStart_only (ps := [.out, .ctx0, .ctx1, .ledger, .host, .watch]) (by decide) n).mpr .refl) (by decide)

/-! ### Suspend -/

@[simp] theorem State.suspend_mem (n ch : Nat) : (s.suspend n ch).mem = s.mem :=
  mem_of_only ((State.suspend_only (ps := [.out, .ctx0, .ctx1, .host]) (by decide) n ch).mpr .refl) (by decide)
@[simp] theorem State.transFault_mem (n : Nat) (r : FlogRec) : (s.transFault n r).mem = s.mem :=
  mem_of_only ((State.transFault_only (ps := [.out, .ctx0, .ctx1, .ledger, .host, .watch]) (by decide) n r).mpr .refl) (by decide)
@[simp] theorem State.sanityFault_mem (n q qindex check : Nat) : (s.sanityFault n q qindex check).mem = s.mem :=
  mem_of_only ((State.sanityFault_only (ps := [.out, .ctx0, .ctx1, .ledger, .host, .watch]) (by decide) n q qindex check).mpr .refl) (by decide)

/-! ### ShortPass -/

@[simp] theorem State.toNet_mem (p : Packet) : (s.toNet p).mem = s.mem :=
  mem_of_only ((State.toNet_only (ps := [.net]) (by decide) p).mpr .refl) (by decide)
@[simp] theorem State.inject_mem (c r cls : Nat) (g : Goal) (p : Packet) : (s.inject c r cls g p).mem = s.mem :=
  mem_of_only ((State.inject_only (ps := [.net]) (by decide) c r cls g p).mpr .refl) (by decide)
@[simp] theorem State.modFlight_mem (n seq : Nat) (f : Flight → Flight) : (s.modFlight n seq f).mem = s.mem :=
  mem_of_only ((State.modFlight_only (ps := [.ctx0, .ctx1]) (by decide) n seq f).mpr .refl) (by decide)
@[simp] theorem State.deposit_mem (m : ShortMsg) : (s.deposit m).mem = s.mem :=
  mem_of_only ((State.deposit_only (ps := [.squads]) (by decide) m).mpr .refl) (by decide)
@[simp] theorem State.setOverflow_mem (c n : Nat) (l : List ShortMsg) : (s.setOverflow c n l).mem = s.mem :=
  mem_of_only ((State.setOverflow_only (ps := [.chans]) (by decide) c n l).mpr .refl) (by decide)
@[simp] theorem State.spillShort_mem (m : ShortMsg) : (s.spillShort m).mem = s.mem :=
  mem_of_only ((State.spillShort_only (ps := [.out, .chans, .ledger, .host, .watch]) (by decide) m).mpr .refl) (by decide)
@[simp] theorem State.holdShort_mem (m : ShortMsg) : (s.holdShort m).mem = s.mem :=
  mem_of_only ((State.holdShort_only (ps := [.ctx0, .ctx1]) (by decide) m).mpr .refl) (by decide)
@[simp] theorem State.placeShort_mem (m : ShortMsg) : (s.placeShort m).mem = s.mem :=
  mem_of_only ((State.placeShort_only (ps := [.out, .ctx0, .ctx1, .squads, .chans, .ledger, .host, .watch]) (by decide) m).mpr .refl) (by decide)
@[simp] theorem State.deliverShort_mem (m : ShortMsg) : (s.deliverShort m).mem = s.mem :=
  mem_of_only ((State.deliverShort_only (ps := [.out, .ctx0, .ctx1, .squads, .chans, .ledger, .host, .watch]) (by decide) m).mpr .refl) (by decide)
@[simp] theorem State.dropTransfer_mem (sq n mb : Nat) (l : List ShortMsg) : (s.dropTransfer sq n mb l).mem = s.mem :=
  mem_of_only ((State.dropTransfer_only (ps := [.squads]) (by decide) sq n mb l).mpr .refl) (by decide)
@[simp] theorem State.readDone_mem (n : Nat) (d : Descriptor) : (s.readDone n d).mem = s.mem :=
  mem_of_only ((State.readDone_only (ps := [.squads]) (by decide) n d).mpr .refl) (by decide)
@[simp] theorem State.sendData_mem (n : Nat) (f : Flight) (len : Nat) : (s.sendData n f len).2.mem = s.mem :=
  mem_of_only ((State.sendData_only (ps := [.free]) (by decide) n f len).mpr .refl) (by decide)
@[simp] theorem State.sendShort_mem (n : Nat) (f : Flight) (x : SendSpec) : (s.sendShort n f x).mem = s.mem :=
  mem_of_only ((State.sendShort_only (ps := [.free, .ctx0, .ctx1, .net]) (by decide) n f x).mpr .refl) (by decide)

/-! ### Collect -/

@[simp] theorem State.toMembers_mem (n tag epoch off : Nat) (ty : PktType) (body : List Byte) : (s.toMembers n tag epoch off ty body).mem = s.mem :=
  mem_of_only ((State.toMembers_only (ps := [.net]) (by decide) n tag epoch off ty body).mpr .refl) (by decide)
@[simp] theorem State.abortTag_mem (n tag epoch port : Nat) : (s.abortTag n tag epoch port).mem = s.mem :=
  mem_of_only ((State.abortTag_only (ps := [.out, .ctx0, .ctx1, .net, .ledger, .host, .watch]) (by decide) n tag epoch port).mpr .refl) (by decide)
@[simp] theorem State.collFault_mem (n tag : Nat) (g : Tag) (f : Flight) (e : Fail) (write : Bool) : (s.collFault n tag g f e write).mem = s.mem :=
  mem_of_only ((State.collFault_only (ps := [.out, .ctx0, .ctx1, .net, .ledger, .host, .watch]) (by decide) n tag g f e write).mpr .refl) (by decide)
@[simp] theorem State.resultFlag_mem (n : Nat) (k : CollKind) (data : List Byte) : (s.resultFlag n k data).mem = s.mem :=
  mem_of_only ((State.resultFlag_only (ps := [.ctx0, .ctx1]) (by decide) n k data).mpr .refl) (by decide)
@[simp] theorem State.depositResult_mem (n tag sq mb : Nat) (data : List Byte) : (s.depositResult n tag sq mb data).mem = s.mem :=
  mem_of_only ((State.depositResult_only (ps := [.out, .ctx0, .ctx1, .squads, .chans, .ledger, .host, .watch]) (by decide) n tag sq mb data).mpr .refl) (by decide)
@[simp] theorem State.memberResult_mem (n tag seq : Nat) (k : CollKind) (data : List Byte) : (s.memberResult n tag seq k data).mem = s.mem :=
  mem_of_only ((State.memberResult_only (ps := [.out, .ctx0, .ctx1, .squads, .chans, .ledger, .host, .watch]) (by decide) n tag seq k data).mpr .refl) (by decide)
@[simp] theorem State.sendUp_mem (n tag : Nat) (g : Tag) (k : CollKind) (a off : Nat) (data : List Byte) : (s.sendUp n tag g k a off data).mem = s.mem :=
  mem_of_only ((State.sendUp_only (ps := [.net]) (by decide) n tag g k a off data).mpr .refl) (by decide)
@[simp] theorem State.gatherOut_mem (n tag epoch : Nat) (f : Flight) : (s.gatherOut n tag epoch f).mem = s.mem :=
  mem_of_only ((State.gatherOut_only (ps := [.net]) (by decide) n tag epoch f).mpr .refl) (by decide)
@[simp] theorem State.endColl_mem (n : Nat) (f : Flight) : (s.endColl n f).mem = s.mem :=
  mem_of_only ((State.endColl_only (ps := [.out, .ctx0, .ctx1, .squads, .chans, .net, .ledger, .host, .watch]) (by decide) n f).mpr .refl) (by decide)

/-! ### TileCheck -/

@[simp] theorem Wrote.note_mem (w : Wrote) (n seq pos : Nat) (rep : Bool) : (w.note n seq pos rep).mem = w.st.mem :=
  mem_of_only ((Wrote.note_only (ps := [.ctx0, .ctx1]) (by decide) w n seq pos rep).mpr .refl) (by decide)
@[simp] theorem State.transient_mem (sq : Nat) : (s.transient sq).mem = s.mem :=
  mem_of_only ((State.transient_only (ps := [.out, .dev, .mram, .ctx0, .ctx1, .squads, .chans, .net, .ledger, .host, .watch]) (by decide) sq).mpr .refl) (by decide)
@[simp] theorem State.suspect_mem (sq : Nat) : (s.suspect sq).mem = s.mem :=
  mem_of_only ((State.suspect_only (ps := [.mram]) (by decide) sq).mpr .refl) (by decide)
@[simp] theorem State.logReplay_mem (sq0 : Nat) (sq1 : Option Nat) (idx seq : Nat) : (s.logReplay sq0 sq1 idx seq).mem = s.mem :=
  mem_of_only ((State.logReplay_only (ps := [.out, .ledger, .host, .watch]) (by decide) sq0 sq1 idx seq).mpr .refl) (by decide)
@[simp] theorem State.fieldRepair_mem (sq : Nat) (p : Bool × Nat) : (s.fieldRepair sq p).mem = s.mem :=
  mem_of_only ((State.fieldRepair_only (ps := [.out, .mram, .squads, .ledger, .host, .watch]) (by decide) sq p).mpr .refl) (by decide)
@[simp] theorem State.fenceChecksum_mem (l : Ladder) : (s.fenceChecksum l).mem = s.mem :=
  mem_of_only ((State.fenceChecksum_only (ps := [.out, .dev, .mram, .ctx0, .ctx1, .squads, .chans, .net, .ledger, .host, .watch]) (by decide) l).mpr .refl) (by decide)
@[simp] theorem State.logData_mem (sq0 sq idx seq : Nat) (rf cf : List Nat) (det : Nat) : (s.logData sq0 sq idx seq rf cf det).mem = s.mem :=
  mem_of_only ((State.logData_only (ps := [.out, .ledger, .host, .watch]) (by decide) sq0 sq idx seq rf cf det).mpr .refl) (by decide)
@[simp] theorem State.ladderStart_mem (sq : Nat) (m : MatOp) (dr : Drain) (rf cf : List Nat) : (s.ladderStart sq m dr rf cf).mem = s.mem :=
  mem_of_only ((State.ladderStart_only (ps := [.out, .ctx0, .ctx1, .squads, .chans, .ledger, .host, .watch]) (by decide) sq m dr rf cf).mpr .refl) (by decide)
@[simp] theorem State.uncharge_mem (n seq : Nat) : (s.uncharge n seq).mem = s.mem :=
  mem_of_only ((State.uncharge_only (ps := [.ctx0, .ctx1]) (by decide) n seq).mpr .refl) (by decide)

end Sys2Proof.Machine
end

