-- ==== Sys2Proof/Laws/FrameEngines.lean ====
section
/-! SUPPORT. The queue and the memories under the operations of updates, commits, admission, DMA, huddles, issue and pre-emption. -/

namespace Sys2Proof.Machine

variable {s : State}

/-! ### Update -/

@[simp] theorem State.updApply_mem (sq : Nat) (u : UpdRun) (d : UDst) (f : Lane → Word) : (s.updApply sq u d f).mem = s.mem :=
  mem_of_only ((State.updApply_only (ps := [.squads]) (by decide) sq u d f).mpr .refl) (by decide)
@[simp] theorem State.strictEnd_mem (n : Nat) : (s.strictEnd n).mem = s.mem :=
  mem_of_only ((State.strictEnd_only (ps := [.out, .ctx0, .ctx1, .ledger, .host, .watch]) (by decide) n).mpr .refl) (by decide)

/-! ### Commit -/

@[simp] theorem State.applyCommit_mem (n : Nat) (step : Word) (digest : W64) (exp growth : Nat) : (s.applyCommit n step digest exp growth).mem = s.mem :=
  mem_of_only ((State.applyCommit_only (ps := [.out, .ctx0, .ctx1, .ledger, .host, .watch]) (by decide) n step digest exp growth).mpr .refl) (by decide)
@[simp] theorem State.sendDown_mem (n kind : Nat) (d : Decision) : (s.sendDown n kind d).mem = s.mem :=
  mem_of_only ((State.sendDown_only (ps := [.out]) (by decide) n kind d).mpr .refl) (by decide)
@[simp] theorem State.noteHold_mem (n : Nat) (d : Decision) : (s.noteHold n d).mem = s.mem :=
  mem_of_only ((State.noteHold_only (ps := [.out, .ctx0, .ctx1, .ledger, .host, .watch]) (by decide) n d).mpr .refl) (by decide)
@[simp] theorem State.applyAbort_mem (n : Nat) (step : Word) : (s.applyAbort n step).mem = s.mem :=
  mem_of_only ((State.applyAbort_only (ps := [.out, .ctx0, .ctx1, .squads, .chans, .ledger, .host, .watch]) (by decide) n step).mpr .refl) (by decide)
@[simp] theorem State.rootHold_mem (n reason : Nat) (v : Vote) : (s.rootHold n reason v).mem = s.mem :=
  mem_of_only ((State.rootHold_only (ps := [.out, .ctx0, .ctx1, .ledger, .host, .watch]) (by decide) n reason v).mpr .refl) (by decide)
@[simp] theorem State.rootCommit_mem (n : Nat) (v : Vote) : (s.rootCommit n v).mem = s.mem :=
  mem_of_only ((State.rootCommit_only (ps := [.out, .ctx0, .ctx1, .ledger, .host, .watch]) (by decide) n v).mpr .refl) (by decide)
@[simp] theorem State.rootPair_mem (n : Nat) (v : Vote) : (s.rootPair n v).mem = s.mem :=
  mem_of_only ((State.rootPair_only (ps := [.out, .ctx0, .ctx1, .ledger, .host, .watch]) (by decide) n v).mpr .refl) (by decide)
@[simp] theorem State.rootDecide_mem (n : Nat) : (s.rootDecide n).mem = s.mem :=
  mem_of_only ((State.rootDecide_only (ps := [.out, .ctx0, .ctx1, .ledger, .host, .watch]) (by decide) n).mpr .refl) (by decide)
@[simp] theorem State.commitUp_mem (n : Nat) : (s.commitUp n).mem = s.mem :=
  mem_of_only ((State.commitUp_only (ps := [.out, .ctx0, .ctx1, .ledger, .host, .watch]) (by decide) n).mpr .refl) (by decide)
@[simp] theorem State.castVote_mem (n step reason : Nat) : (s.castVote n step reason).mem = s.mem :=
  mem_of_only ((State.castVote_only (ps := [.out, .ctx0, .ctx1, .ledger, .host, .watch]) (by decide) n step reason).mpr .refl) (by decide)
@[simp] theorem State.commitArrive_mem (n : Nat) : (s.commitArrive n).mem = s.mem :=
  mem_of_only ((State.commitArrive_only (ps := [.out, .ctx0, .ctx1, .ledger, .host, .watch]) (by decide) n).mpr .refl) (by decide)
@[simp] theorem State.haltCommit_mem (n : Nat) (h : Halt) : (s.haltCommit n h).mem = s.mem :=
  mem_of_only ((State.haltCommit_only (ps := [.ctx0, .ctx1]) (by decide) n h).mpr .refl) (by decide)
@[simp] theorem State.huddleDeadline_mem (n q number scope arrived missing : Nat) : (s.huddleDeadline n q number scope arrived missing).mem = s.mem :=
  mem_of_only ((State.huddleDeadline_only (ps := [.out, .ledger, .host, .watch]) (by decide) n q number scope arrived missing).mpr .refl) (by decide)

/-! ### Admit -/

@[simp] theorem State.admitHead_mem (n q : Nat) (d : Descriptor) : (s.admitHead n q d).mem = s.mem :=
  mem_of_only ((State.admitHead_only (ps := [.ctx0, .ctx1, .flightSeq]) (by decide) n q d).mpr .refl) (by decide)

/-! ### Dma -/

@[simp] theorem State.setRg64_mem (a v : Nat) : (s.setRg64 a v).mem = s.mem :=
  mem_of_only ((State.setRg64_only (ps := [.regs]) (by decide) a v).mpr .refl) (by decide)
@[simp] theorem State.modDma_mem (c d : Nat) (f : Dma → Dma) : (s.modDma c d f).mem = s.mem :=
  mem_of_only ((State.modDma_only (ps := [.chans]) (by decide) c d f).mpr .refl) (by decide)
@[simp] theorem State.hostDmaTouched_mem (pl : List (Nat × Nat)) (all : Bool) : (s.hostDmaTouched pl all).mem = s.mem :=
  mem_of_only ((State.hostDmaTouched_only (ps := [.ctx0, .ctx1]) (by decide) pl all).mpr .refl) (by decide)
@[simp] theorem State.dmaSignal_mem (c d bit : Nat) : (s.dmaSignal c d bit).mem = s.mem :=
  mem_of_only ((State.dmaSignal_only (ps := [.out, .regs, .host]) (by decide) c d bit).mpr .refl) (by decide)
@[simp] theorem State.putStatus_mem (c d : Nat) (x : Xfer) (w : List Byte) : (s.putStatus c d x w).mem = s.mem :=
  mem_of_only ((State.putStatus_only (ps := [.out, .ctx0, .ctx1, .chans]) (by decide) c d x w).mpr .refl) (by decide)
@[simp] theorem State.dmaStop_mem (c d : Nat) (x : Xfer) (state flags ftype va : Nat) : (s.dmaStop c d x state flags ftype va).mem = s.mem :=
  mem_of_only ((State.dmaStop_only (ps := [.out, .ctx0, .ctx1, .chans, .ledger, .host, .watch]) (by decide) c d x state flags ftype va).mpr .refl) (by decide)
@[simp] theorem State.rescueDma_mem (c : Nat) : (s.rescueDma c).mem = s.mem :=
  mem_of_only ((State.rescueDma_only (ps := [.chans]) (by decide) c).mpr .refl) (by decide)
@[simp] theorem State.startDma_mem (n : Nat) (f : Flight) : (s.startDma n f).mem = s.mem :=
  mem_of_only ((State.startDma_only (ps := [.chans]) (by decide) n f).mpr .refl) (by decide)
@[simp] theorem State.dmaReject_mem (c d : Nat) (x : Xfer) (b : Nat × Nat) : (s.dmaReject c d x b).mem = s.mem :=
  mem_of_only ((State.dmaReject_only (ps := [.out, .regs, .ctx0, .ctx1, .chans, .ledger, .host, .watch]) (by decide) c d x b).mpr .refl) (by decide)
@[simp] theorem State.dmaFault_mem (c d : Nat) (x : Xfer) (f : Fail) (src dst write : Bool) : (s.dmaFault c d x f src dst write).mem = s.mem :=
  mem_of_only ((State.dmaFault_only (ps := [.out, .regs, .ctx0, .ctx1, .chans, .ledger, .host, .watch]) (by decide) c d x f src dst write).mpr .refl) (by decide)
@[simp] theorem State.chanFault_mem (c d : Nat) (va : W64) (write : Bool) (ftype level : Nat) : (s.chanFault c d va write ftype level).mem = s.mem :=
  mem_of_only ((State.chanFault_only (ps := [.out, .regs, .ctx0, .ctx1, .chans, .ledger, .host, .watch]) (by decide) c d va write ftype level).mpr .refl) (by decide)
@[simp] theorem State.walkFail_mem (n q st si : Nat) (va : W64) (write : Bool) (ftype level ch : Nat) : (s.walkFail n q st si va write ftype level ch).mem = s.mem :=
  mem_of_only ((State.walkFail_only (ps := [.out, .regs, .ctx0, .ctx1, .chans, .ledger, .host, .watch]) (by decide) n q st si va write ftype level ch).mpr .refl) (by decide)
@[simp] theorem State.dmaIndex_mem (c d : Nat) (x : Xfer) : (s.dmaIndex c d x).mem = s.mem :=
  mem_of_only ((State.dmaIndex_only (ps := [.out, .regs, .ctx0, .ctx1, .chans, .ledger, .host, .watch]) (by decide) c d x).mpr .refl) (by decide)
@[simp] theorem State.dmaNote_mem (x : Xfer) (k len : Nat) : (s.dmaNote x k len).mem = s.mem :=
  mem_of_only ((State.dmaNote_only (ps := [.ctx0, .ctx1]) (by decide) x k len).mpr .refl) (by decide)

/-! ### Huddle -/

@[simp] theorem State.hudDown_mem (n k e : Nat) : (s.hudDown n k e).mem = s.mem :=
  mem_of_only ((State.hudDown_only (ps := [.out]) (by decide) n k e).mpr .refl) (by decide)
@[simp] theorem State.hudRanks_mem (n k e : Nat) (rs : List Nat) : (s.hudRanks n k e rs).mem = s.mem :=
  mem_of_only ((State.hudRanks_only (ps := [.out, .ctx0, .ctx1]) (by decide) n k e rs).mpr .refl) (by decide)
@[simp] theorem State.hudIssue_mem (n : Nat) (f : Flight) : (s.hudIssue n f).mem = s.mem :=
  mem_of_only ((State.hudIssue_only (ps := [.out, .ctx0, .ctx1, .ledger, .host, .watch]) (by decide) n f).mpr .refl) (by decide)

/-! ### Retire -/

@[simp] theorem State.settle_mem (n : Nat) : (s.settle n).mem = s.mem :=
  mem_of_only ((State.settle_only (ps := [.ctx0, .ctx1, .squads]) (by decide) n).mpr .refl) (by decide)
@[simp] theorem State.noteMask_mem (n : Nat) (f : Flight) (h : Nat) : (s.noteMask n f h).mem = s.mem :=
  mem_of_only ((State.noteMask_only (ps := [.ctx0, .ctx1]) (by decide) n f h).mpr .refl) (by decide)
@[simp] theorem State.finish_mem (n : Nat) (f : Flight) (skipped : Bool) : (s.finish n f skipped).mem = s.mem :=
  mem_of_only ((State.finish_only (ps := [.out, .regs, .ctx0, .ctx1, .squads, .ledger, .tele, .host, .watch]) (by decide) n f skipped).mpr .refl) (by decide)
@[simp] theorem State.skipHead_mem (n : Nat) (f : Flight) : (s.skipHead n f).mem = s.mem :=
  mem_of_only ((State.skipHead_only (ps := [.out, .regs, .ctx0, .ctx1, .squads, .ledger, .tele, .host, .watch]) (by decide) n f).mpr .refl) (by decide)
@[simp] theorem State.endOp_mem (n : Nat) (f : Flight) : (s.endOp n f).mem = s.mem :=
  mem_of_only ((State.endOp_only (ps := [.out, .ctx0, .ctx1, .squads, .chans, .net, .ledger, .host, .watch]) (by decide) n f).mpr .refl) (by decide)

/-! ### Issue -/

@[simp] theorem State.toReady_mem (n seq : Nat) (rows : List Nat) : (s.toReady n seq rows).mem = s.mem :=
  mem_of_only ((State.toReady_only (ps := [.ctx0, .ctx1]) (by decide) n seq rows).mpr .refl) (by decide)
@[simp] theorem State.countsFault_mem (n q : Nat) (e : Fail) : (s.countsFault n q e).mem = s.mem :=
  mem_of_only ((State.countsFault_only (ps := [.out, .ctx0, .ctx1, .ledger, .host, .watch]) (by decide) n q e).mpr .refl) (by decide)
@[simp] theorem State.denseRecord_mem (n : Nat) (f : Flight) : (s.denseRecord n f).mem = s.mem :=
  mem_of_only ((State.denseRecord_only (ps := [.out, .ledger, .host, .watch]) (by decide) n f).mpr .refl) (by decide)
@[simp] theorem State.issueMat_mem (n : Nat) (f : Flight) : (s.issueMat n f).mem = s.mem :=
  mem_of_only ((State.issueMat_only (ps := [.out, .regs, .ctx0, .ctx1, .squads, .ledger, .tele, .host, .watch]) (by decide) n f).mpr .refl) (by decide)
@[simp] theorem State.startBlocks_mem (n seq items : Nat) : (s.startBlocks n seq items).mem = s.mem :=
  mem_of_only ((State.startBlocks_only (ps := [.squads]) (by decide) n seq items).mpr .refl) (by decide)
@[simp] theorem State.issueBlocks_mem (n seq items : Nat) : (s.issueBlocks n seq items).mem = s.mem :=
  mem_of_only ((State.issueBlocks_only (ps := [.ctx0, .ctx1, .squads]) (by decide) n seq items).mpr .refl) (by decide)
@[simp] theorem State.readNorms_mem (n : Nat) (d : Descriptor) : (s.readNorms n d).mem = s.mem :=
  mem_of_only ((State.readNorms_only (ps := [.ctx0, .ctx1]) (by decide) n d).mpr .refl) (by decide)
@[simp] theorem State.issueUpdate_mem (n : Nat) (f : Flight) : (s.issueUpdate n f).mem = s.mem :=
  mem_of_only ((State.issueUpdate_only (ps := [.ctx0, .ctx1, .squads]) (by decide) n f).mpr .refl) (by decide)
@[simp] theorem State.stampIssue_mem (n : Nat) (k : Cls) (f : Flight) : (s.stampIssue n k f).mem = s.mem :=
  mem_of_only ((State.stampIssue_only (ps := [.ctx0, .ctx1]) (by decide) n k f).mpr .refl) (by decide)
@[simp] theorem State.refuseUpdate_mem (n : Nat) (f : Flight) (reason : Nat) : (s.refuseUpdate n f reason).mem = s.mem :=
  mem_of_only ((State.refuseUpdate_only (ps := [.out, .ctx0, .ctx1, .ledger, .host, .watch]) (by decide) n f reason).mpr .refl) (by decide)

/-! ### Block -/

@[simp] theorem State.freshBlock_mem (n : Nat) (f : Flight) (idxs : List (List Nat)) : (s.freshBlock n f idxs).mem = s.mem :=
  mem_of_only ((State.freshBlock_only (ps := [.chans]) (by decide) n f idxs).mpr .refl) (by decide)
@[simp] theorem State.engineFault_mem (n sq q src : Nat) (e : Fail) (write : Bool) : (s.engineFault n sq q src e write).mem = s.mem :=
  mem_of_only ((State.engineFault_only (ps := [.out, .ctx0, .ctx1, .ledger, .host, .watch]) (by decide) n sq q src e write).mpr .refl) (by decide)
@[simp] theorem State.dropStat_mem (k : Nat) : (s.dropStat k).mem = s.mem :=
  mem_of_only ((State.dropStat_only (ps := [.squads]) (by decide) k).mpr .refl) (by decide)
@[simp] theorem State.commitBlock_mem (n : Nat) (f : Flight) (b sq : Nat) : (s.commitBlock n f b sq).mem = s.mem :=
  mem_of_only ((State.commitBlock_only (ps := [.out, .dev, .mram, .ctx0, .ctx1, .squads, .chans, .net, .ledger, .host, .watch]) (by decide) n f b sq).mpr .refl) (by decide)
@[simp] theorem State.popPort_mem (sq w : Nat) : (s.popPort sq w).mem = s.mem :=
  mem_of_only ((State.popPort_only (ps := [.squads]) (by decide) sq w).mpr .refl) (by decide)
@[simp] theorem State.freshUpd_mem (n : Nat) (f : Flight) (en : ShardEntry) (first last : Nat) : (s.freshUpd n f en first last).mem = s.mem :=
  mem_of_only ((State.freshUpd_only (ps := [.chans]) (by decide) n f en first last).mpr .refl) (by decide)
theorem State.ringRegulate_mem (m : MatOp) (d : Descriptor) (dr : Drain) (t : State) (h : s.ringRegulate m d dr = some t) : t.mem = s.mem :=
  mem_of_only ((State.ringRegulate_only (ps := [.chans]) (by decide) m d dr t h).mpr .refl) (by decide)
@[simp] theorem State.freshTile_mem (m : MatOp) (d : Descriptor) (dr : Drain) : (s.freshTile m d dr).mem = s.mem :=
  mem_of_only ((State.freshTile_only (ps := [.chans]) (by decide) m d dr).mpr .refl) (by decide)

/-! ### LedgerCmds -/

@[simp] theorem State.hostRecord_mem (o : Offer) : (s.hostRecord o).mem = s.mem :=
  mem_of_only ((State.hostRecord_only (ps := [.out, .ledger, .host, .watch]) (by decide) o).mpr .refl) (by decide)
@[simp] theorem State.clrStatus_mem (v : Nat) : (s.clrStatus v).mem = s.mem :=
  mem_of_only ((State.clrStatus_only (ps := [.out, .ledger, .host]) (by decide) v).mpr .refl) (by decide)
@[simp] theorem State.startClear_mem : (s.startClear).mem = s.mem :=
  mem_of_only ((State.startClear_only (ps := [.out, .mram, .ledger, .host, .watch]) (by decide)).mpr .refl) (by decide)
@[simp] theorem State.endErase_mem (scope : Nat) : (s.endErase scope).mem = s.mem :=
  mem_of_only ((State.endErase_only (ps := [.out, .mram, .ledger, .host, .watch]) (by decide) scope).mpr .refl) (by decide)

/-! ### Bar2 -/

@[simp] theorem State.hostTouched_mem (space off len : Nat) : (s.hostTouched space off len).mem = s.mem :=
  mem_of_only ((State.hostTouched_only (ps := [.ctx0, .ctx1]) (by decide) space off len).mpr .refl) (by decide)

/-! ### Preempt -/

@[simp] theorem State.urgentRuns_mem : (s.urgentRuns).mem = s.mem :=
  mem_of_only ((State.urgentRuns_only (ps := [.out, .ctx0, .ctx1, .host]) (by decide)).mpr .refl) (by decide)
@[simp] theorem State.preempt_mem : (s.preempt).mem = s.mem :=
  mem_of_only ((State.preempt_only (ps := [.out, .ctx0, .ctx1, .host]) (by decide)).mpr .refl) (by decide)
theorem State.finishStage_mem (sq : Nat) (ctx seq index : Nat) (y0 : Nat) (y1 : Nat) (t : State) (h : s.finishStage sq ctx seq index y0 y1 = some t) : t.mem = s.mem :=
  mem_of_only ((State.finishStage_only (ps := [.squads]) (by decide) sq ctx seq index y0 y1 t h).mpr .refl) (by decide)
@[simp] theorem State.abandonStage_mem (sq : Nat) (it : Item) : (s.abandonStage sq it).mem = s.mem :=
  mem_of_only ((State.abandonStage_only (ps := [.squads]) (by decide) sq it).mpr .refl) (by decide)
@[simp] theorem State.stopItem_mem (sq : Nat) (it : Item) : (s.stopItem sq it).mem = s.mem :=
  mem_of_only ((State.stopItem_only (ps := [.squads]) (by decide) sq it).mpr .refl) (by decide)
@[simp] theorem State.resetWalkers_mem (sq n : Nat) : (s.resetWalkers sq n).mem = s.mem :=
  mem_of_only ((State.resetWalkers_only (ps := [.squads]) (by decide) sq n).mpr .refl) (by decide)
@[simp] theorem State.dropCopies_mem (n sq : Nat) : (s.dropCopies n sq).mem = s.mem :=
  mem_of_only ((State.dropCopies_only (ps := [.net]) (by decide) n sq).mpr .refl) (by decide)
@[simp] theorem State.atRestart_mem (n : Nat) (e : Engine) : (s.atRestart n e).mem = s.mem :=
  mem_of_only ((State.atRestart_only (ps := [.out, .ctx0, .ctx1, .squads, .chans, .net, .ledger, .host, .watch]) (by decide) n e).mpr .refl) (by decide)
@[simp] theorem State.restartEngines_mem (n : Nat) : (s.restartEngines n).mem = s.mem :=
  mem_of_only ((State.restartEngines_only (ps := [.ctx0, .ctx1, .chans]) (by decide) n).mpr .refl) (by decide)
@[simp] theorem State.freshPage_mem (space off : Nat) : (s.freshPage space off).mem = s.mem :=
  mem_of_only ((State.freshPage_only (ps := [.chans]) (by decide) space off).mpr .refl) (by decide)
@[simp] theorem State.fillLatches_mem (q : Nat) : (s.fillLatches q).mem = s.mem :=
  mem_of_only ((State.fillLatches_only (ps := [.squads]) (by decide) q).mpr .refl) (by decide)
@[simp] theorem State.eachSquad_mem (f : Squad → Squad) : (s.eachSquad f).mem = s.mem :=
  mem_of_only ((State.eachSquad_only (ps := [.squads]) (by decide) f).mpr .refl) (by decide)
@[simp] theorem State.spillFault_mem (r : FlogRec) : (s.spillFault r).mem = s.mem :=
  mem_of_only ((State.spillFault_only (ps := [.out, .ctx0, .ctx1, .squads, .chans, .ledger, .host, .watch]) (by decide) r).mpr .refl) (by decide)

end Sys2Proof.Machine
end

