-- ==== Sys2Proof/Laws/FrameDevice.lean ====
section
/-! SUPPORT. The queue and the memories under the operations of contexts, memory control, links, network, faults, time, power, boot, host and registers. -/

namespace Sys2Proof.Machine

variable {s : State}

/-! ### Contexts -/

@[simp] theorem State.rootAbort_mem (n : Nat) : (s.rootAbort n).mem = s.mem :=
  mem_of_only ((State.rootAbort_only (ps := [.out, .ctx0, .ctx1]) (by decide) n).mpr .refl) (by decide)
@[simp] theorem State.hostLose_mem (n cause : Nat) : (s.hostLose n cause).mem = s.mem :=
  mem_of_only ((State.hostLose_only (ps := [.out, .ctx0, .ctx1, .squads, .chans, .ledger, .host, .watch]) (by decide) n cause).mpr .refl) (by decide)
@[simp] theorem State.unhalt_mem (n q : Nat) : (s.unhalt n q).mem = s.mem :=
  mem_of_only ((State.unhalt_only (ps := [.ctx0, .ctx1]) (by decide) n q).mpr .refl) (by decide)
@[simp] theorem State.skipFlight_mem (n : Nat) (f : Flight) : (s.skipFlight n f).mem = s.mem :=
  mem_of_only ((State.skipFlight_only (ps := [.out, .regs, .ctx0, .ctx1, .squads, .ledger, .tele, .host, .watch]) (by decide) n f).mpr .refl) (by decide)
@[simp] theorem State.skipAny_mem (n q : Nat) : (s.skipAny n q).mem = s.mem :=
  mem_of_only ((State.skipAny_only (ps := [.out, .regs, .ctx0, .ctx1, .squads, .ledger, .tele, .host, .watch, .flightSeq]) (by decide) n q).mpr .refl) (by decide)
@[simp] theorem State.dropColl_mem (n : Nat) (f : Flight) : (s.dropColl n f).mem = s.mem :=
  mem_of_only ((State.dropColl_only (ps := [.ctx0, .ctx1, .net]) (by decide) n f).mpr .refl) (by decide)
@[simp] theorem State.dropDma_mem (seq : Nat) : (s.dropDma seq).mem = s.mem :=
  mem_of_only ((State.dropDma_only (ps := [.chans]) (by decide) seq).mpr .refl) (by decide)
@[simp] theorem State.skipIssued_mem (n : Nat) (f : Flight) : (s.skipIssued n f).mem = s.mem :=
  mem_of_only ((State.skipIssued_only (ps := [.out, .regs, .ctx0, .ctx1, .squads, .chans, .net, .ledger, .tele, .host, .watch]) (by decide) n f).mpr .refl) (by decide)
@[simp] theorem State.restartClock_mem (n : Nat) (f : Flight) : (s.restartClock n f).mem = s.mem :=
  mem_of_only ((State.restartClock_only (ps := [.ctx0, .ctx1]) (by decide) n f).mpr .refl) (by decide)
@[simp] theorem State.retryCommit_mem (n : Nat) : (s.retryCommit n).mem = s.mem :=
  mem_of_only ((State.retryCommit_only (ps := [.ctx0, .ctx1]) (by decide) n).mpr .refl) (by decide)
@[simp] theorem State.retryUpdate_mem (n q : Nat) : (s.retryUpdate n q).mem = s.mem :=
  mem_of_only ((State.retryUpdate_only (ps := [.out, .ctx0, .ctx1, .ledger, .host, .watch]) (by decide) n q).mpr .refl) (by decide)

/-! ### MemCtl -/

@[simp] theorem State.lossLimits_mem (c : Nat) : (s.lossLimits c).mem = s.mem :=
  mem_of_only ((State.lossLimits_only (ps := [.out, .dev, .ctx0, .ctx1, .squads, .chans, .ledger, .host, .watch]) (by decide) c).mpr .refl) (by decide)
@[simp] theorem State.spillHit_mem (k : Nat) : (s.spillHit k).mem = s.mem :=
  mem_of_only ((State.spillHit_only (ps := [.out, .ctx0, .ctx1, .squads, .chans, .ledger, .host, .watch]) (by decide) k).mpr .refl) (by decide)
@[simp] theorem State.teleLoss_mem (k : Nat) : (s.teleLoss k).mem = s.mem :=
  mem_of_only ((State.teleLoss_only (ps := [.tele]) (by decide) k).mpr .refl) (by decide)
@[simp] theorem State.replayDelivery_mem (g sq : Nat) : (s.replayDelivery g sq).mem = s.mem :=
  mem_of_only ((State.replayDelivery_only (ps := [.ctx0, .ctx1, .squads, .net]) (by decide) g sq).mpr .refl) (by decide)
@[simp] theorem State.retirePc_mem (c p cause : Nat) : (s.retirePc c p cause).mem = s.mem :=
  mem_of_only ((State.retirePc_only (ps := [.out, .dev, .mram, .ctx0, .ctx1, .squads, .chans, .ledger, .host, .watch]) (by decide) c p cause).mpr .refl) (by decide)
@[simp] theorem State.markLine_mem (c p line : Nat) : (s.markLine c p line).mem = s.mem :=
  mem_of_only ((State.markLine_only (ps := [.out, .dev, .mram, .ctx0, .ctx1, .squads, .chans, .ledger, .host, .watch]) (by decide) c p line).mpr .refl) (by decide)
@[simp] theorem State.queueRow_mem (c p row : Nat) : (s.queueRow c p row).mem = s.mem :=
  mem_of_only ((State.queueRow_only (ps := [.out, .dev, .mram, .ctx0, .ctx1, .squads, .chans, .ledger, .host, .watch]) (by decide) c p row).mpr .refl) (by decide)
@[simp] theorem State.countLine_mem (c p line : Nat) : (s.countLine c p line).mem = s.mem :=
  mem_of_only ((State.countLine_only (ps := [.out, .dev, .mram, .ctx0, .ctx1, .squads, .chans, .ledger, .host, .watch]) (by decide) c p line).mpr .refl) (by decide)
@[simp] theorem State.countRow_mem (c p row line : Nat) : (s.countRow c p row line).mem = s.mem :=
  mem_of_only ((State.countRow_only (ps := [.out, .dev, .mram, .ctx0, .ctx1, .squads, .chans, .ledger, .host, .watch]) (by decide) c p row line).mpr .refl) (by decide)
@[simp] theorem State.corrected_mem (c p space off : Nat) (syms : List Nat) : (s.corrected c p space off syms).mem = s.mem :=
  mem_of_only ((State.corrected_only (ps := [.out, .dev, .mram, .ctx0, .ctx1, .squads, .chans, .ledger, .host, .watch]) (by decide) c p space off syms).mpr .refl) (by decide)
@[simp] theorem State.countUc_mem (c : Nat) : (s.countUc c).mem = s.mem :=
  mem_of_only ((State.countUc_only (ps := [.out, .dev, .ctx0, .ctx1, .squads, .chans, .ledger, .host, .watch]) (by decide) c).mpr .refl) (by decide)
@[simp] theorem State.chanData_mem (c d : Nat) (write : Bool) : (s.chanData c d write).mem = s.mem :=
  mem_of_only ((State.chanData_only (ps := [.out, .regs, .ctx0, .ctx1, .chans, .ledger, .host, .watch]) (by decide) c d write).mpr .refl) (by decide)
@[simp] theorem State.indicate_mem (req : Requester) (ch : Nat) (write : Bool) : (s.indicate req ch write).mem = s.mem :=
  mem_of_only ((State.indicate_only (ps := [.out, .regs, .ctx0, .ctx1, .squads, .chans, .ledger, .host, .watch]) (by decide) req ch write).mpr .refl) (by decide)
@[simp] theorem State.fillTokens_mem (c : Nat) : (s.fillTokens c).mem = s.mem :=
  mem_of_only ((State.fillTokens_only (ps := [.chans]) (by decide) c).mpr .refl) (by decide)
@[simp] theorem State.scrubNext_mem (c : Nat) : (s.scrubNext c).mem = s.mem :=
  mem_of_only ((State.scrubNext_only (ps := [.mram, .chans]) (by decide) c).mpr .refl) (by decide)

/-! ### Links -/

@[simp] theorem State.linkTick_mem (n : Nat) : (s.linkTick n).mem = s.mem :=
  mem_of_only ((State.linkTick_only (ps := [.out, .links]) (by decide) n).mpr .refl) (by decide)
@[simp] theorem State.lctl_mem (n : Nat) (body : List Byte) : (s.lctl n body).mem = s.mem :=
  mem_of_only ((State.lctl_only (ps := [.out, .links]) (by decide) n body).mpr .refl) (by decide)
@[simp] theorem State.sendOn_mem (n : Nat) (p : Packet) : (s.sendOn n p).mem = s.mem :=
  mem_of_only ((State.sendOn_only (ps := [.links]) (by decide) n p).mpr .refl) (by decide)
@[simp] theorem State.bulkRead_mem (p : Packet) : (s.bulkRead p).mem = s.mem :=
  mem_of_only ((State.bulkRead_only (ps := [.net]) (by decide) p).mpr .refl) (by decide)
@[simp] theorem State.dropPkt_mem (arr : Option Nat) (p : Packet) (cause : Nat) : (s.dropPkt arr p cause).mem = s.mem :=
  mem_of_only ((State.dropPkt_only (ps := [.out, .net, .ledger, .host, .watch]) (by decide) arr p cause).mpr .refl) (by decide)
@[simp] theorem State.freeRx_mem (arr : Option Nat) (p : Packet) : (s.freeRx arr p).mem = s.mem :=
  mem_of_only ((State.freeRx_only (ps := [.links]) (by decide) arr p).mpr .refl) (by decide)
@[simp] theorem State.abortAll_mem (c n : Nat) (g : Tag) : (s.abortAll c n g).mem = s.mem :=
  mem_of_only ((State.abortAll_only (ps := [.out, .ctx0, .ctx1, .net, .ledger, .host, .watch]) (by decide) c n g).mpr .refl) (by decide)
@[simp] theorem State.failPort_mem (n : Nat) : (s.failPort n).mem = s.mem :=
  mem_of_only ((State.failPort_only (ps := [.out, .ctx0, .ctx1, .links, .net, .ledger, .host, .watch]) (by decide) n).mpr .refl) (by decide)
@[simp] theorem State.trainLink_mem (n : Nat) : (s.trainLink n).mem = s.mem :=
  mem_of_only ((State.trainLink_only (ps := [.links]) (by decide) n).mpr .refl) (by decide)
@[simp] theorem State.retrain_mem (n : Nat) : (s.retrain n).mem = s.mem :=
  mem_of_only ((State.retrain_only (ps := [.links]) (by decide) n).mpr .refl) (by decide)
@[simp] theorem State.failLane_mem (n k : Nat) : (s.failLane n k).mem = s.mem :=
  mem_of_only ((State.failLane_only (ps := [.out, .links, .ledger, .host, .watch]) (by decide) n k).mpr .refl) (by decide)
@[simp] theorem State.afterLanes_mem (n : Nat) : (s.afterLanes n).mem = s.mem :=
  mem_of_only ((State.afterLanes_only (ps := [.out, .ctx0, .ctx1, .links, .net, .ledger, .host, .watch]) (by decide) n).mpr .refl) (by decide)
@[simp] theorem State.badClass_mem (n : Nat) : (s.badClass n).mem = s.mem :=
  mem_of_only ((State.badClass_only (ps := [.out, .ledger, .host, .watch]) (by decide) n).mpr .refl) (by decide)
@[simp] theorem State.badFlit_mem (n : Nat) (bad : Bool) : (s.badFlit n bad).mem = s.mem :=
  mem_of_only ((State.badFlit_only (ps := [.out, .links]) (by decide) n bad).mpr .refl) (by decide)
@[simp] theorem State.takePacket_mem (n v : Nat) : (s.takePacket n v).mem = s.mem :=
  mem_of_only ((State.takePacket_only (ps := [.links, .net]) (by decide) n v).mpr .refl) (by decide)
@[simp] theorem State.goodFlit_mem (n : Nat) (f : Flit) : (s.goodFlit n f).mem = s.mem :=
  mem_of_only ((State.goodFlit_only (ps := [.out, .links, .net]) (by decide) n f).mpr .refl) (by decide)

/-! ### Network -/

@[simp] theorem State.offered_mem (c at_ dest : Nat) (o : Option MemPacket) : (s.offered c at_ dest o).mem = s.mem :=
  mem_of_only ((State.offered_only (ps := [.net]) (by decide) c at_ dest o).mpr .refl) (by decide)
@[simp] theorem State.setGroup_mem (g : Nat) (v : McGroup) : (s.setGroup g v).mem = s.mem :=
  mem_of_only ((State.setGroup_only (ps := [.net]) (by decide) g v).mpr .refl) (by decide)
@[simp] theorem State.detachLate_mem (g : Nat) : (s.detachLate g).mem = s.mem :=
  mem_of_only ((State.detachLate_only (ps := [.out, .net, .ledger, .host, .watch]) (by decide) g).mpr .refl) (by decide)
@[simp] theorem State.openGroup_mem (g : Nat) : (s.openGroup g).mem = s.mem :=
  mem_of_only ((State.openGroup_only (ps := [.net]) (by decide) g).mpr .refl) (by decide)

/-! ### BringUp -/

@[simp] theorem State.dropField_mem (sq : Nat) : (s.dropField sq).mem = s.mem :=
  mem_of_only ((State.dropField_only (ps := [.mram]) (by decide) sq).mpr .refl) (by decide)
@[simp] theorem State.loadSquad_mem (l : Option Nat) (sq : Nat) : (s.loadSquad l sq).mem = s.mem :=
  mem_of_only ((State.loadSquad_only (ps := [.out, .dev, .mram, .ctx0, .ctx1, .squads, .chans, .net, .ledger, .host, .watch]) (by decide) l sq).mpr .refl) (by decide)
@[simp] theorem State.repairRow_mem (c : Nat) (ok : Bool) (e : Nat × Nat × Nat) : (s.repairRow c ok e).mem = s.mem :=
  mem_of_only ((State.repairRow_only (ps := [.free, .out, .dev, .mram, .ctx0, .ctx1, .squads, .chans, .ledger, .host, .watch]) (by decide) c ok e).mpr .refl) (by decide)
@[simp] theorem State.blankChan_mem (c : Nat) : (s.blankChan c).mem = s.mem :=
  mem_of_only ((State.blankChan_only (ps := [.chans]) (by decide) c).mpr .refl) (by decide)

/-! ### Faults -/

@[simp] theorem State.logWork_mem (ch seq : Nat) (cls : Cls) (moved : Bool) : (s.logWork ch seq cls moved).mem = s.mem :=
  mem_of_only ((State.logWork_only (ps := [.out, .ledger, .host, .watch]) (by decide) ch seq cls moved).mpr .refl) (by decide)
@[simp] theorem State.squadFault_mem (n sq : Nat) (f : Flight) (item : Nat) : (s.squadFault n sq f item).2.mem = s.mem :=
  mem_of_only ((State.squadFault_only (ps := [.out, .dev, .mram, .ctx0, .ctx1, .squads, .chans, .net, .ledger, .host, .watch]) (by decide) n sq f item).mpr .refl) (by decide)
@[simp] theorem State.redoItem_mem (sq : Nat) (it : Item) : (s.redoItem sq it).mem = s.mem :=
  mem_of_only ((State.redoItem_only (ps := [.ctx0, .ctx1, .squads]) (by decide) sq it).mpr .refl) (by decide)
@[simp] theorem State.faultItem_mem (sq : Nat) (it : Item) : (s.faultItem sq it).mem = s.mem :=
  mem_of_only ((State.faultItem_only (ps := [.out, .dev, .mram, .ctx0, .ctx1, .squads, .chans, .net, .ledger, .host, .watch]) (by decide) sq it).mpr .refl) (by decide)
@[simp] theorem State.faultBlock_mem (n sq : Nat) (f : Flight) (b : Nat) : (s.faultBlock n sq f b).mem = s.mem :=
  mem_of_only ((State.faultBlock_only (ps := [.out, .dev, .mram, .ctx0, .ctx1, .squads, .chans, .net, .ledger, .host, .watch]) (by decide) n sq f b).mpr .refl) (by decide)
@[simp] theorem State.dmaDisable_mem (c d : Nat) : (s.dmaDisable c d).mem = s.mem :=
  mem_of_only ((State.dmaDisable_only (ps := [.out, .regs, .ctx0, .ctx1, .chans, .ledger, .host, .watch]) (by decide) c d).mpr .refl) (by decide)
@[simp] theorem State.faultDma_mem (c d : Nat) : (s.faultDma c d).mem = s.mem :=
  mem_of_only ((State.faultDma_only (ps := [.out, .regs, .ctx0, .ctx1, .squads, .chans, .ledger, .host, .watch]) (by decide) c d).mpr .refl) (by decide)
@[simp] theorem State.engineFails_mem (e : Engine) : (s.engineFails e).mem = s.mem :=
  mem_of_only ((State.engineFails_only (ps := [.out, .regs, .dev, .mram, .ctx0, .ctx1, .squads, .chans, .net, .ledger, .host, .watch]) (by decide) e).mpr .refl) (by decide)
@[simp] theorem State.takePending_mem : (s.takePending).mem = s.mem :=
  mem_of_only ((State.takePending_only (ps := [.out, .dev, .ctx0, .ctx1, .squads, .chans, .ledger, .host, .watch]) (by decide)).mpr .refl) (by decide)

/-! ### Time -/

@[simp] theorem State.flag242_mem (v : Bool) : (s.flag242 v).mem = s.mem :=
  mem_of_only ((State.flag242_only (ps := [.ctx0, .ctx1]) (by decide) v).mpr .refl) (by decide)
@[simp] theorem State.firstTime_mem (st : W64) : (s.firstTime st).mem = s.mem :=
  mem_of_only ((State.firstTime_only (ps := [.out, .regs, .clk, .dev, .ctx0, .ctx1, .ledger, .host, .watch]) (by decide) st).mpr .refl) (by decide)
@[simp] theorem State.forgetTime_mem : (s.forgetTime).mem = s.mem :=
  mem_of_only ((State.forgetTime_only (ps := [.clk, .ctx0, .ctx1]) (by decide)).mpr .refl) (by decide)
@[simp] theorem State.correct_mem (e : Int) : (s.correct e).mem = s.mem :=
  mem_of_only ((State.correct_only (ps := [.out, .regs, .clk, .ctx0, .ctx1, .ledger, .host, .watch]) (by decide) e).mpr .refl) (by decide)
@[simp] theorem State.takeWhistle_mem (est : Nat) (hops : Nat) : (s.takeWhistle est hops).mem = s.mem :=
  mem_of_only ((State.takeWhistle_only (ps := [.out, .regs, .clk, .dev, .ctx0, .ctx1, .ledger, .host, .watch]) (by decide) est hops).mpr .refl) (by decide)
@[simp] theorem State.sendWhistle_mem (w : Whistle) : (s.sendWhistle w).mem = s.mem :=
  mem_of_only ((State.sendWhistle_only (ps := [.links]) (by decide) w).mpr .refl) (by decide)
@[simp] theorem State.forwardWhistle_mem (w : Whistle) (wp residence : Nat) : (s.forwardWhistle w wp residence).mem = s.mem :=
  mem_of_only ((State.forwardWhistle_only (ps := [.links]) (by decide) w wp residence).mpr .refl) (by decide)
@[simp] theorem State.tick_mem : (s.tick).mem = s.mem :=
  mem_of_only ((State.tick_only (ps := [.out, .clk, .dev, .ctx0, .ctx1, .chans, .links, .net]) (by decide)).mpr .refl) (by decide)

/-! ### Power -/

@[simp] theorem State.writeHoldup_mem (r : Rec) : (s.writeHoldup r).mem = s.mem :=
  mem_of_only ((State.writeHoldup_only (ps := [.out, .ledger, .host, .watch]) (by decide) r).mpr .refl) (by decide)
@[simp] theorem State.darkRecord_mem (trigger : Nat) : (s.darkRecord trigger).mem = s.mem :=
  mem_of_only ((State.darkRecord_only (ps := [.out, .ledger, .host, .watch]) (by decide) trigger).mpr .refl) (by decide)
@[simp] theorem State.holdupHeld_mem : (s.holdupHeld).mem = s.mem :=
  mem_of_only ((State.holdupHeld_only (ps := [.out, .ledger, .host, .watch]) (by decide)).mpr .refl) (by decide)
@[simp] theorem State.setTemps_mem (t : Temps) : (s.setTemps t).mem = s.mem :=
  mem_of_only ((State.setTemps_only (ps := [.pwr]) (by decide) t).mpr .refl) (by decide)

/-! ### Boot -/

@[simp] theorem State.bootFailed_mem (code : Nat) : (s.bootFailed code).mem = s.mem :=
  mem_of_only ((State.bootFailed_only (ps := [.out, .dev, .mram, .ledger, .host, .watch]) (by decide) code).mpr .refl) (by decide)
@[simp] theorem State.startArrays_mem : (s.startArrays).mem = s.mem :=
  mem_of_only ((State.startArrays_only (ps := [.out, .dev, .mram, .ctx0, .ctx1, .squads, .chans, .net, .ledger, .host, .watch]) (by decide)).mpr .refl) (by decide)
@[simp] theorem State.startReady_mem : (s.startReady).mem = s.mem :=
  mem_of_only ((State.startReady_only (ps := [.out, .dev, .mram, .ctx0, .ctx1, .squads, .chans, .ledger, .host, .watch]) (by decide)).mpr .refl) (by decide)

/-! ### HostPort -/

@[simp] theorem State.stopHostSide_mem (c d : Nat) : (s.stopHostSide c d).mem = s.mem :=
  mem_of_only ((State.stopHostSide_only (ps := [.out, .regs, .ctx0, .ctx1, .chans, .ledger, .host, .watch]) (by decide) c d).mpr .refl) (by decide)
@[simp] theorem State.movePending_mem : (s.movePending).mem = s.mem :=
  mem_of_only ((State.movePending_only (ps := [.out, .host]) (by decide)).mpr .refl) (by decide)

/-! ### Board -/

@[simp] theorem State.sample_mem (w : Nat) : (s.sample w).mem = s.mem :=
  mem_of_only ((State.sample_only (ps := [.free, .pwr]) (by decide) w).mpr .refl) (by decide)
@[simp] theorem State.loadIr_mem (ir : Nat) (drives : Bool) : (s.loadIr ir drives).mem = s.mem :=
  mem_of_only ((State.loadIr_only (ps := [.jtag]) (by decide) ir drives).mpr .refl) (by decide)
@[simp] theorem State.scanOut_mem : (s.scanOut).mem = s.mem :=
  mem_of_only ((State.scanOut_only (ps := [.free, .out]) (by decide)).mpr .refl) (by decide)
@[simp] theorem State.scanIf_mem : (s.scanIf).mem = s.mem :=
  mem_of_only ((State.scanIf_only (ps := [.free, .out]) (by decide)).mpr .refl) (by decide)
@[simp] theorem State.smb_mem (l : List Byte) : (s.smb l).mem = s.mem :=
  mem_of_only ((State.smb_only (ps := [.out]) (by decide) l).mpr .refl) (by decide)
@[simp] theorem State.readings_mem (on : Bool) (y0 : Nat) : (s.readings on y0).2.mem = s.mem :=
  mem_of_only ((State.readings_only (ps := [.free]) (by decide) on y0).mpr .refl) (by decide)

/-! ### Registers -/

@[simp] theorem State.unmask_mem (page old : Nat) : (s.unmask page old).mem = s.mem :=
  mem_of_only ((State.unmask_only (ps := [.out, .regs, .host]) (by decide) page old).mpr .refl) (by decide)
@[simp] theorem State.keep_mem (a v : Nat) : (s.keep a v).mem = s.mem :=
  mem_of_only ((State.keep_only (ps := [.out, .regs, .mram, .ctx0, .ctx1, .ledger, .tele, .host]) (by decide) a v).mpr .refl) (by decide)
theorem State.writeWord_mem (a v : Nat) (t : State) (h : s.writeWord a v = some t) : t.mem = s.mem :=
  mem_of_only ((State.writeWord_only (ps := [.out, .regs, .mram, .ctx0, .ctx1, .ledger, .tele, .host]) (by decide) a v t h).mpr .refl) (by decide)
theorem State.writeWords_mem (a v : Nat) (wide : Bool) (t : State) (h : s.writeWords a v wide = some t) : t.mem = s.mem :=
  mem_of_only ((State.writeWords_only (ps := [.out, .regs, .mram, .ctx0, .ctx1, .ledger, .tele, .host]) (by decide) a v wide t h).mpr .refl) (by decide)
@[simp] theorem State.forceRaise_mem (page i : Nat) : (s.forceRaise page i).mem = s.mem :=
  mem_of_only ((State.forceRaise_only (ps := [.out, .host]) (by decide) page i).mpr .refl) (by decide)
@[simp] theorem State.readWord_mem (port : Bool) (a : Nat) : (s.readWord port a).2.mem = s.mem :=
  mem_of_only ((State.readWord_only (ps := [.latchA, .latchB]) (by decide) port a).mpr .refl) (by decide)
@[simp] theorem State.touch_mem (a : Nat) : (s.touch a).mem = s.mem :=
  mem_of_only ((State.touch_only (ps := [.free, .pwr]) (by decide) a).mpr .refl) (by decide)
@[simp] theorem State.restartPeak_mem (a : Nat) : (s.restartPeak a).mem = s.mem :=
  mem_of_only ((State.restartPeak_only (ps := [.pwr]) (by decide) a).mpr .refl) (by decide)

/-! ### Translate -/

@[simp] theorem State.cacheFill_mem (n c k va lg entry : Nat) : (s.cacheFill n c k va lg entry).mem = s.mem :=
  mem_of_only ((State.cacheFill_only (ps := [.chans]) (by decide) n c k va lg entry).mpr .refl) (by decide)
@[simp] theorem State.walkFault_mem (n : Nat) (req : Requester) (va : W64) (write : Bool) (ftype level : Nat) : (s.walkFault n req va write ftype level).mem = s.mem :=
  mem_of_only ((State.walkFault_only (ps := [.out, .regs, .ctx0, .ctx1, .squads, .chans, .ledger, .host, .watch]) (by decide) n req va write ftype level).mpr .refl) (by decide)

end Sys2Proof.Machine
end

