-- ==== Sys2Proof/Laws/Keeps.lean ====
section
/-! SUPPORT. The operations that change a memory: each leaves the queue as it is and keeps the memories' canonical form. Every
lemma reads: what is kept up to the state it starts from is kept up to the state it makes. -/

namespace Sys2Proof.Machine

/-- Keeps, said of the queue and the memories alone. -/
def KeepsM (m t : List Instr × List Host.Cell × List Host.Cell) : Prop :=
  t.1 = m.1 ∧ (Memory.wf m.2.1 = true ∧ Memory.wf m.2.2 = true → Memory.wf t.2.1 = true ∧ Memory.wf t.2.2 = true)

theorem keeps_iff (s t : State) : Keeps s t ↔ KeepsM s.mem t.mem := Iff.rfl

theorem KeepsM.refl (m : List Instr × List Host.Cell × List Host.Cell) : KeepsM m m := ⟨rfl, id⟩

/-- A command that leaves the queue and the memories alone goes on and keeps them. -/
theorem goes_of_mem {s t : State} (h : t.mem = s.mem) : Goes s (.next t) := ⟨t, rfl, by rw [keeps_iff, h]; exact .refl _⟩
theorem goes_self (s : State) : Goes s (.next s) := goes_of_mem rfl
theorem goes_of_keeps {s t : State} (h : KeepsM s.mem t.mem) : Goes s (.next t) := ⟨t, rfl, h⟩
theorem goes_ite {s : State} {c : Prop} [Decidable c] {a b : Res} (ha : Goes s a) (hb : Goes s b) : Goes s (if c then a else b) := by
  split
  · exact ha
  · exact hb
theorem goes_guard {b : Bool} {s t : State} (h : KeepsM s.mem t.mem) : Goes s (guard b s t) := by
  cases b
  · exact goes_self s
  · exact goes_of_keeps h
theorem goes_guard_mem {b : Bool} {s t : State} (h : t.mem = s.mem) : Goes s (guard b s t) :=
  goes_guard (by rw [h]; exact .refl _)

variable {m0 : List Instr × List Host.Cell × List Host.Cell}

theorem keeps_of_mem {s t : State} (h : KeepsM m0 s.mem) (e : t.mem = s.mem) : KeepsM m0 t.mem := e ▸ h

theorem keeps_foldl {α : Type} {f : State → α → State} {l : List α} {s : State} (h : KeepsM m0 s.mem)
    (hf : ∀ u x, KeepsM m0 u.mem → KeepsM m0 (f u x).mem) : KeepsM m0 (l.foldl f s).mem := by
  induction l generalizing s with
  | nil => exact h
  | cons x r ih => exact ih (hf s x h)

theorem keeps_foldl_fst {α β : Type} {f : State × β → α → State × β} {l : List α} {a : State × β} (h : KeepsM m0 a.1.mem)
    (hf : ∀ a x, KeepsM m0 a.1.mem → KeepsM m0 (f a x).1.mem) : KeepsM m0 (l.foldl f a).1.mem := by
  induction l generalizing a with
  | nil => exact h
  | cons x r ih => exact ih (hf a x h)

/-! ### Bytes -/

theorem State.setHbm_keeps {s : State} {v : List Host.Cell} (hk : KeepsM m0 s.mem) (hv : Memory.wf s.hbm = true → Memory.wf v = true) :
    KeepsM m0 (s.setHbm v).mem := ⟨hk.1, fun w => ⟨hv (hk.2 w).1, (hk.2 w).2⟩⟩

theorem State.setStore_keeps {s : State} {v : List Host.Cell} (hk : KeepsM m0 s.mem) (hv : Memory.wf s.store = true → Memory.wf v = true) :
    KeepsM m0 (s.setStore v).mem := ⟨hk.1, fun w => ⟨(hk.2 w).1, hv (hk.2 w).2⟩⟩

theorem State.keepCells_keeps {s : State} {p : Host.Cell → Bool} (hk : KeepsM m0 s.mem) : KeepsM m0 (s.setHbm (s.hbm.filter p)).mem :=
  State.setHbm_keeps hk (Memory.wf_filter _ _)

theorem Memory.wf_moveCells (a b : List Host.Cell) (lo hi n : Nat) (h : Memory.wf b = true) : Memory.wf (moveCells a b lo hi n) = true := by
  have hf (l : List Host.Cell) (x : List Host.Cell) (hx : Memory.wf x = true) :
      Memory.wf (l.foldl (fun m e => cellSet m (e.1 - lo + hi) e.2) x) = true := by
    induction l generalizing x with
    | nil => exact hx
    | cons e r ih => exact ih _ (Memory.wf_cellSet _ _ _ hx)
  exact hf _ _ (Memory.wf_filter _ _ h)


/-! ### Ops -/

theorem State.hbmWrite_keeps {s : State} {space off : Nat} {l : List Byte} (hk : KeepsM m0 s.mem) : KeepsM m0 (s.hbmWrite space off l).mem := by
  exact ⟨hk.1, fun w => ⟨Memory.wf_cellWrite _ _ _ (hk.2 w).1, (hk.2 w).2⟩⟩
theorem State.storeWrite_keeps {s : State} {sq off : Nat} {l : List Byte} (hk : KeepsM m0 s.mem) : KeepsM m0 (s.storeWrite sq off l).mem := by
  exact ⟨hk.1, fun w => ⟨(hk.2 w).1, Memory.wf_cellWrite _ _ _ (hk.2 w).2⟩⟩

/-! ### Mmu -/

theorem State.vwrite_keeps {s : State} {ctx : Nat} {home : Option Nat} {va : Nat} {y0 : List Byte} (hk : KeepsM m0 s.mem) : KeepsM m0 (s.vwrite ctx home va y0).mem := by
  induction y0 generalizing s va with
  | nil => exact hk
  | cons b r ih =>
    unfold State.vwrite; split
    · refine ih ?_
      split
      · exact hk
      · exact State.hbmWrite_keeps hk
    · exact ih hk

/-! ### Operands -/

theorem State.locWrite_keeps {s : State} {ctx : Nat} {h : Option Nat} {l : Loc} {bs : List Byte} (hk : KeepsM m0 s.mem) : KeepsM m0 (s.locWrite ctx h l bs).mem := by
  unfold State.locWrite
  repeat' first
    | assumption
    | with_reducible apply State.storeWrite_keeps
    | with_reducible apply State.vwrite_keeps
    | refine keeps_foldl ?_ fun u x hu => ?_
    | split
    | (simp; done)
    | simp
theorem State.putCode_keeps {s : State} {ctx : Nat} {t : TensorRec} {idx : List Nat} {v : Nat} (hk : KeepsM m0 s.mem) : KeepsM m0 (s.putCode ctx t idx v).mem := by
  unfold State.putCode; dsimp only
  repeat' first
    | assumption
    | with_reducible apply State.locWrite_keeps
    | refine keeps_foldl ?_ fun u x hu => ?_
    | split
    | (simp; done)
    | simp
theorem State.putNum_keeps {s : State} {ctx : Nat} {t : TensorRec} {stoch rep : Bool} {step : Nat} {idx : List Nat} {x : Num} {neg : Bool} (hk : KeepsM m0 s.mem) : KeepsM m0 (s.putNum ctx t stoch rep step idx x neg).st.mem := by
  exact State.putCode_keeps hk
theorem State.putBlock_keeps {s : State} {ctx : Nat} {recs : Tbl TensorRec} {t : TensorRec} {stoch : Bool} {step : Nat} {xs : List (List Nat × Num)} (hk : KeepsM m0 s.mem) : KeepsM m0 (s.putBlock ctx recs t stoch step xs).st.mem := by
  unfold State.putBlock; dsimp only
  repeat' first
    | assumption
    | with_reducible apply State.putCode_keeps
    | refine keeps_foldl ?_ fun u x hu => ?_
    | split
    | (simp; done)
    | simp
theorem State.putMx_keeps {ctx : Nat} {recs : Tbl TensorRec} {t : TensorRec} {stoch : Bool} {step : Nat} {every : Bool} {k : Nat} {w : Wrote}
    {keep xs : List (List Nat × Num)} (hk : KeepsM m0 w.st.mem) : KeepsM m0 (State.putMx ctx recs t stoch step every k w keep xs).1.st.mem := by
  induction k generalizing w keep xs with
  | zero => exact hk
  | succ k ih =>
    unfold State.putMx; split
    · exact hk
    · dsimp only; split
      · exact ih (State.putBlock_keeps hk)
      · exact ih hk
theorem State.putVals_keeps {s : State} {ctx : Nat} {recs : Tbl TensorRec} {t : TensorRec} {stoch rep : Bool} {step : Nat} {xs : List (List Nat × Num)} (hk : KeepsM m0 s.mem) : KeepsM m0 (s.putVals ctx recs t stoch rep step xs).st.mem := by
  unfold State.putVals; split
  · exact State.putMx_keeps hk
  · have hf (l : List (List Nat × Num)) (w : Wrote) (hw : KeepsM m0 w.st.mem) :
        KeepsM m0 (l.foldl (fun (w : Wrote) p =>
          let r := w.st.putNum ctx t stoch rep step p.1 p.2 false
          ({ st := r.st, ovf := w.ovf || r.ovf, nonf := w.nonf || r.nonf } : Wrote)) w).st.mem := by
      induction l generalizing w with
      | nil => exact hw
      | cons x r ih => exact ih _ (State.putNum_keeps hw)
    exact hf _ _ hk

/-! ### Stream -/

theorem State.streamPut_keeps {s : State} {n : Nat} {t : TensorRec} {k : Nat} {b : Byte} (hk : KeepsM m0 s.mem) : KeepsM m0 (s.streamPut n t k b).mem := by
  unfold State.streamPut; dsimp only
  repeat' first
    | assumption
    | with_reducible apply State.putCode_keeps
    | refine keeps_foldl ?_ fun u x hu => ?_
    | split
    | (simp; done)
    | simp
theorem State.streamWrite_keeps {s : State} {n : Nat} {t : TensorRec} {k : Nat} {y0 : List Byte} (hk : KeepsM m0 s.mem) : KeepsM m0 (s.streamWrite n t k y0).mem := by
  induction y0 generalizing s k with
  | nil => exact hk
  | cons b r ih => exact ih (State.streamPut_keeps hk)
theorem State.edgeFill_keeps {s : State} {n : Nat} {t : TensorRec} (hk : KeepsM m0 s.mem) : KeepsM m0 (s.edgeFill n t).mem := by
  unfold State.edgeFill; dsimp only
  repeat' first
    | assumption
    | with_reducible apply State.putCode_keeps
    | refine keeps_foldl ?_ fun u x hu => ?_
    | split
    | (simp; done)
    | simp

/-! ### Collect -/

theorem State.rootResult_keeps {s : State} {n tag : Nat} {g : Tag} {f : Flight} {k : CollKind} {off : Nat} {data : List Byte} (hk : KeepsM m0 s.mem) : KeepsM m0 (s.rootResult n tag g f k off data).mem := by
  unfold State.rootResult; dsimp only
  repeat' first
    | assumption
    | with_reducible apply State.streamWrite_keeps
    | refine keeps_foldl ?_ fun u x hu => ?_
    | split
    | (simp; done)
    | simp
theorem State.feedNode_keeps {s : State} {n tag : Nat} {y0 : Nat} {y1 : Nat} {y2 : Bool} {y3 : Nat} {y4 : List Byte} (hk : KeepsM m0 s.mem) : KeepsM m0 (s.feedNode n tag y0 y1 y2 y3 y4).mem := by
  induction y0 generalizing s y1 y2 y3 y4 with
  | zero => exact hk
  | succ k ih =>
    unfold State.feedNode; dsimp only
    (repeat' split) <;> first | exact hk | exact ih hk | exact ih (by simpa using hk) | exact State.rootResult_keeps hk | (simpa using hk)
theorem State.contribute_keeps {s : State} {n tag off : Nat} {data : List Byte} (hk : KeepsM m0 s.mem) : KeepsM m0 (s.contribute n tag off data).mem := by
  unfold State.contribute
  repeat' first
    | assumption
    | with_reducible apply State.feedNode_keeps
    | refine keeps_foldl ?_ fun u x hu => ?_
    | split
    | (simp; done)
    | simp
theorem State.fromRing_keeps {s : State} {n tag : Nat} (hk : KeepsM m0 s.mem) : KeepsM m0 (s.fromRing n tag).mem := by
  unfold State.fromRing
  repeat' first
    | assumption
    | with_reducible apply State.contribute_keeps
    | refine keeps_foldl ?_ fun u x hu => ?_
    | split
    | (simp; done)
    | simp
theorem State.gatherOwn_keeps {s : State} {n : Nat} {f : Flight} (hk : KeepsM m0 s.mem) : KeepsM m0 (s.gatherOwn n f).mem := by
  unfold State.gatherOwn; dsimp only
  repeat' first
    | assumption
    | with_reducible apply State.streamWrite_keeps
    | refine keeps_foldl ?_ fun u x hu => ?_
    | split
    | (simp; done)
    | simp
theorem State.enterColl_keeps {s : State} {n : Nat} {f : Flight} {k : CollKind} {g : Tag} (hk : KeepsM m0 s.mem) : KeepsM m0 (s.enterColl n f k g).mem := by
  unfold State.enterColl
  repeat' first
    | assumption
    | with_reducible apply State.contribute_keeps
    | with_reducible apply State.fromRing_keeps
    | with_reducible apply State.gatherOwn_keeps
    | refine keeps_foldl ?_ fun u x hu => ?_
    | split
    | (simp; done)
    | simp
theorem State.startColl_keeps {s : State} {n : Nat} {f : Flight} {k : CollKind} {tag : Nat} (hk : KeepsM m0 s.mem) : KeepsM m0 (s.startColl n f k tag).mem := by
  unfold State.startColl; dsimp only
  repeat' first
    | assumption
    | with_reducible apply State.enterColl_keeps
    | refine keeps_foldl ?_ fun u x hu => ?_
    | split
    | (simp; done)
    | simp
theorem State.reductionIn_keeps {s : State} {p : Packet} (hk : KeepsM m0 s.mem) : KeepsM m0 (s.reductionIn p).mem := by
  unfold State.reductionIn; dsimp only
  repeat' first
    | assumption
    | with_reducible apply State.streamWrite_keeps
    | with_reducible apply State.feedNode_keeps
    | refine keeps_foldl ?_ fun u x hu => ?_
    | split
    | (simp; done)
    | simp

/-! ### TileCheck -/

theorem State.putFlight_keeps {s : State} {n seq pos : Nat} {recs : Tbl TensorRec} {t : TensorRec} {stoch rep every : Bool} {step : Nat} {xs : List (List Nat × Num)} (hk : KeepsM m0 s.mem) : KeepsM m0 (s.putFlight n seq pos recs t stoch rep every step xs).mem := by
  unfold State.putFlight; dsimp only
  repeat' first
    | assumption
    | with_reducible apply State.putMx_keeps
    | with_reducible apply State.putVals_keeps
    | refine keeps_foldl ?_ fun u x hu => ?_
    | split
    | (simp; done)
    | simp
theorem State.putCodes_keeps {s : State} {n seq pos : Nat} {t : TensorRec} {xs : List (List Nat × Nat)} (hk : KeepsM m0 s.mem) : KeepsM m0 (s.putCodes n seq pos t xs).mem := by
  unfold State.putCodes
  repeat' first
    | assumption
    | with_reducible apply State.putCode_keeps
    | refine keeps_foldl ?_ fun u x hu => ?_
    | split
    | (simp; done)
    | simp
theorem State.sendTile_keeps {s : State} {n tag : Nat} {fmt : Fmt} {xs : List (List Nat × Num)} {step : Nat} {stoch : Bool} {t : TensorRec} (hk : KeepsM m0 s.mem) : KeepsM m0 (s.sendTile n tag fmt xs step stoch t).st.mem := by
  unfold State.sendTile; dsimp only
  repeat' first
    | assumption
    | with_reducible apply State.vwrite_keeps
    | with_reducible apply State.contribute_keeps
    | refine keeps_foldl ?_ fun u x hu => ?_
    | split
    | (simp; done)
    | simp
theorem State.outputTile_keeps {s : State} {it : Item} {last : Flight} {f : Feed} {vals : Tbl W64} (hk : KeepsM m0 s.mem) : KeepsM m0 (s.outputTile it last f vals).mem := by
  unfold State.outputTile; dsimp only
  repeat' first
    | assumption
    | with_reducible apply State.putFlight_keeps
    | with_reducible apply State.putCodes_keeps
    | with_reducible apply State.sendTile_keeps
    | refine keeps_foldl ?_ fun u x hu => ?_
    | split
    | (simp; done)
    | simp
theorem State.commitTile_keeps {s : State} {sq : Nat} {m : MatOp} {d : Descriptor} {dr : Drain} (hk : KeepsM m0 s.mem) : KeepsM m0 (s.commitTile sq m d dr).mem := by
  unfold State.commitTile; dsimp only
  repeat' first
    | assumption
    | with_reducible apply State.outputTile_keeps
    | refine keeps_foldl ?_ fun u x hu => ?_
    | split
    | (simp; done)
    | simp
theorem State.tilePass_keeps {s : State} {sq : Nat} {m : MatOp} {d : Descriptor} {dr : Drain} (hk : KeepsM m0 s.mem) : KeepsM m0 (s.tilePass sq m d dr).mem := by
  unfold State.tilePass; dsimp only
  repeat' first
    | assumption
    | with_reducible apply State.commitTile_keeps
    | refine keeps_foldl ?_ fun u x hu => ?_
    | split
    | (simp; done)
    | simp
theorem State.tileFail_keeps {s : State} {sq : Nat} {m : MatOp} {d : Descriptor} {dr : Drain} {rf cf : List Nat} {det : Nat} (hk : KeepsM m0 s.mem) : KeepsM m0 (s.tileFail sq m d dr rf cf det).mem := by
  unfold State.tileFail; dsimp only
  repeat' first
    | assumption
    | with_reducible apply State.commitTile_keeps
    | refine keeps_foldl ?_ fun u x hu => ?_
    | split
    | (simp; done)
    | simp

/-! ### Update -/

theorem State.writeOut_keeps {s : State} {n : Nat} {f : Flight} {e out : Nat} {src dst : Option Nat} {first : Nat} {keep : List Bool} {vals : List (Option Word)} {stoch : Bool} (hk : KeepsM m0 s.mem) : KeepsM m0 (s.writeOut n f e out src dst first keep vals stoch).1.mem := by
  unfold State.writeOut; dsimp only; split
  · exact keeps_foldl_fst (a := (s, [])) hk fun acc x ha => State.putCode_keeps ha
  · exact hk
theorem State.applyBlock_keeps {s : State} {n : Nat} {f : Flight} {e : Nat} {en : ShardEntry} {first : Nat} {lanes : List Lane} {copy : Bool} {sr : List Bool} (hk : KeepsM m0 s.mem) : KeepsM m0 (s.applyBlock n f e en first lanes copy sr).mem := by
  unfold State.applyBlock; dsimp only
  repeat' first
    | assumption
    | with_reducible apply State.writeOut_keeps
    | refine keeps_foldl ?_ fun u x hu => ?_
    | split
    | (simp; done)
    | simp

/-! ### Dma -/

theorem State.sideWrite_keeps {s : State} {x : Xfer} {k : Nat} {l : List Byte} (hk : KeepsM m0 s.mem) : KeepsM m0 (s.sideWrite x k l).mem := by
  unfold State.sideWrite
  repeat' first
    | assumption
    | with_reducible apply State.storeWrite_keeps
    | with_reducible apply State.vwrite_keeps
    | with_reducible apply State.streamWrite_keeps
    | refine keeps_foldl ?_ fun u x hu => ?_
    | split
    | (simp; done)
    | simp
theorem State.dmaDone_keeps {s : State} {c d : Nat} {x : Xfer} (hk : KeepsM m0 s.mem) : KeepsM m0 (s.dmaDone c d x).mem := by
  unfold State.dmaDone; dsimp only
  repeat' first
    | assumption
    | with_reducible apply State.edgeFill_keeps
    | refine keeps_foldl ?_ fun u x hu => ?_
    | split
    | (simp; done)
    | simp
theorem State.dmaMoved_keeps {s : State} {c d : Nat} {x : Xfer} {n : Nat} (hk : KeepsM m0 s.mem) : KeepsM m0 (s.dmaMoved c d x n).mem := by
  unfold State.dmaMoved; dsimp only
  repeat' first
    | assumption
    | with_reducible apply State.dmaDone_keeps
    | refine keeps_foldl ?_ fun u x hu => ?_
    | split
    | (simp; done)
    | simp
theorem State.dmaMove_keeps {s : State} {c d : Nat} {x : Xfer} {dstK : Nat} {parts : List (Nat × Option Nat)} {host : List Byte} (hk : KeepsM m0 s.mem) : KeepsM m0 (s.dmaMove c d x dstK parts host).mem := by
  unfold State.dmaMove; dsimp only
  repeat' first
    | assumption
    | with_reducible apply State.sideWrite_keeps
    | with_reducible apply State.dmaMoved_keeps
    | refine keeps_foldl ?_ fun u x hu => ?_
    | split
    | (simp; done)
    | simp

/-! ### Retire -/

theorem State.genMap_keeps {s : State} {n : Nat} {recs : Tbl TensorRec} {t : TensorRec} (hk : KeepsM m0 s.mem) : KeepsM m0 (s.genMap n recs t).mem := by
  unfold State.genMap; dsimp only
  repeat' first
    | assumption
    | with_reducible apply State.locWrite_keeps
    | refine keeps_foldl ?_ fun u x hu => ?_
    | split
    | (simp; done)
    | simp
theorem State.noteWritten_keeps {s : State} {n : Nat} {d : Descriptor} {recs : Tbl TensorRec} {r : TensorRec} {h : Nat} {bad whole : Bool} (hk : KeepsM m0 s.mem) : KeepsM m0 (s.noteWritten n d recs r h bad whole).mem := by
  unfold State.noteWritten; dsimp only
  repeat' first
    | assumption
    | with_reducible apply State.genMap_keeps
    | refine keeps_foldl ?_ fun u x hu => ?_
    | split
    | (simp; done)
    | simp
theorem State.noteOutputs_keeps {s : State} {n : Nat} {f : Flight} (hk : KeepsM m0 s.mem) : KeepsM m0 (s.noteOutputs n f).mem := by
  unfold State.noteOutputs; dsimp only
  repeat' first
    | assumption
    | with_reducible apply State.noteWritten_keeps
    | refine keeps_foldl ?_ fun u x hu => ?_
    | split
    | (simp; done)
    | simp
theorem State.flushMx_keeps {s : State} {n : Nat} {f : Flight} (hk : KeepsM m0 s.mem) : KeepsM m0 (s.flushMx n f).mem := by
  unfold State.flushMx
  repeat' first
    | assumption
    | with_reducible apply State.putFlight_keeps
    | refine keeps_foldl ?_ fun u x hu => ?_
    | split
    | (simp; done)
    | simp
theorem State.endOutputs_keeps {s : State} {n : Nat} {f : Flight} (hk : KeepsM m0 s.mem) : KeepsM m0 (s.endOutputs n f).mem := by
  unfold State.endOutputs; dsimp only
  repeat' first
    | assumption
    | with_reducible apply State.noteOutputs_keeps
    | with_reducible apply State.flushMx_keeps
    | refine keeps_foldl ?_ fun u x hu => ?_
    | split
    | (simp; done)
    | simp
theorem State.completeOne_keeps {s : State} {n : Nat} {f : Flight} (hk : KeepsM m0 s.mem) : KeepsM m0 (s.completeOne n f).mem := by
  unfold State.completeOne
  repeat' first
    | assumption
    | with_reducible apply State.endOutputs_keeps
    | refine keeps_foldl ?_ fun u x hu => ?_
    | split
    | (simp; done)
    | simp
theorem State.completeMat_keeps {s : State} {n : Nat} {m : MatOp} (hk : KeepsM m0 s.mem) : KeepsM m0 (s.completeMat n m).mem := by
  unfold State.completeMat; dsimp only
  repeat' first
    | assumption
    | with_reducible apply State.endOutputs_keeps
    | refine keeps_foldl ?_ fun u x hu => ?_
    | split
    | (simp; done)
    | simp

/-! ### Issue -/

theorem State.startEngine_keeps {s : State} {n : Nat} {f : Flight} (hk : KeepsM m0 s.mem) : KeepsM m0 (s.startEngine n f).mem := by
  unfold State.startEngine
  repeat' first
    | assumption
    | with_reducible apply State.startColl_keeps
    | refine keeps_foldl ?_ fun u x hu => ?_
    | split
    | (simp; done)
    | simp
theorem State.issueFlight_keeps {s : State} {n : Nat} {k : Cls} {f : Flight} (hk : KeepsM m0 s.mem) : KeepsM m0 (s.issueFlight n k f).mem := by
  unfold State.issueFlight; dsimp only
  repeat' first
    | assumption
    | with_reducible apply State.startEngine_keeps
    | refine keeps_foldl ?_ fun u x hu => ?_
    | split
    | (simp; done)
    | simp

/-! ### Block -/

theorem State.putOut_keeps {s : State} {n : Nat} {f : Flight} {pos : Nat} {t : TensorRec} {xs : List (List Nat × Num)} (hk : KeepsM m0 s.mem) : KeepsM m0 (s.putOut n f pos t xs).mem := by
  unfold State.putOut
  repeat' first
    | assumption
    | with_reducible apply State.putFlight_keeps
    | refine keeps_foldl ?_ fun u x hu => ?_
    | split
    | (simp; done)
    | simp
theorem State.putCast_keeps {s : State} {n : Nat} {f : Flight} {src : TensorRec} {pos : Nat} {t : TensorRec} {xs : List (List Nat × Num)} (hk : KeepsM m0 s.mem) : KeepsM m0 (s.putCast n f src pos t xs).mem := by
  unfold State.putCast; dsimp only
  repeat' first
    | assumption
    | with_reducible apply State.putNum_keeps
    | with_reducible apply State.putCodes_keeps
    | with_reducible apply State.putOut_keeps
    | refine keeps_foldl ?_ fun u x hu => ?_
    | split
    | (simp; done)
    | simp
theorem State.vecBlock_keeps {s : State} {n : Nat} {f : Flight} {mb : Option (List ShortMsg)} {op : VecOp} {t : TensorRec} {idxs : List (List Nat)} (hk : KeepsM m0 s.mem) : KeepsM m0 (s.vecBlock n f mb op t idxs).mem := by
  unfold State.vecBlock; dsimp only
  repeat' first
    | assumption
    | with_reducible apply State.putOut_keeps
    | with_reducible apply State.putCast_keeps
    | refine keeps_foldl ?_ fun u x hu => ?_
    | split
    | (simp; done)
    | simp
theorem State.writeStat_keeps {s : State} {sq n : Nat} {va : Option Nat} {p : Word × Word} (hk : KeepsM m0 s.mem) : KeepsM m0 (s.writeStat sq n va p).mem := by
  unfold State.writeStat; split
  · exact hk
  · exact State.vwrite_keeps (by rw [State.modSquad_mem, State.dropStat_mem]; exact hk)
theorem State.rowStep_keeps {s : State} {sq n : Nat} {f : Flight} {k : RowKind} {bw : Bool} {eps : Word} {xt t : TensorRec} {tail : List Nat} (hk : KeepsM m0 s.mem) : KeepsM m0 (s.rowStep sq n f k bw eps xt t tail).mem := by
  unfold State.rowStep; dsimp only
  generalize statVa xt tail = va
  cases bw with
  | false => exact State.writeStat_keeps (State.putOut_keeps hk)
  | true =>
    cases va with
    | none => exact State.putOut_keeps hk
    | some a => exact (State.dropStat_mem _).symm ▸ State.putOut_keeps hk
theorem State.rowBlock_keeps {s : State} {sq n : Nat} {f : Flight} {k : RowKind} {bw : Bool} {eps : Word} {xt t : TensorRec} {b : Nat} (hk : KeepsM m0 s.mem) : KeepsM m0 (s.rowBlock sq n f k bw eps xt t b).mem := by
  unfold State.rowBlock
  repeat' first
    | assumption
    | with_reducible apply State.rowStep_keeps
    | refine keeps_foldl ?_ fun u x hu => ?_
    | split
    | (simp; done)
    | simp
theorem State.gammaGrad_keeps {s : State} {sq n : Nat} {f : Flight} {k : RowKind} {eps : Word} {xt dt : TensorRec} (hk : KeepsM m0 s.mem) : KeepsM m0 (s.gammaGrad sq n f k eps xt dt).mem := by
  unfold State.gammaGrad; dsimp only
  repeat' first
    | assumption
    | with_reducible apply State.putOut_keeps
    | refine keeps_foldl ?_ fun u x hu => ?_
    | split
    | (simp; done)
    | simp
theorem State.commitVector_keeps {s : State} {sq : Nat} (hk : KeepsM m0 s.mem) : KeepsM m0 (s.commitVector sq).mem := by
  unfold State.commitVector; dsimp only
  repeat' first
    | assumption
    | with_reducible apply State.vecBlock_keeps
    | refine keeps_foldl ?_ fun u x hu => ?_
    | split
    | (simp; done)
    | simp
theorem State.commitRow_keeps {s : State} {sq : Nat} (hk : KeepsM m0 s.mem) : KeepsM m0 (s.commitRow sq).mem := by
  unfold State.commitRow; dsimp only
  repeat' first
    | assumption
    | with_reducible apply State.rowBlock_keeps
    | with_reducible apply State.gammaGrad_keeps
    | refine keeps_foldl ?_ fun u x hu => ?_
    | split
    | (simp; done)
    | simp
theorem State.commitUpdate_keeps {s : State} {sq : Nat} (hk : KeepsM m0 s.mem) : KeepsM m0 (s.commitUpdate sq).mem := by
  unfold State.commitUpdate; dsimp only
  repeat' first
    | assumption
    | with_reducible apply State.applyBlock_keeps
    | refine keeps_foldl ?_ fun u x hu => ?_
    | split
    | (simp; done)
    | simp
theorem State.land_keeps {s : State} {sq : Nat} {r : StreamRec} {k : Nat} {l : List Byte} (hk : KeepsM m0 s.mem) : KeepsM m0 (s.land sq r k l).mem := by
  unfold State.land
  repeat' first
    | assumption
    | with_reducible apply State.storeWrite_keeps
    | with_reducible apply State.streamWrite_keeps
    | with_reducible apply State.edgeFill_keeps
    | refine keeps_foldl ?_ fun u x hu => ?_
    | split
    | (simp; done)
    | simp
theorem State.fetchMove_keeps {s : State} {sq : Nat} {r : StreamRec} (hk : KeepsM m0 s.mem) : KeepsM m0 (s.fetchMove sq r).mem := by
  unfold State.fetchMove
  repeat' first
    | assumption
    | with_reducible apply State.vwrite_keeps
    | with_reducible apply State.land_keeps
    | refine keeps_foldl ?_ fun u x hu => ?_
    | split
    | (simp; done)
    | simp
theorem State.commitFetch_keeps {s : State} {sq : Nat} (hk : KeepsM m0 s.mem) : KeepsM m0 (s.commitFetch sq).mem := by
  unfold State.commitFetch
  (repeat' split) <;> first
    | exact hk
    | (rw [State.engineFault_mem]; exact hk)
    | (rename_i h; rw [State.popPort_mem]; exact State.fetchMove_keeps (by rw [State.regulate_mem _ _ _ h]; exact hk))
theorem State.verdict_keeps {s : State} {sq : Nat} {m : MatOp} {d : Descriptor} {dr : Drain} {rf cf : List Nat} {det : Nat} (hk : KeepsM m0 s.mem) : KeepsM m0 (s.verdict sq m d dr rf cf det).mem := by
  unfold State.verdict; dsimp only
  repeat' first
    | assumption
    | with_reducible apply State.tilePass_keeps
    | with_reducible apply State.tileFail_keeps
    | refine keeps_foldl ?_ fun u x hu => ?_
    | split
    | (simp; done)
    | simp

/-! ### Bar2 -/

theorem State.hostBytes_keeps {s : State} {space : Nat} {y0 : Nat} {y1 : Nat} {y2 : List Byte} (hk : KeepsM m0 s.mem) : KeepsM m0 (s.hostBytes space y0 y1 y2).mem := by
  induction y0 generalizing s y1 y2 with
  | zero => exact hk
  | succ k ih =>
    unfold State.hostBytes; dsimp only
    apply ih
    (repeat' split) <;> first | exact hk | exact State.hbmWrite_keeps hk
theorem State.serveBar2_keeps {s : State} {r : Bar2Req} (hk : KeepsM m0 s.mem) : KeepsM m0 (s.serveBar2 r).mem := by
  unfold State.serveBar2
  repeat' first
    | assumption
    | with_reducible apply State.hostBytes_keeps
    | with_reducible apply State.request_keeps
    | refine keeps_foldl ?_ fun u x hu => ?_
    | split
    | (simp; done)
    | simp
theorem State.serveOpen_keeps {s : State}(hk : KeepsM m0 s.mem) : KeepsM m0 (s.serveOpen).mem := by
  unfold State.serveOpen; dsimp only
  repeat' first
    | assumption
    | with_reducible apply State.serveBar2_keeps
    | refine keeps_foldl ?_ fun u x hu => ?_
    | split
    | (simp; done)
    | simp

/-! ### Preempt -/

theorem State.spillPage_keeps {s : State} {q p : Nat} (hk : KeepsM m0 s.mem) : KeepsM m0 (s.spillPage q p).mem := by
  unfold State.spillPage
  cases s.copyAt q p true with
  | none => exact hk
  | some e =>
    have h : KeepsM m0 (s.freshPage e.1 e.2).mem := by simpa using hk
    exact State.setHbm_keeps h fun w => Memory.wf_moveCells _ _ _ _ _ (by have k : (s.freshPage e.1 e.2).mem = s.mem := by simp
                                                                          have k2 := congrArg (·.2.1) k
                                                                          exact (show (s.freshPage e.1 e.2).hbm = s.hbm from k2) ▸ w)
theorem State.spillLatches_keeps {s : State} {q : Nat} (hk : KeepsM m0 s.mem) : KeepsM m0 (s.spillLatches q).mem := by
  unfold State.spillLatches
  split
  · exact hk
  · rw [State.modSquad_mem]
    refine keeps_foldl hk fun u e hu => ?_
    cases u.copyAt q _ true with
    | none => exact hu
    | some x => exact State.hbmWrite_keeps (by simpa using hu)
theorem State.fillPage_keeps {s : State} {q p : Nat} (hk : KeepsM m0 s.mem) : KeepsM m0 (s.fillPage q p).mem := by
  unfold State.fillPage
  cases s.copyAt q p false with
  | none => exact hk
  | some e => exact State.setStore_keeps hk (Memory.wf_moveCells _ _ _ _ _)
theorem State.spillAll_keeps {s : State}(hk : KeepsM m0 s.mem) : KeepsM m0 (s.spillAll).mem := by
  exact keeps_foldl (keeps_foldl hk fun u x hu => State.spillPage_keeps hu) fun u x hu => State.spillLatches_keeps hu
theorem State.fillAll_keeps {s : State}(hk : KeepsM m0 s.mem) : KeepsM m0 (s.fillAll).mem := by
  exact keeps_foldl (keeps_foldl hk fun u x hu => State.fillPage_keeps hu) fun u x hu => by rw [State.fillLatches_mem]; exact hu

/-! ### MemCtl -/

theorem State.losePc_keeps {s : State} {c p : Nat} (hk : KeepsM m0 s.mem) : KeepsM m0 (s.losePc c p).mem := by
  unfold State.losePc; dsimp only
  repeat' first
    | assumption
    | with_reducible apply State.serveOpen_keeps
    | refine keeps_foldl ?_ fun u x hu => ?_
    | split
    | (simp; done)
    | simp
theorem State.poisonBurst_keeps {s : State} {space off : Nat} {scrub : Bool} (hk : KeepsM m0 s.mem) : KeepsM m0 (s.poisonBurst space off scrub).mem := by
  unfold State.poisonBurst; dsimp only
  repeat' first
    | assumption
    | with_reducible apply State.losePc_keeps
    | refine keeps_foldl ?_ fun u x hu => ?_
    | split
    | (simp; done)
    | simp
theorem State.storeBytes_keeps {s : State} {space off : Nat} {l : List Byte} (hk : KeepsM m0 s.mem) : KeepsM m0 (s.storeBytes space off l).mem := by
  unfold State.storeBytes; dsimp only
  repeat' first
    | assumption
    | with_reducible apply State.hbmWrite_keeps
    | refine keeps_foldl ?_ fun u x hu => ?_
    | split
    | (simp; done)
    | simp
theorem State.storeBurst_keeps {s : State} {space off : Nat} {l : List Byte} (hk : KeepsM m0 s.mem) : KeepsM m0 (s.storeBurst space off l).mem := by
  unfold State.storeBurst; dsimp only
  repeat' first
    | assumption
    | with_reducible apply State.storeBytes_keeps
    | refine keeps_foldl ?_ fun u x hu => ?_
    | split
    | (simp; done)
    | simp
theorem State.deliverBurst_keeps {s : State} {r : BurstReq} {data : List Byte} {fixed : Bool} (hk : KeepsM m0 s.mem) : KeepsM m0 (s.deliverBurst r data fixed).mem := by
  unfold State.deliverBurst
  repeat' first
    | assumption
    | with_reducible apply State.storeBytes_keeps
    | with_reducible apply State.request_keeps
    | refine keeps_foldl ?_ fun u x hu => ?_
    | split
    | (simp; done)
    | simp
theorem State.readFor_keeps {s : State} {r : BurstReq} {errs : List (Nat × Byte)} (hk : KeepsM m0 s.mem) : KeepsM m0 (s.readFor r errs).mem := by
  unfold State.readFor; dsimp only
  repeat' first
    | assumption
    | with_reducible apply State.deliverBurst_keeps
    | with_reducible apply State.request_keeps
    | refine keeps_foldl ?_ fun u x hu => ?_
    | split
    | (simp; done)
    | simp
theorem State.perform_keeps {s : State} {r : BurstReq} {errs : List (Nat × Byte)} (hk : KeepsM m0 s.mem) : KeepsM m0 (s.perform r errs).mem := by
  unfold State.perform
  repeat' first
    | assumption
    | with_reducible apply State.storeBurst_keeps
    | with_reducible apply State.readFor_keeps
    | refine keeps_foldl ?_ fun u x hu => ?_
    | split
    | (simp; done)
    | simp
theorem State.request_keeps {s : State} {r : BurstReq} {errs : List (Nat × Byte)} (hk : KeepsM m0 s.mem) : KeepsM m0 (s.request r errs).mem := by
  unfold State.request; dsimp only
  repeat' first
    | assumption
    | with_reducible apply State.perform_keeps
    | refine keeps_foldl ?_ fun u x hu => ?_
    | split
    | (simp; done)
    | simp
theorem State.release__keeps {s : State} {c p : Nat} (hk : KeepsM m0 s.mem) : KeepsM m0 (s.release_ c p).mem := by
  unfold State.release_; dsimp only
  repeat' first
    | assumption
    | with_reducible apply State.serveOpen_keeps
    | with_reducible apply State.perform_keeps
    | refine keeps_foldl ?_ fun u x hu => ?_
    | split
    | (simp; done)
    | simp
theorem State.rebuilt_keeps {s : State}(hk : KeepsM m0 s.mem) : KeepsM m0 (s.rebuilt).mem := by
  unfold State.rebuilt; dsimp only; rw [State.setDev_mem]
  refine State.keepCells_keeps ?_
  exact keeps_foldl hk fun u x hu => by simpa using hu

/-! ### Links -/

theorem State.deliver_keeps {s : State} {p : Packet} (hk : KeepsM m0 s.mem) : KeepsM m0 (s.deliver p).mem := by
  unfold State.deliver; dsimp only
  repeat' first
    | assumption
    | with_reducible apply State.vwrite_keeps
    | with_reducible apply State.reductionIn_keeps
    | refine keeps_foldl ?_ fun u x hu => ?_
    | split
    | (simp; done)
    | simp

/-! ### Network -/

theorem State.arrive_keeps {s : State} {x : Transit} (hk : KeepsM m0 s.mem) : KeepsM m0 (s.arrive x).mem := by
  unfold State.arrive
  repeat' first
    | assumption
    | with_reducible apply State.deliver_keeps
    | refine keeps_foldl ?_ fun u x hu => ?_
    | split
    | (simp; done)
    | simp
theorem State.stand_keeps {s : State} {x : Transit} (hk : KeepsM m0 s.mem) : KeepsM m0 (s.stand x).mem := by
  unfold State.stand; dsimp only
  repeat' first
    | assumption
    | with_reducible apply State.arrive_keeps
    | with_reducible apply State.route_keeps
    | refine keeps_foldl ?_ fun u x hu => ?_
    | split
    | (simp; done)
    | simp
theorem State.route_keeps {s : State} {x : Transit} (hk : KeepsM m0 s.mem) : KeepsM m0 (s.route x).mem := by
  unfold State.route
  repeat' first
    | assumption
    | with_reducible apply State.stand_keeps
    | refine keeps_foldl ?_ fun u x hu => ?_
    | split
    | (simp; done)
    | simp
theorem State.reroute_keeps {s : State} {c : Nat} (hk : KeepsM m0 s.mem) : KeepsM m0 (s.reroute c).mem := by
  unfold State.reroute; dsimp only
  repeat' first
    | assumption
    | with_reducible apply State.route_keeps
    | refine keeps_foldl ?_ fun u x hu => ?_
    | split
    | (simp; done)
    | simp
theorem State.laneOut_keeps {s : State} {c j lane : Nat} (hk : KeepsM m0 s.mem) : KeepsM m0 (s.laneOut c j lane).mem := by
  unfold State.laneOut; dsimp only
  split
  · rw [State.sideline_mem]
    exact keeps_foldl (by rw [State.log_mem, State.setNet_mem]; exact hk) fun u x hu => State.reroute_keeps hu
  · exact keeps_foldl (by rw [State.log_mem, State.setNet_mem]; exact hk) fun u x hu => State.reroute_keeps hu
theorem State.landAll_keeps {s : State} {sq : Nat} {y0 : Nat} {y1 : Nat} {y2 : List Byte} (hk : KeepsM m0 s.mem) : KeepsM m0 (s.landAll sq y0 y1 y2).mem := by
  induction y0 generalizing s y1 y2 with
  | zero => exact hk
  | succ k ih =>
    unfold State.landAll
    split
    · exact hk
    · exact hk
    · dsimp only
      split
      · exact State.land_keeps hk
      · refine ih ?_
        simpa using State.land_keeps hk
theorem State.takeCopy_keeps {s : State} {g : Nat} {r : McRecv} {l : List Byte} (hk : KeepsM m0 s.mem) : KeepsM m0 (s.takeCopy g r l).mem := by
  unfold State.takeCopy; dsimp only
  repeat' first
    | assumption
    | with_reducible apply State.landAll_keeps
    | refine keeps_foldl ?_ fun u x hu => ?_
    | split
    | (simp; done)
    | simp

/-! ### BringUp -/

theorem State.seamSteps_keeps {s : State} {c : Nat} {b : BringUp} (hk : KeepsM m0 s.mem) : KeepsM m0 (s.seamSteps c b).mem := by
  exact keeps_foldl hk fun u x hu => State.laneOut_keeps hu
theorem State.stackSteps_keeps {s : State} {c : Nat} {b : BringUp} (hk : KeepsM m0 s.mem) : KeepsM m0 (s.stackSteps c b).mem := by
  unfold State.stackSteps; dsimp only
  rw [State.lossLimits_mem, State.setMram_mem]
  refine keeps_foldl ?_ fun u x hu => by rw [State.repairRow_mem]; exact hu
  rw [State.setMram_mem]
  refine keeps_foldl (keeps_foldl hk fun u x hu => State.losePc_keeps hu) fun u x hu => ?_
  split
  · exact hu
  · rw [State.markLine_mem]; exact hu
  · exact State.losePc_keeps hu
theorem State.rebuildChan_keeps {s : State} {c : Nat} (hk : KeepsM m0 s.mem) : KeepsM m0 (s.rebuildChan c).mem := by
  unfold State.rebuildChan; dsimp only; rw [State.log_mem, State.setDev_mem]
  refine State.keepCells_keeps ?_
  rw [State.modChan_mem]
  exact keeps_foldl hk fun u x hu => by simpa using hu
theorem State.resetChan_keeps {s : State} {c : Nat} {b : BringUp} (hk : KeepsM m0 s.mem) : KeepsM m0 (s.resetChan c b).mem := by
  have h1 : KeepsM m0 ({ s.setRegs (s.regs.filter fun e => keepReg c e.1) with
            latchA := s.latchA.filter (fun e => keepReg c e.1), latchB := s.latchB.filter (fun e => keepReg c e.1),
            store := s.store.filter fun e => e.1 / 2 ^ 28 != c } : State).mem :=
    ⟨hk.1, fun w => ⟨(hk.2 w).1, Memory.wf_filter _ _ (hk.2 w).2⟩⟩
  unfold State.resetChan; dsimp only
  split
  · rw [State.setMode_mem]
    refine State.rebuildChan_keeps (State.stackSteps_keeps (State.seamSteps_keeps ?_))
    rw [State.setNet_mem]
    exact keeps_foldl (by simpa using h1) fun u x hu => by simpa using hu
  · refine State.rebuildChan_keeps (State.stackSteps_keeps (State.seamSteps_keeps ?_))
    rw [State.setNet_mem]
    exact keeps_foldl (by simpa using h1) fun u x hu => by simpa using hu

/-! ### Power -/

theorem State.deviceReset_keeps {s : State}(hk : KeepsM m0 s.mem) : KeepsM m0 (s.deviceReset).mem := by
  exact ⟨hk.1, fun _ => ⟨rfl, rfl⟩⟩
theorem State.powerDown_keeps {s : State} {trigger : Nat} (hk : KeepsM m0 s.mem) : KeepsM m0 (s.powerDown trigger).mem := by
  unfold State.powerDown; dsimp only; split
  · exact State.deviceReset_keeps (by simpa using hk)
  · exact hk

/-! ### Boot -/

theorem State.startStacks_keeps {s : State} {found : List BringUp} (hk : KeepsM m0 s.mem) : KeepsM m0 (s.startStacks found).mem := by
  unfold State.startStacks; dsimp only; rw [State.setDev_mem, State.log_mem]
  exact State.rebuilt_keeps (keeps_foldl hk fun u x hu => State.stackSteps_keeps hu)
theorem State.startLinks_keeps {s : State} {found : List BringUp} (hk : KeepsM m0 s.mem) : KeepsM m0 (s.startLinks found).mem := by
  unfold State.startLinks; dsimp only; rw [State.setDev_mem]
  exact keeps_foldl (keeps_foldl hk fun u x hu => State.seamSteps_keeps hu) fun u x hu => by rw [State.trainLink_mem]; exact hu

/-! ### HostPort -/

theorem State.bar2Go_keeps {s : State} {r : Bar2Req} (hk : KeepsM m0 s.mem) : KeepsM m0 (s.bar2Go r).mem := by
  unfold State.bar2Go; dsimp only
  repeat' first
    | assumption
    | with_reducible apply State.serveBar2_keeps
    | with_reducible apply State.stand_keeps
    | refine keeps_foldl ?_ fun u x hu => ?_
    | split
    | (simp; done)
    | simp
theorem State.leavePort_keeps {s : State}(hk : KeepsM m0 s.mem) : KeepsM m0 (s.leavePort).mem := by
  unfold State.leavePort; dsimp only
  refine keeps_foldl (keeps_foldl (by rw [State.setHost_mem]; exact hk) fun u x hu => ?_)
    fun u x hu => keeps_foldl hu fun u x hu => by rw [State.stopHostSide_mem]; exact hu
  (repeat' split) <;> first | exact State.serveBar2_keeps hu | exact hu

end Sys2Proof.Machine
end

