-- ==== Sys2Proof/Laws/GoesDevice.lean ====
section
/-! SUPPORT. Every meaning goes on and keeps what every command keeps: contexts, memory control, links, network, faults, time, ledger, power, boot, host, board, registers, translation. -/

namespace Sys2Proof.Machine

/-! ### Contexts -/

theorem execContextStart_goes (n : Nat) (s : State) : Goes s (execContextStart n s) := by
  unfold execContextStart; dsimp only; (repeat' split) <;> first | exact goes_of_mem (by simp) | exact goes_guard_mem (by simp)
theorem execResume_goes (n : Nat) (s : State) : Goes s (execResume n s) := by
  unfold execResume; dsimp only; (repeat' split) <;> first | exact goes_of_mem (by simp) | exact goes_guard_mem (by simp)
theorem execAbort_goes (n : Nat) (s : State) : Goes s (execAbort n s) := by
  unfold execAbort; (repeat' split) <;> exact goes_of_mem (by simp)
theorem execContextReset_goes (n : Nat) (s : State) : Goes s (execContextReset n s) := by
  unfold execContextReset; (repeat' split) <;> exact goes_of_mem (by simp)
theorem execShotClockExpiry_goes (n q : Nat) (s : State) : Goes s (execShotClockExpiry n q s) := by
  unfold execShotClockExpiry; (repeat' split) <;> exact goes_of_mem (by simp)
theorem execMutualWait_goes (n : Nat) (s : State) : Goes s (execMutualWait n s) := by
  unfold execMutualWait; dsimp only; (repeat' split) <;> first | exact goes_of_mem (by simp) | exact goes_guard_mem (by simp)
theorem execSkip_goes (n q : Nat) (s : State) : Goes s (execSkip n q s) := by
  unfold execSkip; dsimp only; (repeat' split) <;> first | exact goes_of_mem (by simp) | exact goes_guard_mem (by simp)
theorem execRetry_goes (n q : Nat) (s : State) : Goes s (execRetry n q s) := by
  unfold execRetry; dsimp only; (repeat' split) <;> first | exact goes_of_mem (by simp) | exact goes_guard_mem (by simp)
theorem execFlagWrite_goes (n flag : Nat) (value : Bool) (s : State) : Goes s (execFlagWrite n flag value s) := by
  unfold execFlagWrite; dsimp only; (repeat' split) <;> first | exact goes_of_mem (by simp) | exact goes_guard_mem (by simp)
theorem execQueueRingPlace_goes (n q base log2 : Nat) (s : State) : Goes s (execQueueRingPlace n q base log2 s) := by
  unfold execQueueRingPlace; dsimp only; (repeat' split) <;> first | exact goes_of_mem (by simp) | exact goes_guard_mem (by simp)

/-! ### MemCtl -/

theorem execMemRead_goes (req : Requester) (space off : Nat) (errs : List (Nat × Byte)) (s : State) : Goes s (execMemRead req space off errs s) := by
  unfold execMemRead
  (repeat' split) <;> (first | refine goes_guard ?_ | refine goes_of_keeps ?_) <;> repeat' first
    | assumption
    | exact .refl _
    | with_reducible apply State.request_keeps
    | refine keeps_foldl ?_ fun u x hu => ?_
    | split
    | (simp; done)
    | simp
theorem execMemWrite_goes (req : Requester) (space off : Nat) (data : List Byte) (errs : List (Nat × Byte)) (s : State) : Goes s (execMemWrite req space off data errs s) := by
  unfold execMemWrite
  (repeat' split) <;> (first | refine goes_guard ?_ | refine goes_of_keeps ?_) <;> repeat' first
    | assumption
    | exact .refl _
    | with_reducible apply State.request_keeps
    | refine keeps_foldl ?_ fun u x hu => ?_
    | split
    | (simp; done)
    | simp
theorem execBurstReread_goes (c : Nat) (errs : List (Nat × Byte)) (s : State) : Goes s (execBurstReread c errs s) := by
  unfold execBurstReread; dsimp only
  (repeat' split) <;> (first | refine goes_guard ?_ | refine goes_of_keeps ?_) <;> repeat' first
    | assumption
    | exact .refl _
    | with_reducible apply State.poisonBurst_keeps
    | with_reducible apply State.deliverBurst_keeps
    | refine keeps_foldl ?_ fun u x hu => ?_
    | split
    | (simp; done)
    | simp
theorem execStackFailure_goes (c k : Nat) (hch : Option Nat) (s : State) : Goes s (execStackFailure c k hch s) := by
  unfold execStackFailure; exact goes_guard (keeps_foldl (.refl _) fun u x hu => State.losePc_keeps hu)
theorem execMemBurstSlot_goes (c : Nat) (waiting : List Nat) (spill : Bool) (s : State) : Goes s (execMemBurstSlot c waiting spill s) := by
  unfold execMemBurstSlot; dsimp only; (repeat' split) <;> first | exact goes_of_mem (by simp) | exact goes_guard_mem (by simp)
theorem execReguRateWrite_goes (c part value : Nat) (s : State) : Goes s (execReguRateWrite c part value s) := by
  unfold execReguRateWrite; dsimp only; (repeat' split) <;> first | exact goes_of_mem (by simp) | exact goes_guard_mem (by simp)
theorem execReguBurstWrite_goes (c part value : Nat) (s : State) : Goes s (execReguBurstWrite c part value s) := by
  unfold execReguBurstWrite; dsimp only; (repeat' split) <;> first | exact goes_of_mem (by simp) | exact goes_guard_mem (by simp)
theorem execRefresh_goes (c k : Nat) (x : StackReport) (s : State) : Goes s (execRefresh c k x s) := by
  unfold execRefresh; exact goes_guard_mem (by simp)
theorem execScrubRead_goes (c : Nat) (errs : List (Nat × Byte)) (userWrite : Bool) (s : State) : Goes s (execScrubRead c errs userWrite s) := by
  unfold execScrubRead; dsimp only
  split
  · exact goes_self s
  · split
    · exact goes_of_mem (State.scrubNext_mem _)
    · split
      · exact goes_self s
      · rename_i u h
        have k : KeepsM s.mem (u.scrubNext c).mem := by rw [State.scrubNext_mem, State.regulate_mem _ _ _ h]; exact .refl _
        (repeat' split) <;> refine goes_of_keeps ?_ <;> first
          | exact k
          | exact State.readFor_keeps k
          | (rw [State.corrected_mem]; exact k)
theorem execScrubBehind_goes (c fraction : Nat) (s : State) : Goes s (execScrubBehind c fraction s) := by
  unfold execScrubBehind; exact goes_guard_mem (by simp)
theorem execRetrainingStart_goes (c p : Nat) (s : State) : Goes s (execRetrainingStart c p s) := by
  unfold execRetrainingStart; exact goes_guard_mem (by simp)
theorem execRetrainingDone_goes (c p : Nat) (failed : List Nat) (s : State) : Goes s (execRetrainingDone c p failed s) := by
  exact goes_guard (keeps_foldl (by simpa using State.release__keeps (KeepsM.refl s.mem)) fun u x hu => by simpa using hu)
theorem execRetrainingTimeout_goes (c p : Nat) (s : State) : Goes s (execRetrainingTimeout c p s) := by
  unfold execRetrainingTimeout; dsimp only
  have h : KeepsM s.mem ((s.release_ c p).modChan c fun h => { h with trainFails := tset 0 h.trainFails p (tget 0 (s.chan c).trainFails p + 1) }).mem := by
    rw [State.modChan_mem]; exact State.release__keeps (.refl _)
  refine goes_guard ?_; split
  · exact State.losePc_keeps h
  · exact h
theorem execRebuild_goes (s : State) : Goes s (execRebuild s) := by
  unfold execRebuild; (repeat' split) <;> exact goes_of_mem (by simp)
theorem execRebuildDone_goes (s : State) : Goes s (execRebuildDone s) := by
  unfold execRebuildDone; dsimp only
  refine goes_guard ?_; rw [State.log_mem, State.setDev_mem]; exact State.rebuilt_keeps (.refl _)

/-! ### Links -/

theorem execPacketForward_goes (arr : Option Nat) (p : Packet) (s : State) : Goes s (execPacketForward arr p s) := by
  unfold execPacketForward; dsimp only
  (repeat' split) <;> first
    | exact goes_self s
    | exact goes_of_mem (by simp)
    | exact goes_of_keeps (State.deliver_keeps (by simpa using KeepsM.refl s.mem))
theorem execRoutingTableWrite_goes (addr : Nat) (data : W64) (s : State) : Goes s (execRoutingTableWrite addr data s) := by
  unfold execRoutingTableWrite; exact goes_guard_mem (by simp)
theorem execLnkTrain_goes (n : Nat) (s : State) : Goes s (execLnkTrain n s) := by
  unfold execLnkTrain; exact goes_guard_mem (by simp)
theorem execTrainingComplete_goes (n : Nat) (badLanes : List Nat) (delay : Nat) (x : TrainSet) (s : State) : Goes s (execTrainingComplete n badLanes delay x s) := by
  unfold execTrainingComplete; dsimp only; (repeat' split) <;> first | exact goes_of_mem (by simp [apply_ite State.mem, foldl_mem]) | exact goes_guard_mem (by simp [apply_ite State.mem, foldl_mem])
theorem execIdentityBlock_goes (n : Nat) (b : Identity) (s : State) : Goes s (execIdentityBlock n b s) := by
  unfold execIdentityBlock; dsimp only; (repeat' split) <;> first | exact goes_of_mem (by simp [apply_ite State.mem, foldl_mem]) | exact goes_guard_mem (by simp [apply_ite State.mem, foldl_mem]) | exact goes_guard_mem (by simp only [foldl_mem]; (repeat' split) <;> simp [foldl_mem])
theorem execNoPeerTimeout_goes (n : Nat) (s : State) : Goes s (execNoPeerTimeout n s) := by
  unfold execNoPeerTimeout; exact goes_guard_mem (by simp)
theorem execLossOfLock_goes (n lane : Nat) (s : State) : Goes s (execLossOfLock n lane s) := by
  unfold execLossOfLock; dsimp only; (repeat' split) <;> first | exact goes_of_mem (by simp [apply_ite State.mem, foldl_mem]) | exact goes_guard_mem (by simp [apply_ite State.mem, foldl_mem]) | exact goes_guard_mem (by simp only [foldl_mem]; (repeat' split) <;> simp [foldl_mem])
theorem execPeerSilence_goes (n : Nat) (s : State) : Goes s (execPeerSilence n s) := by
  unfold execPeerSilence; exact goes_guard_mem (by simp)
theorem execLinkFlitReceive_goes (n : Nat) (x : RxFlit) (s : State) : Goes s (execLinkFlitReceive n x s) := by
  unfold execLinkFlitReceive; dsimp only; (repeat' split) <;> first | exact goes_of_mem (by simp) | exact goes_guard_mem (by simp)
theorem execAckLctlSend_goes (n : Nat) (s : State) : Goes s (execAckLctlSend n s) := by
  unfold execAckLctlSend; exact goes_guard_mem (by simp)

/-! ### Network -/

theorem execRouterPacketArrival_goes (c at_ next dest : Nat) (offer : Option MemPacket) (s : State) : Goes s (execRouterPacketArrival c at_ next dest offer s) := by
  unfold execRouterPacketArrival; dsimp only
  (repeat' split) <;> refine goes_of_keeps ?_ <;> first
    | exact .refl _
    | (simp; exact .refl _)
    | (refine State.route_keeps ?_; simp; exact .refl _)
    | (refine State.stand_keeps ?_; simp; exact .refl _)
theorem execSeamFlit_goes (c j lane : Nat) (ok : Bool) (p : Option Packet) (s : State) : Goes s (execSeamFlit c j lane ok p s) := by
  unfold execSeamFlit; dsimp only
  split
  · exact goes_self s
  · split
    · exact goes_self s
    · split
      · split
        · exact goes_of_mem (State.setNet_mem _ _)
        · exact goes_of_keeps (State.route_keeps (by rw [State.setNet_mem, State.setNet_mem]; exact .refl _))
      · refine goes_of_keeps ?_
        split
        · exact State.laneOut_keeps (by rw [State.setNet_mem]; exact .refl _)
        · rw [State.setNet_mem]; exact .refl _
theorem execMulticastFlitSend_goes (g len : Nat) (s : State) : Goes s (execMulticastFlitSend g len s) := by
  unfold execMulticastFlitSend; dsimp only
  (repeat' split) <;> refine goes_of_keeps ?_ <;> first
    | exact .refl _
    | (simp; exact .refl _)
    | skip
  rename_i h
  refine keeps_foldl ?_ fun w r hw => by rw [State.emit_mem]; exact State.takeCopy_keeps hw
  rw [State.setGroup_mem, State.regulate_mem _ _ _ h]; simp; exact .refl _
theorem execMulticastReattach_goes (g sq : Nat) (s : State) : Goes s (execMulticastReattach g sq s) := by
  unfold execMulticastReattach
  (repeat' split) <;> (first | refine goes_guard ?_ | refine goes_of_keeps ?_) <;> repeat' first
    | assumption
    | exact .refl _
    | with_reducible apply State.landAll_keeps
    | refine keeps_foldl ?_ fun u x hu => ?_
    | split
    | (simp; done)
    | simp
theorem execRouterHole_goes (sq : Nat) (s : State) : Goes s (execRouterHole sq s) := by
  unfold execRouterHole; dsimp only; (repeat' split) <;> first | exact goes_of_mem (by simp) | exact goes_guard_mem (by simp)
theorem execDetourResume_goes (c : Nat) (s : State) : Goes s (execDetourResume c s) := by
  unfold execDetourResume
  (repeat' split) <;> (first | refine goes_guard ?_ | refine goes_of_keeps ?_) <;> repeat' first
    | assumption
    | exact .refl _
    | with_reducible apply State.route_keeps
    | with_reducible apply State.reroute_keeps
    | refine keeps_foldl ?_ fun u x hu => ?_
    | split
    | (simp; done)
    | simp
theorem execEdgeRouterFailure_goes (c e : Nat) (s : State) : Goes s (execEdgeRouterFailure c e s) := by
  unfold execEdgeRouterFailure; dsimp only; split
  · exact goes_self s
  · refine goes_of_keeps ?_; rw [State.channelDown_mem]
    exact keeps_foldl (by simpa using KeepsM.refl s.mem) fun u x hu => State.losePc_keeps hu
theorem execRingLinkFailure_goes (c e : Nat) (s : State) : Goes s (execRingLinkFailure c e s) := by
  unfold execRingLinkFailure
  (repeat' split) <;> (first | refine goes_guard ?_ | refine goes_of_keeps ?_) <;> repeat' first
    | assumption
    | exact .refl _
    | with_reducible apply State.reroute_keeps
    | refine keeps_foldl ?_ fun u x hu => ?_
    | split
    | (simp; done)
    | simp

/-! ### Faults -/

theorem execDetectorFault_goes (e : Engine) (data : Option Nat) (s : State) : Goes s (execDetectorFault e data s) := by
  unfold execDetectorFault
  (repeat' split) <;> first | exact goes_of_mem (by simp) | exact goes_guard_mem (by simp)
theorem execEngineWatchdog_goes (e : Engine) (s : State) : Goes s (execEngineWatchdog e s) := by
  unfold execEngineWatchdog; exact goes_guard_mem (by simp)
theorem execCmgrWatchdog_goes (c : Nat) (s : State) : Goes s (execCmgrWatchdog c s) := by
  unfold execCmgrWatchdog; dsimp only; (repeat' split) <;> first | exact goes_of_mem (by simp [apply_ite State.mem, foldl_mem]) | exact goes_guard_mem (by simp [apply_ite State.mem, foldl_mem]) | exact goes_guard_mem (by simp only [foldl_mem]; (repeat' split) <;> simp [foldl_mem])
theorem execSqFenceWrite_goes (sq : Nat) (s : State) : Goes s (execSqFenceWrite sq s) := by
  unfold execSqFenceWrite; exact goes_guard_mem (by simp)
theorem execDmachFenceWrite_goes (c d : Nat) (s : State) : Goes s (execDmachFenceWrite c d s) := by
  unfold execDmachFenceWrite; exact goes_guard_mem (by simp)
theorem execLnkFenceWrite_goes (n : Nat) (s : State) : Goes s (execLnkFenceWrite n s) := by
  unfold execLnkFenceWrite; exact goes_guard_mem (by simp)
theorem execFenceClear_goes (t : FenceTarget) (s : State) : Goes s (execFenceClear t s) := by
  unfold execFenceClear; (repeat' split) <;> exact goes_of_mem (by simp)
theorem execDevModeSideline_goes (s : State) : Goes s (execDevModeSideline s) := by
  exact goes_of_mem (by simp)
theorem execSidelineNInput_goes (ns : Nat) (s : State) : Goes s (execSidelineNInput ns s) := by
  unfold execSidelineNInput; dsimp only; (repeat' split) <;> first | exact goes_of_mem (by simp [apply_ite State.mem, foldl_mem]) | exact goes_guard_mem (by simp [apply_ite State.mem, foldl_mem])
theorem execChannelReset_goes (c : Nat) (b : BringUp) (s : State) : Goes s (execChannelReset c b s) := by
  have h : Goes s (.next (s.resetChan c b).takePending) :=
    goes_of_keeps (by rw [State.takePending_mem]; exact State.resetChan_keeps (.refl _))
  unfold execChannelReset
  split
  · exact goes_self s
  · split
    · exact goes_of_mem (State.lockedWrite_mem _)
    · split
      · split
        · exact goes_of_mem (State.modChan_mem _ _ _)
        · exact h
      · exact h
theorem execArrClearField_goes (sq : Nat) (s : State) : Goes s (execArrClearField sq s) := by
  unfold execArrClearField; (repeat' split) <;> exact goes_of_mem (by simp)

/-! ### Time -/

theorem execWhistleSend_goes (s : State) : Goes s (execWhistleSend s) := by
  unfold execWhistleSend; dsimp only; (repeat' split) <;> first | exact goes_of_mem (by simp [apply_ite State.mem, foldl_mem]) | exact goes_guard_mem (by simp [apply_ite State.mem, foldl_mem]) | exact goes_guard_mem (by simp only [foldl_mem]; (repeat' split) <;> simp [foldl_mem])
theorem execWhistleReceive_goes (port : Nat) (w : Whistle) (residence : Nat) (s : State) : Goes s (execWhistleReceive port w residence s) := by
  unfold execWhistleReceive; exact goes_guard_mem (by simp)
theorem execWhistleInEdge_goes (s : State) : Goes s (execWhistleInEdge s) := by
  unfold execWhistleInEdge; dsimp only; (repeat' split) <;> first | exact goes_of_mem (by simp [apply_ite State.mem, foldl_mem]) | exact goes_guard_mem (by simp [apply_ite State.mem, foldl_mem]) | exact goes_guard_mem (by simp only [foldl_mem]; (repeat' split) <;> simp [foldl_mem])
theorem execWhistleSeed_goes (v : W64) (s : State) : Goes s (execWhistleSeed v s) := by
  exact goes_of_mem (by simp)
theorem execHoldover_goes (s : State) : Goes s (execHoldover s) := by
  unfold execHoldover; exact goes_guard_mem (by simp)
theorem execTrefLoss_goes (s : State) : Goes s (execTrefLoss s) := by
  unfold execTrefLoss; exact goes_guard_mem (by simp)
theorem execTrefReturn_goes (s : State) : Goes s (execTrefReturn s) := by
  unfold execTrefReturn; exact goes_guard_mem (by simp)
theorem execTimeBaseLockLoss_goes (s : State) : Goes s (execTimeBaseLockLoss s) := by
  unfold execTimeBaseLockLoss; exact goes_guard_mem (by simp)
theorem execTimeSet_goes (v : W64) (s : State) : Goes s (execTimeSet v s) := by
  unfold execTimeSet; dsimp only; (repeat' split) <;> first | exact goes_of_mem (by simp) | exact goes_guard_mem (by simp)
theorem execStEnd_goes (s : State) : Goes s (execStEnd s) := by
  unfold execStEnd; exact goes_guard_mem (by simp)
theorem execMaintenanceWindowOpen_goes (n : Nat) (s : State) : Goes s (execMaintenanceWindowOpen n s) := by
  unfold execMaintenanceWindowOpen; exact goes_guard_mem (by simp)

/-! ### Power -/

theorem execVinUndervoltage_goes (v : Nat) (s : State) : Goes s (execVinUndervoltage v s) := by
  exact goes_guard (State.powerDown_keeps (.refl _))
theorem execVinOvervoltage_goes (v : Nat) (s : State) : Goes s (execVinOvervoltage v s) := by
  exact goes_guard (State.powerDown_keeps (by simpa using KeepsM.refl s.mem))
theorem execSysResetNAssert_goes (ns : Nat) (s : State) : Goes s (execSysResetNAssert ns s) := by
  unfold execSysResetNAssert; dsimp only
  exact goes_guard (by rw [State.setDev_mem]; exact State.powerDown_keeps (.refl _))
theorem execAuxRailLoss_goes (s : State) : Goes s (execAuxRailLoss s) := by
  exact goes_of_keeps (s := s) (State.powerDown_keeps (KeepsM.refl s.mem))
theorem execVinOutOfRange_goes (v : Nat) (s : State) : Goes s (execVinOutOfRange v s) := by
  unfold execVinOutOfRange; exact goes_guard_mem (by simp)
theorem execCapStepDown_goes (w : Nat) (s : State) : Goes s (execCapStepDown w s) := by
  unfold execCapStepDown; dsimp only; (repeat' split) <;> first | exact goes_of_mem (by simp [apply_ite State.mem, foldl_mem]) | exact goes_guard_mem (by simp [apply_ite State.mem, foldl_mem]) | exact goes_guard_mem (by simp only [foldl_mem]; (repeat' split) <;> simp [foldl_mem])
theorem execCapStepUp_goes (w : Nat) (s : State) : Goes s (execCapStepUp w s) := by
  unfold execCapStepUp; exact goes_guard_mem (by simp)
theorem execRailOvercurrent_goes (c k peak : Nat) (s : State) : Goes s (execRailOvercurrent c k peak s) := by
  unfold execRailOvercurrent; exact goes_guard_mem (by simp)
theorem execRailOvercurrentEnd_goes (c k : Nat) (s : State) : Goes s (execRailOvercurrentEnd c k s) := by
  unfold execRailOvercurrentEnd; exact goes_guard_mem (by simp)
theorem execCclkChange_goes (s : State) : Goes s (execCclkChange s) := by
  unfold execCclkChange; exact goes_guard_mem (by simp)
theorem execThermalStepDown_goes (t : Temps) (s : State) : Goes s (execThermalStepDown t s) := by
  unfold execThermalStepDown; exact goes_guard_mem (by simp)
theorem execThermalStepUp_goes (t : Temps) (s : State) : Goes s (execThermalStepUp t s) := by
  unfold execThermalStepUp; exact goes_guard_mem (by simp)
theorem execThermalTripWarning_goes (t : Temps) (s : State) : Goes s (execThermalTripWarning t s) := by
  unfold execThermalTripWarning; exact goes_guard_mem (by simp)
theorem execThermalTrip_goes (t : Temps) (s : State) : Goes s (execThermalTrip t s) := by
  unfold execThermalTrip; dsimp only
  exact goes_guard (State.powerDown_keeps (by simpa using KeepsM.refl s.mem))
theorem execThermtripRelease_goes (s : State) : Goes s (execThermtripRelease s) := by
  unfold execThermtripRelease; dsimp only
  exact goes_of_keeps (by rw [State.setPwr_mem]; exact State.powerDown_keeps (.refl _))

/-! ### Boot -/

theorem execStartup_goes (s : State) : Goes s (execStartup s) := by
  unfold execStartup; dsimp only
  refine goes_guard ?_
  have h : KeepsM s.mem s.deviceReset.mem := State.deviceReset_keeps (.refl _)
  split <;> simpa using h
theorem execBootGo_goes (port : Bool) (s : State) : Goes s (execBootGo port s) := by
  unfold execBootGo; (repeat' split) <;> exact goes_of_mem (by simp)
theorem execBootVerify_goes (img : Image) (found : List BringUp) (s : State) : Goes s (execBootVerify img found s) := by
  unfold execBootVerify; dsimp only; split
  · exact goes_self s
  · split
    · exact goes_of_mem (State.bootFailed_mem _)
    · refine goes_of_keeps ?_; rw [State.startReady_mem]
      exact State.startLinks_keeps (State.startStacks_keeps (by rw [State.startArrays_mem, State.setDev_mem, State.setHost_mem]; exact .refl _))

/-! ### HostPort -/

theorem execHostApertureWrite_goes (v : Word) (s : State) : Goes s (execHostApertureWrite v s) := by
  unfold execHostApertureWrite; exact goes_guard_mem (by simp)
theorem execApertureApply_goes (s : State) : Goes s (execApertureApply s) := by
  unfold execApertureApply; dsimp only; (repeat' split) <;> first | exact goes_of_mem (by simp [apply_ite State.mem, foldl_mem]) | exact goes_guard_mem (by simp [apply_ite State.mem, foldl_mem]) | exact goes_guard_mem (by simp only [foldl_mem]; (repeat' split) <;> simp [foldl_mem])
theorem execBar2Access_goes (port : Bool) (a : Bar2Op) (s : State) : Goes s (execBar2Access port a s) := by
  unfold execBar2Access
  (repeat' split) <;> first
    | exact goes_self s
    | exact goes_of_mem (by simp)
    | exact goes_of_keeps (State.bar2Go_keeps (.refl _))
theorem execActivate_goes (port : Bool) (s : State) : Goes s (execActivate port s) := by
  unfold execActivate; dsimp only
  refine goes_ite (goes_self s) (goes_of_keeps ?_)
  rw [State.raise_mem, State.setMram_mem, State.movePending_mem, State.setHost_mem]
  split
  · exact .refl _
  · exact State.leavePort_keeps (by rw [State.setHost_mem]; exact .refl _)
theorem execPerstAssert_goes (port : Bool) (s : State) : Goes s (execPerstAssert port s) := by
  unfold execPerstAssert; dsimp only
  refine goes_of_keeps ?_; split
  · exact State.leavePort_keeps (by rw [State.setHost_mem]; exact .refl _)
  · rw [State.setHost_mem]; exact .refl _
theorem execPerstRelease_goes (port : Bool) (s : State) : Goes s (execPerstRelease port s) := by
  exact goes_of_mem (by simp)
theorem execHostPortLinkChange_goes (port up : Bool) (s : State) : Goes s (execHostPortLinkChange port up s) := by
  unfold execHostPortLinkChange; dsimp only
  refine goes_of_mem ?_
  (repeat' split) <;> first
    | rfl
    | (rw [foldl_mem _ (fun u x => State.emit_mem u _)]; rfl)

/-! ### Board -/

theorem execWpRead_goes (w : Nat) (s : State) : Goes s (execWpRead w s) := by
  unfold execWpRead; exact goes_guard_mem (by simp)
theorem execWpFenceWrite_goes (w : Nat) (v : Half) (s : State) : Goes s (execWpFenceWrite w v s) := by
  unfold execWpFenceWrite
  exact goes_guard_mem (foldl_mem _ (fun u x => by simp) _ _)
theorem execWpSidelineCmd_goes (v : Half) (s : State) : Goes s (execWpSidelineCmd v s) := by
  unfold execWpSidelineCmd; exact goes_guard_mem (by simp)
theorem execWpAlertClear_goes (v : Half) (s : State) : Goes s (execWpAlertClear v s) := by
  unfold execWpAlertClear; exact goes_guard_mem (by simp)
theorem execWpHeartbeat_goes (s : State) : Goes s (execWpHeartbeat s) := by
  unfold execWpHeartbeat; exact goes_guard_mem (by simp)
theorem execBypass_goes (s : State) : Goes s (execBypass s) := by
  unfold execBypass; exact goes_guard_mem (by simp)
theorem execIdcode_goes (s : State) : Goes s (execIdcode s) := by
  unfold execIdcode; exact goes_guard_mem (by simp)
theorem execSamplePreload_goes (s : State) : Goes s (execSamplePreload s) := by
  unfold execSamplePreload; exact goes_guard_mem (by simp)
theorem execExtest_goes (s : State) : Goes s (execExtest s) := by
  unfold execExtest; exact goes_guard_mem (by simp)
theorem execExtestPulse_goes (s : State) : Goes s (execExtestPulse s) := by
  unfold execExtestPulse; exact goes_guard_mem (by simp)
theorem execExtestTrain_goes (s : State) : Goes s (execExtestTrain s) := by
  unfold execExtestTrain; exact goes_guard_mem (by simp)
theorem execClampIr_goes (s : State) : Goes s (execClampIr s) := by
  unfold execClampIr; exact goes_guard_mem (by simp)
theorem execHighz_goes (s : State) : Goes s (execHighz s) := by
  unfold execHighz; exact goes_guard_mem (by simp)
theorem execStack1500_goes (k : Nat) (s : State) : Goes s (execStack1500 k s) := by
  unfold execStack1500; dsimp only; (repeat' split) <;> first | exact goes_of_mem (by simp) | exact goes_guard_mem (by simp)
theorem execTrstNReset_goes (s : State) : Goes s (execTrstNReset s) := by
  unfold execTrstNReset; exact goes_guard_mem (by simp)
theorem execSmbIdent_goes (s : State) : Goes s (execSmbIdent s) := by
  unfold execSmbIdent; exact goes_guard_mem (by simp)
theorem execSmbHealth_goes (s : State) : Goes s (execSmbHealth s) := by
  unfold execSmbHealth; exact goes_guard_mem (by simp)
theorem execSmbThermal_goes (s : State) : Goes s (execSmbThermal s) := by
  unfold execSmbThermal; exact goes_guard_mem (by simp)
theorem execSmbPower_goes (s : State) : Goes s (execSmbPower s) := by
  unfold execSmbPower; exact goes_guard_mem (by simp)
theorem execSmbLedgSel_goes (slot : Nat) (s : State) : Goes s (execSmbLedgSel slot s) := by
  exact goes_guard_mem rfl
theorem execSmbLedgLo_goes (s : State) : Goes s (execSmbLedgLo s) := by
  unfold execSmbLedgLo; exact goes_guard_mem (by simp)
theorem execSmbLedgHi_goes (s : State) : Goes s (execSmbLedgHi s) := by
  unfold execSmbLedgHi; exact goes_guard_mem (by simp)
theorem execSmbCounts_goes (s : State) : Goes s (execSmbCounts s) := by
  unfold execSmbCounts; exact goes_guard_mem (by simp)

/-! ### Registers -/

theorem execIrqForce_goes (page : Nat) (v : Word) (s : State) : Goes s (execIrqForce page v s) := by
  unfold execIrqForce; dsimp only; (repeat' split) <;> first | exact goes_of_mem (by simp [apply_ite State.mem, foldl_mem]) | exact goes_guard_mem (by simp [apply_ite State.mem, foldl_mem]) | exact goes_guard_mem (by simp only [foldl_mem]; (repeat' split) <;> simp [foldl_mem])
theorem execPageLock_goes (page : Nat) (s : State) : Goes s (execPageLock page s) := by
  unfold execPageLock; exact goes_guard_mem (by simp)
theorem execRegisterRead_goes (port : Bool) (a : Nat) (wide : Bool) (s : State) : Goes s (execRegisterRead port a wide s) := by
  unfold execRegisterRead; (repeat' split) <;> exact goes_of_mem (by simp)

/-! ### Translate -/

theorem execTranslationWalk_goes (n : Nat) (req : Requester) (va : W64) (write : Bool) (home : Option Nat) (s : State) : Goes s (execTranslationWalk n req va write home s) := by
  unfold execTranslationWalk; dsimp only; (repeat' split) <;> first | exact goes_of_mem (by simp) | exact goes_guard_mem (by simp)
theorem execMmuRootWrite_goes (n : Nat) (value : W64) (s : State) : Goes s (execMmuRootWrite n value s) := by
  unfold execMmuRootWrite; dsimp only
  (repeat' split)
  · exact goes_self s
  · exact goes_of_mem (by simp)
  · refine goes_of_mem ?_; rw [foldl_mem]
    · simp
    · intro u x; simp
theorem execMmuInval_goes (n : Nat) (va : W64) (pages : Nat) (all : Bool) (s : State) : Goes s (execMmuInval n va pages all s) := by
  unfold execMmuInval; dsimp only; split
  · exact goes_of_mem (by simp)
  · refine goes_of_mem ?_; rw [foldl_mem]
    · simp
    · intro u x; simp
theorem execMmuInvalDone_goes (s : State) : Goes s (execMmuInvalDone s) := by
  exact goes_of_mem (by simp)
theorem execMmuFlogAck_goes (n : Nat) (s : State) : Goes s (execMmuFlogAck n s) := by
  exact goes_of_mem (by simp)

end Sys2Proof.Machine
end

