-- ==== Sys2Proof/Laws/GoesEngines.lean ====
section
/-! SUPPORT. Every meaning goes on and keeps what every command keeps: walkers, arrays, collectives, updates, commits, admission, DMA, huddles, completion, issue, blocks, pre-emption. -/

namespace Sys2Proof.Machine

/-! ### Walk -/

theorem execWalkAdd_goes (sq w : Nat) (s : State) : Goes s (execWalkAdd sq w s) := by
  unfold execWalkAdd; (repeat' split) <;> exact goes_of_mem (by simp)
theorem execWalkSub_goes (sq w : Nat) (s : State) : Goes s (execWalkSub sq w s) := by
  unfold execWalkSub; (repeat' split) <;> exact goes_of_mem (by simp)
theorem execWalkMul_goes (sq w : Nat) (s : State) : Goes s (execWalkMul sq w s) := by
  unfold execWalkMul; (repeat' split) <;> exact goes_of_mem (by simp)
theorem execWalkAnd_goes (sq w : Nat) (s : State) : Goes s (execWalkAnd sq w s) := by
  unfold execWalkAnd; (repeat' split) <;> exact goes_of_mem (by simp)
theorem execWalkOr_goes (sq w : Nat) (s : State) : Goes s (execWalkOr sq w s) := by
  unfold execWalkOr; (repeat' split) <;> exact goes_of_mem (by simp)
theorem execWalkXor_goes (sq w : Nat) (s : State) : Goes s (execWalkXor sq w s) := by
  unfold execWalkXor; (repeat' split) <;> exact goes_of_mem (by simp)
theorem execWalkShl_goes (sq w : Nat) (s : State) : Goes s (execWalkShl sq w s) := by
  unfold execWalkShl; (repeat' split) <;> exact goes_of_mem (by simp)
theorem execWalkShr_goes (sq w : Nat) (s : State) : Goes s (execWalkShr sq w s) := by
  unfold execWalkShr; (repeat' split) <;> exact goes_of_mem (by simp)
theorem execWalkMin_goes (sq w : Nat) (s : State) : Goes s (execWalkMin sq w s) := by
  unfold execWalkMin; (repeat' split) <;> exact goes_of_mem (by simp)
theorem execWalkMax_goes (sq w : Nat) (s : State) : Goes s (execWalkMax sq w s) := by
  unfold execWalkMax; (repeat' split) <;> exact goes_of_mem (by simp)
theorem execWalkCmp_goes (sq w : Nat) (s : State) : Goes s (execWalkCmp sq w s) := by
  unfold execWalkCmp; (repeat' split) <;> exact goes_of_mem (by simp)
theorem execWalkSel_goes (sq w : Nat) (s : State) : Goes s (execWalkSel sq w s) := by
  unfold execWalkSel; (repeat' split) <;> exact goes_of_mem (by simp)
theorem execWalkMov_goes (sq w : Nat) (s : State) : Goes s (execWalkMov sq w s) := by
  unfold execWalkMov; (repeat' split) <;> exact goes_of_mem (by simp)
theorem execWalkMovi_goes (sq w : Nat) (s : State) : Goes s (execWalkMovi sq w s) := by
  unfold execWalkMovi; (repeat' split) <;> exact goes_of_mem (by simp)
theorem execWalkArg_goes (sq w : Nat) (s : State) : Goes s (execWalkArg sq w s) := by
  unfold execWalkArg; (repeat' split) <;> exact goes_of_mem (by simp)
theorem execWalkLoop_goes (sq w : Nat) (s : State) : Goes s (execWalkLoop sq w s) := by
  unfold execWalkLoop; (repeat' split) <;> exact goes_of_mem (by simp)
theorem execWalkEndloop_goes (sq w : Nat) (s : State) : Goes s (execWalkEndloop sq w s) := by
  unfold execWalkEndloop; (repeat' split) <;> exact goes_of_mem (by simp)
theorem execWalkBr_goes (sq w : Nat) (s : State) : Goes s (execWalkBr sq w s) := by
  unfold execWalkBr; (repeat' split) <;> exact goes_of_mem (by simp)
theorem execWalkBrc_goes (sq w : Nat) (s : State) : Goes s (execWalkBrc sq w s) := by
  unfold execWalkBrc; (repeat' split) <;> exact goes_of_mem (by simp)
theorem execWalkEmit_goes (sq w : Nat) (s : State) : Goes s (execWalkEmit sq w s) := by
  unfold execWalkEmit; dsimp only; (repeat' split) <;> first | exact goes_of_mem (by simp) | exact goes_guard_mem (by simp)
theorem execWalkEnd_goes (sq w : Nat) (s : State) : Goes s (execWalkEnd sq w s) := by
  unfold execWalkEnd; (repeat' split) <;> exact goes_of_mem (by simp)
theorem execWalkAttach_goes (sq w : Nat) (s : State) : Goes s (execWalkAttach sq w s) := by
  unfold execWalkAttach; dsimp only; (repeat' split) <;> first | exact goes_of_mem (by simp) | exact goes_guard_mem (by simp)
theorem execWalkDetach_goes (sq w : Nat) (s : State) : Goes s (execWalkDetach sq w s) := by
  unfold execWalkDetach; (repeat' split) <;> exact goes_of_mem (by simp)
theorem execWalkAcquire_goes (sq w : Nat) (s : State) : Goes s (execWalkAcquire sq w s) := by
  unfold execWalkAcquire; (repeat' split) <;> exact goes_of_mem (by simp)
theorem execWalkPush_goes (sq w : Nat) (s : State) : Goes s (execWalkPush sq w s) := by
  unfold execWalkPush; (repeat' split) <;> exact goes_of_mem (by simp)
theorem execWalkPop_goes (sq w : Nat) (s : State) : Goes s (execWalkPop sq w s) := by
  unfold execWalkPop; (repeat' split) <;> exact goes_of_mem (by simp)
theorem execWalkRelease_goes (sq w : Nat) (s : State) : Goes s (execWalkRelease sq w s) := by
  unfold execWalkRelease; (repeat' split) <;> exact goes_of_mem (by simp)
theorem execPoolGrant_goes (sq n p : Nat) (s : State) : Goes s (execPoolGrant sq n p s) := by
  unfold execPoolGrant; (repeat' split) <;> exact goes_of_mem (by simp)
theorem execPopWake_goes (sq n q : Nat) (s : State) : Goes s (execPopWake sq n q s) := by
  unfold execPopWake; (repeat' split) <;> exact goes_of_mem (by simp)
theorem execWalkLibraryLoad_goes (n : Nat) (r : WalkLib) (s : State) : Goes s (execWalkLibraryLoad n r s) := by
  unfold execWalkLibraryLoad; (repeat' split) <;> exact goes_of_mem (by simp)

/-! ### Array -/

theorem execWorkItemDeal_goes (sq : Nat) (s : State) : Goes s (execWorkItemDeal sq s) := by
  unfold execWorkItemDeal; dsimp only; (repeat' split) <;> first | exact goes_of_mem (by simp) | exact goes_guard_mem (by simp)
theorem execReload_goes (sq : Nat) (s : State) : Goes s (execReload sq s) := by
  unfold execReload; dsimp only; (repeat' split) <;> first | exact goes_of_mem (by simp [apply_ite State.mem, foldl_mem]) | exact goes_guard_mem (by simp [apply_ite State.mem, foldl_mem]) | exact goes_guard_mem (by simp only [foldl_mem]; (repeat' split) <;> simp [foldl_mem])
theorem execStageClose_goes (sq : Nat) (s : State) : Goes s (execStageClose sq s) := by
  unfold execStageClose; dsimp only; (repeat' split) <;> first | exact goes_of_mem (by simp [apply_ite State.mem, foldl_mem]) | exact goes_guard_mem (by simp [apply_ite State.mem, foldl_mem])
theorem execCloseLatchEmpty_goes (sq slot : Nat) (s : State) : Goes s (execCloseLatchEmpty sq slot s) := by
  unfold execCloseLatchEmpty; dsimp only; (repeat' split) <;> first | exact goes_of_mem (by simp) | exact goes_guard_mem (by simp)
theorem execRungCombine_goes (sq slot : Nat) (s : State) : Goes s (execRungCombine sq slot s) := by
  unfold execRungCombine; dsimp only; (repeat' split) <;> first | exact goes_of_mem (by simp) | exact goes_guard_mem (by simp)
theorem execDrainStart_goes (sq : Nat) (errs : DrainFaults) (s : State) : Goes s (execDrainStart sq errs s) := by
  unfold execDrainStart; dsimp only; (repeat' split) <;> first | exact goes_of_mem (by simp) | exact goes_guard_mem (by simp)

/-! ### ShortPass -/

theorem execShortPassMessage_goes (m : ShortMsg) (s : State) : Goes s (execShortPassMessage m s) := by
  unfold execShortPassMessage; exact goes_guard_mem (by simp)
theorem execOverflowDeliver_goes (c n : Nat) (s : State) : Goes s (execOverflowDeliver c n s) := by
  unfold execOverflowDeliver; (repeat' split) <;> exact goes_of_mem (by simp)
theorem execHeldMessageRelease_goes (n : Nat) (s : State) : Goes s (execHeldMessageRelease n s) := by
  unfold execHeldMessageRelease; (repeat' split) <;> exact goes_of_mem (by simp)

/-! ### Collect -/

theorem execCombineNode_goes (n tag node : Nat) (right : Bool) (off : Nat) (data : List Byte) (s : State) : Goes s (execCombineNode n tag node right off data s) := by
  exact goes_of_keeps (State.feedNode_keeps (.refl _))
theorem execTagGrant_goes (n tag epoch : Nat) (s : State) : Goes s (execTagGrant n tag epoch s) := by
  unfold execTagGrant; dsimp only; (repeat' split) <;> first | exact goes_of_mem (by simp [apply_ite State.mem, foldl_mem]) | exact goes_guard_mem (by simp [apply_ite State.mem, foldl_mem]) | exact goes_guard_mem (by simp only [foldl_mem]; (repeat' split) <;> simp [foldl_mem])
theorem execCollectiveAbort_goes (n tag epoch : Nat) (s : State) : Goes s (execCollectiveAbort n tag epoch s) := by
  unfold execCollectiveAbort
  (repeat' split) <;> (first | refine goes_guard ?_ | refine goes_of_keeps ?_) <;> repeat' first
    | assumption
    | exact .refl _
    | refine keeps_foldl ?_ fun u x hu => ?_
    | split
    | (simp; done)
    | simp
theorem execCollectiveRestart_goes (n tag : Nat) (s : State) : Goes s (execCollectiveRestart n tag s) := by
  unfold execCollectiveRestart
  (repeat' split) <;> (first | refine goes_guard ?_ | refine goes_of_keeps ?_) <;> repeat' first
    | assumption
    | exact .refl _
    | with_reducible apply State.enterColl_keeps
    | refine keeps_foldl ?_ fun u x hu => ?_
    | split
    | (simp; done)
    | simp

/-! ### Update -/

theorem execUpdAdd_goes (sq : Nat) (s : State) : Goes s (execUpdAdd sq s) := by
  unfold execUpdAdd; (repeat' split) <;> exact goes_of_mem (by simp)
theorem execUpdSub_goes (sq : Nat) (s : State) : Goes s (execUpdSub sq s) := by
  unfold execUpdSub; (repeat' split) <;> exact goes_of_mem (by simp)
theorem execUpdMul_goes (sq : Nat) (s : State) : Goes s (execUpdMul sq s) := by
  unfold execUpdMul; (repeat' split) <;> exact goes_of_mem (by simp)
theorem execUpdFma_goes (sq : Nat) (s : State) : Goes s (execUpdFma sq s) := by
  unfold execUpdFma; (repeat' split) <;> exact goes_of_mem (by simp)
theorem execUpdSqrt_goes (sq : Nat) (s : State) : Goes s (execUpdSqrt sq s) := by
  unfold execUpdSqrt; (repeat' split) <;> exact goes_of_mem (by simp)
theorem execUpdRsqrt_goes (sq : Nat) (s : State) : Goes s (execUpdRsqrt sq s) := by
  unfold execUpdRsqrt; (repeat' split) <;> exact goes_of_mem (by simp)
theorem execUpdMax_goes (sq : Nat) (s : State) : Goes s (execUpdMax sq s) := by
  unfold execUpdMax; (repeat' split) <;> exact goes_of_mem (by simp)
theorem execUpdMin_goes (sq : Nat) (s : State) : Goes s (execUpdMin sq s) := by
  unfold execUpdMin; (repeat' split) <;> exact goes_of_mem (by simp)
theorem execUpdAbs_goes (sq : Nat) (s : State) : Goes s (execUpdAbs sq s) := by
  unfold execUpdAbs; (repeat' split) <;> exact goes_of_mem (by simp)
theorem execUpdSel_goes (sq : Nat) (s : State) : Goes s (execUpdSel sq s) := by
  unfold execUpdSel; (repeat' split) <;> exact goes_of_mem (by simp)
theorem execUpdClamp_goes (sq : Nat) (s : State) : Goes s (execUpdClamp sq s) := by
  unfold execUpdClamp; (repeat' split) <;> exact goes_of_mem (by simp)
theorem execUpdScl_goes (sq : Nat) (s : State) : Goes s (execUpdScl sq s) := by
  unfold execUpdScl; (repeat' split) <;> exact goes_of_mem (by simp)

/-! ### Commit -/

theorem execVoteReceive_goes (n lo hi : Nat) (v : Vote) (s : State) : Goes s (execVoteReceive n lo hi v s) := by
  exact goes_of_mem (by simp)
theorem execCommitShotClockExpiry_goes (n : Nat) (s : State) : Goes s (execCommitShotClockExpiry n s) := by
  unfold execCommitShotClockExpiry; dsimp only; (repeat' split) <;> first | exact goes_of_mem (by simp) | exact goes_guard_mem (by simp)
theorem execPairPacket_goes (n src port : Nat) (step : Word) (exp growth : Nat) (digest : W64) (s : State) : Goes s (execPairPacket n src port step exp growth digest s) := by
  unfold execPairPacket; exact goes_guard_mem (by simp)
theorem execCommitReceive_goes (n : Nat) (d : Decision) (s : State) : Goes s (execCommitReceive n d s) := by
  unfold execCommitReceive; (repeat' split) <;> exact goes_of_mem (by simp)
theorem execHoldReceive_goes (n : Nat) (d : Decision) (s : State) : Goes s (execHoldReceive n d s) := by
  unfold execHoldReceive; dsimp only; (repeat' split) <;> first | exact goes_of_mem (by simp) | exact goes_guard_mem (by simp)
theorem execCommitAbortReceive_goes (n : Nat) (d : Decision) (s : State) : Goes s (execCommitAbortReceive n d s) := by
  unfold execCommitAbortReceive; (repeat' split) <;> exact goes_of_mem (by simp)
theorem execMemberCommitClockExpiry_goes (n : Nat) (s : State) : Goes s (execMemberCommitClockExpiry n s) := by
  unfold execMemberCommitClockExpiry; dsimp only; (repeat' split) <;> first | exact goes_of_mem (by simp) | exact goes_guard_mem (by simp)
theorem execDecisionQuery_goes (n src : Nat) (step : Word) (s : State) : Goes s (execDecisionQuery n src step s) := by
  unfold execDecisionQuery; dsimp only; (repeat' split) <;> first | exact goes_of_mem (by simp) | exact goes_guard_mem (by simp)
theorem execDecisionAnswer_goes (n : Nat) (commit : Bool) (d : Decision) (s : State) : Goes s (execDecisionAnswer n commit d s) := by
  unfold execDecisionAnswer; dsimp only; (repeat' split) <;> first | exact goes_of_mem (by simp) | exact goes_guard_mem (by simp)
theorem execDecisionQueryTimeout_goes (n : Nat) (s : State) : Goes s (execDecisionQueryTimeout n s) := by
  unfold execDecisionQueryTimeout; dsimp only; (repeat' split) <;> first | exact goes_of_mem (by simp) | exact goes_guard_mem (by simp)
theorem execCompleteCommit_goes (s : State) : Goes s (execCompleteCommit s) := by
  unfold execCompleteCommit; dsimp only; (repeat' split) <;> first | exact goes_of_mem (by simp) | exact goes_guard_mem (by simp)
theorem execDiscardVote_goes (s : State) : Goes s (execDiscardVote s) := by
  unfold execDiscardVote; dsimp only; (repeat' split) <;> first | exact goes_of_mem (by simp) | exact goes_guard_mem (by simp)
theorem execRedigest_goes (s : State) : Goes s (execRedigest s) := by
  exact goes_of_mem (by simp)
theorem execRedigestDone_goes (n : Nat) (s : State) : Goes s (execRedigestDone n s) := by
  unfold execRedigestDone; exact goes_guard_mem (by simp)
theorem execUpdStepWrite_goes (n : Nat) (v : Word) (s : State) : Goes s (execUpdStepWrite n v s) := by
  unfold execUpdStepWrite; (repeat' split) <;> exact goes_of_mem (by simp)
theorem execLossScaleWrite_goes (n exp growth : Nat) (s : State) : Goes s (execLossScaleWrite n exp growth s) := by
  unfold execLossScaleWrite; dsimp only; (repeat' split) <;> first | exact goes_of_mem (by simp) | exact goes_guard_mem (by simp)

/-! ### Admit -/

theorem execDescriptorAdmit_goes (n q : Nat) (s : State) : Goes s (execDescriptorAdmit n q s) := by
  unfold execDescriptorAdmit; (repeat' split) <;> exact goes_of_mem (by simp)

/-! ### Dma -/

theorem execDmaStart_goes (c d : Nat) (s : State) : Goes s (execDmaStart c d s) := by
  unfold execDmaStart; dsimp only; (repeat' split) <;> first | exact goes_of_mem (by simp) | exact goes_guard_mem (by simp)
theorem execDmaAbort_goes (c d : Nat) (s : State) : Goes s (execDmaAbort c d s) := by
  unfold execDmaAbort; (repeat' split) <;> exact goes_of_mem (by simp)
theorem execDmaResume_goes (c d : Nat) (s : State) : Goes s (execDmaResume c d s) := by
  unfold execDmaResume; (repeat' split) <;> exact goes_of_mem (by simp)
theorem execDmaBurstCommit_goes (c d : Nat) (hostData : List Byte) (s : State) : Goes s (execDmaBurstCommit c d hostData s) := by
  unfold execDmaBurstCommit
  (repeat' split) <;> first
    | exact goes_self s
    | exact goes_of_mem (by simp)
    | exact goes_of_keeps (State.dmaMoved_keeps (.refl _))
    | exact goes_of_keeps (State.dmaMove_keeps (.refl _))
theorem execDmaOrderingRead_goes (c d : Nat) (s : State) : Goes s (execDmaOrderingRead c d s) := by
  unfold execDmaOrderingRead; dsimp only
  (repeat' split) <;> first
    | exact goes_self s
    | exact goes_of_mem (by simp)
    | exact goes_of_keeps (State.dmaDone_keeps (by simpa using KeepsM.refl s.mem))

/-! ### Huddle -/

theorem execSquadHuddleArrival_goes (n k sq : Nat) (s : State) : Goes s (execSquadHuddleArrival n k sq s) := by
  unfold execSquadHuddleArrival; split
  · exact goes_self s
  · exact goes_guard_mem (State.modCtx_mem _ _ _)
theorem execHuddlePacket_goes (p : HuddlePkt) (s : State) : Goes s (execHuddlePacket p s) := by
  unfold execHuddlePacket; dsimp only; (repeat' split) <;> first | exact goes_of_mem (by simp) | exact goes_guard_mem (by simp)
theorem execHuddleShotClockExpiry_goes (n q : Nat) (s : State) : Goes s (execHuddleShotClockExpiry n q s) := by
  unfold execHuddleShotClockExpiry; (repeat' split) <;> exact goes_of_mem (by simp)

/-! ### Retire -/

theorem execFunctionLoad_goes (n slot : Nat) (r : FnRecord) (s : State) : Goes s (execFunctionLoad n slot r s) := by
  unfold execFunctionLoad; exact goes_guard_mem (by simp)
theorem execUpdateProgramLoad_goes (n k : Nat) (r : UpdProgram) (s : State) : Goes s (execUpdateProgramLoad n k r s) := by
  exact goes_of_mem (by simp)
theorem execStepPlanLoad_goes (n : Nat) (r : StepPlan) (s : State) : Goes s (execStepPlanLoad n r s) := by
  exact goes_of_mem (by simp)
theorem execDescriptorComplete_goes (n seq : Nat) (s : State) : Goes s (execDescriptorComplete n seq s) := by
  unfold execDescriptorComplete; dsimp only
  (repeat' split) <;> first
    | exact goes_self s
    | exact goes_of_keeps (State.completeMat_keeps (.refl _))
    | exact goes_of_keeps (State.completeOne_keeps (.refl _))
    | exact goes_of_keeps (State.completeOne_keeps (by simpa using KeepsM.refl s.mem))
    | exact goes_of_mem (by simp)

/-! ### Issue -/

theorem execDescriptorReady_goes (n q : Nat) (s : State) : Goes s (execDescriptorReady n q s) := by
  unfold execDescriptorReady; (repeat' split) <;> exact goes_of_mem (by simp)
theorem execNotBeforeTimeReached_goes (n q : Nat) (s : State) : Goes s (execNotBeforeTimeReached n q s) := by
  unfold execNotBeforeTimeReached; split
  · exact goes_guard_mem (by simp)
  · exact goes_self s
theorem execDescriptorIssue_goes (n : Nat) (cls : Cls) (s : State) : Goes s (execDescriptorIssue n cls s) := by
  unfold execDescriptorIssue; dsimp only
  (repeat' split) <;> first
    | exact goes_self s
    | exact goes_of_keeps (State.issueFlight_keeps (.refl _))
    | exact goes_of_mem (by simp)

/-! ### Block -/

theorem execBlockCommit_goes (e : Engine) (s : State) : Goes s (execBlockCommit e s) := by
  unfold execBlockCommit
  (repeat' split) <;> (first | refine goes_guard ?_ | refine goes_of_keeps ?_) <;> repeat' first
    | assumption
    | exact .refl _
    | with_reducible apply State.commitVector_keeps
    | with_reducible apply State.commitRow_keeps
    | with_reducible apply State.commitUpdate_keeps
    | with_reducible apply State.commitFetch_keeps
    | refine keeps_foldl ?_ fun u x hu => ?_
    | split
    | (simp; done)
    | simp
theorem execKStepIssue_goes (sq : Nat) (s : State) : Goes s (execKStepIssue sq s) := by
  unfold execKStepIssue
  (repeat' split) <;> first
    | exact goes_self s
    | exact goes_of_mem (State.engineFault_mem _ _ _ _ _ _)
    | exact goes_of_mem (State.issueCycle_mem _ _ _ (by assumption))
theorem execTileCheckVerdict_goes (sq : Nat) (s : State) : Goes s (execTileCheckVerdict sq s) := by
  unfold execTileCheckVerdict; dsimp only
  (repeat' split) <;> first
    | exact goes_self s
    | exact goes_of_mem (State.engineFault_mem _ _ _ _ _ _)
    | exact goes_of_mem (State.modSquad_mem _ _ _)
    | skip
  rename_i t _ h
  refine goes_of_keeps (State.verdict_keeps ?_)
  split at h
  · rw [State.ringRegulate_mem _ _ _ _ h]; exact .refl _
  · cases h; exact .refl _

/-! ### LedgerCmds -/

theorem execLedgerRecordWrite_goes (ch : Nat) (o : Offer) (s : State) : Goes s (execLedgerRecordWrite ch o s) := by
  exact goes_of_mem (by simp)
theorem execRateInterval_goes (s : State) : Goes s (execRateInterval s) := by
  exact goes_of_mem (by simp)
theorem execHostRecordSubmit_goes (s : State) : Goes s (execHostRecordSubmit s) := by
  unfold execHostRecordSubmit; dsimp only; (repeat' split) <;> first | exact goes_of_mem (by simp) | exact goes_guard_mem (by simp)
theorem execHmbReady_goes (s : State) : Goes s (execHmbReady s) := by
  unfold execHmbReady; exact goes_guard_mem (by simp)
theorem execLedgerReadSelect_goes (index : Nat) (s : State) : Goes s (execLedgerReadSelect index s) := by
  exact goes_of_mem (by simp)
theorem execPonSSave_goes (s : State) : Goes s (execPonSSave s) := by
  exact goes_of_mem (by simp)
theorem execKeyWordWrite_goes (i : Nat) (w : Word) (s : State) : Goes s (execKeyWordWrite i w s) := by
  unfold execKeyWordWrite; dsimp only; (repeat' split) <;> first | exact goes_of_mem (by simp) | exact goes_guard_mem (by simp)
theorem execRekeyWindowClose_goes (s : State) : Goes s (execRekeyWindowClose s) := by
  unfold execRekeyWindowClose; exact goes_guard_mem (by simp)
theorem execClearRequest_goes (scope : Nat) (s : State) : Goes s (execClearRequest scope s) := by
  unfold execClearRequest; dsimp only; (repeat' split) <;> first | exact goes_of_mem (by simp) | exact goes_guard_mem (by simp)
theorem execClearSubmit_goes (resp : List Byte) (s : State) : Goes s (execClearSubmit resp s) := by
  unfold execClearSubmit; dsimp only; (repeat' split) <;> first | exact goes_of_mem (by simp) | exact goes_guard_mem (by simp)
theorem execClearDone_goes (s : State) : Goes s (execClearDone s) := by
  unfold execClearDone; (repeat' split) <;> exact goes_of_mem (by simp)
theorem execChallengeExpiry_goes (s : State) : Goes s (execChallengeExpiry s) := by
  unfold execChallengeExpiry; exact goes_guard_mem (by simp)
theorem execLockoutEnd_goes (s : State) : Goes s (execLockoutEnd s) := by
  unfold execLockoutEnd; exact goes_guard_mem (by simp)

/-! ### Preempt -/

theorem execPreemptNbtLead_goes (q : Nat) (s : State) : Goes s (execPreemptNbtLead q s) := by
  unfold execPreemptNbtLead; split
  · exact goes_self s
  · exact goes_guard_mem (by simp)
theorem execHostDoorbell_goes (port : Bool) (n q tail : Nat) (wrap : Bool) (recs : List Descriptor) (s : State) : Goes s (execHostDoorbell port n q tail wrap recs s) := by
  unfold execHostDoorbell; dsimp only; (repeat' split) <;> first | exact goes_of_mem (by simp) | exact goes_guard_mem (by simp)
theorem execEngineRestartPoint_goes (n : Nat) (e : Engine) (s : State) : Goes s (execEngineRestartPoint n e s) := by
  unfold execEngineRestartPoint; exact goes_guard_mem (by simp)
theorem execSpillComplete_goes (s : State) : Goes s (execSpillComplete s) := by
  have hu : ((((s.eachSquad Squad.keepArr).modCtx 0 fun c => { c with preempted := true, spilled := true }).raise 166)).mem = s.mem := by
    rw [State.raise_mem, State.modCtx_mem, State.eachSquad_mem]
  generalize hg : ((s.eachSquad Squad.keepArr).modCtx 0 fun c => { c with preempted := true, spilled := true }).raise 166 = u at hu
  unfold execSpillComplete; dsimp only; rw [hg]
  split
  · exact goes_self s
  · split
    · exact goes_of_mem (State.urgentRuns_mem)
    · split
      · exact goes_of_mem (by rw [State.urgentRuns_mem, hu])
      · split
        · exact goes_of_mem (by rw [State.urgentRuns_mem, State.spillFault_mem, hu])
        · refine goes_of_keeps ?_
          rw [State.urgentRuns_mem]
          exact State.spillAll_keeps (by rw [hu]; exact .refl _)
theorem execYieldWrite_goes (s : State) : Goes s (execYieldWrite s) := by
  unfold execYieldWrite; (repeat' split) <;> exact goes_of_mem (by simp)
theorem execYieldTakesEffect_goes (s : State) : Goes s (execYieldTakesEffect s) := by
  unfold execYieldTakesEffect; (repeat' split) <;> exact goes_of_mem (by simp)
theorem execFillComplete_goes (s : State) : Goes s (execFillComplete s) := by
  have ht : ((s.modCtx 0 fun c => { c with preempted := false, filling := false, spilled := false }).raise 166).mem = s.mem := by
    rw [State.raise_mem, State.modCtx_mem]
  generalize hg : (s.modCtx 0 fun c => { c with preempted := false, filling := false, spilled := false }).raise 166 = t at ht
  have hk : KeepsM s.mem (if s.ctx0.spilled = true then t.fillAll else t).mem := by
    split
    · exact State.fillAll_keeps (by rw [ht]; exact .refl _)
    · rw [ht]; exact .refl _
  unfold execFillComplete; dsimp only; rw [hg]
  split
  · exact goes_self s
  · split
    · exact goes_of_mem (by rw [State.spillFault_mem, ht])
    · split
      · exact goes_of_mem (by rw [State.loseCtx_mem, ht])
      · refine goes_of_keeps ?_
        generalize (if s.ctx0.spilled = true then t.fillAll else t) = w at hk
        split
        · rw [State.eachSquad_mem]; exact hk
        · rw [State.restartEngines_mem, State.eachSquad_mem]; exact hk

end Sys2Proof.Machine
end

