-- ==== Sys2Proof/Laws/OnlyMeaningsDevice.lean ====
section
/-! SUPPORT. Which parts each meaning may change: contexts, memory control, links, network, faults, time, ledger, power, boot, host, board, registers, translation. -/

namespace Sys2Proof.Machine

/-! ### Contexts -/

theorem execContextStart_only (n : Nat) (s : State) : OnlyR [.out, .regs, .ctx0, .ctx1, .host] s (execContextStart n s) := by
  simp only [execContextStart]; (repeat' split) <;> simp
theorem execResume_only (n : Nat) (s : State) : OnlyR [.out, .regs, .ctx0, .ctx1, .chans, .host] s (execResume n s) := by
  simp only [execResume]; (repeat' split) <;> simp
theorem execAbort_only (n : Nat) (s : State) : OnlyR [.out, .regs, .ctx0, .ctx1, .squads, .chans, .ledger, .host, .watch] s (execAbort n s) := by
  simp only [execAbort]; (repeat' split) <;> simp
theorem execContextReset_only (n : Nat) (s : State) : OnlyR [.out, .ctx0, .ctx1, .squads, .chans, .ledger, .host, .watch] s (execContextReset n s) := by
  simp only [execContextReset]; (repeat' split) <;> simp
theorem execShotClockExpiry_only (n q : Nat) (s : State) : OnlyR [.out, .ctx0, .ctx1, .ledger, .host, .watch] s (execShotClockExpiry n q s) := by
  simp only [execShotClockExpiry]; (repeat' split) <;> simp
theorem execMutualWait_only (n : Nat) (s : State) : OnlyR [.out, .ctx0, .ctx1, .ledger, .host, .watch] s (execMutualWait n s) := by
  simp only [execMutualWait]; (repeat' split) <;> simp
theorem execSkip_only (n q : Nat) (s : State) : OnlyR [.out, .regs, .ctx0, .ctx1, .squads, .chans, .net, .ledger, .tele, .host, .watch, .flightSeq] s (execSkip n q s) := by
  simp only [execSkip]; (repeat' split) <;> simp
theorem execRetry_only (n q : Nat) (s : State) : OnlyR [.out, .regs, .ctx0, .ctx1, .ledger, .host, .watch] s (execRetry n q s) := by
  simp only [execRetry]; (repeat' split) <;> simp
theorem execFlagWrite_only (n flag : Nat) (value : Bool) (s : State) : OnlyR [.out, .regs, .ctx0, .ctx1, .host] s (execFlagWrite n flag value s) := by
  simp only [execFlagWrite]; (repeat' split) <;> simp
theorem execQueueRingPlace_only (n q base log2 : Nat) (s : State) : OnlyR [.out, .regs, .ctx0, .ctx1, .host] s (execQueueRingPlace n q base log2 s) := by
  simp only [execQueueRingPlace]; (repeat' split) <;> simp

/-! ### MemCtl -/

theorem execMemRead_only (req : Requester) (space off : Nat) (errs : List (Nat × Byte)) (s : State) : OnlyR [.out, .regs, .hbm, .dev, .mram, .ctx0, .ctx1, .squads, .chans, .ledger, .host, .watch] s (execMemRead req space off errs s) := by
  simp only [execMemRead]; (repeat' split) <;> simp
theorem execMemWrite_only (req : Requester) (space off : Nat) (data : List Byte) (errs : List (Nat × Byte)) (s : State) : OnlyR [.out, .regs, .hbm, .dev, .mram, .ctx0, .ctx1, .squads, .chans, .ledger, .host, .watch] s (execMemWrite req space off data errs s) := by
  simp only [execMemWrite]; (repeat' split) <;> simp
theorem execBurstReread_only (c : Nat) (errs : List (Nat × Byte)) (s : State) : OnlyR [.out, .regs, .hbm, .dev, .mram, .ctx0, .ctx1, .squads, .chans, .net, .ledger, .tele, .host, .watch] s (execBurstReread c errs s) := by
  simp only [execBurstReread]; (repeat' split) <;> simp
theorem execStackFailure_only (c k : Nat) (hch : Option Nat) (s : State) : OnlyR [.out, .hbm, .dev, .mram, .ctx0, .ctx1, .squads, .chans, .net, .ledger, .tele, .host, .watch] s (execStackFailure c k hch s) := by
  simp only [execStackFailure]; (repeat' split) <;> simp [apply_ite (Only _ s), only_foldl]
theorem execMemBurstSlot_only (c : Nat) (waiting : List Nat) (spill : Bool) (s : State) : OnlyR [.chans] s (execMemBurstSlot c waiting spill s) := by
  simp only [execMemBurstSlot]; (repeat' split) <;> simp
theorem execReguRateWrite_only (c part value : Nat) (s : State) : OnlyR [.out, .regs, .host] s (execReguRateWrite c part value s) := by
  simp only [execReguRateWrite]; (repeat' split) <;> simp
theorem execReguBurstWrite_only (c part value : Nat) (s : State) : OnlyR [.out, .regs, .chans, .host] s (execReguBurstWrite c part value s) := by
  simp only [execReguBurstWrite]; (repeat' split) <;> simp
theorem execRefresh_only (c k : Nat) (x : StackReport) (s : State) : OnlyR [.free, .chans] s (execRefresh c k x s) := by
  simp [execRefresh]
theorem execScrubRead_only (c : Nat) (errs : List (Nat × Byte)) (userWrite : Bool) (s : State) : OnlyR [.out, .regs, .hbm, .dev, .mram, .ctx0, .ctx1, .squads, .chans, .ledger, .host, .watch] s (execScrubRead c errs userWrite s) := by
  unfold execScrubRead; dsimp only
  (repeat' split) <;> first
    | (simp; done)
    | (simp; exact (State.regulate_only (by simp) _ _ _ (by assumption)).mpr .refl)
theorem execScrubBehind_only (c fraction : Nat) (s : State) : OnlyR [.out, .ledger, .host, .watch] s (execScrubBehind c fraction s) := by
  simp [execScrubBehind]
theorem execRetrainingStart_only (c p : Nat) (s : State) : OnlyR [.chans] s (execRetrainingStart c p s) := by
  simp [execRetrainingStart]
theorem execRetrainingDone_only (c p : Nat) (failed : List Nat) (s : State) : OnlyR [.out, .regs, .hbm, .dev, .mram, .ctx0, .ctx1, .squads, .chans, .ledger, .host, .watch] s (execRetrainingDone c p failed s) := by
  simp only [execRetrainingDone]; (repeat' split) <;> simp [apply_ite (Only _ s), only_foldl]
theorem execRetrainingTimeout_only (c p : Nat) (s : State) : OnlyR [.out, .regs, .hbm, .dev, .mram, .ctx0, .ctx1, .squads, .chans, .net, .ledger, .tele, .host, .watch] s (execRetrainingTimeout c p s) := by
  simp only [execRetrainingTimeout]; (repeat' split) <;> simp
theorem execRebuild_only (s : State) : OnlyR [.out, .regs, .dev, .host] s (execRebuild s) := by
  simp only [execRebuild]; (repeat' split) <;> simp
theorem execRebuildDone_only (s : State) : OnlyR [.out, .hbm, .dev, .chans, .ledger, .host, .watch] s (execRebuildDone s) := by
  simp [execRebuildDone]

/-! ### Links -/

theorem execPacketForward_only (arr : Option Nat) (p : Packet) (s : State) : OnlyR [.out, .hbm, .store, .ctx0, .ctx1, .squads, .chans, .links, .net, .ledger, .host, .watch] s (execPacketForward arr p s) := by
  simp only [execPacketForward]; (repeat' split) <;> simp
theorem execRoutingTableWrite_only (addr : Nat) (data : W64) (s : State) : OnlyR [.regs, .net] s (execRoutingTableWrite addr data s) := by
  simp only [execRoutingTableWrite]; (repeat' split) <;> simp
theorem execLnkTrain_only (n : Nat) (s : State) : OnlyR [.links] s (execLnkTrain n s) := by
  simp [execLnkTrain]
theorem execTrainingComplete_only (n : Nat) (badLanes : List Nat) (delay : Nat) (x : TrainSet) (s : State) : OnlyR [.out, .ctx0, .ctx1, .links, .net, .ledger, .host, .watch] s (execTrainingComplete n badLanes delay x s) := by
  simp only [execTrainingComplete]; (repeat' split) <;> simp [apply_ite (Only _ s), only_foldl]
theorem execIdentityBlock_only (n : Nat) (b : Identity) (s : State) : OnlyR [.out, .links, .ledger, .host, .watch] s (execIdentityBlock n b s) := by
  simp only [execIdentityBlock]; (repeat' split) <;> simp
theorem execNoPeerTimeout_only (n : Nat) (s : State) : OnlyR [.out, .links, .ledger, .host, .watch] s (execNoPeerTimeout n s) := by
  simp [execNoPeerTimeout]
theorem execLossOfLock_only (n lane : Nat) (s : State) : OnlyR [.out, .ctx0, .ctx1, .links, .net, .ledger, .host, .watch] s (execLossOfLock n lane s) := by
  simp only [execLossOfLock]; (repeat' split) <;> simp
theorem execPeerSilence_only (n : Nat) (s : State) : OnlyR [.out, .ctx0, .ctx1, .links, .net, .ledger, .host, .watch] s (execPeerSilence n s) := by
  simp [execPeerSilence]
theorem execLinkFlitReceive_only (n : Nat) (x : RxFlit) (s : State) : OnlyR [.out, .links, .net] s (execLinkFlitReceive n x s) := by
  simp only [execLinkFlitReceive]; (repeat' split) <;> simp
theorem execAckLctlSend_only (n : Nat) (s : State) : OnlyR [.out, .links] s (execAckLctlSend n s) := by
  simp [execAckLctlSend]

/-! ### Network -/

theorem execRouterPacketArrival_only (c at_ next dest : Nat) (offer : Option MemPacket) (s : State) : OnlyR [.out, .hbm, .store, .ctx0, .ctx1, .squads, .chans, .links, .net, .ledger, .host, .watch] s (execRouterPacketArrival c at_ next dest offer s) := by
  simp only [execRouterPacketArrival]; (repeat' split) <;> simp
theorem execSeamFlit_only (c j lane : Nat) (ok : Bool) (p : Option Packet) (s : State) : OnlyR [.out, .hbm, .store, .dev, .ctx0, .ctx1, .squads, .chans, .links, .net, .ledger, .host, .watch] s (execSeamFlit c j lane ok p s) := by
  simp only [execSeamFlit]; (repeat' split) <;> simp
theorem execMulticastFlitSend_only (g len : Nat) (s : State) : OnlyR [.out, .hbm, .store, .ctx0, .ctx1, .squads, .chans, .net, .ledger, .host, .watch] s (execMulticastFlitSend g len s) := by
  unfold execMulticastFlitSend; dsimp only
  (repeat' split) <;> first
    | (simp; done)
    | (simp [only_foldl]; exact (State.regulate_only (by simp) _ _ _ (by assumption)).mpr (by simp))
theorem execMulticastReattach_only (g sq : Nat) (s : State) : OnlyR [.hbm, .store, .squads, .net] s (execMulticastReattach g sq s) := by
  simp only [execMulticastReattach]; (repeat' split) <;> simp
theorem execRouterHole_only (sq : Nat) (s : State) : OnlyR [.out, .dev, .mram, .ctx0, .ctx1, .squads, .chans, .net, .ledger, .host, .watch] s (execRouterHole sq s) := by
  simp only [execRouterHole]; (repeat' split) <;> simp
theorem execDetourResume_only (c : Nat) (s : State) : OnlyR [.out, .hbm, .store, .ctx0, .ctx1, .squads, .chans, .links, .net, .ledger, .host, .watch] s (execDetourResume c s) := by
  simp [execDetourResume]
theorem execEdgeRouterFailure_only (c e : Nat) (s : State) : OnlyR [.out, .hbm, .dev, .mram, .ctx0, .ctx1, .squads, .chans, .net, .ledger, .tele, .host, .watch] s (execEdgeRouterFailure c e s) := by
  simp only [execEdgeRouterFailure]; (repeat' split) <;> simp [apply_ite (Only _ s), only_foldl]
theorem execRingLinkFailure_only (c e : Nat) (s : State) : OnlyR [.out, .hbm, .store, .dev, .ctx0, .ctx1, .squads, .chans, .links, .net, .ledger, .host, .watch] s (execRingLinkFailure c e s) := by
  simp only [execRingLinkFailure]; (repeat' split) <;> simp

/-! ### Faults -/

theorem execDetectorFault_only (e : Engine) (data : Option Nat) (s : State) : OnlyR [.out, .regs, .dev, .mram, .ctx0, .ctx1, .squads, .chans, .net, .ledger, .host, .watch] s (execDetectorFault e data s) := by
  simp only [execDetectorFault]; (repeat' split) <;> simp
theorem execEngineWatchdog_only (e : Engine) (s : State) : OnlyR [.out, .regs, .dev, .mram, .ctx0, .ctx1, .squads, .chans, .net, .ledger, .host, .watch] s (execEngineWatchdog e s) := by
  simp [execEngineWatchdog]
theorem execCmgrWatchdog_only (c : Nat) (s : State) : OnlyR [.out, .dev, .ctx0, .ctx1, .squads, .chans, .ledger, .host, .watch] s (execCmgrWatchdog c s) := by
  simp only [execCmgrWatchdog]; (repeat' split) <;> simp
theorem execSqFenceWrite_only (sq : Nat) (s : State) : OnlyR [.out, .dev, .mram, .ctx0, .ctx1, .squads, .chans, .net, .ledger, .host, .watch] s (execSqFenceWrite sq s) := by
  simp [execSqFenceWrite]
theorem execDmachFenceWrite_only (c d : Nat) (s : State) : OnlyR [.out, .regs, .ctx0, .ctx1, .chans, .ledger, .host, .watch] s (execDmachFenceWrite c d s) := by
  simp [execDmachFenceWrite]
theorem execLnkFenceWrite_only (n : Nat) (s : State) : OnlyR [.out, .ctx0, .ctx1, .links, .net, .ledger, .host, .watch] s (execLnkFenceWrite n s) := by
  simp [execLnkFenceWrite]
theorem execFenceClear_only (t : FenceTarget) (s : State) : OnlyR [.out, .regs, .mram, .chans, .links, .host] s (execFenceClear t s) := by
  simp only [execFenceClear]; (repeat' split) <;> simp
theorem execDevModeSideline_only (s : State) : OnlyR [.out, .dev, .ctx0, .ctx1, .squads, .chans, .ledger, .host, .watch] s (execDevModeSideline s) := by
  simp [execDevModeSideline]
theorem execSidelineNInput_only (ns : Nat) (s : State) : OnlyR [.out, .dev, .ctx0, .ctx1, .squads, .chans, .ledger, .host, .watch] s (execSidelineNInput ns s) := by
  simp only [execSidelineNInput]; (repeat' split) <;> simp
theorem execChannelReset_only (c : Nat) (b : BringUp) (s : State) : OnlyR [.free, .out, .regs, .latchA, .latchB, .hbm, .store, .dev, .mram, .ctx0, .ctx1, .squads, .chans, .links, .net, .ledger, .tele, .host, .watch] s (execChannelReset c b s) := by
  simp only [execChannelReset]; (repeat' split) <;> simp
theorem execArrClearField_only (sq : Nat) (s : State) : OnlyR [.out, .regs, .mram, .host] s (execArrClearField sq s) := by
  simp only [execArrClearField]; (repeat' split) <;> simp

/-! ### Time -/

theorem execWhistleSend_only (s : State) : OnlyR [.out, .links] s (execWhistleSend s) := by
  simp only [execWhistleSend]; (repeat' split) <;> simp
theorem execWhistleReceive_only (port : Nat) (w : Whistle) (residence : Nat) (s : State) : OnlyR [.out, .regs, .clk, .dev, .ctx0, .ctx1, .links, .ledger, .host, .watch] s (execWhistleReceive port w residence s) := by
  simp [execWhistleReceive]
theorem execWhistleInEdge_only (s : State) : OnlyR [.out, .regs, .clk, .dev, .ctx0, .ctx1, .ledger, .host, .watch] s (execWhistleInEdge s) := by
  simp only [execWhistleInEdge]; (repeat' split) <;> simp
theorem execWhistleSeed_only (v : W64) (s : State) : OnlyR [.regs, .clk] s (execWhistleSeed v s) := by
  simp [execWhistleSeed]
theorem execHoldover_only (s : State) : OnlyR [.out, .regs, .clk, .ledger, .host, .watch] s (execHoldover s) := by
  simp [execHoldover]
theorem execTrefLoss_only (s : State) : OnlyR [.out, .clk, .ledger, .host, .watch] s (execTrefLoss s) := by
  simp [execTrefLoss]
theorem execTrefReturn_only (s : State) : OnlyR [.clk] s (execTrefReturn s) := by
  simp [execTrefReturn]
theorem execTimeBaseLockLoss_only (s : State) : OnlyR [.out, .clk, .ctx0, .ctx1, .ledger, .host, .watch] s (execTimeBaseLockLoss s) := by
  simp [execTimeBaseLockLoss]
theorem execTimeSet_only (v : W64) (s : State) : OnlyR [.out, .regs, .clk, .dev, .ctx0, .ctx1, .ledger, .host, .watch] s (execTimeSet v s) := by
  simp only [execTimeSet]; (repeat' split) <;> simp
theorem execStEnd_only (s : State) : OnlyR [.clk, .ctx0, .ctx1] s (execStEnd s) := by
  simp [execStEnd]
theorem execMaintenanceWindowOpen_only (n : Nat) (s : State) : OnlyR [.out, .ledger, .host, .watch] s (execMaintenanceWindowOpen n s) := by
  simp [execMaintenanceWindowOpen]

/-! ### Power -/

theorem execVinUndervoltage_only (v : Nat) (s : State) : OnlyR [.out, .regs, .latchA, .latchB, .hbm, .store, .clk, .dev, .mram, .ctx0, .ctx1, .squads, .chans, .links, .net, .ledger, .tele, .host, .pwr, .watch, .flightSeq] s (execVinUndervoltage v s) := by
  unfold execVinUndervoltage; simp
theorem execVinOvervoltage_only (v : Nat) (s : State) : OnlyR [.out, .regs, .latchA, .latchB, .hbm, .store, .clk, .dev, .mram, .ctx0, .ctx1, .squads, .chans, .links, .net, .ledger, .tele, .host, .pwr, .watch, .flightSeq] s (execVinOvervoltage v s) := by
  unfold execVinOvervoltage; simp
theorem execSysResetNAssert_only (ns : Nat) (s : State) : OnlyR [.out, .regs, .latchA, .latchB, .hbm, .store, .clk, .dev, .mram, .ctx0, .ctx1, .squads, .chans, .links, .net, .ledger, .tele, .host, .pwr, .watch, .flightSeq] s (execSysResetNAssert ns s) := by
  unfold execSysResetNAssert; simp
theorem execAuxRailLoss_only (s : State) : OnlyR [.out, .regs, .latchA, .latchB, .hbm, .store, .clk, .dev, .mram, .ctx0, .ctx1, .squads, .chans, .links, .net, .ledger, .tele, .host, .pwr, .watch, .jtag, .smbSlot, .flightSeq] s (execAuxRailLoss s) := by
  unfold execAuxRailLoss; dsimp only
  refine onlyR_next.mpr (fun p h => ?_)
  have hd := (State.powerDown_only (ps := [.out, .regs, .latchA, .latchB, .hbm, .store, .clk, .dev, .mram, .ctx0, .ctx1, .squads, .chans, .links, .net, .ledger, .tele, .host, .pwr, .watch, .jtag, .smbSlot, .flightSeq]) (s0 := s) (s := s) (by decide) 10).mpr .refl p h
  cases p <;> first | exact hd | exact absurd (by decide) h
theorem execVinOutOfRange_only (v : Nat) (s : State) : OnlyR [.out, .ledger, .host, .pwr, .watch] s (execVinOutOfRange v s) := by
  simp [execVinOutOfRange]
theorem execCapStepDown_only (w : Nat) (s : State) : OnlyR [.out, .ledger, .host, .pwr, .watch] s (execCapStepDown w s) := by
  simp only [execCapStepDown]; (repeat' split) <;> simp
theorem execCapStepUp_only (w : Nat) (s : State) : OnlyR [.pwr] s (execCapStepUp w s) := by
  simp [execCapStepUp]
theorem execRailOvercurrent_only (c k peak : Nat) (s : State) : OnlyR [.pwr] s (execRailOvercurrent c k peak s) := by
  simp [execRailOvercurrent]
theorem execRailOvercurrentEnd_only (c k : Nat) (s : State) : OnlyR [.out, .ledger, .host, .pwr, .watch] s (execRailOvercurrentEnd c k s) := by
  simp [execRailOvercurrentEnd]
theorem execCclkChange_only (s : State) : OnlyR [.out, .clk, .host, .watch] s (execCclkChange s) := by
  simp [execCclkChange]
theorem execThermalStepDown_only (t : Temps) (s : State) : OnlyR [.pwr] s (execThermalStepDown t s) := by
  simp [execThermalStepDown]
theorem execThermalStepUp_only (t : Temps) (s : State) : OnlyR [.pwr] s (execThermalStepUp t s) := by
  simp [execThermalStepUp]
theorem execThermalTripWarning_only (t : Temps) (s : State) : OnlyR [.out, .dev, .ctx0, .ctx1, .squads, .chans, .ledger, .host, .pwr, .watch] s (execThermalTripWarning t s) := by
  simp [execThermalTripWarning]
theorem execThermalTrip_only (t : Temps) (s : State) : OnlyR [.out, .regs, .latchA, .latchB, .hbm, .store, .clk, .dev, .mram, .ctx0, .ctx1, .squads, .chans, .links, .net, .ledger, .tele, .host, .pwr, .watch, .flightSeq] s (execThermalTrip t s) := by
  unfold execThermalTrip; simp
theorem execThermtripRelease_only (s : State) : OnlyR [.out, .regs, .latchA, .latchB, .hbm, .store, .clk, .dev, .mram, .ctx0, .ctx1, .squads, .chans, .links, .net, .ledger, .tele, .host, .pwr, .watch, .flightSeq] s (execThermtripRelease s) := by
  unfold execThermtripRelease; simp

/-! ### Boot -/

theorem execStartup_only (s : State) : OnlyR [.out, .regs, .latchA, .latchB, .hbm, .store, .clk, .dev, .mram, .ctx0, .ctx1, .squads, .chans, .links, .net, .ledger, .tele, .host, .pwr, .watch, .flightSeq] s (execStartup s) := by
  unfold execStartup; dsimp only
  refine onlyR_guard.mpr fun _ => ?_
  split <;> simp
theorem execBootGo_only (port : Bool) (s : State) : OnlyR [.out, .regs, .host] s (execBootGo port s) := by
  simp only [execBootGo]; (repeat' split) <;> simp
theorem execBootVerify_only (img : Image) (found : List BringUp) (s : State) : OnlyR [.free, .out, .hbm, .store, .dev, .mram, .ctx0, .ctx1, .squads, .chans, .links, .net, .ledger, .tele, .host, .watch] s (execBootVerify img found s) := by
  simp only [execBootVerify]; (repeat' split) <;> simp

/-! ### HostPort -/

theorem execHostApertureWrite_only (v : Word) (s : State) : OnlyR [.host] s (execHostApertureWrite v s) := by
  simp [execHostApertureWrite]
theorem execApertureApply_only (s : State) : OnlyR [.host] s (execApertureApply s) := by
  simp only [execApertureApply]; (repeat' split) <;> simp
theorem execBar2Access_only (port : Bool) (a : Bar2Op) (s : State) : OnlyR [.out, .hbm, .ctx0, .ctx1, .chans, .host] s (execBar2Access port a s) := by
  simp only [execBar2Access]; (repeat' split) <;> simp
theorem execActivate_only (port : Bool) (s : State) : OnlyR [.out, .regs, .hbm, .mram, .ctx0, .ctx1, .chans, .ledger, .host, .watch] s (execActivate port s) := by
  simp only [execActivate]; (repeat' split) <;> simp
theorem execPerstAssert_only (port : Bool) (s : State) : OnlyR [.out, .regs, .hbm, .ctx0, .ctx1, .chans, .ledger, .host, .watch] s (execPerstAssert port s) := by
  simp only [execPerstAssert]; (repeat' split) <;> simp
theorem execPerstRelease_only (port : Bool) (s : State) : OnlyR [.host] s (execPerstRelease port s) := by
  simp [execPerstRelease]
theorem execHostPortLinkChange_only (port up : Bool) (s : State) : OnlyR [.out, .host] s (execHostPortLinkChange port up s) := by
  simp only [execHostPortLinkChange]; (repeat' split) <;> simp [apply_ite (Only _ s), only_foldl]

/-! ### Board -/

theorem execWpRead_only (w : Nat) (s : State) : OnlyR [.free, .out, .pwr] s (execWpRead w s) := by
  simp [execWpRead]
theorem execWpFenceWrite_only (w : Nat) (v : Half) (s : State) : OnlyR [.out, .dev, .mram, .ctx0, .ctx1, .squads, .chans, .net, .ledger, .host, .watch] s (execWpFenceWrite w v s) := by
  simp only [execWpFenceWrite]; (repeat' split) <;> simp [apply_ite (Only _ s), only_foldl]
theorem execWpSidelineCmd_only (v : Half) (s : State) : OnlyR [.out, .dev, .ctx0, .ctx1, .squads, .chans, .ledger, .host, .watch] s (execWpSidelineCmd v s) := by
  simp [execWpSidelineCmd]
theorem execWpAlertClear_only (v : Half) (s : State) : OnlyR [.watch] s (execWpAlertClear v s) := by
  simp [execWpAlertClear]
theorem execWpHeartbeat_only (s : State) : OnlyR [.watch] s (execWpHeartbeat s) := by
  simp [execWpHeartbeat]
theorem execBypass_only (s : State) : OnlyR [.out, .jtag] s (execBypass s) := by
  simp [execBypass]
theorem execIdcode_only (s : State) : OnlyR [.out, .jtag] s (execIdcode s) := by
  simp [execIdcode]
theorem execSamplePreload_only (s : State) : OnlyR [.free, .out, .jtag] s (execSamplePreload s) := by
  simp [execSamplePreload]
theorem execExtest_only (s : State) : OnlyR [.free, .out, .jtag] s (execExtest s) := by
  simp [execExtest]
theorem execExtestPulse_only (s : State) : OnlyR [.free, .out, .jtag] s (execExtestPulse s) := by
  simp [execExtestPulse]
theorem execExtestTrain_only (s : State) : OnlyR [.free, .out, .jtag] s (execExtestTrain s) := by
  simp [execExtestTrain]
theorem execClampIr_only (s : State) : OnlyR [.out, .jtag] s (execClampIr s) := by
  simp [execClampIr]
theorem execHighz_only (s : State) : OnlyR [.out, .jtag] s (execHighz s) := by
  simp [execHighz]
theorem execStack1500_only (k : Nat) (s : State) : OnlyR [.jtag] s (execStack1500 k s) := by
  simp only [execStack1500]; (repeat' split) <;> simp
theorem execTrstNReset_only (s : State) : OnlyR [.jtag] s (execTrstNReset s) := by
  simp [execTrstNReset]
theorem execSmbIdent_only (s : State) : OnlyR [.out] s (execSmbIdent s) := by
  simp [execSmbIdent]
theorem execSmbHealth_only (s : State) : OnlyR [.out] s (execSmbHealth s) := by
  simp [execSmbHealth]
theorem execSmbThermal_only (s : State) : OnlyR [.free, .out] s (execSmbThermal s) := by
  simp [execSmbThermal]
theorem execSmbPower_only (s : State) : OnlyR [.free, .out] s (execSmbPower s) := by
  simp [execSmbPower]
theorem execSmbLedgSel_only (slot : Nat) (s : State) : OnlyR [.smbSlot] s (execSmbLedgSel slot s) := by
  unfold execSmbLedgSel
  refine onlyR_guard.mpr fun _ p h => ?_
  cases p <;> first | rfl | exact absurd (by decide) h
theorem execSmbLedgLo_only (s : State) : OnlyR [.out] s (execSmbLedgLo s) := by
  simp [execSmbLedgLo]
theorem execSmbLedgHi_only (s : State) : OnlyR [.out] s (execSmbLedgHi s) := by
  simp [execSmbLedgHi]
theorem execSmbCounts_only (s : State) : OnlyR [.out] s (execSmbCounts s) := by
  simp [execSmbCounts]

/-! ### Registers -/

theorem execRegisterWrite_only (port : Bool) (a : Nat) (wide : Bool) (v : W64) (s : State) : OnlyR [.out, .regs, .mram, .ctx0, .ctx1, .ledger, .tele, .host] s (execRegisterWrite port a wide v s) := by
  unfold execRegisterWrite
  (repeat' split) <;> first | (simp; done) | skip
  rename_i h
  exact onlyR_next.mpr ((State.writeWords_only (by simp) _ _ _ _ h).mpr .refl)
theorem execIrqForce_only (page : Nat) (v : Word) (s : State) : OnlyR [.out, .regs, .host] s (execIrqForce page v s) := by
  simp only [execIrqForce]; (repeat' split) <;> simp [apply_ite (Only _ s), only_foldl]
theorem execPageLock_only (page : Nat) (s : State) : OnlyR [.regs] s (execPageLock page s) := by
  simp [execPageLock]
theorem execRegisterRead_only (port : Bool) (a : Nat) (wide : Bool) (s : State) : OnlyR [.free, .out, .latchA, .latchB, .pwr] s (execRegisterRead port a wide s) := by
  simp only [execRegisterRead]; (repeat' split) <;> simp

/-! ### Translate -/

theorem execTranslationWalk_only (n : Nat) (req : Requester) (va : W64) (write : Bool) (home : Option Nat) (s : State) : OnlyR [.out, .regs, .ctx0, .ctx1, .squads, .chans, .ledger, .host, .watch] s (execTranslationWalk n req va write home s) := by
  simp only [execTranslationWalk]; (repeat' split) <;> simp
theorem execMmuRootWrite_only (n : Nat) (value : W64) (s : State) : OnlyR [.out, .regs, .chans, .host] s (execMmuRootWrite n value s) := by
  simp only [execMmuRootWrite]; (repeat' split) <;> simp [apply_ite (Only _ s), only_foldl]
theorem execMmuInval_only (n : Nat) (va : W64) (pages : Nat) (all : Bool) (s : State) : OnlyR [.out, .regs, .chans, .host] s (execMmuInval n va pages all s) := by
  simp only [execMmuInval]; (repeat' split) <;> simp [apply_ite (Only _ s), only_foldl]
theorem execMmuInvalDone_only (s : State) : OnlyR [.regs] s (execMmuInvalDone s) := by
  simp [execMmuInvalDone]
theorem execMmuFlogAck_only (n : Nat) (s : State) : OnlyR [.ctx0, .ctx1] s (execMmuFlogAck n s) := by
  simp [execMmuFlogAck]

end Sys2Proof.Machine
end

