-- ==== Sys2Proof/Laws/OnlyMeaningsEngines.lean ====
section
/-! SUPPORT. Which parts each meaning may change: walkers, arrays, collectives, updates, commits, admission, DMA, huddles, completion, issue, blocks, pre-emption. -/

namespace Sys2Proof.Machine

/-! ### Walk -/

theorem execWalkAdd_only (sq w : Nat) (s : State) : OnlyR [.out, .dev, .ctx0, .ctx1, .squads, .chans, .ledger, .host, .watch] s (execWalkAdd sq w s) := by
  simp only [execWalkAdd]; (repeat' split) <;> simp
theorem execWalkSub_only (sq w : Nat) (s : State) : OnlyR [.out, .dev, .ctx0, .ctx1, .squads, .chans, .ledger, .host, .watch] s (execWalkSub sq w s) := by
  simp only [execWalkSub]; (repeat' split) <;> simp
theorem execWalkMul_only (sq w : Nat) (s : State) : OnlyR [.out, .dev, .ctx0, .ctx1, .squads, .chans, .ledger, .host, .watch] s (execWalkMul sq w s) := by
  simp only [execWalkMul]; (repeat' split) <;> simp
theorem execWalkAnd_only (sq w : Nat) (s : State) : OnlyR [.out, .dev, .ctx0, .ctx1, .squads, .chans, .ledger, .host, .watch] s (execWalkAnd sq w s) := by
  simp only [execWalkAnd]; (repeat' split) <;> simp
theorem execWalkOr_only (sq w : Nat) (s : State) : OnlyR [.out, .dev, .ctx0, .ctx1, .squads, .chans, .ledger, .host, .watch] s (execWalkOr sq w s) := by
  simp only [execWalkOr]; (repeat' split) <;> simp
theorem execWalkXor_only (sq w : Nat) (s : State) : OnlyR [.out, .dev, .ctx0, .ctx1, .squads, .chans, .ledger, .host, .watch] s (execWalkXor sq w s) := by
  simp only [execWalkXor]; (repeat' split) <;> simp
theorem execWalkShl_only (sq w : Nat) (s : State) : OnlyR [.out, .dev, .ctx0, .ctx1, .squads, .chans, .ledger, .host, .watch] s (execWalkShl sq w s) := by
  simp only [execWalkShl]; (repeat' split) <;> simp
theorem execWalkShr_only (sq w : Nat) (s : State) : OnlyR [.out, .dev, .ctx0, .ctx1, .squads, .chans, .ledger, .host, .watch] s (execWalkShr sq w s) := by
  simp only [execWalkShr]; (repeat' split) <;> simp
theorem execWalkMin_only (sq w : Nat) (s : State) : OnlyR [.out, .dev, .ctx0, .ctx1, .squads, .chans, .ledger, .host, .watch] s (execWalkMin sq w s) := by
  simp only [execWalkMin]; (repeat' split) <;> simp
theorem execWalkMax_only (sq w : Nat) (s : State) : OnlyR [.out, .dev, .ctx0, .ctx1, .squads, .chans, .ledger, .host, .watch] s (execWalkMax sq w s) := by
  simp only [execWalkMax]; (repeat' split) <;> simp
theorem execWalkCmp_only (sq w : Nat) (s : State) : OnlyR [.out, .dev, .ctx0, .ctx1, .squads, .chans, .ledger, .host, .watch] s (execWalkCmp sq w s) := by
  simp only [execWalkCmp]; (repeat' split) <;> simp
theorem execWalkSel_only (sq w : Nat) (s : State) : OnlyR [.out, .dev, .ctx0, .ctx1, .squads, .chans, .ledger, .host, .watch] s (execWalkSel sq w s) := by
  simp only [execWalkSel]; (repeat' split) <;> simp
theorem execWalkMov_only (sq w : Nat) (s : State) : OnlyR [.out, .dev, .ctx0, .ctx1, .squads, .chans, .ledger, .host, .watch] s (execWalkMov sq w s) := by
  simp only [execWalkMov]; (repeat' split) <;> simp
theorem execWalkMovi_only (sq w : Nat) (s : State) : OnlyR [.out, .dev, .ctx0, .ctx1, .squads, .chans, .ledger, .host, .watch] s (execWalkMovi sq w s) := by
  simp only [execWalkMovi]; (repeat' split) <;> simp
theorem execWalkArg_only (sq w : Nat) (s : State) : OnlyR [.free, .out, .dev, .ctx0, .ctx1, .squads, .chans, .ledger, .host, .watch] s (execWalkArg sq w s) := by
  simp only [execWalkArg]; (repeat' split) <;> simp
theorem execWalkLoop_only (sq w : Nat) (s : State) : OnlyR [.squads] s (execWalkLoop sq w s) := by
  simp only [execWalkLoop]; (repeat' split) <;> simp
theorem execWalkEndloop_only (sq w : Nat) (s : State) : OnlyR [.squads] s (execWalkEndloop sq w s) := by
  simp only [execWalkEndloop]; (repeat' split) <;> simp
theorem execWalkBr_only (sq w : Nat) (s : State) : OnlyR [.squads] s (execWalkBr sq w s) := by
  simp only [execWalkBr]; (repeat' split) <;> simp
theorem execWalkBrc_only (sq w : Nat) (s : State) : OnlyR [.squads] s (execWalkBrc sq w s) := by
  simp only [execWalkBrc]; (repeat' split) <;> simp
theorem execWalkEmit_only (sq w : Nat) (s : State) : OnlyR [.out, .dev, .ctx0, .ctx1, .squads, .chans, .ledger, .host, .watch] s (execWalkEmit sq w s) := by
  simp only [execWalkEmit]; (repeat' split) <;> simp
theorem execWalkEnd_only (sq w : Nat) (s : State) : OnlyR [.squads] s (execWalkEnd sq w s) := by
  simp only [execWalkEnd]; (repeat' split) <;> simp
theorem execWalkAttach_only (sq w : Nat) (s : State) : OnlyR [.out, .dev, .ctx0, .ctx1, .squads, .chans, .ledger, .host, .watch] s (execWalkAttach sq w s) := by
  simp only [execWalkAttach]; (repeat' split) <;> simp
theorem execWalkDetach_only (sq w : Nat) (s : State) : OnlyR [.out, .dev, .ctx0, .ctx1, .squads, .chans, .ledger, .host, .watch] s (execWalkDetach sq w s) := by
  simp only [execWalkDetach]; (repeat' split) <;> simp
theorem execWalkAcquire_only (sq w : Nat) (s : State) : OnlyR [.out, .dev, .ctx0, .ctx1, .squads, .chans, .ledger, .host, .watch] s (execWalkAcquire sq w s) := by
  simp only [execWalkAcquire]; (repeat' split) <;> simp
theorem execWalkPush_only (sq w : Nat) (s : State) : OnlyR [.out, .dev, .ctx0, .ctx1, .squads, .chans, .ledger, .host, .watch] s (execWalkPush sq w s) := by
  simp only [execWalkPush]; (repeat' split) <;> simp
theorem execWalkPop_only (sq w : Nat) (s : State) : OnlyR [.out, .dev, .ctx0, .ctx1, .squads, .chans, .ledger, .host, .watch] s (execWalkPop sq w s) := by
  simp only [execWalkPop]; (repeat' split) <;> simp
theorem execWalkRelease_only (sq w : Nat) (s : State) : OnlyR [.out, .dev, .ctx0, .ctx1, .squads, .chans, .ledger, .host, .watch] s (execWalkRelease sq w s) := by
  simp only [execWalkRelease]; (repeat' split) <;> simp
theorem execPoolGrant_only (sq n p : Nat) (s : State) : OnlyR [.out, .dev, .ctx0, .ctx1, .squads, .chans, .ledger, .host, .watch] s (execPoolGrant sq n p s) := by
  simp only [execPoolGrant]; (repeat' split) <;> simp
theorem execPopWake_only (sq n q : Nat) (s : State) : OnlyR [.out, .dev, .ctx0, .ctx1, .squads, .chans, .ledger, .host, .watch] s (execPopWake sq n q s) := by
  simp only [execPopWake]; (repeat' split) <;> simp
theorem execWalkLibraryLoad_only (n : Nat) (r : WalkLib) (s : State) : OnlyR [.ctx0, .ctx1, .squads] s (execWalkLibraryLoad n r s) := by
  simp only [execWalkLibraryLoad]; (repeat' split) <;> simp

/-! ### Array -/

theorem execWorkItemDeal_only (sq : Nat) (s : State) : OnlyR [.ctx0, .ctx1, .squads] s (execWorkItemDeal sq s) := by
  simp only [execWorkItemDeal]; (repeat' split) <;> simp
theorem execReload_only (sq : Nat) (s : State) : OnlyR [.squads] s (execReload sq s) := by
  simp only [execReload]; (repeat' split) <;> simp
theorem execStageClose_only (sq : Nat) (s : State) : OnlyR [.squads] s (execStageClose sq s) := by
  simp only [execStageClose]; (repeat' split) <;> simp
theorem execCloseLatchEmpty_only (sq slot : Nat) (s : State) : OnlyR [.squads] s (execCloseLatchEmpty sq slot s) := by
  simp only [execCloseLatchEmpty]; (repeat' split) <;> simp
theorem execRungCombine_only (sq slot : Nat) (s : State) : OnlyR [.squads] s (execRungCombine sq slot s) := by
  simp only [execRungCombine]; (repeat' split) <;> simp
theorem execDrainStart_only (sq : Nat) (errs : DrainFaults) (s : State) : OnlyR [.squads] s (execDrainStart sq errs s) := by
  simp only [execDrainStart]; (repeat' split) <;> simp

/-! ### ShortPass -/

theorem execShortPassMessage_only (m : ShortMsg) (s : State) : OnlyR [.out, .ctx0, .ctx1, .squads, .chans, .ledger, .host, .watch] s (execShortPassMessage m s) := by
  simp [execShortPassMessage]
theorem execOverflowDeliver_only (c n : Nat) (s : State) : OnlyR [.squads, .chans] s (execOverflowDeliver c n s) := by
  simp only [execOverflowDeliver]; (repeat' split) <;> simp
theorem execHeldMessageRelease_only (n : Nat) (s : State) : OnlyR [.out, .ctx0, .ctx1, .squads, .chans, .ledger, .host, .watch] s (execHeldMessageRelease n s) := by
  simp only [execHeldMessageRelease]; (repeat' split) <;> simp

/-! ### Collect -/

theorem execCombineNode_only (n tag node : Nat) (right : Bool) (off : Nat) (data : List Byte) (s : State) : OnlyR [.out, .hbm, .store, .ctx0, .ctx1, .net, .ledger, .host, .watch] s (execCombineNode n tag node right off data s) := by
  simp [execCombineNode]
theorem execTagGrant_only (n tag epoch : Nat) (s : State) : OnlyR [.ctx0, .ctx1, .net] s (execTagGrant n tag epoch s) := by
  simp only [execTagGrant]; (repeat' split) <;> simp [apply_ite (Only _ s), only_foldl]
theorem execCollectiveAbort_only (n tag epoch : Nat) (s : State) : OnlyR [.out, .ctx0, .ctx1, .net, .ledger, .host, .watch] s (execCollectiveAbort n tag epoch s) := by
  simp only [execCollectiveAbort]; (repeat' split) <;> simp
theorem execCollectiveRestart_only (n tag : Nat) (s : State) : OnlyR [.out, .hbm, .store, .ctx0, .ctx1, .net, .ledger, .host, .watch] s (execCollectiveRestart n tag s) := by
  simp only [execCollectiveRestart]; (repeat' split) <;> simp

/-! ### Update -/

theorem execUpdAdd_only (sq : Nat) (s : State) : OnlyR [.squads] s (execUpdAdd sq s) := by
  simp only [execUpdAdd]; (repeat' split) <;> simp
theorem execUpdSub_only (sq : Nat) (s : State) : OnlyR [.squads] s (execUpdSub sq s) := by
  simp only [execUpdSub]; (repeat' split) <;> simp
theorem execUpdMul_only (sq : Nat) (s : State) : OnlyR [.squads] s (execUpdMul sq s) := by
  simp only [execUpdMul]; (repeat' split) <;> simp
theorem execUpdFma_only (sq : Nat) (s : State) : OnlyR [.squads] s (execUpdFma sq s) := by
  simp only [execUpdFma]; (repeat' split) <;> simp
theorem execUpdSqrt_only (sq : Nat) (s : State) : OnlyR [.squads] s (execUpdSqrt sq s) := by
  simp only [execUpdSqrt]; (repeat' split) <;> simp
theorem execUpdRsqrt_only (sq : Nat) (s : State) : OnlyR [.squads] s (execUpdRsqrt sq s) := by
  simp only [execUpdRsqrt]; (repeat' split) <;> simp
theorem execUpdMax_only (sq : Nat) (s : State) : OnlyR [.squads] s (execUpdMax sq s) := by
  simp only [execUpdMax]; (repeat' split) <;> simp
theorem execUpdMin_only (sq : Nat) (s : State) : OnlyR [.squads] s (execUpdMin sq s) := by
  simp only [execUpdMin]; (repeat' split) <;> simp
theorem execUpdAbs_only (sq : Nat) (s : State) : OnlyR [.squads] s (execUpdAbs sq s) := by
  simp only [execUpdAbs]; (repeat' split) <;> simp
theorem execUpdSel_only (sq : Nat) (s : State) : OnlyR [.squads] s (execUpdSel sq s) := by
  simp only [execUpdSel]; (repeat' split) <;> simp
theorem execUpdClamp_only (sq : Nat) (s : State) : OnlyR [.squads] s (execUpdClamp sq s) := by
  simp only [execUpdClamp]; (repeat' split) <;> simp
theorem execUpdScl_only (sq : Nat) (s : State) : OnlyR [.squads] s (execUpdScl sq s) := by
  simp only [execUpdScl]; (repeat' split) <;> simp

/-! ### Commit -/

theorem execVoteReceive_only (n lo hi : Nat) (v : Vote) (s : State) : OnlyR [.out, .ctx0, .ctx1, .ledger, .host, .watch] s (execVoteReceive n lo hi v s) := by
  simp [execVoteReceive]
theorem execCommitShotClockExpiry_only (n : Nat) (s : State) : OnlyR [.out, .ctx0, .ctx1, .ledger, .host, .watch] s (execCommitShotClockExpiry n s) := by
  simp only [execCommitShotClockExpiry]; (repeat' split) <;> simp
theorem execPairPacket_only (n src port : Nat) (step : Word) (exp growth : Nat) (digest : W64) (s : State) : OnlyR [.out, .ctx0, .ctx1, .ledger, .host, .watch] s (execPairPacket n src port step exp growth digest s) := by
  simp [execPairPacket]
theorem execCommitReceive_only (n : Nat) (d : Decision) (s : State) : OnlyR [.out, .ctx0, .ctx1, .ledger, .host, .watch] s (execCommitReceive n d s) := by
  simp only [execCommitReceive]; (repeat' split) <;> simp
theorem execHoldReceive_only (n : Nat) (d : Decision) (s : State) : OnlyR [.out, .ctx0, .ctx1, .ledger, .host, .watch] s (execHoldReceive n d s) := by
  simp only [execHoldReceive]; (repeat' split) <;> simp
theorem execCommitAbortReceive_only (n : Nat) (d : Decision) (s : State) : OnlyR [.out, .ctx0, .ctx1, .squads, .chans, .ledger, .host, .watch] s (execCommitAbortReceive n d s) := by
  simp only [execCommitAbortReceive]; (repeat' split) <;> simp
theorem execMemberCommitClockExpiry_only (n : Nat) (s : State) : OnlyR [.out, .ctx0, .ctx1, .ledger, .host, .watch] s (execMemberCommitClockExpiry n s) := by
  simp only [execMemberCommitClockExpiry]; (repeat' split) <;> simp
theorem execDecisionQuery_only (n src : Nat) (step : Word) (s : State) : OnlyR [.out] s (execDecisionQuery n src step s) := by
  simp only [execDecisionQuery]; (repeat' split) <;> simp
theorem execDecisionAnswer_only (n : Nat) (commit : Bool) (d : Decision) (s : State) : OnlyR [.out, .ctx0, .ctx1, .squads, .chans, .ledger, .host, .watch] s (execDecisionAnswer n commit d s) := by
  simp only [execDecisionAnswer]; (repeat' split) <;> simp
theorem execDecisionQueryTimeout_only (n : Nat) (s : State) : OnlyR [.out, .ctx0, .ctx1, .ledger, .host, .watch] s (execDecisionQueryTimeout n s) := by
  simp only [execDecisionQueryTimeout]; (repeat' split) <;> simp
theorem execCompleteCommit_only (s : State) : OnlyR [.out, .regs, .ctx0, .ctx1, .ledger, .host, .watch] s (execCompleteCommit s) := by
  simp only [execCompleteCommit]; (repeat' split) <;> simp
theorem execDiscardVote_only (s : State) : OnlyR [.out, .regs, .ctx0, .ctx1, .host] s (execDiscardVote s) := by
  simp only [execDiscardVote]; (repeat' split) <;> simp
theorem execRedigest_only (s : State) : OnlyR [.ctx0, .ctx1] s (execRedigest s) := by
  simp [execRedigest]
theorem execRedigestDone_only (n : Nat) (s : State) : OnlyR [.ctx0, .ctx1] s (execRedigestDone n s) := by
  simp [execRedigestDone]
theorem execUpdStepWrite_only (n : Nat) (v : Word) (s : State) : OnlyR [.out, .regs, .ctx0, .ctx1, .host] s (execUpdStepWrite n v s) := by
  simp only [execUpdStepWrite]; (repeat' split) <;> simp
theorem execLossScaleWrite_only (n exp growth : Nat) (s : State) : OnlyR [.out, .regs, .ctx0, .ctx1, .host] s (execLossScaleWrite n exp growth s) := by
  simp only [execLossScaleWrite]; (repeat' split) <;> simp

/-! ### Admit -/

theorem execDescriptorAdmit_only (n q : Nat) (s : State) : OnlyR [.out, .ctx0, .ctx1, .ledger, .host, .watch, .flightSeq] s (execDescriptorAdmit n q s) := by
  simp only [execDescriptorAdmit]; (repeat' split) <;> simp

/-! ### Dma -/

theorem execDmaStart_only (c d : Nat) (s : State) : OnlyR [.out, .regs, .ctx0, .ctx1, .chans, .ledger, .host, .watch] s (execDmaStart c d s) := by
  simp only [execDmaStart]; (repeat' split) <;> simp
theorem execDmaAbort_only (c d : Nat) (s : State) : OnlyR [.out, .regs, .ctx0, .ctx1, .chans, .ledger, .host, .watch] s (execDmaAbort c d s) := by
  simp only [execDmaAbort]; (repeat' split) <;> simp
theorem execDmaResume_only (c d : Nat) (s : State) : OnlyR [.out, .regs, .chans, .host] s (execDmaResume c d s) := by
  simp only [execDmaResume]; (repeat' split) <;> simp
theorem execDmaBurstCommit_only (c d : Nat) (hostData : List Byte) (s : State) : OnlyR [.out, .regs, .hbm, .store, .ctx0, .ctx1, .chans, .ledger, .host, .watch] s (execDmaBurstCommit c d hostData s) := by
  simp only [execDmaBurstCommit]; (repeat' split) <;> simp
theorem execDmaOrderingRead_only (c d : Nat) (s : State) : OnlyR [.out, .regs, .hbm, .store, .ctx0, .ctx1, .chans, .host] s (execDmaOrderingRead c d s) := by
  simp only [execDmaOrderingRead]; (repeat' split) <;> simp

/-! ### Huddle -/

theorem execSquadHuddleArrival_only (n k sq : Nat) (s : State) : OnlyR [.ctx0, .ctx1] s (execSquadHuddleArrival n k sq s) := by
  simp only [execSquadHuddleArrival]; (repeat' split) <;> simp
theorem execHuddlePacket_only (p : HuddlePkt) (s : State) : OnlyR [.out, .ctx0, .ctx1] s (execHuddlePacket p s) := by
  simp only [execHuddlePacket]; (repeat' split) <;> simp
theorem execHuddleShotClockExpiry_only (n q : Nat) (s : State) : OnlyR [.out, .ctx0, .ctx1, .ledger, .host, .watch] s (execHuddleShotClockExpiry n q s) := by
  simp only [execHuddleShotClockExpiry]; (repeat' split) <;> simp

/-! ### Retire -/

theorem execFunctionLoad_only (n slot : Nat) (r : FnRecord) (s : State) : OnlyR [.ctx0, .ctx1, .squads] s (execFunctionLoad n slot r s) := by
  simp [execFunctionLoad]
theorem execUpdateProgramLoad_only (n k : Nat) (r : UpdProgram) (s : State) : OnlyR [.ctx0, .ctx1, .squads] s (execUpdateProgramLoad n k r s) := by
  simp [execUpdateProgramLoad]
theorem execStepPlanLoad_only (n : Nat) (r : StepPlan) (s : State) : OnlyR [.ctx0, .ctx1] s (execStepPlanLoad n r s) := by
  simp [execStepPlanLoad]
theorem execDescriptorComplete_only (n seq : Nat) (s : State) : OnlyR [.free, .out, .regs, .hbm, .store, .ctx0, .ctx1, .squads, .chans, .net, .ledger, .tele, .host, .watch] s (execDescriptorComplete n seq s) := by
  simp only [execDescriptorComplete]; (repeat' split) <;> simp

/-! ### Issue -/

theorem execDescriptorReady_only (n q : Nat) (s : State) : OnlyR [.out, .regs, .ctx0, .ctx1, .squads, .ledger, .tele, .host, .watch] s (execDescriptorReady n q s) := by
  simp only [execDescriptorReady]; (repeat' split) <;> simp
theorem execNotBeforeTimeReached_only (n q : Nat) (s : State) : OnlyR [.ctx0, .ctx1] s (execNotBeforeTimeReached n q s) := by
  simp only [execNotBeforeTimeReached]; (repeat' split) <;> simp
theorem execDescriptorIssue_only (n : Nat) (cls : Cls) (s : State) : OnlyR [.out, .regs, .hbm, .store, .ctx0, .ctx1, .squads, .chans, .net, .ledger, .tele, .host, .watch] s (execDescriptorIssue n cls s) := by
  simp only [execDescriptorIssue]; (repeat' split) <;> simp

/-! ### Block -/

theorem execBlockCommit_only (e : Engine) (s : State) : OnlyR [.out, .hbm, .store, .dev, .mram, .ctx0, .ctx1, .squads, .chans, .net, .ledger, .host, .watch] s (execBlockCommit e s) := by
  simp only [execBlockCommit]; (repeat' split) <;> simp
theorem execKStepIssue_only (sq : Nat) (s : State) : OnlyR [.out, .ctx0, .ctx1, .squads, .ledger, .host, .watch] s (execKStepIssue sq s) := by
  unfold execKStepIssue
  (repeat' split) <;> first
    | (simp; done)
    | exact onlyR_next.mpr ((State.issueCycle_only (by simp) _ _ _ (by assumption)).mpr .refl)
theorem execTileCheckVerdict_only (sq : Nat) (s : State) : OnlyR [.out, .hbm, .store, .dev, .mram, .ctx0, .ctx1, .squads, .chans, .net, .ledger, .host, .watch] s (execTileCheckVerdict sq s) := by
  unfold execTileCheckVerdict; dsimp only
  (repeat' split) <;> first | (simp; done) | skip
  rename_i t _ h
  have k : Only [.out, .hbm, .store, .dev, .mram, .ctx0, .ctx1, .squads, .chans, .net, .ledger, .host, .watch] s t := by
    split at h
    · exact (State.ringRegulate_only (by simp) _ _ _ _ h).mpr .refl
    · cases h; exact .refl
  simpa using k

/-! ### LedgerCmds -/

theorem execLedgerRecordWrite_only (ch : Nat) (o : Offer) (s : State) : OnlyR [.out, .ledger, .host, .watch] s (execLedgerRecordWrite ch o s) := by
  simp [execLedgerRecordWrite]
theorem execRateInterval_only (s : State) : OnlyR [.ledger] s (execRateInterval s) := by
  simp [execRateInterval]
theorem execHostRecordSubmit_only (s : State) : OnlyR [.out, .ledger, .host, .watch] s (execHostRecordSubmit s) := by
  simp only [execHostRecordSubmit]; (repeat' split) <;> simp
theorem execHmbReady_only (s : State) : OnlyR [.out, .ledger, .host] s (execHmbReady s) := by
  simp [execHmbReady]
theorem execLedgerReadSelect_only (index : Nat) (s : State) : OnlyR [.ledger] s (execLedgerReadSelect index s) := by
  simp [execLedgerReadSelect]
theorem execPonSSave_only (s : State) : OnlyR [.mram] s (execPonSSave s) := by
  simp [execPonSSave]
theorem execKeyWordWrite_only (i : Nat) (w : Word) (s : State) : OnlyR [.out, .regs, .mram, .ledger, .host, .watch] s (execKeyWordWrite i w s) := by
  simp only [execKeyWordWrite]; (repeat' split) <;> simp
theorem execRekeyWindowClose_only (s : State) : OnlyR [.ledger] s (execRekeyWindowClose s) := by
  simp [execRekeyWindowClose]
theorem execClearRequest_only (scope : Nat) (s : State) : OnlyR [.out, .ledger, .host] s (execClearRequest scope s) := by
  simp only [execClearRequest]; (repeat' split) <;> simp
theorem execClearSubmit_only (resp : List Byte) (s : State) : OnlyR [.out, .mram, .ledger, .host, .watch] s (execClearSubmit resp s) := by
  simp only [execClearSubmit]; (repeat' split) <;> simp
theorem execClearDone_only (s : State) : OnlyR [.out, .mram, .ledger, .host, .watch] s (execClearDone s) := by
  simp only [execClearDone]; (repeat' split) <;> simp
theorem execChallengeExpiry_only (s : State) : OnlyR [.ledger] s (execChallengeExpiry s) := by
  simp [execChallengeExpiry]
theorem execLockoutEnd_only (s : State) : OnlyR [.ledger] s (execLockoutEnd s) := by
  simp [execLockoutEnd]

/-! ### Preempt -/

theorem execPreemptNbtLead_only (q : Nat) (s : State) : OnlyR [.out, .ctx0, .ctx1, .host] s (execPreemptNbtLead q s) := by
  simp only [execPreemptNbtLead]; (repeat' split) <;> simp
theorem execHostDoorbell_only (port : Bool) (n q tail : Nat) (wrap : Bool) (recs : List Descriptor) (s : State) : OnlyR [.out, .regs, .ctx0, .ctx1, .host] s (execHostDoorbell port n q tail wrap recs s) := by
  simp only [execHostDoorbell]; (repeat' split) <;> simp
theorem execEngineRestartPoint_only (n : Nat) (e : Engine) (s : State) : OnlyR [.out, .ctx0, .ctx1, .squads, .chans, .net, .ledger, .host, .watch] s (execEngineRestartPoint n e s) := by
  simp [execEngineRestartPoint]
theorem execSpillComplete_only (s : State) : OnlyR [.out, .hbm, .ctx0, .ctx1, .squads, .chans, .ledger, .host, .watch] s (execSpillComplete s) := by
  simp only [execSpillComplete]; (repeat' split) <;> simp [apply_ite (Only _ s), only_foldl]
theorem execYieldWrite_only (s : State) : OnlyR [.out, .regs, .ctx0, .ctx1, .host] s (execYieldWrite s) := by
  simp only [execYieldWrite]; (repeat' split) <;> simp
theorem execYieldTakesEffect_only (s : State) : OnlyR [.out, .ctx0, .ctx1, .host] s (execYieldTakesEffect s) := by
  simp only [execYieldTakesEffect]; (repeat' split) <;> simp
theorem execFillComplete_only (s : State) : OnlyR [.out, .store, .ctx0, .ctx1, .squads, .chans, .ledger, .host, .watch] s (execFillComplete s) := by
  simp only [execFillComplete]; (repeat' split) <;> simp [apply_ite (Only _ s), only_foldl]

end Sys2Proof.Machine
end

