-- ==== Sys2Proof/WellFormed.lean ====
section
/-! DEFINITION. WellFormed: the ranges of a command's numbers, from the counts the manual gives the machine. A command that
breaks them names no thing of the machine; exec is total on it all the same, and no statement rests on what it does (DESIGN CHOICE, log 25). -/

namespace Sys2Proof

/-- Context 0 or 1 (R93). -/
def okCtx (n : Nat) : Bool := n < 2
/-- Queue 0 to 15 (R92). -/
def okQueue (n : Nat) : Bool := n < 16
/-- Squad c x 16 + s (R7). -/
def okSquad (n : Nat) : Bool := n < 64
/-- Channel C0 to C3 (R7). -/
def okChan (n : Nat) : Bool := n < 4
/-- DMA channel 0 to 31 of a channel (R171). -/
def okDma (n : Nat) : Bool := n < 32
/-- Link port 0 to 23 (R209). -/
def okPort (n : Nat) : Bool := n < 24
/-- Walker 0 to 5 of a squad (R112). -/
def okWalker (n : Nat) : Bool := n < 6
/-- Slot of an array (R26). -/
def okSlot (n : Nat) : Bool := n < 8
/-- Pseudo-channel 0 to 511 of a channel (R133). -/
def okPc (n : Nat) : Bool := n < 512

def Engine.wf : Engine → Bool
  | .array q | .vector q | .row q | .update q | .fetch q => okSquad q
  | .dma c d => okChan c && okDma d
  | .collective t => t < 1024
  | .dispatcher q => okQueue q

def Requester.wf : Requester → Bool
  | .host | .scrub => true
  | .engine x q _ _ => okCtx x && okQueue q
  | .dma c d => okChan c && okDma d
  | .table x q _ _ _ l => okCtx x && okQueue q && l < 4
  | .spill c => okChan c

def FenceTarget.wf : FenceTarget → Bool
  | .squad q => okSquad q
  | .dma c d => okChan c && okDma d
  | .port n => okPort n

/-- The ranges of a command's operands. -/
def Instr.wf : Instr → Bool
  | .hostDoorbell _ x q t _ _ => okCtx x && okQueue q && t < 2 ^ 20
  | .preemptNbtLead q => okQueue q
  | .spillComplete | .yieldWrite | .yieldTakesEffect | .fillComplete => true
  | .descriptorAdmit x q | .descriptorReady x q | .notBeforeTimeReached x q | .shotClockExpiry x q | .skip x q | .retry x q
  | .huddleShotClockExpiry x q => okCtx x && okQueue q
  | .descriptorIssue x _ | .descriptorComplete x _ | .mutualWait x | .contextStart x | .resume x | .abort x | .contextReset x
  | .walkLibraryLoad x _ | .stepPlanLoad x _ | .heldMessageRelease x | .maintenanceWindowOpen x | .commitShotClockExpiry x
  | .commitReceive x _ | .holdReceive x _ | .commitAbortReceive x _ | .memberCommitClockExpiry x | .decisionQuery x _ _
  | .decisionAnswer x _ _ | .decisionQueryTimeout x | .redigestDone x | .updStepWrite x _ | .mmuRootWrite x _
  | .mmuInval x _ _ _ | .mmuFlogAck x => okCtx x
  | .flagWrite x f _ => okCtx x && f < 256
  | .queueRingPlace x q b l => okCtx x && okQueue q && b < 2 ^ 48 && l < 32
  | .workItemDeal q | .reload q | .kStepIssue q | .stageClose q | .tileCheckVerdict q | .sqFenceWrite q
  | .arrClearField q | .routerHole q => okSquad q
  | .drainStart q e => okSquad q && e.det < 256
  | .closeLatchEmpty q k | .rungCombine q k => okSquad q && okSlot k
  | .blockCommit e | .detectorFault e _ | .engineWatchdog e => e.wf
  | .engineRestartPoint x e => okCtx x && e.wf
  | .functionLoad x k _ => okCtx x && k < 16
  | .updateProgramLoad x n p => okCtx x && n < 16 && p.code.length ≤ 32 && p.k.length ≤ 8 && p.sr.length == 3
  | .walkAdd q w | .walkSub q w | .walkMul q w | .walkAnd q w | .walkOr q w | .walkXor q w | .walkShl q w | .walkShr q w
  | .walkMin q w | .walkMax q w | .walkCmp q w | .walkSel q w | .walkMov q w | .walkMovi q w | .walkArg q w | .walkLoop q w
  | .walkEndloop q w | .walkBr q w | .walkBrc q w | .walkEmit q w | .walkEnd q w | .walkAttach q w | .walkDetach q w
  | .walkAcquire q w | .walkPush q w | .walkPop q w | .walkRelease q w => okSquad q && okWalker w
  | .poolGrant q x p => okSquad q && okCtx x && p < 8
  | .popWake q x p => okSquad q && okCtx x && p < 16
  | .updAdd q | .updSub q | .updMul q | .updFma q | .updSqrt q | .updRsqrt q | .updMax q | .updMin q | .updAbs q | .updSel q
  | .updClamp q | .updScl q => okSquad q
  | .shortPassMessage m => okCtx m.ctx && okSquad m.squad && m.mbox < 8 && m.data.length ≤ 64
  | .overflowDeliver c x => okChan c && okCtx x
  | .squadHuddleArrival x n q => okCtx x && n < 65536 && okSquad q
  | .huddlePacket p => okCtx p.ctx && p.number < 65536 && p.epoch < 65536
  | .memRead r sp _ e => r.wf && (sp < 5 || (8 ≤ sp && sp < 12)) && e.all (fun b => b.1 < 72)
  | .memWrite r sp _ _ e => r.wf && (sp < 5 || (8 ≤ sp && sp < 12)) && e.all (fun b => b.1 < 72)
  | .burstReread c e => okChan c && e.all (fun b => b.1 < 72)
  | .stackFailure c k h => okChan c && k < 8 && (match h with | some n => n < 32 | none => true)
  | .memBurstSlot c ws _ => okChan c && ws.all (· < 6)
  | .refresh c k _ => okChan c && k < 8
  | .scrubRead c e _ => okChan c && e.all (fun b => b.1 < 72)
  | .scrubBehind c f => okChan c && f < 256
  | .retrainingStart c p | .retrainingTimeout c p => okChan c && okPc p
  | .retrainingDone c p l => okChan c && okPc p && l.all (· < 36)
  | .rebuild | .rebuildDone | .mmuInvalDone => true
  | .reguRateWrite c p v | .reguBurstWrite c p v => okChan c && p < 6 && v < 2 ^ 32
  | .translationWalk x r _ _ h => okCtx x && r.wf && (match h with | some c => c < 5 | none => true)
  | .dmaStart c d | .dmaAbort c d | .dmaResume c d | .dmaBurstCommit c d _ | .dmaOrderingRead c d | .dmachFenceWrite c d =>
      okChan c && okDma d
  | .cmgrWatchdog c | .channelReset c _ | .detourResume c => okChan c
  | .lnkFenceWrite n | .ackLctlSend n | .lnkTrain n | .trainingComplete n _ _ _ | .identityBlock n _ | .noPeerTimeout n
  | .peerSilence n => okPort n
  | .fenceClear t => t.wf
  | .devModeSideline | .sidelineNInput _ => true
  | .routerPacketArrival c a k d _ => okChan c && a < 32 && k < 32 && d < 32
  | .seamFlit c j l _ _ => okChan c && j < 2 && l < 4
  | .combineNode x t _ _ _ _ => okCtx x && t < 1024
  | .multicastFlitSend _ l => l ≤ 4096
  | .multicastReattach _ q => okSquad q
  | .edgeRouterFailure c e | .ringLinkFailure c e => okChan c && e < 16
  | .linkFlitReceive n f => okPort n && f.flit.seq < 4096 && f.flit.vc < 4 && f.flit.body.length ≤ 248
  | .packetForward a _ => (match a with | some n => okPort n | none => true)
  | .routingTableWrite a _ => a < 2 ^ 20
  | .tagGrant x t _ | .collectiveRestart x t | .collectiveAbort x t _ => okCtx x && t < 1024
  | .lossOfLock n l => okPort n && l < 8
  | .whistleSend | .whistleInEdge | .holdover | .trefLoss | .trefReturn | .timeBaseLockLoss | .timeSet _ | .whistleSeed _
  | .stEnd => true
  | .whistleReceive p w _ => okPort p && w.hops < 256
  | .voteReceive x lo hi _ => okCtx x && lo ≤ hi
  | .pairPacket x _ p _ e _ _ => okCtx x && okPort p && e < 32
  | .completeCommit | .discardVote | .redigest => true
  | .lossScaleWrite x e g => okCtx x && e < 32 && g < 2 ^ 16
  | .ledgerRecordWrite c o => c < 5 && o.code < 2 ^ 16 && o.sev < 4 && o.payload.length ≤ 32
  | .rateInterval | .hostRecordSubmit | .hmbReady | .rekeyWindowClose | .clearDone | .challengeExpiry | .lockoutEnd
  | .ponSSave => true
  | .ledgerReadSelect i => i < 2 ^ 17
  | .keyWordWrite i _ => i < 8
  | .clearRequest sc => sc < 4
  | .clearSubmit r => r.length == 32
  | .registerWrite _ a _ _ => a < 2 ^ 26
  | .registerRead _ a _ => a < 2 ^ 26
  | .irqForce p _ => p < 2 ^ 26 && p % 0x1000 == 0
  | .pageLock p => p < 2 ^ 26 && p % 0x1000 == 0
  | .bar2Access _ _ | .hostApertureWrite _ | .apertureApply | .activate _ | .perstAssert _ | .perstRelease _ | .bootGo _
  | .startup | .sysResetNAssert _ => true
  | .bootVerify _ st => st.length == 4
  | .vinOutOfRange v | .vinUndervoltage v | .vinOvervoltage v => v < 2 ^ 16
  | .capStepDown w | .capStepUp w => w < 2 ^ 16
  | .railOvercurrent c k _ | .railOvercurrentEnd c k => okChan c && k < 6
  | .cclkChange | .thermtripRelease => true
  | .thermalStepDown t | .thermalStepUp t | .thermalTripWarning t | .thermalTrip t => t.die.length == 4 && t.stack.length == 4
  | .wpHeartbeat | .bypass | .idcode | .samplePreload | .extest | .extestPulse | .extestTrain | .clampIr | .highz
  | .trstNReset | .smbIdent | .smbHealth | .smbThermal | .smbPower | .smbLedgLo | .smbLedgHi | .smbCounts
  | .auxRailLoss => true
  | .wpRead w => w < 256
  | .wpFenceWrite w _ => w < 256
  | .wpSidelineCmd _ | .wpAlertClear _ => true
  | .stack1500 k => k < 32
  | .smbLedgSel k => k < 122880
  | .hostPortLinkChange _ _ => true

end Sys2Proof
end

