-- ==== Sys2Proof/Tests/Slice0.lean ====
section
/-! SUPPORT. Our own tests: the WellFormed smoke, one witness of the hypotheses of each obligation, and single steps with results from outside the model. -/

/-! ## Small states -/

namespace Sys2Proof.Tests

set_option Elab.async false

open Sys2Proof Sys2Proof.Machine

/-- A device that has started up, nothing running. -/
def live : State := { State.reset with dev := { Dev.reset with mode := .full, step := 7, ready := true, railsUp := true } }
def ctxOn : Ctx := { Ctx.reset with started := true }
/-- The routine context runs. -/
def run0 : State := { live with ctx0 := ctxOn }
/-- The urgent context runs and the routine one is pre-empted. -/
def run1 : State := { live with ctx0 := { ctxOn with preempted := true }, ctx1 := { ctxOn with running := true } }
/-- A descriptor without operands. -/
def d0 : Descriptor :=
  { cls := .nop, op := .none, shape := .t1, accFmt := .fp32, accSet := 0, splitK := 0, hold := false, chain := false, t := [none, none, none, none], counts := none, groups := 0,
    skipOcc := false, skipZv := false, mask := .none, valueSide := false, occGen := false, ovfReport := false, stochastic := false, frozen := false, noDx := false,
    destTag := none, waits := [none, none, none, none], set0 := none, set1 := none, pred := none, nbt := 0, shot := 0, phase := 0, send := none, mbox := none }
/-- A plain tensor in the first channel's memory. -/
def ten (base : Nat) (dims strides : List Nat) (f : Fmt) : TensorRec :=
  { fmt := f, dims := dims, strides := strides, home := .hbmLocal 0, base := base, skewed := false, mxAxis := 0, scaleTable := none, pat24 := none,
    occMap := none, mapKDim := 0, mapValid := false, frozenMask := none, frozenBlock := false, nf := .clean, srSeed := 0, srStep := false, statsBacking := none }
/-- A descriptor in flight. -/
def fl (d : Descriptor) (p : Phase) : Flight :=
  { seq := 0, queue := 0, qindex := 0, desc := d, recs := [], fp := [], phase := p, latched := [false, false, false, false], nbtPassed := true, shotNs := 0,
    predOk := true, issueSt := 0, issueKnown := true, issueA := 64, issueExp := 16, copyMode := false, items := 0, itemsDone := 0, commitMap := [],
    replays := 0, replayed := false, faulted := [], nonfinite := [], mxPend := [], overflow := false, expired := false, doneLatched := false, arrived := false,
    stopWord := [], rowsOf := [], sent := none, epoch := 0 }
/-- The routine context runs with some flights. -/
def fly (l : List Flight) : State := { live with ctx0 := { ctxOn with flight := l } }
/-- Squad 0 replaced. -/
def sq0 (s : State) (q : Squad) : State := { s with squads := [(0, q)] }
/-- Channel 0 replaced. -/
def ch0 (s : State) (h : Chan) : State := { s with chans := [(0, h)] }
/-- Link 0 replaced. -/
def ln0 (s : State) (l : Link) : State := { s with links := [(0, l)] }
/-- A walker of context 0 at the start of a program. -/
def wk (code : List WInstr) : Walker := { Walker.reset with code := code, state := .running, g := [(0, 3), (1, 5), (2, 64), (3, 63), (4, 2), (5, 4)], args := [7] }
/-- The routine context runs, and walker 0 of squad 0 stands at the start of a program. -/
def walking (code : List WInstr) : State := sq0 run0 { Squad.reset with walkers := [(0, wk code)] }
/-- The walker stands at this instruction. -/
def standsAt (s : State) (w : Nat) (i : WInstr) : Bool := match s.curWalk 0 w with | some (_, j) => decide (j = i) | none => false
/-- The outcome is a next state that passes a check. -/
def nextIs (r : Res) (p : State → Bool) : Bool := match r with | .next t => p t | _ => false
/-- Eight bytes of a table. -/
def put8 (s : State) (sp off v : Nat) : State := s.hbmWrite sp off (leBytes 8 v)
/-- Page tables of context 0: virtual 4 GiB to 5 GiB is local memory, virtual 8 GiB to 12 GiB the four spill spaces. -/
def mapped (s : State) : State :=
  (((List.range 4).foldl (fun (u : State) c => put8 u 0 (0x10001040 + 8 * c) ((8 + c) * 2 ^ 44 + 31))
    (put8 (put8 s 0 0x10000000 (0x10001000 + 1)) 0 0x10001020 (0x40000000 + 15))).setRg64 (pgMMU + 0x100) (0x10000000 + 1)).setRg64 (pgDISP 0 + 0x110) 0x200000000
/-- The urgent context's share of a squad store is 0 MiB. -/
def share0 (s : State) : State := s.setRg (pgDEV + 0x12C) (20 * 2 ^ 24)

/-! ## Ill-formed commands, one for each check -/

/-- Descriptors' squads, contexts, queues, slots and walkers that the machine does not have. -/
theorem test_wf_refuses_numbers :
    ([.hostDoorbell false 2 0 0 false [], .hostDoorbell false 0 16 0 false [], .hostDoorbell false 0 0 (2 ^ 20) false [], .preemptNbtLead 16,
      .descriptorAdmit 2 0, .descriptorAdmit 0 16, .descriptorReady 2 0, .notBeforeTimeReached 0 16, .shotClockExpiry 2 0, .skip 0 16, .retry 2 0,
      .huddleShotClockExpiry 0 16, .descriptorIssue 2 .dma, .descriptorComplete 2 0, .mutualWait 2, .contextStart 2, .resume 2, .abort 2, .contextReset 2,
      .flagWrite 2 0 true, .flagWrite 0 256 true, .queueRingPlace 2 0 0 4, .queueRingPlace 0 16 0 4, .queueRingPlace 0 0 (2 ^ 48) 4, .queueRingPlace 0 0 0 32,
      .workItemDeal 64, .reload 64, .kStepIssue 64, .stageClose 64, .closeLatchEmpty 64 0, .closeLatchEmpty 0 8, .rungCombine 64 0, .rungCombine 0 8,
      .drainStart 64 ⟨[], 0⟩, .drainStart 0 ⟨[], 256⟩, .tileCheckVerdict 64] : List Instr).all (fun c => !c.wf) = true := by decide +kernel

theorem test_wf_refuses_loads :
    ([.blockCommit (.vector 64), .blockCommit (.row 64), .blockCommit (.update 64), .blockCommit (.fetch 64), .detectorFault (.array 64) none,
      .engineWatchdog (.dma 4 0), .engineWatchdog (.dma 0 32), .engineWatchdog (.collective 1024), .engineWatchdog (.dispatcher 16),
      .engineRestartPoint 2 (.array 0), .engineRestartPoint 0 (.array 64), .functionLoad 2 0 ⟨⟨0, 0, [], (0, 0), (0, 0)⟩, ⟨0, 0, [], (0, 0), (0, 0)⟩⟩,
      .functionLoad 0 16 ⟨⟨0, 0, [], (0, 0), (0, 0)⟩, ⟨0, 0, [], (0, 0), (0, 0)⟩⟩, .walkLibraryLoad 2 ⟨[], [], []⟩,
      .updateProgramLoad 2 0 ⟨[], [], 0, 0, [false, false, false]⟩, .updateProgramLoad 0 16 ⟨[], [], 0, 0, [false, false, false]⟩,
      .updateProgramLoad 0 0 ⟨List.replicate 33 (.abs .wOut .g), [], 0, 0, [false, false, false]⟩,
      .updateProgramLoad 0 0 ⟨[], List.replicate 9 0, 0, 0, [false, false, false]⟩, .updateProgramLoad 0 0 ⟨[], [], 0, 0, []⟩, .stepPlanLoad 2 ⟨0, 0, 0, []⟩,
      .walkAdd 64 0, .walkAdd 0 6, .poolGrant 64 0 0, .poolGrant 0 2 0, .poolGrant 0 0 8, .popWake 64 0 0, .popWake 0 2 0, .popWake 0 0 16, .updAdd 64,
      .heldMessageRelease 2, .overflowDeliver 4 0, .overflowDeliver 0 2, .squadHuddleArrival 2 0 0, .squadHuddleArrival 0 65536 0, .squadHuddleArrival 0 0 64,
      .huddlePacket ⟨2, 0, 0, 0, 0, true⟩, .huddlePacket ⟨0, 65536, 0, 0, 0, true⟩, .huddlePacket ⟨0, 0, 65536, 0, 0, true⟩,
      .shortPassMessage ⟨0, 0, 2, 0, 0, 0, 0, 1, 1, 0, []⟩, .shortPassMessage ⟨0, 0, 0, 64, 0, 0, 0, 1, 1, 0, []⟩,
      .shortPassMessage ⟨0, 0, 0, 0, 8, 0, 0, 1, 1, 0, []⟩, .shortPassMessage ⟨0, 0, 0, 0, 0, 0, 0, 1, 1, 0, List.replicate 65 0⟩] : List Instr).all (fun c => !c.wf) = true := by decide +kernel

/-- Memory, translation, DMA, fences, network and links. -/
theorem test_wf_refuses_places :
    ([.memRead .host 5 0 [], .memRead .host 12 0 [], .memRead .host 0 0 [(72, 1)], .memRead (.engine 2 0 0 0) 0 0 [], .memRead (.engine 0 16 0 0) 0 0 [],
      .memRead (.dma 4 0) 0 0 [], .memRead (.dma 0 32) 0 0 [], .memRead (.table 2 0 0 0 0 0) 0 0 [], .memRead (.table 0 16 0 0 0 0) 0 0 [],
      .memRead (.table 0 0 0 0 0 4) 0 0 [], .memRead (.spill 4) 0 0 [], .memWrite .host 5 0 [] [], .memWrite .host 0 0 [] [(72, 1)], .burstReread 4 [],
      .burstReread 0 [(72, 1)], .stackFailure 4 0 none, .stackFailure 0 8 none, .stackFailure 0 0 (some 32), .memBurstSlot 4 [] false, .memBurstSlot 0 [6] false,
      .refresh 4 0 ⟨0, 0⟩, .refresh 0 8 ⟨0, 0⟩, .scrubRead 4 [] false, .scrubRead 0 [(72, 1)] false, .scrubBehind 4 0, .scrubBehind 0 256, .retrainingStart 4 0,
      .retrainingStart 0 512, .retrainingTimeout 0 512, .retrainingDone 4 0 [], .retrainingDone 0 512 [], .retrainingDone 0 0 [36], .reguRateWrite 4 0 0,
      .reguRateWrite 0 6 0, .reguBurstWrite 0 0 (2 ^ 32), .translationWalk 2 .host 0 false none, .translationWalk 0 .host 0 false (some 5), .mmuRootWrite 2 0,
      .mmuInval 2 0 0 true, .mmuFlogAck 2, .dmaStart 4 0, .dmaAbort 0 32, .dmaResume 4 0, .dmaBurstCommit 0 32 [], .dmaOrderingRead 4 0, .dmachFenceWrite 0 32] : List Instr).all (fun c => !c.wf) = true := by decide +kernel

theorem test_wf_refuses_network :
    ([.cmgrWatchdog 4, .channelReset 4 ⟨[], [], [], [], []⟩, .detourResume 4, .sqFenceWrite 64, .arrClearField 64, .routerHole 64, .lnkFenceWrite 24,
      .fenceClear (.squad 64), .fenceClear (.dma 4 0), .fenceClear (.dma 0 32), .fenceClear (.port 24),
      .routerPacketArrival 4 0 1 0 none, .routerPacketArrival 0 32 0 0 none, .routerPacketArrival 0 0 32 0 none,
      .routerPacketArrival 0 0 1 32 none, .packetForward (some 24) ⟨0, 0, 0, 0, 0, 0, .short, 0, 0, 0, []⟩,
      .seamFlit 4 0 0 true none, .seamFlit 0 2 0 true none, .seamFlit 0 0 4 true none, .combineNode 2 0 1 false 0 [], .combineNode 0 1024 1 false 0 [], .multicastFlitSend 0 4097,
      .multicastReattach 0 64, .edgeRouterFailure 4 0, .edgeRouterFailure 0 16, .ringLinkFailure 0 16, .linkFlitReceive 24 ⟨⟨0, 0, .idle, none, 0, 0, [], 0⟩, 0⟩,
      .linkFlitReceive 0 ⟨⟨4096, 0, .idle, none, 0, 0, [], 0⟩, 0⟩, .linkFlitReceive 0 ⟨⟨0, 4, .idle, none, 0, 0, [], 0⟩, 0⟩,
      .linkFlitReceive 0 ⟨⟨0, 0, .idle, none, 0, 0, List.replicate 249 0, 0⟩, 0⟩, .ackLctlSend 24, .routingTableWrite (2 ^ 20) 0, .tagGrant 2 0 0, .tagGrant 0 1024 0, .collectiveAbort 0 1024 0,
      .collectiveRestart 2 0, .lnkTrain 24, .trainingComplete 24 [] 0 ⟨false, false, []⟩, .identityBlock 24 ⟨0, 0, 0, 0, 0, 0⟩, .noPeerTimeout 24, .lossOfLock 24 0,
      .lossOfLock 0 8, .peerSilence 24] : List Instr).all (fun c => !c.wf) = true := by decide +kernel

/-- Time, the commit, the ledger, registers, power and the board. -/
theorem test_wf_refuses_values :
    ([.whistleReceive 24 ⟨0, 0, 0, 0⟩ 0, .whistleReceive 0 ⟨0, 0, 0, 256⟩ 0, .maintenanceWindowOpen 2, .voteReceive 2 0 0 ⟨0, 0, 0, true, 0, 0, 0, 0⟩,
      .voteReceive 0 1 0 ⟨0, 0, 0, true, 0, 0, 0, 0⟩, .commitShotClockExpiry 2, .pairPacket 2 0 0 0 0 0 0, .pairPacket 0 0 24 0 0 0 0, .pairPacket 0 0 0 0 32 0 0,
      .commitReceive 2 ⟨0, 0, 0, 0⟩, .holdReceive 2 ⟨0, 0, 0, 0⟩, .commitAbortReceive 2 ⟨0, 0, 0, 0⟩, .memberCommitClockExpiry 2, .decisionQuery 2 0 0,
      .decisionAnswer 2 true ⟨0, 0, 0, 0⟩, .decisionQueryTimeout 2, .redigestDone 2, .updStepWrite 2 0, .lossScaleWrite 2 0 0, .lossScaleWrite 0 32 0,
      .lossScaleWrite 0 0 (2 ^ 16), .ledgerRecordWrite 5 ⟨0, 0, 0, 0, 0, []⟩, .ledgerRecordWrite 0 ⟨2 ^ 16, 0, 0, 0, 0, []⟩, .ledgerRecordWrite 0 ⟨0, 4, 0, 0, 0, []⟩,
      .ledgerRecordWrite 0 ⟨0, 0, 0, 0, 0, List.replicate 33 0⟩, .ledgerReadSelect (2 ^ 17), .keyWordWrite 8 0, .clearRequest 4, .clearSubmit [],
      .registerWrite false (2 ^ 26) false 0, .registerRead false (2 ^ 26) false, .irqForce (2 ^ 26) 0, .irqForce 4 0, .pageLock (2 ^ 26), .pageLock 4,
      .bootVerify ⟨0, 0, 0, true, true, []⟩ [], .vinOutOfRange (2 ^ 16), .vinUndervoltage (2 ^ 16), .vinOvervoltage (2 ^ 16), .capStepDown (2 ^ 16),
      .capStepUp (2 ^ 16), .railOvercurrent 4 0 0, .railOvercurrent 0 6 0, .railOvercurrentEnd 0 6, .thermalStepDown ⟨[], [0, 0, 0, 0]⟩,
      .thermalStepUp ⟨[0, 0, 0, 0], []⟩, .thermalTripWarning ⟨[], []⟩, .thermalTrip ⟨[], []⟩, .wpRead 256, .wpFenceWrite 256 0, .stack1500 32,
      .smbLedgSel 122880] : List Instr).all (fun c => !c.wf) = true := by decide +kernel

/-- The largest numbers that are allowed. -/
theorem test_wf_accepts_bounds :
    ([.hostDoorbell true 1 15 (2 ^ 20 - 1) true [], .flagWrite 1 255 true, .queueRingPlace 1 15 (2 ^ 48 - 1) 31, .closeLatchEmpty 63 7, .walkAdd 63 5,
      .memRead .host 4 0 [(71, 1)], .memRead .host 11 0 [], .stackFailure 3 7 (some 31), .retrainingDone 3 511 [35], .seamFlit 3 1 3 true none, .routerPacketArrival 3 31 31 31 none,
      .linkFlitReceive 23 ⟨⟨4095, 3, .idle, none, 0, 0, [], 0⟩, 16⟩, .tagGrant 1 1023 0, .lossScaleWrite 1 31 65535, .keyWordWrite 7 0,
      .smbLedgSel 122879, .stack1500 31] : List Instr).all Instr.wf = true := by decide +kernel

/-! ## The hypotheses of the statements are met -/

theorem test_EmptyQueuePassesTime_hypotheses :
    State.reset.pending = [] ∧ State.reset.alive = false ∧ live.pending = [] ∧ live.alive = true ∧ live.clk.baseLock = true := by decide +kernel

theorem test_CommandsLeaveTheQueue_hypotheses :
    nextIs (exec .ponSSave State.reset) (fun _ => true) = true ∧ nextIs (exec (.abort 0) run0) (fun t => t.pending == []) = true := by decide +kernel

theorem test_StepKeepsMemoryForm_hypotheses :
    (Memory.wf State.reset.hbm = true ∧ Memory.wf State.reset.store = true) ∧ (Memory.wf (mapped live).hbm = true ∧ Memory.wf (mapped live).store = true) ∧
      nextIs (step ((mapped live).setPending [.memWrite .host 0 0 (List.replicate 64 1) []])) (fun t => t.hbm.length == 64 + (mapped live).hbm.length) = true := by
  decide +kernel

theorem test_CommandsKeepTheirFootprint_hypotheses :
    nextIs (exec .startup State.reset) (fun t => t.dev.step == 1) = true ∧ nextIs (exec (.flagWrite 0 239 true) live) (fun t => t.ctx0.flag 239) = true := by
  decide +kernel

/-! ### Walkers -/

theorem test_WalkScalarsWriteTheirResult_hypotheses :
    ([.add (.g 6) (.g 0) (.g 1), .sub (.g 6) (.g 0) (.g 1), .mul (.g 6) (.g 0) (.g 1), .and (.g 6) (.g 0) (.g 1), .or (.g 6) (.g 0) (.g 1),
      .xor (.remain 0) (.g 0) (.g 1), .shl (.g 6) (.g 0) (.g 3), .shr (.g 6) (.g 0) (.g 3), .shl (.g 6) (.g 0) (.g 2), .shr (.g 6) (.g 0) (.g 2),
      .min (.g 6) (.g 0) (.g 1), .max (.g 6) (.g 0) (.g 1), .cmp .ltS (.g 6) (.g 0) (.g 1), .sel (.g 6) (.g 7) (.g 0) (.g 1), .mov (.count 5) (.g 0),
      .movi (.index 0) 9, .arg (.g 6) 0, .arg (.g 6) 1] : List WInstr).all (fun i => standsAt (walking [i]) 0 i) = true ∧
    ((wk []).rd (.g 3)).toNat = 63 ∧ ((wk []).rd (.g 2)).toNat = 64 ∧ (wk []).args[0]? = some 7 ∧ (wk []).args[1]? = none := by decide +kernel

/-- A walker in a loop, at pc, with this count and these iterations left. -/
def looping (pc : Nat) (cnt left : Word) : Walker :=
  { wk [.loop 0, .movi (.count 0) 9, .endloop 0, .done] with pc := pc, count := [(0, cnt)], remain := [(0, left)] }
def loops (pc : Nat) (cnt left : Word) : State := sq0 run0 { Squad.reset with walkers := [(0, looping pc cnt left)] }

theorem test_WalkLoopsLatchTheirCount_hypotheses :
    (standsAt (loops 0 3 0) 0 (.loop 0) = true ∧ tget 0 (looping 0 3 0).count 0 ≠ 0) ∧
    (standsAt (loops 0 0 0) 0 (.loop 0) = true ∧ tget 0 (looping 0 0 0).count 0 = 0 ∧ (looping 0 0 0).code[2]? = some (.endloop 0) ∧
      (looping 0 0 0).code[1]? ≠ some (.endloop 0)) ∧
    (standsAt (loops 2 3 1) 0 (.endloop 0) = true ∧ tget 0 (looping 2 3 1).remain 0 = 1) ∧
    (standsAt (loops 2 3 2) 0 (.endloop 0) = true ∧ tget 0 (looping 2 3 2).remain 0 ≠ 1 ∧ (looping 2 3 2).code[0]? = some (.loop 0) ∧
      (looping 2 3 2).code[1]? ≠ some (.loop 0)) ∧
    standsAt (loops 1 3 2) 0 (.movi (.count 0) 9) = true := by decide +kernel

def noArgs : EmitArgs := { conv := none, col := false, first := 0, count := 0, slots := 0, index := none, tag := none, stat := none, note := none }
def rec0 : StreamRec := { ctx := 0, seq := 0, item := 0, write := false, addr := 0, len := 0, aux := 0, pool := none, part := 0, x := noArgs, index := none, stat := none, note := 0 }
def job1 : WJob := { ctx := 0, seq := 1, item := 1, queue := 0, code := [.done], args := [], fp := [], ahead := none }
def reader (i : WInstr) : Walker := { wk [i] with fp := [⟨.virt, 0, 64, false, 0⟩] }
/-- A walker that may emit reads of the first 64 bytes, with n records in its FIFO. -/
def emitting (n : Nat) (i : WInstr) : State :=
  sq0 (fly [{ fl d0 .issued with fp := [⟨.virt, 0, 64, false, 0⟩] }])
    { Squad.reset with walkers := [(0, reader i)], fifo := [(0, List.replicate n rec0)] }

theorem test_WalkBranchesAndEmits_hypotheses :
    (standsAt (walking [.br 0]) 0 (.br 0) = true ∧ standsAt (walking [.brc (.g 0) 0]) 0 (.brc (.g 0) 0) = true ∧ (wk []).rd (.g 0) ≠ 0 ∧
      standsAt (walking [.brc (.g 9) 0]) 0 (.brc (.g 9) 0) = true ∧ (wk []).rd (.g 9) = 0) ∧
    (standsAt (walking [.done]) 0 .done = true ∧ (wk []).next = [] ∧
      standsAt (sq0 run0 { Squad.reset with walkers := [(0, { wk [.done] with next := [job1] })] }) 0 .done = true) ∧
    (standsAt (emitting 31 (.emit false (.g 0) (.g 1) (.g 9) .mem 0 noArgs)) 0 (.emit false (.g 0) (.g 1) (.g 9) .mem 0 noArgs) = true ∧
      (emitting 31 .done).emitOk 0 0 (reader .done) false 3 5 0 .mem 0 = true ∧
      (tget [] ((emitting 31 .done).squad 0).fifo 0).length = 31) ∧
    ((emitting 32 .done).emitOk 0 0 (reader .done) false 3 61 0 .mem 0 = true ∧ (tget [] ((emitting 32 .done).squad 0).fifo 0).length = 32) ∧
    (emitting 0 .done).emitOk 0 0 (reader .done) false 3 62 0 .mem 0 = false := by decide +kernel

/-- A stream of context 0's first item, with a reserve, a ceiling and handles charged. -/
def strm (id r c : Nat) (l : List Nat) : Stream := { id := id, ctx := 0, seq := 0, item := 0, queue := 0, ahead := none, reserve := r, ceiling := c, charged := l, part := 0 }
/-- A pool of four buffers. -/
def pool4 (free : List Nat) (l : List Stream) : Pool := { plan := ⟨4, 64, 0⟩, free := free, streams := l, last := 0 }
/-- A walker of a squad with that pool. -/
def pooled (p : Pool) (k : Walker) : State := sq0 run0 { Squad.reset with walkers := [(0, k)], pools := [(0, p)] }
def wait_ (st : WState) : Walker := { wk [.done] with state := st }

theorem test_PoolsGrantByTheirRule_hypotheses :
    ((pool4 [0, 1] []).badAttach 2 4 = false ∧ (pool4 [0, 1] []).streams.length < 8 ∧ (pool4 [0, 1] []).stream 1 = none ∧ standsAt (pooled (pool4 [0, 1] []) (wk [.attach 0 1 (.g 4) (.g 5) 0])) 0 (.attach 0 1 (.g 4) (.g 5) 0) = true ∧
      (pooled (pool4 [0, 1] []) (wk [])).pool 0 0 0 = some (pool4 [0, 1] []) ∧ 2 + ((pool4 [0, 1] []).streams.map fun t => t.reserve - t.charged.length).sum = 2) ∧
    ((pool4 [0] [strm 2 2 2 [1, 2]]).badAttach 2 4 = false ∧ (pool4 [0] [strm 2 2 2 [1, 2]]).stream 2 = some (strm 2 2 2 [1, 2]) ∧ 1 < 2 + ([strm 2 2 2 [1, 2]].map fun t : Stream => t.reserve - t.charged.length).sum) ∧
    ((pool4 [0, 1] [strm 2 3 3 []]).plan.buffers < (pool4 [0, 1] [strm 2 3 3 []]).reserves + 2) ∧
    (standsAt (pooled (pool4 [] [strm 1 2 4 []]) (wk [.detach 0 1])) 0 (.detach 0 1) = true ∧
      (pool4 [] [strm 1 2 4 []]).stream 1 = some (strm 1 2 4 []) ∧ (pool4 [] [strm 1 2 4 [3]]).stream 1 = some (strm 1 2 4 [3])) ∧
    (standsAt (pooled (pool4 [0] [strm 1 2 4 [1]]) (wk [.acquire 0 1 (.g 6)])) 0 (.acquire 0 1 (.g 6)) = true ∧ [1].length < 2) ∧
    ([1, 2].length < 4 ∧ ¬ [1, 2].length < 2 ∧
      (((pool4 [0] [strm 1 2 4 [1, 2]]).streams.filter (·.id ≠ 1)).map fun u => u.reserve - u.charged.length).sum < [0].length) ∧
    ((pool4 [] [strm 1 2 4 []]).free = [] ∧ 2 ≤ [1, 2].length ∧ 2 ≤ [1, 2].length ∧ (pool4 [0] [strm 1 2 2 [1, 2]]).stream 1 = some (strm 1 2 2 [1, 2])) ∧
    (standsAt (pooled (pool4 [] [strm 1 2 4 [3]]) (wk [.release 0 (.g 0)])) 0 (.release 0 (.g 0)) = true ∧ ((wk []).rd (.g 0)).toNat ∈ [3]) := by
  decide +kernel

theorem test_PoolGrant_hypotheses :
    (pool4 [0, 1] []).nextWaiter 0 0 [(0, wait_ (.attach 0 1 2 4 0))] = some (0, wait_ (.attach 0 1 2 4 0)) ∧
    (pool4 [0] [strm 1 2 4 [1]]).nextWaiter 0 0 [(3, wait_ (.acquire 0 1 (.g 6)))] = some (3, wait_ (.acquire 0 1 (.g 6))) ∧
    (pool4 [0] [strm 1 2 4 []]).nextWaiter 0 0 [(5, wait_ (.detach 0 1))] = some (5, wait_ (.detach 0 1)) := by decide +kernel

/-- A pass queue from walker p to walker c. -/
def pq (p c : Nat) (l : List (Nat × Word)) : PassQ := ⟨⟨0, .walker p, .walker c⟩, l⟩
def queued (v : PassQ) (k : Walker) : State := sq0 run0 { Squad.reset with walkers := [(0, k)], passq := [(0, v)] }

theorem test_PassQueuesAreFirstInFirstOut_hypotheses :
    (standsAt (queued (pq 0 1 []) (wk [.push 0 (.g 0) (.g 1)])) 0 (.push 0 (.g 0) (.g 1)) = true ∧ (queued (pq 0 1 []) (wk [])).passQ 0 0 0 = some (pq 0 1 []) ∧
      (pq 0 1 []).plan.producer = .walker 0 ∧ (pq 1 0 []).plan.producer ≠ .walker 0) ∧
    (standsAt (queued (pq 1 0 []) (wk [.pop 0 (.g 6) (.g 7)])) 0 (.pop 0 (.g 6) (.g 7)) = true ∧ (pq 0 1 []).plan.consumer ≠ .walker 0 ∧ (pq 1 0 []).plan.consumer = .walker 0 ∧
      (pq 1 0 []).entries = [] ∧ (pq 1 0 [(2, 9)]).entries = [(2, 9)]) ∧
    ((wk []).wr (.g 6) 0).isSome = true ∧ ((wk []).wr (.g 7) 0).isSome = true ∧ ((wk []).wr (.remain 0) 0).isSome = false ∧
    popWaiter [(0, wait_ (.pop 0 (.remain 0) (.g 7)))] 0 0 = some (0, wait_ (.pop 0 (.remain 0) (.g 7)), .remain 0, .g 7) ∧
    popWaiter [(0, wait_ (.pop 0 (.g 6) (.g 7)))] 0 0 = some (0, wait_ (.pop 0 (.g 6) (.g 7)), .g 6, .g 7) := by decide +kernel

theorem test_PoolReservesStayCovered_hypotheses :
    (pool4 [0, 1, 2, 3] [strm 1 2 2 []]).deficits ≤ 4 ∧ (pool4 [0, 1, 2, 3] [strm 1 2 2 []]).canAttach 2 2 = true ∧
    (pool4 [0, 1, 2, 3] [strm 1 2 2 []]).stream 1 = some (strm 1 2 2 []) ∧
    ((pool4 [0, 1, 2, 3] [strm 1 2 2 []]).streams.map (·.id)).Nodup ∧
    (pool4 [0, 1, 2, 3] [strm 1 2 2 []]).canAcquire (strm 1 2 2 []) = true ∧
    ((pool4 [0, 1] [strm 1 2 2 [2, 3]]).streams.flatMap (·.charged)).Nodup ∧ 2 ∉ (pool4 [0, 1] [strm 1 2 2 [2, 3]]).free := by
  decide +kernel

theorem test_WalkLibraryIsChecked_hypotheses :
    walkLibOk ⟨[(0, [.loop 0, .endloop 0, .done])], [], []⟩ = true ∧ walkLibOk ⟨[(1023, [.done])], [], []⟩ = true ∧ walkLibOk ⟨[(1024, [.done])], [], []⟩ = false ∧
    (run0.ctx 0).libInUse = false ∧
    ({ ctxOn with walkLib := ⟨[(0, [.done])], [], []⟩, flight := [fl { d0 with cls := .matmul } .admitted] } : Ctx).libInUse = true := by decide +kernel

/-- The update engine of squad 0 at the start of a program of two, on one lane. -/
def updating (i : UInstr) : State :=
  let c := { ctxOn with
    updProgs := [(0, ⟨[i, i], [], 0, 0, [false, false, false]⟩)],
    shard := some ⟨[⟨0, 1, none, none, 2, 0, 3, 4, 5⟩], 0, false⟩,
    flight := [fl { d0 with cls := .update, op := .apply 0 0 } .issued] }
  sq0 { live with ctx0 := c } { Squad.reset with upe := some ⟨0, 0, 0, 0, 0, 0, [⟨0x40000000, 0x3F800000, 0, 0, [], none, none, none⟩], [], 0⟩ }

theorem test_UpdateOperationsPutLanes_hypotheses :
    ([.add (.x 0) .g .w, .sub (.x 0) .g .w, .mul (.x 0) .g .w, .fma (.x 0) .g .w .m1, .sqrt (.x 0) .g, .rsqrt .wOut .g, .max .m1Out .g .w, .min .m2Out .g .w,
      .abs (.x 11) .g, .sel (.x 0) .g .w .m1, .clamp (.x 0) .g .w .m1, .scl (.x 0) .g (-3)] : List UInstr).all
      (fun i => match (updating i).updCur 0 with | some (_, _, j) => decide (j = i) | none => false) = true ∧
    (((updating (.abs .wOut .g)).ctx 0).updProgs.any fun e => decide (0 + 1 < e.2.code.length)) = true := by decide +kernel

/-! ### Arrays -/

def va : Nat := 0x100000000
def matDesc : Descriptor :=
  { d0 with cls := .matmul, splitK := 1, accSet := 1, t := [some ⟨1, true, .read⟩, some ⟨2, true, .read⟩, some ⟨3, false, .write⟩, none] }
/-- A product of a 2 x 4 and a 4 x 3 matrix in flight. -/
def matFlight : Flight :=
  { fl matDesc .issued with recs := [(1, ten va [4, 2] [1, 4] .bf16), (2, ten (va + 4096) [4, 3] [1, 4] .bf16), (3, ten (va + 8192) [3, 2] [1, 3] .fp32)], items := 1 }
def matOp : MatOp :=
  { seq := 0, segs := [⟨0, 0, 4, true⟩], rowsOf := [2], n := 3, k := 4, ell := 4096, parts := 1, total := 1, nextItem := 0, undealt := [], assigned := [],
    ladder := [], partVals := [], committed := [] }
def item0 (k hi : Nat) : Item :=
  { seq := 0, ctx := 0, index := 0, row0 := 0, col0 := 0, rows := 2, group := 0, part := 0, kLo := 0, kHi := hi, stage := 0, kPos := k, sub := 0, slots := [0] }
/-- The product runs and squad 0's array is a. -/
def multiplying (a : Arr) : State := sq0 { live with ctx0 := { ctxOn with flight := [matFlight], mats := [matOp] } } { Squad.reset with arr := a }

theorem test_ArraysTakeAndRunTheirItems_hypotheses :
    (((multiplying Arr.reset).squad 0).fenced = false ∧ ((multiplying Arr.reset).squad 0).arr.allIssued = true ∧
      (multiplying Arr.reset).dealing = some (0, matOp) ∧ ((multiplying Arr.reset).ctx 0).matDesc matOp = some matDesc ∧
      ((matOp.take (multiplying Arr.reset).unfenced 0).map (·.1)) = some 0 ∧ Arr.reset.fmt = matDesc.accFmt ∧
      ({ Arr.reset with fmt := .int32 }.fmt ≠ matDesc.accFmt ∧ { Arr.reset with fmt := .int32 }.items = [] ∧ { Arr.reset with fmt := .int32 }.reload = 0) ∧
      Arr.reset.freeSet matDesc.shape matDesc.accFmt matDesc.accSet = some [0] ∧
      (((matOp.take (multiplying Arr.reset).unfenced 0).bind fun p => p.2.item 0 matDesc.shape [0] 0).isSome = true)) ∧
    ({ Arr.reset with reload := 16, items := [item0 0 4] }.items.head? = some (item0 0 4) ∧
      (((multiplying { Arr.reset with reload := 16, items := [item0 0 4] }).ctx 0).fl 0).isSome = true) ∧
    ({ Arr.reset with items := [item0 0 4] }.current = some (item0 0 4) ∧ (item0 0 4).atStageEnd = false ∧
      (mapped (multiplying { Arr.reset with items := [item0 0 4] })).working 0 = true ∧
      (mapped (multiplying { Arr.reset with items := [item0 0 4] })).cycleFail (item0 0 4) = none ∧
      ((mapped (multiplying { Arr.reset with items := [item0 0 4] })).issueCycle 0 (item0 0 4)).isSome = true ∧
      (multiplying { Arr.reset with items := [item0 0 4] }).working 0 = true ∧
      ((multiplying { Arr.reset with items := [item0 0 4] }).cycleFail (item0 0 4)).isSome = true) := by decide +kernel

/-- A drained tile of zeros of one row, with what faulty hardware added. -/
def drain0 (errs : List (Nat × Nat × W64)) : Drain :=
  { item := { item0 4 4 with rows := 1 }, fmt := .fp32, vals := [(0, [])], chks := [], errs := ⟨errs, 0⟩, rungs := [], held := [], closed := false }
/-- Slot 0 has used its second stage, and the latches hold what is given. -/
def closing (l : Tbl (Nat × Tbl W64)) : State :=
  multiplying { Arr.reset with items := [item0 4096 8192], slots := [(0, { Slot.zero with used := true })], latch := l }

theorem test_ArrayClosesAndDrains_hypotheses :
    ([item0 4096 8192].find? (fun i => i.atStageEnd && decide (i.kPos < i.kHi)) = some (item0 4096 8192) ∧
      (closing []).matOf (item0 4096 8192) = some (matOp, matDesc) ∧ (closing []).working 0 = true ∧
      ((closing []).closeAll matOp matDesc (item0 4096 8192) ((closing []).squad 0).arr).latched (item0 4096 8192) = false ∧
      ((closing [(0, 0, [])]).closeAll matOp matDesc (item0 4096 8192) ((closing [(0, 0, [])]).squad 0).arr).latched (item0 4096 8192) = true) ∧
    tfind [(0, ((1 : Nat), ([] : Tbl W64)))] 0 = some (1, []) ∧
    ((combineRungs .fp32 0 [⟨0, 0, 0, []⟩, ⟨1, 0, 0, []⟩, ⟨0, 0, 1, []⟩]).isSome = true ∧ Arr.reset.drain = none ∧
      ({ drain0 [] with rungs := [⟨0, 0, 0, []⟩, ⟨0, 0, 1, []⟩] }.combine 0).isSome = true) ∧
    ((multiplying { Arr.reset with items := [item0 4 4] }).matOf (item0 4 4) = some (matOp, matDesc) ∧
      ((multiplying { Arr.reset with items := [item0 4 4] }).squad 0).portReady 3 = true) ∧
    ([item0 4 4].find? (fun i => decide (i.kHi ≤ i.kPos)) = some (item0 4 4) ∧ Arr.reset.reload = 0) := by decide +kernel

/-- The product's result goes to a reduction, through the send ring, and every pseudo-channel of channel 0 is held. -/
def ringDesc : Descriptor := { matDesc with destTag := some 5 }
def ringing : State :=
  let c := { ctxOn with flight := [{ matFlight with desc := ringDesc }], mats := [matOp], slicePlan := some ⟨[], 0, va + 65536, 0, 4096⟩ }
  ch0 (mapped (sq0 { live with ctx0 := c } Squad.reset)) { Chan.reset with held := List.range 512 }

theorem test_TileCheckCommitsOrReplays_hypotheses :
    ((multiplying { Arr.reset with drain := some (drain0 []) }).squad 0).arr.drain = some (drain0 []) ∧ (drain0 []).rungs = [] ∧
    (multiplying Arr.reset).matOf (drain0 []).item = some (matOp, matDesc) ∧ ((multiplying Arr.reset).ctx 0).ringFull matDesc = false ∧
    (multiplying Arr.reset).working 0 = true ∧ ((mapped (multiplying Arr.reset)).ringRegulate matOp matDesc (drain0 [])).isSome = true ∧
    ringing.tileFault matOp ringDesc (drain0 []) = none ∧ (ringing.ringRegulate matOp ringDesc (drain0 [])).isNone = true ∧
    ({ drain0 [] with vals := applyErrs [] [(0, [])] }).verdict matDesc.accFmt matDesc.shape = ([], []) ∧
    (({ drain0 [] with vals := applyErrs [(0, 0, 0x3F800000)] [(0, [])] }).verdict matDesc.accFmt matDesc.shape).1 ≠ [] ∧ matOp.ladder = [] ∧
    (mapped (multiplying Arr.reset)).tileFault matOp matDesc (drain0 []) = none ∧ ((multiplying Arr.reset).tileFault matOp matDesc (drain0 [])).isSome = true ∧
    matOp.commits 0 (drain0 []) true = true ∧ matOp.commits 0 (drain0 []) false = false ∧
    { matOp with ladder := [⟨0, 1, 2, (drain0 []).fold, [], [], true⟩] }.commits 0 (drain0 []) false = true := by decide +kernel

/-! ### Blocks -/

def vecFlight : Flight :=
  { fl { d0 with cls := .vector, op := .vec .add, t := [some ⟨1, false, .read⟩, some ⟨2, false, .read⟩, some ⟨3, false, .write⟩, none] } .issued with
    recs := [(1, ten va [4] [1] .fp32), (2, ten (va + 4096) [4] [1] .fp32), (3, ten (va + 8192) [4] [1] .fp32)], items := 1 }
def rowFlight (backing : Option Nat) : Flight :=
  { fl { d0 with cls := .row, op := .row .softmax false 0, t := [some ⟨1, false, .read⟩, none, some ⟨3, false, .write⟩, none] } .issued with
    recs := [(1, { ten va [4, 1] [1, 4] .fp32 with statsBacking := backing }), (3, ten (va + 8192) [4, 1] [1, 4] .fp32)], items := 1 }
def updShard : Shard := ⟨[⟨1, 2, none, none, 3, 0, 4, 5, 6⟩], 0, false⟩
def updFlight (o : Op) (copy : Bool) : Flight :=
  { fl { d0 with cls := .update, op := o } .issued with
    recs := [(1, ten va [4] [1] .fp32), (2, ten (va + 4096) [4] [1] .fp32), (3, ten (va + 8192) [4] [1] .fp32)], items := 1, copyMode := copy }
/-- These flights of a context with a shard and an update program, under its page tables or without them. -/
def blocks (m : Bool) (f : Flight) (u : Option UpdRun) : State :=
  let s := sq0 { live with ctx0 := { ctxOn with flight := [f], shard := some updShard, updProgs := [(0, ⟨[.abs .wOut .w], [], 0, 0, [false, false, false]⟩)] } }
    { Squad.reset with upe := u }
  if m then mapped s else s
/-- The state's next block of an engine class is block 0 of this flight. -/
def atBlock (s : State) (k : Cls) (f : Flight) : Bool := decide (s.blockOf 0 k = some (0, f, 0))

theorem test_BlocksCommitWholeOrFault_hypotheses :
    (((blocks true vecFlight none).squad 0).fenced = false ∧ atBlock (blocks true vecFlight none) .vector vecFlight = true ∧
      vecFlight.blockTensor = some (ten (va + 8192) [4] [1] .fp32) ∧ vecFlight.desc.mbox = none ∧
      (blocks true vecFlight none).blockFail 0 vecFlight (blockIdx (ten (va + 8192) [4] [1] .fp32) 0) = none ∧
      ((blocks false vecFlight none).blockFail 0 vecFlight (blockIdx (ten (va + 8192) [4] [1] .fp32) 0)).isSome = true) ∧
    (atBlock (blocks true (rowFlight none) none) .row (rowFlight none) = true ∧ ((rowFlight none).operand 0).isSome = true ∧ ((rowFlight none).operand 2).isSome = true ∧
      (blocks true (rowFlight none) none).blockFail 0 (rowFlight none) (blockIdx (ten (va + 8192) [4, 1] [1, 4] .fp32) 0) = none ∧
      (blockTails (ten (va + 8192) [4, 1] [1, 4] .fp32) 0).all (fun tail => ((blocks true (rowFlight none) none).statFail 0 0 false
        (statVa (ten va [4, 1] [1, 4] .fp32) tail)).isNone) = true ∧
      ((blocks false (rowFlight none) none).blockFail 0 (rowFlight none) (blockIdx (ten (va + 8192) [4, 1] [1, 4] .fp32) 0)).isSome = true ∧
      ((blockTails (ten (va + 8192) [4, 1] [1, 4] .fp32) 0).findSome? fun tail => (blocks true (rowFlight (some 0)) none).statFail 0 0 false
        (statVa { ten va [4, 1] [1, 4] .fp32 with statsBacking := some 0 } tail)).isSome = true) := by decide +kernel

/-- The fetch unit of squad 0 is to read four bytes of local memory into buffer 0. -/
def fetching : State := sq0 (mapped run0) { Squad.reset with fifo := [(0, [{ rec0 with addr := BitVec.ofNat 64 va, len := 4, pool := some (0, 0) }])] }
/-- Every pseudo-channel of channel 0 that the bytes may lie in is held. -/
def retraining : State := ch0 fetching { Chan.reset with held := List.range 512 }

theorem test_BlocksCommitUpdatesAndFetches_hypotheses :
    (atBlock (blocks true (updFlight (.norm 0 1) false) none) .update (updFlight (.norm 0 1) false) = true ∧
      blockAt (((blocks true (updFlight (.norm 0 1) false) none).ctx 0).blockSizes (updFlight (.norm 0 1) false)) 0 0 = some (0, 0) ∧
      updShard.entries[0]? = some ⟨1, 2, none, none, 3, 0, 4, 5, 6⟩ ∧
      (blocks true (updFlight (.norm 0 1) false) none).updFail 0 (updFlight (.norm 0 1) false) ⟨1, 2, none, none, 3, 0, 4, 5, 6⟩ false 0 4 = none ∧
      ((blocks false (updFlight (.norm 0 1) false) none).updFail 0 (updFlight (.norm 0 1) false) ⟨1, 2, none, none, 3, 0, 4, 5, 6⟩ false 0 4).isSome = true) ∧
    (atBlock (blocks true (updFlight (.apply 0 0) false) (some ⟨0, 0, 0, 0, 0, 0, [], List.replicate 4 Lane.keep, 0⟩)) .update (updFlight (.apply 0 0) false) = true ∧
      (blocks true (updFlight (.apply 0 0) false) none).updFail 0 (updFlight (.apply 0 0) false) ⟨1, 2, none, none, 3, 0, 4, 5, 6⟩ true 0 4 = none ∧
      (tfind ((blocks true (updFlight (.apply 0 0) false) none).ctx 0).updProgs 0).isSome = true) ∧
    (atBlock (blocks true (updFlight (.apply 0 0) true) none) .update (updFlight (.apply 0 0) true) = true ∧
      (blocks true (updFlight (.apply 0 0) true) none).updFail 0 (updFlight (.apply 0 0) true) ⟨1, 2, none, none, 3, 0, 4, 5, 6⟩ true 0 4 = none) ∧
    (tget [] (fetching.squad 0).fifo 0 = [{ rec0 with addr := BitVec.ofNat 64 va, len := 4, pool := some (0, 0) }] ∧ fetching.working 0 = true ∧
      (fetching.squad 0).portReady 0 = true ∧ fetching.byMesh 0 { rec0 with addr := BitVec.ofNat 64 va, len := 4, pool := some (0, 0) } = false ∧
      (List.range 4).all (fun i => (fetching.access 0 (va + i) false none).isRight) = true ∧
      fetching.poisonHit (fetching.places 0 none (va + ·) 4) = false ∧
      (fetching.regulate 0 (fetching.fetchBursts { rec0 with addr := BitVec.ofNat 64 va, len := 4, pool := some (0, 0) })).isSome = true ∧
      (retraining.regulate 0 (retraining.fetchBursts { rec0 with addr := BitVec.ofNat 64 va, len := 4, pool := some (0, 0) })).isNone = true ∧
      (run0.fetchFail { rec0 with addr := BitVec.ofNat 64 va, len := 4, pool := some (0, 0) }).isSome = true) := by decide +kernel

/-! ### Pre-emption and loads -/

def nbtDesc (t : W64) : Descriptor := { d0 with nbt := t }
/-- The urgent context's queue 0 holds one descriptor, and System Time is st. -/
def urgentWaits (d : Descriptor) (st : W64) : State :=
  { run0 with clk := { Clock.reset with known := true, st := st }, ctx1 := { ctxOn with queues := [(0, { Queue.reset with log2 := 4, tail := 1, ring := [(0, d)] })] } }

/-- A pre-emption is requested, and the spill range is mapped; the urgent context has no share of the stores. -/
def spilling : State := share0 (mapped { run0 with ctx1 := { ctxOn with request := true } })

/-- A transfer of a descriptor of context 0. -/
def moving : Xfer :=
  { ctx := 0, seq := some 0, mode := .linear, addFmt := .fp32, srcHost := false, dstHost := true, src := 0, dst := 0, srcShape := ⟨64, 1, 1, 0, 0⟩,
    dstShape := ⟨64, 1, 1, 0, 0⟩, tbl := 0, tblW64 := false, count := 0, elem := 0, limit := 0, done := 0, eoff := 0, ordered := 0, tag := 0, statusAddr := 0 }
/-- The routine context waits for an engine to stop; a walker, a DMA channel and a reduction of it are at work. -/
def stopping (e : Engine) : State :=
  let c := { ctxOn with stopping := [e], tags := [⟨9, 5, 0, true, false⟩], flight := [fl d0 .issued], walkLib := ⟨[(54, [.done])], [], []⟩ }
  ch0 (sq0 { live with ctx0 := c } { Squad.reset with walkers := [(0, wk [.done])] }) { Chan.reset with dma := [(0, { Dma.reset with state := 1, xfer := some moving })] }
/-- The fill is under way, from a spill copy that no page table maps. -/
def fillingBad : State := { run0 with ctx0 := { ctxOn with filling := true, spilled := true } }

theorem test_PreemptionStopsSpillsAndFills_hypotheses :
    (.array 0 ∉ run0.ctx0.stopping ∧
      nextIs (exec (.engineRestartPoint 0 (.fetch 0)) (stopping (.fetch 0))) (fun t => (tget Walker.reset (t.squad 0).walkers 0).state == .running &&
        (tget Walker.reset (t.squad 0).walkers 0).ctx == 0 && t.ctx0.stopping == []) = true ∧
      ((stopping (.dma 0 0)).dma 0 0).state = 1 ∧ ((stopping (.dma 0 0)).dma 0 0).xfer = some moving ∧ moving.ctx = 0 ∧ moving.seq.isSome = true ∧
      ((stopping (.collective 9)).ctx 0).tags.find? (fun x => x.tag == 9) = some ⟨9, 5, 0, true, false⟩ ∧
      ((updating (.abs .wOut .g)).squad 0).upe.any (fun u => u.ctx == 0 && u.ctx != 1) = true) ∧
    ((urgentWaits (nbtDesc 20000) 0).ctx1.headDesc 0 = some (nbtDesc 20000) ∧ (urgentWaits (nbtDesc 20000) 0).nbtLead = 20 ∧
      (urgentWaits (nbtDesc 20000) 20000).ctx1.headDesc 0 = some (nbtDesc 20000) ∧ (nbtDesc 20000).nbt ≠ 0) ∧
    (spilling.ctx1.request = true ∧ spilling.ctx0.stopping = [] ∧ spilling.copyPages = [] ∧
      spilling.ctx0.started = true ∧ spilling.ctx0.spilled = false ∧ State.spilling spilling = true ∧ run0.spilling = false ∧ spilling.host.noneActive = false ∧ (spilling.eachSquad Squad.keepArr).copyFault true = none ∧
      ((run0.eachSquad Squad.keepArr).copyFault true).isSome = true ∧ fillingBad.ctx0.spilled = true) ∧
    (fillingBad.copyFault false).isSome = true ∧ ((0, 0) ∈ fillingBad.spillPages ∧ fillingBad.fillBad 0 0 = true) ∧
    (run1.ctx1.running = true ∧ run0.ctx1.running = false ∧ { run0.ctx0 with stopping := [.array 0] }.stopping ≠ []) ∧
    ({ run1.ctx1 with yielding := true, flight := [fl d0 .admitted, fl d0 .ready] }.flight.all fun f => f.phase == Phase.admitted || f.phase == Phase.ready) = true ∧
    ({ run0.ctx0 with filling := true }.filling = true ∧ { run0.ctx0 with filling := true }.spilled = false ∧ (share0 fillingBad).copyPages = []) := by
  decide +kernel

def fn0 : FnRecord := ⟨⟨0, 0, [], (0, 0), (0, 0)⟩, ⟨0, 0, [], (0, 0), (0, 0)⟩⟩
/-- The context's one flight applies a table, or an update program. -/
def user (o : Op) : Ctx := { ctxOn with flight := [fl { d0 with op := o } .admitted] }

theorem test_LoadsWaitForTheirUsers_hypotheses :
    (7 / 8 = 0 ∧ 8 / 8 = 1) ∧ (ctxOn.libWait = [] ∧ ctxOn.fnWait = [] ∧ ctxOn.busyDescs.any (usesFn 7) = false ∧ (user (.vec (.table 7))).busyDescs.any (usesFn 7) = true) ∧
    (ctxOn.updWait = [] ∧ ctxOn.busyDescs.any (usesProg 3) = false ∧ (user (.apply 3 0)).busyDescs.any (usesProg 3) = true) ∧
    live.ctx0.started = false ∧ run0.ctx0.started = true := by decide +kernel

/-! ### Queues, the dispatcher and the contexts -/

/-- A queue of 16 places, head 0, with this tail. -/
def ring (tail : Nat) (wrap : Bool) (l : List Descriptor) : Queue :=
  { Queue.reset with log2 := 4, tail := tail, tailWrap := wrap, ring := (List.range l.length).zip l }
/-- Context 0 runs with queue 0. -/
def withRing (q : Queue) (l : List Flight) : State := { live with ctx0 := { ctxOn with queues := [(0, q)], flight := l } }

theorem test_DoorbellsFillTheRing_hypotheses :
    (live.host.noneActive = false ∧ ctxOn.lost = false ∧ { ctxOn with lost := true }.lost = true ∧ (ring 1 false [d0]).tail = 1 ∧
      (ring 1 false [d0]).refuses 1 false = false) ∧
    ((ring 1 false [d0]).refuses 15 false = false ∧ (ring 1 false [d0]).refuses 0 true = false ∧ (ring 1 false [d0]).refuses 1 true = true ∧
      (ring 1 false [d0]).refuses 16 false = true ∧ (ring 1 false [d0]).refuses 0 false = true ∧ Queue.reset.refuses 0 false = true) ∧
    (((urgentWaits d0 0).modCtx 1 fun c => c.modQueue 0 fun y => y.accept 2 false [d0]).setRg (pgHOST + 0x200 + 64) 2).headMayRun 0 = true ∧
    (((urgentWaits (nbtDesc 20001) 0).modCtx 1 fun c => c.modQueue 0 fun y => y.accept 2 false [d0]).setRg (pgHOST + 0x200 + 64) 2).headMayRun 0 = false ∧
    ([d0][0]? = some d0 ∧ 0 < ((ring 0 false []).accept 1 false [d0]).count - (ring 0 false []).count) := by decide +kernel

/-- A vector addition without tensors: its first check fails. -/
def badDesc : Descriptor := { d0 with cls := .vector, op := .vec .add, t := [some ⟨1, false, .read⟩, some ⟨2, false, .read⟩, some ⟨3, false, .write⟩, none] }
/-- A context with n scoreboard entries taken and the tensors of the vector addition. -/
def filled (n : Nat) (d : Descriptor) : State :=
  let g := { fl d0 .issued with queue := 1, fp := List.replicate n ⟨.virt, 0, 64, false, 0⟩ }
  let c := { ctxOn with
    queues := [(0, ring 1 false [d])], flight := [g],
    tensors := [(1, ten va [4] [1] .fp32), (2, ten (va + 4096) [4] [1] .fp32), (3, ten (va + 8192) [4] [1] .fp32)] }
  { live with ctx0 := c }

theorem test_AdmissionIsInOrder_hypotheses :
    ((withRing (ring 1 false [d0]) []).admitting 0 0 = true ∧ tfind (ring 1 false [d0]).ring (ring 1 false [d0]).head = some d0 ∧
      (withRing (ring 1 false [d0]) []).firstFail 0 0 d0 = none ∧ d0.hold = false ∧
      (withRing (ring 1 false [d0]) []).ctx0.sbUsed + ((withRing (ring 1 false [d0]) []).footprint 0 d0).length = 0) ∧
    ((filled 509 badDesc).admitting 0 0 = true ∧ (filled 509 badDesc).firstFail 0 0 badDesc = none ∧ (filled 509 badDesc).journalFree 0 = true ∧
      (filled 509 badDesc).ctx0.sbUsed + ((filled 509 badDesc).footprint 0 badDesc).length = 512 ∧
      (filled 510 badDesc).ctx0.sbUsed + ((filled 510 badDesc).footprint 0 badDesc).length = 513 ∧ (filled 510 badDesc).firstFail 0 0 badDesc = none) ∧
    ((withRing (ring 1 false [badDesc]) []).admitting 0 0 = true ∧ (withRing (ring 1 false [badDesc]) []).firstFail 0 0 badDesc = some 2) := by decide +kernel

/-- A flight whose waits are all done. -/
def waited (d : Descriptor) (p : Phase) : Flight := { fl d p with latched := [true, true, true, true] }
def shotDesc : Descriptor := { d0 with shot := 2, waits := [some (3, true), none, none, none] }
def countsDesc : Descriptor := { matDesc with counts := some 4, groups := 1 }
/-- A grouped product whose one count is the word that stands at its table. -/
def countsFlight : Flight := { waited countsDesc .admitted with recs := (4, ten (va + 12288) [1] [1] .uint32) :: matFlight.recs }
/-- The page tables of the flight's context, and a count of v at the table. -/
def counted (v : Nat) : State := (mapped (fly [countsFlight])).hbmWrite 0 (0x40000000 + 12288) (leBytes 4 v)

theorem test_HeadsBecomeReadyOrHalt_hypotheses :
    ((fly [waited d0 .admitted]).readyHead 0 0 = some (waited d0 .admitted) ∧ ctxOn.runs (waited d0 .admitted) = true ∧
      ctxOn.runs (waited { d0 with pred := some (3, true) } .admitted) = false ∧
      ((fly [waited { d0 with pred := some (3, true) } .admitted]).readyHead 0 0).isSome = true ∧
      ((fly [waited { matDesc with hold := true } .admitted]).readyHead 0 0).isSome = true) ∧
    (((counted 2).readyHead 0 0 = some countsFlight ∧ (counted 2).readCounts 0 countsFlight 4 = .inr [2] ∧ countsOk countsFlight [2] = true) ∧
      ((counted 3).readyHead 0 0 = some countsFlight ∧ (counted 3).readCounts 0 countsFlight 4 = .inr [3] ∧ countsOk countsFlight [3] = false) ∧
      ((fly [countsFlight]).readyHead 0 0 = some countsFlight ∧ ((fly [countsFlight]).readCounts 0 countsFlight 4).isLeft = true)) ∧
    (let f := { fl (nbtDesc 9) .admitted with nbtPassed := false }
     ({ fly [f] with clk := { Clock.reset with known := true, st := 9 } }.ctx0.headFlight 0 = some f ∧ (9 : W64).toNat ≤ (9 : W64).toNat ∧ (8 : W64).toNat < 9)) := by
  decide +kernel

/-- Two queues that each wait for a flag of the other. -/
def mutuals : Ctx :=
  { ctxOn with
    queues := [(0, ring 1 false [{ d0 with waits := [some (3, true), none, none, none] }]), (1, ring 1 false [{ d0 with waits := [some (4, true), none, none, none] }])],
    mutualCnt := 4096 }

theorem test_ShotClocksAndMutualWaits_hypotheses :
    ((fly [{ fl shotDesc .admitted with shotNs := 2000 }]).ctx0.headFlight 0 = some { fl shotDesc .admitted with shotNs := 2000 } ∧
      { fl shotDesc .admitted with shotNs := 2000 }.waitsDone = false ∧ shotDesc.shot * 1000 = 2000 ∧ (ctxOn.queue 0).halt = .none) ∧
    ((waited shotDesc .admitted).waitsDone = true ∧ d0.shot = 0 ∧ 1999 < shotDesc.shot * 1000) ∧
    (({ live with ctx0 := mutuals } : State).runningCtx = 0 ∧ mutuals.mutual_ = true ∧ mutuals.halted = false ∧ mutuals.suspended = false) := by decide +kernel

theorem test_IssueAndCompletion_hypotheses :
    ((fly [waited d0 .ready]).issuing 0 = true ∧ (fly [waited d0 .ready]).pickIssue 0 .nop = some (waited d0 .ready)) ∧
    ((blocks true (waited { d0 with cls := .update, op := .apply 0 0 } .ready) none).pickIssue 0 .update = some (waited { d0 with cls := .update, op := .apply 0 0 } .ready) ∧
      ctxOn.refusal = some 3 ∧ ({ ctxOn with spbSeen := true, spb := some ⟨1, 1, [], [], 0, false, [], 0⟩ } : Ctx).refusal = none) ∧
    (((fly [fl d0 .issued]).ctx0.fl 0 = some (fl d0 .issued) ∧ (fly [fl d0 .issued]).working 0 = true ∧ (fly [fl d0 .issued]).outputsDone 0 (fl d0 .issued) = true ∧
        (fly [fl d0 .issued]).ctx0.matOf 0 = none ∧ (fly [fl d0 .issued]).sendHeld 0 (fl d0 .issued) = false) ∧
      (({ live with ctx0 := { ctxOn with flight := [matFlight], mats := [{ matOp with committed := [0] }] } } : State).outputsDone 0 matFlight = true ∧
        ({ ctxOn with flight := [matFlight], mats := [{ matOp with committed := [0] }] } : Ctx).matOf 0 = some { matOp with committed := [0] }) ∧
      (multiplying Arr.reset).outputsDone 0 matFlight = false) ∧
    (d0.cls = .nop ∧ d0.phase ≠ 1 ∧ (fly [waited d0 .ready]).ctx0.fl 0 = some (waited d0 .ready) ∧ 239 < 240) ∧
    (State.reset.working 0 = false ∧ State.reset.issuing 0 = false) := by decide +kernel

def msg (i : Nat) : ShortMsg := { srcDev := 0, srcSquad := 0, ctx := 0, squad := 0, mbox := 0, seq := 0, index := i, count := 1, len := 4, tag := 0, data := [] }
/-- A flight whose transfer waits at this device. -/
def heldFlight : Flight := { fl d0 .issued with desc := { d0 with send := some ⟨0, 0, 0, 4⟩ }, sent := some (routeKey 0 0 0 0, 0) }
def holding : State := { live with ctx0 := { ctxOn with flight := [heldFlight], sends := [msg 0] } }

/-- A completed vector operation with a transfer to send: at once it is on its way. -/
def sendFlight : Flight := { vecFlight with itemsDone := 1, desc := { vecFlight.desc with send := some ⟨0, 5, 0, 16⟩ } }

theorem test_CompletionSends_hypotheses :
    (blocks true sendFlight none).outputsDone 0 sendFlight = true ∧ (blocks true sendFlight none).ctx0.matOf 0 = none ∧ sendFlight.sent = none ∧
    ((((blocks true sendFlight none).sendShort 0 sendFlight ⟨0, 5, 0, 16⟩).ctx 0).fl 0).any
      (fun g => ((blocks true sendFlight none).sendShort 0 sendFlight ⟨0, 5, 0, 16⟩).sendHeld 0 g) = true ∧
    (holding.sendHeld 0 heldFlight = true ∧ holding.working 0 = true ∧ holding.outputsDone 0 heldFlight = true ∧ holding.ctx0.fl 0 = some heldFlight ∧ heldFlight.sent ≠ none) := by
  decide +kernel

/-- A root whose tables map nothing. -/
def rootOnly : State := live.setRg64 (pgMMU + 0x100) (0x10000000 + 1)

theorem test_ContextsStartWhenReady_hypotheses :
    ((mapped live).ctx0.started = false ∧ (mapped live).dev.ready = true ∧ (mapped live).up = true ∧ (mapped live).root 0 % 2 = 1 ∧
      rootMalformed ((mapped live).root 0) = false ∧ (mapped live).badSpill = none ∧ live.ctx1.running = false) ∧
    (live.root 0 % 2 = 0 ∧ rootMalformed 0x10000003 = true) ∧
    ((({ mapped { live with ctx1 := ctxOn } with ctx1 := { ctxOn with running := true } } : State).ctx1.running = true) ∧
      (({ live with ctx1 := { Ctx.reset with queues := [(0, ring 1 false [d0])] } } : State).modCtx 1 Ctx.begin_).headMayRun 0 = true ∧
      (List.range 16).all (fun q => !(live.modCtx 1 Ctx.begin_).headMayRun q) = true ∧
      ({ live with ctx1 := { Ctx.reset with queues := [(0, ring 1 false [d0])] } } : State).headMayRun 0 = true ∧ live.ctx1.lost = false ∧ live.ctx1.request = false ∧
      run0.ctx0.started = true ∧ run0.ctx0.filling = false ∧ (rootOnly.badSpill).isSome = true ∧ rootOnly.root 0 % 2 = 1) := by decide +kernel

theorem test_ContextsResumeAbortAndReset_hypotheses :
    ({ ctxOn with suspended := true }.suspended = true ∧ { ctxOn with halted := true }.halted = true ∧ ctxOn.suspended = false ∧ ctxOn.halted = false) ∧
    (run0.ctx0.started = true ∧ run0.ctx0.lost = false) ∧ (State.reset.ctx0.started = false ∧ { ctxOn with lost := true }.lost = true) := by decide +kernel

/-- Context 0 with queue 0 halted for a reason. -/
def halted (h : Halt) (l : List Flight) : State := { live with ctx0 := { ctxOn with queues := [(0, { Queue.reset with halt := h })], flight := l } }

theorem test_HostMendsQueuesAndFlags_hypotheses :
    ([Halt.waitDeadline, .none, .refused, .rootDeadline, .memberDeadline, .sanity, .huddleDeadline, .collectiveDeadline].all fun h =>
        ((halted h []).ctx0.queue 0).halt == h && !(halted h []).ctx0.lost) = true ∧
    ((halted .waitDeadline [fl d0 .admitted]).ctx0.headFlight 0 = some (fl d0 .admitted) ∧ (halted .sanity []).ctx0.lateIn 0 = none ∧
      (halted .huddleDeadline [{ fl d0 .issued with expired := true }]).ctx0.lateIn 0 = some { fl d0 .issued with expired := true } ∧
      (halted .huddleDeadline [{ fl d0 .issued with expired := true }]).ctx0.haltedCommit 0 = false ∧
      { ctxOn with halted := true }.halted = true) ∧
    (State.reset.ctx0.quiet = true ∧ ctxOn.quiet = false ∧ ctxOn.flag 223 = false ∧ ({ ctxOn with flags := BitVec.allOnes 256 } : Ctx).flag 223 = true) ∧
    (0 < ((withRing (ring 1 false [d0]) []).ctx0.queue 0).count ∧ (ctxOn.queue 0).count = 0 ∧ ((withRing (ring 1 false [d0]) []).ctx0.queue 0).base ≠ 65536 % 2 ^ 48) := by
  decide +kernel

/-! ### Short pass and huddles -/

/-- Squad 0's mailbox holds n messages, and channel 0's overflow area holds others. -/
def boxes (n : Nat) (ov : List ShortMsg) : State := ch0 (sq0 run0 { Squad.reset with mbox := [(0, { Mbox.reset with parts := List.replicate n (msg 1) })] }) { Chan.reset with overflow := [(0, ov)] }

theorem test_ShortPassKeepsOrder_hypotheses :
    ((boxes 15 []).up = true ∧ ((boxes 15 []).squad 0).fenced = false ∧ (boxes 15 []).boxOpen (msg 0) = true) ∧
    ((boxes 16 []).boxOpen (msg 0) = false ∧ (boxes 16 []).spillRoom (msg 0) = true ∧ (boxes 0 [msg 7]).boxOpen (msg 0) = false) ∧
    ((boxes 0 [msg 7]).nextSpilled ((boxes 0 [msg 7]).overflow 0 0) = some (msg 7) ∧ (msg 7).squad / 16 = (msg 0).squad / 16) ∧
    ((boxes 0 [msg 7]).overflow 0 0).any (fun x => ShortMsg.sameRoute x (msg 0)) = true ∧
    [msg 0].find? (fun x => (boxes 15 []).boxOpen x || (boxes 15 []).spillRoom x) = some (msg 0) ∧ msg 0 ∉ run0.ctx0.sends ∧
    (boxes 15 []).hasShort (msg 0) = false ∧ (boxes 15 []).hasShort (msg 1) = true ∧ holding.ctx0.sends.any (fun x => ShortMsg.sameRoute x (msg 1)) = true ∧
    holding.hasShort (msg 1) = false := by
  decide +kernel

theorem test_ShortPassHolds_hypotheses :
    (boxes 16 (List.replicate 16384 (msg 7))).boxOpen (msg 0) = false ∧ (boxes 16 (List.replicate 16384 (msg 7))).spillRoom (msg 0) = false := by
  refine ⟨by decide +kernel, ?_⟩
  simp [-List.reduceReplicate, State.spillRoom, State.overflow, boxes, ch0, State.chan, tget, msg]

def hudDesc (sc : HudScope) : Descriptor := { d0 with cls := .huddle, op := .huddle sc 7 false, shot := 1 }
/-- A huddle that is 1 microsecond old. -/
def hudFlight (sc : HudScope) : Flight := { fl (hudDesc sc) .issued with shotNs := 1000 }
def collFlight : Flight := { fl { d0 with cls := .collective, op := .coll .lossVote 9, shot := 1 } .issued with shotNs := 1000 }

theorem test_HuddlesGather_hypotheses :
    ((fly [hudFlight .squad]).ctx0.hudFlight 7 = some (hudFlight .squad) ∧ hudScope (hudFlight .squad).desc = some .squad ∧
      (fly [hudFlight .squad]).walkersEnded 0 0 (hudFlight .squad) = true ∧ (fly [hudFlight .squad]).handlesBack 0 0 (hudFlight .squad) = true ∧
      (pooled (pool4 [] [strm 1 2 4 [3]]) (wk [])).handlesBack 0 0 { hudFlight .squad with seq := 1 } = false ∧
      (walking [.done]).walkersEnded 0 0 { hudFlight .squad with seq := 1 } = false ∧ (fly [hudFlight (.device [1])]).lateFlight 0 0 = some (hudFlight (.device [1]))) ∧
    (((ctxOn.hud 7 0).done = false) ∧ ({ ctxOn with huddles := [⟨7, 0, [], true⟩] }.hud 7 0).done = true) ∧
    ((fly [hudFlight .squad]).lateFlight 0 0 = some (hudFlight .squad) ∧ (fly [hudFlight .slice]).lateFlight 0 0 = some (hudFlight .slice) ∧
      (fly [collFlight]).lateFlight 0 0 = some collFlight ∧ hudScope collFlight.desc = none ∧ Descriptor.coll collFlight.desc = some (.lossVote, 9)) := by decide +kernel

/-! ### Stacked memory -/

/-- Pseudo-channel 0 of channel 0, to which offset 0 of space 0 belongs, is lost, or burst 0 is poisoned. -/
def lost0 : State := { live with mram := { Mram.reset with lost := [0] } }
def poison0 : State := ch0 live { Chan.reset with poison := [(0, 0)] }
/-- Pseudo-channel 0 is held for retraining after k time-outs. -/
def held0 (k : Nat) : State := ch0 live { Chan.reset with held := [0], trainFails := [(0, k)] }
/-- Three bad symbols of no one memory line. -/
def three : List (Nat × Byte) := [(0, 1), (9, 2), (20, 7)]
/-- A second read of burst 1 is due. -/
def rereading : Chan := { Chan.reset with reread := [⟨.host, 0, 64, none⟩] }
/-- What the decoder makes of burst off of space 0 of this state with symbols in error. -/
def decodes (s : State) (off : Nat) (errs : List (Nat × Byte)) : Option (List Nat) :=
  match s.decoded 0 off errs with | .clean d => if d.length = 64 then some [] else none | .corrected l _ => some l | .bad => none
/-- No partition of channel 0 has a token, and none may borrow. -/
def tokenless : State := (ch0 live { Chan.reset with tokens := [(5, 0)] }).setRg (pgREGU 0 + 0x10C + 16 * 5) 1
/-- Routine context with a step plan that has no maintenance window: nothing may be scrubbed. -/
def noMaint : State := { run0 with clk := { Clock.reset with known := true, st := 9 }, ctx0 := { ctxOn with plan := some ⟨0, 0, 0, []⟩, stepStarts := [0] } }

theorem test_BurstReadsAndScrubs_hypotheses :
    (live.pcOf 0 0 = 0 ∧ live.pcServes 0 = true ∧ live.burstBad 0 0 = false ∧ live.markedLine 0 = none) ∧
    (decodes live 0 [] = some [] ∧ decodes live 0 [(3, 1)] = some [3] ∧ decodes live 0 [(3, 1), (4, 1)] = some [3, 4] ∧
      live.decoded 0 0 three = .bad ∧ Chan.reset.reread = [] ∧ Requester.host ≠ .scrub) ∧
    (poison0.pcServes 0 = true ∧ poison0.burstBad 0 0 = true ∧ (held0 0).pcServes 0 = false ∧ (held0 0).pcHeld 0 = true ∧ (held0 0).waitingAt 0 < 32 ∧
      (ch0 live { Chan.reset with held := [0], heldQ := List.replicate 32 (⟨.host, 0, 0, none⟩, []) }).waitingAt 0 = 32) ∧
    ((ch0 live rereading).chan 0).reread = [⟨.host, 0, 64, none⟩] ∧ ((live.regulate 5 [(0, 0)]).isSome = true ∧ (tokenless.regulate 5 [(0, 0)]).isNone = true) ∧
    (live.alive = true ∧ live.chanUp 0 = true ∧ live.maint = true ∧ noMaint.maint = false) ∧
    (live.scrubAt 0 0 = some (0, 0) ∧ live.scrubAt 0 4697620488 = none) := by decide +kernel

theorem test_BurstWritesStoreTheirBytes_hypotheses :
    (lost0.pcServes (lost0.pcOf 0 0) = true ∧ lost0.mram.lost.contains (lost0.pcOf 0 0) = true) ∧
    (live.pcServes (live.pcOf 0 64) = true ∧ live.mram.lost.contains (live.pcOf 0 64) = false ∧ (List.replicate 64 (1 : Byte)).length = 64) ∧
    (live.burstBad 0 127 = false ∧ 127 % 64 = 63 ∧ decodes live 127 [] = some [] ∧ decodes live 127 [(3, 1)] = some [3] ∧
      live.decoded 0 127 three = .bad ∧ poison0.burstBad 0 63 = true) ∧
    (12 ≤ 15 ∧ (otherCopy (64)).isSome = true ∧ (64) % 64 = 0 ∧ live.pcServes (live.pcOf 12 (64)) = true) := by decide +kernel

theorem test_RetrainingHoldsAndReleases_hypotheses :
    (live.alive = true ∧ live.chanUp 3 = true ∧ live.maintFor 4999 = true ∧ (live.chan 3).held = [] ∧ 3 * 512 + 511 ∉ live.mram.lost) ∧
    (0 ∈ ((held0 0).chan 0).held ∧ 0 / 64 = 63 / 64 ∧ 0 / 64 ≠ 64 / 64 ∧ 63 ∉ ((held0 0).chan 0).held) ∧
    (tget 0 ((held0 1).chan 0).trainFails 0 < 2 ∧ 2 ≤ tget 0 ((held0 2).chan 0).trainFails 0) := by decide +kernel

/-- Rates of the six partitions of channel 0: five of 51 and one of 1 make 256. -/
def rates : State := (List.range 6).foldl (fun (s : State) p => s.setRg (pgREGU 0 + 0x100 + 16 * p) (if p = 5 then 1 else 51)) live
/-- Partition 2 has the tokens of one burst. -/
def bucket : State := ch0 live { Chan.reset with tokens := (List.range 6).map fun p => (p, if p = 2 then 640 else 639) }

theorem test_RegulatorAndRefresh_hypotheses :
    (pickPart (fun p => bucket.reguF 0 p 2 % 4) (tget 5 (bucket.chan 0).lastServed)
      (([0, 2, 6].filter (· < 6)).filter fun p => decide (640 ≤ bucket.tokens 0 p)) = some 2) ∧
    (rates.alive = true ∧ rates.chanUp 0 = true ∧ rates.bit (pgREGU 0 + 0x2C) 0 = false ∧
      ((List.range 6).map fun p => if p = 5 then 1 % 512 else rates.reguF 0 p 0).sum = 256 ∧
      ((List.range 6).map fun p => if p = 5 then 2 % 512 else rates.reguF 0 p 0).sum = 257) ∧
    ((rates.setRg (pgREGU 0 + 0x2C) 1).chanUp 0 = true ∧ (rates.setRg (pgREGU 0 + 0x2C) 1).bit (pgREGU 0 + 0x2C) 0 = true ∧
      (rates.setRg (pgREGU 0 + 0x2C) 1).rg (pgREGU 0 + 0x100) ≠ 52 % 512) := by decide +kernel

theorem test_RebuildRemovesTheLost_hypotheses :
    (mapped live).mapsUser = true ∧ live.mapsUser = false ∧ live.dev.rebuildBusy = false ∧
      ({ live with dev := { live.dev with rebuildBusy := true } }).dev.rebuildBusy = true := by decide +kernel

/-! ### Translation and DMA -/

def dma00 : Requester := .dma 0 0
/-- Page tables of context 0, the leaf of virtual 4 GiB written as v. -/
def leafIs (v : Nat) : State := put8 (mapped live) 0 0x10001020 v

theorem test_TranslationWalksAndInvalidations_hypotheses :
    ((mapped live).alive = true ∧ (mapped live).chanUp (reqChan dma00) = true ∧ dma00 ≠ .host ∧ dma00 ≠ .scrub) ∧
    (match (mapped live).walk 0 0x100000000 with | .leaf sp _ lg r w p _ => leafFault none none true sp r w p == none && lg == 30 | .fault _ _ => false) = true ∧
    (match (leafIs (0x40000000 + 7)).walk 0 0x100000000 with | .leaf sp _ _ r w p _ => leafFault none none true sp r w p == some 3 | .fault _ _ => false) = true ∧
    (mapped live).walk 0 0x140000000 = .fault 1 1 ∧ live.walk 0 0 = .fault 1 0 ∧
    (live.ctx0.started = false ∧ run0.ctx0.started = true ∧ run0.root 0 ≠ (1 : W64).toNat) ∧
    (live.bit (pgMMU + 0x11C) 8 = false ∧ (live.setRg (pgMMU + 0x11C) 256).bit (pgMMU + 0x11C) 8 = true) := by decide +kernel

/-- Channel 0's DMA channel 0, host-owned, a linear transfer of n bytes; and the channel's own state. -/
def hostDma (n : Nat) (d : Dma) : State :=
  (ch0 live { Chan.reset with dma := [(0, d)] }).setRg (pgDMACH 0 0 + 8) 8 |>.setRg (pgDMACH 0 0 + 0x120) n
def anXfer : Xfer := (hostDma 64 Dma.reset).hostXfer 0 0 .linear

theorem test_DmaCommandsStartAndStop_hypotheses :
    (live.chanUp 0 = true ∧ live.hostOwned 0 0 = false) ∧
    ((hostDma 1 Dma.reset).chanUp 0 = true ∧ (hostDma 1 Dma.reset).hostOwned 0 0 = true ∧ ((hostDma 1 Dma.reset).dma 0 0).state = 0 ∧
      ((hostDma 1 Dma.reset).dma 0 0).disabled = false ∧ modeOf (bits ((hostDma 1 Dma.reset).rg (pgDMACH 0 0 + 8)) 10 8) = some .linear ∧
      ((hostDma 1 Dma.reset).hostXfer 0 0 .linear).bad = none ∧ ((hostDma 0 Dma.reset).hostXfer 0 0 .linear).bad = some (2, 5)) ∧
    (let s := hostDma 64 { Dma.reset with state := 1, xfer := some anXfer }
     s.hostOwned 0 0 = true ∧ (s.dma 0 0).state = 1 ∧ (s.dma 0 0).xfer = some anXfer) ∧
    (let s := hostDma 64 { Dma.reset with state := 2, restartable := true, xfer := some anXfer }
     s.hostOwned 0 0 = true ∧ (s.dma 0 0).state ≠ 1 ∧ (s.dma 0 0).restartable = true) := by decide +kernel

/-- A transfer of four bytes from the host into memory at virtual 0, or from memory to the host. -/
def toMem : Xfer := { anXfer with srcHost := true, srcShape := { anXfer.srcShape with n0 := 4 } }
def toHost (done : Nat) : Xfer := { anXfer with dstHost := true, srcShape := { anXfer.srcShape with n0 := 4 }, done := done }
/-- A gather of two elements of 4 bytes with its table at virtual 4 GiB, and a scatter. -/
def indexed (m : DmaMode) (lim : Nat) : Xfer := { anXfer with mode := m, count := 2, elem := 4, tbl := 0x100000000, src := 0x100001000, dst := 0x100002000, limit := lim }
def running (s : State) (x : Xfer) : State := ch0 s { Chan.reset with dma := [(0, { Dma.reset with state := 1, xfer := some x })] }
/-- The index table holds v first. -/
def idx (v : Nat) : State := (mapped live).hbmWrite 0 0x40000000 (leBytes 4 v)
def isHole (b : NextBurst) : Bool := match b with | .hole => true | _ => false
def isIndex_ (b : NextBurst) : Bool := match b with | .index => true | _ => false
def isFail (b : NextBurst) : Bool := match b with | .fail _ _ _ => true | _ => false
def isMove (b : NextBurst) (k : Nat) (l : List (Nat × Option Nat)) : Bool := match b with | .move k' l' => k' == k && l' == l | _ => false
/-- A flight whose transfer goes from the host into squad 3's store. -/
def storeDesc : Descriptor := { d0 with cls := .dma, op := .dma .linear anXfer.srcShape anXfer.dstShape 4, t := [none, some ⟨2, false, .write⟩, none, none] }
def storeFlight : Flight := { fl storeDesc .issued with recs := [(2, { ten 4096 [1] [1] .uint32 with home := .squad 3 })] }
def toStore : Xfer := { toMem with seq := some 0, dst := 4096 }

theorem test_DmaBurstsMoveTheirBytes_hypotheses :
    (((running live toMem).dma 0 0).xfer = some toMem ∧ (running live toMem).chanUp 0 = true ∧ (running live toMem).dmaRuns toMem = true ∧
      toMem.pos < toMem.total ∧ isMove ((running live toMem).nextBurst toMem) 0 [(4, some 0)] = true) ∧
    (isFail ((running live (indexed .gather 2)).nextBurst (indexed .gather 2)) = true ∧
      isIndex_ ((idx 2).nextBurst (indexed .gather 2)) = true ∧ isMove ((idx 1).nextBurst (indexed .gather 2)) 0 [(4, some 4), (4, some 0)] = true ∧
      isHole ((idx (2 ^ 32 - 1)).nextBurst (indexed .scatter 2)) = true ∧ (indexed .scatter 2).pos < (indexed .scatter 2).total ∧
      (running (idx 1) (indexed .gather 2)).dmaRuns (indexed .gather 2) = true) ∧
    ((toHost 3).dstHost = true ∧ (toHost 3).pos < (toHost 3).total ∧ (toHost 4).total ≤ (toHost 4).pos ∧ live.side (toHost 3) 1 = .host ∧ toMem.dstHost = false) ∧
    ((running (fly [storeFlight]) toStore).side toStore 1 = .store 3 ∧ (running (fly [storeFlight]) toStore).dmaRuns toStore = true ∧
      toStore.mode ≠ .scatterAdd ∧ isMove ((running (fly [storeFlight]) toStore).nextBurst toStore) 0 [(4, some 0)] = true ∧
      (running (fly [storeFlight]) toStore).partsRead toStore [(4, some 0)] [1, 2, 3, 4] = .inr [1, 2, 3, 4]) ∧
    ((toHost 3).mode ≠ .scatterAdd ∧ ({ toHost 1 with mode := .scatterAdd, elem := 4 } : Xfer).ordered ≠ ({ toHost 1 with mode := .scatterAdd, elem := 4 } : Xfer).pos) := by decide +kernel

/-! ### Faults, fences and Sideline -/

/-- Squad 0's array works on the product, whose third tensor is the only one it writes. -/
def arrayWorks : State := multiplying { Arr.reset with items := [item0 0 4] }
/-- Handle 9 is a tensor of a squad's store that nothing in flight writes. -/
def resident : State := arrayWorks.modCtx 0 fun c => { c with tensors := [(9, { ten 0 [4] [1] .fp32 with home := .squad 0 })] }
/-- Channel 0's manager missed its watchdog at local time 0, and local time is t. -/
def missed (t : Nat) : State := { ch0 live { Chan.reset with wdMiss := some 0 } with clk := { Clock.reset with ltb := t } }

theorem test_FaultsAndFencesStopEngines_hypotheses :
    ((arrayWorks.engineWork (.array 0)).map (·.1) = some 0 ∧ arrayWorks.recomputable 0 3 = true ∧
      (resident.engineWork (.array 0)).map (·.1) = some 0 ∧ resident.recomputable 0 9 = false) ∧
    (live.alive = true ∧ live.chanUp 0 = true ∧ State.reset.alive = false ∧ (live.chan 0).wdMiss = none ∧ (missed 0).alive = true ∧ (missed 0).chanUp 0 = true ∧
      ((missed 3600000000000).chan 0).wdMiss = some 0 ∧ 0 + 3600000000000 ≤ (missed 3600000000000).clk.ltb ∧ (missed 3599999999999).clk.ltb < 0 + 3600000000000) ∧
    (live.chanUp (63 / 16) = true ∧ (live.squad 63).fenced = false ∧ ((sq0 live { Squad.reset with fenced := true }).squad 0).fenced = true ∧
      (live.dma 0 0).state ≠ 1 ∧ live.chanUp (23 / 6) = true ∧ (2 ≤ 2 ∧ 5 < 6)) := by decide +kernel

theorem test_FencesAreClearedWhenNothingRuns_hypotheses :
    (live.alive = true ∧ live.noneStarted = true ∧ live.chanUp (63 / 16) = true ∧ live.chanUp (23 / 6) = true ∧ live.jtag.stack = none) ∧
    (({ live with jtag := { Jtag.reset with stack := some 8 } }).jtag.stack = some 8 ∧ 8 / 8 = 1) ∧
    (run0.alive = true ∧ run0.noneStarted = false ∧ run0.chanUp (63 / 16) = true) := by decide +kernel

theorem test_SidelineStopsBothContexts_hypotheses : live.up = true ∧ 1000 ≤ 1000 ∧ 999 < 1000 ∧ (0x51DF#16 : Half) ≠ 0x51DE#16 := by decide +kernel

/-- The first n pseudo-channels of channel 0 are lost, m more wait for retirement, and k were lost since the last rebuild. -/
def losses (n m k : Nat) : State :=
  ch0 { live with mram := { Mram.reset with lost := List.range n, retire := (List.range m).map (n + ·) } } { Chan.reset with lostSince := k }
def outOf0 (s : State) : Nat := ((s.mram.lost ++ s.mram.retire).dedup.filter fun k => k / 512 == 0).length

theorem test_ChannelsGoDownPastTheirLimits_hypotheses :
    (outOf0 (losses 16 17 0) = 33 ∧ 16 < ((losses 0 0 17).chan 0).lostSince) ∧ (outOf0 (losses 16 16 16) = 32 ∧ ((losses 16 16 16).chan 0).lostSince ≤ 16) ∧
    (0 * 512 + 32 ∉ (losses 16 16 16).mram.lost ∧ 0 * 512 + 32 ∉ (losses 16 16 16).mram.retire ∧ ((losses 16 16 16).chan 0).down = false) ∧
    ((losses 16 16 16).up = true ∧ (losses 16 16 16).chanUp 0 = true ∧ 64 * 7 ≤ 448 ∧ 448 < 64 * 7 + 64 ∧ 0 * 512 + 448 ∉ (losses 16 16 16).mram.lost) := by
  decide +kernel

/-! ### The on-chip network, collectives and multicast -/

/-- A short packet of this device. -/
def pkt (t : PktType) : Packet := { dst := 0, src := 0, slice := 1, ctx := 0, dstSquad := 9, len := 0, ptype := t, tag := 0, epoch := 0, off := 0, body := [] }
/-- A packet for squad 9 that came in at squad 2 and stands at a router of channel 0, of a class and with this route ahead. -/
def tr (at_ cls : Nat) (r : List Nat) : Transit :=
  { chan := 0, router := at_, cls := cls, set := 0, src := (0, 2), goal := ⟨0, 9, none⟩, lane := 0, route := r, pkt := pkt .short }
def waitsAt (x : Transit) : State := { live with net := { Net.reset with inq := [x] } }
def inTransit (x : Transit) : State := { live with net := { Net.reset with transit := [x] } }
/-- What enters at router a of channel 0 next, and what moves on from a to y. -/
def enters (s : State) (a : Nat) : Option Transit :=
  byClass (tget 0 s.net.rrCls (hopKey 0 a a)) (s.net.inq.filter fun y => y.chan == 0 && y.router == a && s.net.fits y a)
def movesOn (s : State) (a y : Nat) : Option Transit :=
  byClass (tget 0 s.net.rrCls (hopKey 0 a y)) (s.net.transit.filter fun z => z.chan == 0 && z.router == a && z.route.head? == some y && s.net.fits z y)

theorem test_PacketsMoveRowThenColumn_hypotheses :
    (live.net.holesOf 0 = [] ∧ live.alive = true ∧ live.chanUp 0 = true ∧ (live.chan 0).injectStop = false) ∧
    (enters (waitsAt (tr 2 0 [])) 2 = some (tr 2 0 []) ∧ (waitsAt (tr 2 0 [])).net.wayOf (tr 2 0 []) = some [1, 5, 9] ∧
      enters (waitsAt (tr 2 memCls [])) 2 = some (tr 2 memCls []) ∧ (waitsAt (tr 2 memCls [])).net.wayOf (tr 2 memCls []) = some [1, 5, 9]) ∧
    (movesOn (inTransit (tr 2 0 [1, 5, 9])) 2 1 = some (tr 2 0 [1, 5, 9]) ∧ movesOn (inTransit (tr 5 0 [9])) 5 9 = some (tr 5 0 [9]) ∧
      movesOn (inTransit (tr 5 memCls [9])) 5 9 = some (tr 5 memCls [9]) ∧ (0 : Nat) ≠ memCls) ∧
    byClass 0 [tr 2 2 [], tr 2 0 []] = some (tr 2 0 []) := by decide +kernel

/-- Channel 0's network with these holes. -/
def holed (l : List Nat) : State := { live with net := { Net.reset with holes := l } }

theorem test_NetworkFailuresAreContained_hypotheses :
    (live.alive = true ∧ live.chanUp 0 = true) ∧
    (5 / 16 = 0 ∧ 5 ∉ (holed [0]).net.holes ∧ ((holed [0]).net.holesOf 0).length < 2 ∧ ((holed [0]).net.holesOf 0).any (adjacent (5 % 16)) = false ∧
      ((holed [1]).net.holesOf 0).any (adjacent (5 % 16)) = true ∧ 2 ≤ ((holed [0, 15]).net.holesOf 0).length) ∧
    (((ch0 live { Chan.reset with injectStop := true }).chan 0).injectStop = true) ∧
    (0 * 16 + 15 ∉ live.net.edgeOut ∧ (0, 3) ∉ live.net.ringOut ∧ (live.net.ringOut.filter fun x => x.1 == 0) = [] ∧
      ([(0, 4)].filter fun x : Nat × Nat => x.1 == 0) ≠ [] ∧ (seamId 0 1, 3) ∉ live.net.seamOut) := by decide +kernel

/-- A packet on its way from channel 1 to channel 0 stands at the seam. -/
def atSeam : Transit := { tr (16 + seamRouter 1 0) 0 [] with chan := seamPeer 0 0 }

theorem test_SeamsCarryPackets_hypotheses :
    (live.chanUp (seamPeer 0 0) = true ∧ (live.chan 0).injectStop = false ∧ live.net.seamHead 0 0 0 = none ∧ (inTransit atSeam).net.seamHead 0 0 0 = some atSeam ∧
      (inTransit atSeam).chanUp (seamPeer 0 0) = true ∧ (live.net.seamHead 0 0 0).map (·.pkt) ≠ some atSeam.pkt) := by decide +kernel

theorem test_SeamLanesGoOut_hypotheses :
    Config.seamRetries ≤ tget 0 ({ live with net := { Net.reset with seamRetry := [(4 * seamId 0 0, Config.seamRetries)] } }).net.seamRetry (4 * seamId 0 0 + 0) := by
  simp [tget]

/-- A collective of four members in flight at the root, with its tag. -/
def collCtx (k : CollKind) (aborted : Bool) : Ctx :=
  { ctxOn with
    flight := [{ fl { d0 with cls := .collective, op := .coll k 9 } .issued with seq := 0 }],
    tags := [⟨9, 5, 0, true, aborted⟩],
    slicePlan := some ⟨[0, 1, 2, 3], 0, va, 1, 4096⟩ }
def gathering (k : CollKind) (aborted : Bool) (nd : List Node) : State := { live with ctx0 := collCtx k aborted, net := { Net.reset with nodes := nd } }
def hasTag (s : State) (a : Bool) (k : CollKind) : Bool := match s.ctx0.tagOf 9 with | some (g, _, k') => g.aborted == a && k' == k && g.epoch == 5 | none => false
/-- A node of level 1 with a child's packet waiting. -/
def nodeL : Node := { ctx := 0, tag := 9, node := 1, op := .bitOr, left := [(0, [1])], right := [], out := [] }
def nodeR : Node := { nodeL with left := [], right := [(0, [1])] }
/-- A multicast group of context 0 with one receiver, and what squad 3's fetch unit takes from it. -/
def taking : StreamRec := { rec0 with addr := BitVec.ofNat 64 va, len := 64, pool := some (0, 0) }
def grouped (r : McRecv) (c : Ctx) : State :=
  { mapped { live with ctx0 := c } with squads := [(3, { Squad.reset with fifo := [(0, [taking])] })], net := { Net.reset with groups := [(7, ⟨va, [r]⟩)] } }
/-- What a restart of tag 9 begins from. -/
def restarting (s : State) : State :=
  (s.modCtx 0 fun c => { c with tags := c.tags.map fun x => if x.tag = 9 then { x with aborted := false } else x }).emit (.restart 0 9 5)
def enterFails (k : CollKind) (ring : List RingTile) : Bool :=
  let s := restarting (gathering k true [])
  match s.ctx0.tagOf 9 with
  | some (_, f, k') => ((s.modCtx 0 fun c => { c with sendRing := ring }).enterFail 0 f k' 9).isSome
  | none => false

theorem test_CollectivesAndMulticast_hypotheses :
    (hasTag (gathering .lossVote true []) true .lossVote = true ∧ hasTag (gathering .lossVote false []) false .lossVote = true) ∧
    (1 ≤ topLevel ((collCtx .lossVote false).opIndex (collOwner .lossVote)) (collCtx .lossVote false).members ∧
      (collCtx .lossVote false).opIndex (collOwner .lossVote) + 2 ^ (1 - 1) < (collCtx .lossVote false).members) ∧
    (((gathering .lossVote false []).net.nodeAt 0 9 1 .bitOr).left.find? (fun e => e.1 == 0) = none ∧
      ((gathering .lossVote false []).net.nodeAt 0 9 1 .bitOr).right.find? (fun e => e.1 == 0) = none ∧
      ((gathering .lossVote false [nodeL]).net.nodeAt 0 9 1 .bitOr).left.find? (fun e => e.1 == 0) = some (0, [1]) ∧
      ((gathering .lossVote false [nodeR]).net.nodeAt 0 9 1 .bitOr).right.find? (fun e => e.1 == 0) = some (0, [1])) ∧
    ((Ctx.tagOf { collCtx .allGather false with tags := [⟨9, 5, 0, false, false⟩] } 9).map (fun x => (x.1, x.2.2)) = some (⟨9, 5, 0, false, false⟩, .allGather) ∧
      CollKind.lossVote ≠ .allGather ∧ 4 < 5 ∧
      ((collCtx .lossVote false).tags.find? (fun x => x.tag == 9)) = some ⟨9, 5, 0, true, false⟩ ∧ 5 < 6 ∧ 5 ≤ 5) ∧
    (hasTag (gathering .allGather true []) true .allGather = true ∧ (gathering .allGather true []).working 0 = true ∧
      hasTag (gathering (.shortReduce .addFp32 none 0) true []) true (.shortReduce .addFp32 none 0) = true ∧
      hasTag (gathering (.reduceScatter 0 false) true []) true (.reduceScatter 0 false) = true ∧
      enterFails .allGather [] = false ∧ enterFails (.shortReduce .addFp32 none 0) [] = false ∧ enterFails .lossVote [] = false ∧
      enterFails (.reduceScatter 0 false) [] = false ∧ enterFails (.reduceScatter 0 false) [⟨9, 0, 0, 64⟩] = true) := by decide +kernel

theorem test_Multicast_hypotheses :
    (let r : McRecv := ⟨3, va, false, []⟩
     (grouped r ctxOn).working (groupCtx 7) = true ∧ (grouped r ctxOn).group 7 = ⟨va, [r]⟩ ∧ [r.squad].Nodup ∧ (grouped r ctxOn).credit 7 r = 64 ∧
       (grouped r ctxOn).lag 7 r ≤ (grouped r ctxOn).lagLimit ∧ (grouped r ctxOn).vread (groupCtx 7) none va 64 = some (List.replicate 64 0) ∧
       ((grouped r ctxOn).regulate ((grouped r ctxOn).groupPart 7) ((grouped r ctxOn).sourceBursts 7 64)).isSome = true ∧
       ((grouped r ctxOn).squad 3).delivery = some taking ∧ 63 < taking.addr.toNat + taking.len.toNat - r.at_) ∧
    (let r : McRecv := ⟨3, va, true, List.replicate 64 0⟩
     (grouped r ctxOn).working (groupCtx 7) = true ∧ (grouped r ctxOn).group 7 = ⟨va, [r]⟩ ∧ r.detached = true ∧ r.spilled.length ≤ (grouped r ctxOn).credit 7 r) ∧
    live.working (groupCtx 7) = false := by decide +kernel

/-! ### Links -/

/-- Link 0 in service with class MATCHED. -/
def upLink : Link := { Link.reset with up := true, lanes := 8, cls := 2 }
/-- A flit of link 0 without its CRC, with it, and with another. -/
def bareFlit (k : FlitKind) (seq : Nat) (body : List Byte) : Flit :=
  { seq := seq, vc := 0, kind := k, ack := none, creditVc := 0, credits := 0, body := body, crc := 0 }
def flit (k : FlitKind) (seq : Nat) (body : List Byte) : Flit := { bareFlit k seq body with crc := crc32 (Flit.bytes (bareFlit k seq body)) }
def badFlit (k : FlitKind) (seq : Nat) (body : List Byte) : Flit := { bareFlit k seq body with crc := crc32 (Flit.bytes (bareFlit k seq body)) + 1 }
/-- The route to position 5 of the own pod leaves at port 0. -/
def routed (s : State) : State := { s with net := { Net.reset with podTable := [(5, BitVec.ofNat 64 (1 * 2 ^ 56 + 2 ^ 55 + 1))] } }

theorem test_LinksTrainAndIdentify_hypotheses :
    (live.alive = true ∧ live.chanUp (0 / 6) = true ∧ (live.link 0).fenced = false ∧ (live.link 0).training = false) ∧
    (((ln0 live { Link.reset with training := true }).link 0).training = true) ∧
    (((ln0 live upLink).link 0).inService = true ∧ ((ln0 live upLink).link 0).up = true ∧ ((ln0 live upLink).link 0).failed = false ∧
      ((ln0 live upLink).link 0).lockLoss = [] ∧ ((ln0 live upLink).setRg (pgLNK 0 + 0x120) (2 ^ 31)).planLoaded = true) ∧
    (((ln0 live { upLink with planValid := true, planPeer := 3, planPort := 1 }).classify 0 ⟨0, 3, 1, 0, 0, 8⟩).1 = 2) ∧
    (((ln0 live { upLink with cls := 7 }).link 0).inService = true ∧ ((ln0 live { upLink with cls := 7 }).link 0).cls = 7) := by decide +kernel

/-- A packet of one flit, and one of two. -/
def one : Packet := { pkt .short with len := 1 }
def two : Packet := { pkt .short with len := 2 }
def expects (l : Link) : Link := { l with rxSeq := 4095 }
def tx0 : TxFlit := { vc := 0, kind := .first, body := [], last := none }

theorem test_FlitsArriveInOrder_hypotheses :
    ((ln0 live (expects upLink)).alive = true ∧ (ln0 live (expects upLink)).chanUp (0 / 6) = true ∧ ((ln0 live (expects upLink)).link 0).inService = true ∧
      ((expects upLink).frame 0 0).2 = false ∧ ((expects upLink).frame 0 0).1.uncTimes.length ≤ 16 ∧ ((expects upLink).frame 0 16).2 = true ∧
      ((expects upLink).frame 0 16).1.uncTimes.length ≤ 16 ∧ 16 < (({ upLink with uncTimes := List.replicate 16 0 } : Link).frame 0 16).1.uncTimes.length) ∧
    ((flit .first 4095 (Packet.header one)).seq = (expects upLink).rxSeq ∧ (expects upLink).hasRx 0 = true ∧
      ((expects upLink).accept (flit .first 4095 (Packet.header one))).whole 0 = some one ∧ upLink.cls = 2 ∧
      ((expects upLink).accept (flit .first 4095 (Packet.header two))).whole 0 = none) ∧
    ((flit .first 4 (Packet.header one)).seq ≠ (expects upLink).rxSeq ∧
      ({ upLink with rxUsed := [(0, vcBuf 0)] } : Link).hasRx 0 = false) ∧
    ((live.link 0).inService = false ∧ ({ upLink with lastAck := some 4, idle := 64 } : Link).lastAck = some 4) ∧
    packetOf (Packet.header one) = some one := by decide +kernel

theorem test_FlitCrcs_hypotheses (k : FlitKind) (q : Nat) (b : List Byte) : Flit.crcOk (flit k q b) = true ∧ Flit.crcOk (badFlit k q b) = false := by
  constructor <;> simp [Flit.crcOk, flit, badFlit, Flit.bytes]

theorem test_PacketsAreForwarded_hypotheses :
    ({ live with net := { Net.reset with waiting := [(some 0, one)] } } : State).net.waiting = [(some 0, one)] ∧
    ((pkt .time).ptype = .time ∧ (pkt .pair).ptype = .pair ∧ (routed (ln0 live upLink)).portOnly (some 0) (pkt .time) = true ∧ live.portOnly none (pkt .time) = false ∧
      live.portOnly (some 0) (pkt .pair) = false) ∧
    ((pkt .short).ptype ≠ .time ∧ (pkt .short).ptype ≠ .pair ∧ live.unissued { pkt .short with src := 9 } = false ∧ (live.setRg (pgDEV + 0x114) 1).unissued (pkt .short) = false ∧ live.unissued (pkt .redData) = true) ∧
    ((live.setRg (pgDEV + 0x114) 1).routeTo (pkt .short) = .deliver ∧ (pkt .short).slice = (live.setRg (pgDEV + 0x114) 1).sliceTag ∧
      (live.setRg (pgDEV + 0x114) 1).sliceTag ≠ 0 ∧ (pkt .short).slice ≠ live.sliceTag ∧ live.routeTo { pkt .short with dst := 5 } = .drop 1 ∧
      (pkt .short).dstSquad < 64 ∧ 64 ≤ ({ pkt .short with dstSquad := 64 } : Packet).dstSquad) ∧
    ((routed (ln0 live upLink)).routeTo { pkt .short with dst := 5 } = .send 1 0 ∧ (routed (ln0 live upLink)).outPort (some 0) 1 0 = some 0 ∧
      (routed live).outPort (some 0) 1 0 = none) ∧ (live.hostUp = true ∧ 8191 < 8192 ∧ 63 < 64) := by decide +kernel

theorem test_SlotsServeVc0First_hypotheses :
    (({ upLink with txQ := [(0, [tx0])] } : Link).ready 0 = true ∧ upLink.vc0Last = false) ∧
    (({ upLink with txQ := [(0, [tx0]), (2, [tx0])], vc0Last := true } : Link).vc0Last = true ∧
      ({ upLink with txQ := [(0, [tx0]), (2, [tx0])], vc0Last := true } : Link).ready 2 = true) ∧
    ({ upLink with resend := [(5, tx0)] } : Link).resend = [(5, tx0)] := by decide +kernel

/-! ### Time -/

/-- A device whose System Time is known and equal to t, at local time l. -/
def timed (t : W64) (l : Nat) : State := { live with clk := { Clock.reset with known := true, st := t, ltb := l, trefLock := true } }
/-- TIME_CTRL's low bits. -/
def sourced (v : Nat) (s : State) : State := s.setRg (pgTIME + 8) v
def armed (b : Bool) : State := sourced 1 { live with clk := { Clock.reset with seedArmed := b, pinNext := some 7 } }

theorem test_WhistlesSetSystemTime_hypotheses :
    ((sourced 2 (timed 0x100000 0)).alive = true ∧ (sourced 2 (timed 0x100000 0)).clk.known = true ∧ (sourced 2 (timed 0x100000 0)).clk.st.toNat % 2 ^ 20 = 0 ∧
      (sourced 2 (timed 0x100000 0)).timeSource ≠ 0 ∧ (sourced 2 live).bit (pgTIME + 8) 2 = false ∧ (sourced 6 live).bit (pgTIME + 8) 2 = true) ∧
    ((sourced 0 (ln0 live upLink)).takesFrom 0 = true) ∧
    ((armed true).timeSource = 1 ∧ (armed true).clk.seedArmed = true ∧ (armed false).clk.seedArmed = false ∧ (armed false).clk.pinNext = some 7) ∧
    ((timed 1000 0).clk.stopped = false ∧ (1064 : Int) - (timed 1000 0).clk.st.toNat ≤ 64 ∧ 64 < (1065 : Int) - (timed 1000 0).clk.st.toNat ∧
      -(2 ^ 20) ≤ (0 : Int) - (timed 0x100000 0).clk.st.toNat ∧ (0 : Int) - (timed 0x100001 0).clk.st.toNat < -(2 ^ 20) ∧ live.clk.known = false) ∧
    ((sourced 2 (timed 0 0)).timeSource = 2 ∧ (sourced 2 live).clk.known = false ∧ (sourced 1 live).timeSource ≠ 2 ∧ (sourced 3 live).timeSource ≠ 2) := by
  decide +kernel

theorem test_TimeReferencesFailAndReturn_hypotheses :
    ((timed 0 4194304).alive = true ∧ (timed 0 4194304).clk.known = true ∧ (timed 0 4194304).timeSource ≠ 2 ∧ (timed 0 4194304).clk.holdover = false ∧
      (timed 0 4194304).clk.lastWhistle + 4 * 2 ^ 20 ≤ (timed 0 4194304).clk.ltb ∧ (timed 0 4194303).clk.ltb < (timed 0 4194303).clk.lastWhistle + 4 * 2 ^ 20) ∧
    ((timed 0 0).clk.trefLock = true ∧ live.alive = true ∧ live.clk.trefLock = false ∧ live.clk.baseLock = true) ∧
    ((timed (BitVec.allOnes 64) 0).clk.known = true ∧ (timed (BitVec.allOnes 64) 0).clk.st = BitVec.allOnes 64 ∧ (timed 0xFFFFFFFFFFFFFFFE 0).clk.st ≠ BitVec.allOnes 64) ∧
    (live.maint = true ∧ live.ledger.erasing = none) := by decide +kernel

/-! ### The commit -/

/-- A vote for step 4. -/
def vote (ready : Bool) : Vote := { step := 4, growth := 0, exp := 16, ready := ready, reason := 0, digest := 0, count := 1, round := 0 }
def commitDesc : Descriptor := { d0 with cls := .huddle, op := .huddle .slice 7 true, shot := 1 }
/-- The commit huddle is in flight since ns, with this commit state, at this rank. -/
def committing (m : Commit) (rank ns : Nat) : State :=
  { live with ctx0 := { ctxOn with flight := [{ fl commitDesc .issued with shotNs := ns }], commit := m, shard := some ⟨[], rank, false⟩ } }
def voted (b : Bool) : Commit := { Commit.reset with own := some (vote b) }
def dec4 (r : Nat) : Decision := { step := 4, reason := r, digest := 0, round := 0 }
/-- An update state that has decided step 4. -/
def decided (v : Nat) : State := { live with ctx0 := { ctxOn with upd := { Upd.reset with decision := 4, verdict := v } } }

theorem test_DecisionsCommitOnce_hypotheses :
    ((committing (voted true) 1 0).ctx0.votedReady (dec4 0).step = true ∧ (committing (voted true) 1 0).ctx0.commit.decided = false ∧
      (committing (voted true) 1 0).ctx0.commit.own = some (vote true)) ∧
    ((committing (voted false) 1 0).ctx0.votedReady (dec4 0).step = false ∧ { voted true with decided := true }.decided = true ∧ (dec4 8).reason ≠ 9 ∧ ctxOn.lost = false) ∧
    ({ voted true with decided := true }.own = some (vote true) ∧ (vote true).step.toNat < ({ vote true with step := 5 } : Vote).step.toNat) ∧
    ((decided 1).ctx0.upd.verdict = 1 ∧ (decided 1).ctx0.upd.decision = (dec4 0).step ∧ (decided 2).ctx0.upd.verdict ≠ 1 ∧ live.ctx0.upd.decision ≠ (dec4 0).step) ∧
    ((decided 1).ctx0.upd.decision = 4 ∧ (decided 1).ctx0.upd.verdict ≠ 0 ∧ live.ctx0.upd.decision ≠ 4 ∧ ({ voted true with queried := true } : Commit).queried = true) := by
  decide +kernel

/-- UPD's re-open bound. -/
def reopening (k : Nat) (s : State) : State := s.setRg (pgUPD + 0x204) k

theorem test_CommitClocksReopenQueryAndHalt_hypotheses :
    ((committing (voted true) 0 1000).ctx0.rank = 0 ∧ (committing (voted true) 0 1000).ctx0.commitExpired 1 = true ∧
      (committing (voted true) 0 999).ctx0.commitExpired 1 = false ∧ (committing (voted true) 0 1000).ctx0.commit.halted = false ∧
      (reopening 2 (committing { voted true with reopens := 2 } 0 1000)).reopenMax ≤ (committing { voted true with reopens := 2 } 0 1000).ctx0.commit.reopens ∧
      (committing { voted true with reopens := 1 } 0 1000).ctx0.commit.reopens < (reopening 2 (committing { voted true with reopens := 1 } 0 1000)).reopenMax) ∧
    (((reopening 2 (committing (voted true) 1 4000)).ctx0.commitFlight).isSome = true ∧
      (reopening 2 (committing (voted true) 1 4000)).ctx0.commitExpired ((reopening 2 (committing (voted true) 1 4000)).reopenMax + 2) = true ∧
      (committing (voted true) 1 4000).ctx0.commit.queried = false ∧ (committing (voted true) 1 4000).ctx0.rank ≠ 0 ∧ (vote true).ready = true ∧ (vote false).ready = false) ∧
    ((committing { voted true with queried := true } 1 1000).ctx0.commitFlight.isSome = true ∧
      (committing { voted true with queried := true } 1 1000).ctx0.commit.own = some (vote true) ∧
      (committing { voted true with queried := true } 1 1000).ctx0.commit.queried = true ∧
      (committing { voted true with queried := true } 1 1000).ctx0.commitExpired 1 = true) := by decide +kernel

/-- The routine context halted, its step undecided or not. -/
def unresolved (b : Bool) : State := { live with ctx0 := { ctxOn with halted := true, commit := voted true, upd := { Upd.reset with undecided := b, redigest := true } } }

theorem test_HostResolvesTheStep_hypotheses :
    ((unresolved true).resolveCtx = 0 ∧ (unresolved true).ctx0.resolvable = true ∧ (unresolved true).ctx0.upd.undecided = true ∧
      (unresolved true).ctx0.commit.own = some (vote true) ∧ (unresolved false).ctx0.resolvable = true ∧ (unresolved false).ctx0.upd.undecided = false) ∧
    (run0.ctx0.resolvable = false ∧ (unresolved true).ctx0.upd.redigest = true) ∧
    (live.ctx0.started = false ∧ (unresolved true).ctx0.halted = true ∧ ctxOn.quiet = false ∧ ctxOn.upd.step ≠ 9 ∧ ctxOn.upd.step = 0 ∧ live.ctx0.quiet = true) := by
  decide +kernel

/-! ### The ledger -/

def recOf (sev : Nat) : Rec :=
  { State.reset.stamp { code := 0xC000, sev := sev, fclass := 0, srcType := 0, srcInst := 0, payload := [] } false false with sev := sev }

theorem test_FatalRecordsKeepTheirRegion_hypotheses :
    ((recOf 3).sev = 3 ∧ (recOf 2).sev ≠ 3 ∧ tfind live.ledger.slots 8191 = none ∧ 8191 < 8192 ∧ 8192 ≤ 122879) ∧
    (live.dev.aux = true ∧ live.dev.railsUp = true ∧ live.host.noneActive = false ∧ live.dev.mode ≠ .dark ∧ live.ledger.erasing = none) := by decide +kernel

theorem test_FatalRegionFull_hypotheses : ∀ k, k < 8192 → tfind ((List.range 8192).map fun i => (i, recOf 3)) k ≠ none := by
  intro k hk h
  rw [tfind, Option.map_eq_none_iff, List.find?_eq_none] at h
  exact h (k, recOf 3) (by simpa using hk) (by simp)

/-- The ledger busy or not, with the host record's first word and its CRC; class 48 is not held back. -/
def hosting (w crc : Nat) : State := ((live.setRg (pgLEDG + 0x160) w).setRg (pgLEDG + 0x188) crc).setRg (pgLEDG + 0x200 + 4 * 0x30) 0
/-- The ledger at local time t. -/
def ledgerAt (l : Ledger) (t : Nat) : State := { live with ledger := l, clk := { Clock.reset with ltb := t } }
def keyed : State := { live with mram := { Mram.reset with key := some (List.replicate 8 0) } }

theorem test_LedgerCommandsFollowTheirProcedure_hypotheses :
    (live.ledger.busy = false ∧ ({ Ledger.reset with busy := true } : Ledger).busy = true ∧
      hostBad (hosting 0xC000 0x61F2FF18).hmbBytes ((hosting 0xC000 0x61F2FF18).rg (pgLEDG + 0x188)) = false ∧
      (hosting 0xC000 0x61F2FF18).floodMode (leNat ((hosting 0xC000 0x61F2FF18).hmbBytes.take 2) / 1024) ≠ 2 ∧
      hostBad (hosting 0xC000 0x61F2FF19).hmbBytes ((hosting 0xC000 0x61F2FF19).rg (pgLEDG + 0x188)) = true) ∧
    (live.keyOpen = true ∧ keyed.keyOpen = false ∧ 6 ≠ 7 ∧ ((List.range 8).mapM fun k => tfind (tins 7 (1 : Word) []) k) = none ∧
      ((List.range 8).mapM fun k => tfind (tins 7 (1 : Word) ((List.range 7).map fun i => (i, (0 : Word)))) k) = some [0, 0, 0, 0, 0, 0, 0, 1]) ∧
    ((ledgerAt { Ledger.reset with rekeyOpen := some 0 } 10000000000).ledger.rekeyOpen = some 0 ∧ 0 + 10000000000 ≤ (ledgerAt Ledger.reset 10000000000).clk.ltb) ∧
    (live.ledger.erasing = none ∧ live.ledger.lockUntil = none ∧ (ledgerAt { Ledger.reset with lockUntil := some 9 } 9).ledger.lockUntil = some 9 ∧
      9 ≤ (ledgerAt { Ledger.reset with lockUntil := some 9 } 9).clk.ltb) ∧
    ((ledgerAt { Ledger.reset with chal := some ([], 0) } 10000000000).ledger.chal = some ([], 0) ∧
      (ledgerAt { Ledger.reset with chal := some ([], 0) } 10000000000).clk.ltb ≤ 0 + 10000000000 ∧ keyed.mram.key = some (List.replicate 8 0) ∧
      ({ Ledger.reset with latched := 1 } : Ledger).latched = 1 ∧ Ledger.reset.fatalFree ≠ 0 ∧ live.ledger.chal = none ∧
      ({ Ledger.reset with erasing := some 2 } : Ledger).erasing = some 2) := by decide +kernel

theorem test_ClearResponses_hypotheses (s : State) (key : List Word) : (∃ r, s.clrExpect key [] = r) ∧ ∃ r, s.clrExpect key [] ≠ r :=
  ⟨⟨_, rfl⟩, 0#8 :: s.clrExpect key [], fun h => by simpa using congrArg List.length h⟩

/-! ### Registers and host ports -/

theorem test_RegisterAccessesReachTheirPage_hypotheses :
    (aligned (pgTIME + 0x100) false = true ∧ live.portReaches false (pgTIME + 0x100) = true ∧
      ((0xFFFFFF : W64).toNat % 2 ^ 32) &&& (2 ^ 32 - 1 - placedBits (live.fields (pgTIME + 0x100))) = 0 ∧
      ((0x1000000 : W64).toNat % 2 ^ 32) &&& (2 ^ 32 - 1 - placedBits (live.fields (pgTIME + 0x100))) ≠ 0 ∧
      (live.writeWords (pgTIME + 0x110) (5 : W64).toNat true).isSome = true) ∧
    (aligned 2 false = false ∧ aligned 4 true = false ∧ live.portReaches true (pgTIME + 0x100) = false) ∧
    (pageChan 0 = some 0 ∧ (ch0 live { Chan.reset with down := true }).chanUp 0 = false ∧ pageKind 0 = .sq) ∧
    (live.hostUp = true ∧ live.pageOn pgTIME = true ∧ pageKind pgTIME ≠ .none) := by decide +kernel

/-- The aperture is to change, with requests open. -/
def ported (l : List Bar2Req) : State := { live with host := { HostPorts.reset with apPending := some 1, bar2Open := l, perstA := true } }
def aReq : Bar2Req := { port := false, space := 0, off := 0, len := 64, data := none }

theorem test_HostPortsTakeTurns_hypotheses :
    (live.hostUp = true ∧ (ported []).host.apPending = some 1 ∧ (ported []).host.bar2Open = [] ∧ (ported [aReq]).host.bar2Open ≠ []) ∧
    (live.alive = true ∧ live.host.noneActive = false ∧ live.spaceSize live.apSpace < live.apOff (live.spaceSize 0 - 63) + 64 ∧
      live.apOff (live.spaceSize 0 - 64) + 64 ≤ live.spaceSize live.apSpace ∧ live.bar2Waits aReq = false ∧
      (burstsOf (live.apOff 0) 64).any (fun o => live.burstBad live.apSpace o) = false ∧ State.reset.alive = false) ∧
    ((live.chan (portChan true)).down = false ∧ live.dev.aux = true ∧ live.dev.railsUp = true ∧ live.host.perstB = false ∧ true ≠ live.host.active ∧ false = live.host.active) := by decide +kernel

/-! ### Start-up, power and temperature -/

def img (f : Bool) : Image := { stepping := steppingB1, version := 1, security := 0, headerOk := true, fetched := f, bytes := [] }
/-- The rails are up and an image is being fetched. -/
def booting (b : Nat) : State := { State.reset with dev := { Dev.reset with step := 1, aux := true, railsUp := true }, host := { HostPorts.reset with boot := b } }

theorem test_StartUpAndPowerDown_hypotheses :
    (State.reset.alive = false ∧ State.reset.dev.step = 0 ∧ live.alive = true) ∧
    ((booting 3).host.noneActive = false ∧ (booting 3).dev.step = 1 ∧ (booting 3).host.boot = 3 ∧ (booting 0).host.boot = 0) ∧
    ((booting 1).host.boot = 1 ∧ (booting 1).alive = false ∧ (booting 1).jtag.stack = none ∧ (booting 1).imageCode (img false) = 5) ∧
    (3799 < 3800 ∧ 6400 < 6401 ∧ 10000 < 10001 ∧ 0 < (booting 1).dev.step) := by decide +kernel

/-- An image passes exactly where Gliari's opaque signature check says so. -/
theorem test_ImagePasses_hypotheses (h : Config.imageSigned [] = true) : (booting 1).imageCode (img true) = 1 := by
  simp [State.imageCode, img, h, booting, State.reset, Dev.reset]

/-- Rail 3 of channel 0 is over its limit. -/
def overRail : State := { live with pwr := { Power.reset with overRails := [(0, 3)], railVal := 8 } }

theorem test_LimitsFollowPowerAndHeat_hypotheses :
    (live.alive = true ∧ 3800 ≤ 3999 ∧ 3999 < 4000 ∧ 6000 < 6400 ∧ 6400 ≤ 6400) ∧ (live.capNow < live.capNow + 1 ∧ 0 + 150 < live.capNow) ∧
    ((0, 3) ∈ overRail.pwr.overRails ∧ (overRail.pwr.overRails.all fun r => r == (0, 3)) = true ∧ overRail.cclkTarget ≠ overRail.clk.cclk) ∧
    (([360] ++ [0] : List Nat).any (fun y => decide (360 ≤ y)) = true ∧ ([347] ++ [347] : List Nat).all (fun y => decide (y < 348)) = true ∧ live.up = true ∧
      [380].any (fun y => decide (380 ≤ y)) = true ∧ [420].any (fun y => decide (420 ≤ y)) = true) := by decide +kernel

/-! ### Watch Port, SMBus and JTAG -/

theorem test_WatchAndManagementPorts_hypotheses :
    live.dev.aux = true ∧ live.alive = true ∧ (7 < 8 ∧ 18 ≤ 18) ∧ (122879 < 122880 ∧ 122880 ≤ 122880) := by decide +kernel

theorem test_JtagInstructionsLoadTheirRegister_hypotheses :
    live.dev.aux = true ∧ (31 < 32 ∧ (booting 1).alive = false ∧ (booting 1).dev.aux = true ∧ ((ch0 live { Chan.reset with inReset := true }).chan (0 / 8)).inReset = true) ∧
    (32 ≤ 32 ∧ live.alive = true ∧ (live.chan (0 / 8)).inReset = false) := by decide +kernel

/-! ### Clauses of their own -/

/-- Channel 3 is in reset, and SIDELINE_N waits for it. -/
def inReset3 : State := { live with chans := [(3, { Chan.reset with inReset := true })], dev := { live.dev with sidelinePending := some 0xFF07 } }
/-- No partition of channel 0 has the tokens of a burst; all may borrow at reset, and none where every BORROW bit is set. -/
def poor : State := ch0 live { Chan.reset with tokens := (List.range 6).map fun p => (p, 639) }
def poorer : State := (List.range 6).foldl (fun (s : State) p => s.setRg (pgREGU 0 + 0x10C + 16 * p) 1) poor

theorem test_SingleClauses_hypotheses :
    ((sourced 0 (timed 0x100000 0)).alive = true ∧ (sourced 0 (timed 0x100000 0)).clk.known = true ∧ (sourced 0 (timed 0x100000 0)).timeSource = 0 ∧
      (sourced 0 (timed 0x100000 0)).clk.st.toNat % 2 ^ 20 = 0) ∧
    (({ upLink with planRole := 8, planPeer := 3 } : Link).pairs 3 = true ∧ live.ctx0.commit.decided = false ∧ (dec4 9).reason = 9) ∧
    (live.touch (pgTIME + 0x100) = live ∧ isLo (pgTIME + 0x100 - 4) = false) ∧
    (live.engineWork (.array 0) = none ∧ live.spilling = false ∧ arrayWorks.spilling = false ∧ resident.spilling = false ∧ (arrayWorks.engineWork (.array 0)).isSome = true) ∧
    (inReset3.up = true ∧ inReset3.resetting = true ∧ inReset3.dev.sidelinePending = some 0xFF07 ∧ live.resetting = false) ∧
    (([0, 2].all fun p => decide (poor.tokens 0 p < 640)) = true ∧
      (pickPart (fun p => poor.reguF 0 p 2 % 4) (tget 5 (poor.chan 0).lastServed) (([0, 2].filter (· < 6)).filter fun p => poor.reguF 0 p 3 % 2 == 0)).isSome = true ∧
      ([0, 2].all fun p => poorer.reguF 0 p 3 % 2 == 1) = true ∧ ([0, 2].all fun p => decide (poorer.tokens 0 p < 640)) = true) ∧
    (live.burstBad 12 64 = false ∧ (otherCopy 64).isSome = true ∧ live.pcServes (live.pcOf 12 64) = true ∧ live.pcOf 12 64 ∉ live.mram.lost) := by decide +kernel

/-! ## One step, with results from outside the model -/

/-- Check values of CRC-32 and of SHA-256 ("abc", FIPS 180-4). -/
theorem test_crc32_check_value : crc32 ([0x31, 0x32, 0x33, 0x34, 0x35, 0x36, 0x37, 0x38, 0x39] : List Byte) = 0xCBF43926 := by decide +kernel
theorem test_sha256_abc : leNat (sha256 [0x61, 0x62, 0x63]).reverse = 0xBA7816BF8F01CFEA414140DE5DAE2223B00361A396177A9CB410FF61F20015AD := by
  decide +kernel

/-- What the two updates of walker 0 leave of a scalar. -/
def scalarIs (i : Instr) (s : State) (p : Walker → Bool) : Bool := nextIs (exec i s) fun t => p (tget Walker.reset (t.squad 0).walkers 0)

/-- Differences wrap modulo 2^64 and the smaller is by its sign (R115). -/
theorem test_walk_sub_wraps : scalarIs (.walkSub 0 0) (walking [.sub (.g 6) (.g 0) (.g 1)]) (fun k => tget 0 k.g 6 == 0xFFFFFFFFFFFFFFFE#64 && k.pc == 1) = true := by decide +kernel
/-- The worked example of R118: level 0 latches 3; a MOVI of its count inside the loop leaves what remains; the next entry takes 5. -/
theorem test_loop_latches_three : scalarIs (.walkLoop 0 0) (loops 0 3 0) (fun k => tget 0 k.remain 0 == 3 && tget 0 k.index 0 == 0 && k.pc == 1) = true := by
  decide +kernel
theorem test_movi_leaves_remain : scalarIs (.walkMovi 0 0) (loops 1 3 3) (fun k => tget 0 k.remain 0 == 3 && tget 0 k.count 0 == 9) = true := by decide +kernel

/-- Update arithmetic is binary32, rounded to nearest even (R267). -/
theorem test_fp32_results :
    fAdd 0x3F800000 0x40000000 = 0x40400000 ∧ fMul 0x40400000 0x40000000 = 0x40C00000 ∧ fSqrt 0x40000000 = 0x3FB504F3 ∧ fSqrt 0x40800000 = 0x40000000 ∧
      fRsqrt 0x40800000 = 0x3F000000 ∧ fMul 0x7F800000 0x40000000 = 0x7F800000 ∧ fMul 0x7F7FFFFF 0x40000000 = 0x7F800000 ∧ fAdd 0x3F800000 0x33800000 = 0x3F800000 := by
  decide +kernel

/-- The most that FP8 E4M3 holds is 448, and 0x38 is 1 (03, the formats). -/
theorem test_e4m3_codes : (castElem .fp8e4m3 none false false (.fin false 448 0)).1 = 0x7E ∧ (decodeElem .fp8e4m3 0x38).dy.floor = 1 ∧ (decodeElem .fp8e4m3 0x7E).dy.floor = 448 := by
  decide +kernel

/-- The page example of 16: squad 1.6 with a spare row called for physical row 37. -/
def squad22 : State := { live with squads := [(22, { Squad.reset with arr := { Arr.reset with badRows := [37] } })], mram := { Mram.reset with field := [(22, ([37], []))] } }
def answers (a : Nat) (s : State) (v : W64) : Bool := nextIs (exec (.registerRead false a false) s) fun t => t.out.head? == some (.word v)
theorem test_arr_page_example : answers 0x00431000 squad22 0x02160001 = true ∧ answers 0x00431100 squad22 0x92800000 = true ∧ answers 0x00431108 squad22 0x92800000 = true := by decide +kernel

/-- A reserved field of TIME_CTRL1 is written as one: refused by name (R325). -/
theorem test_reserved_write_is_refused :
    (match exec (.registerWrite false (pgTIME + 0x100) false 0x1000000) live with | .refused .reservedFieldWritten => true | _ => false) = true := by decide +kernel

/-- 48 bits are translated; what is above faults NOT_MAPPED at level 0 (R166). -/
theorem test_high_address_is_not_mapped : (mapped live).walk 0 (2 ^ 48) = .fault 1 0 := by decide +kernel

/-- The step goes along the row, then along the column (R194). -/
theorem test_path_example : Net.reset.path 1 0 15 0 = some [1, 2, 3, 7, 11, 15] := by decide +kernel

/-- FP32 parts of K = 8,192 with P = 64: two parts of 4,096 (R45). -/
theorem test_parts_example : (partLen 8192 64, ceilDiv 8192 (partLen 8192 64)) = (4096, 2) := by decide +kernel

/-- At reset EXP is 16 and GROWTH 0 (R255), the device is Dark, and no context is started. -/
theorem test_reset_values : State.reset.ctx0.upd.exp = 16 ∧ State.reset.ctx0.upd.growth = 0 ∧ State.reset.dev.mode = .dark ∧ State.reset.ctx1.started = false := by
  decide +kernel

/-- The JTAG identity of stepping B1 leaves least significant bit first. -/
theorem test_idcode_bits : nextIs (exec .idcode live) (fun t => t.out.head? == some (.tdo (bitsOut 32 0x143204E5))) = true := by decide +kernel

/-- A burst written and read back through the memory controller; one symbol in error is corrected (R144). -/
theorem test_write_then_read :
    nextIs (exec (.memWrite .host 0 64 (List.replicate 64 0xA5) []) live) (fun s =>
      nextIs (exec (.memRead .host 0 64 [(5, 0xFF)]) s) fun t => t.out.head? == some (.bytes false (List.replicate 64 0xA5))) = true := by decide +kernel

end Sys2Proof.Tests
end

section
/-! PROOFS. The loops of a walk program (R118): what LOOP, ENDLOOP and a write to LOOP_COUNT make of a walker. -/

namespace Sys2Proof.Machine

/-! ## The matching ends of a loop -/

/-- The search forward stops at the first ENDLOOP of its level. -/
theorem loopEnd_of_first (l : Nat) {r : List WInstr} {i : Nat} (p : Nat) (hi : r[i]? = some (.endloop l))
    (hfirst : ∀ j < i, r[j]? ≠ some (.endloop l)) : loopEnd l r p = p + i := by
  induction r generalizing p i with
  | nil => simp at hi
  | cons x r ih =>
    cases i with
    | zero =>
      have hx : x = .endloop l := by simpa using hi
      rw [loopEnd, if_pos hx, Nat.add_zero]
    | succ i =>
      have hx : x ≠ .endloop l := by simpa using hfirst 0 i.succ_pos
      have htail : loopEnd l r (p + 1) = p + 1 + i :=
        ih (p + 1) (by simpa using hi) fun j hj => by simpa using hfirst (j + 1) (by omega)
      rw [loopEnd, if_neg hx, htail]
      omega

/-- The search backward stops at the last LOOP of its level before the position. -/
theorem loopStart_of_last {code : List WInstr} {l b n : Nat} (hbn : b < n) (hb : code[b]? = some (.loop l))
    (hlast : ∀ j, b < j → j < n → code[j]? ≠ some (.loop l)) : loopStart code l n = b := by
  induction n with
  | zero => omega
  | succ n ih =>
    rw [loopStart]
    obtain rfl | hlt : b = n ∨ b < n := by omega
    · rw [if_pos hb]
    · rw [if_neg (hlast n hlt n.lt_succ_self), ih hlt fun j hj hjn => hlast j hj (by omega)]

/-! ## A walker at its LOOP and at its ENDLOOP -/

namespace Walker
variable {k : Walker} {l : Nat}

theorem loopIn_of_count_ne_zero (h : tget 0 k.count l ≠ 0) :
    k.loopIn l = { k with remain := tset 0 k.remain l (tget 0 k.count l), index := tset 0 k.index l 0, pc := k.pc + 1 } :=
  if_neg h

theorem loopIn_of_count_eq_zero {e : Nat} (h : tget 0 k.count l = 0) (hpc : k.pc < e) (he : k.code[e]? = some (.endloop l))
    (hfirst : ∀ j, k.pc < j → j < e → k.code[j]? ≠ some (.endloop l)) : k.loopIn l = { k with pc := e + 1 } := by
  obtain ⟨i, rfl⟩ := Nat.exists_eq_add_of_lt hpc
  have hend : loopEnd l (k.code.drop (k.pc + 1)) (k.pc + 1) = k.pc + 1 + i := by
    refine loopEnd_of_first l _ ?_ fun j hj => ?_
    · rwa [List.getElem?_drop, Nat.add_right_comm]
    · rw [List.getElem?_drop]
      exact hfirst _ (by omega) (by omega)
  rw [loopIn, if_pos h, hend, Nat.add_right_comm k.pc 1 i]

theorem loopOut_of_remain_eq_one (h : tget 0 k.remain l = 1) :
    k.loopOut l = { k with remain := tset 0 k.remain l 0, index := tset 0 k.index l 0, pc := k.pc + 1 } := by
  rw [loopOut, h]; rfl

theorem loopOut_of_remain_ne_one {b : Nat} (h : tget 0 k.remain l ≠ 1) (hpc : b < k.pc) (hb : k.code[b]? = some (.loop l))
    (hlast : ∀ j, b < j → j < k.pc → k.code[j]? ≠ some (.loop l)) :
    k.loopOut l = { k with remain := tset 0 k.remain l (tget 0 k.remain l - 1), index := tset 0 k.index l (tget 0 k.index l + 1), pc := b + 1 } := by
  have hleft : tget 0 k.remain l - 1 ≠ 0 := sub_ne_zero.mpr h
  rw [loopOut, if_neg hleft, loopStart_of_last hpc hb hlast]

end Walker

/-! ## The commands -/

section
variable {s : State} {sq w l : Nat} {k : Walker}

theorem exec_walkLoop (h : s.curWalk sq w = some (k, .loop l)) : exec (.walkLoop sq w) s = .next (s.setWalker sq w (k.loopIn l)) := by
  change execWalkLoop sq w s = _
  rw [execWalkLoop, h]

theorem exec_walkEndloop (h : s.curWalk sq w = some (k, .endloop l)) : exec (.walkEndloop sq w) s = .next (s.setWalker sq w (k.loopOut l)) := by
  change execWalkEndloop sq w s = _
  rw [execWalkEndloop, h]

theorem exec_walkMovi {d : WReg} {v : W64} (h : s.curWalk sq w = some (k, .movi d v)) :
    exec (.walkMovi sq w) s = .next (s.walkScalar sq w d v k) := by
  change execWalkMovi sq w s = _
  rw [execWalkMovi, h]

theorem State.walkScalar_count (v : W64) :
    s.walkScalar sq w (.count l) v k = s.setWalker sq w { k with count := tset 0 k.count l (v.truncate 32), pc := k.pc + 1 } := rfl

end

end Sys2Proof.Machine

open Sys2Proof Sys2Proof.Machine

/-- Settles O9: LOOP and ENDLOOP act by Walker.loopIn and Walker.loopOut, whose cases R118 lists; a write to LOOP_COUNT stores in the
walker's count table alone, and LOOP_REMAIN stands in a table of its own. -/
theorem walkLoopsLatchTheirCount : Obligations.WalkLoopsLatchTheirCount := by
  intro s sq w l k
  refine ⟨fun hcur hcount => ?latch, fun hcur hcount e hpc he hfirst => ?skip, fun hcur hone => ?leave,
    fun hcur hmore b hpc hb hlast => ?again, fun v hcur => ?write, ?reads⟩
  case latch => rw [exec_walkLoop hcur, Walker.loopIn_of_count_ne_zero hcount]
  case skip => rw [exec_walkLoop hcur, Walker.loopIn_of_count_eq_zero hcount hpc he hfirst]
  case leave => rw [exec_walkEndloop hcur, Walker.loopOut_of_remain_eq_one hone]
  case again => rw [exec_walkEndloop hcur, Walker.loopOut_of_remain_ne_one hmore hpc hb hlast]
  case write =>
    refine ⟨{ k with count := tset 0 k.count l (v.truncate 32), pc := k.pc + 1 }, ?_, rfl, rfl, ?_⟩
    · rw [exec_walkMovi hcur, State.walkScalar_count]
    · simp only [Walker.rd, tget_tset_self]
  case reads => simp only [Walker.rd, tget_tset_self]

end

section
/-! PROOFS. The limits on lost pseudo-channels (R156): which operations a channel's loss count and its being down survive, what a
loss leaves behind, and the loss of a whole stack. -/

namespace Sys2Proof.Machine

/-! ## Parts that an operation leaves -/

section
variable {fs : List Part} {s t : State}

theorem chan_of_only (h : Only fs s t) (hp : Part.chans ∉ fs) (n : Nat) : t.chan n = s.chan n :=
  congrArg (tget Chan.reset · n) (h .chans hp)

theorem mram_of_only (h : Only fs s t) (hp : Part.mram ∉ fs) : t.mram = s.mram := h .mram hp

theorem dev_of_only (h : Only fs s t) (hp : Part.dev ∉ fs) : t.dev = s.dev := h .dev hp

theorem alive_of_only (h : Only fs s t) (hp : Part.dev ∉ fs) : t.alive = s.alive :=
  congrArg (fun d : Dev => d.mode != .dark) (dev_of_only h hp)

end

/-! ## What a channel's limits are judged by -/

/-- Whether a channel is down, and its pseudo-channels lost since the last rebuild. -/
def Chan.standing (h : Chan) : Bool × Nat := (h.down, h.lostSince)

def State.standing (s : State) (c : Nat) : Bool × Nat := (s.chan c).standing

/-- The pseudo-channels of a channel lost or retire-pending. -/
def State.outOf (s : State) (c : Nat) : Nat := ((s.mram.lost ++ s.mram.retire).dedup.filter fun k => k / 512 == c).length

section
variable {s t : State} {c n : Nat}

theorem State.standing_eq (h : t.standing c = s.standing c) :
    (t.chan c).down = (s.chan c).down ∧ (t.chan c).lostSince = (s.chan c).lostSince :=
  Prod.mk.injEq .. ▸ h

theorem State.outOf_eq_of_mram_eq (h : t.mram = s.mram) : t.outOf c = s.outOf c := by
  rw [State.outOf, h]; rfl

theorem standing_of_only {fs : List Part} (h : Only fs s t) (hp : Part.chans ∉ fs) : t.standing c = s.standing c :=
  congrArg Chan.standing (chan_of_only h hp c)

theorem State.standing_modChan {f : Chan → Chan} (hf : (f (s.chan n)).standing = (s.chan n).standing) :
    (s.modChan n f).standing c = s.standing c := by
  unfold State.standing
  obtain rfl | hne := eq_or_ne c n
  · rw [State.chan_modChan_self, hf]
  · rw [State.chan_modChan_ne _ _ _ _ hne]

theorem standing_foldl {α : Type} {f : State → α → State} (hf : ∀ u x, (f u x).standing c = u.standing c) (l : List α) (s : State) :
    (l.foldl f s).standing c = s.standing c := by
  induction l generalizing s with
  | nil => rfl
  | cons x l ih => rw [List.foldl_cons, ih, hf]

/-! ### Losing a context, and Sideline -/

theorem tget_map_standing {g : Chan → Chan} (hg : ∀ h, (g h).standing = h.standing) (l : Tbl Chan) (c : Nat) :
    (tget Chan.reset (l.map fun e => (e.1, g e.2)) c).standing = (tget Chan.reset l c).standing := by
  induction l with
  | nil => rfl
  | cons e l ih =>
    obtain ⟨i, h⟩ := e
    simp only [List.map_cons, tget]
    split
    · exact hg h
    · exact ih

@[simp] theorem State.standing_stopEngines : (s.stopEngines n).standing c = s.standing c :=
  tget_map_standing (g := fun h => { h with dma := h.dma.map fun d => (d.1, d.2.stopCtx n) }) (fun _ => rfl) s.chans c

@[simp] theorem State.standing_log (ch code sev cls st si : Nat) (p : List Byte) :
    (s.log ch code sev cls st si p).standing c = s.standing c :=
  standing_of_only ((State.log_only (ps := [.out, .ledger, .host, .watch]) (by decide) ch code sev cls st si p).mpr .refl) (by decide)

@[simp] theorem State.standing_raise (v : Nat) : (s.raise v).standing c = s.standing c :=
  standing_of_only ((State.raise_only (ps := [.out, .host]) (by decide) v).mpr .refl) (by decide)

@[simp] theorem State.standing_alert (i : Nat) : (s.alert i).standing c = s.standing c :=
  standing_of_only ((State.alert_only (ps := [.watch]) (by decide) i).mpr .refl) (by decide)

@[simp] theorem State.standing_abortTags : (s.abortTags n).standing c = s.standing c :=
  standing_of_only ((State.abortTags_only (ps := [.out]) (by decide) n).mpr .refl) (by decide)

@[simp] theorem State.standing_modCtx (f : Ctx → Ctx) : (s.modCtx n f).standing c = s.standing c :=
  standing_of_only ((State.modCtx_only (ps := [.ctx0, .ctx1]) (by decide) n f).mpr .refl) (by decide)

@[simp] theorem State.standing_loseCtx (cause q qindex seq : Nat) (keep : Bool) :
    (s.loseCtx n cause q qindex seq keep).standing c = s.standing c := by
  unfold State.loseCtx
  split <;> simp

@[simp] theorem State.standing_setDev (d : Dev) : (s.setDev d).standing c = s.standing c := rfl

@[simp] theorem State.standing_setHost (h : HostPorts) : (s.setHost h).standing c = s.standing c := rfl

@[simp] theorem State.standing_sideline (trigger ch : Nat) : (s.sideline trigger ch).standing c = s.standing c := by
  unfold State.sideline
  split
  · rfl
  · split <;> simp
  · simp

theorem State.alive_of_up (h : s.up = true) : s.alive = true := by
  unfold State.up at h
  unfold State.alive
  revert h
  cases s.dev.mode <;> decide

/-- A device out of Dark is in Sideline once Sideline is called for. -/
theorem State.sideline_mode (halive : s.alive = true) (trigger ch : Nat) : (s.sideline trigger ch).dev.mode = .sideline := by
  have hdark : s.dev.mode ≠ .dark := by simpa [State.alive] using halive
  unfold State.sideline
  split
  case h_1 h => exact h
  case h_2 h => exact absurd h hdark
  case h_3 =>
    dsimp only
    refine congrArg Dev.mode (dev_of_only (s := s.setDev { s.dev with mode := .sideline })
      (fs := [.out, .ctx0, .ctx1, .squads, .chans, .ledger, .host, .watch]) ?_ (by decide))
    simp

/-! ### Taking a channel down -/

theorem State.channelDown_down : ((s.channelDown c).chan c).down = true := by
  unfold State.channelDown
  split
  case isTrue h => exact h
  case isFalse =>
    dsimp only
    refine (State.standing_eq (s := s.modChan c fun h => { h with down := true }) ?_).1.trans (by simp)
    rw [State.standing_sideline, State.standing_raise, apply_ite (State.standing · c), State.standing_setHost, ite_self, State.standing_alert]

theorem State.down_of_chanUp (h : s.chanUp c = true) : (s.chan c).down = false := by
  simp only [State.chanUp, Bool.and_eq_true, Bool.not_eq_true'] at h
  exact h.2

theorem State.channelDown_mode (halive : s.alive = true) (hdown : (s.chan c).down = false) :
    (s.channelDown c).dev.mode = .sideline := by
  rw [State.channelDown, if_neg (by simp [hdown])]
  refine State.sideline_mode ((alive_of_only (fs := [.out, .chans, .host, .watch]) ?_ (by decide)).trans halive) 3 c
  simp [apply_ite (Only _ s)]

theorem State.channelDown_mram : (s.channelDown c).mram = s.mram :=
  mram_of_only ((State.channelDown_only (ps := [.out, .dev, .ctx0, .ctx1, .squads, .chans, .ledger, .host, .watch]) (by decide) c).mpr .refl) (by decide)

/-! ### The limits -/

theorem State.lossLimits_of_past (h : 32 < s.outOf c ∨ 16 < (s.chan c).lostSince) : s.lossLimits c = s.channelDown c := if_pos h

theorem State.lossLimits_of_within (hout : s.outOf c ≤ 32) (hsince : (s.chan c).lostSince ≤ 16) : s.lossLimits c = s :=
  if_neg (not_or.mpr ⟨Nat.not_lt.mpr hout, Nat.not_lt.mpr hsince⟩)

theorem State.lossLimits_down_iff :
    ((s.lossLimits c).chan c).down = true ↔ (s.chan c).down = true ∨ 32 < s.outOf c ∨ 16 < (s.chan c).lostSince := by
  by_cases h : 32 < s.outOf c ∨ 16 < (s.chan c).lostSince
  · simp [State.lossLimits_of_past h, State.channelDown_down, h]
  · obtain ⟨hout, hsince⟩ := not_or.mp h
    simp [State.lossLimits_of_within (Nat.not_lt.mp hout) (Nat.not_lt.mp hsince), h]

theorem State.lossLimits_mram : (s.lossLimits c).mram = s.mram := by
  unfold State.lossLimits
  dsimp only
  split
  · exact State.channelDown_mram
  · rfl

/-! ### The requests that were held -/

theorem State.standing_hostBytes (space k off : Nat) (l : List Byte) : (s.hostBytes space k off l).standing c = s.standing c := by
  induction k generalizing s off l with
  | zero => rfl
  | succ k ih =>
    rw [State.hostBytes, ih]
    repeat' split
    · rfl
    · exact State.standing_modChan rfl
    · rfl
    · rfl

theorem State.standing_serveBar2 (r : Bar2Req) : (s.serveBar2 r).standing c = s.standing c := by
  unfold State.serveBar2
  split
  · split <;> rfl
  · unfold State.hostTouched
    rw [State.standing_modCtx, State.standing_modCtx, State.standing_hostBytes]

@[simp] theorem State.standing_serveOpen : s.serveOpen.standing c = s.standing c :=
  standing_foldl (fun _ _ => State.standing_serveBar2 _) _ _

theorem State.only_serveOpen : Only [.out, .hbm, .ctx0, .ctx1, .chans, .host] s s.serveOpen :=
  (State.serveOpen_only (by decide)).mpr .refl

/-! ## The loss of a pseudo-channel -/

@[simp] theorem State.standing_spillHit (k : Nat) : (s.spillHit k).standing c = s.standing c := by
  unfold State.spillHit
  dsimp only
  split <;> simp

@[simp] theorem State.standing_teleLoss (k : Nat) : (s.teleLoss k).standing c = s.standing c := rfl

@[simp] theorem State.standing_replayDelivery (g sq : Nat) : (s.replayDelivery g sq).standing c = s.standing c :=
  standing_of_only ((State.replayDelivery_only (ps := [.ctx0, .ctx1, .squads, .net]) (by decide) g sq).mpr .refl) (by decide)

variable {p : Nat}

theorem State.losePc_of_lost (h : c * 512 + p ∈ s.mram.lost) : s.losePc c p = s :=
  if_pos (List.contains_iff_mem.mpr h)

/-- A pseudo-channel's loss is entered in the lost map, and counted at its channel. -/
def State.enterLoss (s : State) (c p : Nat) : State :=
  (s.setMram { s.mram with lost := s.mram.lost ++ [c * 512 + p] }).modChan c
    fun h => { h with lostSince := h.lostSince + 1, held := h.held.filter (· != p) }

theorem State.enterLoss_down : ((s.enterLoss c p).chan c).down = (s.chan c).down := by simp [State.enterLoss]

theorem State.enterLoss_lostSince : ((s.enterLoss c p).chan c).lostSince = (s.chan c).lostSince + 1 := by simp [State.enterLoss]

/-- After a loss is entered the limits are applied, and then the requests held are served. -/
theorem State.losePc_of_not_lost (h : c * 512 + p ∉ s.mram.lost) : ∃ t : State, s.losePc c p = (t.lossLimits c).serveOpen ∧
    t.mram = { s.mram with lost := s.mram.lost ++ [c * 512 + p] } ∧ t.dev = s.dev ∧
    (t.chan c).down = (s.chan c).down ∧ (t.chan c).lostSince = (s.chan c).lostSince + 1 := by
  obtain ⟨t, ht, honly, hstanding⟩ : ∃ t : State, s.losePc c p = (t.lossLimits c).serveOpen ∧
      Only [.out, .ctx0, .ctx1, .squads, .chans, .net, .ledger, .tele, .host, .watch] (s.enterLoss c p) t ∧
      t.standing c = (s.enterLoss c p).standing c := by
    refine ⟨_, if_neg fun hc => h (List.contains_iff_mem.mp hc), ?_, ?_⟩
    · refine (only_foldl fun v e => State.replayDelivery_only (by decide) _ _).mpr ?_
      simp [State.enterLoss]
    · refine (standing_foldl (fun v e => State.standing_replayDelivery _ _) _ _).trans ?_
      simp [State.enterLoss]
  obtain ⟨hdown, hsince⟩ := State.standing_eq hstanding
  exact ⟨t, ht, mram_of_only honly (by decide), (dev_of_only honly (by decide) :), hdown.trans State.enterLoss_down,
    hsince.trans State.enterLoss_lostSince⟩

/-- What a pseudo-channel's becoming retire-pending enters before the limits are applied. -/
theorem State.retirePc_of_new (cause : Nat) (hlost : c * 512 + p ∉ s.mram.lost) (hretire : c * 512 + p ∉ s.mram.retire) :
    ∃ t : State, s.retirePc c p cause = t.lossLimits c ∧ t.mram = { s.mram with retire := s.mram.retire ++ [c * 512 + p] } ∧
      t.chan c = s.chan c := by
  have hnew : ¬ (s.mram.retire.contains (c * 512 + p) || s.mram.lost.contains (c * 512 + p)) = true := by simp [hlost, hretire]
  obtain ⟨t, ht, honly⟩ : ∃ t : State, s.retirePc c p cause = t.lossLimits c ∧
      Only [.out, .ledger, .host, .watch] (s.setMram { s.mram with retire := s.mram.retire ++ [c * 512 + p] }) t :=
    ⟨_, if_neg hnew, by simp⟩
  exact ⟨t, ht, mram_of_only honly (by decide), chan_of_only honly (by decide) c⟩

theorem State.losePc_mram_of_not_lost (h : c * 512 + p ∉ s.mram.lost) :
    (s.losePc c p).mram = { s.mram with lost := s.mram.lost ++ [c * 512 + p] } := by
  obtain ⟨t, ht, hmram, -⟩ := State.losePc_of_not_lost h
  rw [ht, mram_of_only State.only_serveOpen (by decide), State.lossLimits_mram, hmram]

theorem State.losePc_down_iff (h : c * 512 + p ∉ s.mram.lost) : ((s.losePc c p).chan c).down = true ↔
    (s.chan c).down = true ∨ 32 < (s.losePc c p).outOf c ∨ 16 < (s.chan c).lostSince + 1 := by
  obtain ⟨t, ht, hmram, -, hdown, hsince⟩ := State.losePc_of_not_lost h
  have hout : (s.losePc c p).outOf c = t.outOf c :=
    State.outOf_eq_of_mram_eq ((State.losePc_mram_of_not_lost h).trans hmram.symm)
  rw [hout, ht, (State.standing_eq State.standing_serveOpen).1, State.lossLimits_down_iff, hdown, hsince]

theorem State.retirePc_down_iff (cause : Nat) (hlost : c * 512 + p ∉ s.mram.lost) (hretire : c * 512 + p ∉ s.mram.retire) :
    ((s.retirePc c p cause).chan c).down = true ↔ (s.chan c).down = true ∨
      32 < State.outOf (s.setMram { s.mram with retire := s.mram.retire ++ [c * 512 + p] }) c ∨ 16 < (s.chan c).lostSince := by
  obtain ⟨t, ht, hmram, hchan⟩ := State.retirePc_of_new cause hlost hretire
  rw [ht, State.lossLimits_down_iff, hchan, State.outOf, hmram]
  rfl

/-! ## The loss of several pseudo-channels -/

theorem State.mem_lost_losePc {k : Nat} : k ∈ (s.losePc c p).mram.lost ↔ k ∈ s.mram.lost ∨ k = c * 512 + p := by
  by_cases h : c * 512 + p ∈ s.mram.lost
  · rw [State.losePc_of_lost h]
    exact ⟨.inl, fun hk => hk.elim id fun e => e ▸ h⟩
  · simp [State.losePc_mram_of_not_lost h]

/-- A channel past the limit on its pseudo-channels lost or retire-pending is down. -/
def State.DownPastLimit (s : State) (c : Nat) : Prop := 32 < s.outOf c → (s.chan c).down = true

/-- The device is out of Dark, and in Sideline where the channel is down. -/
def State.SidelinedByDown (s : State) (c : Nat) : Prop := s.alive = true ∧ ((s.chan c).down = true → s.dev.mode = .sideline)

theorem State.losePc_downPastLimit_of_not_lost (h : c * 512 + p ∉ s.mram.lost) : (s.losePc c p).DownPastLimit c :=
  fun hout => (State.losePc_down_iff h).mpr (.inr (.inl hout))

theorem State.DownPastLimit.losePc (hs : s.DownPastLimit c) (p : Nat) : (s.losePc c p).DownPastLimit c := by
  by_cases h : c * 512 + p ∈ s.mram.lost
  · rwa [State.losePc_of_lost h]
  · exact State.losePc_downPastLimit_of_not_lost h

theorem State.SidelinedByDown.of_eq (hs : s.SidelinedByDown c) (hdev : t.dev = s.dev) (hdown : (t.chan c).down = (s.chan c).down) :
    t.SidelinedByDown c := by
  rw [State.SidelinedByDown, State.alive, hdev, hdown]
  exact hs

theorem State.SidelinedByDown.lossLimits (hs : s.SidelinedByDown c) : (s.lossLimits c).SidelinedByDown c := by
  unfold State.lossLimits
  dsimp only
  split
  · cases hdown : (s.chan c).down with
    | true => rwa [State.channelDown, if_pos hdown]
    | false =>
      have hmode := State.channelDown_mode hs.1 hdown
      exact ⟨by rw [State.alive, hmode]; rfl, fun _ => hmode⟩
  · exact hs

theorem State.SidelinedByDown.losePc (hs : s.SidelinedByDown c) (p : Nat) : (s.losePc c p).SidelinedByDown c := by
  by_cases h : c * 512 + p ∈ s.mram.lost
  · rwa [State.losePc_of_lost h]
  · obtain ⟨t, ht, -, hdev, hdown, -⟩ := State.losePc_of_not_lost h
    rw [ht]
    exact (hs.of_eq hdev hdown).lossLimits.of_eq (dev_of_only State.only_serveOpen (by decide))
      (State.standing_eq State.standing_serveOpen).1

/-- The pseudo-channels of a list are lost, one after another. -/
def State.losePcs (s : State) (c : Nat) (ps : List Nat) : State := ps.foldl (fun (t : State) p => t.losePc c p) s

variable {ps : List Nat}

theorem State.losePcs_cons : s.losePcs c (p :: ps) = (s.losePc c p).losePcs c ps := rfl

theorem State.SidelinedByDown.losePcs (hs : s.SidelinedByDown c) (ps : List Nat) : (s.losePcs c ps).SidelinedByDown c := by
  induction ps generalizing s with
  | nil => exact hs
  | cons p ps ih => exact ih (hs.losePc p)

theorem State.DownPastLimit.losePcs (hs : s.DownPastLimit c) (ps : List Nat) : (s.losePcs c ps).DownPastLimit c := by
  induction ps generalizing s with
  | nil => exact hs
  | cons p ps ih => exact ih (hs.losePc p)

/-- One pseudo-channel newly lost among them is enough for the limit to be applied. -/
theorem State.losePcs_downPastLimit_of_not_lost (hp : p ∈ ps) (h : c * 512 + p ∉ s.mram.lost) : (s.losePcs c ps).DownPastLimit c := by
  induction ps generalizing s with
  | nil => cases hp
  | cons q ps ih =>
    rw [State.losePcs_cons]
    by_cases hq : c * 512 + q ∈ s.mram.lost
    · have hne : p ≠ q := fun e => h (e ▸ hq)
      rw [State.losePc_of_lost hq]
      exact ih (List.mem_of_ne_of_mem hne hp) h
    · exact (State.losePc_downPastLimit_of_not_lost hq).losePcs ps

theorem State.mem_lost_losePcs {k : Nat} : k ∈ (s.losePcs c ps).mram.lost ↔ k ∈ s.mram.lost ∨ ∃ p ∈ ps, k = c * 512 + p := by
  induction ps generalizing s with
  | nil => simp [State.losePcs]
  | cons p ps ih => rw [State.losePcs_cons, ih, State.mem_lost_losePc, or_assoc, List.exists_mem_cons_iff]

/-! ## The loss of a whole stack -/

/-- The pseudo-channels of stack k of a channel. -/
def stackPcs (k : Nat) : List Nat := (List.range 64).map (64 * k + ·)

theorem mem_stackPcs {k : Nat} : p ∈ stackPcs k ↔ 64 * k ≤ p ∧ p < 64 * k + 64 := by
  simp only [stackPcs, List.mem_map, List.mem_range]
  exact ⟨fun ⟨i, hi, e⟩ => by omega, fun h => ⟨p - 64 * k, by omega, by omega⟩⟩

theorem length_stackPcs {k : Nat} : (stackPcs k).length = 64 := by simp [stackPcs]

theorem nodup_stackPcs {k : Nat} : (stackPcs k).Nodup := List.nodup_range.map (add_right_injective _)

/-- The 64 pseudo-channels of a stack that is lost alone exceed the limit. -/
theorem State.outOf_of_stack_lost {k : Nat} (hk : k < 8) (h : ∀ p ∈ stackPcs k, c * 512 + p ∈ s.mram.lost) : 32 < s.outOf c := by
  have hsub : (stackPcs k).map (c * 512 + ·) ⊆ (s.mram.lost ++ s.mram.retire).dedup.filter fun x => x / 512 == c := by
    intro x hx
    obtain ⟨p, hp, rfl⟩ := List.mem_map.mp hx
    have hlost := h p hp
    have hchan : (c * 512 + p) / 512 = c := by
      obtain ⟨hlo, hhi⟩ := mem_stackPcs.mp hp
      omega
    simp [hlost, hchan]
  have hle : ((stackPcs k).map (c * 512 + ·)).length ≤ s.outOf c :=
    ((nodup_stackPcs.map (add_right_injective _)).subperm hsub).length_le
  rw [List.length_map, length_stackPcs] at hle
  omega

theorem exec_stackFailure_whole {k : Nat} (halive : s.alive = true) (hchan : s.chanUp c = true) :
    exec (.stackFailure c k none) s = .next (s.losePcs c (stackPcs k)) := by
  change execStackFailure c k none s = _
  simp only [execStackFailure, guard, halive, hchan]
  rfl

end

end Sys2Proof.Machine

open Sys2Proof Sys2Proof.Machine

/-- Settles O42: a loss and a retirement end in lossLimits, whose counts nothing before it in their course changes; a stack's loss enters 64
pseudo-channels, and the last of them newly lost finds more than 32. -/
theorem channelsGoDownPastTheirLimits : Obligations.ChannelsGoDownPastTheirLimits := by
  intro s c
  refine ⟨State.lossLimits_of_past, State.lossLimits_of_within, fun p hlost hdown => ?loss, fun p hlost hretire hdown => ?retirement,
    fun hup hdown => ⟨State.channelDown_down, State.channelDown_mode (State.alive_of_up hup) hdown⟩,
    fun k hk hup hchan ⟨p, hlo, hhi, hnew⟩ => ?stack⟩
  case loss =>
    rw [State.losePc_down_iff hlost, State.outOf, State.losePc_mram_of_not_lost hlost]
    simp only [hdown, Bool.false_eq_true, false_or]
  case retirement =>
    rw [State.retirePc_down_iff 1 hlost hretire]
    simp only [hdown, Bool.false_eq_true, false_or]
    rfl
  case stack =>
    have halive : s.alive = true := State.alive_of_up hup
    have hdown : (s.chan c).down = false := State.down_of_chanUp hchan
    have hsidelined : (s.losePcs c (stackPcs k)).SidelinedByDown c :=
      State.SidelinedByDown.losePcs ⟨halive, fun h => absurd (hdown.symm.trans h) Bool.false_ne_true⟩ _
    have hout : 32 < (s.losePcs c (stackPcs k)).outOf c :=
      State.outOf_of_stack_lost hk fun q hq => State.mem_lost_losePcs.mpr (.inr ⟨q, hq, rfl⟩)
    have hlimit : (s.losePcs c (stackPcs k)).DownPastLimit c :=
      State.losePcs_downPastLimit_of_not_lost (mem_stackPcs.mpr ⟨hlo, hhi⟩) hnew
    exact ⟨_, exec_stackFailure_whole halive hchan, hlimit hout, hsidelined.2 (hlimit hout), hout⟩

end

section
/-! PROOFS. Packets between squads (R193, R194): the way along the row and then the column, the choice of a link by class, and a packet's
steps into, through and out of the mesh. -/

namespace Sys2Proof.Machine

/-! ## A line of routers -/

theorem walkLine_self (b : Nat) : walkLine b b = [] := by simp [walkLine]

theorem walkLine_of_lt {a b : Nat} (h : a < b) : walkLine a b = (a + 1) :: walkLine (a + 1) b := by
  obtain ⟨n, rfl⟩ := Nat.exists_eq_add_of_lt h
  have hfirst : a + n + 1 - a = n + 1 := by omega
  have hrest : a + n + 1 - (a + 1) = n := by omega
  rw [walkLine, if_pos h.le, walkLine, if_pos (by omega), hfirst, hrest, List.range_succ_eq_map, List.map_cons, List.map_map]
  congr 1
  exact List.map_congr_left fun i _ => by simp only [Function.comp_apply]; omega

theorem walkLine_of_gt {b n : Nat} (h : b ≤ n) : walkLine (n + 1) b = n :: walkLine n b := by
  obtain rfl | hlt := h.eq_or_lt
  · simp [walkLine]
  have hfirst : n + 1 - b = n - b + 1 := by omega
  rw [walkLine, if_neg (by omega), walkLine, if_neg (by omega), hfirst, List.range_succ_eq_map, List.map_cons, List.map_map]
  congr 1
  exact List.map_congr_left fun i _ => by simp only [Function.comp_apply]; omega

/-- A line is walked towards its end from below or from above. -/
theorem walkLine_induction {b : Nat} {motive : Nat → Prop} (here : motive b) (up : ∀ a < b, motive (a + 1) → motive a)
    (down : ∀ n, b ≤ n → motive n → motive (n + 1)) (a : Nat) : motive a := by
  obtain h | h := Nat.le_total a b
  · exact Nat.decreasingInduction' (fun k hk _ ih => up k hk ih) h here
  · exact Nat.le_induction here down a h

theorem walkLine_lt {n a b : Nat} (ha : a < n) (hb : b < n) : ∀ i ∈ walkLine a b, i < n := by
  intro i hi
  simp only [walkLine] at hi
  split at hi
  all_goals
    obtain ⟨k, hk, rfl⟩ := List.mem_map.mp hi
    have := List.mem_range.mp hk
    omega

theorem walkLine_getLast? (a b : Nat) : (walkLine a b).getLast?.getD a = b := by
  induction a using walkLine_induction (b := b) with
  | here => rw [walkLine_self]; rfl
  | up a h ih => rwa [walkLine_of_lt h, List.getLast?_cons, Option.getD_some]
  | down n h ih => rwa [walkLine_of_gt h, List.getLast?_cons, Option.getD_some]

/-- Two positions of a line next to each other. -/
def NextTo (i j : Nat) : Prop := i = j + 1 ∨ j = i + 1

theorem walkLine_isChain (a b : Nat) : List.IsChain NextTo (a :: walkLine a b) := by
  induction a using walkLine_induction (b := b) with
  | here => rw [walkLine_self]; exact .singleton b
  | up a h ih => rw [walkLine_of_lt h]; exact .cons_cons (.inr rfl) ih
  | down n h ih => rw [walkLine_of_gt h]; exact .cons_cons (.inl rfl) ih

/-! ## Rows and columns -/

section
variable {r c i j a b : Nat}

theorem adjacent_in_row (hi : i < 4) (hj : j < 4) (h : NextTo i j) : adjacent (4 * r + i) (4 * r + j) = true := by
  have hrow : (4 * r + i) / 4 = (4 * r + j) / 4 := by omega
  have hcol : (4 * r + i) % 4 = i ∧ (4 * r + j) % 4 = j := by omega
  have hnext : i = j + 1 ∨ j = i + 1 := h
  simp [adjacent, hrow, hcol, hnext]

theorem adjacent_in_column (hc : c < 4) (h : NextTo i j) : adjacent (4 * i + c) (4 * j + c) = true := by
  have hcol : (4 * i + c) % 4 = (4 * j + c) % 4 := by omega
  have hrow : (4 * i + c) / 4 = i ∧ (4 * j + c) / 4 = j := by omega
  have hnext : i = j + 1 ∨ j = i + 1 := h
  simp [adjacent, hrow, hcol, hnext]

theorem rowPath_row (ha : a < 4) (hb : b < 4) : ∀ x ∈ rowPath r a b, x / 4 = r := by
  intro x hx
  obtain ⟨i, hi, rfl⟩ := List.mem_map.mp hx
  have := walkLine_lt ha hb i hi
  omega

theorem colPath_column (hc : c < 4) : ∀ x ∈ colPath c a b, x % 4 = c := by
  intro x hx
  obtain ⟨i, -, rfl⟩ := List.mem_map.mp hx
  omega

theorem rowPath_getLast? : (rowPath r a b).getLast?.getD (4 * r + a) = 4 * r + b := by
  rw [rowPath, List.getLast?_map, Option.getD_map (4 * r + ·), walkLine_getLast?]

theorem colPath_getLast? : (colPath c a b).getLast?.getD (4 * a + c) = 4 * b + c := by
  rw [colPath, List.getLast?_map, Option.getD_map (4 * · + c), walkLine_getLast?]

theorem rowPath_isChain (ha : a < 4) (hb : b < 4) : List.IsChain (adjacent · · = true) ((4 * r + a) :: rowPath r a b) := by
  have hline : ∀ i ∈ a :: walkLine a b, i < 4 := List.forall_mem_cons.mpr ⟨ha, walkLine_lt ha hb⟩
  exact (List.isChain_cons_map (4 * r + ·)).mpr
    ((walkLine_isChain a b).imp_of_mem_imp fun i j hi hj h => adjacent_in_row (hline i hi) (hline j hj) h)

theorem colPath_isChain (hc : c < 4) : List.IsChain (adjacent · · = true) ((4 * a + c) :: colPath c a b) :=
  (List.isChain_cons_map (4 * · + c)).mpr ((walkLine_isChain a b).imp fun _ _ h => adjacent_in_column hc h)

end

/-- A chain goes on from where the first part of it ends. -/
theorem isChain_cons_append {α : Type} {R : α → α → Prop} {a : α} {l m : List α} (hl : List.IsChain R (a :: l))
    (hm : List.IsChain R (l.getLast?.getD a :: m)) : List.IsChain R (a :: (l ++ m)) := by
  refine hl.append hm.tail fun x hx y hy => ?_
  obtain rfl : l.getLast?.getD a = x := by simpa [List.getLast?_cons] using hx
  exact hm.rel_head? hy

/-! ## The way of a packet from squad to squad -/

theorem detour_of_no_holes (a : Nat) (l : List Nat) : detour [] a l = some l := by
  induction l generalizing a with
  | nil => rfl
  | cons x l ih =>
    have hstep : detour [] a (x :: l) = (detour [] x l).map (x :: ·) := by cases l <;> rfl
    rw [hstep, ih, Option.map_some]

theorem squadPath_of_no_holes (a b : Nat) (vertical : Bool) : squadPath [] a b vertical = some (meshPath a b vertical) := by
  simp [squadPath, detour_of_no_holes]

/-- In the channel of its goal a packet crosses no seam. -/
theorem Net.wayOf_squads {t : Net} {x : Transit} {a b : Nat} (ha : a < 16) (hb : b < 16) (hholes : t.holesOf x.chan = [])
    (hgoal : x.goal.chan = x.chan) (hrouter : x.router = a) (hdest : x.goal.router = b) : t.wayOf x = some (meshPath a b false) := by
  have hcross : t.crosses x = false := by simp [Net.crosses, hgoal]
  have htarget : t.target x = b := by rw [Net.target, if_pos hgoal.symm, hdest]
  simp only [Net.wayOf, hcross, htarget, hrouter, Net.path, hholes, Nat.not_le.mpr ha, Nat.not_le.mpr hb, Bool.false_eq_true, if_false,
    squadPath_of_no_holes]

/-! ## The choice of a link -/

section
variable {last : Nat} {l : List Transit} {x : Transit}

/-- A link serves the first control packet, or where there is none the first packet of some class. -/
theorem byClass_cases (h : byClass last l = some x) :
    l.find? (·.cls == 0) = some x ∨ l.find? (·.cls == 0) = none ∧ ∃ k, l.find? (·.cls == k) = some x := by
  rw [byClass, Option.orElse_eq_or, Option.or_eq_some_iff] at h
  refine h.imp_right fun ⟨hnone, hturn⟩ => ⟨hnone, ?_⟩
  obtain ⟨i, -, hi⟩ := List.exists_of_findSome?_eq_some hturn
  exact ⟨_, hi⟩

theorem mem_of_byClass (h : byClass last l = some x) : x ∈ l := by
  obtain hctrl | ⟨-, _, hturn⟩ := byClass_cases h
  · exact List.mem_of_find?_eq_some hctrl
  · exact List.mem_of_find?_eq_some hturn

theorem byClass_ctrl_first (h : byClass last l = some x) (hctrl : ∃ y ∈ l, y.cls = 0) : x.cls = 0 := by
  obtain hfound | ⟨hnone, -⟩ := byClass_cases h
  · simpa using List.find?_some hfound
  · obtain ⟨y, hy, hcls⟩ := hctrl
    exact absurd hcls (by simpa using List.find?_eq_none.mp hnone y hy)

end

/-! ## Standing at a router -/

section
variable {s : State} {x : Transit} {c a y : Nat}

theorem State.stand_of_moving (h : x.route ≠ [] ∨ x.router ≠ x.goal.router) :
    s.stand x = s.setNet { s.net with transit := s.net.transit ++ [x] } := by
  refine if_neg fun hstand => ?_
  simp only [Bool.and_eq_true, List.isEmpty_iff, beq_iff_eq] at hstand
  obtain ⟨⟨hroute, -⟩, hrouter⟩ := hstand
  exact h.elim (· hroute) (· hrouter)

theorem State.stand_at_squad (hroute : x.route = []) (hgoal : x.goal = ⟨x.chan, x.router, none⟩) :
    s.stand x = if x.cls = memCls then s.emit (.deliver x.pkt) else s.deliver x.pkt := by
  rw [State.stand, if_pos (by simp [hroute, hgoal]), State.arrive, hgoal]

theorem State.route_of_way {r : List Nat} (h : s.net.wayOf x = some r) :
    s.route x = s.stand { x with route := r, set := routeSet x.router r } := by
  rw [State.route, h]

/-! ## The steps of a packet -/

/-- The packets that wait to enter at a router and have room there. -/
def Net.entering (t : Net) (c a : Nat) : List Transit := t.inq.filter fun x => x.chan == c && x.router == a && t.fits x a

/-- The packets that stand at a router, go next to another and have room there. -/
def Net.leaving (t : Net) (c a y : Nat) : List Transit :=
  t.transit.filter fun x => x.chan == c && x.router == a && x.route.head? == some y && t.fits x y

/-- The network once a packet that waited to enter at a router is taken from the queue. -/
def Net.enter (t : Net) (c a : Nat) (x : Transit) : Net := { t with inq := t.inq.erase x, rrCls := tset 0 t.rrCls (hopKey c a a) x.cls }

/-- The network once a packet is taken from a router towards the next. -/
def Net.leave (t : Net) (c a y : Nat) (x : Transit) : Net :=
  { t with transit := t.transit.erase x, rrCls := tset 0 t.rrCls (hopKey c a y) x.cls }

@[simp] theorem Net.wayOf_enter (t : Net) (w : Transit) : (t.enter c a x).wayOf w = t.wayOf w := rfl

theorem Net.router_of_mem_entering {t : Net} (h : x ∈ t.entering c a) : x.router = a := by
  simp only [Net.entering, List.mem_filter, Bool.and_eq_true, beq_iff_eq] at h
  obtain ⟨-, ⟨-, hrouter⟩, -⟩ := h
  exact hrouter

theorem Net.chan_of_mem_leaving {t : Net} (h : x ∈ t.leaving c a y) : x.chan = c := by
  simp only [Net.leaving, List.mem_filter, Bool.and_eq_true, beq_iff_eq] at h
  obtain ⟨-, ⟨⟨hchan, -⟩, -⟩, -⟩ := h
  exact hchan

theorem exec_routerPacketArrival_enter {dest : Nat} (halive : s.alive = true) (hup : s.chanUp c = true) (hholes : s.net.holesOf c = [])
    (hinject : (s.chan c).injectStop = false) (h : byClass (tget 0 s.net.rrCls (hopKey c a a)) (s.net.entering c a) = some x) :
    exec (.routerPacketArrival c a a dest none) s = .next ((s.setNet (s.net.enter c a x)).route x) := by
  change execRouterPacketArrival c a a dest none s = _
  rw [Net.entering] at h
  simp [execRouterPacketArrival, halive, hup, hholes, State.offered, hinject, h, Net.enter]

theorem exec_routerPacketArrival_hop {dest : Nat} (halive : s.alive = true) (hup : s.chanUp c = true) (hholes : s.net.holesOf c = [])
    (hay : a ≠ y) (h : byClass (tget 0 s.net.rrCls (hopKey c a y)) (s.net.leaving c a y) = some x) :
    exec (.routerPacketArrival c a y dest none) s =
      .next ((s.setNet (s.net.leave c a y x)).stand { x with router := y, route := x.route.drop 1 }) := by
  change execRouterPacketArrival c a y dest none s = _
  rw [Net.leaving] at h
  simp [execRouterPacketArrival, halive, hup, hholes, hay, h, Net.leave]

end

end Sys2Proof.Machine

open Sys2Proof Sys2Proof.Machine

/-- Settles O43: without holes the way is meshPath's, a row and then a column of neighbouring routers; the packet that byClass serves stands at
the next router, and leaves the network only where its route ends at its goal. -/
theorem packetsMoveRowThenColumn : Obligations.PacketsMoveRowThenColumn := by
  intro s c a b ha hb hholes
  have hmod : ∀ n, n % 4 < 4 := fun n => Nat.mod_lt n (by decide)
  have hturn : (rowPath (a / 4) (a % 4) (b % 4)).getLast?.getD a = 4 * (a / 4) + b % 4 := by
    simpa only [Nat.div_add_mod] using rowPath_getLast? (r := a / 4) (a := a % 4) (b := b % 4)
  refine ⟨⟨rowPath (a / 4) (a % 4) (b % 4), colPath (b % 4) (a / 4) (b / 4), fun x hchan hrouter hgoal hdest => ?way,
    rowPath_row (hmod a) (hmod b), hturn, colPath_column (hmod b), ?arrival, isChain_cons_append ?row ?column⟩, fun halive hup =>
    ⟨fun x r dest hinject hab hgoal hserved hway => ?enter, fun x y r dest hay hserved hroute hgoal => ?hop,
      fun last l x h => ⟨mem_of_byClass h, byClass_ctrl_first h⟩⟩⟩
  case way =>
    subst hchan
    exact Net.wayOf_squads ha hb hholes hgoal hrouter hdest
  case arrival => rw [List.getLast?_append, Option.getD_or, hturn, colPath_getLast?, Nat.div_add_mod]
  case row => simpa only [Nat.div_add_mod] using rowPath_isChain (r := a / 4) (hmod a) (hmod b)
  case column => exact hturn ▸ colPath_isChain (hmod b)
  case enter =>
    have hrouter : x.router = a := Net.router_of_mem_entering (mem_of_byClass hserved)
    have hmoving : x.router ≠ x.goal.router := by rwa [hrouter, hgoal]
    rw [exec_routerPacketArrival_enter halive hup hholes hinject hserved, State.route_of_way (r := r) (by simpa using hway),
      State.stand_of_moving ?away, hrouter]
    case away => exact .inr hmoving
    rfl
  case hop =>
    have hchan : x.chan = c := Net.chan_of_mem_leaving (mem_of_byClass hserved)
    rw [exec_routerPacketArrival_hop halive hup hholes hay hserved, hroute, List.drop_one, List.tail_cons]
    refine ⟨fun hr => ?_, fun hr hy hcls => ?_, fun hr hy hcls => ?_⟩
    · rw [State.stand_of_moving (.inl hr)]
      rfl
    · rw [State.stand_at_squad hr (by rw [hgoal, hchan, hy]), if_neg hcls]
      rfl
    · rw [State.stand_at_squad hr (by rw [hgoal, hchan, hy]), if_pos hcls]
      rfl

end

section
/-! PROOFS. The fatal region of the ledger (R309, R314): the slot that a record goes to, what writing it leaves alone, and the register
that reports the free slots. -/

namespace Sys2Proof.Machine

/-! ## Looking a key up in a sparse table -/

section
variable {α : Type} {v : α} {t : Tbl α} {k q : Nat}

theorem tfind_cons (e : Nat × α) : tfind (e :: t) q = if e.1 = q then some e.2 else tfind t q := by
  by_cases h : e.1 = q <;> simp [tfind, h]

@[simp] theorem tfind_tins_self : tfind (tins k v t) k = some v := by
  induction t with
  | nil => simp [tins, tfind_cons]
  | cons e t ih =>
    obtain ⟨i, w⟩ := e
    rw [tins]
    split_ifs with hlt heq
    · simp [tfind_cons]
    · simp [tfind_cons]
    · simp [tfind_cons, heq, ih]

theorem tfind_tins_ne (h : q ≠ k) : tfind (tins k v t) q = tfind t q := by
  induction t with
  | nil => simp [tins, tfind_cons, h.symm]
  | cons e t ih =>
    obtain ⟨i, w⟩ := e
    rw [tins]
    split_ifs with hlt heq
    · simp [tfind_cons, h.symm]
    · simp [tfind_cons, heq, h.symm]
    · simp [tfind_cons, ih]

theorem freeFrom_some {n : Nat} (h : freeFrom n k t = some q) : k ≤ q ∧ q < k + n ∧ tfind t q = none := by
  induction n generalizing k with
  | zero => simp [freeFrom] at h
  | succ n ih =>
    rw [freeFrom] at h
    split_ifs at h with hfree
    · obtain rfl : k = q := Option.some.inj h
      exact ⟨le_rfl, by omega, Option.isNone_iff_eq_none.mp hfree⟩
    · obtain ⟨hle, hlt, hnone⟩ := ih h
      exact ⟨by omega, by omega, hnone⟩

theorem freeFrom_eq_none_iff {n : Nat} : freeFrom n k t = none ↔ ∀ q, k ≤ q → q < k + n → tfind t q ≠ none := by
  refine ⟨fun h => ?_, fun h => ?_⟩
  · induction n generalizing k with
    | zero => omega
    | succ n ih =>
      rw [freeFrom] at h
      split_ifs at h with hfree
      intro q hle hlt
      obtain rfl | hlt' := hle.eq_or_lt
      · simpa using hfree
      · exact ih h q hlt' (by omega)
  · by_contra hsome
    obtain ⟨q, hq⟩ := Option.ne_none_iff_exists'.mp hsome
    obtain ⟨hle, hlt, hnone⟩ := freeFrom_some hq
    exact h q hle hlt hnone

end

/-! ## The slot that a record goes to -/

section
variable {l : Ledger} {sl : Tbl Rec} {sev k : Nat}

theorem fatalSlots_le_of_oldest (h : oldest sl sev = some k) : fatalSlots ≤ k := by
  obtain ⟨x, hx, rfl⟩ := Option.map_eq_some_iff.mp h
  refine List.foldlRecOn (motive := fun acc => ∀ x, acc = some x → fatalSlots ≤ x.2) sl _ (by simp) (fun acc hacc e _ => ?_) x hx
  split_ifs with hshared
  · cases acc with
    | none => simpa using hshared.1
    | some o =>
      dsimp only
      split_ifs
      · simpa using hshared.1
      · exact hacc
  · exact hacc

theorem fatalSlots_le_of_victim (h : victim sl sev = some k) : fatalSlots ≤ k := by
  unfold victim at h
  split at h
  · exact fatalSlots_le_of_oldest h
  · rw [Option.orElse_eq_or, Option.or_eq_some_iff] at h
    obtain h | ⟨-, h⟩ := h <;> exact fatalSlots_le_of_oldest h
  · simp only [Option.orElse_eq_or, Option.or_eq_some_iff] at h
    obtain (h | ⟨-, h⟩) | ⟨-, h⟩ := h <;> exact fatalSlots_le_of_oldest h

/-- R309: a Fatal record goes to a free slot of the fatal region, every other record past the region. -/
theorem Ledger.place_some (h : l.place sev = some k) :
    sev = 3 ∧ k < fatalSlots ∧ tfind l.slots k = none ∨ sev ≠ 3 ∧ fatalSlots ≤ k := by
  rw [Ledger.place] at h
  split_ifs at h with hsev
  · obtain ⟨-, hlt, hfree⟩ := freeFrom_some h
    exact .inl ⟨hsev, by rwa [Nat.zero_add] at hlt, hfree⟩
  · rw [Option.orElse_eq_or, Option.or_eq_some_iff] at h
    obtain h | ⟨-, h⟩ := h
    · exact .inr ⟨hsev, (freeFrom_some h).1⟩
    · exact .inr ⟨hsev, fatalSlots_le_of_victim h⟩

theorem Ledger.place_fatal_eq_none_iff : l.place 3 = none ↔ ∀ k, k < fatalSlots → tfind l.slots k ≠ none := by
  rw [Ledger.place, if_pos rfl, freeFrom_eq_none_iff]
  simp only [Nat.zero_le, Nat.zero_add, forall_const]

theorem Ledger.fatalFree_le : l.fatalFree ≤ fatalSlots := Nat.sub_le _ _

end

/-! ## Writing a record -/

section
variable {s : State} {r : Rec} {k : Nat}

theorem ledger_of_only {fs : List Part} {t : State} (h : Only fs s t) (hp : Part.ledger ∉ fs) : t.ledger = s.ledger := h .ledger hp

@[simp] theorem State.dropVector_ledger : s.dropVector.ledger = s.ledger :=
  ledger_of_only ((State.dropVector_only (ps := [.out, .host]) (by decide)).mpr .refl) (by decide)

@[simp] theorem State.fatalWritten_ledger : s.fatalWritten.ledger = s.ledger :=
  ledger_of_only ((State.fatalWritten_only (ps := [.out, .host, .watch]) (by decide)).mpr .refl) (by decide)

@[simp] theorem State.fatalLow_ledger (before : Nat) : (s.fatalLow before).ledger = s.ledger :=
  ledger_of_only ((State.fatalLow_only (ps := [.out, .host]) (by decide) before).mpr .refl) (by decide)

theorem State.writeRec_ledger_of_place (h : s.ledger.place r.sev = some k) : (s.writeRec r).ledger = s.ledger.putAt k r := by
  rw [State.writeRec, h]
  dsimp only
  split_ifs
  · simp
  · rfl

theorem State.writeRec_of_no_place (h : s.ledger.place r.sev = none) : s.writeRec r = s.dropRec r.sev := by
  rw [State.writeRec, h]

theorem Ledger.putAt_slots (l : Ledger) : (l.putAt k r).slots = tins k { r with seq := l.nextSeq.head, order := l.order } l.slots := rfl

theorem State.dropRec_slots (sev : Nat) : (s.dropRec sev).ledger.slots = s.ledger.slots := by
  rw [State.dropRec, State.dropVector_ledger, State.setLedger_ledger]
  split_ifs <;> rfl

theorem State.dropRec_fatalLost : (s.dropRec 3).ledger.fatalLost = bump32 s.ledger.fatalLost := by
  rw [State.dropRec, State.dropVector_ledger, State.setLedger_ledger, if_pos rfl]
  rfl

/-- A write touches no slot but the one that the record goes to. -/
theorem State.tfind_slots_writeRec_of_ne (h : s.ledger.place r.sev ≠ some k) :
    tfind (s.writeRec r).ledger.slots k = tfind s.ledger.slots k := by
  cases hplace : s.ledger.place r.sev with
  | none => rw [State.writeRec_of_no_place hplace, State.dropRec_slots]
  | some j =>
    have hne : k ≠ j := fun hkj => h (hkj ▸ hplace)
    rw [State.writeRec_ledger_of_place hplace, Ledger.putAt_slots, tfind_tins_ne hne]

theorem State.tfind_slots_writeRec_place (h : s.ledger.place r.sev = some k) :
    tfind (s.writeRec r).ledger.slots k = some { r with seq := s.ledger.nextSeq.head, order := s.ledger.order } := by
  rw [State.writeRec_ledger_of_place h, Ledger.putAt_slots, tfind_tins_self]

/-- A Fatal record ignores the flood modes, is not held, and waits only in Dark or during an erase. -/
theorem State.record_fatal {ch : Nat} {o : Offer} (hsev : o.sev = 3) (hmode : s.dev.mode ≠ .dark) (herase : s.ledger.erasing = none) :
    s.record ch o = (s.setLedger (s.ledger.newCand (o.code / 1024) s.clk.ltb)).writeRec (s.stamp o false false) := by
  have hstamp : (s.stamp o false false).sev = 3 := hsev
  have herase' : (s.ledger.newCand (o.code / 1024) s.clk.ltb).erasing = none := herase
  simp [State.record, State.admitRec, hsev, hmode, herase', hstamp]

end

/-! ## LEDG_FATAL_FREE -/

section
variable {s : State} {port : Bool}

theorem State.peek_fatalFree : s.peek port (pgLEDG + 0x108) = s.ledger.fatalFree := rfl

/-- A 32-bit read of a register that nothing samples, pairs or restarts. -/
theorem exec_registerRead_word {a : Nat} (halign : aligned a false = true) (hreach : s.portReaches port a = true) (htouch : s.touch a = s)
    (hlo : isLo a = false) (hhi : isLo (a - 4) = false) (hpeak : ∀ t : State, t.restartPeak a = t) :
    exec (.registerRead port a false) s = .next (s.emit (.word (BitVec.ofNat 64 (s.peek port a % 2 ^ 32)))) := by
  change execRegisterRead port a false s = _
  simp [execRegisterRead, halign, hreach, htouch, State.readWord, hlo, hhi, hpeak]

theorem exec_registerRead_fatalFree (hreach : s.portReaches port (pgLEDG + 0x108) = true) :
    exec (.registerRead port (pgLEDG + 0x108) false) s = .next (s.emit (.word (BitVec.ofNat 64 s.ledger.fatalFree))) := by
  have hfits : s.ledger.fatalFree < 2 ^ 32 := Nat.lt_of_le_of_lt Ledger.fatalFree_le (by decide)
  rw [exec_registerRead_word (by decide) hreach rfl (by decide) (by decide) (fun _ => rfl), State.peek_fatalFree, Nat.mod_eq_of_lt hfits]

theorem State.portReaches_active_fatalFree (haux : s.dev.aux = true) (hrails : s.dev.railsUp = true) (hactive : s.host.noneActive = false) :
    s.portReaches s.host.active (pgLEDG + 0x108) = true := by
  have hpage : s.pageOn (pgLEDG + 0x108) = true := by simp [State.pageOn, pageChan, pgLEDG, haux, hrails]
  simp [State.portReaches, hpage, hactive]

end

end Sys2Proof.Machine

open Sys2Proof Sys2Proof.Machine

/-- Settles O53: a write touches only the slot that Ledger.place names, which is a free one of the fatal region for a Fatal record and lies
past the region for any other. -/
theorem fatalRecordsKeepTheirRegion : Obligations.FatalRecordsKeepTheirRegion := by
  intro s r
  refine ⟨fun k x hk hx => ?kept, fun hsev k hk => ?shared, fun hsev hfree => ?placed, fun hsev hfull => ?lost, fun hsev k hk => ?outside,
    fun port haux hrails hactive hport => ?free, fun ch o hsev hmode herase => ?record⟩
  case kept =>
    rw [State.tfind_slots_writeRec_of_ne fun hplace => ?_, hx]
    obtain ⟨-, -, hnone⟩ | ⟨-, hle⟩ := Ledger.place_some hplace
    · exact absurd (hnone.symm.trans hx) (Option.some_ne_none x).symm
    · exact absurd hk (Nat.not_lt.mpr hle)
  case shared =>
    refine State.tfind_slots_writeRec_of_ne fun hplace => ?_
    obtain ⟨hfatal, -⟩ | ⟨-, hle⟩ := Ledger.place_some hplace
    · exact hsev hfatal
    · exact absurd hk (Nat.not_lt.mpr hle)
  case placed =>
    obtain ⟨q, hq, hqfree⟩ := hfree
    have hsome : s.ledger.place r.sev ≠ none := fun hnone =>
      Ledger.place_fatal_eq_none_iff.mp (hsev ▸ hnone) q hq hqfree
    obtain ⟨k, hplace⟩ := Option.ne_none_iff_exists'.mp hsome
    obtain ⟨-, hk, hkfree⟩ | ⟨hshared, -⟩ := Ledger.place_some hplace
    · refine ⟨k, _, hk, hkfree, State.tfind_slots_writeRec_place hplace, rfl, rfl, fun j hj => ?_⟩
      exact State.tfind_slots_writeRec_of_ne fun hj' => hj (Option.some.inj (hj'.symm.trans hplace))
    · exact absurd hsev hshared
  case lost =>
    have hplace : s.ledger.place r.sev = none := hsev ▸ Ledger.place_fatal_eq_none_iff.mpr hfull
    rw [State.writeRec_of_no_place hplace, State.dropRec_slots, hsev, State.dropRec_fatalLost]
    exact ⟨rfl, rfl⟩
  case outside =>
    refine State.tfind_slots_writeRec_of_ne fun hplace => ?_
    obtain ⟨-, hlt, -⟩ | ⟨hshared, -⟩ := Ledger.place_some hplace
    · exact absurd hlt (Nat.not_lt.mpr hk)
    · exact hshared hsev
  case free =>
    subst hport
    exact ⟨_, exec_registerRead_fatalFree (State.portReaches_active_fatalFree haux hrails hactive), rfl⟩
  case record => exact congrArg Host.Outcome.next (State.record_fatal hsev hmode herase)

end

section
/-! PROOFS. What holds of every command and of every step: the one command that can stop, the queue behind a command, the canonical form of
the memories, the frame; one nanosecond on an empty queue; the state after reset. -/

namespace Sys2Proof.Machine

/-! ## Every command goes on, but a register write that is refused -/

/-- A register write is refused only where it reaches its page and writes a reserved field. -/
theorem execRegisterWrite_goes_or_refused (port : Bool) (a : Nat) (wide : Bool) (v : W64) (s : State) :
    Goes s (execRegisterWrite port a wide v s) ∨
      (execRegisterWrite port a wide v s = .refused .reservedFieldWritten ∧ aligned a wide = true ∧ s.portReaches port a = true ∧
        s.writeWords a v.toNat wide = none) := by
  unfold execRegisterWrite
  split
  · exact .inl (goes_self s)
  next hreach =>
    have hreach : aligned a wide = true ∧ s.portReaches port a = true := by simpa using hreach
    split
    next t hwords => exact .inl (goes_of_mem (State.writeWords_mem _ _ _ _ hwords))
    next hwords => exact .inr ⟨rfl, hreach.1, hreach.2, hwords⟩

/-- Command by command: it goes on and keeps the queue and the memories' form, or it is a register write that is refused. -/
theorem exec_goes_or_refused (c : Instr) (s : State) :
    Goes s (exec c s) ∨
      (exec c s = .refused .reservedFieldWritten ∧
        ∃ port a wide v, c = .registerWrite port a wide v ∧ aligned a wide = true ∧ s.portReaches port a = true ∧ s.writeWords a v.toNat wide = none) := by
  cases c with
  | registerWrite port a wide v =>
    exact (execRegisterWrite_goes_or_refused port a wide v s).imp_right fun ⟨hrefused, hwrite⟩ => ⟨hrefused, port, a, wide, v, rfl, hwrite⟩
  | hostDoorbell => exact .inl (execHostDoorbell_goes ..)
  | preemptNbtLead => exact .inl (execPreemptNbtLead_goes ..)
  | spillComplete => exact .inl (execSpillComplete_goes ..)
  | yieldWrite => exact .inl (execYieldWrite_goes ..)
  | yieldTakesEffect => exact .inl (execYieldTakesEffect_goes ..)
  | fillComplete => exact .inl (execFillComplete_goes ..)
  | descriptorAdmit => exact .inl (execDescriptorAdmit_goes ..)
  | descriptorReady => exact .inl (execDescriptorReady_goes ..)
  | notBeforeTimeReached => exact .inl (execNotBeforeTimeReached_goes ..)
  | descriptorIssue => exact .inl (execDescriptorIssue_goes ..)
  | descriptorComplete => exact .inl (execDescriptorComplete_goes ..)
  | shotClockExpiry => exact .inl (execShotClockExpiry_goes ..)
  | mutualWait => exact .inl (execMutualWait_goes ..)
  | contextStart => exact .inl (execContextStart_goes ..)
  | resume => exact .inl (execResume_goes ..)
  | abort => exact .inl (execAbort_goes ..)
  | contextReset => exact .inl (execContextReset_goes ..)
  | skip => exact .inl (execSkip_goes ..)
  | retry => exact .inl (execRetry_goes ..)
  | flagWrite => exact .inl (execFlagWrite_goes ..)
  | queueRingPlace => exact .inl (execQueueRingPlace_goes ..)
  | workItemDeal => exact .inl (execWorkItemDeal_goes ..)
  | reload => exact .inl (execReload_goes ..)
  | kStepIssue => exact .inl (execKStepIssue_goes ..)
  | stageClose => exact .inl (execStageClose_goes ..)
  | closeLatchEmpty => exact .inl (execCloseLatchEmpty_goes ..)
  | rungCombine => exact .inl (execRungCombine_goes ..)
  | drainStart => exact .inl (execDrainStart_goes ..)
  | tileCheckVerdict => exact .inl (execTileCheckVerdict_goes ..)
  | blockCommit => exact .inl (execBlockCommit_goes ..)
  | engineRestartPoint => exact .inl (execEngineRestartPoint_goes ..)
  | functionLoad => exact .inl (execFunctionLoad_goes ..)
  | walkLibraryLoad => exact .inl (execWalkLibraryLoad_goes ..)
  | updateProgramLoad => exact .inl (execUpdateProgramLoad_goes ..)
  | stepPlanLoad => exact .inl (execStepPlanLoad_goes ..)
  | walkAdd => exact .inl (execWalkAdd_goes ..)
  | walkSub => exact .inl (execWalkSub_goes ..)
  | walkMul => exact .inl (execWalkMul_goes ..)
  | walkAnd => exact .inl (execWalkAnd_goes ..)
  | walkOr => exact .inl (execWalkOr_goes ..)
  | walkXor => exact .inl (execWalkXor_goes ..)
  | walkShl => exact .inl (execWalkShl_goes ..)
  | walkShr => exact .inl (execWalkShr_goes ..)
  | walkMin => exact .inl (execWalkMin_goes ..)
  | walkMax => exact .inl (execWalkMax_goes ..)
  | walkCmp => exact .inl (execWalkCmp_goes ..)
  | walkSel => exact .inl (execWalkSel_goes ..)
  | walkMov => exact .inl (execWalkMov_goes ..)
  | walkMovi => exact .inl (execWalkMovi_goes ..)
  | walkArg => exact .inl (execWalkArg_goes ..)
  | walkLoop => exact .inl (execWalkLoop_goes ..)
  | walkEndloop => exact .inl (execWalkEndloop_goes ..)
  | walkBr => exact .inl (execWalkBr_goes ..)
  | walkBrc => exact .inl (execWalkBrc_goes ..)
  | walkEmit => exact .inl (execWalkEmit_goes ..)
  | walkEnd => exact .inl (execWalkEnd_goes ..)
  | walkAttach => exact .inl (execWalkAttach_goes ..)
  | walkDetach => exact .inl (execWalkDetach_goes ..)
  | walkAcquire => exact .inl (execWalkAcquire_goes ..)
  | walkPush => exact .inl (execWalkPush_goes ..)
  | walkPop => exact .inl (execWalkPop_goes ..)
  | walkRelease => exact .inl (execWalkRelease_goes ..)
  | poolGrant => exact .inl (execPoolGrant_goes ..)
  | popWake => exact .inl (execPopWake_goes ..)
  | updAdd => exact .inl (execUpdAdd_goes ..)
  | updSub => exact .inl (execUpdSub_goes ..)
  | updMul => exact .inl (execUpdMul_goes ..)
  | updFma => exact .inl (execUpdFma_goes ..)
  | updSqrt => exact .inl (execUpdSqrt_goes ..)
  | updRsqrt => exact .inl (execUpdRsqrt_goes ..)
  | updMax => exact .inl (execUpdMax_goes ..)
  | updMin => exact .inl (execUpdMin_goes ..)
  | updAbs => exact .inl (execUpdAbs_goes ..)
  | updSel => exact .inl (execUpdSel_goes ..)
  | updClamp => exact .inl (execUpdClamp_goes ..)
  | updScl => exact .inl (execUpdScl_goes ..)
  | shortPassMessage => exact .inl (execShortPassMessage_goes ..)
  | overflowDeliver => exact .inl (execOverflowDeliver_goes ..)
  | heldMessageRelease => exact .inl (execHeldMessageRelease_goes ..)
  | squadHuddleArrival => exact .inl (execSquadHuddleArrival_goes ..)
  | huddlePacket => exact .inl (execHuddlePacket_goes ..)
  | huddleShotClockExpiry => exact .inl (execHuddleShotClockExpiry_goes ..)
  | memRead => exact .inl (execMemRead_goes ..)
  | memWrite => exact .inl (execMemWrite_goes ..)
  | burstReread => exact .inl (execBurstReread_goes ..)
  | stackFailure => exact .inl (execStackFailure_goes ..)
  | memBurstSlot => exact .inl (execMemBurstSlot_goes ..)
  | refresh => exact .inl (execRefresh_goes ..)
  | scrubRead => exact .inl (execScrubRead_goes ..)
  | scrubBehind => exact .inl (execScrubBehind_goes ..)
  | retrainingStart => exact .inl (execRetrainingStart_goes ..)
  | retrainingDone => exact .inl (execRetrainingDone_goes ..)
  | retrainingTimeout => exact .inl (execRetrainingTimeout_goes ..)
  | rebuild => exact .inl (execRebuild_goes ..)
  | rebuildDone => exact .inl (execRebuildDone_goes ..)
  | reguRateWrite => exact .inl (execReguRateWrite_goes ..)
  | reguBurstWrite => exact .inl (execReguBurstWrite_goes ..)
  | translationWalk => exact .inl (execTranslationWalk_goes ..)
  | mmuRootWrite => exact .inl (execMmuRootWrite_goes ..)
  | mmuInval => exact .inl (execMmuInval_goes ..)
  | mmuInvalDone => exact .inl (execMmuInvalDone_goes ..)
  | mmuFlogAck => exact .inl (execMmuFlogAck_goes ..)
  | dmaStart => exact .inl (execDmaStart_goes ..)
  | dmaAbort => exact .inl (execDmaAbort_goes ..)
  | dmaResume => exact .inl (execDmaResume_goes ..)
  | dmaBurstCommit => exact .inl (execDmaBurstCommit_goes ..)
  | dmaOrderingRead => exact .inl (execDmaOrderingRead_goes ..)
  | detectorFault => exact .inl (execDetectorFault_goes ..)
  | engineWatchdog => exact .inl (execEngineWatchdog_goes ..)
  | cmgrWatchdog => exact .inl (execCmgrWatchdog_goes ..)
  | sqFenceWrite => exact .inl (execSqFenceWrite_goes ..)
  | dmachFenceWrite => exact .inl (execDmachFenceWrite_goes ..)
  | lnkFenceWrite => exact .inl (execLnkFenceWrite_goes ..)
  | fenceClear => exact .inl (execFenceClear_goes ..)
  | devModeSideline => exact .inl (execDevModeSideline_goes ..)
  | sidelineNInput => exact .inl (execSidelineNInput_goes ..)
  | channelReset => exact .inl (execChannelReset_goes ..)
  | arrClearField => exact .inl (execArrClearField_goes ..)
  | routerPacketArrival => exact .inl (execRouterPacketArrival_goes ..)
  | seamFlit => exact .inl (execSeamFlit_goes ..)
  | combineNode => exact .inl (execCombineNode_goes ..)
  | multicastFlitSend => exact .inl (execMulticastFlitSend_goes ..)
  | multicastReattach => exact .inl (execMulticastReattach_goes ..)
  | routerHole => exact .inl (execRouterHole_goes ..)
  | detourResume => exact .inl (execDetourResume_goes ..)
  | edgeRouterFailure => exact .inl (execEdgeRouterFailure_goes ..)
  | ringLinkFailure => exact .inl (execRingLinkFailure_goes ..)
  | linkFlitReceive => exact .inl (execLinkFlitReceive_goes ..)
  | ackLctlSend => exact .inl (execAckLctlSend_goes ..)
  | packetForward => exact .inl (execPacketForward_goes ..)
  | routingTableWrite => exact .inl (execRoutingTableWrite_goes ..)
  | tagGrant => exact .inl (execTagGrant_goes ..)
  | collectiveAbort => exact .inl (execCollectiveAbort_goes ..)
  | collectiveRestart => exact .inl (execCollectiveRestart_goes ..)
  | lnkTrain => exact .inl (execLnkTrain_goes ..)
  | trainingComplete => exact .inl (execTrainingComplete_goes ..)
  | identityBlock => exact .inl (execIdentityBlock_goes ..)
  | noPeerTimeout => exact .inl (execNoPeerTimeout_goes ..)
  | lossOfLock => exact .inl (execLossOfLock_goes ..)
  | peerSilence => exact .inl (execPeerSilence_goes ..)
  | whistleSend => exact .inl (execWhistleSend_goes ..)
  | whistleReceive => exact .inl (execWhistleReceive_goes ..)
  | whistleInEdge => exact .inl (execWhistleInEdge_goes ..)
  | holdover => exact .inl (execHoldover_goes ..)
  | trefLoss => exact .inl (execTrefLoss_goes ..)
  | trefReturn => exact .inl (execTrefReturn_goes ..)
  | timeBaseLockLoss => exact .inl (execTimeBaseLockLoss_goes ..)
  | timeSet => exact .inl (execTimeSet_goes ..)
  | whistleSeed => exact .inl (execWhistleSeed_goes ..)
  | stEnd => exact .inl (execStEnd_goes ..)
  | maintenanceWindowOpen => exact .inl (execMaintenanceWindowOpen_goes ..)
  | voteReceive => exact .inl (execVoteReceive_goes ..)
  | commitShotClockExpiry => exact .inl (execCommitShotClockExpiry_goes ..)
  | pairPacket => exact .inl (execPairPacket_goes ..)
  | commitReceive => exact .inl (execCommitReceive_goes ..)
  | holdReceive => exact .inl (execHoldReceive_goes ..)
  | commitAbortReceive => exact .inl (execCommitAbortReceive_goes ..)
  | memberCommitClockExpiry => exact .inl (execMemberCommitClockExpiry_goes ..)
  | decisionQuery => exact .inl (execDecisionQuery_goes ..)
  | decisionAnswer => exact .inl (execDecisionAnswer_goes ..)
  | decisionQueryTimeout => exact .inl (execDecisionQueryTimeout_goes ..)
  | completeCommit => exact .inl (execCompleteCommit_goes ..)
  | discardVote => exact .inl (execDiscardVote_goes ..)
  | redigest => exact .inl (execRedigest_goes ..)
  | redigestDone => exact .inl (execRedigestDone_goes ..)
  | updStepWrite => exact .inl (execUpdStepWrite_goes ..)
  | lossScaleWrite => exact .inl (execLossScaleWrite_goes ..)
  | ledgerRecordWrite => exact .inl (execLedgerRecordWrite_goes ..)
  | rateInterval => exact .inl (execRateInterval_goes ..)
  | hostRecordSubmit => exact .inl (execHostRecordSubmit_goes ..)
  | hmbReady => exact .inl (execHmbReady_goes ..)
  | ledgerReadSelect => exact .inl (execLedgerReadSelect_goes ..)
  | keyWordWrite => exact .inl (execKeyWordWrite_goes ..)
  | rekeyWindowClose => exact .inl (execRekeyWindowClose_goes ..)
  | clearRequest => exact .inl (execClearRequest_goes ..)
  | clearSubmit => exact .inl (execClearSubmit_goes ..)
  | clearDone => exact .inl (execClearDone_goes ..)
  | challengeExpiry => exact .inl (execChallengeExpiry_goes ..)
  | lockoutEnd => exact .inl (execLockoutEnd_goes ..)
  | ponSSave => exact .inl (execPonSSave_goes ..)
  | irqForce => exact .inl (execIrqForce_goes ..)
  | pageLock => exact .inl (execPageLock_goes ..)
  | bar2Access => exact .inl (execBar2Access_goes ..)
  | hostApertureWrite => exact .inl (execHostApertureWrite_goes ..)
  | apertureApply => exact .inl (execApertureApply_goes ..)
  | activate => exact .inl (execActivate_goes ..)
  | perstAssert => exact .inl (execPerstAssert_goes ..)
  | perstRelease => exact .inl (execPerstRelease_goes ..)
  | bootGo => exact .inl (execBootGo_goes ..)
  | bootVerify => exact .inl (execBootVerify_goes ..)
  | startup => exact .inl (execStartup_goes ..)
  | sysResetNAssert => exact .inl (execSysResetNAssert_goes ..)
  | vinOutOfRange => exact .inl (execVinOutOfRange_goes ..)
  | vinUndervoltage => exact .inl (execVinUndervoltage_goes ..)
  | vinOvervoltage => exact .inl (execVinOvervoltage_goes ..)
  | capStepDown => exact .inl (execCapStepDown_goes ..)
  | capStepUp => exact .inl (execCapStepUp_goes ..)
  | railOvercurrent => exact .inl (execRailOvercurrent_goes ..)
  | railOvercurrentEnd => exact .inl (execRailOvercurrentEnd_goes ..)
  | cclkChange => exact .inl (execCclkChange_goes ..)
  | thermalStepDown => exact .inl (execThermalStepDown_goes ..)
  | thermalStepUp => exact .inl (execThermalStepUp_goes ..)
  | thermalTripWarning => exact .inl (execThermalTripWarning_goes ..)
  | thermalTrip => exact .inl (execThermalTrip_goes ..)
  | thermtripRelease => exact .inl (execThermtripRelease_goes ..)
  | wpHeartbeat => exact .inl (execWpHeartbeat_goes ..)
  | wpRead => exact .inl (execWpRead_goes ..)
  | wpFenceWrite => exact .inl (execWpFenceWrite_goes ..)
  | wpSidelineCmd => exact .inl (execWpSidelineCmd_goes ..)
  | wpAlertClear => exact .inl (execWpAlertClear_goes ..)
  | bypass => exact .inl (execBypass_goes ..)
  | idcode => exact .inl (execIdcode_goes ..)
  | samplePreload => exact .inl (execSamplePreload_goes ..)
  | extest => exact .inl (execExtest_goes ..)
  | extestPulse => exact .inl (execExtestPulse_goes ..)
  | extestTrain => exact .inl (execExtestTrain_goes ..)
  | clampIr => exact .inl (execClampIr_goes ..)
  | highz => exact .inl (execHighz_goes ..)
  | stack1500 => exact .inl (execStack1500_goes ..)
  | trstNReset => exact .inl (execTrstNReset_goes ..)
  | smbIdent => exact .inl (execSmbIdent_goes ..)
  | smbHealth => exact .inl (execSmbHealth_goes ..)
  | smbThermal => exact .inl (execSmbThermal_goes ..)
  | smbPower => exact .inl (execSmbPower_goes ..)
  | smbLedgSel => exact .inl (execSmbLedgSel_goes ..)
  | smbLedgLo => exact .inl (execSmbLedgLo_goes ..)
  | smbLedgHi => exact .inl (execSmbLedgHi_goes ..)
  | smbCounts => exact .inl (execSmbCounts_goes ..)
  | auxRailLoss => exact .inl (execAuxRailLoss_goes ..)
  | registerRead => exact .inl (execRegisterRead_goes ..)
  | hostPortLinkChange => exact .inl (execHostPortLinkChange_goes ..)

theorem keeps_of_mem_eq {s t : State} (h : t.mem = s.mem) : Keeps s t := by
  rw [keeps_iff, h]
  exact .refl _

/-- What a command that goes on keeps. -/
theorem keeps_of_exec {c : Instr} {s t : State} (h : exec c s = .next t) : Keeps s t := by
  obtain ⟨u, hu, hkeeps⟩ | ⟨hrefused, -⟩ := exec_goes_or_refused c s
  · obtain rfl : u = t := Host.Outcome.next.inj (hu.symm.trans h)
    exact hkeeps
  · exact absurd (hrefused.symm.trans h) nofun

/-- The frame, command by command. -/
theorem exec_only (c : Instr) (s : State) : OnlyR (footprint c) s (exec c s) := by
  cases c with
  | hostDoorbell port ctx q tail wrap recs => exact execHostDoorbell_only port ctx q tail wrap recs s
  | preemptNbtLead q => exact execPreemptNbtLead_only q s
  | spillComplete => exact execSpillComplete_only s
  | yieldWrite => exact execYieldWrite_only s
  | yieldTakesEffect => exact execYieldTakesEffect_only s
  | fillComplete => exact execFillComplete_only s
  | descriptorAdmit ctx q => exact execDescriptorAdmit_only ctx q s
  | descriptorReady ctx q => exact execDescriptorReady_only ctx q s
  | notBeforeTimeReached ctx q => exact execNotBeforeTimeReached_only ctx q s
  | descriptorIssue ctx cls => exact execDescriptorIssue_only ctx cls s
  | descriptorComplete ctx seq => exact execDescriptorComplete_only ctx seq s
  | shotClockExpiry ctx q => exact execShotClockExpiry_only ctx q s
  | mutualWait ctx => exact execMutualWait_only ctx s
  | contextStart ctx => exact execContextStart_only ctx s
  | resume ctx => exact execResume_only ctx s
  | abort ctx => exact execAbort_only ctx s
  | contextReset ctx => exact execContextReset_only ctx s
  | skip ctx q => exact execSkip_only ctx q s
  | retry ctx q => exact execRetry_only ctx q s
  | flagWrite ctx flag value => exact execFlagWrite_only ctx flag value s
  | queueRingPlace ctx q base log2 => exact execQueueRingPlace_only ctx q base log2 s
  | workItemDeal sq => exact execWorkItemDeal_only sq s
  | reload sq => exact execReload_only sq s
  | kStepIssue sq => exact execKStepIssue_only sq s
  | stageClose sq => exact execStageClose_only sq s
  | closeLatchEmpty sq slot => exact execCloseLatchEmpty_only sq slot s
  | rungCombine sq slot => exact execRungCombine_only sq slot s
  | drainStart sq errs => exact execDrainStart_only sq errs s
  | tileCheckVerdict sq => exact execTileCheckVerdict_only sq s
  | blockCommit e => exact execBlockCommit_only e s
  | engineRestartPoint ctx e => exact execEngineRestartPoint_only ctx e s
  | functionLoad ctx slot r => exact execFunctionLoad_only ctx slot r s
  | walkLibraryLoad ctx r => exact execWalkLibraryLoad_only ctx r s
  | updateProgramLoad ctx n r => exact execUpdateProgramLoad_only ctx n r s
  | stepPlanLoad ctx r => exact execStepPlanLoad_only ctx r s
  | walkAdd sq w => exact execWalkAdd_only sq w s
  | walkSub sq w => exact execWalkSub_only sq w s
  | walkMul sq w => exact execWalkMul_only sq w s
  | walkAnd sq w => exact execWalkAnd_only sq w s
  | walkOr sq w => exact execWalkOr_only sq w s
  | walkXor sq w => exact execWalkXor_only sq w s
  | walkShl sq w => exact execWalkShl_only sq w s
  | walkShr sq w => exact execWalkShr_only sq w s
  | walkMin sq w => exact execWalkMin_only sq w s
  | walkMax sq w => exact execWalkMax_only sq w s
  | walkCmp sq w => exact execWalkCmp_only sq w s
  | walkSel sq w => exact execWalkSel_only sq w s
  | walkMov sq w => exact execWalkMov_only sq w s
  | walkMovi sq w => exact execWalkMovi_only sq w s
  | walkArg sq w => exact execWalkArg_only sq w s
  | walkLoop sq w => exact execWalkLoop_only sq w s
  | walkEndloop sq w => exact execWalkEndloop_only sq w s
  | walkBr sq w => exact execWalkBr_only sq w s
  | walkBrc sq w => exact execWalkBrc_only sq w s
  | walkEmit sq w => exact execWalkEmit_only sq w s
  | walkEnd sq w => exact execWalkEnd_only sq w s
  | walkAttach sq w => exact execWalkAttach_only sq w s
  | walkDetach sq w => exact execWalkDetach_only sq w s
  | walkAcquire sq w => exact execWalkAcquire_only sq w s
  | walkPush sq w => exact execWalkPush_only sq w s
  | walkPop sq w => exact execWalkPop_only sq w s
  | walkRelease sq w => exact execWalkRelease_only sq w s
  | poolGrant sq ctx pool => exact execPoolGrant_only sq ctx pool s
  | popWake sq ctx q => exact execPopWake_only sq ctx q s
  | updAdd sq => exact execUpdAdd_only sq s
  | updSub sq => exact execUpdSub_only sq s
  | updMul sq => exact execUpdMul_only sq s
  | updFma sq => exact execUpdFma_only sq s
  | updSqrt sq => exact execUpdSqrt_only sq s
  | updRsqrt sq => exact execUpdRsqrt_only sq s
  | updMax sq => exact execUpdMax_only sq s
  | updMin sq => exact execUpdMin_only sq s
  | updAbs sq => exact execUpdAbs_only sq s
  | updSel sq => exact execUpdSel_only sq s
  | updClamp sq => exact execUpdClamp_only sq s
  | updScl sq => exact execUpdScl_only sq s
  | shortPassMessage m => exact execShortPassMessage_only m s
  | overflowDeliver c ctx => exact execOverflowDeliver_only c ctx s
  | heldMessageRelease ctx => exact execHeldMessageRelease_only ctx s
  | squadHuddleArrival ctx number sq => exact execSquadHuddleArrival_only ctx number sq s
  | huddlePacket p => exact execHuddlePacket_only p s
  | huddleShotClockExpiry ctx q => exact execHuddleShotClockExpiry_only ctx q s
  | memRead req space off errs => exact execMemRead_only req space off errs s
  | memWrite req space off data errs => exact execMemWrite_only req space off data errs s
  | burstReread c errs => exact execBurstReread_only c errs s
  | stackFailure c k hch => exact execStackFailure_only c k hch s
  | memBurstSlot c waiting spill => exact execMemBurstSlot_only c waiting spill s
  | refresh c k r => exact execRefresh_only c k r s
  | scrubRead c errs userWrite => exact execScrubRead_only c errs userWrite s
  | scrubBehind c fraction => exact execScrubBehind_only c fraction s
  | retrainingStart c p => exact execRetrainingStart_only c p s
  | retrainingDone c p failed => exact execRetrainingDone_only c p failed s
  | retrainingTimeout c p => exact execRetrainingTimeout_only c p s
  | rebuild => exact execRebuild_only s
  | rebuildDone => exact execRebuildDone_only s
  | reguRateWrite c part value => exact execReguRateWrite_only c part value s
  | reguBurstWrite c part value => exact execReguBurstWrite_only c part value s
  | translationWalk ctx req va write home => exact execTranslationWalk_only ctx req va write home s
  | mmuRootWrite ctx value => exact execMmuRootWrite_only ctx value s
  | mmuInval ctx va pages all => exact execMmuInval_only ctx va pages all s
  | mmuInvalDone => exact execMmuInvalDone_only s
  | mmuFlogAck ctx => exact execMmuFlogAck_only ctx s
  | dmaStart c d => exact execDmaStart_only c d s
  | dmaAbort c d => exact execDmaAbort_only c d s
  | dmaResume c d => exact execDmaResume_only c d s
  | dmaBurstCommit c d hostData => exact execDmaBurstCommit_only c d hostData s
  | dmaOrderingRead c d => exact execDmaOrderingRead_only c d s
  | detectorFault e data => exact execDetectorFault_only e data s
  | engineWatchdog e => exact execEngineWatchdog_only e s
  | cmgrWatchdog c => exact execCmgrWatchdog_only c s
  | sqFenceWrite sq => exact execSqFenceWrite_only sq s
  | dmachFenceWrite c d => exact execDmachFenceWrite_only c d s
  | lnkFenceWrite n => exact execLnkFenceWrite_only n s
  | fenceClear t => exact execFenceClear_only t s
  | devModeSideline => exact execDevModeSideline_only s
  | sidelineNInput ns => exact execSidelineNInput_only ns s
  | channelReset c b => exact execChannelReset_only c b s
  | arrClearField sq => exact execArrClearField_only sq s
  | routerPacketArrival c at_ next dest offer => exact execRouterPacketArrival_only c at_ next dest offer s
  | seamFlit c j lane ok p => exact execSeamFlit_only c j lane ok p s
  | combineNode ctx tag node right off data => exact execCombineNode_only ctx tag node right off data s
  | multicastFlitSend g len => exact execMulticastFlitSend_only g len s
  | multicastReattach g sq => exact execMulticastReattach_only g sq s
  | routerHole sq => exact execRouterHole_only sq s
  | detourResume c => exact execDetourResume_only c s
  | edgeRouterFailure c e => exact execEdgeRouterFailure_only c e s
  | ringLinkFailure c e => exact execRingLinkFailure_only c e s
  | linkFlitReceive n f => exact execLinkFlitReceive_only n f s
  | ackLctlSend n => exact execAckLctlSend_only n s
  | packetForward port p => exact execPacketForward_only port p s
  | routingTableWrite addr data => exact execRoutingTableWrite_only addr data s
  | tagGrant ctx tag epoch => exact execTagGrant_only ctx tag epoch s
  | collectiveAbort ctx tag epoch => exact execCollectiveAbort_only ctx tag epoch s
  | collectiveRestart ctx tag => exact execCollectiveRestart_only ctx tag s
  | lnkTrain n => exact execLnkTrain_only n s
  | trainingComplete n badLanes delay t => exact execTrainingComplete_only n badLanes delay t s
  | identityBlock n b => exact execIdentityBlock_only n b s
  | noPeerTimeout n => exact execNoPeerTimeout_only n s
  | lossOfLock n lane => exact execLossOfLock_only n lane s
  | peerSilence n => exact execPeerSilence_only n s
  | whistleSend => exact execWhistleSend_only s
  | whistleReceive port w residence => exact execWhistleReceive_only port w residence s
  | whistleInEdge => exact execWhistleInEdge_only s
  | holdover => exact execHoldover_only s
  | trefLoss => exact execTrefLoss_only s
  | trefReturn => exact execTrefReturn_only s
  | timeBaseLockLoss => exact execTimeBaseLockLoss_only s
  | timeSet v => exact execTimeSet_only v s
  | whistleSeed v => exact execWhistleSeed_only v s
  | stEnd => exact execStEnd_only s
  | maintenanceWindowOpen ctx => exact execMaintenanceWindowOpen_only ctx s
  | voteReceive ctx lo hi v => exact execVoteReceive_only ctx lo hi v s
  | commitShotClockExpiry ctx => exact execCommitShotClockExpiry_only ctx s
  | pairPacket ctx src port step exp growth digest => exact execPairPacket_only ctx src port step exp growth digest s
  | commitReceive ctx d => exact execCommitReceive_only ctx d s
  | holdReceive ctx d => exact execHoldReceive_only ctx d s
  | commitAbortReceive ctx d => exact execCommitAbortReceive_only ctx d s
  | memberCommitClockExpiry ctx => exact execMemberCommitClockExpiry_only ctx s
  | decisionQuery ctx src step => exact execDecisionQuery_only ctx src step s
  | decisionAnswer ctx commit d => exact execDecisionAnswer_only ctx commit d s
  | decisionQueryTimeout ctx => exact execDecisionQueryTimeout_only ctx s
  | completeCommit => exact execCompleteCommit_only s
  | discardVote => exact execDiscardVote_only s
  | redigest => exact execRedigest_only s
  | redigestDone ctx => exact execRedigestDone_only ctx s
  | updStepWrite ctx v => exact execUpdStepWrite_only ctx v s
  | lossScaleWrite ctx exp growth => exact execLossScaleWrite_only ctx exp growth s
  | ledgerRecordWrite chan o => exact execLedgerRecordWrite_only chan o s
  | rateInterval => exact execRateInterval_only s
  | hostRecordSubmit => exact execHostRecordSubmit_only s
  | hmbReady => exact execHmbReady_only s
  | ledgerReadSelect index => exact execLedgerReadSelect_only index s
  | keyWordWrite idx w => exact execKeyWordWrite_only idx w s
  | rekeyWindowClose => exact execRekeyWindowClose_only s
  | clearRequest scope => exact execClearRequest_only scope s
  | clearSubmit resp => exact execClearSubmit_only resp s
  | clearDone => exact execClearDone_only s
  | challengeExpiry => exact execChallengeExpiry_only s
  | lockoutEnd => exact execLockoutEnd_only s
  | ponSSave => exact execPonSSave_only s
  | registerWrite port addr wide value => exact execRegisterWrite_only port addr wide value s
  | irqForce page bits => exact execIrqForce_only page bits s
  | pageLock page => exact execPageLock_only page s
  | bar2Access port a => exact execBar2Access_only port a s
  | hostApertureWrite value => exact execHostApertureWrite_only value s
  | apertureApply => exact execApertureApply_only s
  | activate port => exact execActivate_only port s
  | perstAssert port => exact execPerstAssert_only port s
  | perstRelease port => exact execPerstRelease_only port s
  | bootGo port => exact execBootGo_only port s
  | bootVerify img found => exact execBootVerify_only img found s
  | startup => exact execStartup_only s
  | sysResetNAssert ns => exact execSysResetNAssert_only ns s
  | vinOutOfRange tenMv => exact execVinOutOfRange_only tenMv s
  | vinUndervoltage tenMv => exact execVinUndervoltage_only tenMv s
  | vinOvervoltage tenMv => exact execVinOvervoltage_only tenMv s
  | capStepDown watts => exact execCapStepDown_only watts s
  | capStepUp watts => exact execCapStepUp_only watts s
  | railOvercurrent c k peak => exact execRailOvercurrent_only c k peak s
  | railOvercurrentEnd c k => exact execRailOvercurrentEnd_only c k s
  | cclkChange => exact execCclkChange_only s
  | thermalStepDown t => exact execThermalStepDown_only t s
  | thermalStepUp t => exact execThermalStepUp_only t s
  | thermalTripWarning t => exact execThermalTripWarning_only t s
  | thermalTrip t => exact execThermalTrip_only t s
  | thermtripRelease => exact execThermtripRelease_only s
  | wpHeartbeat => exact execWpHeartbeat_only s
  | wpRead word => exact execWpRead_only word s
  | wpFenceWrite word value => exact execWpFenceWrite_only word value s
  | wpSidelineCmd value => exact execWpSidelineCmd_only value s
  | wpAlertClear value => exact execWpAlertClear_only value s
  | bypass => exact execBypass_only s
  | idcode => exact execIdcode_only s
  | samplePreload => exact execSamplePreload_only s
  | extest => exact execExtest_only s
  | extestPulse => exact execExtestPulse_only s
  | extestTrain => exact execExtestTrain_only s
  | clampIr => exact execClampIr_only s
  | highz => exact execHighz_only s
  | stack1500 select => exact execStack1500_only select s
  | trstNReset => exact execTrstNReset_only s
  | smbIdent => exact execSmbIdent_only s
  | smbHealth => exact execSmbHealth_only s
  | smbThermal => exact execSmbThermal_only s
  | smbPower => exact execSmbPower_only s
  | smbLedgSel slot => exact execSmbLedgSel_only slot s
  | smbLedgLo => exact execSmbLedgLo_only s
  | smbLedgHi => exact execSmbLedgHi_only s
  | smbCounts => exact execSmbCounts_only s
  | auxRailLoss => exact execAuxRailLoss_only s
  | registerRead port addr wide => exact execRegisterRead_only port addr wide s
  | hostPortLinkChange port up => exact execHostPortLinkChange_only port up s

/-! ## One nanosecond -/

theorem step_of_pending_nil {s : State} (h : s.pending = []) : step s = .next s.tick := by
  rw [step, h]

theorem step_of_pending_cons {s : State} {c : Instr} {r : List Instr} (h : s.pending = c :: r) : step s = exec c (s.setPending r) := by
  rw [step, h]

theorem State.tick_frame (s : State) : Only [.clk, .dev, .ctx0, .ctx1, .chans, .links, .net, .out] s s.tick :=
  (State.tick_only (by decide)).mpr .refl

theorem State.tick_of_stopped {s : State} (h : s.alive = false ∨ s.clk.baseLock = false) :
    s.tick = if s.dev.aux then s.setDev s.dev.tick else s := by
  rw [State.tick]
  exact if_pos (by obtain h | h := h <;> simp [h])

theorem Dev.tick_mode (d : Dev) : d.tick.mode = d.mode := by
  unfold Dev.tick
  split <;> rfl

/-- While the device runs on a locked base clock, the nanosecond's clocks are set and all that follows leaves them and the device alone. -/
theorem State.tick_of_running {s : State} (halive : s.alive = true) (hlock : s.clk.baseLock = true) :
    Only [.ctx0, .ctx1, .chans, .links, .net, .out] ((if s.dev.aux then s.setDev s.dev.tick else s).setClk s.clk.tick) s.tick := by
  simp [State.tick, halive, hlock, apply_ite (Only _ _), only_foldl]

theorem Clock.tick_ltb {c : Clock} (h : c.baseLock = true) : c.tick.ltb = c.ltb + 1 := by
  simp [Clock.tick, h]

theorem State.tick_ltb {s : State} (halive : s.alive = true) (hlock : s.clk.baseLock = true) : s.tick.clk.ltb = s.clk.ltb + 1 := by
  have hclk : s.tick.clk = s.clk.tick := State.tick_of_running halive hlock .clk (by decide)
  rw [hclk, Clock.tick_ltb hlock]

theorem State.tick_dev (s : State) : s.tick.dev = if s.dev.aux then s.dev.tick else s.dev := by
  by_cases hstop : s.alive = false ∨ s.clk.baseLock = false
  · rw [State.tick_of_stopped hstop, apply_ite State.dev, State.setDev_dev]
  · have hrun : s.alive = true ∧ s.clk.baseLock = true := by simpa using hstop
    have hdev := State.tick_of_running hrun.1 hrun.2 .dev (by decide)
    exact hdev.trans (by rw [State.setClk_dev, apply_ite State.dev, State.setDev_dev])

theorem State.tick_mode (s : State) : s.tick.dev.mode = s.dev.mode := by
  rw [State.tick_dev]
  split
  · exact Dev.tick_mode _
  · rfl

/-! ## The state after reset -/

theorem Ctx.queue_reset (q : Nat) : Ctx.reset.queue q = Queue.reset := rfl

theorem State.ctx_reset (n : Nat) : State.reset.ctx n = Ctx.reset := ite_self _

/-- The kinds of the device's own block. -/
theorem pageKind_of_device {a : Nat} (h : 0x1000000 ≤ a) : pageKind a ∈ [PageKind.time, .ledg, .host, .watch, .upd, .tele, .dev, .none] := by
  unfold pageKind
  rw [if_pos h]
  split_ifs
  · split <;> simp
  · simp

theorem homeAddr_of_device {a : Nat} (h : 0x1000000 ≤ a) : homeAddr a = a := by
  have hkind := pageKind_of_device h
  unfold homeAddr
  split <;> simp_all

theorem pageKind_of_link {a : Nat} (h : a < 0x1000000) (hp : 0x200 ≤ a % 0x400000 / 0x1000 ∧ a % 0x400000 / 0x1000 < 0x206) :
    pageKind a = .lnk (6 * (a / 0x400000) + (a % 0x400000 / 0x1000 - 0x200)) := by
  unfold pageKind
  dsimp only
  iterate 11 rw [if_neg (by omega)]
  rw [if_pos hp]

/-- The four channels' pages have the same kinds in the same places; a link's kind names the link. -/
theorem pageKind_mod {a : Nat} (h : a < 0x1000000) :
    pageKind (a % 0x400000) = pageKind a ∨ ∃ m n, pageKind (a % 0x400000) = .lnk m ∧ pageKind a = .lnk n := by
  by_cases hp : 0x200 ≤ a % 0x400000 / 0x1000 ∧ a % 0x400000 / 0x1000 < 0x206
  · exact .inr ⟨_, _, pageKind_of_link (by omega) (by omega), pageKind_of_link h hp⟩
  · refine .inl ?_
    unfold pageKind
    rw [if_neg (by omega : ¬ 0x1000000 ≤ a % 0x400000), if_neg (by omega : ¬ 0x1000000 ≤ a), Nat.mod_mod]
    simp only [if_neg hp]

theorem regReset_mod {a : Nat} (h : a < 0x1000000) : regReset (a % 0x400000) = regReset a := by
  have hpage : a % 0x400000 % 0x1000 = a % 0x1000 := by omega
  obtain hkind | ⟨m, n, hm, hn⟩ := pageKind_mod h
  · simp only [regReset, hpage, hkind]
  · simp only [regReset, hpage, hm, hn]

theorem homeAddr_eq_or (a : Nat) : homeAddr a = a ∨ homeAddr a = a % 0x400000 := by
  unfold homeAddr
  split <;> simp
  omega

theorem regReset_homeAddr (a : Nat) : regReset (homeAddr a) = regReset a := by
  by_cases h : 0x1000000 ≤ a
  · rw [homeAddr_of_device h]
  · obtain hself | hhome := homeAddr_eq_or a
    · rw [hself]
    · rw [hhome, regReset_mod (by omega)]

theorem floodDefault_lt (k : Nat) : floodDefault k < 2 ^ 32 := by
  unfold floodDefault
  split_ifs <;> omega

theorem getD_lt {l : List Nat} {b d : Nat} (hl : ∀ x ∈ l, x < b) (hd : d < b) (i : Nat) : l.getD i d < b := by
  rw [List.getD_eq_getElem?_getD]
  cases hi : l[i]? with
  | none => exact hd
  | some x => exact hl x (List.mem_of_getElem? hi)

theorem reguReset_lt (part word : Nat) : reguReset part word < 2 ^ 32 := by
  unfold reguReset
  split <;> exact getD_lt (by decide) (by decide) _

theorem regReset_lt (a : Nat) : regReset a < 2 ^ 32 := by
  have hflood : ∀ k, floodDefault k < 4294967296 := floodDefault_lt
  have hregu : ∀ part word, reguReset part word < 4294967296 := reguReset_lt
  unfold regReset
  dsimp only
  (repeat' split) <;> simp [hflood, hregu]

theorem State.reset_rg (a : Nat) : State.reset.rg a = regReset a := by
  have hread : State.reset.rg a = regReset (homeAddr a) % 2 ^ 32 := rfl
  rw [hread, regReset_homeAddr, Nat.mod_eq_of_lt (regReset_lt a)]

end Sys2Proof.Machine

open Sys2Proof Sys2Proof.Machine

/-- Settles O1: step looks at the front of the queue, which setPending has put there. -/
theorem stepRunsFrontCommand : Obligations.StepRunsFrontCommand :=
  fun _ _ _ => rfl

/-- Settles O2: the frame of a nanosecond, and the clock that the running device sets. -/
theorem emptyQueuePassesTime : Obligations.EmptyQueuePassesTime := by
  intro s hq
  refine ⟨s.tick, step_of_pending_nil hq, ?_, s.tick_frame, s.tick_mode, fun hstop => ?_, State.tick_ltb⟩
  · exact (s.tick_frame .pending (by decide)).trans hq
  · rw [State.tick_of_stopped hstop]
    split <;> simp

/-- Settles O3: every field is at its reset value by definition; a register that nothing has written reads as its reset value, which a
replicated page's copies share. -/
theorem resetState : Obligations.ResetState := by
  refine ⟨⟨rfl, rfl⟩, rfl, rfl, rfl, rfl, rfl, rfl, rfl, fun n q => ?_, fun n f => ?_, rfl, rfl, rfl, State.reset_rg, rfl⟩
  · rw [State.ctx_reset, Ctx.queue_reset]
    exact ⟨rfl, rfl⟩
  · rw [State.ctx_reset]
    exact BitVec.getLsbD_zero

/-- Settles O4: every command but a register write goes on, and that one is refused by writeWords alone. -/
theorem onlyReservedWritesStop : Obligations.OnlyReservedWritesStop := fun c s =>
  (exec_goes_or_refused c s).imp_left fun ⟨t, ht, _⟩ => ⟨t, ht⟩

/-- Settles O5: what every command keeps includes the queue. -/
theorem commandsLeaveTheQueue : Obligations.CommandsLeaveTheQueue :=
  fun _ _ _ h => (keeps_of_exec h).1

/-- Settles O6: a nanosecond leaves the memories alone, and every command keeps their form. -/
theorem stepKeepsMemoryForm : Obligations.StepKeepsMemoryForm := by
  intro s t hs ht
  cases hq : s.pending with
  | nil =>
    rw [step_of_pending_nil hq] at ht
    obtain rfl := Host.Outcome.next.inj ht
    exact (keeps_of_mem_eq State.tick_mem).2 hs
  | cons c r =>
    rw [step_of_pending_cons hq] at ht
    exact (keeps_of_exec ht).2 hs

/-- Settles O7: the frame of each meaning, in the parts that footprint lists for it. -/
theorem commandsKeepTheirFootprint : Obligations.CommandsKeepTheirFootprint :=
  fun c s t h => exec_only c s t h

end

section
/-! PROOFS. Walk programs: scalar instructions and ARG, branches, END and EMIT, pass queues, the library (R112 to R122). -/

namespace Sys2Proof.Machine

/-! ## Parts that an operation leaves -/

section
variable {fs : List Part} {s t : State}

theorem ctx_of_only (h : Only fs s t) (hp : Part.ctx0 ∉ fs ∧ Part.ctx1 ∉ fs) (n : Nat) : t.ctx n = s.ctx n := by
  have h0 : t.ctx0 = s.ctx0 := h .ctx0 hp.1
  have h1 : t.ctx1 = s.ctx1 := h .ctx1 hp.2
  rw [State.ctx, State.ctx, h0, h1]

theorem squad_of_only (h : Only fs s t) (hp : Part.squads ∉ fs) (n : Nat) : t.squad n = s.squad n :=
  congrArg (fun x => tget Squad.reset x n) (h .squads hp)

theorem link_of_only (h : Only fs s t) (hp : Part.links ∉ fs) (n : Nat) : t.link n = s.link n :=
  congrArg (fun x => tget Link.reset x n) (h .links hp)

theorem rg_of_only (h : Only fs s t) (hp : Part.regs ∉ fs) (a : Nat) : t.rg a = s.rg a :=
  congrArg (fun x : Tbl Word => (tget (BitVec.ofNat 32 (regReset (homeAddr a))) x (homeAddr a)).toNat) (h .regs hp)

end

/-! ## Registers of a walker -/

namespace Walker
variable {k : Walker} {d : WReg} {v : W64}

/-- A write to a writable register changes the general registers or the counts alone; the register reads what it keeps of the value, and
every other reads as before. -/
theorem wr_of_writable (h : regWritable d = true) : ∃ g count, k.wr d v = some { k with g := g, count := count } ∧
    ({ k with g := g, count := count } : Walker).rd d = regKept d v ∧
    ∀ e, e ≠ d → ({ k with g := g, count := count } : Walker).rd e = k.rd e := by
  cases d with
  | g n =>
    refine ⟨tset 0 k.g n v, k.count, rfl, tget_tset_self .., fun e he => ?_⟩
    cases e with
    | g m => exact tget_tset_ne _ _ _ _ _ fun hm => he (congrArg WReg.g hm)
    | count _ | remain _ | index _ => rfl
  | count l =>
    refine ⟨k.g, tset 0 k.count l (v.truncate 32), rfl, congrArg (BitVec.zeroExtend 64) (tget_tset_self ..), fun e he => ?_⟩
    cases e with
    | count m => exact congrArg (BitVec.zeroExtend 64) (tget_tset_ne _ _ _ _ _ fun hm => he (congrArg WReg.count hm))
    | g _ | remain _ | index _ => rfl
  | remain _ | index _ => cases h

theorem wr_of_not_writable (h : regWritable d = false) : k.wr d v = none := by
  cases d with
  | g _ | count _ => cases h
  | remain _ | index _ => rfl

end Walker

/-- What a register keeps of a 32-bit note is the note. -/
theorem regKept_zeroExtend (d : WReg) (v : Word) : regKept d (v.zeroExtend 64) = v.zeroExtend 64 := by
  cases d with
  | count _ => simp [regKept]
  | g _ | remain _ | index _ => rfl

/-! ## Scalar instructions -/

section
variable {s : State} {sq w : Nat} {k : Walker} {d a b : WReg}

theorem State.walkScalar_done (s : State) (sq w : Nat) (k : Walker) (d : WReg) (v : W64) :
    ScalarDone s sq w k d v (.next (s.walkScalar sq w d v k)) := by
  unfold ScalarDone State.walkScalar
  cases hd : regWritable d with
  | true =>
    obtain ⟨g, count, hwr, hreads⟩ := Walker.wr_of_writable (k := k) (v := v) hd
    rw [if_pos rfl, hwr]
    exact ⟨g, count, rfl, hreads⟩
  | false =>
    rw [if_neg Bool.false_ne_true, Walker.wr_of_not_writable hd]

/-- An instruction whose command writes a scalar result is done as ScalarDone says. -/
theorem scalarDone_of_exec {v : W64} {r : Res} (h : r = .next (s.walkScalar sq w d v k)) : ScalarDone s sq w k d v r :=
  h ▸ s.walkScalar_done sq w k d v

theorem exec_walkAdd (h : s.curWalk sq w = some (k, .add d a b)) :
    exec (.walkAdd sq w) s = .next (s.walkScalar sq w d (k.rd a + k.rd b) k) := by
  change execWalkAdd sq w s = _
  rw [execWalkAdd, h]

theorem exec_walkSub (h : s.curWalk sq w = some (k, .sub d a b)) :
    exec (.walkSub sq w) s = .next (s.walkScalar sq w d (k.rd a - k.rd b) k) := by
  change execWalkSub sq w s = _
  rw [execWalkSub, h]

theorem exec_walkMul (h : s.curWalk sq w = some (k, .mul d a b)) :
    exec (.walkMul sq w) s = .next (s.walkScalar sq w d (k.rd a * k.rd b) k) := by
  change execWalkMul sq w s = _
  rw [execWalkMul, h]

theorem exec_walkAnd (h : s.curWalk sq w = some (k, .and d a b)) :
    exec (.walkAnd sq w) s = .next (s.walkScalar sq w d (k.rd a &&& k.rd b) k) := by
  change execWalkAnd sq w s = _
  rw [execWalkAnd, h]

theorem exec_walkOr (h : s.curWalk sq w = some (k, .or d a b)) :
    exec (.walkOr sq w) s = .next (s.walkScalar sq w d (k.rd a ||| k.rd b) k) := by
  change execWalkOr sq w s = _
  rw [execWalkOr, h]

theorem exec_walkXor (h : s.curWalk sq w = some (k, .xor d a b)) :
    exec (.walkXor sq w) s = .next (s.walkScalar sq w d (k.rd a ^^^ k.rd b) k) := by
  change execWalkXor sq w s = _
  rw [execWalkXor, h]

theorem exec_walkShl (h : s.curWalk sq w = some (k, .shl d a b)) :
    exec (.walkShl sq w) s = .next (s.walkScalar sq w d (walkShiftOf true (k.rd a) (k.rd b)) k) := by
  change execWalkShl sq w s = _
  rw [execWalkShl, h]

theorem exec_walkShr (h : s.curWalk sq w = some (k, .shr d a b)) :
    exec (.walkShr sq w) s = .next (s.walkScalar sq w d (walkShiftOf false (k.rd a) (k.rd b)) k) := by
  change execWalkShr sq w s = _
  rw [execWalkShr, h]

theorem exec_walkMin (h : s.curWalk sq w = some (k, .min d a b)) :
    exec (.walkMin sq w) s = .next (s.walkScalar sq w d (if (k.rd a).toNat ≤ (k.rd b).toNat then k.rd a else k.rd b) k) := by
  change execWalkMin sq w s = _
  rw [execWalkMin, h]

theorem exec_walkMax (h : s.curWalk sq w = some (k, .max d a b)) :
    exec (.walkMax sq w) s = .next (s.walkScalar sq w d (if (k.rd a).toNat ≤ (k.rd b).toNat then k.rd b else k.rd a) k) := by
  change execWalkMax sq w s = _
  rw [execWalkMax, h]

theorem exec_walkCmp {r : WRel} (h : s.curWalk sq w = some (k, .cmp r d a b)) :
    exec (.walkCmp sq w) s = .next (s.walkScalar sq w d (if walkRel r (k.rd a) (k.rd b) then 1 else 0) k) := by
  change execWalkCmp sq w s = _
  rw [execWalkCmp, h]

theorem exec_walkSel {c : WReg} (h : s.curWalk sq w = some (k, .sel d c a b)) :
    exec (.walkSel sq w) s = .next (s.walkScalar sq w d (if k.rd c = 0 then k.rd b else k.rd a) k) := by
  have hsel : (if k.rd c = 0 then k.rd b else k.rd a) = if k.rd c != 0 then k.rd a else k.rd b := by
    by_cases hc : k.rd c = 0 <;> simp [hc]
  rw [hsel]
  change execWalkSel sq w s = _
  rw [execWalkSel, h]

theorem exec_walkMov (h : s.curWalk sq w = some (k, .mov d a)) :
    exec (.walkMov sq w) s = .next (s.walkScalar sq w d (k.rd a) k) := by
  change execWalkMov sq w s = _
  rw [execWalkMov, h]

theorem exec_walkArg {i : Nat} {v : W64} (h : s.curWalk sq w = some (k, .arg d i)) (hv : k.args[i]? = some v) :
    exec (.walkArg sq w) s = .next (s.walkScalar sq w d v k) := by
  change execWalkArg sq w s = _
  rw [execWalkArg, h]
  dsimp only
  rw [hv]

theorem exec_walkArg_free {i : Nat} (h : s.curWalk sq w = some (k, .arg d i)) (hv : k.args[i]? = none) :
    exec (.walkArg sq w) s = .next ((s.setFree (s.free + 1)).walkScalar sq w d (Config.freeValue s.free) k) := by
  change execWalkArg sq w s = _
  rw [execWalkArg, h]
  dsimp only
  rw [hv]
  rfl

theorem walkShiftOf_left {x n : W64} (h : n.toNat < 64) : walkShiftOf true x n = x <<< n.toNat := if_pos h

theorem walkShiftOf_right {x n : W64} (h : n.toNat < 64) : walkShiftOf false x n = x >>> n.toNat := if_pos h

/-! ## Branches, END and EMIT -/

theorem exec_walkBr {p : Nat} (h : s.curWalk sq w = some (k, .br p)) : exec (.walkBr sq w) s = .next (s.setWalker sq w { k with pc := p }) := by
  change execWalkBr sq w s = _
  rw [execWalkBr, h]

theorem exec_walkBrc {c : WReg} {p : Nat} (h : s.curWalk sq w = some (k, .brc c p)) :
    exec (.walkBrc sq w) s = .next (s.setWalker sq w (if k.rd c != 0 then { k with pc := p } else k.adv)) := by
  change execWalkBrc sq w s = _
  rw [execWalkBrc, h]

theorem exec_walkEnd (h : s.curWalk sq w = some (k, .done)) : exec (.walkEnd sq w) s = .next (s.setWalker sq w k.finish) := by
  change execWalkEnd sq w s = _
  rw [execWalkEnd, h]

/-- A walker that has ended with nothing dealt to it. -/
theorem Walker.finish_of_none (h : k.next = []) : k.finish = { k with state := .ended } := by
  rw [finish, h]

theorem Walker.finish_of_next {j : WJob} {r : List WJob} (h : k.next = j :: r) : k.finish = { k.begin_ j with next := r } := by
  rw [finish, h]

/-- A walker that begins an item reads zero from every register. -/
theorem Walker.rd_begin (j : WJob) (r : List WJob) (d : WReg) : ({ k.begin_ j with next := r } : Walker).rd d = 0 := by
  cases d <;> rfl

/-- The record that an EMIT forms (R113). -/
def Walker.record (k : Walker) (write : Bool) (a l x : WReg) (tg : WTarget) (part : Nat) (y : EmitArgs) : StreamRec :=
  { ctx := k.ctx, seq := k.seq, item := k.item, write := write, addr := k.rd a, len := k.rd l, aux := k.rd x,
    pool := (match tg with | .mem => none | .pool p h => some (p, (k.rd h).toNat)), part := part, x := y,
    index := y.index.map k.rd, stat := y.stat.map k.rd, note := (y.note.map fun r => (k.rd r).truncate 32).getD 0 }

section
variable {write : Bool} {l x : WReg} {tg : WTarget} {part : Nat} {y : EmitArgs}

theorem exec_walkEmit_sanity (h : s.curWalk sq w = some (k, .emit write a l x tg part y))
    (hok : s.emitOk sq w k write (k.rd a) (k.rd l) (k.rd x) tg part = false) : exec (.walkEmit sq w) s = .next (s.walkSanity sq w) := by
  change execWalkEmit sq w s = _
  rw [execWalkEmit, h]
  simp [hok]

theorem exec_walkEmit_full (h : s.curWalk sq w = some (k, .emit write a l x tg part y))
    (hok : s.emitOk sq w k write (k.rd a) (k.rd l) (k.rd x) tg part = true) (hfull : 32 ≤ (tget [] (s.squad sq).fifo w).length) :
    exec (.walkEmit sq w) s = .next (s.setWalker sq w { k with state := .fifoFull }) := by
  change execWalkEmit sq w s = _
  rw [execWalkEmit, h]
  simp [hok, hfull]

theorem exec_walkEmit_room (h : s.curWalk sq w = some (k, .emit write a l x tg part y))
    (hok : s.emitOk sq w k write (k.rd a) (k.rd l) (k.rd x) tg part = true) (hroom : (tget [] (s.squad sq).fifo w).length < 32) :
    exec (.walkEmit sq w) s =
      .next ((s.modSquad sq fun q => { q with fifo := tset [] q.fifo w (tget [] (s.squad sq).fifo w ++ [k.record write a l x tg part y]) }).setWalker
        sq w { k.adv with state := .running }) := by
  change execWalkEmit sq w s = _
  rw [execWalkEmit, h]
  simp only [hok, Bool.not_true, Bool.false_eq_true, if_false, if_neg (Nat.not_le.mpr hroom)]
  rfl

end

theorem State.setWalker_squad_ne {m : Nat} (h : m ≠ sq) : (s.setWalker sq w k).squad m = s.squad m :=
  State.squad_modSquad_ne _ _ _ _ h

theorem State.setWalker_squad : (s.setWalker sq w k).squad sq = { s.squad sq with walkers := tins w k (s.squad sq).walkers, turn := w } :=
  State.squad_modSquad_self ..

end

/-! ## Pass queues -/

section
variable {s : State} {sq w q : Nat} {k : Walker} {v : PassQ} {h note : WReg}

theorem exec_walkPush (hcur : s.curWalk sq w = some (k, .push q h note)) (hq : s.passQ sq k.ctx q = some v) :
    exec (.walkPush sq w) s = .next (if v.plan.producer = .walker w then
      (s.setPassQ sq k.ctx q { v with entries := v.entries ++ [((k.rd h).toNat, (k.rd note).truncate 32)] }).setWalker sq w k.adv
      else s.walkSanity sq w) := by
  change execWalkPush sq w s = _
  rw [execWalkPush, hcur]
  dsimp only
  rw [hq]
  by_cases hp : v.plan.producer = .walker w <;> simp [hp]

theorem exec_walkPop (hcur : s.curWalk sq w = some (k, .pop q h note)) (hq : s.passQ sq k.ctx q = some v) :
    exec (.walkPop sq w) s = .next (if v.plan.consumer ≠ .walker w then s.walkSanity sq w
      else if v.entries = [] then s.setWalker sq w { k with state := .pop q h note } else s.popInto sq w q v h note k) := by
  change execWalkPop sq w s = _
  rw [execWalkPop, hcur]
  dsimp only
  rw [hq]
  by_cases hc : v.plan.consumer = .walker w <;> by_cases he : v.entries = [] <;> simp [hc, he]

theorem exec_popWake (hq : s.passQ sq k.ctx q = some v) (hw : popWaiter (s.squad sq).walkers k.ctx q = some (w, k, h, note)) :
    exec (.popWake sq k.ctx q) s = .next (s.popInto sq w q v h note k) := by
  change execPopWake sq k.ctx q s = _
  rw [execPopWake, hq, hw]

section
variable {e : Nat × Word} {r : List (Nat × Word)}

theorem State.popInto_of_not_writable (he : v.entries = e :: r) (hreg : regWritable h = false ∨ regWritable note = false) :
    s.popInto sq w q v h note k = s.walkSanity sq w := by
  have hnone : ((k.wr h (BitVec.ofNat 64 e.1)).bind fun k' => k'.wr note (e.2.zeroExtend 64)) = none := by
    obtain hh | hn := hreg
    · rw [Walker.wr_of_not_writable hh, Option.bind_none]
    · cases k.wr h (BitVec.ofNat 64 e.1) with
      | none => rfl
      | some k' => exact Walker.wr_of_not_writable hn
  rw [State.popInto, he]
  dsimp only
  rw [hnone]

/-- The entry that stands first goes to the two registers, the note after the handle. -/
theorem State.popInto_of_writable (s : State) (sq w q : Nat) (k : Walker) (he : v.entries = e :: r) (hh : regWritable h = true) (hn : regWritable note = true) :
    ∃ g count, s.popInto sq w q v h note k =
        (s.setPassQ sq k.ctx q { v with entries := r }).setWalker sq w { k with g := g, count := count, pc := k.pc + 1, state := .running } ∧
      (h ≠ note → ({ k with g := g, count := count } : Walker).rd h = regKept h (BitVec.ofNat 64 e.1)) ∧
      ({ k with g := g, count := count } : Walker).rd note = e.2.zeroExtend 64 ∧
      ∀ x, x ≠ h → x ≠ note → ({ k with g := g, count := count } : Walker).rd x = k.rd x := by
  obtain ⟨g1, count1, hwr1, hself1, hother1⟩ := Walker.wr_of_writable (k := k) (v := BitVec.ofNat 64 e.1) hh
  obtain ⟨g, count, hwr, hself, hother⟩ := Walker.wr_of_writable (k := { k with g := g1, count := count1 }) (v := e.2.zeroExtend 64) hn
  refine ⟨g, count, ?_, fun hne => (hother h hne).trans hself1, hself.trans (regKept_zeroExtend note e.2), fun x hx hxn => ?_⟩
  · rw [State.popInto, he]
    dsimp only
    rw [hwr1, Option.bind_some, hwr]
    rfl
  · exact (hother x hxn).trans (hother1 x hx)

end

end

/-! ## The library -/

theorem State.planPools_ctx (s : State) (n : Nat) (first : Bool) (m : Nat) : (s.planPools n first).ctx m = s.ctx m :=
  ctx_of_only ((State.planPools_only (ps := [.squads]) (by decide) n first).mpr .refl) (by decide) m

end Sys2Proof.Machine

open Sys2Proof Sys2Proof.Machine

/-- Settles O8: each command is walkScalar of its result, whose effect walkScalar_done states. -/
theorem walkScalarsWriteTheirResult : Obligations.WalkScalarsWriteTheirResult := by
  intro s sq w k d a b
  refine ⟨fun h => ?add, fun h => ?sub, fun h => ?mul, fun h => ?and, fun h => ?or, fun h => ?xor, fun h hn => ?shl, fun h hn => ?shr,
    fun h _ => ?shlFar, fun h _ => ?shrFar, fun h => ?min, fun h => ?max, fun r h => ?cmp, fun c h => ?sel, fun h => ?mov, fun v h => ?movi,
    fun i v h hv => ?arg, fun i h hv => ?argFree⟩
  case add => exact scalarDone_of_exec (exec_walkAdd h)
  case sub => exact scalarDone_of_exec (exec_walkSub h)
  case mul => exact scalarDone_of_exec (exec_walkMul h)
  case and => exact scalarDone_of_exec (exec_walkAnd h)
  case or => exact scalarDone_of_exec (exec_walkOr h)
  case xor => exact scalarDone_of_exec (exec_walkXor h)
  case shl => exact walkShiftOf_left hn ▸ scalarDone_of_exec (exec_walkShl h)
  case shr => exact walkShiftOf_right hn ▸ scalarDone_of_exec (exec_walkShr h)
  case shlFar => exact ⟨_, scalarDone_of_exec (exec_walkShl h)⟩
  case shrFar => exact ⟨_, scalarDone_of_exec (exec_walkShr h)⟩
  case min => exact scalarDone_of_exec (exec_walkMin h)
  case max => exact scalarDone_of_exec (exec_walkMax h)
  case cmp => exact scalarDone_of_exec (exec_walkCmp h)
  case sel => exact scalarDone_of_exec (exec_walkSel h)
  case mov => exact scalarDone_of_exec (exec_walkMov h)
  case movi => exact scalarDone_of_exec (exec_walkMovi h)
  case arg => exact scalarDone_of_exec (exec_walkArg h hv)
  case argFree => exact ⟨_, scalarDone_of_exec (exec_walkArg_free h hv)⟩

/-- Settles O10: a branch sets the position, END gives the walker its next item, and an EMIT that passes its check puts Walker.record behind
the FIFO's records while there is room. -/
theorem walkBranchesAndEmits : Obligations.WalkBranchesAndEmits := by
  refine ⟨fun s sq w k => ⟨fun p h => exec_walkBr h, fun c p h hc => ?taken, fun c p h hc => ?through, fun h hnext => ?ended, fun j r h hnext => ?next⟩,
    fun s sq w k write a l x tg part y h => ⟨fun hok hroom => ?room, fun hok hfull => exec_walkEmit_full h hok hfull, fun hok => exec_walkEmit_sanity h hok⟩⟩
  case taken => rw [exec_walkBrc h, if_pos (bne_iff_ne.mpr hc)]
  case through => rw [exec_walkBrc h, if_neg (by simpa using hc), Walker.adv]
  case ended => rw [exec_walkEnd h, Walker.finish_of_none hnext]
  case next =>
    refine ⟨{ k.begin_ j with next := r }, ?_, rfl, rfl, rfl, rfl, rfl, rfl, rfl, rfl, rfl, Walker.rd_begin j r⟩
    rw [exec_walkEnd h, Walker.finish_of_next hnext]
  case room =>
    refine ⟨_, k.record write a l x tg part y, exec_walkEmit_room h hok hroom, ?_, rfl, rfl, rfl, rfl, rfl, rfl, rfl, rfl, rfl, rfl, rfl, rfl, ?_, ?_,
      fun v hv => ⟨?_, ?_⟩, fun m hm => ?_, by simp⟩
    · rw [State.setWalker_squad, State.squad_modSquad_self, tget_tset_self]
    · cases hnote : y.note <;> simp [Walker.record, hnote]
    · rw [State.setWalker_squad, tget_tins_self]
      rfl
    · rw [State.setWalker_squad, State.squad_modSquad_self, tget_tset_ne _ _ _ _ _ hv]
    · rw [State.setWalker_squad, State.squad_modSquad_self, tget_tins_ne _ _ _ _ _ hv]
    · rw [State.setWalker_squad_ne hm, State.squad_modSquad_ne _ _ _ _ hm]

/-- Settles O12: PUSH puts its entry last, POP and POP_WAKE take the first one by popInto. -/
theorem passQueuesAreFirstInFirstOut : Obligations.PassQueuesAreFirstInFirstOut := by
  intro s sq w q k v h note hq
  refine ⟨fun hcur hp => ?push, fun hcur hp => ?pushOther, fun hcur hc => ?popOther, fun hcur hc he => ?wait, fun e r he hreg => ⟨fun hcur hc => ?popBad, fun hw => ?wakeBad⟩,
    fun e r he hh hn => ⟨fun ⟨hcur, hc⟩ => ?pop, fun hw => ?wake⟩⟩
  case push => rw [exec_walkPush hcur hq, if_pos hp]
  case pushOther => rw [exec_walkPush hcur hq, if_neg hp]
  case popOther => rw [exec_walkPop hcur hq, if_pos hc]
  case wait => rw [exec_walkPop hcur hq, if_neg (not_not.mpr hc), if_pos he]
  case popBad => rw [exec_walkPop hcur hq, if_neg (not_not.mpr hc), if_neg (by simp [he]), State.popInto_of_not_writable he hreg]
  case wakeBad => rw [exec_popWake hq hw, State.popInto_of_not_writable he hreg]
  case pop =>
    obtain ⟨g, count, hpop, hreads⟩ := s.popInto_of_writable sq w q k he hh hn
    refine ⟨g, count, ?_, hreads⟩
    rw [exec_walkPop hcur hq, if_neg (not_not.mpr hc), if_neg (by simp [he]), hpop]
  case wake =>
    obtain ⟨g, count, hpop, hreads⟩ := s.popInto_of_writable sq w q k he hh hn
    exact ⟨g, count, (exec_popWake hq hw).trans (congrArg _ hpop), hreads⟩

/-- Settles O14: the load check comes first, and the library taken is the context's while the pools and queues take their plans. -/
theorem walkLibraryIsChecked : Obligations.WalkLibraryIsChecked := by
  intro s n r
  refine ⟨fun hok huse => ⟨?taken, ?lib⟩, fun hok huse => ?wait, fun hok => ?refused, fun hok e he => ?sizes⟩
  case taken =>
    change execWalkLibraryLoad n r s = _
    simp [execWalkLibraryLoad, hok, huse]
  case lib => rw [State.takeLib, State.planPools_ctx, State.ctx_modCtx_self]
  case wait =>
    change execWalkLibraryLoad n r s = _
    simp [execWalkLibraryLoad, hok, huse]
  case refused =>
    change execWalkLibraryLoad n r s = _
    simp [execWalkLibraryLoad, hok]
  case sizes =>
    simp only [walkLibOk, Bool.and_eq_true, List.all_eq_true, decide_eq_true_eq] at hok
    obtain ⟨⟨⟨hprograms, -⟩, -⟩, -⟩ := hok
    obtain ⟨⟨hsize, -⟩, -⟩ := hprograms e he
    exact hsize

end

section
/-! PROOFS. The pools of a squad (R123, R124): the conditions under which handles are granted, the walker that is served next, and the
cover of the streams' unfilled reserves. -/

namespace Sys2Proof.Machine

/-! ## Sums over streams -/

namespace Pool
variable (pl : Pool)

theorem deficits_eq : pl.deficits = (pl.streams.map fun t => t.reserve - t.charged.length).sum := List.sum_eq_foldl.symm

theorem deficitsBut_eq (id : Nat) : pl.deficitsBut id = ((pl.streams.filter (·.id ≠ id)).map fun t => t.reserve - t.charged.length).sum := by
  rw [deficitsBut, ← List.sum_eq_foldl]
  have hfilter : (pl.streams.filter fun t => t.id != id) = pl.streams.filter (·.id ≠ id) := List.filter_congr fun t _ => by simp [bne, decide_not, beq_eq_decide]
  rw [hfilter]
  rfl

theorem reserves_eq : pl.reserves = (pl.streams.map (·.reserve)).sum := List.sum_eq_foldl.symm

variable {pl}

theorem id_of_stream {id : Nat} {t : Stream} (h : pl.stream id = some t) : t.id = id := by
  simpa using List.find?_some h

theorem mem_of_stream {id : Nat} {t : Stream} (h : pl.stream id = some t) : t ∈ pl.streams := List.mem_of_find?_eq_some h

/-! ## The conditions of R124 -/

theorem canAttach_iff {id r : Nat} :
    pl.canAttach id r = true ↔ r + (pl.streams.map fun t => t.reserve - t.charged.length).sum ≤ pl.free.length ∧ pl.streams.length < 8 ∧ pl.stream id = none := by
  simp [canAttach, deficits_eq, and_assoc]

theorem badAttach_iff {r c : Nat} :
    pl.badAttach r c = true ↔ pl.plan.buffers < (pl.streams.map (·.reserve)).sum + r ∨ r < 2 ∨ c < r ∨ pl.plan.buffers < c := by
  simp [badAttach, reserves_eq, or_assoc]

theorem canAcquire_iff {t : Stream} :
    pl.canAcquire t = true ↔ pl.free ≠ [] ∧ (t.charged.length < t.reserve ∨ (t.charged.length < t.ceiling ∧
      ((pl.streams.filter (·.id ≠ t.id)).map fun u => u.reserve - u.charged.length).sum < pl.free.length)) := by
  rw [canAcquire, deficitsBut_eq]
  simp only [Bool.and_eq_true, Bool.or_eq_true, decide_eq_true_eq, Bool.not_eq_true', List.isEmpty_eq_false_iff]

/-- A granted ACQUIRE takes the first free handle. -/
theorem acquire_eq {id h : Nat} {r : List Nat} {t : Stream} (hfree : pl.free = h :: r) (ht : pl.stream id = some t) :
    pl.acquire id = { pl with free := r, last := if t.charged.length < t.reserve then pl.last else id,
                              streams := pl.streams.map fun u => if u.id = id then { u with charged := u.charged ++ [h] } else u } := by
  have hlast : (if (pl.stream id).any Stream.shared = true then id else pl.last) = if t.charged.length < t.reserve then pl.last else id := by
    rw [ht]
    by_cases hl : t.charged.length < t.reserve
    · simp [Stream.shared, hl, Nat.not_le.mpr hl]
    · simp [Stream.shared, hl, Nat.not_lt.mp hl]
  rw [acquire, hfree]
  dsimp only
  rw [hlast]

/-! ## RELEASE -/

/-- The keys of a table after an insertion. -/
theorem map_fst_tins {α : Type} (k : Nat) (v : α) (t : Tbl α) (q : Nat) : q ∈ (tins k v t).map (·.1) ↔ q = k ∨ q ∈ t.map (·.1) := by
  induction t with
  | nil => simp [tins]
  | cons e r ih =>
    obtain ⟨i, w⟩ := e
    unfold tins
    split_ifs with hlt heq
    · simp
    · simp [heq]
    · rw [List.map_cons, List.mem_cons, ih, List.map_cons, List.mem_cons]
      exact or_left_comm

theorem mem_free_release {h q : Nat} : q ∈ (pl.release h).free ↔ q ∈ pl.free ∨ (q = h ∧ ∃ t ∈ pl.streams, h ∈ t.charged) := by
  unfold release
  split_ifs with hc
  · have hheld : ∃ t ∈ pl.streams, h ∈ t.charged := by simpa using hc
    rw [map_fst_tins, List.map_map]
    simp [hheld, or_comm]
  · have hfree : ¬ ∃ t ∈ pl.streams, h ∈ t.charged := by simpa using hc
    simp [hfree]

/-- No stream holds a handle that has been released. -/
theorem not_mem_charged_release {h : Nat} {t : Stream} (ht : t ∈ (pl.release h).streams) : h ∉ t.charged := by
  unfold release at ht
  split_ifs at ht with hc
  · obtain ⟨u, -, rfl⟩ := List.mem_map.mp ht
    simp
  · intro hh
    exact hc (List.any_eq_true.mpr ⟨t, ht, by simpa using hh⟩)

/-! ## The cover of the unfilled reserves -/

theorem attach_covered {k : Walker} {id r c part : Nat} (h : pl.canAttach id r = true) :
    (pl.attach k id r c part).deficits ≤ (pl.attach k id r c part).free.length := by
  obtain ⟨hroom, -, -⟩ := canAttach_iff.mp h
  rw [deficits_eq]
  simp only [attach, List.map_append, List.map_cons, List.map_nil, List.sum_append, List.sum_cons, List.sum_nil, List.length_nil]
  omega

/-- Detaching leaves a sublist of the streams. -/
theorem detach_covered {id : Nat} (h : pl.deficits ≤ pl.free.length) : (pl.detach id).deficits ≤ (pl.detach id).free.length := by
  rw [deficits_eq] at h ⊢
  exact (List.Sublist.sum_le_sum (List.filter_sublist.map _) fun _ _ => Nat.zero_le _).trans h

end Pool

/-- The sum over a list with distinct keys, by the one entry of a key and the rest. -/
theorem sum_map_eq_add_filter {l : List Stream} {t : Stream} (f : Stream → Nat) (ht : t ∈ l) (hnodup : (l.map (·.id)).Nodup) :
    (l.map f).sum = f t + ((l.filter (·.id ≠ t.id)).map f).sum := by
  induction l with
  | nil => cases ht
  | cons x r ih =>
    obtain ⟨hx, hr⟩ := List.nodup_cons.mp hnodup
    obtain rfl | ht := List.mem_cons.mp ht
    · have hrest : r.filter (·.id ≠ t.id) = r := List.filter_eq_self.mpr fun y hy => by
        simpa using fun he : y.id = t.id => hx (List.mem_map.mpr ⟨y, hy, he⟩)
      rw [List.filter_cons_of_neg (by simp), hrest, List.map_cons, List.sum_cons]
    · have hne : x.id ≠ t.id := fun he => hx (List.mem_map.mpr ⟨t, ht, he.symm⟩)
      rw [List.filter_cons_of_pos (by simpa using hne), List.map_cons, List.sum_cons, List.map_cons, List.sum_cons, ih ht hr]
      omega

namespace Pool
variable {pl : Pool}

/-- A grant takes a handle; it fills a place of the stream's reserve, or the others' unfilled reserves leave it. -/
theorem acquire_covered {t : Stream} (hcover : pl.deficits ≤ pl.free.length) (ht : pl.stream t.id = some t) (hnodup : (pl.streams.map (·.id)).Nodup)
    (hcan : pl.canAcquire t = true) : (pl.acquire t.id).deficits ≤ (pl.acquire t.id).free.length := by
  obtain ⟨hfree, hgrant⟩ := canAcquire_iff.mp hcan
  obtain ⟨h, r, hcons⟩ := List.exists_cons_of_ne_nil hfree
  let g : Stream → Stream := fun u => if u.id = t.id then { u with charged := u.charged ++ [h] } else u
  have hg (u : Stream) : (g u).id = u.id := by
    dsimp only [g]
    split <;> rfl
  have hrest : (((pl.streams.map g).filter (·.id ≠ t.id)).map fun u => u.reserve - u.charged.length) =
      (pl.streams.filter (·.id ≠ t.id)).map fun u => u.reserve - u.charged.length := by
    rw [List.filter_map, List.map_map]
    have hsame : ((fun u : Stream => decide (u.id ≠ t.id)) ∘ g) = fun u => decide (u.id ≠ t.id) := funext fun u => by simp [hg]
    rw [hsame]
    refine List.map_congr_left fun u hu => ?_
    have hne : u.id ≠ t.id := by simpa using (List.mem_filter.mp hu).2
    simp [g, hne]
  have hids : ((pl.streams.map g).map (·.id)).Nodup := by
    rw [List.map_map]
    exact (List.map_congr_left fun u _ => hg u) ▸ hnodup
  have hmem := mem_of_stream ht
  have hbefore := sum_map_eq_add_filter (fun u => u.reserve - u.charged.length) hmem hnodup
  have hafter := sum_map_eq_add_filter (fun u => u.reserve - u.charged.length) (List.mem_map_of_mem (f := g) hmem) hids
  rw [hg, hrest] at hafter
  have hself : g t = { t with charged := t.charged ++ [h] } := if_pos rfl
  rw [hself, List.length_append, List.length_singleton] at hafter
  rw [deficits_eq, hcons, List.length_cons] at hcover
  rw [hcons, List.length_cons] at hgrant
  rw [acquire_eq hcons ht, deficits_eq]
  change ((pl.streams.map g).map fun u => u.reserve - u.charged.length).sum ≤ r.length
  dsimp only at hafter
  omega

/-- The handles of a stream without one that it holds once. -/
theorem length_filter_ne {l : List Nat} {h : Nat} (hnodup : l.Nodup) : l.length ≤ (l.filter (· != h)).length + (if h ∈ l then 1 else 0) := by
  rw [← hnodup.erase_eq_filter, List.length_erase]
  split_ifs <;> omega

/-- Over streams that share no handle, a release leaves at most one place of the reserves unfilled. -/
theorem sum_release_le {l : List Stream} {h : Nat} (hnodup : (l.flatMap (·.charged)).Nodup) :
    (l.map fun t => t.reserve - (t.charged.filter (· != h)).length).sum ≤
      (l.map fun t => t.reserve - t.charged.length).sum + (if h ∈ l.flatMap (·.charged) then 1 else 0) := by
  induction l with
  | nil => simp
  | cons t r ih =>
    obtain ⟨ht, hr, hdisj⟩ := List.nodup_append'.mp (List.flatMap_cons ▸ hnodup)
    have hone := length_filter_ne (h := h) ht
    have hrest := ih hr
    simp only [List.map_cons, List.sum_cons, List.flatMap_cons, List.mem_append]
    by_cases hh : h ∈ t.charged
    · have hr' : h ∉ r.flatMap (·.charged) := fun hm => hdisj hh hm
      rw [if_pos hh] at hone
      rw [if_neg hr'] at hrest
      rw [if_pos (.inl hh)]
      omega
    · rw [if_neg hh] at hone
      simp only [hh, false_or]
      omega

theorem length_tins_of_not_mem {α : Type} {k : Nat} {v : α} {t : Tbl α} (h : k ∉ t.map (·.1)) : (tins k v t).length = t.length + 1 := by
  induction t with
  | nil => rfl
  | cons e r ih =>
    obtain ⟨i, w⟩ := e
    obtain ⟨hi, hr⟩ : k ≠ i ∧ k ∉ r.map (·.1) := by simpa using h
    unfold tins
    split_ifs with hlt heq
    · rfl
    · exact absurd heq.symm hi
    · rw [List.length_cons, ih hr, List.length_cons]

theorem release_covered {h : Nat} (hcover : pl.deficits ≤ pl.free.length) (hnodup : (pl.streams.flatMap (·.charged)).Nodup) (hfree : h ∉ pl.free) :
    (pl.release h).deficits ≤ (pl.release h).free.length := by
  unfold release
  split_ifs with hc
  · have hsum := sum_release_le (h := h) hnodup
    have hlen : ((tins h () (pl.free.map fun x => (x, ()))).map (·.1)).length = pl.free.length + 1 := by
      rw [List.length_map, length_tins_of_not_mem (by simpa [List.map_map] using hfree), List.length_map]
    rw [deficits_eq] at hcover ⊢
    rw [List.map_map]
    have hone : (if h ∈ pl.streams.flatMap (·.charged) then 1 else 0) ≤ 1 := by split <;> omega
    dsimp only [Function.comp_def]
    omega
  · exact hcover

/-! ## The walker that is served next -/

/-- A fold that keeps what it has or takes the next entry answers an entry of the list. -/
theorem mem_of_foldl_choice {α : Type} {f : Option α → α → Option α} (hf : ∀ acc x y, f acc x = some y → y = x ∨ acc = some y) {l : List α}
    {acc : Option α} {y : α} (h : l.foldl f acc = some y) : y ∈ l ∨ acc = some y := by
  induction l generalizing acc with
  | nil => exact .inr h
  | cons x r ih =>
    obtain hy | hacc := ih h
    · exact .inl (List.mem_cons_of_mem _ hy)
    · obtain rfl | hy := hf _ _ _ hacc
      · exact .inl List.mem_cons_self
      · exact .inr hy

/-- The walker served next waits for the pool in a way that can go on. -/
theorem ready_of_nextWaiter {n p w : Nat} {ws : Tbl Walker} {k : Walker} (h : pl.nextWaiter n p ws = some (w, k)) : ∃ id, pl.ready n p k = some id := by
  have hall {x : Nat × Nat × Walker} (hx : x ∈ ws.filterMap fun e => (pl.ready n p e.2).map fun id => (id, e)) : pl.ready n p x.2.2 = some x.1 := by
    obtain ⟨e, -, he⟩ := List.mem_filterMap.mp hx
    obtain ⟨id, hid, rfl⟩ := Option.map_eq_some_iff.mp he
    exact hid
  have hrdy {x : Nat × Nat × Walker} {own : List (Nat × Nat × Walker)}
      (hx : x ∈ if own.isEmpty then ws.filterMap fun e => (pl.ready n p e.2).map fun id => (id, e) else
        (ws.filterMap fun e => (pl.ready n p e.2).map fun id => (id, e)).filter fun x => !pl.asksShared x.2.2) : pl.ready n p x.2.2 = some x.1 := by
    split_ifs at hx
    · exact hall hx
    · exact hall (List.mem_filter.mp hx).1
  unfold nextWaiter at h
  simp only [Option.orElse_eq_orElse, Option.orElse_eq_or, Option.or_eq_some_iff, Option.map_eq_some_iff] at h
  have hchoice {l : List (Nat × Nat × Walker)} {x : Nat × Nat × Walker} (hx : l.foldl (fun acc x => match acc with
      | none => some x
      | some y => if x.1 < y.1 then some x else some y) none = some x) : x ∈ l := by
    refine (mem_of_foldl_choice (fun acc x y hy => ?_) hx).resolve_right nofun
    cases acc with
    | none => exact .inl (Option.some.inj hy).symm
    | some z =>
      dsimp only at hy
      split_ifs at hy
      · exact .inl (Option.some.inj hy).symm
      · exact .inr hy
  obtain ⟨⟨id, _, _⟩, hbest, ⟨⟩⟩ | ⟨-, ⟨id, _, _⟩, hbest, ⟨⟩⟩ := h
  · exact ⟨id, hrdy (List.mem_filter.mp (hchoice hbest)).1⟩
  · exact ⟨id, hrdy (hchoice hbest)⟩

theorem ctx_of_ready {n p id : Nat} {k : Walker} (h : pl.ready n p k = some id) : k.ctx = n := by
  unfold ready at h
  split_ifs at h with hn
  simpa using hn

theorem canAttach_of_ready {n p q i id r c part : Nat} {k : Walker} (h : pl.ready n p k = some i) (hk : k.state = .attach q id r c part) :
    pl.canAttach id r = true := by
  rw [ready, hk] at h
  dsimp only at h
  split_ifs at h with hn hq
  exact hq.2

theorem canAcquire_of_ready {n p q i id : Nat} {d : WReg} {k : Walker} (h : pl.ready n p k = some i) (hk : k.state = .acquire q id d) :
    ∃ t, pl.stream id = some t ∧ pl.canAcquire t = true := by
  rw [ready, hk] at h
  dsimp only at h
  split_ifs at h with hn hq
  obtain ⟨t, ht, hcan⟩ := Option.bind_eq_some_iff.mp h
  split_ifs at hcan with hc
  exact ⟨t, ht, hc⟩

theorem uncharged_of_ready {n p q i id : Nat} {k : Walker} (h : pl.ready n p k = some i) (hk : k.state = .detach q id) :
    ∃ t, pl.stream id = some t ∧ t.charged = [] := by
  rw [ready, hk] at h
  dsimp only at h
  split_ifs at h with hn hq
  obtain ⟨t, ht, hnone⟩ := Option.bind_eq_some_iff.mp h
  split_ifs at hnone with hc
  exact ⟨t, ht, List.isEmpty_iff.mp hc⟩

end Pool

/-! ## The commands -/

section
variable {s : State} {sq w p id : Nat} {k : Walker} {pl : Pool}

theorem exec_walkAttach {rr cc : WReg} {part : Nat} (hcur : s.curWalk sq w = some (k, .attach p id rr cc part)) (hpool : s.pool sq k.ctx p = some pl) :
    exec (.walkAttach sq w) s = .next (if pl.badAttach (k.rd rr).toNat (k.rd cc).toNat then s.walkSanity sq w
      else if pl.canAttach id (k.rd rr).toNat then (s.setPool sq k.ctx p (pl.attach k id (k.rd rr).toNat (k.rd cc).toNat part)).setWalker sq w k.adv
      else s.setWalker sq w { k with state := .attach p id (k.rd rr).toNat (k.rd cc).toNat part }) := by
  change execWalkAttach sq w s = _
  rw [execWalkAttach, hcur]
  dsimp only
  rw [hpool]
  dsimp only
  split_ifs <;> rfl

theorem exec_walkDetach {t : Stream} (hcur : s.curWalk sq w = some (k, .detach p id)) (hpool : s.pool sq k.ctx p = some pl)
    (ht : pl.stream id = some t) : exec (.walkDetach sq w) s = .next (if t.charged = [] then (s.setPool sq k.ctx p (pl.detach id)).setWalker sq w k.adv
      else s.setWalker sq w { k with state := .detach p id }) := by
  change execWalkDetach sq w s = _
  rw [execWalkDetach, hcur]
  dsimp only
  rw [hpool]
  dsimp only
  rw [ht]
  simp only [List.isEmpty_iff]
  split_ifs <;> rfl

theorem exec_walkAcquire {t : Stream} {d : WReg} (hcur : s.curWalk sq w = some (k, .acquire p id d)) (hpool : s.pool sq k.ctx p = some pl)
    (ht : pl.stream id = some t) : exec (.walkAcquire sq w) s = .next (if pl.canAcquire t then s.giveHandle sq w p id pl d k
      else s.setWalker sq w { k with state := .acquire p id d }) := by
  change execWalkAcquire sq w s = _
  rw [execWalkAcquire, hcur]
  dsimp only
  rw [hpool]
  dsimp only
  rw [ht]
  dsimp only
  split_ifs <;> rfl

theorem exec_walkRelease {h : WReg} (hcur : s.curWalk sq w = some (k, .release p h)) (hpool : s.pool sq k.ctx p = some pl) :
    exec (.walkRelease sq w) s = .next ((s.setPool sq k.ctx p (pl.release (k.rd h).toNat)).setWalker sq w k.adv) := by
  change execWalkRelease sq w s = _
  rw [execWalkRelease, hcur]
  dsimp only
  rw [hpool]

variable {n : Nat}

theorem exec_poolGrant_attach {q r c part : Nat} (hpool : s.pool sq n p = some pl) (hnext : pl.nextWaiter n p (s.squad sq).walkers = some (w, k))
    (hk : k.state = .attach q id r c part) (hbad : pl.badAttach r c = false) :
    exec (.poolGrant sq n p) s = .next ((s.setPool sq n p (pl.attach k id r c part)).setWalker sq w { k.adv with state := .running }) := by
  change execPoolGrant sq n p s = _
  simp only [execPoolGrant, hpool, hnext, hk, hbad, Bool.false_eq_true, if_false]

theorem exec_poolGrant_acquire {q : Nat} {d : WReg} (hpool : s.pool sq n p = some pl) (hnext : pl.nextWaiter n p (s.squad sq).walkers = some (w, k))
    (hk : k.state = .acquire q id d) : exec (.poolGrant sq n p) s = .next (s.giveHandle sq w p id pl d k) := by
  change execPoolGrant sq n p s = _
  simp only [execPoolGrant, hpool, hnext, hk]

theorem exec_poolGrant_detach {q : Nat} (hpool : s.pool sq n p = some pl) (hnext : pl.nextWaiter n p (s.squad sq).walkers = some (w, k))
    (hk : k.state = .detach q id) :
    exec (.poolGrant sq n p) s = .next ((s.setPool sq n p (pl.detach id)).setWalker sq w { k.adv with state := .running }) := by
  change execPoolGrant sq n p s = _
  simp only [execPoolGrant, hpool, hnext, hk]

end

end Sys2Proof.Machine

open Sys2Proof Sys2Proof.Machine

/-- Settles O11: the conditions of R124 are canAttach, badAttach and canAcquire written out, and the walker that a pool serves next is one
whose request they allow. -/
theorem poolsGrantByTheirRule : Obligations.PoolsGrantByTheirRule := by
  refine ⟨fun s sq w p id k pl hpool => ⟨fun rr cc part hcur hfits hmin hmax hceil => ⟨fun hroom hcount hnew => ?granted, fun hwait => ?waits⟩,
    fun rr cc part hcur hbad => ?bad, fun t hcur ht => ⟨fun hnone => ?detached, fun hsome => ?held⟩, fun t d h r hcur ht hfree hgrant => ?acquired,
    fun t d hcur ht hrefuse => ?asks, fun hr hcur => ?released⟩, fun s sq n p w k pl hpool hnext => ?grant⟩
  case granted =>
    have hok : ¬ pl.badAttach (k.rd rr).toNat (k.rd cc).toNat = true := by
      rw [Pool.badAttach_iff]
      omega
    rw [exec_walkAttach hcur hpool, if_neg hok, if_pos (Pool.canAttach_iff.mpr ⟨hroom, hcount, hnew⟩)]
    rfl
  case waits =>
    have hok : ¬ pl.badAttach (k.rd rr).toNat (k.rd cc).toNat = true := by
      rw [Pool.badAttach_iff]
      omega
    have hcannot : ¬ pl.canAttach id (k.rd rr).toNat = true := by
      rw [Pool.canAttach_iff]
      rintro ⟨hroom, hcount, hnew⟩
      obtain hfull | hmany | ⟨t, ht⟩ := hwait
      · omega
      · omega
      · exact Option.some_ne_none t (ht.symm.trans hnew)
    rw [exec_walkAttach hcur hpool, if_neg hok, if_neg hcannot]
  case bad => rw [exec_walkAttach hcur hpool, if_pos (Pool.badAttach_iff.mpr hbad)]
  case detached => rw [exec_walkDetach hcur hpool ht, if_pos hnone]
  case held => rw [exec_walkDetach hcur hpool ht, if_neg hsome]
  case acquired =>
    have hid := Pool.id_of_stream ht
    have hcan : pl.canAcquire t = true := Pool.canAcquire_iff.mpr ⟨by simp [hfree], hid ▸ hgrant⟩
    rw [exec_walkAcquire hcur hpool ht, if_pos hcan, State.giveHandle, Pool.acquire_eq hfree ht, hfree]
    exact State.walkScalar_done ..
  case asks =>
    have hid := Pool.id_of_stream ht
    have hcannot : ¬ pl.canAcquire t = true := by
      rw [Pool.canAcquire_iff, hid]
      rintro ⟨hfree, hgrant⟩
      obtain hnone | ⟨hfull, hshared⟩ := hrefuse
      · exact hfree hnone
      · omega
    rw [exec_walkAcquire hcur hpool ht, if_neg hcannot]
  case released =>
    exact ⟨pl.release (k.rd hr).toNat, exec_walkRelease hcur hpool, fun t => Pool.not_mem_charged_release,
      fun hheld => Pool.mem_free_release.mpr (.inr ⟨rfl, hheld⟩), fun h hh => Pool.mem_free_release.mpr (.inl hh)⟩
  case grant =>
    obtain ⟨i, hready⟩ := Pool.ready_of_nextWaiter hnext
    exact ⟨Pool.ctx_of_ready hready,
      fun id r c part hk => ⟨Pool.canAttach_of_ready hready hk, exec_poolGrant_attach hpool hnext hk⟩,
      fun id d hk => ⟨Pool.canAcquire_of_ready hready hk, exec_poolGrant_acquire hpool hnext hk⟩,
      fun id hk => ⟨Pool.uncharged_of_ready hready hk, exec_poolGrant_detach hpool hnext hk⟩⟩

/-- Settles O13: operation by operation, by what each does to the sum of the unfilled reserves and to the free handles. -/
theorem poolReservesStayCovered : Obligations.PoolReservesStayCovered := fun _ hcover =>
  ⟨fun _ _ _ _ _ hcan => Pool.attach_covered hcan, fun _ ht hnodup hcan => Pool.acquire_covered hcover ht hnodup hcan,
    fun _ hnodup hfree => Pool.release_covered hcover hnodup hfree, fun _ => Pool.detach_covered hcover⟩

end

section
/-! PROOFS. The outer-product array: dealing, reload, the issue of k-steps, closing, the ladder of rungs, the drain and the tile check
(R16, R25 to R30, R41 to R43, R113). -/

namespace Sys2Proof.Machine

section
variable {α : Type} {t : Tbl α} {k q : Nat}

@[simp] theorem tfind_tdel_self : tfind (tdel k t) k = none := by
  rw [tfind, Option.map_eq_none_iff, List.find?_eq_none]
  intro e he
  simpa [tdel] using (List.mem_filter.mp he).2

theorem tfind_tdel_ne (h : q ≠ k) : tfind (tdel k t) q = tfind t q := by
  induction t with
  | nil => rfl
  | cons e r ih =>
    by_cases he : e.1 = k
    · have hne : e.1 ≠ q := fun h' => h (h'.symm.trans he)
      rw [tfind_cons, if_neg hne, ← ih, tdel, tdel, List.filter_cons_of_neg (by simpa using he)]
    · rw [tdel, List.filter_cons_of_pos (by simpa using he), tfind_cons, tfind_cons]
      split_ifs
      · rfl
      · exact ih

end

/-! ## Dealing -/

section
variable {s : State} {sq : Nat}

/-- A field of the squads that an update of one squad leaves alone. -/
theorem State.squadField_modSquad {α : Type} (g : Squad → α) {f : Squad → Squad} (hf : g (f (s.squad sq)) = g (s.squad sq)) (k : Nat) :
    g ((s.modSquad sq f).squad k) = g (s.squad k) := by
  by_cases hk : k = sq
  · rw [hk, State.squad_modSquad_self, hf]
  · rw [State.squad_modSquad_ne _ _ _ _ hk]

theorem State.modSquad_congr {f g : Squad → Squad} (h : f (s.squad sq) = g (s.squad sq)) : s.modSquad sq f = s.modSquad sq g :=
  congrArg (s.setSquad sq) h

/-- Starting walkers leaves every squad's array alone, and every other squad. -/
theorem State.startWalkers_squads (s : State) (sq n seq item tile group part stage : Nat) :
    (∀ k, ((s.startWalkers sq n seq item tile group part stage).squad k).arr = (s.squad k).arr) ∧
      ∀ k, k ≠ sq → (s.startWalkers sq n seq item tile group part stage).squad k = s.squad k := by
  unfold State.startWalkers
  dsimp only
  split
  · exact ⟨fun _ => rfl, fun _ _ => rfl⟩
  · refine List.foldlRecOn (motive := fun u : State => (∀ k, (u.squad k).arr = (s.squad k).arr) ∧ ∀ k, k ≠ sq → u.squad k = s.squad k) _ _
      ⟨fun _ => rfl, fun _ _ => rfl⟩ fun u ⟨harr, hother⟩ w _ => ?_
    split
    · exact ⟨harr, hother⟩
    · exact ⟨fun k => (State.squadField_modSquad Squad.arr rfl k).trans (harr k), fun k hk => (State.squad_modSquad_ne _ _ _ _ hk).trans (hother k hk)⟩

theorem State.setMat_squad (n : Nat) (m : MatOp) (k : Nat) : (s.setMat n m).squad k = s.squad k :=
  squad_of_only ((State.setMat_only (ps := [.ctx0, .ctx1]) (by decide) n m).mpr .refl) (by decide) k

theorem State.giveItem_arr (it : Item) (acc : AccFmt) : ((s.giveItem sq it acc).squad sq).arr =
    { (s.squad sq).arr.clearSlots it.slots with
      items := (s.squad sq).arr.items ++ [it], reload := if (s.squad sq).arr.fmt = acc then (s.squad sq).arr.reload else 16 } :=
  congrArg Squad.arr (State.squad_modSquad_self ..)

theorem State.giveItem_squad_ne (it : Item) (acc : AccFmt) {k : Nat} (h : k ≠ sq) : (s.giveItem sq it acc).squad k = s.squad k :=
  State.squad_modSquad_ne _ _ _ _ h

/-- Cleared slots are zero. -/
theorem Arr.tget_slots_clearSlots {a : Arr} {slots : List Nat} {k : Nat} (h : k ∈ slots) : tget Slot.zero (a.clearSlots slots).slots k = Slot.zero := by
  suffices hfold : ∀ t : Tbl Slot, (k ∈ slots ∨ tget Slot.zero t k = Slot.zero) →
      tget Slot.zero (slots.foldl (fun t k => tset Slot.zero t k Slot.zero) t) k = Slot.zero from hfold _ (.inl h)
  clear h
  induction slots with
  | nil => exact fun t ht => ht.resolve_left List.not_mem_nil
  | cons x r ih =>
    intro t ht
    refine ih _ ?_
    by_cases hx : k = x
    · exact .inr (hx ▸ tget_tset_self ..)
    · rw [tget_tset_ne _ _ _ _ _ hx]
      exact ht.imp_left fun hmem => (List.mem_cons.mp hmem).resolve_left hx

theorem exec_workItemDeal {n idx : Nat} {m m' : MatOp} {d : Descriptor} {slots : List Nat} {it : Item} (hfence : (s.squad sq).fenced = false)
    (hissued : (s.squad sq).arr.allIssued = true) (hdeal : s.dealing = some (n, m)) (hdesc : (s.ctx n).matDesc m = some d)
    (htake : m.take s.unfenced sq = some (idx, m'))
    (hfmt : (s.squad sq).arr.fmt = d.accFmt ∨ ((s.squad sq).arr.items = [] ∧ (s.squad sq).arr.reload = 0))
    (hfree : (s.squad sq).arr.freeSet d.shape d.accFmt d.accSet = some slots) (hitem : m.item n d.shape slots idx = some it) :
    exec (.workItemDeal sq) s =
      .next (((s.setMat n m').giveItem sq it d.accFmt).startWalkers sq n m.seq idx (idx / m.parts) it.group it.part it.stage) := by
  change execWorkItemDeal sq s = _
  have hready : ¬ ((s.squad sq).arr.fmt ≠ d.accFmt ∧ (!((s.squad sq).arr.items.isEmpty && decide ((s.squad sq).arr.reload = 0))) = true) := by
    rintro ⟨hne, hbusy⟩
    obtain hsame | ⟨hempty, hreload⟩ := hfmt
    · exact hne hsame
    · simp [hempty, hreload] at hbusy
  simp only [execWorkItemDeal, hfence, hissued, hdeal, hdesc, htake, Bool.not_true, Bool.or_self, Bool.false_eq_true, if_false]
  rw [if_neg hready, hfree]
  dsimp only
  rw [hitem]

/-! ## Reload and the issue of k-steps -/

theorem exec_reload_item {it : Item} {f : Flight} (hreload : (s.squad sq).arr.reload ≠ 0) (hhead : (s.squad sq).arr.items.head? = some it)
    (hfl : (s.ctx it.ctx).fl it.seq = some f) :
    exec (.reload sq) s = .next (s.modSquad sq fun q => { q with arr := { q.arr with reload := 0, slots := [], fmt := f.desc.accFmt } }) := by
  change execReload sq s = _
  rw [execReload]
  dsimp only
  rw [hhead]
  dsimp only
  rw [hfl]
  dsimp only
  rw [guard, if_pos (by simpa using hreload)]

theorem exec_reload_empty (hreload : (s.squad sq).arr.reload ≠ 0) (hitems : (s.squad sq).arr.items = []) :
    exec (.reload sq) s = .next (s.modSquad sq fun q => { q with arr := { q.arr with reload := 0, slots := [] } }) := by
  change execReload sq s = _
  rw [execReload]
  dsimp only
  rw [hitems]
  dsimp only [List.head?_nil]
  rw [guard, if_pos (by simpa using hreload)]

/-- Where both feeders may take their records, a cycle of an item of an operation is issued: it takes a record of each feeder or none. -/
theorem State.issueCycle_of_portReady {it : Item} {m : MatOp} {d : Descriptor} (hmat : s.matOf it = some (m, d)) (ha : (s.squad sq).portReady 1 = true)
    (hb : (s.squad sq).portReady 2 = true) : ∃ t, s.issueCycle sq it = some t ∧
      ((t.squad sq).fifo = (s.squad sq).fifo ∨ (t.squad sq).fifo = (((s.squad sq).takeRec 1).takeRec 2).fifo) ∧ ∀ k, k ≠ sq → t.squad k = s.squad k := by
  rw [State.issueCycle, hmat]
  dsimp only
  split_ifs with hend hports
  · exact ⟨_, rfl, .inl (by rw [State.squad_modSquad_self]), fun k hk => State.squad_modSquad_ne _ _ _ _ hk⟩
  · simp [ha, hb] at hports
  · refine ⟨_, rfl, ?_, fun k hk => ?_⟩
    · rw [State.squad_modSquad_self, State.feedPop]
      split_ifs
      · exact .inr (by rw [State.squad_modSquad_self])
      · exact .inl rfl
    · rw [State.squad_modSquad_ne _ _ _ _ hk, State.feedPop]
      split_ifs
      · exact State.squad_modSquad_ne _ _ _ _ hk
      · rfl

theorem exec_kStepIssue {it : Item} (hcur : (s.squad sq).arr.current = some it) (hfence : (s.squad sq).fenced = false) (hwork : s.working it.ctx = true)
    (hreload : (s.squad sq).arr.reload = 0) (hstage : it.atStageEnd = false) :
    exec (.kStepIssue sq) s = match s.cycleFail it with
      | some (q, e) => .next (s.engineFault it.ctx sq q 0x01 e false)
      | none => .next ((s.issueCycle sq it).getD s) := by
  change execKStepIssue sq s = _
  simp only [execKStepIssue, hcur, hfence, hwork, hreload, hstage, bne_self_eq_false, Bool.not_true, Bool.or_self, Bool.false_eq_true, if_false]
  cases s.cycleFail it with
  | some p => rfl
  | none => cases s.issueCycle sq it <;> rfl

end

/-! ## Closing and the ladder -/

section
variable {s : State} {sq slot : Nat} {it : Item} {m : MatOp} {d : Descriptor}

theorem exec_stageClose (hfind : (s.squad sq).arr.items.find? (fun i => i.atStageEnd && decide (i.kPos < i.kHi)) = some it) (hmat : s.matOf it = some (m, d))
    (hwork : s.working it.ctx = true) :
    exec (.stageClose sq) s = .next (if (s.closeAll m d it (s.squad sq).arr).latched it then s
      else s.modSquad sq fun q => { q with arr := (s.closeAll m d it (s.squad sq).arr).closeStage it }) := by
  change execStageClose sq s = _
  simp only [execStageClose, hfind, hmat, hwork, Bool.and_true, guard]
  cases (s.closeAll m d it (s.squad sq).arr).latched it <;> rfl

theorem exec_closeLatchEmpty {st : Nat} {cells : Tbl W64} (h : tfind (s.squad sq).arr.latch slot = some (st, cells)) :
    exec (.closeLatchEmpty sq slot) s = .next (s.modSquad sq fun q => { q with arr :=
      { (s.squad sq).arr with latch := tdel slot (s.squad sq).arr.latch,
                              rungs := (s.squad sq).arr.rungs ++ [{ slot := slot, level := 0, first := st, cells := cells }] } }) := by
  change execCloseLatchEmpty sq slot s = _
  simp only [execCloseLatchEmpty, h]

/-- A combination takes two neighbouring rungs of the slot and leaves one of the next level. -/
theorem combineRungs_some {f : AccFmt} {rungs l : List Rung} (h : combineRungs f slot rungs = some l) :
    ∃ x y, x ∈ rungs ∧ y ∈ rungs ∧ x.slot = slot ∧ y.slot = slot ∧ x.level = y.level ∧ y.first = x.first + 2 ^ x.level ∧
      x.first % 2 ^ (x.level + 1) = 0 ∧
      l = ((rungs.erase x).erase y) ++ [{ slot := slot, level := x.level + 1, first := x.first, cells := addCells f x.cells y.cells }] := by
  obtain ⟨⟨⟨x, y⟩, rest⟩, hpair, rfl⟩ := Option.map_eq_some_iff.mp h
  obtain ⟨⟨x', y'⟩, hfind, hpair⟩ := Option.map_eq_some_iff.mp hpair
  obtain ⟨⟨rfl, rfl⟩, rfl⟩ := hpair
  obtain ⟨x', hx, hy⟩ := List.exists_of_findSome?_eq_some hfind
  obtain ⟨y', hy, hxy⟩ := Option.map_eq_some_iff.mp hy
  obtain ⟨rfl, rfl⟩ := hxy
  have hxslot := List.mem_filter.mp hx
  have hyslot := List.mem_filter.mp (List.mem_of_find?_eq_some hy)
  have hpairs := List.find?_some hy
  simp only [Rung.pairs, Bool.and_eq_true, beq_iff_eq] at hxslot hyslot hpairs
  obtain ⟨⟨⟨-, hlevel⟩, hfirst⟩, hnext⟩ := hpairs
  exact ⟨_, _, hxslot.1, hyslot.1, hxslot.2, hyslot.2, hlevel, hnext, hfirst, rfl⟩

theorem exec_rungCombine_ladder {l : List Rung} (hdrain : (s.squad sq).arr.drain = none)
    (h : combineRungs (s.squad sq).arr.fmt slot (s.squad sq).arr.rungs = some l) :
    exec (.rungCombine sq slot) s = .next (s.modSquad sq fun q => { q with arr := { q.arr with rungs := l } }) := by
  change execRungCombine sq slot s = _
  simp only [execRungCombine, hdrain, Option.bind_none, h]
  exact congrArg _ (State.modSquad_congr (by rw [hdrain]))

theorem exec_rungCombine_drain {dr dr' : Drain} (hdrain : (s.squad sq).arr.drain = some dr) (hwork : s.working dr.item.ctx = true)
    (h : dr.combine slot = some dr') :
    exec (.rungCombine sq slot) s = .next (s.modSquad sq fun q => { q with arr := { q.arr with drain := some dr' } }) := by
  change execRungCombine sq slot s = _
  simp only [execRungCombine, hdrain, Option.bind_some, hwork, if_true, h]
  rfl

theorem Drain.combine_fmt {dr dr' : Drain} (h : dr.combine slot = some dr') : dr'.fmt = dr.fmt := by
  unfold Drain.combine at h
  split at h
  · obtain rfl := Option.some.inj h
    rfl
  · split at h
    · cases h
    · split_ifs at h <;> obtain rfl := Option.some.inj h <;> rfl

theorem exec_drainStart {errs : DrainFaults} (hfind : (s.squad sq).arr.items.find? (fun i => decide (i.kHi ≤ i.kPos)) = some it)
    (hdrain : (s.squad sq).arr.drain = none) (hreload : (s.squad sq).arr.reload = 0) (hwork : s.working it.ctx = true)
    (hport : (s.squad sq).portReady 3 = true) (hlatch : it.slots.any (fun k => (tfind (s.squad sq).arr.latch k).isSome) = false)
    (hmat : s.matOf it = some (m, d)) :
    exec (.drainStart sq errs) s =
      .next (s.modSquad sq fun q => ({ q with arr := (s.closeAll m d it (s.squad sq).arr).startDrain it errs }).takeRec 3) := by
  change execDrainStart sq errs s = _
  simp only [execDrainStart, hfind, hdrain, hreload, hwork, hport, hlatch, hmat, Option.isSome_none, bne_self_eq_false, Bool.not_true, Bool.or_self,
    Bool.false_eq_true, if_false]

end

/-! ## The tile check -/

theorem capTo_eq_min (hi n : Nat) : capTo hi n = min hi n := by
  unfold capTo
  split <;> omega

section
variable {s : State} {sq : Nat} {dr0 : Drain} {m : MatOp} {d : Descriptor}

/-- The drain with what faulty hardware added to its values. -/
def Drain.faulty (dr : Drain) : Drain := { dr with vals := applyErrs dr.errs.cells dr.vals }

/-- The array is free again, and one more failed check is counted. -/
def State.countCheckFail (u : State) (sq : Nat) : State :=
  (u.modSquad sq fun q => { q with arr := { q.arr with drain := none } }).modSquad sq fun q =>
    { q with arr := { q.arr with checkFail := min (2 ^ 32 - 1) (q.arr.checkFail + 1) } }

theorem State.verdict_of_fail (u : State) {dr : Drain} {rf cf : List Nat} {det : Nat} (h : (rf.isEmpty && cf.isEmpty) = false) :
    u.verdict sq m d dr rf cf det =
      (if m.commits sq dr false then (u.countCheckFail sq).freshTile m d dr else u.countCheckFail sq).tileFail sq m d dr rf cf det := by
  rw [State.verdict, h, if_neg Bool.false_ne_true]
  simp only [capTo_eq_min]
  rfl

/-- The verdict of a tile whose drain is complete: a tile that commits waits for its faults and its tokens, one that does not goes on. -/
theorem exec_tileCheckVerdict (hdrain : (s.squad sq).arr.drain = some dr0) (hrungs : dr0.rungs = []) (hwork : s.working dr0.item.ctx = true)
    (hmat : s.matOf dr0.item = some (m, d)) (hring : (s.ctx dr0.item.ctx).ringFull d = false) :
    exec (.tileCheckVerdict sq) s =
      let v := dr0.faulty.verdict d.accFmt d.shape
      let commits := m.commits sq dr0.faulty (v.1.isEmpty && v.2.isEmpty)
      match (if commits then s.tileFault m d dr0.faulty else none), (if commits then s.ringRegulate m d dr0.faulty else some s) with
      | some (q, e), _ => .next (s.engineFault dr0.item.ctx sq q 0x01 e true)
      | none, some t => .next (t.verdict sq m d dr0.faulty v.1 v.2 dr0.errs.det)
      | none, none => .next s := by
  change execTileCheckVerdict sq s = _
  have hop : (s.ctx dr0.item.ctx).mats.find? (fun m => m.seq == dr0.item.seq) = some m ∧ (s.ctx dr0.item.ctx).matDesc m = some d := by
    unfold State.matOf at hmat
    split at hmat
    · cases hmat
    next m0 hfind =>
      obtain ⟨d0, hd0, hpair⟩ := Option.map_eq_some_iff.mp hmat
      obtain ⟨rfl, rfl⟩ := Prod.mk.inj hpair
      exact ⟨hfind, hd0⟩
  obtain ⟨hfind, hdesc⟩ := hop
  simp only [execTileCheckVerdict, hdrain, hrungs, hwork, hfind, hdesc, hring, List.isEmpty_nil, Bool.not_true, Bool.or_self, Bool.false_eq_true, if_false]
  rfl

end

end Sys2Proof.Machine

open Sys2Proof Sys2Proof.Machine

/-- Settles O16: the item found is given and its walkers start; a reload takes the front item's format; a cycle is issued or its operands'
fault is the squad's. -/
theorem arraysTakeAndRunTheirItems : Obligations.ArraysTakeAndRunTheirItems := by
  refine ⟨fun s sq n idx m m' d slots it hfence hissued hdeal hdesc htake hfmt hfree hitem => ?deal, fun s sq =>
    ⟨fun hreload => ⟨fun it f hhead hfl => exec_reload_item hreload hhead hfl, exec_reload_empty hreload⟩,
      fun it hcur hfence hwork hreload hstage => ⟨fun m d hmat hok ha hb => ?issue, fun q e hfail => ?fault⟩⟩⟩
  case deal =>
    obtain ⟨harr, hother⟩ := ((s.setMat n m').giveItem sq it d.accFmt).startWalkers_squads sq n m.seq idx (idx / m.parts) it.group it.part it.stage
    refine ⟨_, exec_workItemDeal hfence hissued hdeal hdesc htake hfmt hfree hitem, rfl, ?_, ?_, fun k hk => ?_, fun k hk => ?_⟩
    · rw [harr, State.giveItem_arr, State.setMat_squad]
    · rw [harr, State.giveItem_arr, State.setMat_squad]
    · rw [harr, State.giveItem_arr]
      exact Arr.tget_slots_clearSlots hk
    · rw [hother k hk, State.giveItem_squad_ne _ _ hk, State.setMat_squad]
  case issue =>
    obtain ⟨t, ht, hfifo, hother⟩ := State.issueCycle_of_portReady hmat ha hb
    exact ⟨t, by rw [exec_kStepIssue hcur hfence hwork hreload hstage, hok, ht]; rfl, ht, hfifo, hother⟩
  case fault => rw [exec_kStepIssue hcur hfence hwork hreload hstage, hfail]

/-- Settles O17: each command's effect on the array is closeStage, the move of a latch, combineRungs, Drain.combine or startDrain. -/
theorem arrayClosesAndDrains : Obligations.ArrayClosesAndDrains := by
  intro s sq
  refine ⟨fun it m d hfind hmat hwork => ⟨fun hfree => ?close, fun hfull => ?wait⟩, fun slot st cells h => ?latch, fun slot l hdrain h => ?ladder,
    fun slot dr dr' hdrain hwork h => ?drain, fun it m d errs hfind hdrain hreload hwork hport hlatch hmat => ?start⟩
  case close => rw [exec_stageClose hfind hmat hwork, hfree]; rfl
  case wait => rw [exec_stageClose hfind hmat hwork, hfull]; rfl
  case latch =>
    refine ⟨_, exec_closeLatchEmpty h, ?_, ?_, fun k hk => ?_, ?_, ?_, by simp⟩
    all_goals rw [State.squad_modSquad_self]
    · exact tfind_tdel_self
    · exact tfind_tdel_ne hk
  case ladder => exact ⟨exec_rungCombine_ladder hdrain h, combineRungs_some h⟩
  case drain => exact ⟨exec_rungCombine_drain hdrain hwork h, Drain.combine_fmt h⟩
  case start => exact exec_drainStart hfind hdrain hreload hwork hport hlatch hmat

/-- Settles O18: the verdict by its lists of failing lines, and whether it commits. -/
theorem tileCheckCommitsOrReplays : Obligations.TileCheckCommitsOrReplays := by
  intro s sq dr0 m d hdrain hrungs hwork hmat hring dr done failed v
  have hexec : exec (.tileCheckVerdict sq) s = _ := exec_tileCheckVerdict hdrain hrungs hwork hmat hring
  change exec (.tileCheckVerdict sq) s =
    match (if m.commits sq dr (v.1.isEmpty && v.2.isEmpty) then s.tileFault m d dr else none),
      (if m.commits sq dr (v.1.isEmpty && v.2.isEmpty) then s.ringRegulate m d dr else some s) with
    | some (q, e), _ => .next (s.engineFault dr0.item.ctx sq q 0x01 e true)
    | none, some t => .next (t.verdict sq m d dr v.1 v.2 dr0.errs.det)
    | none, none => .next s at hexec
  refine ⟨fun u hrows hcols hfault hreg => ?pass, fun hfail hcommit => ?fail, fun u hfail hcommit hfault hreg => ?failCommits,
    fun hcommit hfault hreg => ?tokens, fun q e hcommit hfault => ?fault, fun u hladder => ?clean⟩
  case pass =>
    have hcommit : m.commits sq dr (v.1.isEmpty && v.2.isEmpty) = true := by simp [hrows, hcols, MatOp.commits]
    rw [hexec, hcommit, if_pos rfl, if_pos rfl, hfault, hreg]
    simp only [State.verdict, hrows, hcols, List.isEmpty_nil, Bool.and_self, if_true]
    rfl
  case fail =>
    have hlines : (v.1.isEmpty && v.2.isEmpty) = false := by simpa [List.isEmpty_iff, imp_iff_not_or] using hfail
    rw [hexec, hlines, hcommit, if_neg Bool.false_ne_true, if_neg Bool.false_ne_true]
    dsimp only
    rw [State.verdict_of_fail s hlines, hcommit]
    rfl
  case failCommits =>
    have hlines : (v.1.isEmpty && v.2.isEmpty) = false := by simpa [List.isEmpty_iff, imp_iff_not_or] using hfail
    rw [hexec, hlines, hcommit, if_pos rfl, if_pos rfl, hfault, hreg]
    dsimp only
    rw [State.verdict_of_fail u hlines, hcommit]
    rfl
  case tokens => rw [hexec, hcommit, if_pos rfl, if_pos rfl, hfault, hreg]
  case fault => rw [hexec, hcommit, if_pos rfl, if_pos rfl, hfault]
  case clean => rw [State.tilePass, hladder]; rfl

end

section
/-! PROOFS. The update unit: the twelve operations over the lanes of a run, and where the run stands behind them (R266, R267, R269, R271). -/

namespace Sys2Proof.Machine

section
variable {s : State} {sq : Nat} {u : UpdRun} {v : UpdEnv} {d : UDst} {a b c : USrc}

/-- A run that stands at an instruction has its program, its flight and its entry of the shard. -/
theorem State.updCur_some {i : UInstr} (h : s.updCur sq = some (u, v, i)) :
    ∃ p f sh e, tfind (s.ctx u.ctx).updProgs u.prog = some p ∧ (s.ctx u.ctx).fl u.seq = some f ∧ (s.ctx u.ctx).shard = some sh ∧ sh.entries[u.entry]? = some e := by
  unfold State.updCur at h
  split_ifs at h
  split at h
  · cases h
  · dsimp only at h
    split_ifs at h
    split at h
    next p f sh hp hf hsh =>
      split at h
      next i e hi he =>
        obtain ⟨rfl, -⟩ := Prod.mk.inj (Option.some.inj h)
        exact ⟨p, f, sh, e, hp, hf, hsh, he⟩
      · cases h
    · cases h

/-- Within its program a run goes on to the next instruction. -/
theorem State.updNext_within {p : UpdProgram} (hp : tfind (s.ctx u.ctx).updProgs u.prog = some p) (h : u.pc + 1 < p.code.length) :
    s.updNext u = { u with pc := u.pc + 1 } := by
  rw [State.updNext, hp]
  exact if_pos h

/-- Behind its program's last instruction a run's lanes are done and the next ones of its block begin. -/
theorem State.updNext_end {p : UpdProgram} {f : Flight} {sh : Shard} {e : ShardEntry} (hp : tfind (s.ctx u.ctx).updProgs u.prog = some p)
    (h : p.code.length ≤ u.pc + 1) (hf : (s.ctx u.ctx).fl u.seq = some f) (hsh : (s.ctx u.ctx).shard = some sh) (he : sh.entries[u.entry]? = some e) :
    ∃ lanes, s.updNext u = { u with pc := 0, first := u.first + u.lanes.length, done := u.done ++ u.lanes, lanes := lanes } := by
  refine ⟨s.lanes u.ctx (s.ctx u.ctx) f e (u.first + u.lanes.length) (blockLast ((s.ctx u.ctx).entrySize f e) (u.first / blockElems)), ?_⟩
  rw [State.updNext, hp]
  dsimp only
  rw [if_neg (Nat.not_lt.mpr h), hf, hsh]
  dsimp only
  rw [he]

/-- The run of a squad behind an operation. -/
theorem State.squad_updApply (f : Lane → Word) :
    (s.updApply sq u d f).squad sq = { s.squad sq with upe := some (s.updNext { u with lanes := u.lanes.map fun l => l.put d (f l) }) } :=
  State.squad_modSquad_self ..

theorem State.updNext_names (s : State) (u : UpdRun) :
    (s.updNext u).ctx = u.ctx ∧ (s.updNext u).seq = u.seq ∧ (s.updNext u).block = u.block ∧ (s.updNext u).prog = u.prog := by
  unfold State.updNext
  dsimp only
  (repeat' split) <;> exact ⟨rfl, rfl, rfl, rfl⟩

/-- An instruction whose command applies a function to every lane is done as UpdDone says. -/
theorem updDone_of_exec {i : UInstr} {f : Lane → Word} {r : Res} (hcur : s.updCur sq = some (u, v, i)) (hr : r = .next (s.updApply sq u d f)) :
    UpdDone s sq u d f r := by
  obtain ⟨p, fl, sh, e, hp, hf, hsh, he⟩ := State.updCur_some hcur
  obtain ⟨hctx, hseq, hblock, hprog⟩ := s.updNext_names { u with lanes := u.lanes.map fun l => l.put d (f l) }
  refine ⟨_, _, hr, congrArg Squad.upe (State.squad_updApply f), hctx, hseq, hblock, hprog, fun p' hp' hpc => ?within, fun p' hp' hpc => ?atEnd,
    fun k hk => State.squad_modSquad_ne _ _ _ _ hk, by rw [State.squad_updApply], by simp⟩
  case within =>
    rw [State.updNext_within (u := { u with lanes := u.lanes.map fun l => l.put d (f l) }) hp' hpc]
    exact ⟨rfl, rfl, rfl, List.length_map _, fun j l hl => by rw [List.getElem?_map, hl, Option.map_some]⟩
  case atEnd =>
    obtain ⟨lanes, hnext⟩ := State.updNext_end (u := { u with lanes := u.lanes.map fun l => l.put d (f l) }) hp' hpc hf hsh he
    rw [hnext]
    refine ⟨rfl, ?_, ?_, fun j l hl => ?_, fun j l hl => ?_⟩
    · rw [List.length_map]
    · rw [List.length_append, List.length_map]
    · exact List.getElem?_append_left (List.getElem?_eq_some_iff.mp hl).1 ▸ hl
    · rw [List.getElem?_append_right (Nat.le_add_right ..), Nat.add_sub_cancel_left, List.getElem?_map, hl, Option.map_some]

theorem exec_updAdd (h : s.updCur sq = some (u, v, .add d a b)) : exec (.updAdd sq) s = .next (s.updApply sq u d fun l => fAdd (v.src l a) (v.src l b)) := by
  change execUpdAdd sq s = _
  rw [execUpdAdd, h]

theorem exec_updSub (h : s.updCur sq = some (u, v, .sub d a b)) : exec (.updSub sq) s = .next (s.updApply sq u d fun l => fSub (v.src l a) (v.src l b)) := by
  change execUpdSub sq s = _
  rw [execUpdSub, h]

theorem exec_updMul (h : s.updCur sq = some (u, v, .mul d a b)) : exec (.updMul sq) s = .next (s.updApply sq u d fun l => fMul (v.src l a) (v.src l b)) := by
  change execUpdMul sq s = _
  rw [execUpdMul, h]

theorem exec_updFma (h : s.updCur sq = some (u, v, .fma d a b c)) : exec (.updFma sq) s = .next (s.updApply sq u d fun l => fFma (v.src l a) (v.src l b) (v.src l c)) := by
  change execUpdFma sq s = _
  rw [execUpdFma, h]

theorem exec_updSqrt (h : s.updCur sq = some (u, v, .sqrt d a)) : exec (.updSqrt sq) s = .next (s.updApply sq u d fun l => fSqrt (v.src l a)) := by
  change execUpdSqrt sq s = _
  rw [execUpdSqrt, h]

theorem exec_updRsqrt (h : s.updCur sq = some (u, v, .rsqrt d a)) : exec (.updRsqrt sq) s = .next (s.updApply sq u d fun l => fRsqrt (v.src l a)) := by
  change execUpdRsqrt sq s = _
  rw [execUpdRsqrt, h]

theorem exec_updMax (h : s.updCur sq = some (u, v, .max d a b)) : exec (.updMax sq) s = .next (s.updApply sq u d fun l => fMax (v.src l a) (v.src l b)) := by
  change execUpdMax sq s = _
  rw [execUpdMax, h]

theorem exec_updMin (h : s.updCur sq = some (u, v, .min d a b)) : exec (.updMin sq) s = .next (s.updApply sq u d fun l => fMin (v.src l a) (v.src l b)) := by
  change execUpdMin sq s = _
  rw [execUpdMin, h]

theorem exec_updAbs (h : s.updCur sq = some (u, v, .abs d a)) : exec (.updAbs sq) s = .next (s.updApply sq u d fun l => fAbs (v.src l a)) := by
  change execUpdAbs sq s = _
  rw [execUpdAbs, h]

theorem exec_updSel (h : s.updCur sq = some (u, v, .sel d c a b)) : exec (.updSel sq) s = .next (s.updApply sq u d fun l => fSel (v.src l c) (v.src l a) (v.src l b)) := by
  change execUpdSel sq s = _
  rw [execUpdSel, h]

theorem exec_updClamp (h : s.updCur sq = some (u, v, .clamp d a b c)) : exec (.updClamp sq) s = .next (s.updApply sq u d fun l => fClamp (v.src l a) (v.src l b) (v.src l c)) := by
  change execUpdClamp sq s = _
  rw [execUpdClamp, h]

theorem exec_updScl {n : Int} (h : s.updCur sq = some (u, v, .scl d a n)) : exec (.updScl sq) s = .next (s.updApply sq u d fun l => fScl (v.src l a) n) := by
  change execUpdScl sq s = _
  rw [execUpdScl, h]

end

/-- A source reads a lane's destination that was given a value, and every other source reads as before. -/
theorem UpdEnv.src_put (v : UpdEnv) (l : Lane) (d : UDst) (x : Word) :
    v.src (l.put d x) (dstSource d) = x ∧ ∀ a, a ≠ dstSource d → v.src (l.put d x) a = v.src l a := by
  cases d with
  | x n =>
    refine ⟨tget_tset_self .., fun a ha => ?_⟩
    cases a with
    | x m => exact tget_tset_ne _ _ _ _ _ fun hm => ha (congrArg USrc.x hm)
    | _ => rfl
  | wOut | m1Out | m2Out =>
    refine ⟨rfl, fun a ha => ?_⟩
    cases a <;> first | rfl | exact absurd rfl ha

end Sys2Proof.Machine

open Sys2Proof Sys2Proof.Machine

/-- Settles O15: each operation is updApply of its function on the lanes, and updNext says where the run stands behind it. -/
theorem updateOperationsPutLanes : Obligations.UpdateOperationsPutLanes := by
  refine ⟨fun s sq u v d a b c => ⟨fun h => ?add, fun h => ?sub, fun h => ?mul, fun h => ?fma, fun h => ?sqrt,
      fun h => ?rsqrt, fun h => ?max, fun h => ?min, fun h => ?abs, fun h => ?sel, fun h => ?clamp, fun n h => ?scl⟩,
    UpdEnv.src_put⟩
  case add => exact updDone_of_exec h (exec_updAdd h)
  case sub => exact updDone_of_exec h (exec_updSub h)
  case mul => exact updDone_of_exec h (exec_updMul h)
  case fma => exact updDone_of_exec h (exec_updFma h)
  case sqrt => exact updDone_of_exec h (exec_updSqrt h)
  case rsqrt => exact updDone_of_exec h (exec_updRsqrt h)
  case max => exact updDone_of_exec h (exec_updMax h)
  case min => exact updDone_of_exec h (exec_updMin h)
  case abs => exact updDone_of_exec h (exec_updAbs h)
  case sel => exact updDone_of_exec h (exec_updSel h)
  case clamp => exact updDone_of_exec h (exec_updClamp h)
  case scl => exact updDone_of_exec h (exec_updScl h)

end

section
/-! PROOFS. The commit of one block by each engine: the vector core, the row engine, the update unit and the squad fetch unit (R80 to R86,
R112, R113, R145, R167, R269 to R273). -/

namespace Sys2Proof.Machine

section
variable {s : State} {sq n b : Nat} {f : Flight}

theorem exec_blockCommit_vector (hfence : (s.squad sq).fenced = false) (hport : (s.squad sq).portReady 4 = true) :
    exec (.blockCommit (.vector sq)) s = .next (s.commitVector sq) := by
  change guard (!(s.squad sq).fenced && (s.squad sq).portReady 4) s (s.commitVector sq) = _
  rw [hfence, hport]
  rfl

theorem exec_blockCommit_row (hfence : (s.squad sq).fenced = false) (hport : (s.squad sq).portReady 5 = true) :
    exec (.blockCommit (.row sq)) s = .next (s.commitRow sq) := by
  change guard (!(s.squad sq).fenced && (s.squad sq).portReady 5) s (s.commitRow sq) = _
  rw [hfence, hport]
  rfl

theorem exec_blockCommit_update (hfence : (s.squad sq).fenced = false) (hport : (s.squad sq).portReady 4 = true) :
    exec (.blockCommit (.update sq)) s = .next (s.commitUpdate sq) := by
  change guard (!(s.squad sq).fenced && (s.squad sq).portReady 4) s (s.commitUpdate sq) = _
  rw [hfence, hport]
  rfl

theorem exec_blockCommit_fetch (hfence : (s.squad sq).fenced = false) (hport : (s.squad sq).portReady 0 = true) :
    exec (.blockCommit (.fetch sq)) s = .next (s.commitFetch sq) := by
  change guard (!(s.squad sq).fenced && (s.squad sq).portReady 0) s (s.commitFetch sq) = _
  rw [hfence, hport]
  rfl

/-! ## The vector core -/

/-- A vector block with its mailbox's transfer there, or without a mailbox, is committed or is a fault. -/
theorem State.commitVector_eq {op : VecOp} {t : TensorRec} {mb : Option (List ShortMsg)} (hblock : s.blockOf sq .vector = some (n, f, b))
    (hop : f.desc.op = .vec op) (ht : f.blockTensor = some t) (hmb : (f.desc.mbox.map fun k => (s.mbox sq n k).shown.head?) = mb.map some) :
    s.commitVector sq = match s.blockFail n f (blockIdx t b) with
      | some (e, w) => s.engineFault n sq f.queue 0x01 e w
      | none => (((s.freshBlock n f (blockIdx t b)).vecBlock n f mb op t (blockIdx t b)).commitBlock n f b sq).popPort sq 4 := by
  rw [State.commitVector, hblock]
  dsimp only
  rw [hop, ht, hmb]
  cases mb with
  | none => rfl
  | some x => rfl

/-! ## The row engine -/

/-- The gradients that the last block of a backward row operation stores first. -/
def State.lastRows (s : State) (sq n : Nat) (f : Flight) (k : RowKind) (bw : Bool) (eps : Word) (xt : TensorRec) : State :=
  match f.operand 1 with
  | some (_, dt) => if f.itemsDone + 1 = f.items ∧ bw = true ∧ k ≠ RowKind.softmax then s.gammaGrad sq n f k eps xt dt else s
  | none => s

theorem State.commitRow_eq {k : RowKind} {bw : Bool} {eps : Word} {x y : Operand} {xt t : TensorRec} (hblock : s.blockOf sq .row = some (n, f, b))
    (hop : f.desc.op = .row k bw eps) (hx : f.operand 0 = some (x, xt)) (ht : f.operand 2 = some (y, t)) :
    s.commitRow sq = match s.blockFail n f (blockIdx t b), (blockTails t b).findSome? fun tail => s.statFail sq n bw (statVa xt tail) with
      | some (e, w), _ => s.engineFault n sq f.queue 0x01 e w
      | none, some (e, w) => s.engineFault n sq f.queue 0x05 e w
      | none, none => ((((s.lastRows sq n f k bw eps xt).freshBlock n f (blockIdx t b)).rowBlock sq n f k bw eps xt t b).commitBlock n f b sq).popPort sq 5 := by
  have hlast : (match f.operand 1 with
      | some (_, dt) => if (f.itemsDone + 1 == f.items && bw && k != RowKind.softmax) = true then s.gammaGrad sq n f k eps xt dt else s
      | none => s) = s.lastRows sq n f k bw eps xt := by
    rw [State.lastRows]
    cases f.operand 1 with
    | none => rfl
    | some p => simp only [Bool.and_eq_true, beq_iff_eq, bne_iff_ne, and_assoc]
  rw [State.commitRow, hblock]
  dsimp only
  rw [hop, hx, ht]
  dsimp only
  rw [← hlast] <;> rfl

/-! ## The update unit -/

section
variable {e k : Nat} {sh : Shard} {en : ShardEntry} {first last : Nat}

/-- The flight's operation is an APPLY. -/
def Flight.isApply (f : Flight) : Bool :=
  match f.desc.op with
  | .apply _ _ => true
  | _ => false

/-- What a block of the update unit does once its tensors can be accessed. -/
def State.updCommit (s : State) (sq n : Nat) (f : Flight) (b e : Nat) (en : ShardEntry) (first last : Nat) : State :=
  match f.desc.op with
  | .norm _ _ =>
    ((s.modCtx n fun c => { c with upd := { c.upd with parts := c.upd.parts ++
      [(b, en.group, (s.normBlock n f en first last).1, (s.normBlock n f en first last).2)] } }).commitBlock n f b sq).popPort sq 4
  | .apply pr _ =>
    if f.copyMode then
      (((s.freshUpd n f en first last).applyBlock n f e en first (List.replicate (last - first) Lane.keep) true []).commitBlock n f b sq).popPort sq 4
    else match (s.squad sq).upe, tfind (s.ctx n).updProgs pr with
      | some u, some p =>
        if u.ctx = n ∧ u.seq = f.seq ∧ u.block = b ∧ u.lanes.isEmpty then
          ((((s.freshUpd n f en first last).applyBlock n f e en first u.done false p.sr).modSquad sq fun q => { q with upe := none }).commitBlock n f b sq).popPort sq 4
        else s
      | _, _ => s
  | _ => s

theorem State.commitUpdate_eq (hblock : s.blockOf sq .update = some (n, f, b)) (hat : blockAt ((s.ctx n).blockSizes f) 0 b = some (e, k))
    (hsh : (s.ctx n).shard = some sh) (hen : sh.entries[e]? = some en) :
    s.commitUpdate sq = match s.updFail n f en f.isApply (k * blockElems) (blockLast ((s.ctx n).entrySize f en) k) with
      | some (x, w) => s.engineFault n sq f.queue 0x01 x w
      | none => s.updCommit sq n f b e en (k * blockElems) (blockLast ((s.ctx n).entrySize f en) k) := by
  rw [State.commitUpdate, hblock]
  dsimp only
  rw [hat, hsh]
  dsimp only
  rw [hen]
  rfl

theorem State.updCommit_norm {g w : Nat} (hop : f.desc.op = .norm g w) :
    s.updCommit sq n f b e en first last =
      ((s.modCtx n fun c => { c with upd := { c.upd with parts := c.upd.parts ++
        [(b, en.group, (s.normBlock n f en first last).1, (s.normBlock n f en first last).2)] } }).commitBlock n f b sq).popPort sq 4 := by
  rw [State.updCommit, hop]

theorem State.updCommit_copy {pr rest : Nat} (hop : f.desc.op = .apply pr rest) (hcopy : f.copyMode = true) :
    s.updCommit sq n f b e en first last =
      (((s.freshUpd n f en first last).applyBlock n f e en first (List.replicate (last - first) Lane.keep) true []).commitBlock n f b sq).popPort sq 4 := by
  rw [State.updCommit, hop]
  exact if_pos hcopy

theorem State.updCommit_apply {pr rest : Nat} {u : UpdRun} {p : UpdProgram} (hop : f.desc.op = .apply pr rest) (hcopy : f.copyMode = false)
    (hrun : (s.squad sq).upe = some u) (hprog : tfind (s.ctx n).updProgs pr = some p) (hmine : u.ctx = n ∧ u.seq = f.seq ∧ u.block = b ∧ u.lanes = []) :
    s.updCommit sq n f b e en first last =
      ((((s.freshUpd n f en first last).applyBlock n f e en first u.done false p.sr).modSquad sq fun q => { q with upe := none }).commitBlock n f b sq).popPort sq 4 := by
  rw [State.updCommit, hop]
  dsimp only
  rw [hcopy, if_neg Bool.false_ne_true, hrun, hprog]
  dsimp only
  rw [if_pos (by simpa using hmine)]

end

/-! ## The squad fetch unit -/

section
variable {r : StreamRec} {rs : List StreamRec}

theorem State.commitFetch_eq (hfifo : tget [] (s.squad sq).fifo 0 = r :: rs) (hwork : s.working r.ctx = true)
    (hown : r.write = true ∨ r.pool = none ∨ s.byMesh sq r = false) :
    s.commitFetch sq = match s.fetchFail r with
      | some e => s.engineFault r.ctx sq (match (s.ctx r.ctx).fl r.seq with | some f => f.queue | none => 0) 0x01 e r.write
      | none => match s.regulate r.part (s.fetchBursts r) with
        | none => s
        | some t => (t.fetchMove sq r).popPort sq 0 := by
  have hmine : (!r.write && r.pool.isSome && s.byMesh sq r) = false := by
    obtain hw | hp | hm := hown
    · simp [hw]
    · simp [hp]
    · simp [hm]
  rw [State.commitFetch, hfifo]
  dsimp only [List.head?_cons]
  rw [hwork, hmine, if_neg (by simp)] <;> rfl

theorem State.commitFetch_of_fail {e : Fail} (hfifo : tget [] (s.squad sq).fifo 0 = r :: rs) (hwork : s.working r.ctx = true)
    (hown : r.write = true ∨ r.pool = none ∨ s.byMesh sq r = false) (hfail : s.fetchFail r = some e) :
    s.commitFetch sq = s.engineFault r.ctx sq (match (s.ctx r.ctx).fl r.seq with | some f => f.queue | none => 0) 0x01 e r.write := by
  rw [State.commitFetch_eq hfifo hwork hown, hfail]

/-- A range that can be accessed, and that writes no poisoned burst in part, is no fault. -/
theorem State.fetchFail_eq_none (haccess : ∀ i, i < r.len.toNat → (s.access r.ctx (r.addr.toNat + i) r.write none).isRight = true)
    (hpoison : s.poisonHit (s.places r.ctx none (r.addr.toNat + ·) r.len.toNat) = false) : s.fetchFail r = none := by
  rw [State.fetchFail, hpoison, Bool.and_false, if_neg Bool.false_ne_true]
  simp only [Option.orElse_eq_orElse, Option.orElse_eq_or, Option.or_none, List.findSome?_eq_none_iff]
  intro i hi
  have hright := haccess i (List.mem_range.mp hi)
  cases hx : s.access r.ctx (r.addr.toNat + i) r.write none with
  | inl e => rw [hx] at hright; cases hright
  | inr v => rfl

end

end

end Sys2Proof.Machine

open Sys2Proof Sys2Proof.Machine

/-- Settles O19: engine by engine, the block's fault is looked for first, and only a block without one is stored and consumed. -/
theorem blocksCommitWholeOrFault : Obligations.BlocksCommitWholeOrFault := by
  intro s sq n b f hfence
  refine ⟨fun op t mb hport hblock hop ht hmb => ?vector, fun k bw eps x xt y t hport hblock hop hx ht =>
      ⟨fun e w hfail => ?rowFail, fun hok => ⟨fun e w hstat => ?statFail, fun hstat => ?row⟩⟩,
    fun e k sh en hport hblock hat hsh hen => ⟨fun g w hop => ⟨fun hok => ?norm, fun x y hfail => ?normFail⟩,
      fun pr rest u p hop hok hcopy hrun hprog hctx hseq hblk hlanes => ?apply, fun pr rest hop hok hcopy => ?copy⟩,
    fun r rs hfifo hport hwork hown => ?fetch⟩
  case vector =>
    rw [exec_blockCommit_vector hfence hport, State.commitVector_eq hblock hop ht hmb]
    exact ⟨fun hok => by rw [hok], fun e w hfail => by rw [hfail]⟩
  case rowFail => rw [exec_blockCommit_row hfence hport, State.commitRow_eq hblock hop hx ht, hfail]
  case statFail => rw [exec_blockCommit_row hfence hport, State.commitRow_eq hblock hop hx ht, hok, hstat]
  case row =>
    rw [exec_blockCommit_row hfence hport, State.commitRow_eq hblock hop hx ht, hok, List.findSome?_eq_none_iff.mpr hstat]
    rfl
  case norm =>
    have happly : f.isApply = false := by rw [Flight.isApply, hop]
    exact ⟨_, _, by rw [exec_blockCommit_update hfence hport, State.commitUpdate_eq hblock hat hsh hen, happly, hok, State.updCommit_norm hop]⟩
  case normFail =>
    have happly : f.isApply = false := by rw [Flight.isApply, hop]
    rw [exec_blockCommit_update hfence hport, State.commitUpdate_eq hblock hat hsh hen, happly, hfail]
  case apply =>
    have happly : f.isApply = true := by rw [Flight.isApply, hop]
    rw [exec_blockCommit_update hfence hport, State.commitUpdate_eq hblock hat hsh hen, happly, hok,
      State.updCommit_apply hop hcopy hrun hprog ⟨hctx, hseq, hblk, hlanes⟩]
  case copy =>
    have happly : f.isApply = true := by rw [Flight.isApply, hop]
    rw [exec_blockCommit_update hfence hport, State.commitUpdate_eq hblock hat hsh hen, happly, hok, State.updCommit_copy hop hcopy]
  case fetch =>
    have hfetch := State.commitFetch_eq hfifo hwork hown
    have hexec := exec_blockCommit_fetch hfence hport
    refine ⟨fun e hfail => hexec.trans (congrArg _ (State.commitFetch_of_fail hfifo hwork hown hfail)), fun haccess hpoison => ⟨fun t ht => ?_, fun hwait => ?_⟩⟩
    · rw [hexec, hfetch, State.fetchFail_eq_none haccess hpoison, ht]
    · rw [hexec, hfetch, State.fetchFail_eq_none haccess hpoison, hwait]

end

section
/-! PROOFS. Queues, flags and flights of a context; admission, readiness, deadlines, issue and completion (R91 to R110, R264, R288). -/

namespace Sys2Proof.Machine

/-! ## A context under the operations that do not touch it, and under its own updates -/

section
variable (s : State) (n m : Nat)

@[simp] theorem State.ctx_raise (v : Nat) : (s.raise v).ctx n = s.ctx n :=
  ctx_of_only ((State.raise_only (ps := [.out, .host]) (by decide) v).mpr .refl) (by decide) n

@[simp] theorem State.ctx_log (ch code sev cls srcType srcInst : Nat) (payload : List Byte) :
    (s.log ch code sev cls srcType srcInst payload).ctx n = s.ctx n :=
  ctx_of_only ((State.log_only (ps := [.out, .ledger, .host, .watch]) (by decide) ch code sev cls srcType srcInst payload).mpr .refl) (by decide) n

@[simp] theorem State.ctx_badCommand (page : Nat) : (s.badCommand page).ctx n = s.ctx n :=
  ctx_of_only ((State.badCommand_only (ps := [.out, .regs, .host]) (by decide) page).mpr .refl) (by decide) n

variable {n m}

theorem State.ctx_modCtx_ne (hn : n < 2) (hm : m < 2) (h : m ≠ n) (f : Ctx → Ctx) : (s.modCtx n f).ctx m = s.ctx m := by
  obtain ⟨rfl, rfl⟩ | ⟨rfl, rfl⟩ : (n = 0 ∧ m = 1) ∨ (n = 1 ∧ m = 0) := by omega
  · rfl
  · rfl

end

section
variable (c : Ctx) (q : Nat) (f : Queue → Queue)

@[simp] theorem Ctx.queue_modQueue_self : (c.modQueue q f).queue q = f (c.queue q) := tget_tset_self ..

theorem Ctx.queue_modQueue_ne {p : Nat} (h : p ≠ q) : (c.modQueue q f).queue p = c.queue p := tget_tset_ne _ _ _ _ _ h

end

/-! ## Flags -/

theorem getLsbD_putFlag (fl : BitVec 256) (f : Nat) (v : Bool) {k : Nat} (h : k < 256) :
    (putFlag fl f v).getLsbD k = if k = f then v else fl.getLsbD k := by
  have hbit : (BitVec.ofNat 256 (2 ^ f)).getLsbD k = decide (k = f) := by
    rw [BitVec.getLsbD_ofNat, Nat.testBit_two_pow, decide_eq_true h, Bool.true_and]
    exact decide_eq_decide.mpr eq_comm
  cases v with
  | true =>
    rw [putFlag, if_pos rfl, BitVec.getLsbD_or, hbit]
    by_cases hk : k = f
    · rw [if_pos hk, decide_eq_true hk, Bool.or_true]
    · rw [if_neg hk, decide_eq_false hk, Bool.or_false]
  | false =>
    rw [putFlag, if_neg Bool.false_ne_true, BitVec.getLsbD_and, BitVec.getLsbD_not, hbit, decide_eq_true h, Bool.true_and]
    by_cases hk : k = f
    · rw [if_pos hk, decide_eq_true hk, Bool.not_true, Bool.and_false]
    · rw [if_neg hk, decide_eq_false hk, Bool.not_false, Bool.and_true]

theorem Ctx.flag_writeFlag (c : Ctx) (f : Nat) (v : Bool) {k : Nat} (h : k < 256) : (c.writeFlag f v).flag k = if k = f then v else c.flag k :=
  getLsbD_putFlag c.flags f v h

@[simp] theorem Ctx.queue_writeFlag (c : Ctx) (f : Nat) (v : Bool) (q : Nat) : (c.writeFlag f v).queue q = c.queue q := rfl

theorem Ctx.flag_setField_some (c : Ctx) {f : Nat} (v : Bool) (h : f < 240) : (c.setField (some (f, v))).flag f = v := by
  rw [Ctx.setField, if_pos h, Ctx.flag_writeFlag c f v (by omega), if_pos rfl]

/-- A SET field leaves every flag that it does not name. -/
theorem Ctx.flag_setField_ne (c : Ctx) (x : Option (Nat × Bool)) {k : Nat} (hk : k < 240) (h : ∀ w, x ≠ some (k, w)) :
    (c.setField x).flag k = c.flag k := by
  match x with
  | none => rfl
  | some (f, v) =>
    have hf : k ≠ f := fun hf => h v (by rw [hf])
    by_cases hlt : f < 240
    · rw [Ctx.setField, if_pos hlt, Ctx.flag_writeFlag c f v (by omega), if_neg hf]
    · rw [Ctx.setField, if_neg hlt]

/-! ## Flights -/

theorem Ctx.fl_eq_some_seq {c : Ctx} {seq : Nat} {f : Flight} (h : c.fl seq = some f) : f.seq = seq := by
  simpa using List.find?_some h

theorem Ctx.fl_modFl {c : Ctx} {seq : Nat} {f : Flight} {g : Flight → Flight} (h : c.fl seq = some f) (hg : ∀ x, (g x).seq = x.seq) :
    (c.modFl seq g).fl seq = some (g f) := by
  have hpred : ((fun x : Flight => x.seq == seq) ∘ fun x => if x.seq = seq then g x else x) = fun x => x.seq == seq := by
    funext x
    by_cases hx : x.seq = seq <;> simp [hx, hg]
  rw [Ctx.fl, Ctx.modFl, List.find?_map, hpred, show c.flight.find? (fun x => x.seq == seq) = some f from h, Option.map_some,
    if_pos (Ctx.fl_eq_some_seq h)]

theorem Ctx.fl_release (c : Ctx) (seq : Nat) : (c.release seq).fl seq = none :=
  List.find?_eq_none.mpr fun x hx => by simpa using (List.mem_filter.mp hx).2

/-- What the loads that waited do to the context: its flags, flight and queues stay. -/
theorem State.settle_ctx (s : State) (n : Nat) :
    ((s.settle n).ctx n).flags = (s.ctx n).flags ∧ ((s.settle n).ctx n).flight = (s.ctx n).flight ∧ ((s.settle n).ctx n).queues = (s.ctx n).queues := by
  dsimp only [State.settle]
  split
  · simp only [State.ctx_modCtx_self, and_self]
  · simp only [State.ctx_modCtx_self]
    refine List.foldlRecOn (motive := fun u : State =>
      (u.ctx n).flags = (s.ctx n).flags ∧ (u.ctx n).flight = (s.ctx n).flight ∧ (u.ctx n).queues = (s.ctx n).queues) _ _ ?_ ?_
    · simp only [State.ctx_modCtx_self, and_self]
    · rintro u ⟨hfl, hflight, hq⟩ l -
      have hctx : (u.takeLib n l).ctx n = { u.ctx n with walkLib := l } := by
        rw [State.takeLib, State.planPools_ctx, State.ctx_modCtx_self]
      exact hctx ▸ ⟨hfl, hflight, hq⟩

/-! ## Admission -/

section
variable {s : State} {n q : Nat} {d : Descriptor}

theorem exec_descriptorAdmit (hadm : s.admitting n q = true) (hd : tfind ((s.ctx n).queue q).ring ((s.ctx n).queue q).head = some d) :
    exec (.descriptorAdmit n q) s = match s.firstFail n q d with
      | some k => .next (s.sanityFault n q ((s.ctx n).queue q).head k)
      | none =>
        if d.hold && decide (((s.ctx n).queue q).count < 2) then .next s
        else if 512 < (s.ctx n).sbUsed + (s.footprint n d).length then .next s
        else if (d.cls != Cls.mark && d.cls != Cls.nop) && !s.journalFree n then .next s
        else .next (s.admitHead n q d) := by
  change execDescriptorAdmit n q s = _
  rw [execDescriptorAdmit, hadm, hd]
  rfl

/-- A head without a failing check that finds its follower, its entries and its journal entry is admitted. -/
theorem exec_descriptorAdmit_room (hadm : s.admitting n q = true) (hd : tfind ((s.ctx n).queue q).ring ((s.ctx n).queue q).head = some d)
    (hok : s.firstFail n q d = none) (hhold : d.hold = true → 2 ≤ ((s.ctx n).queue q).count)
    (hroom : (s.ctx n).sbUsed + (s.footprint n d).length ≤ 512) (hjournal : d.cls = .mark ∨ d.cls = .nop ∨ s.journalFree n = true) :
    exec (.descriptorAdmit n q) s = .next (s.admitHead n q d) := by
  rw [exec_descriptorAdmit hadm hd, hok]
  dsimp only
  rw [if_neg (by rw [Bool.and_eq_true, decide_eq_true_eq]; exact fun h => absurd (hhold h.1) (by omega)), if_neg (by omega), if_neg (by rcases hjournal with h | h | h <;> simp [h])]

theorem exec_descriptorAdmit_full (hadm : s.admitting n q = true) (hd : tfind ((s.ctx n).queue q).ring ((s.ctx n).queue q).head = some d)
    (hok : s.firstFail n q d = none) (hfull : 512 < (s.ctx n).sbUsed + (s.footprint n d).length) : exec (.descriptorAdmit n q) s = .next s := by
  rw [exec_descriptorAdmit hadm hd, hok]
  dsimp only
  rw [if_pos hfull, ite_self]

theorem Flight.latch_eq (f : Flight) (fl : BitVec 256) : ∃ l, f.latch fl = { f with latched := l } := by
  unfold Flight.latch
  split
  · exact ⟨_, rfl⟩
  · exact ⟨f.latched, rfl⟩

/-- The admitted flight stands behind those admitted before it. -/
theorem State.admitHead_flight (s : State) (n q : Nat) (d : Descriptor) : ∃ f, ((s.admitHead n q d).ctx n).flight = (s.ctx n).flight ++ [f] ∧
    f.desc = d ∧ f.queue = q ∧ f.phase = .admitted ∧ f.seq = s.flightSeq ∧ f.fp = s.footprint n d := by
  have h : ((s.admitHead n q d).ctx n).flight = _ := congrArg Ctx.flight (State.ctx_modCtx_self s n _)
  obtain ⟨l, hl⟩ := Flight.latch_eq _ _
  exact ⟨_, h, by rw [hl], by rw [hl], by rw [hl], by rw [hl], by rw [hl]⟩

theorem State.admitHead_queue (s : State) (n q : Nat) (d : Descriptor) (p : Nat) : ((s.admitHead n q d).ctx n).queue p = (s.ctx n).queue p := by
  have h : (s.admitHead n q d).ctx n = _ := State.ctx_modCtx_self s n _
  rw [h]
  rfl

theorem State.sanityFault_halt (s : State) (n q qindex check : Nat) : (((s.sanityFault n q qindex check).ctx n).queue q).halt = .sanity := by
  simp only [State.sanityFault, State.ctx_raise, State.ctx_modCtx_self, Ctx.queue_modQueue_self]

end

/-! ## Readiness -/

section
variable {s : State} {n q : Nat} {f : Flight}

theorem exec_descriptorReady (h : s.readyHead n q = some f) : exec (.descriptorReady n q) s =
    if !f.inChain && !(s.ctx n).runs f then .next (s.skipHead n f)
    else match f.desc.counts with
      | none => .next (s.toReady n f.seq [])
      | some h =>
        match s.readCounts n f h with
        | .inl e => .next (s.countsFault n q e)
        | .inr l =>
          if countsOk f l then .next (s.toReady n f.seq l)
          else .next ((s.modCtx n (·.release f.seq)).sanityFault n q f.qindex 7) := by
  change execDescriptorReady n q s = _
  rw [execDescriptorReady, h] <;> rfl

theorem exec_descriptorReady_skip (h : s.readyHead n q = some f) (hhold : f.desc.hold = false) (hchain : f.desc.chain = false)
    (hruns : (s.ctx n).runs f = false) : exec (.descriptorReady n q) s = .next (s.skipHead n f) := by
  rw [exec_descriptorReady h, if_pos (by simp [Flight.inChain, hhold, hchain, hruns])]

/-- A head of a chain, or one whose predicate holds, is not skipped. -/
theorem not_skipped (h : f.desc.hold = true ∨ f.desc.chain = true ∨ (s.ctx n).runs f = true) : ¬ (!f.inChain && !(s.ctx n).runs f) = true := by
  rcases h with h | h | h <;> simp [Flight.inChain, h]

theorem exec_descriptorReady_plain (h : s.readyHead n q = some f) (hruns : f.desc.hold = true ∨ f.desc.chain = true ∨ (s.ctx n).runs f = true)
    (hcounts : f.desc.counts = none) : exec (.descriptorReady n q) s = .next (s.toReady n f.seq []) := by
  rw [exec_descriptorReady h, if_neg (not_skipped hruns), hcounts]

theorem exec_descriptorReady_unread {k : Nat} {e : Fail} (h : s.readyHead n q = some f)
    (hruns : f.desc.hold = true ∨ f.desc.chain = true ∨ (s.ctx n).runs f = true) (hcounts : f.desc.counts = some k)
    (hread : s.readCounts n f k = .inl e) : exec (.descriptorReady n q) s = .next (s.countsFault n q e) := by
  rw [exec_descriptorReady h, if_neg (not_skipped hruns), hcounts]
  dsimp only
  rw [hread]

theorem exec_descriptorReady_counts {k : Nat} {l : List Nat} (h : s.readyHead n q = some f)
    (hruns : f.desc.hold = true ∨ f.desc.chain = true ∨ (s.ctx n).runs f = true) (hcounts : f.desc.counts = some k)
    (hread : s.readCounts n f k = .inr l) : exec (.descriptorReady n q) s =
      if countsOk f l then .next (s.toReady n f.seq l) else .next ((s.modCtx n (·.release f.seq)).sanityFault n q f.qindex 7) := by
  rw [exec_descriptorReady h, if_neg (not_skipped hruns), hcounts]
  dsimp only
  rw [hread]

theorem State.readyHead_some (h : s.readyHead n q = some f) :
    f.waitsDone = true ∧ f.nbtPassed = true ∧ f.phase = .admitted ∧ s.issuing n = true := by
  unfold State.readyHead at h
  split at h
  · cases h
  · rename_i hissue
    split at h
    · split at h
      · rename_i hready
        cases h
        simp only [Bool.and_eq_true, beq_iff_eq] at hready
        simp only [Bool.or_eq_true, Bool.not_eq_true', not_or, Bool.not_eq_false] at hissue
        exact ⟨hready.1.2, hready.2, hready.1.1, hissue.1⟩
      · cases h
    · cases h

theorem exec_notBeforeTimeReached (h : (s.ctx n).headFlight q = some f) : exec (.notBeforeTimeReached n q) s =
    guard (!f.nbtPassed && s.nbtDone f.desc.nbt && (s.ctx n).started) s (s.modFlight n f.seq fun x => { x with nbtPassed := true }) := by
  change execNotBeforeTimeReached n q s = _
  rw [execNotBeforeTimeReached, h]

theorem State.nbtDone_of_le {t : W64} (hknown : s.clk.known = true) (h : t.toNat ≤ s.clk.st.toNat) : s.nbtDone t = true := by
  simp [State.nbtDone, hknown, h]

theorem State.nbtDone_of_ahead {t : W64} (ht : t ≠ 0) (h : s.clk.known = false ∨ s.clk.st.toNat < t.toNat) : s.nbtDone t = false := by
  rw [State.nbtDone, beq_false_of_ne ht, Bool.false_or]
  rcases h with h | h
  · rw [h, Bool.false_and]
  · rw [decide_eq_false (by omega), Bool.and_false]

/-! ## Deadlines -/

theorem exec_shotClockExpiry (h : (s.ctx n).headFlight q = some f) : exec (.shotClockExpiry n q) s =
    if f.phase != Phase.admitted || f.waitsDone || f.desc.shot == 0 || decide (f.shotNs < f.desc.shot * 1000) || ((s.ctx n).queue q).halt != Halt.none then .next s
    else .next (((s.modCtx n fun c => c.modQueue q fun x => { x with halt := .waitDeadline }).log 0 0x1C01 2 0 0x13 q
      (leBytes 1 n ++ leBytes 1 q ++ [0#8, 0#8] ++ leBytes 4 f.qindex ++ waitFlags f.desc ++ leBytes 1 f.openWaits)).raise (128 + 16 * n + q)) := by
  change execShotClockExpiry n q s = _
  rw [execShotClockExpiry, h]

theorem exec_mutualWait (hrun : n = s.runningCtx) (hstart : (s.ctx n).started = true) (hsus : (s.ctx n).suspended = false)
    (hlost : (s.ctx n).lost = false) (hhalt : (s.ctx n).halted = false) (hmutual : (s.ctx n).mutual_ = true) (hcnt : 4096 ≤ (s.ctx n).mutualCnt) :
    exec (.mutualWait n) s = .next (((s.modCtx n fun c => { c with halted := true, waitGraph := (s.ctx n).waitGraphOf n }).log 0 0x1C02 2 0 0x13 n
      ((s.ctx n).waitGraphOf n)).raise (165 + 8 * n)) := by
  change execMutualWait n s = _
  dsimp only [execMutualWait]
  rw [hstart, hsus, hlost, hhalt, hmutual, decide_eq_false (Nat.not_lt.mpr hcnt), ← hrun, bne_self_eq_false]
  rfl

end

/-! ## Issue -/

section
variable {s : State} {n : Nat} {cls : Cls} {f : Flight}

theorem exec_descriptorIssue (hissue : s.issuing n = true) (hpick : s.pickIssue n (engineCls cls) = some f) :
    exec (.descriptorIssue n cls) s = match (if f.desc.cls = .update then (s.ctx n).refusal else none) with
      | some r => .next (s.refuseUpdate n f r)
      | none => .next (s.issueFlight n (engineCls cls) f) := by
  change execDescriptorIssue n cls s = _
  dsimp only [execDescriptorIssue]
  rw [hissue, hpick]
  rfl

theorem exec_descriptorIssue_start (hissue : s.issuing n = true) (hpick : s.pickIssue n (engineCls cls) = some f)
    (h : f.desc.cls ≠ .update ∨ (s.ctx n).refusal = none) : exec (.descriptorIssue n cls) s = .next (s.issueFlight n (engineCls cls) f) := by
  have hnone : (if f.desc.cls = .update then (s.ctx n).refusal else none) = none := by
    rcases h with h | h
    · rw [if_neg h]
    · rw [h, ite_self]
  rw [exec_descriptorIssue hissue hpick, hnone]

theorem exec_descriptorIssue_refuse {r : Nat} (hissue : s.issuing n = true) (hpick : s.pickIssue n (engineCls cls) = some f)
    (hcls : f.desc.cls = .update) (h : (s.ctx n).refusal = some r) : exec (.descriptorIssue n cls) s = .next (s.refuseUpdate n f r) := by
  rw [exec_descriptorIssue hissue hpick, if_pos hcls, h]

theorem exec_descriptorIssue_idle (h : s.issuing n = false) : exec (.descriptorIssue n cls) s = .next s := by
  change execDescriptorIssue n cls s = _
  dsimp only [execDescriptorIssue]
  rw [h]
  rfl

theorem exec_descriptorReady_idle (h : s.issuing n = false) (q : Nat) : exec (.descriptorReady n q) s = .next s := by
  change execDescriptorReady n q s = _
  rw [execDescriptorReady, State.readyHead, h]
  rfl

theorem Ctx.headFlight_queue {c : Ctx} {q : Nat} (h : c.headFlight q = some f) : f.queue = q := by
  have hf := List.find?_some h
  simp only [Bool.and_eq_true, beq_iff_eq] at hf
  exact hf.1

theorem State.canIssue_some {k : Cls} {q : Nat} (h : s.canIssue n k q = some f) : f.phase = .ready ∧ engineCls f.desc.cls = k ∧
    (s.ctx n).conflict f = none ∧ s.accepts n f = true ∧ (s.ctx n).headFlight q = some f := by
  unfold State.canIssue at h
  split at h
  · cases h
  · split at h
    · rename_i hhead
      split at h
      · rename_i hok
        cases h
        simp only [Bool.and_eq_true, beq_iff_eq, Option.isNone_iff_eq_none] at hok
        obtain ⟨⟨⟨hphase, hcls⟩, hconf⟩, hacc⟩ := hok
        exact ⟨hphase, hcls, hconf, hacc, hhead⟩
      · cases h
    · cases h

theorem State.pickIssue_some {k : Cls} (h : s.pickIssue n k = some f) : f.phase = .ready ∧ engineCls f.desc.cls = k ∧
    (s.ctx n).conflict f = none ∧ s.accepts n f = true ∧ (s.ctx n).headFlight f.queue = some f := by
  obtain ⟨i, -, hi⟩ := List.exists_of_findSome?_eq_some h
  obtain ⟨hphase, hcls, hconf, hacc, hhead⟩ := State.canIssue_some hi
  exact ⟨hphase, hcls, hconf, hacc, Ctx.headFlight_queue hhead ▸ hhead⟩

/-- A flight of context n as it is once issued (R91, R248, R256). -/
def State.issued (s : State) (n : Nat) (f : Flight) : Flight :=
  { f with phase := .issued, issueSt := s.stNow, issueKnown := s.clk.known, issueA := s.countA, issueExp := (s.ctx n).upd.exp,
           shotNs := 0, arrived := true, epoch := (s.ctx n).epoch }

/-- A MARK or NOP outside a chain that starts no step is stamped and starts nothing. -/
theorem State.issueFlight_idle {k : Cls} (hf : (s.ctx n).fl f.seq = some f) (hcls : f.desc.cls = .mark ∨ f.desc.cls = .nop)
    (hhold : f.desc.hold = false) (hchain : f.desc.chain = false) (hphase : f.desc.phase ≠ 1) :
    s.issueFlight n k f = s.stampIssue n k f ∧
    ((s.stampIssue n k f).ctx n).fl f.seq = some (s.issued n f) := by
  have hbegins : ((s.ctx n).begins f).any (fun g => g.desc.phase == 1) = false := by
    simp [Ctx.begins, hhold, hchain, hphase]
  have hfl : ((s.stampIssue n k f).ctx n).fl f.seq = some (s.issued n f) := by
    rw [State.stampIssue, State.ctx_modCtx_self]
    exact Ctx.fl_modFl (g := s.issued n) hf fun _ => rfl
  refine ⟨?_, hfl⟩
  dsimp only [State.issueFlight]
  rw [hbegins, if_neg Bool.false_ne_true, hfl]
  dsimp only [State.startEngine]
  have hissued : (s.issued n f).desc.cls = f.desc.cls := rfl
  rcases hcls with h | h <;> rw [hissued, h]

theorem State.stampIssue_head (k : Cls) :
    (((s.stampIssue n k f).ctx n).queue f.queue).head = (((s.ctx n).queue f.queue).head + 1) % 2 ^ ((s.ctx n).queue f.queue).log2 := by
  have hq : ((s.stampIssue n k f).ctx n).queue f.queue = ((s.ctx n).advanceHead f.queue).queue f.queue := by
    rw [State.stampIssue, State.ctx_modCtx_self]
    rfl
  rw [hq, Ctx.advanceHead, Ctx.queue_modQueue_self]

end

/-! ## The refusal of an UPDATE -/

/-- Queue q of context n has halted at a refused update, whose flag stands. -/
def UpdateRefused (n q : Nat) (s : State) : Prop := ((s.ctx n).queue q).halt = .refused ∧ (s.ctx n).flag 245 = true

section
variable {s t : State} {n q : Nat}

theorem updateRefused_of_ctx (h : UpdateRefused n q s) (hc : t.ctx n = s.ctx n) : UpdateRefused n q t := by
  rw [UpdateRefused, hc]
  exact h

/-- An update of the context that leaves its queues and flags. -/
theorem updateRefused_modCtx (h : UpdateRefused n q s) {g : Ctx → Ctx} (hq : ∀ c, (g c).queue q = c.queue q) (hf : ∀ c, (g c).flag 245 = c.flag 245) :
    UpdateRefused n q (s.modCtx n g) := by
  rw [UpdateRefused, State.ctx_modCtx_self, hq, hf]
  exact h

theorem updateRefused_modCommit (h : UpdateRefused n q s) (g : Commit → Commit) : UpdateRefused n q (s.modCtx n (·.modCommit g)) :=
  updateRefused_modCtx h (fun _ => rfl) fun _ => rfl

theorem updateRefused_writeFlag (h : UpdateRefused n q s) {k : Nat} (v : Bool) (hk : k ≠ 245) : UpdateRefused n q (s.writeFlag n k v) :=
  updateRefused_modCtx h (fun _ => rfl) fun c => (Ctx.flag_writeFlag c k v (by decide)).trans (if_neg hk.symm)

theorem updateRefused_sendDown (h : UpdateRefused n q s) (kind : Nat) (d : Decision) : UpdateRefused n q (s.sendDown n kind d) := by
  unfold State.sendDown
  split
  · exact h
  · exact h

theorem updateRefused_applyCommit (h : UpdateRefused n q s) (step : Word) (digest : W64) (exp growth : Nat) :
    UpdateRefused n q (s.applyCommit n step digest exp growth) := by
  dsimp only [State.applyCommit]
  have hraise : ∀ {u : State} (b : Bool) (g : State → State), (∀ u, (g u).ctx n = u.ctx n) → UpdateRefused n q u →
      UpdateRefused n q (if b then g u else u) := fun b g hg hu => by
    cases b with
    | true => exact updateRefused_of_ctx hu (hg _)
    | false => exact hu
  have h3 : UpdateRefused n q _ := updateRefused_writeFlag (k := 244) (updateRefused_writeFlag (k := 241) (updateRefused_writeFlag (k := 240)
    (updateRefused_modCtx h (g := fun c => { c with
      upd := { c.upd with step := step, exp := exp, growth := growth, stepDigest := digest, decision := step, verdict := 1, undecided := false }
      commit := { c.commit with decided := true, halted := false, queried := false } }) (fun _ => rfl) fun _ => rfl)
      false (by decide)) false (by decide)) true (by decide)
  refine hraise _ (fun u => u.raise (238 + n)) (fun u => State.ctx_raise u n _) ?_
  refine hraise _ (fun u => (u.log 4 0x4807 1 0 0x54 0 (leBytes 1 n)).raise (224 + n)) (fun u => by rw [State.ctx_raise, State.ctx_log]) ?_
  split
  · rename_i f hf
    have hq : ∀ p c, (Ctx.modQueue c p fun x => if x.halt == Halt.memberDeadline || x.halt == Halt.rootDeadline || x.halt == Halt.huddleDeadline
        then { x with halt := .none } else x).queue q = c.queue q ∨ (c.queue q).halt ≠ .refused := fun p c => by
      by_cases hp : q = p
      · subst hp
        rw [Ctx.queue_modQueue_self]
        by_cases hr : (c.queue q).halt = .refused
        · exact .inl (by rw [hr]; rfl)
        · exact .inr hr
      · exact .inl (Ctx.queue_modQueue_ne c p _ hp)
    rw [UpdateRefused, State.ctx_modCtx_self]
    exact ⟨(congrArg Queue.halt ((hq f.queue _).resolve_right fun hn => hn h3.1)).trans h3.1, h3.2⟩
  · exact h3

theorem updateRefused_rootCommit (h : UpdateRefused n q s) (v : Vote) : UpdateRefused n q (s.rootCommit n v) :=
  updateRefused_applyCommit (updateRefused_sendDown h 0 _) ..

theorem updateRefused_rootHold (h : UpdateRefused n q s) (reason : Nat) (v : Vote) : UpdateRefused n q (s.rootHold n reason v) := by
  refine updateRefused_of_ctx ?_ (State.ctx_raise _ n _)
  exact updateRefused_writeFlag (updateRefused_of_ctx (updateRefused_sendDown h 1 _) (State.ctx_log ..)) true (by decide)

theorem updateRefused_rootPair (h : UpdateRefused n q s) (v : Vote) : UpdateRefused n q (s.rootPair n v) := by
  have hout : UpdateRefused n q (if (s.ctx n).commit.pairOut then s
      else (s.emit (.pair n v.step v.exp v.growth v.digest)).modCtx n (·.modCommit fun c => { c with pairOut := true })) := by
    split
    · exact h
    · exact updateRefused_modCommit (s := s.emit _) h _
  dsimp only [State.rootPair]
  split
  · exact hout
  · split
    · exact updateRefused_rootCommit hout v
    · refine updateRefused_modCommit (updateRefused_of_ctx ?_ (State.ctx_raise _ n _)) _
      exact updateRefused_of_ctx (updateRefused_rootHold hout 8 v) (State.ctx_log ..)

theorem updateRefused_rootDecide (h : UpdateRefused n q s) : UpdateRefused n q (s.rootDecide n) := by
  dsimp only [State.rootDecide]
  split
  · exact h
  · rename_i v _
    split
    · exact h
    · split
      · split
        · exact h
        · exact updateRefused_rootHold (updateRefused_modCommit h _) v.reason v
      · split
        · split
          · exact updateRefused_rootPair h v
          · exact updateRefused_rootCommit h v
        · exact h

theorem updateRefused_commitUp (h : UpdateRefused n q s) : UpdateRefused n q (s.commitUp n) := by
  dsimp only [State.commitUp]
  split
  · exact h
  · split
    · exact updateRefused_rootDecide h
    · split
      · split
        · exact h
        · split
          · exact h
          · exact updateRefused_modCommit h _
      · exact h

theorem updateRefused_castVote (h : UpdateRefused n q s) (step reason : Nat) : UpdateRefused n q (s.castVote n step reason) :=
  updateRefused_commitUp (updateRefused_modCommit (updateRefused_modCommit h _) _)

/-- The queue halts and flag 245 is set, and the vote that follows leaves both. -/
theorem State.refuseUpdate_refused (s : State) (n : Nat) (f : Flight) (reason : Nat) : UpdateRefused n f.queue (s.refuseUpdate n f reason) := by
  refine updateRefused_castVote (updateRefused_of_ctx ?_ (State.ctx_raise _ n _)) _ _
  rw [UpdateRefused, State.writeFlag, State.ctx_modCtx_self, State.ctx_log, State.ctx_modCtx_self]
  exact ⟨by rw [Ctx.queue_writeFlag, Ctx.queue_modQueue_self], (Ctx.flag_writeFlag _ 245 true (by decide)).trans (if_pos rfl)⟩

end

/-! ## Completion -/

section
variable {s : State} {n : Nat} {f : Flight}

theorem State.completeOne_fl (s : State) (n : Nat) (f : Flight) : ((s.completeOne n f).ctx n).fl f.seq = none := by
  obtain ⟨-, hflight, -⟩ := State.settle_ctx (((s.endOutputs n f).telemetry n f false).modCtx n fun c => ((c.setField f.desc.set0).setField f.desc.set1).release f.seq) n
  refine (congrArg (List.find? fun x : Flight => x.seq == f.seq) hflight).trans ?_
  rw [State.ctx_modCtx_self]
  exact Ctx.fl_release _ _

/-- Completion sets the flags of its SET fields in their order. -/
theorem State.completeOne_flag (s : State) (n : Nat) (f : Flight) (k : Nat) : ∃ c : Ctx,
    ((s.completeOne n f).ctx n).flag k = ((c.setField f.desc.set0).setField f.desc.set1).flag k := by
  obtain ⟨hflags, -, -⟩ := State.settle_ctx (((s.endOutputs n f).telemetry n f false).modCtx n fun c => ((c.setField f.desc.set0).setField f.desc.set1).release f.seq) n
  refine ⟨((s.endOutputs n f).telemetry n f false).ctx n, (congrArg (fun fl : BitVec 256 => fl.getLsbD k) hflags).trans ?_⟩
  rw [State.ctx_modCtx_self]
  rfl

theorem exec_descriptorComplete {seq : Nat} (hf : (s.ctx n).fl seq = some f) (hphase : f.phase = .issued) (hwork : s.working n = true)
    (hdone : s.outputsDone n f = true) : exec (.descriptorComplete n seq) s = match (s.ctx n).matOf seq with
      | some m => .next (s.completeMat n m)
      | none =>
        match f.desc.send, f.sent with
        | some x, none => (match ((s.sendShort n f x).ctx n).fl seq with
          | some g => .next (if (s.sendShort n f x).sendHeld n g then s.sendShort n f x else (s.sendShort n f x).completeOne n g)
          | none => .next (s.sendShort n f x))
        | _, _ => .next (if s.sendHeld n f then s else s.completeOne n f) := by
  change execDescriptorComplete n seq s = _
  rw [execDescriptorComplete, hf]
  dsimp only
  rw [hphase, hwork, hdone]
  rfl

theorem exec_descriptorComplete_sent {seq : Nat} (hf : (s.ctx n).fl seq = some f) (hphase : f.phase = .issued) (hwork : s.working n = true)
    (hdone : s.outputsDone n f = true) (hmat : (s.ctx n).matOf seq = none) (hsent : f.desc.send = none ∨ f.sent ≠ none) :
    exec (.descriptorComplete n seq) s = .next (if s.sendHeld n f then s else s.completeOne n f) := by
  rw [exec_descriptorComplete hf hphase hwork hdone, hmat]
  dsimp only
  split
  · rename_i hsend hnone
    rcases hsent with h | h
    · exact absurd (h.symm.trans hsend) (by simp)
    · exact absurd hnone h
  · rfl

theorem exec_descriptorComplete_idle {seq : Nat} (hf : (s.ctx n).fl seq = some f) (hdone : s.outputsDone n f = false) :
    exec (.descriptorComplete n seq) s = .next s := by
  change execDescriptorComplete n seq s = _
  rw [execDescriptorComplete, hf]
  dsimp only
  rw [hdone, if_pos (by simp)]

theorem exec_descriptorComplete_stopped (h : s.working n = false) (seq : Nat) : exec (.descriptorComplete n seq) s = .next s := by
  change execDescriptorComplete n seq s = _
  rw [execDescriptorComplete]
  split
  · rfl
  · rw [h, if_pos (by simp)]

end

end Sys2Proof.Machine

open Sys2Proof Sys2Proof.Machine

/-- Settles O23: the head with room is admitHead's flight; a failing check is a sanity fault, and a full scoreboard leaves the state. -/
theorem admissionIsInOrder : Obligations.AdmissionIsInOrder := by
  intro s n q d hn hadm hd
  refine ⟨fun hok hhold hroom hjournal => ?room, fun k hk => ⟨?fault, State.sanityFault_halt ..⟩,
    fun hfull hok => exec_descriptorAdmit_full hadm hd hok hfull⟩
  case room =>
    obtain ⟨f, hflight, hdesc, hqueue, hphase, hseq, hfp⟩ := State.admitHead_flight s n q d
    refine ⟨_, f, exec_descriptorAdmit_room hadm hd hok hhold hroom hjournal, hflight, hdesc, hqueue, hphase, hseq, hfp, rfl,
      State.admitHead_queue s n q d q, fun m hm hne => ?_, (State.admitHead_only (by decide) n q d).mpr .refl⟩
    exact State.ctx_modCtx_ne s hn hm hne _
  case fault => rw [exec_descriptorAdmit hadm hd, hk]

/-- Settles O24: a ready head by its predicate and counts, and each deadline by its conditions. -/
theorem headsBecomeReadyOrHalt : Obligations.HeadsBecomeReadyOrHalt := by
  refine ⟨fun s n q f => ⟨fun h => ?ready, State.readyHead_some, fun h hn hstart hknown hle => ?nbt, fun h hne hahead => ?ahead⟩,
    fun s n q hn => ⟨fun f h hphase hwaits hshot hexp hhalt => ?shot, fun f h hno => ?noShot, ?wait⟩⟩
  case ready =>
    refine ⟨exec_descriptorReady_skip h, exec_descriptorReady_plain h, fun k e hruns => exec_descriptorReady_unread h hruns,
      fun k l hruns hcounts hread => ⟨fun hok => ?_, fun hbad => ?_⟩⟩
    · rw [exec_descriptorReady_counts h hruns hcounts hread, if_pos hok]
    · rw [exec_descriptorReady_counts h hruns hcounts hread, if_neg (by simp [hbad])]
  case nbt => rw [exec_notBeforeTimeReached h, hn, State.nbtDone_of_le hknown hle, hstart]; rfl
  case ahead => rw [exec_notBeforeTimeReached h, State.nbtDone_of_ahead hne hahead, Bool.and_false]; rfl
  case shot => rw [exec_shotClockExpiry h, if_neg (by simp [hphase, hwaits, hshot, hexp, hhalt])]
  case noShot =>
    rw [exec_shotClockExpiry h, if_pos]
    rcases hno with h | h | h <;> simp [h]
  case wait => exact exec_mutualWait

/-- Settles O25: the choice by pickIssue, the stamp of a flight that starts no engine, the refusal's halt and flag kept by its vote, and completion by
its outputs. -/
theorem issueAndCompletion : Obligations.IssueAndCompletion := by
  intro s n
  refine ⟨fun cls f hissue hpick h => exec_descriptorIssue_start hissue hpick h, fun cls f h => State.pickIssue_some h,
    fun cls f hn hf hcls hhold hchain hphase => ?stamp, fun cls f r hissue hpick hcls h => exec_descriptorIssue_refuse hissue hpick hcls h,
    fun f r _ => State.refuseUpdate_refused s n f r, fun f _ => ⟨State.completeOne_fl s n f, fun k v hset hk => ?set1, fun k v hset hk hother => ?set0⟩,
    fun seq f hf hphase hwork hdone => ?complete, fun seq f hf hdone => exec_descriptorComplete_idle hf hdone,
    fun h seq => exec_descriptorComplete_stopped h seq, fun h cls q => ⟨exec_descriptorIssue_idle h, exec_descriptorReady_idle h q⟩⟩
  case stamp =>
    obtain ⟨hissue, hfl⟩ := State.issueFlight_idle (k := engineCls cls) hf hcls hhold hchain hphase
    rw [hissue]
    exact ⟨_, hfl, rfl, rfl, rfl, State.stampIssue_head _⟩
  case set1 =>
    obtain ⟨c, hc⟩ := State.completeOne_flag s n f k
    rw [hc, hset, Ctx.flag_setField_some _ v hk]
  case set0 =>
    obtain ⟨c, hc⟩ := State.completeOne_flag s n f k
    rw [hc, Ctx.flag_setField_ne _ _ hk hother, hset, Ctx.flag_setField_some _ v hk]
  case complete =>
    refine ⟨fun m hm => ?_, fun hm hsent => ⟨fun h => ?_, fun h => ?_⟩, fun x g hm hsend hsent hg => ⟨fun h => ?_, fun h => ?_⟩⟩
    · rw [exec_descriptorComplete hf hphase hwork hdone, hm]
    · rw [exec_descriptorComplete_sent hf hphase hwork hdone hm hsent, if_neg (by simp [h])]
    · rw [exec_descriptorComplete_sent hf hphase hwork hdone hm hsent, if_pos h]
    all_goals
      rw [exec_descriptorComplete hf hphase hwork hdone, hm]
      dsimp only
      rw [hsend, hsent]
      dsimp only
      rw [hg]
      dsimp only
      rw [h]
      rfl

end

section
/-! PROOFS. The short pass and the huddles (R127 to R130, R246 to R249). -/

namespace Sys2Proof.Machine

theorem guard_of_true {b : Bool} (h : b = true) (s t : State) : guard b s t = .next t := by rw [h, guard, if_pos rfl]

theorem guard_of_false {b : Bool} (h : b = false) (s t : State) : guard b s t = .next s := by rw [h, guard, if_neg Bool.false_ne_true]

/-! ## Mailboxes -/

/-- What becomes visible comes behind what was, each transfer of its own count of messages, and no message is lost. -/
structure Shows (b c : Mbox) : Prop where
  behind : ∃ l, c.shown = b.shown ++ l ∧ ∀ x ∈ l, ∃ y ∈ x, x.length = y.count
  kept : ∀ x, x ∈ b.parts → x ∈ c.parts ∨ x ∈ c.shown.flatten

theorem shows_refl (b : Mbox) : Shows b b := ⟨⟨[], (List.append_nil _).symm, by simp⟩, fun _ h => .inl h⟩

theorem Shows.trans {a b c : Mbox} (h : Shows a b) (k : Shows b c) : Shows a c := by
  obtain ⟨l, hl, hcount⟩ := h.behind
  obtain ⟨r, hr, hcount'⟩ := k.behind
  refine ⟨⟨l ++ r, by rw [hr, hl, List.append_assoc], fun x hx => (List.mem_append.mp hx).elim (hcount x) (hcount' x)⟩, fun x hx => ?_⟩
  rcases h.kept x hx with hparts | hshown
  · exact k.kept x hparts
  · rw [hr, List.flatten_append]
    exact .inr (List.mem_append_left _ hshown)

/-- A transfer all of whose messages are there becomes visible. -/
theorem shows_transfer (b : Mbox) (p : ShortMsg → Bool) (next : List ((Nat × Nat) × Nat)) (le : ShortMsg → ShortMsg → Bool) {m : ShortMsg} {r : List ShortMsg}
    (hl : b.parts.filter p = m :: r) (hcount : (b.parts.filter p).length = m.count) :
    Shows b ⟨b.shown ++ [(b.parts.filter p).mergeSort le], b.parts.filter fun x => !p x, next⟩ where
  behind := by
    refine ⟨_, rfl, fun x hx => ⟨m, ?_⟩⟩
    rw [List.mem_singleton.mp hx]
    exact ⟨List.mem_mergeSort.mpr (hl ▸ List.mem_cons_self ..), (List.length_mergeSort _).trans hcount⟩
  kept x hx := by
    by_cases hp : p x = true
    · refine .inr (List.mem_flatten.mpr ⟨_, List.mem_append_right _ (List.mem_singleton_self _), ?_⟩)
      exact List.mem_mergeSort.mpr (List.mem_filter.mpr ⟨hx, hp⟩)
    · exact .inl (List.mem_filter.mpr ⟨hx, by simpa using hp⟩)

theorem Mbox.shows_show (fuel : Nat) (b : Mbox) (k : Nat × Nat) : Shows b (Mbox.show_ fuel b k) := by
  induction fuel generalizing b with
  | zero => exact shows_refl b
  | succ fuel ih =>
    rw [Mbox.show_]
    split
    · exact shows_refl b
    · rename_i m r hl
      split
      · rename_i hcount
        exact (shows_transfer b _ _ _ hl hcount).trans (ih _)
      · exact shows_refl b

theorem Mbox.take_shown (b : Mbox) (m : ShortMsg) : ∃ l, (b.take m).shown = b.shown ++ l ∧ ∀ x, x ∈ l → ∃ y, y ∈ x ∧ x.length = y.count :=
  (Mbox.shows_show 17 { b with parts := b.parts ++ [m] } (ShortMsg.from_ m)).behind

theorem Mbox.take_keeps (b : Mbox) (m x : ShortMsg) (h : x ∈ b.parts ∨ x = m) : x ∈ (b.take m).parts ∨ x ∈ (b.take m).shown.flatten := by
  refine (Mbox.shows_show 17 { b with parts := b.parts ++ [m] } (ShortMsg.from_ m)).kept x ?_
  rcases h with h | h
  · exact List.mem_append_left _ h
  · exact List.mem_append_right _ (List.mem_singleton.mpr h)

/-! ## Delivery -/

section
variable (s : State) (m : ShortMsg)

theorem State.mbox_deposit : (s.deposit m).mbox m.squad m.ctx m.mbox = (s.mbox m.squad m.ctx m.mbox).take m := by
  rw [State.mbox, State.deposit, State.squad_modSquad_self]
  exact tget_tset_self ..

theorem State.squad_deposit_ne {k : Nat} (h : k ≠ m.squad) : (s.deposit m).squad k = s.squad k := State.squad_modSquad_ne s _ _ _ h

theorem State.overflow_setOverflow (c n : Nat) (l : List ShortMsg) : (s.setOverflow c n l).overflow c n = l := by
  rw [State.overflow, State.setOverflow, State.chan_modChan_self]
  exact tget_tset_self ..

theorem State.overflow_spillShort : (s.spillShort m).overflow (m.squad / 16) m.ctx = s.overflow (m.squad / 16) m.ctx ++ [m] := by
  rw [State.spillShort, State.overflow, chan_of_only ((State.log_only (ps := [.out, .ledger, .host, .watch]) (by decide) ..).mpr .refl) (by decide)]
  exact State.overflow_setOverflow s ..

theorem State.squads_spillShort : (s.spillShort m).squads = s.squads :=
  (State.spillShort_only (ps := [.chans, .out, .ledger, .host, .watch]) (by decide) m).mpr .refl .squads (by decide)

theorem State.ctx_spillShort (n : Nat) : (s.spillShort m).ctx n = s.ctx n :=
  ctx_of_only ((State.spillShort_only (ps := [.chans, .out, .ledger, .host, .watch]) (by decide) m).mpr .refl) (by decide) n

theorem exec_shortPassMessage (hup : s.up = true) (hfence : (s.squad m.squad).fenced = false) (hlost : (s.ctx m.ctx).lost = false) :
    exec (.shortPassMessage m) s = .next (s.deliverShort m) := by
  change execShortPassMessage m s = _
  rw [execShortPassMessage, hup, hfence, hlost]
  rfl

variable {s m}

theorem State.deliverShort_had (h : s.hasShort m = true) : s.deliverShort m = s := if_pos h

/-- A message that has not come before and that no held one of its source precedes is placed. -/
theorem State.deliverShort_new (h : s.hasShort m = false) (hsends : (s.ctx m.ctx).sends.any (fun x => ShortMsg.sameRoute x m) = false) :
    s.deliverShort m = s.placeShort m := by
  rw [State.deliverShort, if_neg (by simp [h]), if_neg (by simp [hsends])]

theorem State.placeShort_open (h : s.boxOpen m = true) : s.placeShort m = s.deposit m := if_pos h

theorem State.placeShort_spill (h : s.boxOpen m = false) (hroom : s.spillRoom m = true) : s.placeShort m = s.spillShort m := by
  rw [State.placeShort, if_neg (by simp [h]), if_pos hroom]

theorem State.placeShort_hold (h : s.boxOpen m = false) (hroom : s.spillRoom m = false) : s.placeShort m = s.holdShort m := by
  rw [State.placeShort, if_neg (by simp [h]), if_neg (by simp [hroom])]

theorem State.deliverShort_hold (h : s.hasShort m = false) (hwait : (s.ctx m.ctx).sends.any (fun x => ShortMsg.sameRoute x m) = true ∨
    (s.boxOpen m = false ∧ s.spillRoom m = false)) : s.deliverShort m = s.holdShort m := by
  cases hsends : (s.ctx m.ctx).sends.any fun x => ShortMsg.sameRoute x m with
  | true => rw [State.deliverShort, if_neg (by simp [h]), if_pos hsends]
  | false =>
    obtain ⟨hbox, hroom⟩ := hwait.resolve_left (by simp [hsends])
    rw [State.deliverShort_new h hsends, State.placeShort_hold hbox hroom]

theorem State.boxOpen_of_waits (h : (s.overflow (m.squad / 16) m.ctx).any (fun x => ShortMsg.sameRoute x m) = true) : s.boxOpen m = false := by
  rw [State.boxOpen, h, Bool.not_true, Bool.and_false]

theorem exec_overflowDeliver {c n : Nat} (h : s.nextSpilled (s.overflow c n) = some m) :
    exec (.overflowDeliver c n) s = .next ((s.setOverflow c n ((s.overflow c n).erase m)).deposit m) := by
  change execOverflowDeliver c n s = _
  rw [execOverflowDeliver, h]

theorem exec_heldMessageRelease {n : Nat} (h : (s.ctx n).sends.find? (fun x => s.boxOpen x || s.spillRoom x) = some m) :
    exec (.heldMessageRelease n) s = .next ((s.modCtx n fun c => { c with sends := c.sends.erase m }).placeShort m) := by
  change execHeldMessageRelease n s = _
  rw [execHeldMessageRelease, h]

theorem State.squad_modCtx (n : Nat) (f : Ctx → Ctx) (k : Nat) : (s.modCtx n f).squad k = s.squad k := by
  rw [State.squad, State.modCtx_squads]
  rfl

theorem State.chan_modCtx (n : Nat) (f : Ctx → Ctx) (k : Nat) : (s.modCtx n f).chan k = s.chan k := by
  rw [State.chan, State.modCtx_chans]
  rfl

/-- An update of a context changes no mailbox and no overflow area. -/
theorem State.boxOpen_modCtx (n : Nat) (f : Ctx → Ctx) : (s.modCtx n f).boxOpen m = s.boxOpen m := by
  rw [State.boxOpen, State.mbox, State.overflow, State.squad_modCtx, State.chan_modCtx]
  rfl

theorem State.spillRoom_modCtx (n : Nat) (f : Ctx → Ctx) : (s.modCtx n f).spillRoom m = s.spillRoom m := by
  rw [State.spillRoom, State.overflow, State.chan_modCtx]
  rfl

end

section
variable {s : State} {m : ShortMsg}

theorem State.placeShort_ctx (h : s.boxOpen m = true ∨ s.spillRoom m = true) (n : Nat) : (s.placeShort m).ctx n = s.ctx n := by
  cases hbox : s.boxOpen m with
  | true =>
    rw [State.placeShort_open hbox]
    rfl
  | false =>
    rw [State.placeShort_spill hbox (h.resolve_left (by simp [hbox]))]
    exact State.ctx_spillShort ..

end

/-! ## Huddles -/

section
variable (c : Ctx) (k e sq : Nat)

theorem Ctx.hud_key : (c.hud k e).number = k ∧ (c.hud k e).epoch = e := by
  unfold Ctx.hud
  cases h : c.huddles.find? fun h => h.number == k && h.epoch == e with
  | none => exact ⟨rfl, rfl⟩
  | some x => simpa using List.find?_some h

/-- A huddle put in place is the one found under its number and epoch. -/
theorem Ctx.hud_setHud (h : Huddle) : (c.setHud h).hud h.number h.epoch = h := by
  have hnone : (c.huddles.filter fun x => !(x.number == h.number && x.epoch == h.epoch)).find? (fun x => x.number == h.number && x.epoch == h.epoch) = none :=
    List.find?_eq_none.mpr fun x hx => by simpa only [Bool.not_eq_true, Bool.not_eq_true'] using (List.mem_filter.mp hx).2
  rw [Ctx.hud, Ctx.setHud]
  dsimp only
  rw [List.find?_append, hnone]
  simp

theorem Ctx.arrive_arrived : sq ∈ ((c.arrive k e sq).hud k e).arrived ∧ ∀ x, x ∈ (c.hud k e).arrived → x ∈ ((c.arrive k e sq).hud k e).arrived := by
  unfold Ctx.arrive
  dsimp only
  split
  · rename_i h
    exact ⟨by simpa using h, fun x hx => hx⟩
  · obtain ⟨hk, he⟩ := Ctx.hud_key c k e
    have hset := Ctx.hud_setHud c { c.hud k e with arrived := (c.hud k e).arrived ++ [sq] }
    dsimp only at hset
    rw [show (c.setHud { c.hud k e with arrived := (c.hud k e).arrived ++ [sq] }).hud k e = _ from
      (congrArg₂ (Ctx.hud _) hk.symm he.symm).trans hset]
    exact ⟨List.mem_append_right _ (List.mem_singleton_self _), fun x hx => List.mem_append_left _ hx⟩

end

section
variable {s : State} {n k q sq : Nat} {f : Flight}

theorem exec_squadHuddleArrival (h : (s.ctx n).hudFlight k = some f) : exec (.squadHuddleArrival n k sq) s =
    guard (hudScope f.desc == some .squad && !(s.squad sq).fenced && s.walkersEnded n sq f && s.handlesBack n sq f) s
      (s.modCtx n fun c => c.arrive k f.epoch sq) := by
  change execSquadHuddleArrival n k sq s = _
  rw [execSquadHuddleArrival, h]

theorem exec_huddlePacket {p : HuddlePkt} (hup : s.up = true) (hlost : (s.ctx p.ctx).lost = false) : exec (.huddlePacket p) s =
    if p.done then
      if ((s.ctx p.ctx).hud p.number p.epoch).done then .next s
      else .next ((s.modCtx p.ctx fun c => c.setHud { c.hud p.number p.epoch with done := true }).hudDown p.ctx p.number p.epoch)
    else .next (s.hudRanks p.ctx p.number p.epoch ((List.range (p.hi + 1 - p.lo)).map (p.lo + ·))) := by
  change execHuddlePacket p s = _
  rw [execHuddlePacket, hup, hlost]
  rfl

/-- The halt of a queue whose members' clock has expired. -/
def State.lateHalt (s : State) (n q : Nat) (f : Flight) : State :=
  s.modCtx n fun c => (c.modFl f.seq fun x => { x with expired := true }).modQueue q fun x =>
    { x with halt := if f.desc.cls = .huddle then .huddleDeadline else .collectiveDeadline }

theorem exec_huddleShotClockExpiry_huddle {sc : HudScope} (h : s.lateFlight n q = some f) (hscope : hudScope f.desc = some sc) :
    exec (.huddleShotClockExpiry n q) s = .next ((s.lateHalt n q f).huddleDeadline n q ((s.ctx n).hud (huddleNo f.desc) f.epoch).number
      (match sc with | .squad => 0 | .device _ => 1 | .slice => 2) ((s.ctx n).hud (huddleNo f.desc) f.epoch).arrived.length
      (if (match sc with | .squad => 0 | .device _ => 1 | .slice => 2) = 2 then (s.ctx n).missingRank ((s.ctx n).hud (huddleNo f.desc) f.epoch) else max32)) := by
  change execHuddleShotClockExpiry n q s = _
  rw [execHuddleShotClockExpiry, h]
  dsimp only
  split
  · rename_i hsc
    cases hscope.symm.trans hsc
    cases sc <;> rfl
  · rename_i hsc _
    cases hscope.symm.trans hsc
  · rename_i hsc _
    cases hscope.symm.trans hsc

theorem exec_huddleShotClockExpiry_coll {kind : CollKind} {tag : Nat} (h : s.lateFlight n q = some f) (hscope : hudScope f.desc = none)
    (hcoll : Descriptor.coll f.desc = some (kind, tag)) : exec (.huddleShotClockExpiry n q) s =
      .next (((s.lateHalt n q f).log 0 0x4402 2 0 0x13 q (leBytes 1 n ++ leBytes 1 q ++ leBytes 2 tag ++ leBytes 4 0 ++ leBytes 4 (s.collKnown n f))).raise 219) := by
  change execHuddleShotClockExpiry n q s = _
  rw [execHuddleShotClockExpiry, h]
  dsimp only
  split
  · rename_i hsc
    cases hscope.symm.trans hsc
  · rename_i hco
    cases hcoll.symm.trans hco
    rfl
  · rename_i hco
    cases hcoll.symm.trans hco

end

end Sys2Proof.Machine

open Sys2Proof Sys2Proof.Machine

/-- Settles O29: a message goes by placeShort to its mailbox, to the overflow area or to the held ones, and Mbox.show_ appends whole transfers. -/
theorem shortPassKeepsOrder : Obligations.ShortPassKeepsOrder := by
  refine ⟨fun s m _ hup hfence hlost => ⟨fun hhad => ?had, fun hnew => ⟨fun hsends hbox => ?room, fun hsends hbox hroom => ?spill, fun hwait => ?hold⟩,
    fun x hx => ?back, fun hheld => ?held, State.boxOpen_of_waits⟩, fun b m => ⟨Mbox.take_shown b m, Mbox.take_keeps b m⟩⟩
  case had => rw [exec_shortPassMessage s m hup hfence hlost, State.deliverShort_had hhad]
  case room =>
    refine ⟨s.deposit m, ?_, State.mbox_deposit s m, fun k hk => State.squad_deposit_ne s m hk, (State.deposit_only (by decide) m).mpr .refl⟩
    rw [exec_shortPassMessage s m hup hfence hlost, State.deliverShort_new hnew hsends, State.placeShort_open hbox]
  case spill =>
    refine ⟨s.spillShort m, ?_, State.overflow_spillShort s m, State.squads_spillShort s m⟩
    rw [exec_shortPassMessage s m hup hfence hlost, State.deliverShort_new hnew hsends, State.placeShort_spill hbox hroom]
  case hold =>
    rw [exec_shortPassMessage s m hup hfence hlost, State.deliverShort_hold hnew hwait]
    rfl
  case back =>
    refine ⟨List.mem_of_find?_eq_some hx, by simpa using List.find?_some hx, _, exec_overflowDeliver hx, ?_, State.overflow_setOverflow s _ _ _⟩
    exact State.mbox_deposit _ x
  case held =>
    have hopen : s.boxOpen m = true ∨ s.spillRoom m = true := by simpa using List.find?_some hheld
    have hplace := hopen.imp (State.boxOpen_modCtx m.ctx fun c => { c with sends := c.sends.erase m }).trans
      (State.spillRoom_modCtx m.ctx fun c => { c with sends := c.sends.erase m }).trans
    refine ⟨_, exec_heldMessageRelease hheld, ?_, fun hbox => ?_, fun hbox => ?_⟩
    · rw [State.placeShort_ctx hplace, State.ctx_modCtx_self]
    · rw [State.placeShort_open ((State.boxOpen_modCtx ..).trans hbox), State.mbox_deposit, State.mbox, State.squad_modCtx]
      rfl
    · rw [State.placeShort_spill ((State.boxOpen_modCtx ..).trans hbox) ((State.spillRoom_modCtx ..).trans (hopen.resolve_left (by simp [hbox]))),
        State.overflow_spillShort, State.overflow, State.chan_modCtx]
      rfl

/-- Settles O30: arrivals by Ctx.arrive, packets by done, and the expired clock by the scope of its descriptor. -/
theorem huddlesGather : Obligations.HuddlesGather := by
  intro s
  refine ⟨fun n k sq f hf hscope hfence hwalk hback _ => ?arrives, fun n k sq f hf hnot => ?waits, fun p hup hlost => ?packets, fun n q f _ hf => ?late⟩
  case arrives =>
    refine ⟨s.modCtx n fun c => c.arrive k f.epoch sq, ?_, ?_⟩
    · rw [exec_squadHuddleArrival hf, hscope, hfence, hwalk, hback]
      rfl
    · rw [State.ctx_modCtx_self]
      obtain ⟨hin, hkeep⟩ := Ctx.arrive_arrived (s.ctx n) k f.epoch sq
      exact ⟨hin, hkeep, State.modCtx_squads ..⟩
  case waits =>
    rw [exec_squadHuddleArrival hf]
    rcases hnot with h | h <;> exact guard_of_false (by simp [h]) _ _
  case packets =>
    rw [exec_huddlePacket hup hlost]
    refine ⟨fun hdone hopen => ?_, fun hdone hclosed => ?_, fun hdone => ?_⟩
    · rw [if_pos hdone, if_neg (by simp [hopen])]
    · rw [if_pos hdone, if_pos hclosed]
    · rw [if_neg (by simp [hdone])]
  case late =>
    exact ⟨exec_huddleShotClockExpiry_huddle hf, fun x => exec_huddleShotClockExpiry_huddle hf, exec_huddleShotClockExpiry_huddle hf,
      fun k tag => exec_huddleShotClockExpiry_coll hf⟩

end

section
/-! PROOFS. Stacked memory: where bursts lie and what keeps that, the bytes that a store leaves, reads, writes, scrubs, loss and retraining
(R134 to R156). -/

namespace Sys2Proof.Machine

/-! ## Where bursts lie -/

/-- A byte lies where the interleave lists of the channels put it. -/
theorem State.pcOf_congr {s t : State} (h : ∀ c, (t.chan c).removed = (s.chan c).removed) (space off : Nat) : t.pcOf space off = s.pcOf space off := by
  have hc : t.listC (space % 4) = s.listC (space % 4) := by rw [State.listC, h, State.listC]
  have hw : t.listW = s.listW := by simp only [State.listW, h]
  rw [State.pcOf, State.pcOf, hc, hw]

/-- The lost map, the scrub pointers and the interleave lists of t are those of s. -/
structure SamePlaces (s t : State) : Prop where
  lost : t.mram.lost = s.mram.lost
  scrub : t.mram.scrub = s.mram.scrub
  removed : ∀ c, (t.chan c).removed = (s.chan c).removed

namespace SamePlaces
variable {s t u : State}

protected theorem refl (s : State) : SamePlaces s s := ⟨rfl, rfl, fun _ => rfl⟩

protected theorem trans (h : SamePlaces s t) (k : SamePlaces t u) : SamePlaces s u :=
  ⟨k.lost.trans h.lost, k.scrub.trans h.scrub, fun c => (k.removed c).trans (h.removed c)⟩

theorem of_only {fs : List Part} (h : Only fs s t) (hp : Part.mram ∉ fs ∧ Part.chans ∉ fs) : SamePlaces s t :=
  ⟨by rw [mram_of_only h hp.1], by rw [mram_of_only h hp.1], fun c => by rw [chan_of_only h hp.2]⟩

theorem ite {p : Prop} [Decidable p] (h : SamePlaces s t) (k : SamePlaces s u) : SamePlaces s (if p then t else u) := by
  split
  · exact h
  · exact k

theorem foldl {α : Type} {f : State → α → State} {l : List α} (h : SamePlaces s t) (hf : ∀ u x, SamePlaces s u → SamePlaces s (f u x)) :
    SamePlaces s (l.foldl f t) :=
  List.foldlRecOn (motive := SamePlaces s) l f h fun u hu x _ => hf u x hu

theorem pcOf_eq (h : SamePlaces s t) (space off : Nat) : t.pcOf space off = s.pcOf space off := State.pcOf_congr h.removed space off

/-! Each operation that keeps the places, put behind those before it. -/

theorem modChan {c : Nat} {f : Chan → Chan} (h : SamePlaces s t) (hf : ∀ x, (f x).removed = x.removed) : SamePlaces s (t.modChan c f) := by
  refine h.trans ⟨rfl, rfl, fun k => ?_⟩
  obtain rfl | hne := eq_or_ne k c
  · rw [State.chan_modChan_self, hf]
  · rw [State.chan_modChan_ne _ _ _ _ hne]

theorem setMram {m : Mram} (h : SamePlaces s t) (hlost : m.lost = t.mram.lost) (hscrub : m.scrub = t.mram.scrub) : SamePlaces s (t.setMram m) :=
  h.trans ⟨hlost, hscrub, fun _ => rfl⟩

theorem setDev (h : SamePlaces s t) (d : Dev) : SamePlaces s (t.setDev d) := h.trans ⟨rfl, rfl, fun _ => rfl⟩

theorem setHost (h : SamePlaces s t) (p : HostPorts) : SamePlaces s (t.setHost p) := h.trans ⟨rfl, rfl, fun _ => rfl⟩

theorem log (h : SamePlaces s t) (ch code sev cls st si : Nat) (p : List Byte) : SamePlaces s (t.log ch code sev cls st si p) :=
  h.trans (of_only ((State.log_only (ps := [.out, .ledger, .host, .watch]) (by decide) ch code sev cls st si p).mpr .refl) (by decide))

theorem raise (h : SamePlaces s t) (v : Nat) : SamePlaces s (t.raise v) :=
  h.trans (of_only ((State.raise_only (ps := [.out, .host]) (by decide) v).mpr .refl) (by decide))

theorem alert (h : SamePlaces s t) (i : Nat) : SamePlaces s (t.alert i) :=
  h.trans (of_only ((State.alert_only (ps := [.watch]) (by decide) i).mpr .refl) (by decide))

theorem modCtx (h : SamePlaces s t) (n : Nat) (f : Ctx → Ctx) : SamePlaces s (t.modCtx n f) :=
  h.trans (of_only ((State.modCtx_only (ps := [.ctx0, .ctx1]) (by decide) n f).mpr .refl) (by decide))

theorem abortTags (h : SamePlaces s t) (n : Nat) : SamePlaces s (t.abortTags n) :=
  h.trans (of_only ((State.abortTags_only (ps := [.out]) (by decide) n).mpr .refl) (by decide))

/-- The engines of a context stop inside their channels' DMA tables. -/
theorem stopEngines (h : SamePlaces s t) (n : Nat) : SamePlaces s (t.stopEngines n) := by
  refine h.trans ⟨rfl, rfl, fun c => ?_⟩
  have hmap : ∀ l : Tbl Chan, (tget Chan.reset (l.map fun e => (e.1, { e.2 with dma := e.2.dma.map fun d => (d.1, d.2.stopCtx n) })) c).removed =
      (tget Chan.reset l c).removed := fun l => by
    induction l with
    | nil => rfl
    | cons e l ih =>
      simp only [List.map_cons, tget]
      split
      · rfl
      · exact ih
  exact hmap t.chans

theorem loseCtx (h : SamePlaces s t) (n cause q qindex seq : Nat) (keep : Bool) : SamePlaces s (t.loseCtx n cause q qindex seq keep) := by
  unfold State.loseCtx
  split
  · exact h
  · exact raise (log (modCtx (stopEngines (abortTags h n) n) _ _) ..) _

theorem sideline (h : SamePlaces s t) (trigger chan : Nat) : SamePlaces s (t.sideline trigger chan) := by
  unfold State.sideline
  split
  · exact h
  · split
    · exact h
    · exact setDev h _
  · exact alert (raise (raise (log (loseCtx (loseCtx (setDev h _) ..) ..) ..) _) _) _

theorem channelDown (h : SamePlaces s t) (c : Nat) : SamePlaces s (t.channelDown c) := by
  unfold State.channelDown
  split
  · exact h
  · dsimp only
    have hdown : SamePlaces s ((t.modChan c fun h => { h with down := true }).alert 4) := alert (modChan h fun _ => by rfl) _
    exact sideline (raise (ite (setHost hdown _) hdown) _) ..

theorem lossLimits (h : SamePlaces s t) (c : Nat) : SamePlaces s (t.lossLimits c) := by
  dsimp only [State.lossLimits]
  split
  · exact channelDown h c
  · exact h

theorem retirePc (h : SamePlaces s t) (c p cause : Nat) : SamePlaces s (t.retirePc c p cause) := by
  dsimp only [State.retirePc]
  split
  · exact h
  · exact lossLimits (raise (log (setMram h (by rfl) (by rfl)) ..) _) _

theorem markLine (h : SamePlaces s t) (c p line : Nat) : SamePlaces s (t.markLine c p line) := by
  dsimp only [State.markLine]
  split
  · split
    · exact h
    · exact retirePc h ..
  · exact raise (log (setMram h (by rfl) (by rfl)) ..) _

theorem queueRow (h : SamePlaces s t) (c p row : Nat) : SamePlaces s (t.queueRow c p row) := by
  unfold State.queueRow
  split
  · exact h
  · split
    · exact retirePc h ..
    · exact setMram h (by rfl) (by rfl)

theorem countLine (h : SamePlaces s t) (c p line : Nat) : SamePlaces s (t.countLine c p line) := by
  dsimp only [State.countLine]
  split
  · exact markLine (modChan h fun _ => by rfl) ..
  · exact modChan h fun _ => by rfl

theorem countRow (h : SamePlaces s t) (c p row line : Nat) : SamePlaces s (t.countRow c p row line) := by
  dsimp only [State.countRow]
  split
  · exact queueRow (modChan h fun _ => by rfl) ..
  · exact modChan h fun _ => by rfl

theorem corrected (h : SamePlaces s t) (c p space off : Nat) (syms : List Nat) : SamePlaces s (t.corrected c p space off syms) :=
  countRow (foldl (modChan h fun _ => by rfl) fun _ _ hu => countLine hu ..) ..

theorem setTokens (h : SamePlaces s t) (c part : Nat) (v : Int) : SamePlaces s (t.setTokens c part v) := modChan h fun _ => by rfl

theorem regulate {part : Nat} {bursts : List (Nat × Nat)} (h : s.regulate part bursts = some t) : SamePlaces s t := by
  unfold State.regulate at h
  induction bursts generalizing s with
  | nil => cases h; exact .refl _
  | cons b r ih =>
    rw [List.foldlM_cons] at h
    dsimp only at h
    split at h
    · cases h
    · cases hx : s.spendBurst (s.pcOf b.1 b.2 / 512) part with
      | none => rw [hx] at h; cases h
      | some u =>
        rw [hx] at h
        refine SamePlaces.trans ?_ (ih h)
        unfold State.spendBurst at hx
        split at hx
        · cases hx
          exact setTokens (.refl s) ..
        · split at hx
          · cases hx; exact .refl _
          · cases hx

end SamePlaces

/-! ## Copies of a burst (R134) -/

/-- Every region begins and ends, and a mirrored one has its second half, at a granule. -/
theorem regionAt_aligned (off : Nat) : (regionAt off).base % 512 = 0 ∧ (regionAt off).size % 512 = 0 ∧ (regionAt off).size / 2 % 512 = 0 ∧
    512 ≤ (regionAt off).size / 2 := by
  have hall : ∀ r ∈ reserve, r.base % 512 = 0 ∧ r.size % 512 = 0 ∧ r.size / 2 % 512 = 0 ∧ 512 ≤ r.size / 2 := by decide
  unfold regionAt
  cases h : reserve.find? fun r => decide (off < r.base + r.size) with
  | none => exact hall _ (by decide)
  | some r => exact hall r (List.mem_of_find?_eq_some h)

theorem regionAt_burstOf (off : Nat) : regionAt (burstOf off) = regionAt off := by
  have hall : ∀ r ∈ reserve, (r.base + r.size) % 64 = 0 := by decide
  have hsame : ∀ l : List Region, (∀ r ∈ l, (r.base + r.size) % 64 = 0) →
      l.find? (fun r => decide (burstOf off < r.base + r.size)) = l.find? fun r => decide (off < r.base + r.size) := fun l hl => by
    induction l with
    | nil => rfl
    | cons r l ih =>
      have hr := hl r (List.mem_cons_self ..)
      have hlt : burstOf off < r.base + r.size ↔ off < r.base + r.size := by
        unfold burstOf
        omega
      rw [List.find?_cons, List.find?_cons, ih fun x hx => hl x (List.mem_cons_of_mem _ hx), decide_eq_decide.mpr hlt]
  rw [regionAt, hsame reserve hall, regionAt]

/-- A burst lies on one pseudo-channel. -/
theorem State.pcOf_burstOf (s : State) (space off : Nat) : s.pcOf space (burstOf off) = s.pcOf space off := by
  obtain ⟨hbase, -, hhalf, -⟩ := regionAt_aligned off
  have h1 : burstOf off / 512 = off / 512 := by unfold burstOf; omega
  have hx : (burstOf off - (regionAt off).base) / 512 = (off - (regionAt off).base) / 512 := by unfold burstOf; omega
  have hle : (regionAt off).size / 2 ≤ burstOf off - (regionAt off).base ↔ (regionAt off).size / 2 ≤ off - (regionAt off).base := by
    unfold burstOf; omega
  have hy : (burstOf off - (regionAt off).base - (regionAt off).size / 2) / 512 = (off - (regionAt off).base - (regionAt off).size / 2) / 512 := by
    unfold burstOf; omega
  simp only [State.pcOf, regionAt_burstOf, h1, hx, hy, decide_eq_decide.mpr hle]

/-- The second copy of a byte lies in another burst, at the same place of it, and the second copy of its burst is that burst. -/
theorem otherCopy_some {off o : Nat} (h : otherCopy off = some o) :
    o % 64 = off % 64 ∧ burstOf o ≠ burstOf off ∧ otherCopy (burstOf off) = some (burstOf o) := by
  obtain ⟨hbase, hsize, hhalf, hlarge⟩ := regionAt_aligned off
  unfold otherCopy at h ⊢
  rw [regionAt_burstOf]
  dsimp only at h ⊢
  split at h
  · rename_i hm
    rw [if_pos hm]
    have ho := Option.some.inj h
    split at ho
    · rw [if_pos (by unfold burstOf; omega)]
      unfold burstOf
      exact ⟨by omega, by omega, congrArg some (by omega)⟩
    · rw [if_neg (by unfold burstOf; omega)]
      unfold burstOf
      exact ⟨by omega, by omega, congrArg some (by omega)⟩
  · cases h

theorem otherCopy_burstOf_none {off : Nat} (h : otherCopy off = none) : otherCopy (burstOf off) = none := by
  unfold otherCopy at h ⊢
  rw [regionAt_burstOf]
  dsimp only at h ⊢
  split at h
  · cases h
  · rename_i hm
    rw [if_neg hm]

/-- The second copy of a byte of a space, where its region is mirrored. -/
def mirrorOf (space off : Nat) : Option Nat := if 12 ≤ space then otherCopy off else none

theorem mirrorOf_none {space off : Nat} (h : space < 12 ∨ otherCopy off = none) : mirrorOf space off = none := by
  unfold mirrorOf
  split
  · exact h.resolve_left (by omega)
  · rfl

theorem mirrorOf_some {space off o : Nat} (h : mirrorOf space off = some o) :
    o % 64 = off % 64 ∧ burstOf o ≠ burstOf off ∧ mirrorOf space (burstOf off) = some (burstOf o) := by
  unfold mirrorOf at h ⊢
  split at h
  · rename_i hs
    rw [if_pos hs]
    exact otherCopy_some h
  · cases h

theorem mirrorOf_burstOf_none {space off : Nat} (h : mirrorOf space off = none) : mirrorOf space (burstOf off) = none := by
  unfold mirrorOf at h ⊢
  split at h
  · rename_i hs
    rw [if_pos hs]
    exact otherCopy_burstOf_none h
  · rename_i hs
    exact if_neg hs

/-! ## Stored bytes -/

/-- Bytes stored in one copy; a lost pseudo-channel takes none. -/
def State.putCopy (s : State) (space off : Nat) (l : List Byte) : State :=
  if s.mram.lost.contains (s.pcOf space off) then s else s.hbmWrite space off l

section
variable (s : State) (space : Nat) {off : Nat} (l : List Byte)

theorem State.storeBytes_one (h : mirrorOf space off = none) : s.storeBytes space off l = s.putCopy space off l := by
  unfold mirrorOf at h
  dsimp only [State.storeBytes]
  rw [h]
  rfl

theorem State.storeBytes_two {o : Nat} (h : mirrorOf space off = some o) : s.storeBytes space off l = (s.putCopy space off l).putCopy space o l := by
  unfold mirrorOf at h
  dsimp only [State.storeBytes]
  rw [h]
  rfl

theorem State.putCopy_only (off : Nat) : Only [.hbm] s (s.putCopy space off l) := by
  unfold State.putCopy
  split
  · exact .refl
  · exact (State.hbmWrite_only (by decide) space off l).mpr .refl

theorem State.storeBytes_hbm_only (off : Nat) : Only [.hbm] s (s.storeBytes space off l) := (State.storeBytes_only (by decide) space off l).mpr .refl

variable {s space l}

theorem State.putCopy_outside {a : Nat} (h : a < hbmKey space off ∨ hbmKey space off + l.length ≤ a) :
    cellGet (s.putCopy space off l).hbm a = cellGet s.hbm a := by
  unfold State.putCopy
  split
  · rfl
  · exact cellGet_cellWrite_outside _ _ _ _ h

theorem State.putCopy_inside (hlost : s.pcOf space off ∉ s.mram.lost) {i : Nat} (h : i < l.length) :
    cellGet (s.putCopy space off l).hbm (hbmKey space off + i) = l[i] := by
  rw [State.putCopy, if_neg (by simpa using hlost)]
  exact cellGet_cellWrite_inside _ _ _ _ h

/-- The places stay where memory alone changes. -/
theorem SamePlaces.of_hbm {t : State} (h : Only [.hbm] s t) : SamePlaces s t := .of_only h (by decide)

/-- The first copy, or the second, of a byte. -/
def IsCopy (space off x : Nat) : Prop := x = off ∨ mirrorOf space off = some x

theorem State.storeBytes_outside {a : Nat} (h : ∀ x, IsCopy space off x → a < hbmKey space x ∨ hbmKey space x + l.length ≤ a) :
    cellGet (s.storeBytes space off l).hbm a = cellGet s.hbm a := by
  cases hm : mirrorOf space off with
  | none => rw [State.storeBytes_one s space l hm, State.putCopy_outside (h off (.inl rfl))]
  | some o =>
    rw [State.storeBytes_two s space l hm, State.putCopy_outside (h o (.inr hm)), State.putCopy_outside (h off (.inl rfl))]

/-- The keys of two bursts of a space do not meet. -/
theorem hbmKey_apart {x y i : Nat} (h : burstOf x ≠ burstOf y) (hi : x % 64 + i < 64) {k : Nat} (hk : y % 64 + k ≤ 64) :
    hbmKey space x + i < hbmKey space y ∨ hbmKey space y + k ≤ hbmKey space x + i := by
  unfold burstOf at h
  unfold hbmKey
  omega

/-- Bytes of one burst read as stored in each copy that is not lost. -/
theorem State.storeBytes_inside {x : Nat} (hx : IsCopy space off x) (hlost : s.pcOf space x ∉ s.mram.lost) (hfit : off % 64 + l.length ≤ 64)
    {i : Nat} (h : i < l.length) : cellGet (s.storeBytes space off l).hbm (hbmKey space x + i) = l[i] := by
  cases hm : mirrorOf space off with
  | none =>
    obtain rfl := hx.resolve_right (by simp [hm])
    rw [State.storeBytes_one s space l hm, State.putCopy_inside hlost h]
  | some o =>
    obtain ⟨hmod, hne, -⟩ := mirrorOf_some hm
    rw [State.storeBytes_two s space l hm]
    rcases hx with rfl | hxo
    · rw [State.putCopy_outside (hbmKey_apart hne.symm (by omega) (by omega)), State.putCopy_inside hlost h]
    · obtain rfl := Option.some.inj (hm.symm.trans hxo)
      have hsame := SamePlaces.of_hbm (State.putCopy_only s space l off)
      rw [State.putCopy_inside (by rw [hsame.pcOf_eq, hsame.lost]; exact hlost) h]

theorem isCopy_burstOf {x : Nat} (h : IsCopy space off x) : IsCopy space (burstOf off) (burstOf x) :=
  h.imp (congrArg burstOf) fun h => (mirrorOf_some h).2.2

theorem isCopy_of_burstOf {y : Nat} (h : IsCopy space (burstOf off) y) : ∃ x, IsCopy space off x ∧ y = burstOf x := by
  rcases h with rfl | h
  · exact ⟨off, .inl rfl, rfl⟩
  · cases hm : mirrorOf space off with
    | none => exact absurd h (by simp [mirrorOf_burstOf_none hm])
    | some o => exact ⟨o, .inr hm, Option.some.inj (h.symm.trans (mirrorOf_some hm).2.2)⟩

theorem isCopy_mod {x : Nat} (h : IsCopy space off x) : x % 64 = off % 64 := by
  rcases h with rfl | h
  · rfl
  · exact (mirrorOf_some h).1

/-- Two copies of a byte are the same or lie in different bursts. -/
theorem isCopy_eq_or_apart {x y : Nat} (hx : IsCopy space off x) (hy : IsCopy space off y) : x = y ∨ burstOf x ≠ burstOf y := by
  rcases hx with rfl | hx <;> rcases hy with rfl | hy
  · exact .inl rfl
  · exact .inr (mirrorOf_some hy).2.1.symm
  · exact .inr (mirrorOf_some hx).2.1
  · exact .inl (Option.some.inj (hx.symm.trans hy))

end

end Sys2Proof.Machine
end

section
/-! PROOFS. The commands of the memory controllers: reads, writes, second reads, scrubs, loss and retraining (R138, R142 to R152). -/

namespace Sys2Proof.Machine

/-! ## Lengths -/

theorem cellRead_length (m : List Host.Cell) (a n : Nat) : (cellRead m a n).length = n := by
  induction n generalizing a with
  | zero => rfl
  | succ n ih => rw [cellRead, List.length_cons, ih]

/-- The data of a decoded burst are 64 bytes. -/
theorem decodeBurst_length {marked : Option Nat} {w : List Byte} (hw : 64 ≤ w.length) :
    (∀ d, decodeBurst marked w = .clean d → d.length = 64) ∧ ∀ u d, decodeBurst marked w = .corrected u d → d.length = 64 := by
  have hlen : ∀ f : Nat × Byte → Byte, (((List.range 64).zip w).map f).length = 64 := fun f => by
    rw [List.length_map, List.length_zip, List.length_range]
    omega
  unfold decodeBurst
  dsimp only
  split
  · exact ⟨fun _ h => Decoded.noConfusion h, fun _ _ h => Decoded.noConfusion h⟩
  · split
    · exact ⟨fun _ h => Decoded.clean.inj h ▸ hlen _, fun _ _ h => Decoded.noConfusion h⟩
    · exact ⟨fun _ h => Decoded.noConfusion h, fun _ _ h => (Decoded.corrected.inj h).2 ▸ hlen _⟩

theorem State.decoded_length (s : State) (space off : Nat) (errs : List (Nat × Byte)) :
    (∀ d, s.decoded space off errs = .clean d → d.length = 64) ∧ ∀ u d, s.decoded space off errs = .corrected u d → d.length = 64 := by
  refine decodeBurst_length ?_
  rw [received, List.length_map, List.length_zip, List.length_range, codeWord, List.length_append, State.burst, State.hbmRead, cellRead_length]
  omega

/-- A burst decodes the same where its place, its marked line and the memory are the same. -/
theorem State.decoded_congr {s t : State} (hplaces : SamePlaces s t) (hmarks : t.mram.marks = s.mram.marks) (hhbm : t.hbm = s.hbm)
    (space off : Nat) (errs : List (Nat × Byte)) : t.decoded space off errs = s.decoded space off errs := by
  rw [State.decoded, hplaces.pcOf_eq, State.markedLine, hmarks, State.burst, State.hbmRead, hhbm]
  rfl

/-! ## A burst written in part -/

section
variable {s : State} {space off : Nat} {d l : List Byte}

theorem burstOf_mod (off : Nat) : burstOf off % 64 = 0 := by unfold burstOf; omega

theorem hbmKey_burstOf (space x : Nat) : hbmKey space x = hbmKey space (burstOf x) + x % 64 := by unfold hbmKey burstOf; omega

/-- The bytes of a write lie over the burst that was read. -/
theorem State.merge_inside {x : Nat} (hx : IsCopy space off x) (hlost : s.pcOf space x ∉ s.mram.lost) (hfit : off % 64 + l.length ≤ 64) {i : Nat}
    (h : i < l.length) : cellGet ((s.storeBytes space (burstOf off) d).storeBytes space off l).hbm (hbmKey space x + i) = l[i] := by
  have hsame := SamePlaces.of_hbm (s.storeBytes_hbm_only space d (burstOf off))
  exact State.storeBytes_inside hx (by rw [hsame.pcOf_eq, hsame.lost]; exact hlost) hfit h

theorem State.merge_rest {x : Nat} (hx : IsCopy space off x) (hlost : s.pcOf space x ∉ s.mram.lost) (hd : d.length = 64)
    (hfit : off % 64 + l.length ≤ 64) {i : Nat} (h : i < 64) (hout : i < off % 64 ∨ off % 64 + l.length ≤ i) :
    cellGet ((s.storeBytes space (burstOf off) d).storeBytes space off l).hbm (hbmKey space (burstOf x) + i) = d[i] := by
  rw [State.storeBytes_outside fun y hy => ?_]
  · refine State.storeBytes_inside (isCopy_burstOf hx) ?_ (by rw [burstOf_mod]; omega) (by omega)
    rw [State.pcOf_burstOf]
    exact hlost
  · have hy64 := isCopy_mod hy
    rcases isCopy_eq_or_apart hx hy with rfl | hne
    · rw [hbmKey_burstOf space x]
      omega
    · have hb := burstOf_mod x
      refine hbmKey_apart (x := burstOf x) (fun he => hne ?_) (by omega) (by omega)
      unfold burstOf at he ⊢
      omega

theorem State.merge_outside (hd : d.length = 64) (hfit : off % 64 + l.length ≤ 64) {a : Nat}
    (h : ∀ x, IsCopy space off x → a < hbmKey space (burstOf x) ∨ hbmKey space (burstOf x) + 64 ≤ a) :
    cellGet ((s.storeBytes space (burstOf off) d).storeBytes space off l).hbm a = cellGet s.hbm a := by
  rw [State.storeBytes_outside fun x hx => ?_, State.storeBytes_outside fun y hy => ?_]
  · obtain ⟨x, hx, rfl⟩ := isCopy_of_burstOf hy
    rw [hd]
    exact h x hx
  · have hx64 := isCopy_mod hx
    have hkey := hbmKey_burstOf space x
    have ha := h x hx
    omega

end

/-! ## Requests -/

section
variable {s : State} {r : BurstReq} {errs : List (Nat × Byte)}

theorem State.request_serves (h : s.pcServes (s.pcOf r.space r.off) = true) : s.request r errs = s.perform r errs := if_pos h

theorem State.perform_read (h : r.write = none) : s.perform r errs = s.readFor { r with off := s.serving r.space r.off } errs := by
  rw [State.perform, h]

variable {req : Requester} {space off : Nat} {write : Option (List Byte)} {syms : List Nat} {d l : List Byte} {fixed : Bool}

theorem State.request_queued (h : s.pcServes (s.pcOf space off) = false) (hheld : s.pcHeld (s.pcOf space off) = true)
    (hroom : s.waitingAt (s.pcOf space off) < 32) : s.request ⟨req, space, off, write⟩ errs =
      s.modChan (s.pcOf space off / 512) fun h => { h with heldQ := h.heldQ ++ [(⟨req, space, off, write⟩, errs)] } := by
  dsimp only [State.request]
  rw [if_neg (by simp [h]), if_pos (by simp [hheld, hroom])]

theorem State.request_refused (h : s.pcServes (s.pcOf space off) = false)
    (hno : s.pcHeld (s.pcOf space off) = false ∨ 32 ≤ s.waitingAt (s.pcOf space off)) : s.request ⟨req, space, off, write⟩ errs = s := by
  dsimp only [State.request]
  rw [if_neg (by simp [h]), if_neg (by rcases hno with h | h <;> simp [h])]

theorem State.readFor_bad (h : s.burstBad space off = true) :
    s.readFor ⟨req, space, off, write⟩ errs = s.indicate req (s.pcOf space off / 512) write.isSome := if_pos h

theorem State.readFor_good (h : s.burstBad space off = false) : s.readFor ⟨req, space, off, write⟩ errs = match s.decoded space off errs with
    | .clean data => s.deliverBurst ⟨req, space, off, write⟩ data false
    | .corrected syms data =>
      (s.corrected (s.pcOf space off / 512) (s.pcOf space off % 512) space off syms).deliverBurst ⟨req, space, off, write⟩ data true
    | .bad => s.modChan (s.pcOf space off / 512) fun h => { h with reread := h.reread ++ [⟨req, space, off, write⟩] } :=
  if_neg (by simp [h])

theorem State.readFor_clean (h : s.burstBad space off = false) (hd : s.decoded space off errs = .clean d) :
    s.readFor ⟨req, space, off, write⟩ errs = s.deliverBurst ⟨req, space, off, write⟩ d false := by rw [State.readFor_good h, hd]

theorem State.readFor_corrected (h : s.burstBad space off = false) (hd : s.decoded space off errs = .corrected syms d) :
    s.readFor ⟨req, space, off, write⟩ errs =
      (s.corrected (s.pcOf space off / 512) (s.pcOf space off % 512) space off syms).deliverBurst ⟨req, space, off, write⟩ d true := by
  rw [State.readFor_good h, hd]

theorem State.readFor_unread (h : s.burstBad space off = false) (hd : s.decoded space off errs = .bad) : s.readFor ⟨req, space, off, write⟩ errs =
    s.modChan (s.pcOf space off / 512) fun h => { h with reread := h.reread ++ [⟨req, space, off, write⟩] } := by
  rw [State.readFor_good h, hd]

theorem State.deliverBurst_answer (hreq : req ≠ .scrub) : s.deliverBurst ⟨req, space, off, none⟩ d fixed = s.emit (.bytes false d) := if_neg hreq

theorem State.deliverBurst_scrub : s.deliverBurst ⟨.scrub, space, off, none⟩ d fixed = if fixed then s.storeBytes space off d else s := by
  unfold State.deliverBurst
  exact if_pos rfl

theorem State.deliverBurst_write :
    s.deliverBurst ⟨req, space, off, some l⟩ d fixed = (s.storeBytes space (burstOf off) d).storeBytes space off l := rfl

/-- Correcting a burst leaves both memories. -/
theorem State.corrected_mem_eq (s : State) (c p space off : Nat) (syms : List Nat) :
    (s.corrected c p space off syms).hbm = s.hbm ∧ (s.corrected c p space off syms).store = s.store := by
  have h := (State.corrected_only (ps := [.out, .dev, .mram, .ctx0, .ctx1, .squads, .chans, .ledger, .host, .watch]) (by decide) c p space off syms).mpr (.refl (s := s))
  exact ⟨h .hbm (by decide), h .store (by decide)⟩

theorem State.serving_self {space off : Nat} (h : space < 12 ∨ s.burstBad space off = false) : s.serving space off = off := by
  refine if_neg fun ⟨hs, hbad⟩ => ?_
  rcases h with h | h
  · omega
  · simp [h] at hbad

theorem State.serving_one {space off : Nat} (h : space < 12 ∨ otherCopy off = none) : s.serving space off = off := by
  unfold State.serving
  split
  · rename_i hs
    rw [h.resolve_left (by omega)]
    rfl
  · rfl

end

/-! ## Reads -/

section
variable {s : State} {req : Requester} {space off : Nat} {errs : List (Nat × Byte)}

theorem exec_memRead_serves (h : s.pcServes (s.pcOf space off) = true) : exec (.memRead req space off errs) s =
    .next (s.readFor { req := req, space := space, off := s.serving space off, write := none } errs) := by
  change Host.Outcome.next (s.request { req := req, space := space, off := off, write := none } errs) = _
  rw [State.request_serves h, State.perform_read rfl]

theorem exec_memRead_request : exec (.memRead req space off errs) s = .next (s.request { req := req, space := space, off := off, write := none } errs) := rfl

end

/-! ## Writes -/

section
variable {s : State} {req : Requester} {space off : Nat} {errs : List (Nat × Byte)} {l data : List Byte}

theorem exec_memWrite_serves (h : s.pcServes (s.pcOf space off) = true) : exec (.memWrite req space off data errs) s =
    .next (s.perform ⟨req, space, off, some (data.take (64 - off % 64))⟩ errs) := by
  change Host.Outcome.next (s.request ⟨req, space, off, some (data.take (64 - off % 64))⟩ errs) = _
  rw [State.request_serves h]

theorem State.perform_lost (hone : space < 12 ∨ otherCopy off = none) (hlost : s.pcOf space off ∈ s.mram.lost) :
    s.perform ⟨req, space, off, some l⟩ errs = s := by
  dsimp only [State.perform]
  rw [if_pos (by rcases hone with h | h <;> simp [hlost, h])]

/-- A write that some copy may take. -/
theorem not_discarded (h : s.pcOf space off ∉ s.mram.lost ∨ (12 ≤ space ∧ ∃ o, otherCopy off = some o)) :
    ¬ (s.mram.lost.contains (s.pcOf space off) && (decide (space < 12) || (otherCopy off).isNone)) = true := by
  rcases h with h | ⟨hs, o, ho⟩
  · simp [h]
  · simp [ho, hs]

theorem State.perform_whole (h : s.pcOf space off ∉ s.mram.lost ∨ (12 ≤ space ∧ ∃ o, otherCopy off = some o)) (hoff : off % 64 = 0)
    (hl : l.length = 64) : s.perform ⟨req, space, off, some l⟩ errs = s.storeBurst space off l := by
  dsimp only [State.perform]
  rw [if_neg (not_discarded h), if_pos ⟨hoff, hl⟩]

theorem State.perform_part (h : s.pcOf space off ∉ s.mram.lost ∨ (12 ≤ space ∧ ∃ o, otherCopy off = some o))
    (hpart : ¬ (off % 64 = 0 ∧ l.length = 64)) :
    s.perform ⟨req, space, off, some l⟩ errs = s.readFor ⟨req, space, s.serving space off, some l⟩ errs := by
  dsimp only [State.perform]
  rw [if_neg (not_discarded h), if_neg hpart]

theorem State.storeBurst_hbm (s : State) (space off : Nat) (l : List Byte) : (s.storeBurst space off l).hbm = (s.storeBytes space off l).hbm := by
  dsimp only [State.storeBurst]
  split
  · rfl
  · rfl

/-- The burst leaves the poison list of its channel, and nothing else does. -/
theorem State.storeBurst_poison (hone : space < 12 ∨ otherCopy off = none) : ((s.storeBurst space off l).chan (s.pcOf space off / 512)).poison =
    (s.chan (s.pcOf space off / 512)).poison.filter (· != (space, off / 64)) := by
  have hm := mirrorOf_none hone
  have hbytes := s.storeBytes_hbm_only space l off
  have hburst : s.storeBurst space off l = (s.storeBytes space off l).modChan (s.pcOf space off / 512)
      fun h => { h with poison := h.poison.filter (· != (space, off / 64)) } := by
    rw [← (SamePlaces.of_hbm hbytes).pcOf_eq]
    unfold mirrorOf at hm
    dsimp only [State.storeBurst]
    rw [hm]
  rw [hburst, State.chan_modChan_self, chan_of_only hbytes (by decide)]

/-- The bytes of a write, as its data give them. -/
theorem take_length {data : List Byte} (off : Nat) : off % 64 + (data.take (64 - off % 64)).length ≤ 64 := by
  rw [List.length_take]
  omega

theorem take_getElem {data : List Byte} {off i : Nat} (h : i < (data.take (64 - off % 64)).length) :
    (data.take (64 - off % 64))[i] = data.getD i 0 := by
  rw [List.length_take] at h
  rw [List.getElem_take, List.getD_eq_getElem]

/-- What a write of a part leaves in each copy that is not lost, and elsewhere, over a state with the same places and memory. -/
theorem State.partWrite_bytes {u : State} {d : List Byte} {fixed : Bool} (hu : SamePlaces s u) (hhbm : u.hbm = s.hbm) (hd : d.length = 64) :
    let t := u.deliverBurst ⟨req, space, off, some (data.take (64 - off % 64))⟩ d fixed
    (∀ x, IsCopy space off x → s.pcOf space x ∉ s.mram.lost →
      (∀ i, i < data.length → off % 64 + i < 64 → cellGet t.hbm (hbmKey space x + i) = data.getD i 0) ∧
      (∀ i, i < 64 → (i < off % 64 ∨ off % 64 + data.length ≤ i) → cellGet t.hbm (hbmKey space (burstOf x) + i) = d.getD i 0)) ∧
    (∀ a, (∀ x, IsCopy space off x → a < hbmKey space (burstOf x) ∨ hbmKey space (burstOf x) + 64 ≤ a) → cellGet t.hbm a = cellGet s.hbm a) := by
  dsimp only
  rw [State.deliverBurst_write]
  have hfit := take_length (data := data) off
  have hlen : (data.take (64 - off % 64)).length = min (64 - off % 64) data.length := List.length_take
  refine ⟨fun x hx hlost => ?_, fun a ha => ?_⟩
  · have hlost' : u.pcOf space x ∉ u.mram.lost := by
      rw [hu.pcOf_eq, hu.lost]
      exact hlost
    refine ⟨fun i hi hin => ?_, fun i hi hout => ?_⟩
    · rw [State.merge_inside hx hlost' hfit (by omega), take_getElem]
    · rw [State.merge_rest hx hlost' hd hfit hi (by omega), List.getD_eq_getElem]
  · rw [State.merge_outside hd hfit ha, hhbm]

end

/-! ## Second reads and scrubs -/

section
variable {s : State} {c : Nat} {errs : List (Nat × Byte)} {r : BurstReq} {rest : List BurstReq}

theorem exec_burstReread (h : (s.chan c).reread = r :: rest) : exec (.burstReread c errs) s = match s.decoded r.space r.off errs with
    | .clean data => .next (((s.modChan c fun h => { h with reread := rest }).corrected c (s.pcOf r.space r.off % 512) r.space r.off []).deliverBurst r data true)
    | .corrected syms data =>
      .next (((s.modChan c fun h => { h with reread := rest }).corrected c (s.pcOf r.space r.off % 512) r.space r.off syms).deliverBurst r data true)
    | .bad => .next (((s.modChan c fun h => { h with reread := rest }).poisonBurst r.space r.off (r.req == .scrub)).indicate r.req c r.write.isSome) := by
  change execBurstReread c errs s = _
  rw [execBurstReread, h]
  dsimp only
  rw [State.decoded_congr (SamePlaces.modChan (f := fun h => { h with reread := rest }) (.refl s) fun _ => rfl) rfl rfl] <;> rfl

theorem exec_burstReread_none (h : (s.chan c).reread = []) : exec (.burstReread c errs) s = .next s := by
  change execBurstReread c errs s = _
  rw [execBurstReread, h]

/-- What the scrub pointer's move leaves of MRAM, and the pointer. -/
theorem State.scrubNext_mram (s : State) (c : Nat) : (s.scrubNext c).mram.lost = s.mram.lost ∧ (s.scrubNext c).mram.marks = s.mram.marks ∧
    (s.scrubNext c).mram.scrub = tset 0 s.mram.scrub c (if tget 0 s.mram.scrub c + 1 < s.scrubTotal c then tget 0 s.mram.scrub c + 1 else 0) := by
  unfold State.scrubNext
  rw [State.modChan_mram, State.setMram_mram]
  exact ⟨rfl, rfl, rfl⟩

theorem State.scrubNext_chan (s : State) (c k : Nat) : ((s.scrubNext c).chan k).removed = (s.chan k).removed ∧
    ((s.scrubNext c).chan k).down = (s.chan k).down ∧ ((s.scrubNext c).chan k).poison = (s.chan k).poison := by
  unfold State.scrubNext
  obtain rfl | hne := eq_or_ne k c
  · rw [State.chan_modChan_self, State.chan_setMram]
    exact ⟨rfl, rfl, rfl⟩
  · rw [State.chan_modChan_ne _ _ _ _ hne, State.chan_setMram]
    exact ⟨rfl, rfl, rfl⟩

theorem State.scrubNext_hbm (s : State) (c : Nat) : (s.scrubNext c).hbm = s.hbm :=
  ((State.scrubNext_only (ps := [.mram, .chans]) (by decide) c).mpr (.refl (s := s))) .hbm (by decide)

/-- The scrub pointer's move leaves what a burst decodes to and whether it is bad. -/
theorem State.scrubNext_reads (s : State) (c : Nat) (space off : Nat) :
    (s.scrubNext c).decoded space off errs = s.decoded space off errs ∧ (s.scrubNext c).burstBad space off = s.burstBad space off ∧
      (s.scrubNext c).pcOf space off = s.pcOf space off := by
  obtain ⟨hlost, hmarks, -⟩ := State.scrubNext_mram s c
  have hpc := State.pcOf_congr (fun k => (State.scrubNext_chan s c k).1) space off
  refine ⟨?_, ?_, hpc⟩
  · rw [State.decoded, hpc, State.markedLine, hmarks, State.burst, State.hbmRead, State.scrubNext_hbm, State.decoded, State.markedLine, State.burst,
      State.hbmRead]
  · rw [State.burstBad, hpc, (State.scrubNext_chan s c _).2.1, (State.scrubNext_chan s c _).2.2, hlost, State.burstBad]

theorem exec_scrubRead_none (halive : s.alive = true) (hup : s.chanUp c = true) (hmaint : s.maint = true)
    (h : s.scrubAt c (tget 0 s.mram.scrub c) = none) (u : Bool) : exec (.scrubRead c errs u) s = .next (s.scrubNext c) := by
  change execScrubRead c errs u s = _
  rw [execScrubRead, halive, hup, hmaint, h]
  rfl

variable {space off : Nat}

theorem exec_scrubRead_held (halive : s.alive = true) (hup : s.chanUp c = true) (hmaint : s.maint = true)
    (h : s.scrubAt c (tget 0 s.mram.scrub c) = some (space, off)) (hreg : s.regulate 5 [(space, off)] = none) (u : Bool) :
    exec (.scrubRead c errs u) s = .next s := by
  change execScrubRead c errs u s = _
  rw [execScrubRead, halive, hup, hmaint, h]
  dsimp only
  rw [hreg]
  rfl

/-- A scrub read that is served, by what its burst decodes to. -/
theorem exec_scrubRead_served {v : State} (halive : s.alive = true) (hup : s.chanUp c = true) (hmaint : s.maint = true)
    (h : s.scrubAt c (tget 0 s.mram.scrub c) = some (space, off)) (hreg : s.regulate 5 [(space, off)] = some v) (u : Bool) :
    exec (.scrubRead c errs u) s = if v.burstBad space off then .next (v.scrubNext c) else match s.decoded space off errs with
      | .corrected syms _ => .next (if u then (v.scrubNext c).corrected c (s.pcOf space off % 512) space off syms
          else (v.scrubNext c).readFor { req := .scrub, space := space, off := off, write := none } errs)
      | _ => .next ((v.scrubNext c).readFor { req := .scrub, space := space, off := off, write := none } errs) := by
  obtain ⟨hdecoded, hbad, -⟩ := State.scrubNext_reads (errs := errs) v c space off
  have hv := (State.regulate_only (ps := [.chans]) (by decide) 5 _ v hreg).mpr (.refl (s := s))
  rw [State.decoded_congr (SamePlaces.regulate hreg) (congrArg Mram.marks (mram_of_only hv (by decide))) (hv .hbm (by decide))] at hdecoded
  change execScrubRead c errs u s = _
  rw [execScrubRead, halive, hup, hmaint, h]
  dsimp only
  rw [hreg]
  dsimp only
  rw [hbad, hdecoded]
  rfl

theorem exec_scrubRead_closed (h : s.maint = false) (u : Bool) : exec (.scrubRead c errs u) s = .next s := by
  change execScrubRead c errs u s = _
  rw [execScrubRead, h, if_pos (by simp)]

/-- A scrub reads whole bursts. -/
theorem State.scrubAt_mod {i : Nat} (h : s.scrubAt c i = some (space, off)) : off % 64 = 0 := by
  have hbase : spillRegion.base % 64 = 0 := by decide
  unfold State.scrubAt at h
  dsimp only at h
  split at h
  · cases h; omega
  · split at h
    · split at h
      · cases h; omega
      · cases h
    · split at h
      · cases h; omega
      · cases h; omega

/-- The scrub pointers move as they would without the regulator's tokens spent. -/
theorem State.scrubNext_scrub {v : State} {part : Nat} {bursts : List (Nat × Nat)} (hreg : s.regulate part bursts = some v) :
    (v.scrubNext c).mram.scrub = (s.scrubNext c).mram.scrub := by
  have hv := (State.regulate_only (ps := [.chans]) (by decide) part bursts v hreg).mpr (.refl (s := s))
  have hsize : ∀ k, v.spaceSize k = s.spaceSize k := fun k => by
    have hcap : v.chanCap k = s.chanCap k := by rw [State.chanCap, (SamePlaces.regulate hreg).removed, State.chanCap]
    have hwide : v.wideUnits = s.wideUnits := by rw [State.wideUnits, rg_of_only hv (by decide), State.wideUnits]
    rw [State.spaceSize, hcap, hwide, State.spaceSize]
  have htotal : v.scrubTotal c = s.scrubTotal c := by rw [State.scrubTotal, hsize, hsize, State.scrubTotal]
  rw [(State.scrubNext_mram v c).2.2, (State.scrubNext_mram s c).2.2, mram_of_only hv (by decide), htotal]

end

end Sys2Proof.Machine

open Sys2Proof Sys2Proof.Machine

/-- Settles O31: each read by what its burst decodes to; a correction keeps the places and both memories. -/
theorem burstReadsAndScrubs : Obligations.BurstReadsAndScrubs := by
  refine ⟨fun s req space off errs => ⟨fun hserves => ?served, fun hno => ?unserved, State.serving_self⟩,
    fun s c errs => ⟨fun r rest hr => ?reread, exec_burstReread_none, fun halive hup hmaint => ?scrub, exec_scrubRead_closed⟩⟩
  case served =>
    refine ⟨fun hgood hreq => ⟨fun d hd => ?_, fun syms d hd => ⟨_, exec_memRead_serves hserves, ?_⟩⟩, fun hgood hreq d hd => ?_, fun hgood hd => ?_, fun hbad => ?_⟩
    · rw [exec_memRead_serves hserves, State.readFor_clean hgood hd, State.deliverBurst_answer hreq]
    · rw [State.readFor_corrected hgood hd, State.deliverBurst_answer hreq]
      obtain ⟨hhbm, hstore⟩ := State.corrected_mem_eq s (s.pcOf space (s.serving space off) / 512) (s.pcOf space (s.serving space off) % 512) space
        (s.serving space off) syms
      exact ⟨rfl, hhbm, hstore⟩
    · rw [exec_memRead_serves hserves, State.readFor_clean hgood hd, hreq, State.deliverBurst_scrub]
      rfl
    · rw [exec_memRead_serves hserves, State.readFor_unread hgood hd]
    · rw [exec_memRead_serves hserves, State.readFor_bad hbad]
      rfl
  case unserved =>
    refine ⟨fun hheld hroom => ?_, fun hnone => ?_⟩
    · rw [exec_memRead_request, State.request_queued hno hheld hroom]
    · rw [exec_memRead_request, State.request_refused hno hnone]
  case reread =>
    refine ⟨fun d hd => ?_, fun syms d hd => ?_, fun hd => ?_⟩
    · rw [exec_burstReread hr, hd]
    · rw [exec_burstReread hr, hd]
    · rw [exec_burstReread hr, hd]
  case scrub =>
    refine ⟨fun h => exec_scrubRead_none halive hup hmaint h, fun space off h => ⟨fun u hreg => exec_scrubRead_held halive hup hmaint h hreg u,
      fun v hreg => ⟨fun u hbad => ?_, fun d u hgood hd => ?_, fun syms d hgood hd => ⟨?_, fun hspace => ?_⟩⟩⟩⟩
    · rw [exec_scrubRead_served halive hup hmaint h hreg, if_pos hbad]
    all_goals obtain ⟨hdecoded, hbad, hpc⟩ := State.scrubNext_reads (errs := errs) v c space off
    all_goals have hv := (State.regulate_only (ps := [.chans]) (by decide) 5 _ v hreg).mpr (.refl (s := s))
    all_goals have hsame := State.decoded_congr (SamePlaces.regulate hreg) (congrArg Mram.marks (mram_of_only hv (by decide))) (hv .hbm (by decide)) space off errs
    · rw [exec_scrubRead_served halive hup hmaint h hreg, if_neg (by simp [hgood]), hd]
      dsimp only
      rw [State.readFor_clean (hbad.trans hgood) ((hdecoded.trans hsame).trans hd), State.deliverBurst_scrub]
      rfl
    · rw [exec_scrubRead_served halive hup hmaint h hreg, if_neg (by simp [hgood]), hd]
      rfl
    · have hmod := State.scrubAt_mod h
      have hlen := (State.decoded_length s space off errs).2 syms d hd
      have hone := mirrorOf_none (off := off) (.inl hspace)
      rw [exec_scrubRead_served halive hup hmaint h hreg, if_neg (by simp [hgood]), hd]
      dsimp only
      rw [State.readFor_corrected (hbad.trans hgood) ((hdecoded.trans hsame).trans hd), State.deliverBurst_scrub]
      have hkept := SamePlaces.corrected (.refl (v.scrubNext c)) ((v.scrubNext c).pcOf space off / 512) ((v.scrubNext c).pcOf space off % 512) space off syms
      have hhbm := ((State.corrected_mem_eq (v.scrubNext c) ((v.scrubNext c).pcOf space off / 512) ((v.scrubNext c).pcOf space off % 512) space off syms).1.trans
        (State.scrubNext_hbm v c)).trans (hv .hbm (by decide))
      have hplace := (hkept.pcOf_eq space off).trans (hpc.trans ((SamePlaces.regulate hreg).pcOf_eq space off))
      have hlost := (hkept.lost.trans (State.scrubNext_mram v c).1).trans (SamePlaces.regulate hreg).lost
      rw [if_neg Bool.false_ne_true, if_pos rfl, State.storeBytes_one _ _ _ hone]
      refine ⟨_, rfl, fun a ha => ?_, fun hin i hi => ?_, ?_⟩
      · rw [State.putCopy_outside (by omega), hhbm]
      · rw [State.putCopy_inside (by rw [hplace, hlost]; exact hin) (by omega), List.getD_eq_getElem]
      · rw [mram_of_only (State.putCopy_only _ _ _ _) (by decide), hkept.scrub, State.scrubNext_scrub hreg]

/-- Settles O32: a whole burst by storeBurst, a part by the burst that is read and the bytes laid over it, in each copy. -/
theorem burstWritesStoreTheirBytes : Obligations.BurstWritesStoreTheirBytes := by
  intro s req space off data errs hserves
  have htake : off % 64 = 0 → 64 ≤ data.length → (data.take (64 - off % 64)).length = 64 := fun hoff hlen => by
    rw [List.length_take, hoff]
    omega
  have hpart : off % 64 ≠ 0 ∨ data.length < 64 → ¬ (off % 64 = 0 ∧ (data.take (64 - off % 64)).length = 64) := fun h ⟨hoff, hlen⟩ => by
    rw [List.length_take] at hlen
    omega
  refine ⟨fun hone hlost => ?lost, fun hone hlost hoff hlen => ?whole, fun o hs ho hoff hlen => ?mirrored, fun o d hs ho hp hgood hd => ?mirroredPart,
    fun hone hlost hp => ⟨fun hgood => ⟨fun d hd => ?clean, fun syms d hd => ?corrected, fun hd => ?unread⟩, fun hbad => ?bad⟩⟩
  case lost => rw [exec_memWrite_serves hserves, State.perform_lost hone hlost]
  case whole =>
    have hl := htake hoff hlen
    have hm := mirrorOf_none hone
    refine ⟨_, exec_memWrite_serves hserves, ?_⟩
    rw [State.perform_whole (.inl hlost) hoff hl, State.storeBurst_hbm, State.storeBurst_poison hone]
    refine ⟨fun i hi => ?_, fun a ha => ?_, by simp, fun x hx => by simp [hx], (State.storeBurst_only (by decide) ..).mpr .refl⟩
    · rw [State.storeBytes_inside (.inl rfl) hlost (take_length off) (by omega), take_getElem]
    · rw [State.storeBytes_one _ _ _ hm, State.putCopy_outside (by omega)]
  case mirrored =>
    have hl := htake hoff hlen
    have hm : mirrorOf space off = some o := (if_pos hs).trans ho
    refine ⟨_, exec_memWrite_serves hserves, ?_⟩
    rw [State.perform_whole (.inr ⟨hs, o, ho⟩) hoff hl, State.storeBurst_hbm]
    refine ⟨fun hin i hi => ?_, fun hin i hi => ?_, fun a ha ha' => ?_, (State.storeBurst_only (by decide) ..).mpr .refl⟩
    · rw [State.storeBytes_inside (.inl rfl) hin (take_length off) (by omega), take_getElem]
    · rw [State.storeBytes_inside (.inr hm) hin (take_length off) (by omega), take_getElem]
    · refine State.storeBytes_outside fun x hx => ?_
      rcases hx with rfl | hx
      · omega
      · obtain rfl := Option.some.inj (hm.symm.trans hx)
        omega
  case mirroredPart =>
    have hm : mirrorOf space off = some o := (if_pos hs).trans ho
    have hdlen := (State.decoded_length s space off errs).1 d hd
    obtain ⟨hcopies, -⟩ := State.partWrite_bytes (req := req) (space := space) (off := off) (data := data) (fixed := false) (.refl s) rfl hdlen
    refine ⟨_, exec_memWrite_serves hserves, ?_⟩
    rw [State.perform_part (.inr ⟨hs, o, ho⟩) (hpart hp), State.serving_self (.inr hgood), State.readFor_clean hgood hd]
    refine ⟨fun x hx hin => hcopies x (hx.imp_right fun hxo => by rw [hxo]; exact hm) hin, ?_⟩
    rw [State.deliverBurst_write]
    exact (State.storeBytes_only (by decide) ..).mpr ((State.storeBytes_only (by decide) ..).mpr .refl)
  case clean =>
    have hdlen := (State.decoded_length s space off errs).1 d hd
    obtain ⟨hcopies, hframe⟩ := State.partWrite_bytes (req := req) (space := space) (off := off) (data := data) (fixed := false) (.refl s) rfl hdlen
    obtain ⟨hin, hrest⟩ := hcopies off (.inl rfl) hlost
    refine ⟨_, exec_memWrite_serves hserves, ?_⟩
    rw [State.perform_part (.inl hlost) (hpart hp), State.serving_one hone, State.readFor_clean hgood hd]
    refine ⟨hin, hrest, fun a ha => hframe a fun x hx => ?_, ?_⟩
    · obtain rfl := hx.resolve_right (by simp [mirrorOf_none hone])
      exact ha
    · rw [State.deliverBurst_write]
      exact (State.storeBytes_only (by decide) ..).mpr ((State.storeBytes_only (by decide) ..).mpr .refl)
  case corrected =>
    have hdlen := (State.decoded_length s space off errs).2 syms d hd
    obtain ⟨hcopies, hframe⟩ := State.partWrite_bytes (req := req) (space := space) (off := off) (data := data) (fixed := true)
      (SamePlaces.corrected (.refl s) (s.pcOf space off / 512) (s.pcOf space off % 512) space off syms) (State.corrected_mem_eq ..).1 hdlen
    obtain ⟨hin, hrest⟩ := hcopies off (.inl rfl) hlost
    refine ⟨_, exec_memWrite_serves hserves, ?_⟩
    rw [State.perform_part (.inl hlost) (hpart hp), State.serving_one hone, State.readFor_corrected hgood hd]
    refine ⟨hin, hrest, fun a ha => hframe a fun x hx => ?_⟩
    obtain rfl := hx.resolve_right (by simp [mirrorOf_none hone])
    exact ha
  case unread =>
    refine ⟨_, exec_memWrite_serves hserves, ?_⟩
    rw [State.perform_part (.inl hlost) (hpart hp), State.serving_one hone, State.readFor_unread hgood hd]
    exact ⟨rfl, congrArg Chan.reread (State.chan_modChan_self ..)⟩
  case bad =>
    rw [exec_memWrite_serves hserves, State.perform_part (.inl hlost) (hpart hp), State.serving_one hone, State.readFor_bad hbad]
    rfl

/-- Settles O33: each command by its guard; the release is State.release_ itself. -/
theorem retrainingHoldsAndReleases : Obligations.RetrainingHoldsAndReleases := by
  intro s c p
  refine ⟨fun halive hup k => ?stack, fun halive hup hwin hstack hlost => ?start, fun hheld => ?busy,
    fun hheld => ⟨fun l => ?done, fun hfew => ?again, fun hthird => ?third⟩, rfl, fun hno => ?idle⟩
  case stack => exact ⟨exec_stackFailure_whole halive hup, fun h => guard_of_true (by rw [halive, hup]; rfl) _ _⟩
  case start =>
    refine guard_of_true ?_ _ _
    have hfree : s.stackHeld c p = false := by simpa [State.stackHeld] using hstack
    simp [halive, hup, hwin, hfree, hlost]
  case busy =>
    obtain ⟨q, hq, hsame⟩ := hheld
    have htaken : s.stackHeld c p = true := List.any_eq_true.mpr ⟨q, hq, by simpa using hsame⟩
    exact guard_of_false (by simp [htaken]) _ _
  case done => exact guard_of_true (by simpa using hheld) _ _
  case again => exact (guard_of_true (by simpa using hheld) _ _).trans (congrArg _ (if_neg (by omega)))
  case third => exact (guard_of_true (by simpa using hheld) _ _).trans (congrArg _ (if_pos (by omega)))
  case idle => exact ⟨guard_of_false (by simpa using hno) _ _, fun l => guard_of_false (by simpa using hno) _ _⟩

end

section
/-! PROOFS. Registers kept as written; translation walks, roots, invalidations and the fault log (R160 to R169, R391). -/

namespace Sys2Proof.Machine

/-! ## Registers -/

/-- Another key reads as before, whatever the default that is not listed. -/
theorem tget_tset_other {α : Type} [DecidableEq α] (d e v : α) (t : Tbl α) {k q : Nat} (h : q ≠ k) : tget d (tset e t k v) q = tget d t q := by
  unfold tset
  split
  · exact tget_tdel_ne d t k q h
  · exact tget_tins_ne d v t k q h

section
variable {s : State} {a b v : Nat}

theorem State.rg_setRg_self : (s.setRg a v).rg a = v % 2 ^ 32 := by
  rw [State.rg, State.setRg, State.setRegs_regs, tget_tset_self, BitVec.toNat_ofNat]

theorem State.rg_setRg_ne (h : homeAddr b ≠ homeAddr a) : (s.setRg a v).rg b = s.rg b := by
  rw [State.rg, State.setRg, State.setRegs_regs]
  exact congrArg BitVec.toNat (tget_tset_other _ _ _ _ h)

theorem State.rg_modChan (c : Nat) (f : Chan → Chan) : (s.modChan c f).rg a = s.rg a := rfl

theorem State.bit_eq {i : Nat} (h : s.rg a = v) : s.bit a i = (v / 2 ^ i % 2 == 1) := by rw [State.bit, h]

end

/-! ## One update of every channel -/

section
variable {s : State} {f : Chan → Chan}

theorem State.chan_foldl_modChan_notMem {l : List Nat} {k : Nat} (h : k ∉ l) : (l.foldl (fun (u : State) c => u.modChan c f) s).chan k = s.chan k := by
  induction l generalizing s with
  | nil => rfl
  | cons c l ih =>
    rw [List.foldl_cons, ih fun hk => h (List.mem_cons_of_mem _ hk), State.chan_modChan_ne _ _ _ _ fun hk => h (by rw [hk]; exact List.mem_cons_self ..)]

theorem State.chan_foldl_modChan {l : List Nat} (hl : l.Nodup) {k : Nat} (h : k ∈ l) :
    (l.foldl (fun (u : State) c => u.modChan c f) s).chan k = f (s.chan k) := by
  induction l generalizing s with
  | nil => cases h
  | cons c l ih =>
    obtain ⟨hc, hl⟩ := List.nodup_cons.mp hl
    rw [List.foldl_cons]
    rcases List.mem_cons.mp h with rfl | hk
    · rw [State.chan_foldl_modChan_notMem hc, State.chan_modChan_self]
    · rw [ih hl hk, State.chan_modChan_ne _ _ _ _ fun he => hc (by rw [← he]; exact hk)]

theorem State.rg_foldl_modChan (l : List Nat) (a : Nat) : (l.foldl (fun (u : State) c => u.modChan c f) s).rg a = s.rg a := by
  induction l generalizing s with
  | nil => rfl
  | cons c l ih => rw [List.foldl_cons, ih, State.rg_modChan]

theorem State.chan_four (c : Nat) (h : c < 4) : ((List.range 4).foldl (fun (u : State) c => u.modChan c f) s).chan c = f (s.chan c) :=
  State.chan_foldl_modChan List.nodup_range (List.mem_range.mpr h)

end

/-! ## Walks -/

/-- The channel whose spill region a requester may reach. -/
def spillOf : Requester → Option Nat
  | .spill c => some c
  | _ => none

section
variable {s : State} {n : Nat} {req : Requester} {va : W64} {write : Bool} {home : Option Nat}

theorem exec_translationWalk (halive : s.alive = true) (hup : s.chanUp (reqChan req) = true) (hhost : req ≠ .host) (hscrub : req ≠ .scrub) :
    exec (.translationWalk n req va write home) s = match s.walk n va.toNat with
      | .fault t l => .next (s.walkFault n req va write t l)
      | .leaf sp _ lg r w p e =>
        match leafFault (spillOf req) home write sp r w p with
        | some t => .next (s.walkFault n req va write t (leafLevel lg))
        | none => .next (s.cacheFill n (reqChan req) (cacheOf req) va.toNat lg e) := by
  change execTranslationWalk n req va write home s = _
  unfold execTranslationWalk
  dsimp only
  rw [halive, hup, beq_false_of_ne hhost, beq_false_of_ne hscrub]
  rfl

variable {sp base lg e : Nat} {r w p : Bool}

theorem exec_translationWalk_leaf (halive : s.alive = true) (hup : s.chanUp (reqChan req) = true) (hhost : req ≠ .host) (hscrub : req ≠ .scrub)
    (hwalk : s.walk n va.toNat = .leaf sp base lg r w p e) : exec (.translationWalk n req va write home) s =
      match leafFault (spillOf req) home write sp r w p with
      | some t => .next (s.walkFault n req va write t (leafLevel lg))
      | none => .next (s.cacheFill n (reqChan req) (cacheOf req) va.toNat lg e) := by
  rw [exec_translationWalk halive hup hhost hscrub, hwalk]

end

/-! ## Roots and invalidations -/

section
variable {s : State} {n : Nat}

/-- The two halves of a root are registers of their own, kept by channel 0. -/
theorem homeAddr_root (hn : n < 2) : homeAddr (pgMMU + 0x100 + 8 * n) = pgMMU + 0x100 + 8 * n ∧ homeAddr (pgMMU + 0x104 + 8 * n) = pgMMU + 0x104 + 8 * n := by
  obtain rfl | rfl : n = 0 ∨ n = 1 := by omega
  · exact ⟨rfl, rfl⟩
  · exact ⟨rfl, rfl⟩

/-- The state once a root is written. -/
def State.withRoot (s : State) (n : Nat) (v : W64) : State :=
  (List.range 4).foldl (fun (u : State) c => u.modChan c fun h => { h with tlb := h.tlb.filter fun e => e.ctx != n })
    ((s.setRg (pgMMU + 0x100 + 8 * n) (v.toNat % 2 ^ 32)).setRg (pgMMU + 0x104 + 8 * n) (v.toNat / 2 ^ 32))

theorem exec_mmuRootWrite (h : (s.ctx n).started = false) (v : W64) : exec (.mmuRootWrite n v) s = .next (s.withRoot n v) := by
  change execMmuRootWrite n v s = _
  rw [execMmuRootWrite, if_neg (by simp [h])]
  rfl

theorem exec_mmuRootWrite_started (h : (s.ctx n).started = true) (v : W64) :
    exec (.mmuRootWrite n v) s = .next (if s.root n = v.toNat then s else s.lockedWrite pgMMU) := by
  change execMmuRootWrite n v s = _
  rw [execMmuRootWrite, if_pos h]

theorem State.withRoot_root (hn : n < 2) (v : W64) : (s.withRoot n v).root n = v.toNat := by
  obtain ⟨hlo, hhi⟩ := homeAddr_root hn
  rw [State.root, State.withRoot, State.rg_foldl_modChan, State.rg_foldl_modChan, State.rg_setRg_self,
    State.rg_setRg_ne (by rw [hlo, hhi]; omega), State.rg_setRg_self]
  have hv := v.isLt
  omega

/-- The state while an invalidation runs. -/
def State.invalidating (s : State) (n : Nat) (va : W64) (pages : Nat) (all : Bool) : State :=
  let lo := bits va.toNat 47 16 * 65536
  let len := max 1 (pages % 2 ^ 32) * 65536
  let t := ((s.setRg (pgMMU + 0x110) (lo % 2 ^ 32)).setRg (pgMMU + 0x114) (lo / 2 ^ 32)).setRg (pgMMU + 0x118) pages
  let t := t.setRg (pgMMU + 0x11C) (256 + 4 * b2n all + 2 * (n % 2))
  (List.range 4).foldl (fun (u : State) c => u.modChan c fun h => { h with tlb := h.tlb.filter fun e => !e.hit n lo len all }) t

theorem exec_mmuInval (va : W64) (pages : Nat) (all : Bool) : exec (.mmuInval n va pages all) s =
    if s.bit (pgMMU + 0x11C) 8 then .next (s.badCommand pgMMU) else .next (s.invalidating n va pages all) := rfl

theorem State.invalidating_bit (va : W64) (pages : Nat) (all : Bool) : (s.invalidating n va pages all).bit (pgMMU + 0x11C) 8 = true := by
  have hrg : (s.invalidating n va pages all).rg (pgMMU + 0x11C) = (256 + 4 * b2n all + 2 * (n % 2)) % 2 ^ 32 :=
    (State.rg_foldl_modChan ..).trans State.rg_setRg_self
  rw [State.bit_eq hrg, beq_iff_eq]
  have hall : b2n all ≤ 1 := by cases all <;> decide
  omega

theorem State.invalidating_tlb {c : Nat} (hc : c < 4) (va : W64) (pages : Nat) (all : Bool) : ((s.invalidating n va pages all).chan c).tlb =
    (s.chan c).tlb.filter fun e => !e.hit n (bits va.toNat 47 16 * 65536) (max 1 (pages % 2 ^ 32) * 65536) all :=
  congrArg Chan.tlb (State.chan_four c hc)

end

end Sys2Proof.Machine

open Sys2Proof Sys2Proof.Machine

/-- Settles O36: a walk by its leaf and leafFault, a root by its two registers, an invalidation by Tlb.hit. -/
theorem translationWalksAndInvalidations : Obligations.TranslationWalksAndInvalidations := by
  intro s n
  refine ⟨fun req va write home halive hup hhost hscrub => ⟨fun sp base lg r w p e hwalk hok => ?fill, fun ft l hwalk => ?fault,
      fun sp base lg r w p e ft hwalk hbad => ?refused⟩,
    fun v hn hstop => ⟨s.withRoot n v, exec_mmuRootWrite hstop v, State.withRoot_root hn v, fun c hc => congrArg Chan.tlb (State.chan_four c hc)⟩,
    fun v hstart heq => ?same, fun v hstart hne => ?locked, fun va pages all hbusy => ?busy, fun va pages all hfree => ?inval, ?done, fun _ => rfl⟩
  case fill =>
    rw [exec_translationWalk_leaf halive hup hhost hscrub hwalk, show leafFault (spillOf req) home write sp r w p = none from hok]
  case fault => rw [exec_translationWalk halive hup hhost hscrub, hwalk]
  case refused =>
    rw [exec_translationWalk_leaf halive hup hhost hscrub hwalk, show leafFault (spillOf req) home write sp r w p = some ft from hbad]
    rfl
  case same => rw [exec_mmuRootWrite_started hstart, if_pos heq]
  case locked => rw [exec_mmuRootWrite_started hstart, if_neg hne]
  case busy => rw [exec_mmuInval, if_pos hbusy]
  case inval =>
    refine ⟨s.invalidating n va pages all, ?_, State.invalidating_bit va pages all, fun c hc e => ?_⟩
    · rw [exec_mmuInval, if_neg (by simp [hfree])]
    · rw [State.invalidating_tlb hc]
      simp [and_comm]
  case done =>
    refine ⟨_, rfl, ?_, fun a ha => State.rg_setRg_ne ha⟩
    rw [State.bit_eq State.rg_setRg_self, beq_eq_false_iff_ne]
    omega

end

section
/-! PROOFS. DMA bursts and ordering reads (R172 to R178). -/

namespace Sys2Proof.Machine

theorem hbm_of_mem {s t : State} (h : t.mem = s.mem) : t.hbm = s.hbm := congrArg (fun m => m.2.1) h

theorem store_of_mem {s t : State} (h : t.mem = s.mem) : t.store = s.store := congrArg (fun m => m.2.2) h

/-! ## Where a side lies -/

section
variable {s t : State} {x y : Xfer}

theorem Ctx.fl_modFl_map (c : Ctx) (seq k : Nat) {g : Flight → Flight} (hg : ∀ x, (g x).seq = x.seq) :
    (c.modFl seq g).fl k = (c.fl k).map fun x => if x.seq = seq then g x else x := by
  have hpred : ((fun x : Flight => x.seq == k) ∘ fun x => if x.seq = seq then g x else x) = fun x => x.seq == k := by
    funext x
    by_cases hx : x.seq = seq <;> simp [hx, hg]
  rw [Ctx.fl, Ctx.modFl, List.find?_map, hpred]
  rfl

/-- The operand that a side of a transfer is, as its flight names it. -/
def State.xferOperand (s : State) (x : Xfer) (i : Nat) : Option (Operand × TensorRec) := (s.xferFlight x).bind (·.operand i)

/-- A side is told by the transfer's host bits and its operand. -/
theorem State.side_congr (hsrc : y.srcHost = x.srcHost) (hdst : y.dstHost = x.dstHost) {i : Nat} (h : t.xferOperand y i = s.xferOperand x i) :
    t.side y i = s.side x i := by
  unfold State.xferOperand at h
  rw [State.side, hsrc, hdst, h, State.side]

theorem State.xferOperand_of_ctx (h : ∀ n, t.ctx n = s.ctx n) (i : Nat) : t.xferOperand x i = s.xferOperand x i := by
  rw [State.xferOperand, State.xferFlight, h, State.xferOperand, State.xferFlight]

/-- A destination is the host's by its bit alone. -/
theorem State.side_host : s.side x 1 = .host ↔ x.dstHost = true := by
  unfold State.side
  cases hd : x.dstHost with
  | true => simp
  | false =>
    simp only [beq_self_eq_true, Nat.one_ne_zero, beq_iff_eq, Bool.false_and, Bool.and_false, Bool.or_self, Bool.false_eq_true, iff_false]
    split
    · rename_i h
      simp at h
    · split
      · split
        · split <;> simp
        · simp
        · simp
      · simp

theorem Flight.noteNf_operand (f : Flight) (pos : Nat) (bad : Bool) (i : Nat) : (f.noteNf pos bad).seq = f.seq ∧ (f.noteNf pos bad).operand i = f.operand i := by
  unfold Flight.noteNf
  split
  · exact ⟨rfl, rfl⟩
  · exact ⟨rfl, rfl⟩

theorem State.xferOperand_noteNf {q : Nat} (hseq : x.seq = some q) (b : Bool) (pos i : Nat) :
    (if b then s.modFlight x.ctx q (·.noteNf pos true) else s).xferOperand x i = s.xferOperand x i := by
  cases b with
  | false => rfl
  | true =>
    rw [if_pos rfl, State.xferOperand, State.xferFlight, hseq, State.modFlight, Option.bind_some, State.ctx_modCtx_self,
      Ctx.fl_modFl_map _ _ _ fun f => (f.noteNf_operand pos true i).1, State.xferOperand, State.xferFlight, hseq, Option.bind_some]
    cases (s.ctx x.ctx).fl q with
    | none => rfl
    | some f =>
      rw [Option.map_some, Option.bind_some, Option.bind_some]
      split
      · exact (f.noteNf_operand pos true i).2
      · rfl

/-- A non-finite value noted in a flight leaves its operands. -/
theorem State.dmaNote_operand (s : State) (x : Xfer) (k len i : Nat) : (s.dmaNote x k len).xferOperand x i = s.xferOperand x i := by
  unfold State.dmaNote
  cases hseq : x.seq with
  | none =>
    dsimp only
    rw [State.xferOperand, State.xferFlight, hseq, State.xferOperand, State.xferFlight, hseq]
    rfl
  | some q =>
    cases (s.xferFlight x).bind (·.operand 1) with
    | none => rfl
    | some p => exact State.xferOperand_noteNf hseq _ 1 i

theorem Xfer.goto_fields (x : Xfer) (p : Nat) : (x.goto p).seq = x.seq ∧ (x.goto p).ctx = x.ctx ∧ (x.goto p).srcHost = x.srcHost ∧
    (x.goto p).dstHost = x.dstHost := by
  unfold Xfer.goto
  split
  · exact ⟨rfl, rfl, rfl, rfl⟩
  · exact ⟨rfl, rfl, rfl, rfl⟩

theorem State.side_goto (p : Nat) : s.side (x.goto p) 1 = s.side x 1 := by
  obtain ⟨hseq, hctx, hsrc, hdst⟩ := Xfer.goto_fields x p
  refine State.side_congr hsrc hdst ?_
  rw [State.xferOperand, State.xferFlight, hseq, hctx, State.xferOperand, State.xferFlight]

theorem State.ctx_modDma (c d : Nat) (f : Dma → Dma) (n : Nat) : (s.modDma c d f).ctx n = s.ctx n := rfl

theorem State.dma_modDma (c d : Nat) (f : Dma → Dma) : (s.modDma c d f).dma c d = f (s.dma c d) := by
  rw [State.dma, State.modDma, State.chan_modChan_self]
  exact tget_tset_self ..

end

/-! ## What a burst leaves of the memories -/

section
variable {s : State} {c d n : Nat} {x : Xfer}

/-- The end of a transfer fills edges only of a destination that is converted. -/
theorem State.dmaDone_mem (h : ∀ t, s.side x 1 ≠ .tensor t) : (s.dmaDone c d x).mem = s.mem := by
  dsimp only [State.dmaDone]
  rw [State.rescueDma_mem, State.dmaSignal_mem]
  split
  · split
    · rename_i t hside
      exact absurd hside (h t)
    · rw [State.modFlight_mem, State.putStatus_mem, State.modDma_mem]
  · rw [State.hostDmaTouched_mem, State.putStatus_mem, State.modDma_mem]

theorem State.dmaMoved_mem (h : ∀ t, s.side x 1 ≠ .tensor t) : (s.dmaMoved c d x n).mem = s.mem := by
  dsimp only [State.dmaMoved]
  split
  · rw [State.dmaDone_mem, State.modDma_mem]
    intro t
    rw [State.side_goto, State.side_congr rfl rfl (State.xferOperand_of_ctx (State.ctx_modDma c d _) 1)]
    exact h t
  · split
    · rw [State.emit_mem, State.modDma_mem]
    · rw [State.modDma_mem]

theorem State.dstPlaces_of_store {q : Nat} (h : s.side x 1 = .store q) (k len : Nat) : s.dstPlaces x k len = [] := by rw [State.dstPlaces, h]

/-- A burst to the host changes no byte of memory. -/
theorem State.dmaMove_host (h : s.side x 1 = .host) (k : Nat) (parts : List (Nat × Option Nat)) (host : List Byte) :
    (s.dmaMove c d x k parts host).mem = s.mem := by
  unfold State.dmaMove
  split
  · rw [State.dmaFault_mem]
  · dsimp only
    split
    · rw [State.dmaFault_mem]
    · rw [State.dmaFault_mem]
    · have hside : ∀ t : State, t.side x 1 = .host := fun _ => State.side_host.mpr (State.side_host.mp h)
      rw [State.dmaMoved_mem fun t => by rw [hside]; exact Side.noConfusion, State.dmaNote_mem, State.sideWrite, hside]
      exact State.rewrite_mem _

/-- A burst to a squad store is the store's write of the bytes that it has read. -/
theorem State.dmaMove_store {q k : Nat} {parts : List (Nat × Option Nat)} {host l : List Byte} (h : s.side x 1 = .store q) (hmode : x.mode ≠ .scatterAdd)
    (hread : s.partsRead x parts host = .inr l) :
    (s.dmaMove c d x k parts host).mem = ((s.rewrite []).storeWrite q (x.addr false k) l).mem := by
  have hctx : ∀ n, (s.rewrite []).ctx n = s.ctx n := ctx_of_only ((State.rewrite_only (ps := [.chans]) (by decide) []).mpr .refl) (by decide)
  have hrewrite : (s.rewrite []).side x 1 = .store q := (State.side_congr rfl rfl (State.xferOperand_of_ctx hctx 1)).trans h
  unfold State.dmaMove
  rw [hread]
  dsimp only
  rw [h, if_neg hmode, State.dstPlaces_of_store h]
  dsimp only
  rw [if_neg hmode]
  have hwrite : (s.rewrite []).sideWrite x k l = (s.rewrite []).storeWrite q (x.addr false k) l := by rw [State.sideWrite, hrewrite]
  rw [hwrite, State.dmaMoved_mem, State.dmaNote_mem]
  intro t
  have hwritten : ((s.rewrite []).storeWrite q (x.addr false k) l).side x 1 = .store q :=
    (State.side_congr rfl rfl (State.xferOperand_of_ctx (fun _ => rfl) 1)).trans hrewrite
  rw [State.side_congr rfl rfl (State.dmaNote_operand ..), hwritten]
  exact Side.noConfusion

end

/-! ## The commands -/

section
variable {s : State} {c d : Nat} {x : Xfer} {host : List Byte}

theorem exec_dmaBurstCommit (hstate : (s.dma c d).state = 1) (hx : (s.dma c d).xfer = some x) : exec (.dmaBurstCommit c d host) s =
    if !s.chanUp c || !s.dmaRuns x || decide (x.total ≤ x.pos) || (x.dstHost && x.mode == DmaMode.scatterAdd && x.ordered != x.pos) then .next s
    else match s.nextBurst x with
      | .fail f a b => .next (s.dmaFault c d x f a b false)
      | .index => .next (s.dmaIndex c d x)
      | .hole => .next (s.dmaMoved c d x (x.elem - x.eoff))
      | .move k l => .next (s.dmaMove c d x k l host) := by
  change execDmaBurstCommit c d host s = _
  rw [execDmaBurstCommit, hstate, hx] <;> rfl

theorem exec_dmaBurstCommit_runs (hstate : (s.dma c d).state = 1) (hx : (s.dma c d).xfer = some x) (hup : s.chanUp c = true) (hruns : s.dmaRuns x = true)
    (hleft : x.pos < x.total) (hdue : ¬ (x.dstHost = true ∧ x.mode = .scatterAdd ∧ x.ordered ≠ x.pos)) :
    exec (.dmaBurstCommit c d host) s = match s.nextBurst x with
      | .fail f a b => .next (s.dmaFault c d x f a b false)
      | .index => .next (s.dmaIndex c d x)
      | .hole => .next (s.dmaMoved c d x (x.elem - x.eoff))
      | .move k l => .next (s.dmaMove c d x k l host) := by
  have hnot : (x.dstHost && x.mode == DmaMode.scatterAdd && x.ordered != x.pos) = false :=
    Bool.eq_false_iff.mpr fun h => hdue (by simpa [and_assoc] using h)
  rw [exec_dmaBurstCommit hstate hx, hup, hruns, hnot, decide_eq_false (Nat.not_le.mpr hleft)] <;> rfl

theorem exec_dmaBurstCommit_due (hstate : (s.dma c d).state = 1) (hx : (s.dma c d).xfer = some x) (hdst : x.dstHost = true) (hmode : x.mode = .scatterAdd)
    (hne : x.ordered ≠ x.pos) : exec (.dmaBurstCommit c d host) s = .next s := by
  rw [exec_dmaBurstCommit hstate hx, if_pos (by simp [hdst, hmode, hne])]

theorem exec_dmaOrderingRead (hstate : (s.dma c d).state = 1) (hx : (s.dma c d).xfer = some x) : exec (.dmaOrderingRead c d) s =
    if !x.dstHost then .next s
    else .next (if x.total ≤ x.pos then (s.modDma c d fun k => { k with xfer := some { x with ordered := x.pos } }).dmaDone c d { x with ordered := x.pos }
      else s.modDma c d fun k => { k with xfer := some { x with ordered := x.pos } }) := by
  change execDmaOrderingRead c d s = _
  rw [execDmaOrderingRead, hstate, hx] <;> rfl

end

end Sys2Proof.Machine

open Sys2Proof Sys2Proof.Machine

/-- Settles O38: each burst by nextBurst; only an end that fills the edges of a converted tensor would write more than the burst's bytes. -/
theorem dmaBurstsMoveTheirBytes : Obligations.DmaBurstsMoveTheirBytes := by
  intro s c d x host hstate hx
  refine ⟨fun hup hruns hleft hdue => ?bursts, fun hdst hmode hne => exec_dmaBurstCommit_due hstate hx hdst hmode hne,
    fun hdst hleft => ?ordered, fun hdst hend => ?ended, fun hdst => ?notHost⟩
  case bursts =>
    have hexec := exec_dmaBurstCommit_runs (host := host) hstate hx hup hruns hleft hdue
    refine ⟨fun k l h => ?_, fun f a b h => ?_, fun h => ?_, fun h => ?_, fun t ht hside => ?_, fun k ps q l h hside hmode hread => ?_⟩
    · rw [hexec, h]
    · rw [hexec, h]
    · rw [hexec, h]
    · rw [hexec, h]
    · have hmem : t.mem = s.mem := by
        rw [hexec] at ht
        split at ht <;> obtain rfl := Host.Outcome.next.inj ht
        · exact State.dmaFault_mem ..
        · exact State.dmaIndex_mem ..
        · exact State.dmaMoved_mem fun t => by rw [hside]; exact Side.noConfusion
        · exact State.dmaMove_host hside ..
      exact ⟨hbm_of_mem hmem, store_of_mem hmem⟩
    · refine ⟨s.dmaMove c d x k ps host, by rw [hexec, h], ?_⟩
      have hmem := State.dmaMove_store (c := c) (d := d) (k := k) hside hmode hread
      have hhbm : (s.rewrite []).hbm = s.hbm := hbm_of_mem (State.rewrite_mem _)
      have hstore : (s.rewrite []).store = s.store := store_of_mem (State.rewrite_mem _)
      rw [hbm_of_mem hmem, store_of_mem hmem]
      refine ⟨hhbm, fun i hi => cellGet_cellWrite_inside _ _ _ _ hi, fun j hj => ?_⟩
      exact (cellGet_cellWrite_outside _ _ _ _ hj).trans (congrArg (cellGet · j) hstore)
  case ordered =>
    refine ⟨s.modDma c d fun k => { k with xfer := some { x with ordered := x.pos } }, ?_, ?_, ?_, (State.modDma_only (by decide) c d _).mpr .refl⟩
    · rw [exec_dmaOrderingRead hstate hx, if_neg (by simp [hdst]), if_neg (by omega)]
    · rw [State.dma_modDma]
    · rw [State.dma_modDma]
      exact hstate
  case ended => rw [exec_dmaOrderingRead hstate hx, if_neg (by simp [hdst]), if_pos hend]
  case notHost => rw [exec_dmaOrderingRead hstate hx, if_pos (by simp [hdst])]

end


section
/-! PROOFS. Engines that fail, watchdogs, fences commanded and cleared, entry to Sideline mode (R285 to R304, R332, R362). -/

namespace Sys2Proof.Machine

section
variable {s t : State} {c d n sq : Nat}

/-! ## What stays of a table whose entries are mapped -/

theorem tget_map_proj {α γ : Type} {z : α} {g : α → α} (p : α → γ) (hg : ∀ x, p (g x) = p x) (l : Tbl α) (k : Nat) :
    p (tget z (l.map fun e => (e.1, g e.2)) k) = p (tget z l k) := by
  induction l with
  | nil => rfl
  | cons e l ih =>
    simp only [List.map_cons, tget]
    split
    · exact hg e.2
    · exact ih

/-! ## Fences of squads (R297) -/

/-- A squad's fence stands, in the squad and with its cause in MRAM. -/
structure FenceStands (sq cause : Nat) (t : State) : Prop where
  squad : (t.squad sq).fenced = true
  mram : tfind t.mram.fences sq = some cause

namespace FenceStands
variable {cause : Nat}

theorem of_only {fs : List Part} (h : FenceStands sq cause s) (ht : Only fs s t) (hp : Part.squads ∉ fs ∧ Part.mram ∉ fs) : FenceStands sq cause t :=
  ⟨by rw [squad_of_only ht hp.1]; exact h.squad, by rw [mram_of_only ht hp.2]; exact h.mram⟩

theorem log (h : FenceStands sq cause t) (ch code sev cls st si : Nat) (p : List Byte) : FenceStands sq cause (t.log ch code sev cls st si p) :=
  h.of_only ((State.log_only (ps := [.out, .ledger, .host, .watch]) (by decide) ch code sev cls st si p).mpr .refl) (by decide)

theorem raise (h : FenceStands sq cause t) (v : Nat) : FenceStands sq cause (t.raise v) :=
  h.of_only ((State.raise_only (ps := [.out, .host]) (by decide) v).mpr .refl) (by decide)

theorem alert (h : FenceStands sq cause t) (i : Nat) : FenceStands sq cause (t.alert i) :=
  h.of_only ((State.alert_only (ps := [.watch]) (by decide) i).mpr .refl) (by decide)

theorem setMode (h : FenceStands sq cause t) (m : Mode) (trigger ch : Nat) : FenceStands sq cause (t.setMode m trigger ch) :=
  h.of_only ((State.setMode_only (ps := [.out, .dev, .ledger, .host, .watch]) (by decide) m trigger ch).mpr .refl) (by decide)

theorem setDev (h : FenceStands sq cause t) (v : Dev) : FenceStands sq cause (t.setDev v) := ⟨h.squad, h.mram⟩

theorem stopEngines (h : FenceStands sq cause t) (n : Nat) : FenceStands sq cause (t.stopEngines n) :=
  ⟨Eq.trans (tget_map_proj (z := Squad.reset) (g := fun q => q.stopCtx n) (fun q => q.fenced) (fun _ => rfl) t.squads sq) h.squad, h.mram⟩

theorem loseCtx (h : FenceStands sq cause t) (n why q qindex seq : Nat) (keep : Bool) : FenceStands sq cause (t.loseCtx n why q qindex seq keep) := by
  unfold State.loseCtx
  split
  · exact h
  · have htags : FenceStands sq cause (t.abortTags n) :=
      h.of_only ((State.abortTags_only (ps := [.out]) (by decide) n).mpr .refl) (by decide)
    have hctx : FenceStands sq cause (((t.abortTags n).stopEngines n).modCtx n (·.lose keep)) :=
      (htags.stopEngines n).of_only ((State.modCtx_only (ps := [.ctx0, .ctx1]) (by decide) n _).mpr .refl) (by decide)
    exact (hctx.log ..).raise _

theorem sideline (h : FenceStands sq cause t) (trigger ch : Nat) : FenceStands sq cause (t.sideline trigger ch) := by
  unfold State.sideline
  split
  · exact h
  · split
    · exact h
    · exact h.setDev _
  · exact ((((((h.setDev _).loseCtx ..).loseCtx ..).log ..).raise _).raise _).alert _

theorem ite {p : Prop} [Decidable p] {u : State} (h : FenceStands sq cause t) (h' : FenceStands sq cause u) :
    FenceStands sq cause (if p then t else u) := by
  split
  · exact h
  · exact h'

/-- The fence is set in the squad and listed in MRAM. -/
theorem marked {f : Squad → Squad} {m : Mram} (hf : (f (t.squad sq)).fenced = true) (hm : tfind m.fences sq = some cause) :
    FenceStands sq cause ((t.modSquad sq f).setMram m) :=
  ⟨(congrArg Squad.fenced (State.squad_modSquad_self t sq f)).trans hf, hm⟩

end FenceStands

/-- A fence of a squad that had none stands after it. -/
theorem State.fence_stands (hopen : (s.squad sq).fenced = false) (cause : Nat) : FenceStands sq cause (s.fence sq cause) := by
  rw [State.fence, if_neg (by rw [hopen]; exact Bool.false_ne_true)]
  dsimp only
  refine .ite (.sideline ?_ 6 0xFF) ?_ <;>
  · refine .ite (.setMode ?_ .reduced 1 0xFF) ?_ <;> exact .raise (.log (.alert (.marked rfl tfind_tins_self) 1) ..) _

/-! ## A DMA channel that is taken out of service -/

/-- The DMA channel is disabled. -/
def DmaOff (c d : Nat) (t : State) : Prop := (t.dma c d).disabled = true

namespace DmaOff

theorem of_only {fs : List Part} (h : DmaOff c d s) (ht : Only fs s t) (hp : Part.chans ∉ fs) : DmaOff c d t := by
  rw [DmaOff, State.dma, chan_of_only ht hp]
  exact h

theorem modDma (h : DmaOff c d t) (e : Nat) (f : Dma → Dma) (hf : ∀ k, (f k).disabled = k.disabled) : DmaOff c d (t.modDma c e f) := by
  obtain rfl | hne := eq_or_ne d e
  · rw [DmaOff, State.dma_modDma, hf]
    exact h
  · rw [DmaOff, State.dma, State.modDma, State.chan_modChan_self]
    exact (congrArg Dma.disabled (tget_tset_ne _ _ _ _ _ hne)).trans h

theorem log (h : DmaOff c d t) (ch code sev cls st si : Nat) (p : List Byte) : DmaOff c d (t.log ch code sev cls st si p) :=
  h.of_only ((State.log_only (ps := [.out, .ledger, .host, .watch]) (by decide) ch code sev cls st si p).mpr .refl) (by decide)

theorem putStatus (h : DmaOff c d t) (e : Nat) (x : Xfer) (w : List Byte) : DmaOff c d (t.putStatus c e x w) := by
  have hword := h.modDma e (fun k => { k with sw := w }) fun _ => rfl
  unfold State.putStatus
  split
  · exact hword.of_only ((State.modCtx_only (ps := [.ctx0, .ctx1]) (by decide) x.ctx _).mpr .refl) (by decide)
  · exact hword.of_only ((State.emit_only (ps := [.out]) (by decide) _).mpr .refl) (by decide)

theorem dmaStop (h : DmaOff c d t) (e : Nat) (x : Xfer) (state flags ftype va : Nat) : DmaOff c d (t.dmaStop c e x state flags ftype va) := by
  unfold State.dmaStop
  have hstatus := fun y (w : List Byte) => (h.modDma e (fun k => { k with state := 2, xfer := some y, restartable := flags / 8 % 2 == 1 }) fun _ => rfl).putStatus e y w
  dsimp only
  split
  · exact (hstatus _ _).log ..
  · exact hstatus _ _

theorem dmaSignal (h : DmaOff c d t) (e bit : Nat) : DmaOff c d (t.dmaSignal c e bit) :=
  h.of_only ((State.dmaSignal_only (ps := [.out, .regs, .host]) (by decide) c e bit).mpr .refl) (by decide)

theorem rescueDma (h : DmaOff c d t) : DmaOff c d (t.rescueDma c) := by
  unfold State.rescueDma
  split
  · exact (h.modDma _ _ (by intro; rfl)).modDma _ _ (by intro; rfl)
  · exact h

end DmaOff

/-- A DMA channel that is told to go out of service is disabled, whatever becomes of its transfer. -/
theorem State.dmaDisable_off (s : State) (c d : Nat) : DmaOff c d (s.dmaDisable c d) := by
  unfold State.dmaDisable
  split
  next h => exact h
  next =>
    have hoff : DmaOff c d (s.modDma c d fun k => { k with disabled := true }) := congrArg Dma.disabled (State.dma_modDma ..)
    have hlogged := hoff.log c 0x1402 2 3 0x11 (c * 32 + d) (leBytes 2 (c * 32 + d))
    dsimp only
    split
    · split
      · exact (hlogged.dmaStop ..).dmaSignal ..
      · exact (hlogged.modDma d _ (by intro; rfl)).rescueDma
    · exact hlogged

/-! ## Contexts that are lost, and Sideline (R302, R304) -/

/-- An operation that touches the channels, the squads and the other parts leaves a context's mark. -/
theorem lost_of_only {fs : List Part} (ht : Only fs s t) (hp : Part.ctx0 ∉ fs ∧ Part.ctx1 ∉ fs) (n : Nat) : (t.ctx n).lost = (s.ctx n).lost := by
  rw [ctx_of_only ht hp]

/-- Losing a context marks it lost and leaves the mark of the other one. -/
theorem State.loseCtx_lost (s : State) (n why q qindex seq : Nat) (keep : Bool) :
    ((s.loseCtx n why q qindex seq keep).ctx n).lost = true ∧
      ∀ m, n < 2 → m < 2 → m ≠ n → ((s.loseCtx n why q qindex seq keep).ctx m).lost = (s.ctx m).lost := by
  unfold State.loseCtx
  split
  next h => exact ⟨h, fun _ _ _ _ => rfl⟩
  next =>
    dsimp only
    have hstop : ∀ m, (((s.abortTags n).stopEngines n).ctx m).lost = (s.ctx m).lost := fun m =>
      lost_of_only (fs := [.out, .squads, .chans]) (by simp) (by decide) m
    have hlog := fun u : State => lost_of_only (s := u) (t := (u.log 0 0x1802 2 4 0x13 q (leBytes 1 n ++ leBytes 1 why ++ leBytes 2 q ++
      leBytes 4 qindex ++ leBytes 4 seq)).raise (164 + 8 * n)) (fs := [.out, .ledger, .host, .watch]) (by simp) (by decide)
    refine ⟨(hlog _ n).trans (by rw [State.ctx_modCtx_self]; rfl), fun m hn hm hne => (hlog _ m).trans ?_⟩
    rw [State.ctx_modCtx_ne _ hn hm hne _]
    exact hstop m

theorem State.sideline_of_up (hup : s.up = true) (trigger ch : Nat) : s.sideline trigger ch =
    (((((((s.setDev { s.dev with mode := .sideline }).loseCtx 0 8 0 0 0 true).loseCtx 1 8 0 0 0 true).log 4 0x0401 3 5 0x56 0
      (s.modePayload s.dev.mode .sideline trigger ch)).raise 248).raise 251).alert 0) := by
  unfold State.sideline
  split
  next h => simp [State.up, h] at hup
  next h => simp [State.up, h] at hup
  next => rfl

theorem State.sideline_lost (hup : s.up = true) (trigger ch : Nat) :
    (s.sideline trigger ch).ctx0.lost = true ∧ (s.sideline trigger ch).ctx1.lost = true := by
  rw [State.sideline_of_up hup]
  have hlog := fun (u : State) (p : List Byte) => lost_of_only (s := u) (t := (((u.log 4 0x0401 3 5 0x56 0 p).raise 248).raise 251).alert 0)
    (fs := [.out, .ledger, .host, .watch]) (by simp) (by decide)
  obtain ⟨hself, hother⟩ := State.loseCtx_lost ((s.setDev { s.dev with mode := .sideline }).loseCtx 0 8 0 0 0 true) 1 8 0 0 0 true
  refine ⟨(hlog _ _ 0).trans ((hother 0 (by decide) (by decide) (by decide)).trans ?_), (hlog _ _ 1).trans hself⟩
  exact (State.loseCtx_lost _ 0 8 0 0 0 true).1

theorem State.alert_bit (s : State) (i : Nat) (hi : i < 5) : (s.alert i).watch.alert.getLsbD i = true := by
  change (s.watch.alert ||| BitVec.ofNat 5 (2 ^ i)).getLsbD i = true
  rw [BitVec.getLsbD_or, BitVec.getLsbD_ofNat, Nat.testBit_two_pow_self]
  simp [hi]

theorem State.sideline_alert (hup : s.up = true) (trigger ch : Nat) : (s.sideline trigger ch).watch.alert.getLsbD 0 = true := by
  rw [State.sideline_of_up hup]
  exact State.alert_bit _ 0 (by decide)

theorem State.sideline_keeps (s : State) (trigger ch : Nat) : Only [.out, .dev, .ctx0, .ctx1, .squads, .chans, .ledger, .host, .watch] s (s.sideline trigger ch) :=
  (State.sideline_only (by decide) trigger ch).mpr .refl

/-! ## The commands -/

theorem State.spillUnread_of_not_spilling (h : s.spilling = false) (e : Engine) (data : Option Nat) : s.spillUnread e data = false := by
  unfold State.spillUnread
  rw [h, Bool.false_and, Bool.false_and]

theorem State.spillUnread_none (s : State) (e : Engine) : s.spillUnread e none = false := by
  unfold State.spillUnread
  rw [Option.isSome_none, Bool.and_false, Bool.false_and]

theorem exec_detectorFault_work {e : Engine} {h : Nat} {f : Flight} (hs : s.spilling = false) (hw : s.engineWork e = some (n, f)) :
    exec (.detectorFault e (some h)) s =
      if s.recomputable n h then .next (s.engineFails e) else .next (s.loseByDevice n 3 f.queue f.qindex f.seq) := by
  change execDetectorFault e (some h) s = _
  unfold execDetectorFault
  rw [if_neg (Bool.eq_false_iff.mp (State.spillUnread_of_not_spilling hs e (some h))), hw]

theorem exec_detectorFault_idle {e : Engine} {h : Nat} (halive : s.alive = true) (hs : s.spilling = false) (hw : s.engineWork e = none) :
    exec (.detectorFault e (some h)) s = .next (s.engineFails e) := by
  change execDetectorFault e (some h) s = _
  unfold execDetectorFault
  rw [if_neg (Bool.eq_false_iff.mp (State.spillUnread_of_not_spilling hs e (some h))), hw]
  exact guard_of_true halive _ _

theorem exec_detectorFault_none (halive : s.alive = true) (e : Engine) : exec (.detectorFault e none) s = .next (s.engineFails e) := by
  change execDetectorFault e none s = _
  unfold execDetectorFault
  rw [if_neg (Bool.eq_false_iff.mp (s.spillUnread_none e))]
  exact guard_of_true halive _ _

theorem exec_cmgrWatchdog (halive : s.alive = true) (hup : s.chanUp c = true) : exec (.cmgrWatchdog c) s = .next
    (if (match (s.chan c).wdMiss with | some t => decide (s.clk.ltb < t + 3600000000000) | none => false) then s.channelDown c
      else (s.modChan c fun h => { h with wdMiss := some s.clk.ltb }).log c 0x0C01 1 0 0x40 c (leBytes 1 c)) :=
  guard_of_true (by rw [halive, hup]; rfl) _ _

end

/-! ## What the host clears -/

section
variable {s : State} {c d n sq : Nat}

theorem exec_fenceClear_squad (halive : s.alive = true) (hup : s.chanUp (sq / 16) = true) : exec (.fenceClear (.squad sq)) s =
    if !s.noneStarted then .next (s.lockedWrite (pgSQ sq))
    else .next (s.setMram { s.mram with fences := tdel sq s.mram.fences, suspect := tdel sq s.mram.suspect }) := by
  change execFenceClear (.squad sq) s = _
  simp only [execFenceClear, halive, hup, Bool.not_true, Bool.or_self, Bool.false_eq_true, if_false]

theorem exec_fenceClear_dma (halive : s.alive = true) (hup : s.chanUp c = true) (hnone : s.noneStarted = true) :
    exec (.fenceClear (.dma c d)) s = .next (s.modDma c d fun k => { k with disabled := false }) := by
  change execFenceClear (.dma c d) s = _
  simp only [execFenceClear, halive, hup, hnone, Bool.not_true, Bool.or_self, Bool.false_eq_true, if_false]

theorem exec_fenceClear_port (halive : s.alive = true) (hup : s.chanUp (n / 6) = true) (hnone : s.noneStarted = true) :
    exec (.fenceClear (.port n)) s = .next (s.modLink n fun l => { l with fenced := false }) := by
  change execFenceClear (.port n) s = _
  simp only [execFenceClear, halive, hup, hnone, Bool.not_true, Bool.or_self, Bool.false_eq_true, if_false]

theorem exec_arrClearField (halive : s.alive = true) (hup : s.chanUp (sq / 16) = true) : exec (.arrClearField sq) s =
    if !s.noneStarted then .next (s.lockedWrite (pgARR sq))
    else .next (s.setMram { s.mram with fieldDrop := (s.mram.fieldDrop ++ [sq]).dedup }) := by
  change execArrClearField _ s = _
  simp only [execArrClearField, halive, hup, Bool.not_true, Bool.or_self, Bool.false_eq_true, if_false]

/-- A channel reset on an operating device, by what JTAG selects. -/
theorem exec_channelReset (halive : s.alive = true) (hnone : s.noneStarted = true) (c : Nat) (b : BringUp) : exec (.channelReset c b) s =
    match s.jtag.stack with
    | some k => if k / 8 = c then .next (s.modChan c fun h => { h with inReset := true }) else .next (s.resetChan c b).takePending
    | none => .next (s.resetChan c b).takePending := by
  change execChannelReset c b s = _
  rw [execChannelReset, halive, hnone] <;> rfl

theorem exec_channelReset_locked (halive : s.alive = true) (hnone : s.noneStarted = false) (c : Nat) (b : BringUp) :
    exec (.channelReset c b) s = .next (s.lockedWrite (pgCMGR c)) := by
  change execChannelReset c b s = _
  rw [execChannelReset, if_neg (by simp [halive]), if_pos (by simp [hnone])]

end

end Sys2Proof.Machine

open Sys2Proof Sys2Proof.Machine

/-- Settles O39: each command by its guard; a fence set stands through the records, the change of mode and Sideline that follow it, and a DMA channel
stays disabled while its transfer is stopped or moved. -/
theorem faultsAndFencesStopEngines : Obligations.FaultsAndFencesStopEngines := by
  refine ⟨fun s => ⟨?redone, ?lostwork, ?idle, ?detector, ?dark, ?manager⟩, fun s halive => ⟨?squad, ?fenced, ?dma, ?port, ?watch⟩⟩
  case redone =>
    intro e h n f hs hw hr
    rw [exec_detectorFault_work hs hw, if_pos hr]
  case lostwork =>
    intro e h n f hs hw hr
    rw [exec_detectorFault_work hs hw, hr]
    rfl
  case idle => exact fun halive hs e h hw => exec_detectorFault_idle halive hs hw
  case detector => exact fun halive e => ⟨exec_detectorFault_none halive e, guard_of_true halive _ _⟩
  case dark => exact fun hdark e => guard_of_false hdark _ _
  case manager =>
    intro halive c hup
    refine ⟨fun hlong => ?_, fun t ht hshort => ?_⟩
    · rw [exec_cmgrWatchdog halive hup]
      cases hm : (s.chan c).wdMiss with
      | none => rfl
      | some t =>
        dsimp only
        rw [if_neg (by have := hlong t hm; simpa using this)]
    · rw [exec_cmgrWatchdog halive hup, ht]
      dsimp only
      rw [if_pos (decide_eq_true hshort)]
  case squad =>
    intro sq hup hopen
    obtain ⟨hsquad, hmram⟩ := State.fence_stands hopen 6
    exact ⟨s.fence sq 6, guard_of_true (by rw [halive, hup]; rfl) _ _, hsquad, hmram⟩
  case fenced =>
    intro sq hup hfenced
    refine (guard_of_true (by rw [halive, hup]; rfl) _ _).trans ?_
    rw [State.fence, if_pos hfenced]
  case dma => exact fun c d hup => ⟨guard_of_true (by rw [halive, hup]; rfl) _ _, s.dmaDisable_off c d⟩
  case port =>
    intro n hup
    refine ⟨_, guard_of_true (by rw [halive, hup]; rfl) _ _, ?_, ?_⟩
    · rw [State.link_modLink_self]
    · rw [State.link_modLink_self]
      exact Bool.and_false _
  case watch => exact fun w v hlow hhigh => guard_of_true (by rw [halive, decide_eq_true ⟨hlow, hhigh⟩]; rfl) _ _

/-- Settles O40: each command's two guards, and what the entry it clears reads after that. -/
theorem fencesAreClearedWhenNothingRuns : Obligations.FencesAreClearedWhenNothingRuns := by
  intro s halive
  refine ⟨fun hnone => ⟨?squad, ?dma, ?port, ?field, ?free, ?elsewhere, ?selected⟩, fun hsome => ⟨?locked, ?lockedreset⟩⟩
  case squad =>
    intro sq hup
    refine ⟨_, (exec_fenceClear_squad halive hup).trans (by rw [hnone]; rfl), tfind_tdel_self, fun k hk => tfind_tdel_ne hk, by simp⟩
  case dma =>
    intro c d hup
    exact ⟨_, exec_fenceClear_dma halive hup hnone, by rw [State.dma_modDma], by simp⟩
  case port =>
    intro n hup
    exact ⟨_, exec_fenceClear_port halive hup hnone, by rw [State.link_modLink_self], by simp⟩
  case field =>
    intro sq hup
    refine ⟨_, (exec_arrClearField halive hup).trans (by rw [hnone]; rfl), ?_, by simp⟩
    exact List.mem_dedup.mpr (List.mem_append_right _ (List.mem_singleton.mpr rfl))
  case free =>
    intro c b hstack
    rw [exec_channelReset halive hnone, hstack]
  case elsewhere =>
    intro c b k hstack hne
    rw [exec_channelReset halive hnone, hstack]
    exact if_neg hne
  case selected =>
    intro c b k hstack heq
    rw [exec_channelReset halive hnone, hstack]
    exact if_pos heq
  case locked =>
    intro sq hup
    refine ⟨(exec_fenceClear_squad halive hup).trans ?_, (exec_arrClearField halive hup).trans ?_⟩ <;> rw [hsome] <;> rfl
  case lockedreset => exact fun c b => exec_channelReset_locked halive hsome c b

/-- Settles O41: an operating device that enters Sideline loses both contexts and sets ALERT bit 0; each command by its guard. -/
theorem sidelineStopsBothContexts : Obligations.SidelineStopsBothContexts := by
  intro s hup
  have halive := State.alive_of_up hup
  refine ⟨?entry, rfl, ?pin, ?held, ?pending, ?short, ?watch, ?wrong⟩
  case entry =>
    intro trigger c
    obtain ⟨hctx0, hctx1⟩ := State.sideline_lost hup trigger c
    have hkeep := s.sideline_keeps trigger c
    exact ⟨_, rfl, State.sideline_mode halive trigger c, hctx0, hctx1, State.sideline_alert hup trigger c, hkeep .hbm (by decide), hkeep .store (by decide),
      by rw [mram_of_only hkeep (by decide)]⟩
  case pin =>
    intro ns hns hreset
    refine (guard_of_true (decide_eq_true hns) _ _).trans ?_
    rw [halive, hreset]
    rfl
  case held =>
    intro ns hns hreset
    refine ⟨_, guard_of_true (decide_eq_true hns) _ _, ?_, ?_⟩ <;> rw [halive, hreset] <;> rfl
  case pending =>
    intro v hv hreset
    rw [State.takePending, hv]
    dsimp only
    rw [hreset, if_neg Bool.false_ne_true]
    exact State.sideline_mode (s := s.setDev { s.dev with sidelinePending := none }) halive _ _
  case short =>
    intro ns hns
    exact guard_of_false (decide_eq_false (Nat.not_le.mpr hns)) _ _
  case watch => exact guard_of_true (by rw [halive]; rfl) _ _
  case wrong =>
    intro v hv
    exact guard_of_false (by rw [halive, beq_false_of_ne hv]; rfl) _ _
end


section
/-! PROOFS. Failures in a channel's network: router holes, edge routers, ring links and seam lanes (R200, R201, R207, R208). -/

namespace Sys2Proof.Machine

/-! ## What leaves the packets on their way and the seams' lanes -/

/-- The same packets are on their way, and the same seam lanes are out of service. -/
structure SameTraffic (s t : State) : Prop where
  transit : t.net.transit = s.net.transit
  seamOut : t.net.seamOut = s.net.seamOut

namespace SameTraffic
variable {s t u : State}

theorem refl : SameTraffic s s := ⟨rfl, rfl⟩

theorem trans (h : SameTraffic s t) (h' : SameTraffic t u) : SameTraffic s u := ⟨h'.transit.trans h.transit, h'.seamOut.trans h.seamOut⟩

theorem of_net (h : t.net = s.net) : SameTraffic s t := ⟨by rw [h], by rw [h]⟩

theorem of_only {fs : List Part} (h : Only fs s t) (hp : Part.net ∉ fs) : SameTraffic s t := of_net (h .net hp)

theorem ite {p : Prop} [Decidable p] (h : SameTraffic s t) (h' : SameTraffic s u) : SameTraffic s (if p then t else u) := by
  split
  · exact h
  · exact h'

theorem foldl {α : Type} {f : State → α → State} {l : List α} (h : SameTraffic s t) (hf : ∀ u x, SameTraffic u (f u x)) : SameTraffic s (l.foldl f t) :=
  List.foldlRecOn (motive := fun u => SameTraffic s u) l f h fun u hu x _ => hu.trans (hf u x)

theorem setNet {v : Net} (h : v.transit = s.net.transit) (h' : v.seamOut = s.net.seamOut) : SameTraffic s (s.setNet v) := ⟨h, h'⟩

theorem toNet (p : Packet) : SameTraffic s (s.toNet p) := ⟨rfl, rfl⟩

theorem toMembers (n tag epoch off : Nat) (ty : PktType) (body : List Byte) : SameTraffic s (s.toMembers n tag epoch off ty body) :=
  foldl refl fun _ _ => ite refl (toNet _)

/-! ### Collectives -/

theorem abortTag (n tag epoch port : Nat) : SameTraffic s (s.abortTag n tag epoch port) := by
  unfold State.abortTag
  refine trans (t := s.setNet { s.net with nodes := s.net.nodes.filter fun x => !(x.ctx == n && x.tag == tag) }) ⟨rfl, rfl⟩ ?_
  exact of_only (fs := [.out, .ctx0, .ctx1, .ledger, .host, .watch]) (by simp) (by decide)

theorem collFault (n tag : Nat) (g : Tag) (f : Flight) (e : Fail) (write : Bool) : SameTraffic s (s.collFault n tag g f e write) := by
  refine (abortTag n tag (g.epoch + 1) 0xFF).trans (of_only (fs := [.out, .ctx0, .ctx1, .ledger, .host, .watch]) ?_ (by decide))
  unfold State.collFault
  split <;> simp

theorem rootResult (n tag : Nat) (g : Tag) (f : Flight) (k : CollKind) (off : Nat) (data : List Byte) : SameTraffic s (s.rootResult n tag g f k off data) := by
  have hshared : ∀ k', SameTraffic s
      (let t := s.toMembers n tag g.epoch off (collType k') data
       t.setNet (t.net.setNode { t.net.nodeAt n tag resultNode (collOp k') with out := [(off, data)] })) := fun k' =>
    (toMembers n tag g.epoch off (collType k') data).trans ⟨rfl, rfl⟩
  unfold State.rootResult
  split
  · dsimp only
    split
    · split
      · split
        · exact collFault ..
        · exact of_only (fs := [.hbm, .store, .ctx0, .ctx1]) (by simp) (by decide)
      · exact refl
    · exact refl
  · exact hshared k

theorem sendUp (n tag : Nat) (g : Tag) (k : CollKind) (a off : Nat) (data : List Byte) : SameTraffic s (s.sendUp n tag g k a off data) :=
  ite (toNet _) ⟨rfl, rfl⟩

theorem feedNode (n tag fuel l : Nat) (right : Bool) (off : Nat) (data : List Byte) : SameTraffic s (s.feedNode n tag fuel l right off data) := by
  induction fuel generalizing s l right off data with
  | zero => exact refl
  | succ fuel ih =>
    unfold State.feedNode
    split
    · exact refl
    · dsimp only
      refine ite refl (ite (ite (rootResult ..) (sendUp ..)) (ite (ih ..) ?_))
      split
      · exact ⟨rfl, rfl⟩
      · refine .trans ?_ (ih ..)
        exact ⟨rfl, rfl⟩

theorem memberResult (n tag seq : Nat) (k : CollKind) (data : List Byte) : SameTraffic s (s.memberResult n tag seq k data) :=
  of_only ((State.memberResult_only (ps := [.out, .ctx0, .ctx1, .squads, .chans, .ledger, .host, .watch]) (by decide) n tag seq k data).mpr .refl) (by decide)

theorem reductionIn (p : Packet) : SameTraffic s (s.reductionIn p) := by
  unfold State.reductionIn
  dsimp only
  split
  · exact refl
  · refine ite refl ?_
    split
    · split
      · split
        · refine ite refl ?_
          split
          · exact collFault ..
          · exact of_only (fs := [.hbm, .store, .ctx0, .ctx1]) (by simp) (by decide)
        · exact refl
      · exact refl
    · exact ite (of_only (fs := [.ctx0, .ctx1]) (by simp) (by decide)) (ite (memberResult ..) (feedNode ..))

/-! ### Packets that leave the network -/

theorem deliver (p : Packet) : SameTraffic s (s.deliver p) := by
  unfold State.deliver
  refine ite (ite (toNet _) refl) ?_
  split
  · exact reductionIn p
  · exact reductionIn p
  · exact ite (of_only ((State.deliverShort_only (ps := [.out, .ctx0, .ctx1, .squads, .chans, .ledger, .host, .watch]) (by decide) _).mpr .refl) (by decide)) refl
  · exact toNet _
  · exact of_only (fs := [.hbm, .store, .ctx0, .ctx1, .chans]) (by simp) (by decide)
  all_goals exact of_net rfl

theorem arrive (x : Transit) : SameTraffic s (s.arrive x) := by
  unfold State.arrive
  split
  · exact of_net rfl
  · exact ite (of_net rfl) (deliver _)

end SameTraffic

/-! ## Packets that take their way anew (R201, R207, R208) -/

section
variable {s : State} {x y : Transit} {c d e j lane sq : Nat}

/-- A packet that takes its way joins those on their way where it stands, or is gone; the others stay. -/
theorem State.route_net (s : State) (x : Transit) : (s.route x).net.seamOut = s.net.seamOut ∧
    ((s.route x).net.transit = s.net.transit ∨ ∃ r set, (s.route x).net.transit = s.net.transit ++ [{ x with route := r, set := set }]) := by
  unfold State.route
  split
  · unfold State.stand
    split
    · exact ⟨(SameTraffic.arrive _).seamOut, .inl (SameTraffic.arrive _).transit⟩
    · exact ⟨rfl, .inr ⟨_, _, rfl⟩⟩
  · exact ⟨rfl, .inl rfl⟩

theorem State.mem_transit_route (s : State) (x y : Transit) (h : y ∈ (s.route x).net.transit) : y ∈ s.net.transit ∨ y.chan = x.chan ∧ y.router = x.router := by
  obtain ⟨-, heq | ⟨r, set, heq⟩⟩ := s.route_net x
  · exact .inl (heq ▸ h)
  · rw [heq, List.mem_append, List.mem_singleton] at h
    exact h.imp_right fun hy => by rw [hy]; exact ⟨rfl, rfl⟩

theorem State.transit_route_of_mem (s : State) (x : Transit) (h : y ∈ s.net.transit) : y ∈ (s.route x).net.transit := by
  obtain ⟨-, heq | ⟨r, set, heq⟩⟩ := s.route_net x
  · rw [heq]
    exact h
  · rw [heq]
    exact List.mem_append_left _ h

/-- After packets take their ways: those that were there, and those at the places that packets of the list had. -/
theorem State.mem_transit_foldl_route (l : List Transit) (s : State) (y : Transit) (h : y ∈ (l.foldl State.route s).net.transit) :
    y ∈ s.net.transit ∨ ∃ x ∈ l, y.chan = x.chan ∧ y.router = x.router := by
  induction l generalizing s with
  | nil => exact .inl h
  | cons a l ih =>
    obtain hthere | ⟨x, hx, hplace⟩ := ih (s.route a) h
    · exact (s.mem_transit_route a y hthere).imp_right fun hplace => ⟨a, List.mem_cons_self, hplace⟩
    · exact .inr ⟨x, List.mem_cons_of_mem _ hx, hplace⟩

theorem State.transit_foldl_route_of_mem (l : List Transit) (s : State) (h : y ∈ s.net.transit) : y ∈ (l.foldl State.route s).net.transit :=
  List.foldlRecOn (motive := fun u => y ∈ u.net.transit) l State.route h fun u hu x _ => u.transit_route_of_mem x hu

theorem State.seamOut_reroute (s : State) (c : Nat) : (s.reroute c).net.seamOut = s.net.seamOut :=
  List.foldlRecOn (motive := fun u => u.net.seamOut = s.net.seamOut) (s.net.transit.filter fun x => x.chan == c) State.route
    (b := s.setNet { s.net with transit := s.net.transit.filter fun x => x.chan != c }) rfl fun u hu x _ => (u.route_net x).1.trans hu

theorem State.mem_transit_reroute (h : y ∈ (s.reroute c).net.transit) (hy : y.chan = c) : ∃ x ∈ s.net.transit, x.chan = c ∧ y.router = x.router := by
  obtain hthere | ⟨x, hx, -, hrouter⟩ := State.mem_transit_foldl_route _ _ y h
  · have hother := (List.mem_filter.mp hthere).2
    simp [hy] at hother
  · obtain ⟨hx, hchan⟩ := List.mem_filter.mp hx
    exact ⟨x, hx, beq_iff_eq.mp hchan, hrouter⟩

theorem State.transit_reroute_of_mem (h : y ∈ s.net.transit) (hy : y.chan ≠ c) : y ∈ (s.reroute c).net.transit :=
  State.transit_foldl_route_of_mem _ _ (List.mem_filter.mpr ⟨h, by simp [hy]⟩)

/-- A seam lane is out of service. -/
def LaneListed (k : Nat × Nat) (s : State) : Prop := k ∈ s.net.seamOut

namespace LaneListed
variable {k : Nat × Nat}

theorem same {t : State} (h : LaneListed k s) (ht : SameTraffic s t) : LaneListed k t := by
  rw [LaneListed, ht.seamOut]
  exact h

theorem log (h : LaneListed k s) (ch code sev cls st si : Nat) (p : List Byte) : LaneListed k (s.log ch code sev cls st si p) :=
  h.same (.of_only ((State.log_only (ps := [.out, .ledger, .host, .watch]) (by decide) ch code sev cls st si p).mpr .refl) (by decide))

theorem reroute (h : LaneListed k s) (l : List Nat) : LaneListed k (l.foldl State.reroute s) :=
  List.foldlRecOn (motive := fun u => LaneListed k u) l State.reroute h fun u hu c _ => by
    rw [LaneListed, State.seamOut_reroute]
    exact hu

theorem sideline (h : LaneListed k s) (trigger ch : Nat) : LaneListed k (s.sideline trigger ch) :=
  h.same (.of_only (s.sideline_keeps trigger ch) (by decide))

theorem ite {p : Prop} [Decidable p] {t : State} (h : LaneListed k s) (h' : LaneListed k t) : LaneListed k (if p then s else t) := by
  split
  · exact h
  · exact h'

theorem add {v : Net} (h : k ∈ v.seamOut) : LaneListed k (s.setNet v) := h

end LaneListed

/-- A lane that goes out of service is listed, whatever its traffic does. -/
theorem State.laneOut_listed (s : State) (c j lane : Nat) : LaneListed (seamId c j, lane) (s.laneOut c j lane) := by
  unfold State.laneOut
  dsimp only
  refine .ite (.sideline (.reroute (.log (.add ?_) ..) _) ..) (.reroute (.log (.add ?_) ..) _) <;>
  exact List.mem_append_right _ (List.mem_singleton.mpr rfl)

/-! ## The commands -/

theorem exec_routerHole (halive : s.alive = true) (hup : s.chanUp (sq / 16) = true) (hnew : sq ∉ s.net.holes) : exec (.routerHole sq) s =
    let t := ((s.setNet { s.net with holes := s.net.holes ++ [sq] }).log (sq / 16) 0x3001 2 3 0x06 sq (leBytes 2 sq)).fence sq 3
    if 2 ≤ (s.net.holesOf (sq / 16)).length ∨ (s.net.holesOf (sq / 16)).any (adjacent (sq % 16)) then .next (t.channelDown (sq / 16))
    else .next (t.modChan (sq / 16) fun h => { h with injectStop := true }) := by
  change execRouterHole sq s = _
  rw [execRouterHole, if_neg (by simp [halive, hup, hnew])]

theorem exec_edgeRouterFailure (halive : s.alive = true) (hup : s.chanUp c = true) (hnew : c * 16 + e ∉ s.net.edgeOut) : exec (.edgeRouterFailure c e) s =
    .next (((List.range 32).foldl (fun (u : State) i => u.losePc c (32 * e + i)) (s.setNet { s.net with edgeOut := s.net.edgeOut ++ [c * 16 + e] })).channelDown c) := by
  change execEdgeRouterFailure c e s = _
  rw [execEdgeRouterFailure, if_neg (by simp [halive, hup, hnew])]

theorem exec_ringLinkFailure (halive : s.alive = true) (hup : s.chanUp c = true) (hnew : (c, e) ∉ s.net.ringOut) : exec (.ringLinkFailure c e) s =
    let t := s.setNet { s.net with ringOut := s.net.ringOut ++ [(c, e)] }
    .next (if 2 ≤ ((s.net.ringOut.filter fun x => x.1 == c) ++ [(c, e)]).length then t.channelDown c else t.reroute c) := by
  change execRingLinkFailure c e s = _
  have hfilter : (s.net.ringOut ++ [(c, e)]).filter (fun x => x.1 == c) = (s.net.ringOut.filter fun x => x.1 == c) ++ [(c, e)] := by simp
  rw [execRingLinkFailure, if_neg (by simp [halive, hup, hnew]), ← hfilter]
  rfl

/-- A seam that can carry flits takes one only where it is that of the packet that waits. -/
theorem exec_seamFlit {ok : Bool} {p : Option Packet} (halive : s.alive = true) (hup : s.chanUp c = true) (hpeer : s.chanUp (seamPeer c j) = true)
    (hstop : (s.chan c).injectStop = false) (hlane : (seamId c j, lane) ∉ s.net.seamOut) : exec (.seamFlit c j lane ok p) s =
    if (s.net.seamHead c j lane).map (·.pkt) ≠ p then .next s
    else if ok then
      let t := s.setNet { s.net with seamRetry := tset 0 s.net.seamRetry (4 * seamId c j + lane) 0 }
      match s.net.seamHead c j lane with
      | none => .next t
      | some x => .next ((t.setNet { t.net with transit := t.net.transit.erase x }).route { x with chan := c, router := 16 + seamRouter j lane, lane := lane })
    else
      let n := tget 0 s.net.seamRetry (4 * seamId c j + lane) + 1
      let t := s.setNet { s.net with seamRetry := tset 0 s.net.seamRetry (4 * seamId c j + lane) n }
      .next (if Config.seamRetries < n then t.laneOut c j lane else t) := by
  change execSeamFlit c j lane ok p s = _
  rw [execSeamFlit, if_neg (by simp [halive, hup, hpeer, hstop, hlane])] <;> rfl

end

end Sys2Proof.Machine

open Sys2Proof Sys2Proof.Machine

/-- Settles O44: each failure by its command's guards; a packet that takes its way anew stands where it stood, so that none is left at a router that has
failed, and a lane that is out stays listed while its traffic moves. -/
theorem networkFailuresAreContained : Obligations.NetworkFailuresAreContained := by
  intro s c halive hup
  refine ⟨?hole, ?detour, ?edge, ?ring, ?seam⟩
  case hole =>
    rintro sq rfl hnew
    refine ⟨fun hfew hapart => ?_, fun hmany => ?_⟩
    · rw [exec_routerHole halive hup hnew]
      exact if_neg (by simp only [hapart, Bool.false_eq_true, or_false]; omega)
    · rw [exec_routerHole halive hup hnew]
      exact if_pos hmany
  case detour =>
    intro hstop
    refine ⟨_, guard_of_true hstop _ _, by rw [State.chan_modChan_self], fun x hx hchan hbad => ?_, fun x hx hchan => ?_⟩
    · obtain ⟨y, hy, hyc, hrouter⟩ := State.mem_transit_reroute hx hchan
      obtain ⟨hy, hkept⟩ := List.mem_filter.mp hy
      rw [hrouter] at hbad
      simp [hy, hyc, hbad] at hkept
    · refine State.transit_reroute_of_mem (List.mem_filter.mpr ⟨hx, ?_⟩) hchan
      simp [hchan]
  case edge => exact fun e _ hnew => exec_edgeRouterFailure halive hup hnew
  case ring =>
    intro e hnew
    refine ⟨fun hnone => ?_, fun hsome => ?_⟩
    · rw [exec_ringLinkFailure halive hup hnew, hnone]
      rfl
    · rw [exec_ringLinkFailure halive hup hnew]
      refine congrArg _ (if_pos ?_)
      rw [List.length_append, List.length_singleton]
      exact Nat.succ_le_succ (List.length_pos_of_ne_nil hsome)
  case seam =>
    intro j lane hpeer hstop hlane
    refine ⟨fun hnone => ?_, fun x hx => ?_, fun ok p hp => ?_, fun p hp hfew => ?_, fun p hp hmany => ?_⟩
    · rw [exec_seamFlit halive hup hpeer hstop hlane, hnone] <;> rfl
    · rw [exec_seamFlit halive hup hpeer hstop hlane, hx, if_neg (by simp)] <;> rfl
    · rw [exec_seamFlit halive hup hpeer hstop hlane, if_pos hp]
    · rw [exec_seamFlit halive hup hpeer hstop hlane, if_neg (not_not_intro hp)]
      exact congrArg Host.Outcome.next (if_neg (Nat.not_lt.mpr hfew))
    · rw [exec_seamFlit halive hup hpeer hstop hlane, if_neg (not_not_intro hp)]
      exact ⟨_, congrArg Host.Outcome.next (if_pos (Nat.lt_succ_of_le hmany)), State.laneOut_listed _ c j lane⟩
end


section
/-! PROOFS. Combine nodes, tags, aborts and restarts of collectives; multicast (R202 to R205, R226 to R228). -/

namespace Sys2Proof.Machine

/-! ## Tables -/

theorem tins_tins {α : Type} (k : Nat) (v w : α) (l : Tbl α) : tins k w (tins k v l) = tins k w l := by
  induction l with
  | nil => simp [tins]
  | cons e l ih =>
    obtain ⟨i, x⟩ := e
    by_cases hlt : k < i
    · simp [tins, hlt]
    · by_cases heq : i = k
      · simp [tins, heq]
      · simp [tins, hlt, heq, ih]

theorem tset_tset {α : Type} [DecidableEq α] {z v w : α} (hv : v ≠ z) (hw : w ≠ z) (k : Nat) (l : Tbl α) : tset z (tset z l k v) k w = tset z l k w := by
  rw [tset, tset, tset, if_neg hw, if_neg hv, if_neg hw, tins_tins]

/-! ## What the network's state does not touch -/

section
variable {s : State} {v : Net} {g n : Nat}

theorem State.walkGo_setNet (va k space off : Nat) : (s.setNet v).walkGo va k space off = s.walkGo va k space off := by
  induction k generalizing space off with
  | zero => rfl
  | succ k ih =>
    rw [State.walkGo, State.walkGo, ih]
    rfl

theorem State.place_setNet (va : Nat) (write : Bool) (home : Option Nat) : (s.setNet v).place n va write home = s.place n va write home := by
  have hwalk : (s.setNet v).walk n va = s.walk n va := by
    rw [State.walk, State.walkGo_setNet]
    rfl
  rw [State.place, State.xlate, hwalk]
  rfl

theorem State.vread_setNet (home : Option Nat) (va len : Nat) : (s.setNet v).vread n home va len = s.vread n home va len := by
  induction len generalizing va with
  | zero => rfl
  | succ len ih =>
    rw [State.vread, State.place_setNet, ih]
    rfl

/-- One burst under the regulator. -/
def State.serveBurst (s : State) (part : Nat) (b : Nat × Nat) : Option State :=
  if s.pcHeld (s.pcOf b.1 b.2) then none else s.spendBurst (s.pcOf b.1 b.2 / 512) part

theorem State.regulate_cons (s : State) (part : Nat) (b : Nat × Nat) (bursts : List (Nat × Nat)) :
    s.regulate part (b :: bursts) = (s.serveBurst part b).bind (·.regulate part bursts) := rfl

theorem State.serveBurst_setNet (part : Nat) (b : Nat × Nat) : (s.setNet v).serveBurst part b = (s.serveBurst part b).map (·.setNet v) := by
  rw [State.serveBurst, State.serveBurst, State.spendBurst, State.spendBurst, apply_ite (Option.map _), apply_ite (Option.map _), apply_ite (Option.map _)]
  rfl

theorem State.regulate_setNet (part : Nat) (bursts : List (Nat × Nat)) : (s.setNet v).regulate part bursts = (s.regulate part bursts).map (·.setNet v) := by
  induction bursts generalizing s with
  | nil => rfl
  | cons b bursts ih =>
    rw [State.regulate_cons, State.regulate_cons, State.serveBurst_setNet]
    cases s.serveBurst part b with
    | none => rfl
    | some u => exact ih

theorem State.regulate_net {u : State} {part : Nat} {bursts : List (Nat × Nat)} (h : s.regulate part bursts = some u) : u.net = s.net :=
  (State.regulate_only (ps := [.chans]) (by decide) part bursts u h).mpr (.refl (s := s)) .net (by decide)

/-! ## Groups of multicast receivers (R204) -/

theorem State.group_setGroup (s : State) (g : Nat) (x : McGroup) : (s.setGroup g x).group g = x := tget_tset_self ..

theorem McGroup.ne_idle {x : McGroup} (h : x.recv ≠ []) : x ≠ McGroup.idle := fun he => h (by rw [he]; rfl)

/-- The group in progress stays while a receiver has a part of its data still to come. -/
theorem State.openGroup_of_credit {r : McRecv} (hr : r ∈ (s.group g).recv) (hc : 0 < s.credit g r) : s.openGroup g = s := by
  refine if_neg fun hall => ?_
  have hserved := List.all_eq_true.mp hall r hr
  rw [State.served, Bool.and_eq_true, beq_iff_eq] at hserved
  omega

/-- Without a receiver that lags the group is written back as it is. -/
theorem State.detachLate_none (h : ∀ r, r ∈ (s.group g).recv → s.lag g r ≤ s.lagLimit) : s.detachLate g = s.setGroup g (s.group g) := by
  have hlate : (s.group g).recv.filter (fun r => !r.detached && decide (s.lagLimit < s.lag g r)) = [] := by
    rw [List.filter_eq_nil_iff]
    intro r hr
    simp [h r hr]
  unfold State.detachLate
  dsimp only
  rw [hlate, List.foldl_nil]
  simp

/-- A group written back and then written takes the last. -/
theorem State.setGroup_regulated {u : State} {part : Nat} {bursts : List (Nat × Nat)} {x y : McGroup} (h : s.regulate part bursts = some u)
    (hx : x ≠ McGroup.idle) (hy : y ≠ McGroup.idle) :
    ∃ u', (s.setGroup g x).regulate part bursts = some u' ∧ u'.setGroup g y = u.setGroup g y := by
  refine ⟨u.setNet { s.net with groups := tset McGroup.idle s.net.groups g x }, ?_, ?_⟩
  · rw [State.setGroup, State.regulate_setNet, h]
    rfl
  · have hnet := State.regulate_net h
    change u.setNet { s.net with groups := tset McGroup.idle (tset McGroup.idle s.net.groups g x) g y } =
      u.setNet { u.net with groups := tset McGroup.idle u.net.groups g y }
    rw [tset_tset hx hy, hnet]

/-! ### Copies -/

theorem State.takeCopy_detached {r : McRecv} (h : r.detached = true) (l : List Byte) : s.takeCopy g r l = s.setGroup g { (s.group g) with
    recv := (s.group g).recv.map fun y => if y.squad = r.squad then { r with spilled := r.spilled ++ l } else y } := if_pos h

theorem State.takeCopy_attached {r : McRecv} (h : r.detached = false) (l : List Byte) : s.takeCopy g r l =
    let t := s.landAll r.squad 33 r.at_ l
    t.setGroup g { (t.group g) with recv := (t.group g).recv.map fun y => if y.squad = r.squad then { r with at_ := r.at_ + l.length } else y } :=
  if_neg (by rw [h]; exact Bool.false_ne_true)

theorem State.landAll_net (sq fuel a : Nat) (l : List Byte) : (s.landAll sq fuel a l).net = s.net :=
  (State.landAll_only (ps := [.hbm, .store, .squads]) (by decide) sq fuel a l).mpr .refl .net (by decide)

theorem State.group_landAll (sq fuel a : Nat) (l : List Byte) : (s.landAll sq fuel a l).group g = s.group g := by
  rw [State.group, State.landAll_net, State.group]

theorem State.landAll_within {sq a fuel : Nat} {l : List Byte} {x : StreamRec} (hl : l ≠ []) (hx : (s.squad sq).delivery = some x)
    (hlen : l.length < x.addr.toNat + x.len.toNat - a) : s.landAll sq (fuel + 1) a l = s.land sq x (a - x.addr.toNat) l := by
  cases l with
  | nil => exact absurd rfl hl
  | cons b l =>
    unfold State.landAll
    rw [hx]
    dsimp only
    rw [if_pos hlen, List.take_of_length_le (Nat.le_of_lt hlen)]

/-- One receiver's entry of a group is replaced. -/
def putRecv (rs : List McRecv) (r : McRecv) : List McRecv := rs.map fun y => if y.squad = r.squad then r else y

theorem putRecv_of_ne {rs : List McRecv} {r : McRecv} (h : ∀ y, y ∈ rs → y.squad ≠ r.squad) : putRecv rs r = rs :=
  (List.map_congr_left fun y hy => if_neg (h y hy)).trans (List.map_id _)

theorem putRecv_append_cons (pre post : List McRecv) (y r : McRecv) : putRecv (pre ++ y :: post) r =
    putRecv pre r ++ (if y.squad = r.squad then r else y) :: putRecv post r := by
  rw [putRecv, List.map_append, List.map_cons, putRecv, putRecv]

/-- A receiver that has taken bytes into its buffers. -/
def McRecv.took (len : Nat) (r : McRecv) : McRecv := { r with at_ := r.at_ + len }

/-- Each receiver's entry is replaced once, where no two are of one squad. -/
theorem putRecv_all (len : Nat) (pre post : List McRecv) (h : ((pre ++ post).map (·.squad)).Nodup) :
    post.foldl (fun rs r => putRecv rs (r.took len)) (pre.map (McRecv.took len) ++ post) = (pre ++ post).map (McRecv.took len) := by
  induction post generalizing pre with
  | nil => simp
  | cons r post ih =>
    have hsplit : pre ++ r :: post = (pre ++ [r]) ++ post := by simp
    have hput : putRecv (pre.map (McRecv.took len) ++ r :: post) (r.took len) = (pre ++ [r]).map (McRecv.took len) ++ post := by
      rw [List.map_append, List.map_cons, List.nodup_append, List.nodup_cons] at h
      obtain ⟨-, ⟨hpost, -⟩, hdisj⟩ := h
      have hbefore : ∀ y, y ∈ pre.map (McRecv.took len) → y.squad ≠ (r.took len).squad := by
        intro y hy
        obtain ⟨z, hz, rfl⟩ := List.mem_map.mp hy
        exact hdisj _ (List.mem_map_of_mem hz) _ List.mem_cons_self
      have hafter : ∀ y, y ∈ post → y.squad ≠ (r.took len).squad := fun y hy heq => hpost (List.mem_map.mpr ⟨y, hy, heq⟩)
      have hself : r.squad = (r.took len).squad := rfl
      rw [putRecv_append_cons, putRecv_of_ne hbefore, putRecv_of_ne hafter, if_pos hself]
      simp
    rw [List.foldl_cons, hput, ih _ (hsplit ▸ h), hsplit]

/-- A flit's copies, in turn. -/
def State.sendCopies (s : State) (g len : Nat) (l : List Byte) (rs : List McRecv) : State :=
  rs.foldl (fun (w : State) r => (w.takeCopy g r l).emit (.multicast g r.squad len)) s

theorem State.group_sendCopies (len : Nat) (l : List Byte) (rs : List McRecv) (h : ∀ r, r ∈ rs → r.detached = false) :
    ((s.sendCopies g len l rs).group g).src = (s.group g).src ∧
      ((s.sendCopies g len l rs).group g).recv = rs.foldl (fun ys r => putRecv ys (r.took l.length)) (s.group g).recv := by
  induction rs generalizing s with
  | nil => exact ⟨rfl, rfl⟩
  | cons r rs ih =>
    have hone : ((s.takeCopy g r l).emit (.multicast g r.squad len)).group g =
        { (s.group g) with recv := putRecv (s.group g).recv (r.took l.length) } := by
      rw [State.takeCopy_attached (h r List.mem_cons_self)]
      dsimp only
      refine (State.group_setGroup ..).trans ?_
      rw [State.group_landAll]
      rfl
    obtain ⟨hsrc, hrecv⟩ := ih (s := (s.takeCopy g r l).emit (.multicast g r.squad len)) fun x hx => h x (List.mem_cons_of_mem _ hx)
    rw [hone] at hsrc hrecv
    exact ⟨hsrc, hrecv⟩

/-! ### The commands -/

theorem exec_multicastFlitSend {len : Nat} {l : List Byte} {u : State} {r : McRecv} (hwork : s.working (groupCtx g) = true)
    (hr : r ∈ (s.group g).recv) (hc : 0 < s.credit g r)
    (hall : ∀ r, r ∈ (s.group g).recv → r.detached = false ∧ len ≤ s.credit g r ∧ s.lag g r ≤ s.lagLimit)
    (hread : s.vread (groupCtx g) none (s.group g).src len = some l) (hreg : s.regulate (s.groupPart g) (s.sourceBursts g len) = some u) :
    exec (.multicastFlitSend g len) s = .next ((u.setGroup g { (s.group g) with src := (s.group g).src + len }).sendCopies g len l (s.group g).recv) := by
  have hne : (s.group g).recv ≠ [] := List.ne_nil_of_mem hr
  have hgroup : (s.setGroup g (s.group g)).group g = s.group g := State.group_setGroup ..
  have hfits : (s.setGroup g (s.group g)).groupFits g len = true := by
    rw [State.groupFits, hgroup, List.all_eq_true]
    intro x hx
    obtain ⟨hatt, hcred, -⟩ := hall x hx
    rw [hatt, if_neg Bool.false_ne_true]
    exact decide_eq_true hcred
  obtain ⟨u', hu', heq⟩ := State.setGroup_regulated (g := g) hreg (McGroup.ne_idle hne)
    (McGroup.ne_idle (x := { (s.group g) with src := (s.group g).src + len }) hne)
  have hpart : (s.setGroup g (s.group g)).groupPart g = s.groupPart g := by
    rw [State.groupPart, hgroup]
    rfl
  have hbursts : (s.setGroup g (s.group g)).sourceBursts g len = s.sourceBursts g len := by
    rw [State.sourceBursts, hgroup, State.sourceBursts]
    simp only [State.setGroup, State.place_setNet]
  change execMulticastFlitSend g len s = _
  rw [execMulticastFlitSend, if_neg (by rw [hwork]; exact Bool.false_ne_true), State.openGroup_of_credit hr hc,
    State.detachLate_none fun x hx => (hall x hx).2.2]
  dsimp only
  rw [hgroup, hfits, hpart, hbursts, hu', State.setGroup, State.vread_setNet, hread, if_neg (by simpa using hne)]
  dsimp only
  rw [heq]
  rfl

theorem exec_multicastReattach {sq : Nat} {r : McRecv} (hwork : s.working (groupCtx g) = true) (hrecv : (s.group g).recv = [r]) (hsq : r.squad = sq)
    (hdet : r.detached = true) (hlen : r.spilled.length ≤ s.credit g r) : ∃ t, exec (.multicastReattach g sq) s = .next t ∧
      (t.group g).recv = [{ r with at_ := r.at_ + r.spilled.length, spilled := [], detached := false }] := by
  have hfind : ((s.group g).recv.find? fun r => r.squad == sq && r.detached) = some r := by
    rw [hrecv, List.find?_cons_of_pos (by simp [hsq, hdet])]
  let landed := s.landAll sq 33 r.at_ r.spilled
  let back : McRecv := { r with at_ := r.at_ + r.spilled.length, spilled := [] }
  let shown := landed.setGroup g { (landed.group g) with recv := (landed.group g).recv.map fun z => if z.squad = sq then back else z }
  have hlanded : (landed.group g).recv = [r] := by rw [State.group_landAll, hrecv]
  have hshown : (shown.group g).recv = [back] := by
    rw [State.group_setGroup]
    dsimp only
    rw [hlanded, List.map_singleton, if_pos hsq]
  have hlag : shown.lag g back = 0 := by
    rw [State.lag, hshown, List.filter_cons_of_neg (by simp), List.filter_nil, List.map_nil]
  refine ⟨shown.setGroup g { (shown.group g) with recv := (shown.group g).recv.map fun z => if z.squad = sq then { back with detached := false } else z }, ?_, ?_⟩
  · change execMulticastReattach g sq s = _
    unfold execMulticastReattach
    rw [hfind]
    dsimp only
    rw [List.take_of_length_le hlen, List.drop_length]
    refine (guard_of_true hwork _ _).trans (congrArg Host.Outcome.next (if_pos ?_))
    change (([] : List Byte).isEmpty && decide (shown.lag g back ≤ shown.lagLimit)) = true
    rw [hlag]
    simp
  · rw [State.group_setGroup]
    dsimp only
    rw [hshown, List.map_singleton, if_pos hsq]

end

/-! ## Nodes and tags (R202, R226 to R228) -/

section
variable {s : State} {n tag l off : Nat} {g : Tag} {f : Flight} {k : CollKind} {data : List Byte} {right : Bool}

theorem exec_combineNode_aborted (h : (s.ctx n).tagOf tag = some (g, f, k)) (ha : g.aborted = true) :
    exec (.combineNode n tag l right off data) s = .next s := by
  change Host.Outcome.next (s.feedNode n tag (39 + 1) l right off data) = _
  rw [State.feedNode, h]
  exact congrArg Host.Outcome.next (if_pos ha)

/-- A child's packet at a node of this device is kept, or combined with its sibling's, left with right. -/
theorem exec_combineNode (h : (s.ctx n).tagOf tag = some (g, f, k)) (ha : g.aborted = false)
    (hl : l ≤ topLevel ((s.ctx n).opIndex (collOwner k)) (s.ctx n).members) (hchild : (s.ctx n).opIndex (collOwner k) + 2 ^ (l - 1) < (s.ctx n).members) :
    exec (.combineNode n tag l right off data) s =
      let nd := s.net.nodeAt n tag l (collOp k)
      .next (match (if right then nd.left else nd.right).find? fun e => e.1 == off with
        | none => s.setNet (s.net.setNode (if right then { nd with right := nd.right ++ [(off, data)] } else { nd with left := nd.left ++ [(off, data)] }))
        | some e => (s.setNet (s.net.setNode (if right then { nd with left := nd.left.filter fun x => x.1 != off }
            else { nd with right := nd.right.filter fun x => x.1 != off }))).feedNode n tag 39 (l + 1) false off
              (if right then combineBytes nd.op e.2 data else combineBytes nd.op data e.2)) := by
  change Host.Outcome.next (s.feedNode n tag (39 + 1) l right off data) = _
  rw [State.feedNode, h]
  dsimp only
  rw [if_neg (by rw [ha]; exact Bool.false_ne_true), if_neg (Nat.not_lt.mpr hl), if_neg (by simp; omega)] <;> rfl

/-- The tag's grant. -/
def Ctx.grant (c : Ctx) (tag : Nat) : Ctx := { c with tags := c.tags.map fun x => if x.tag = tag then { x with granted := true } else x }

theorem Ctx.grant_tags (c : Ctx) (tag : Nat) (x : Tag) (hx : x ∈ (c.grant tag).tags) (ht : x.tag = tag) : x.granted = true := by
  obtain ⟨y, -, rfl⟩ := List.mem_map.mp hx
  split
  · rfl
  next hne => exact absurd (by rwa [if_neg hne] at ht) hne

/-- The grant of the tag's own epoch. -/
theorem exec_tagGrant (h : (s.ctx n).tagOf tag = some (g, f, k)) : exec (.tagGrant n tag g.epoch) s =
    let t := s.modCtx n (·.grant tag)
    if k = .allGather then .next (if g.aborted || g.granted then t else t.gatherOut n tag g.epoch f)
    else
      let held := ((t.net.nodes.find? fun x => x.ctx == n && x.tag == tag && x.node == 0).map (·.out)).getD []
      .next (held.foldl (fun t e => t.sendUp n tag { g with granted := true } k ((s.ctx n).opIndex (collOwner k)) e.1 e.2)
        (t.setNet { t.net with nodes := t.net.nodes.filter fun x => !(x.ctx == n && x.tag == tag && x.node == 0) })) := by
  change execTagGrant n tag g.epoch s = _
  unfold execTagGrant
  rw [h]
  dsimp only
  rw [if_neg (Nat.lt_irrefl _), if_neg (Nat.lt_irrefl _)]
  rfl

theorem exec_tagGrant_older {e : Nat} (h : (s.ctx n).tagOf tag = some (g, f, k)) (he : e < g.epoch) : exec (.tagGrant n tag e) s = .next s := by
  change execTagGrant n tag e s = _
  unfold execTagGrant
  rw [h]
  exact if_pos he

theorem exec_tagGrant_later {e : Nat} (h : (s.ctx n).tagOf tag = some (g, f, k)) (he : g.epoch < e) :
    exec (.tagGrant n tag e) s = .next (s.modCtx n (·.keepGrant tag e)) := by
  change execTagGrant n tag e s = _
  unfold execTagGrant
  rw [h]
  exact (if_neg (Nat.lt_asymm he)).trans (if_pos he)

/-- A value of a granted tag leaves for the parent's device, and nothing else changes. -/
theorem State.sendUp_granted {a : Nat} (hg : g.granted = true) :
    (s.sendUp n tag g k a off data).net.nodes = s.net.nodes ∧ ∀ m, (s.sendUp n tag g k a off data).ctx m = s.ctx m := by
  rw [State.sendUp, if_pos hg]
  exact ⟨rfl, fun _ => rfl⟩

theorem State.foldl_sendUp_granted {a : Nat} (hg : g.granted = true) (l : List (Nat × List Byte)) :
    (l.foldl (fun t e => t.sendUp n tag g k a e.1 e.2) s).net.nodes = s.net.nodes ∧
      ∀ m, (l.foldl (fun t e => t.sendUp n tag g k a e.1 e.2) s).ctx m = s.ctx m :=
  List.foldlRecOn (motive := fun u : State => u.net.nodes = s.net.nodes ∧ ∀ m, u.ctx m = s.ctx m) l _ ⟨rfl, fun _ => rfl⟩ fun u hu e _ =>
    ⟨(State.sendUp_granted hg).1.trans hu.1, fun m => ((State.sendUp_granted hg).2 m).trans (hu.2 m)⟩

/-- After the grant of its epoch the tag is granted, and no node holds a value for its parent. -/
theorem exec_tagGrant_done (h : (s.ctx n).tagOf tag = some (g, f, k)) : ∃ t, exec (.tagGrant n tag g.epoch) s = .next t ∧
    (∀ x, x ∈ (t.ctx n).tags → x.tag = tag → x.granted = true) ∧ (k ≠ .allGather → ∀ x, x ∈ t.net.nodes → ¬ (x.ctx = n ∧ x.tag = tag ∧ x.node = 0)) ∧
    (k = .allGather → g.aborted = false → g.granted = false → t = (s.modCtx n (·.grant tag)).gatherOut n tag g.epoch f) := by
  rw [exec_tagGrant h]
  by_cases hk : k = .allGather
  · dsimp only
    rw [if_pos hk]
    have hctx : ∀ u, Only [.net] (s.modCtx n (·.grant tag)) u → (u.ctx n) = (s.ctx n).grant tag := fun u hu => by
      rw [ctx_of_only hu (by decide), State.ctx_modCtx_self]
    refine ⟨_, rfl, fun x hx => ?_, fun hne => absurd hk hne, fun _ ha hg => by rw [ha, hg]; rfl⟩
    rw [hctx] at hx
    · exact Ctx.grant_tags _ _ _ hx
    · split <;> simp
  · dsimp only
    rw [if_neg hk]
    refine ⟨_, rfl, fun x hx => ?_, fun _ x hx => ?_, fun he => absurd he hk⟩
    · rw [(State.foldl_sendUp_granted rfl _).2] at hx
      exact Ctx.grant_tags _ _ _ (show x ∈ ((s.ctx n).grant tag).tags by rw [← State.ctx_modCtx_self s n (·.grant tag)]; exact hx)
    · rw [(State.foldl_sendUp_granted rfl _).1] at hx
      have hkept := (List.mem_filter.mp hx).2
      rintro ⟨hctx, htag, hnode⟩
      simp [hctx, htag, hnode] at hkept

theorem exec_collectiveAbort {e : Nat} (h : (s.ctx n).tags.find? (fun x => x.tag == tag) = some g) :
    exec (.collectiveAbort n tag e) s = guard (decide (g.epoch < e)) s (s.abortTag n tag e 0xFF) := by
  change execCollectiveAbort n tag e s = _
  unfold execCollectiveAbort
  rw [h]

theorem Ctx.newEpoch_tags (c : Ctx) (tag epoch : Nat) (x : Tag) (hx : x ∈ (c.newEpoch tag epoch).tags) (ht : x.tag = tag) : x.aborted = true ∧ x.epoch = epoch := by
  obtain ⟨y, -, rfl⟩ := List.mem_map.mp hx
  split
  · exact ⟨rfl, rfl⟩
  next hne => exact absurd (by rwa [if_neg hne] at ht) hne

/-- An aborted tag holds no partial, and stands in the new epoch. -/
theorem State.abortTag_done (s : State) (n tag epoch port : Nat) : (∀ x, x ∈ (s.abortTag n tag epoch port).net.nodes → ¬ (x.ctx = n ∧ x.tag = tag)) ∧
    ∀ x, x ∈ ((s.abortTag n tag epoch port).ctx n).tags → x.tag = tag → x.aborted = true ∧ x.epoch = epoch := by
  have hlog : Only [.out, .ledger, .host, .watch]
      ((s.setNet { s.net with nodes := s.net.nodes.filter fun x => !(x.ctx == n && x.tag == tag) }).modCtx n (·.newEpoch tag epoch)) (s.abortTag n tag epoch port) :=
    (State.log_only (by decide) ..).mpr .refl
  refine ⟨fun x hx => ?_, fun x hx => ?_⟩
  · rw [hlog .net (by decide)] at hx
    have hx : x ∈ s.net.nodes.filter fun x => !(x.ctx == n && x.tag == tag) := by rwa [State.modCtx_net] at hx
    rintro ⟨hctx, htag⟩
    have hkept := (List.mem_filter.mp hx).2
    simp [hctx, htag] at hkept
  · rw [ctx_of_only hlog (by decide), State.ctx_modCtx_self] at hx
    exact Ctx.newEpoch_tags _ _ _ _ hx

theorem exec_collectiveRestart (h : (s.ctx n).tagOf tag = some (g, f, k)) (ha : g.aborted = true) (hw : s.working n = true) :
    exec (.collectiveRestart n tag) s =
      .next (((s.modCtx n fun c => { c with tags := c.tags.map fun x => if x.tag = tag then { x with aborted := false } else x }).emit
        (.restart n tag g.epoch)).enterColl n f k { g with aborted := false }) := by
  change execCollectiveRestart n tag s = _
  unfold execCollectiveRestart
  rw [h]
  exact if_neg (by simp [ha, hw])

theorem Ctx.tagOf_tag {c : Ctx} (h : c.tagOf tag = some (g, f, k)) : g.tag = tag := by
  unfold Ctx.tagOf at h
  cases hfind : c.tags.find? fun x => x.tag == tag with
  | none => simp [hfind] at h
  | some g' =>
    rw [hfind] at h
    cases hflight : c.flight.find? fun f => f.seq == g'.seq with
    | none => simp [hflight] at h
    | some f' =>
      simp only [hflight, Option.map_eq_some_iff, Prod.mk.injEq] at h
      obtain ⟨_, -, rfl, -⟩ := h
      have hg := List.find?_some hfind
      exact beq_iff_eq.mp hg

end

end Sys2Proof.Machine

open Sys2Proof Sys2Proof.Machine

/-- Settles O45: a node keeps or combines what reaches it, a grant or an abort acts on its tag by the epochs, and a flit's copies go to each receiver of the
group once. -/
theorem collectivesAndMulticast : Obligations.CollectivesAndMulticast := by
  refine ⟨fun s n tag l off data g f k h => ⟨?aborted, ?node, ?grant, ?older, ?later, ?abort, ?stale, ?restart⟩,
    fun s g => ⟨?send, ?spilled, ?landed, ?idle, ?reattach⟩⟩
  case aborted => exact fun ha right => exec_combineNode_aborted h ha
  case node =>
    intro ha hl hchild
    refine ⟨fun hnone => ?_, fun hnone => ?_, fun r hr => ?_, fun r hr => ?_⟩ <;>
    · rw [exec_combineNode h ha hl hchild]
      dsimp only [Bool.false_eq_true, if_false, if_true]
      simp only [*, if_true, Bool.false_eq_true, if_false]
  case grant => exact fun _ => exec_tagGrant_done h
  case older => exact fun e he => exec_tagGrant_older h he
  case later => exact fun e he => exec_tagGrant_later h he
  case abort =>
    intro e _ hfind he
    obtain ⟨hnodes, htags⟩ := s.abortTag_done n tag e 0xFF
    exact ⟨_, (exec_collectiveAbort hfind).trans (guard_of_true (decide_eq_true he) _ _), hnodes, htags⟩
  case stale => exact fun e hfind he => (exec_collectiveAbort hfind).trans (guard_of_false (decide_eq_false (Nat.not_lt.mpr he)) _ _)
  case restart =>
    intro ha hw
    have htag := Ctx.tagOf_tag h
    subst htag
    refine ⟨fun e w hfail => ?_, fun hnone => ⟨?_, ?_, ?_, ?_⟩⟩
    · rw [exec_collectiveRestart h ha hw]
      unfold State.enterColl
      rw [hfail]
    · rintro rfl
      rw [exec_collectiveRestart h ha hw]
      unfold State.enterColl
      rw [hnone]
    · rintro x y z rfl
      rw [exec_collectiveRestart h ha hw]
      unfold State.enterColl
      rw [hnone]
    · rintro rfl
      rw [exec_collectiveRestart h ha hw]
      unfold State.enterColl
      rw [hnone]
      exact ⟨_, rfl⟩
    · rintro x y rfl
      rw [exec_collectiveRestart h ha hw]
      unfold State.enterColl
      rw [hnone]
  case send =>
    rintro len l u hwork hnd ⟨r, hr, hc⟩ hall hread hreg
    obtain ⟨hsrc, hrecv⟩ := State.group_sendCopies (s := u.setGroup g { (s.group g) with src := (s.group g).src + len }) (g := g) len l (s.group g).recv
      fun x hx => (hall x hx).1
    rw [State.group_setGroup] at hsrc hrecv
    exact ⟨_, exec_multicastFlitSend hwork hr hc hall hread hreg, rfl, hsrc, hrecv.trans (putRecv_all l.length [] _ hnd)⟩
  case spilled => exact fun r l hdet => State.takeCopy_detached hdet l
  case landed =>
    intro r l x hatt hlen hne hx
    refine ⟨_, rfl, ?_, ?_⟩ <;> rw [State.takeCopy_attached hatt, State.landAll_within hne hx hlen] <;> rfl
  case idle =>
    intro hidle len
    change execMulticastFlitSend g len s = _
    rw [execMulticastFlitSend, if_pos (by rw [hidle]; rfl)]
  case reattach => exact fun sq r hwork hrecv hsq hdet hlen => exec_multicastReattach hwork hrecv hsq hdet hlen
end


section
/-! PROOFS. Flits in sequence, packets at the arbiter, routing tables (R209 to R217, R221 to R225). -/

namespace Sys2Proof.Machine

/-! ## What a link keeps while a flit is judged (R213, R215) -/

/-- What a link expects and has of the packets that it receives. -/
structure SameRx (l m : Link) : Prop where
  rxSeq : m.rxSeq = l.rxSeq
  rxUsed : m.rxUsed = l.rxUsed
  asm : m.asm = l.asm

namespace SameRx
variable {l m k : Link}

theorem refl : SameRx l l := ⟨rfl, rfl, rfl⟩

theorem trans (h : SameRx l m) (h' : SameRx m k) : SameRx l k := ⟨h'.rxSeq.trans h.rxSeq, h'.rxUsed.trans h.rxUsed, h'.asm.trans h.asm⟩

theorem frame (l : Link) (now errs : Nat) : SameRx l (l.frame now errs).1 := ⟨rfl, rfl, rfl⟩

theorem acked (l : Link) (a : Nat) : SameRx l (l.acked a) := by
  unfold Link.acked
  split
  · exact refl
  · split
    · exact ⟨rfl, rfl, rfl⟩
    · exact refl

theorem replay (l : Link) (q : Nat) : SameRx l (l.replay q) := by
  unfold Link.replay
  split
  · exact refl
  · exact ⟨rfl, rfl, rfl⟩

/-- The packet that a flit completes is told by what the link has and expects. -/
theorem whole (h : SameRx l m) (f : Flit) (v : Nat) : (m.accept f).whole v = (l.accept f).whole v := by
  rw [Link.whole, Link.accept, Link.whole, Link.accept, h.asm]

theorem hasRx (h : SameRx l m) (v : Nat) : m.hasRx v = l.hasRx v := by rw [Link.hasRx, h.rxUsed, Link.hasRx]

end SameRx

/-- What tells whether a port carries packets. -/
structure SameService (l m : Link) : Prop where
  service : m.inService = l.inService
  cls : m.cls = l.cls

namespace SameService
variable {l m k : Link}

theorem refl : SameService l l := ⟨rfl, rfl⟩

theorem trans (h : SameService l m) (h' : SameService m k) : SameService l k := ⟨h'.service.trans h.service, h'.cls.trans h.cls⟩

theorem acked (l : Link) (a : Nat) : SameService l (l.acked a) := by
  unfold Link.acked
  split
  · exact refl
  · split
    · exact ⟨rfl, rfl⟩
    · exact refl

end SameService

/-- The ACK and the credits of a good flit. -/
def Link.heard (l : Link) (f : Flit) : Link := (match f.ack with | some a => l.acked a | none => l).credited f.creditVc f.credits

section
variable {l : Link} {f : Flit}

theorem Link.heard_rx (l : Link) (f : Flit) : SameRx l (l.heard f) := by
  unfold Link.heard
  split
  next a _ => exact (SameRx.acked l a).trans ⟨rfl, rfl, rfl⟩
  next => exact ⟨rfl, rfl, rfl⟩

theorem Link.heard_service (l : Link) (f : Flit) : SameService l (l.heard f) := by
  unfold Link.heard
  split
  next a _ => exact (SameService.acked l a).trans ⟨rfl, rfl⟩
  next => exact ⟨rfl, rfl⟩

theorem Link.acked_credits (l : Link) (a : Nat) : (l.acked a).credits = l.credits := by
  unfold Link.acked
  split
  · rfl
  · split <;> rfl

theorem Link.heard_credits (l : Link) (f : Flit) : tget 0 (l.heard f).credits f.creditVc = tget 0 l.credits f.creditVc - f.credits := by
  unfold Link.heard
  split
  · rw [Link.credited, Link.acked_credits]
    exact tget_tset_self ..
  · exact tget_tset_self ..

theorem Link.replay_credits (l : Link) (q : Nat) : (l.replay q).credits = l.credits := by
  unfold Link.replay
  split <;> rfl

/-- A packet of one flit is whole once that has come. -/
theorem Link.whole_of_first {p : Packet} (hk : f.kind = .first) (hp : packetOf f.body = some p) (hlen : p.len = 1) : (l.accept f).whole f.vc = some p := by
  have hasm : tget (0, []) (l.accept f).asm f.vc = (1, f.body) := by
    rw [Link.accept]
    dsimp only
    rw [if_pos hk]
    exact tget_tset_self ..
  rw [Link.whole, hasm]
  dsimp only
  rw [hp, Option.bind_some, hlen, if_pos rfl]

end

/-! ## Flits that a port receives -/

section
variable {s t : State} {n : Nat} {f : Flit}

/-- A port's part in what it receives stays, and so do the network and the other ports. -/
structure RxStays (n : Nat) (s t : State) : Prop where
  rx : SameRx (s.link n) (t.link n)
  net : t.net = s.net

namespace RxStays
variable {u : State}

theorem modLink (h : RxStays n s t) {g : Link → Link} (hg : ∀ l, SameRx l (g l)) : RxStays n s (t.modLink n g) :=
  ⟨h.rx.trans (by rw [State.link_modLink_self]; exact hg _), h.net⟩

theorem lctl (h : RxStays n s t) (body : List Byte) : RxStays n s (t.lctl n body) :=
  ⟨h.rx.trans (by
    rw [State.lctl]
    change SameRx _ ((t.setLink n _).link n)
    rw [State.link_setLink_self]
    exact ⟨rfl, rfl, rfl⟩), h.net⟩

theorem retrain (h : RxStays n s t) : RxStays n s (t.retrain n) :=
  (h.modLink (g := fun l => { l with training := true, up := false, coef := tget [] t.mram.coef n }) fun _ => ⟨rfl, rfl, rfl⟩).modLink fun _ => ⟨rfl, rfl, rfl⟩

theorem ite {p : Prop} [Decidable p] (h : RxStays n s t) (h' : RxStays n s u) : RxStays n s (if p then t else u) := by
  split
  · exact h
  · exact h'

theorem badFlit (h : RxStays n s t) (bad : Bool) : RxStays n s (t.badFlit n bad) := by
  unfold State.badFlit
  dsimp only
  have hmark : ∀ g : Nat → Nat, RxStays n s (t.modLink n fun l => { l with nakSent := true, nakRun := g l.nakRun }) := fun g => h.modLink fun _ => ⟨rfl, rfl, rfl⟩
  refine ite (retrain ?_) ?_ <;> exact ite (lctl (hmark fun r => if bad || !(t.link n).nakSent then r + 1 else r) _) (hmark fun r => if bad || !(t.link n).nakSent then r + 1 else r)

end RxStays

theorem State.rxStays_frame (errs : Nat) : RxStays n s (s.setLink n ((s.link n).frame s.clk.ltb errs).1) :=
  ⟨by rw [State.link_setLink_self]; exact .frame .., rfl⟩

/-- A frame reaches a port in service: too many bad codewords retrain it, a bad frame is asked for again, a good one is judged. -/
theorem exec_linkFlitReceive {errs : Nat} (hup : s.chanUp (n / 6) = true) (hserv : (s.link n).inService = true) :
    exec (.linkFlitReceive n ⟨f, errs⟩) s =
      let r := (s.link n).frame s.clk.ltb errs
      let t := s.setLink n r.1
      if 16 < r.1.uncTimes.length then .next (t.retrain n)
      else if r.2 || !Flit.crcOk f then .next (t.badFlit n true)
      else .next (t.goodFlit n f) := by
  change execLinkFlitReceive n ⟨f, errs⟩ s = _
  rw [execLinkFlitReceive, if_neg (by simp [hup, hserv])]

theorem State.goodFlit_eq (s : State) (n : Nat) (f : Flit) : s.goodFlit n f =
    let t := s.modLink n (·.heard f)
    match f.kind with
    | .idle => t
    | .lctl => (match Flit.nak f with | some q => t.modLink n (·.replay q) | none => t)
    | .first | .cont =>
      if f.seq ≠ (s.link n).rxSeq ∨ (s.link n).hasRx f.vc = false then t.badFlit n false
      else (t.modLink n (·.accept f)).takePacket n f.vc := by
  unfold State.goodFlit
  rfl

/-- A flit that carries no part of a packet. -/
theorem State.goodFlit_ctl (hk : f.kind = .idle ∨ f.kind = .lctl) : RxStays n s (s.goodFlit n f) ∧
    tget 0 ((s.goodFlit n f).link n).credits f.creditVc = tget 0 (s.link n).credits f.creditVc - f.credits := by
  have hheard : RxStays n s (s.modLink n (·.heard f)) := .modLink ⟨.refl, rfl⟩ fun l => l.heard_rx f
  have hcredits : tget 0 ((s.modLink n (·.heard f)).link n).credits f.creditVc = tget 0 (s.link n).credits f.creditVc - f.credits := by
    rw [State.link_modLink_self]
    exact Link.heard_credits ..
  rw [State.goodFlit_eq]
  obtain hk | hk := hk
  · rw [hk]
    exact ⟨hheard, hcredits⟩
  · rw [hk]
    dsimp only
    split
    · refine ⟨hheard.modLink fun l => .replay l _, ?_⟩
      rw [State.link_modLink_self, Link.replay_credits]
      exact hcredits
    · exact ⟨hheard, hcredits⟩

/-- A flit out of order, or without a buffer. -/
theorem State.goodFlit_refused (hk : f.kind = .first ∨ f.kind = .cont) (h : f.seq ≠ (s.link n).rxSeq ∨ (s.link n).hasRx f.vc = false) :
    RxStays n s (s.goodFlit n f) := by
  have hheard : RxStays n s (s.modLink n (·.heard f)) := .modLink ⟨.refl, rfl⟩ fun l => l.heard_rx f
  rw [State.goodFlit_eq]
  obtain hk | hk := hk <;>
  · rw [hk]
    dsimp only
    rw [if_pos h]
    exact hheard.badFlit false

theorem State.goodFlit_taken (hk : f.kind = .first ∨ f.kind = .cont) (hseq : f.seq = (s.link n).rxSeq) (hroom : (s.link n).hasRx f.vc = true) :
    s.goodFlit n f = ((s.modLink n (·.heard f)).modLink n (·.accept f)).takePacket n f.vc := by
  rw [State.goodFlit_eq]
  obtain hk | hk := hk <;>
  · rw [hk]
    dsimp only
    exact if_neg (by simp [hseq, hroom])

/-- What a link shows of the last flit that it accepted. -/
structure Accepted (q : Nat) (ack : Nat) (l : Link) : Prop where
  rxSeq : l.rxSeq = q
  lastAck : l.lastAck = some ack
  nakSent : l.nakSent = false

theorem State.takePacket_none {v : Nat} (h : (s.link n).whole v = none) : s.takePacket n v = s := by
  rw [State.takePacket, h]

theorem State.freeRx_link {p : Packet} {q a : Nat} (h : Accepted q a (s.link n)) : Accepted q a ((s.freeRx (some n) p).link n) ∧
    ∀ m, m ≠ n → (s.freeRx (some n) p).link m = s.link m := by
  unfold State.freeRx
  dsimp only
  split
  · exact ⟨h, fun _ _ => rfl⟩
  · refine ⟨?_, fun m hm => State.link_modLink_ne _ _ _ _ hm⟩
    rw [State.link_modLink_self]
    exact ⟨h.rxSeq, h.lastAck, h.nakSent⟩

theorem State.takePacket_link {v q a : Nat} (h : Accepted q a (s.link n)) : Accepted q a ((s.takePacket n v).link n) ∧
    ∀ m, m ≠ n → (s.takePacket n v).link m = s.link m := by
  cases hw : (s.link n).whole v with
  | none =>
    rw [State.takePacket_none hw]
    exact ⟨h, fun _ _ => rfl⟩
  | some p =>
    have htaken : Accepted q a ((s.modLink n fun l => { l with asm := tset (0, []) l.asm v (0, []) }).link n) := by
      rw [State.link_modLink_self]
      exact ⟨h.rxSeq, h.lastAck, h.nakSent⟩
    have hother : ∀ m, m ≠ n → (s.modLink n fun l => { l with asm := tset (0, []) l.asm v (0, []) }).link m = s.link m := fun m hm =>
      State.link_modLink_ne _ _ _ _ hm
    rw [State.takePacket, hw]
    dsimp only
    split
    · exact ⟨htaken, hother⟩
    · obtain ⟨hself, hrest⟩ := State.freeRx_link (p := p) htaken
      exact ⟨hself, fun m hm => (hrest m hm).trans (hother m hm)⟩

theorem State.takePacket_waiting {v : Nat} {p : Packet} (hw : (s.link n).whole v = some p) (hc : s.carries n = true) :
    (s.takePacket n v).net.waiting = s.net.waiting ++ [(some n, p)] := by
  rw [State.takePacket, hw]
  dsimp only
  rw [if_pos hc]
  rfl

/-- A flit in order with a buffer: it is acknowledged, and the packet that it completes waits at the arbiter. -/
theorem State.goodFlit_accepted (halive : s.alive = true) (hup : s.chanUp (n / 6) = true) (hserv : (s.link n).inService = true)
    (hk : f.kind = .first ∨ f.kind = .cont) (hseq : f.seq = (s.link n).rxSeq) (hroom : (s.link n).hasRx f.vc = true) :
    Accepted (((s.link n).rxSeq + 1) % 4096) f.seq ((s.goodFlit n f).link n) ∧
      (∀ p, ((s.link n).accept f).whole f.vc = some p → (s.link n).cls = 2 → (s.goodFlit n f).net.waiting = s.net.waiting ++ [(some n, p)]) ∧
      (((s.link n).accept f).whole f.vc = none → (s.goodFlit n f).net = s.net) ∧ ∀ m, m ≠ n → (s.goodFlit n f).link m = s.link m := by
  rw [State.goodFlit_taken hk hseq hroom]
  have hlink : ((s.modLink n (·.heard f)).modLink n (·.accept f)).link n = ((s.link n).heard f).accept f := by
    rw [State.link_modLink_self, State.link_modLink_self]
  have hwhole : (((s.modLink n (·.heard f)).modLink n (·.accept f)).link n).whole f.vc = ((s.link n).accept f).whole f.vc := by
    rw [hlink]
    exact ((s.link n).heard_rx f).whole f f.vc
  have hacc : Accepted (((s.link n).rxSeq + 1) % 4096) f.seq (((s.modLink n (·.heard f)).modLink n (·.accept f)).link n) := by
    rw [hlink]
    exact ⟨by rw [← ((s.link n).heard_rx f).rxSeq]; rfl, rfl, rfl⟩
  obtain ⟨hself, hrest⟩ := State.takePacket_link (v := f.vc) hacc
  refine ⟨hself, fun p hp hcls => ?_, fun hnone => ?_, fun m hm => ?_⟩
  · refine State.takePacket_waiting (hwhole.trans hp) ?_
    have hsame := (s.link n).heard_service f
    change (s.alive && s.chanUp (n / 6) && (((s.modLink n (·.heard f)).modLink n (·.accept f)).link n).inService &&
      ((((s.modLink n (·.heard f)).modLink n (·.accept f)).link n).cls == 2 || s.ovr n)) = true
    rw [hlink, halive, hup]
    change (true && true && ((s.link n).heard f).inService && (((s.link n).heard f).cls == 2 || s.ovr n)) = true
    rw [hsame.service, hsame.cls, hserv, hcls]
    rfl
  · rw [State.takePacket_none (hwhole.trans hnone)]
    rfl
  · rw [hrest m hm, State.link_modLink_ne _ _ _ _ hm, State.link_modLink_ne _ _ _ _ hm]

/-! ## Flits that a port sends -/

theorem exec_ackLctlSend {a : Nat} (hserv : (s.link n).inService = true) (ha : (s.link n).lastAck = some a) (hidle : (s.link n).idle = 64) :
    exec (.ackLctlSend n) s = .next (s.lctl n []) :=
  guard_of_true (by rw [hserv, ha, hidle]; rfl) _ _

theorem Link.pickVc_control {l : Link} (h0 : l.ready 0 = true) (h : l.vc0Last = false ∨ ∀ v, 1 ≤ v → v ≤ 3 → l.ready v = false) : l.pickVc = some 0 := by
  refine if_pos ?_
  rw [h0, Bool.true_and, Bool.not_eq_true', Bool.and_eq_false_iff]
  refine h.imp_right fun hall => ?_
  rw [Bool.not_eq_false', List.isEmpty_iff, List.filter_eq_nil_iff]
  intro v hv
  have hv : v = 1 ∨ v = 2 ∨ v = 3 := by simpa using hv
  rw [hall v (by omega) (by omega)]
  exact Bool.false_ne_true

theorem nextAfter_mem {last : Nat} {l : List Nat} (h : l ≠ []) : ∃ v, nextAfter last l = some v ∧ v ∈ l := by
  unfold nextAfter
  cases hfind : l.find? fun n => decide (last < n) with
  | some v => exact ⟨v, rfl, List.mem_of_find?_eq_some hfind⟩
  | none =>
    obtain ⟨v, r, rfl⟩ := List.exists_cons_of_ne_nil h
    exact ⟨v, rfl, List.mem_cons_self⟩

theorem Link.pickVc_other {l : Link} (hlast : l.vc0Last = true) (h : ∃ v, 1 ≤ v ∧ v ≤ 3 ∧ l.ready v = true) :
    ∃ v, l.pickVc = some v ∧ 1 ≤ v ∧ v ≤ 3 ∧ l.ready v = true := by
  obtain ⟨v, hlow, hhigh, hv⟩ := h
  have hmem : v ∈ [1, 2, 3].filter l.ready := List.mem_filter.mpr ⟨by simp; omega, hv⟩
  obtain ⟨w, hw, hwmem⟩ := nextAfter_mem (last := l.rrVc) (List.ne_nil_of_mem hmem)
  obtain ⟨hwlist, hwready⟩ := List.mem_filter.mp hwmem
  have hwlist : w = 1 ∨ w = 2 ∨ w = 3 := by simpa using hwlist
  refine ⟨w, ?_, by omega, by omega, hwready⟩
  refine (if_neg ?_).trans hw
  have hothers : ([1, 2, 3].filter l.ready).isEmpty = false := by rw [List.isEmpty_eq_false_iff]; exact List.ne_nil_of_mem hmem
  rw [hlast, hothers]
  simp

theorem Link.slot_resend {l : Link} {q : Nat} {x : TxFlit} {r : List (Nat × TxFlit)} (b : Bool) (h : l.resend = (q, x) :: r) :
    ∃ f, (l.slot b).2 = some f ∧ f.seq = q ∧ f.vc = x.vc ∧ f.body = x.body ∧ (l.slot b).1.resend = r := by
  rw [Link.slot, h]
  exact ⟨_, rfl, rfl, rfl, rfl, rfl⟩

/-! ## Packets at the arbiter (R222, R223, R225) -/

/-- The packet at the head of the arbiter. -/
theorem exec_packetForward {arr : Option Nat} {p : Packet} {rest : List (Option Nat × Packet)} (halive : s.alive = true) (hw : s.net.waiting = (arr, p) :: rest) :
    exec (.packetForward arr p) s =
      let t := (s.setNet { s.net with waiting := rest }).freeRx arr p
      let e := s.entrance arr p
      if p.ptype == .time || (p.ptype == .pair && arr.isSome) then .next (if s.portOnly arr p then t.emit (.deliver p) else t)
      else if s.unissued p then .next t
      else match s.routeTo p with
        | .deliver =>
          if p.slice ≠ s.sliceTag ∨ s.sliceTag = 0 then .next (t.dropPkt arr p 2)
          else if p.dstSquad < 64 then .next (t.inject e.1 e.2 (clsOf p.ptype) (squadGoal p.dstSquad) p)
          else .next (t.deliver p)
        | .drop c => .next (t.dropPkt arr p c)
        | .send prim alt =>
          match s.outPort arr prim alt with
          | some n => .next ((t.setNet { t.net with rrPort := n }).inject e.1 e.2 (clsOf p.ptype) ⟨n / 6, portRouter n, some n⟩ p)
          | none => .next s := by
  change execPacketForward arr p s = _
  unfold execPacketForward
  rw [hw]
  dsimp only
  rw [if_neg (by simp [halive])] <;> rfl

theorem exec_packetForward_ne {arr : Option Nat} {p : Packet} (h : s.net.waiting.head? ≠ some (arr, p)) : exec (.packetForward arr p) s = .next s := by
  change execPacketForward arr p s = _
  unfold execPacketForward
  split
  · rfl
  next head rest hw =>
    rw [hw] at h
    refine if_pos ?_
    simp only [List.head?_cons, ne_eq, Option.some.injEq] at h
    simp [h]

theorem exec_packetForward_timed {arr : Option Nat} {p : Packet} {rest : List (Option Nat × Packet)} (halive : s.alive = true)
    (hw : s.net.waiting = (arr, p) :: rest) (hp : p.ptype = .time ∨ (p.ptype = .pair ∧ arr ≠ none)) : exec (.packetForward arr p) s =
      .next (if s.portOnly arr p then ((s.setNet { s.net with waiting := rest }).freeRx arr p).emit (.deliver p)
        else (s.setNet { s.net with waiting := rest }).freeRx arr p) := by
  rw [exec_packetForward halive hw]
  refine if_pos ?_
  obtain hp | ⟨hp, harr⟩ := hp
  · rw [hp]
    rfl
  · rw [hp, Option.isSome_iff_ne_none.mpr harr]
    rfl

/-- A packet that is routed. -/
theorem exec_packetForward_routed {arr : Option Nat} {p : Packet} {rest : List (Option Nat × Packet)} (halive : s.alive = true)
    (hw : s.net.waiting = (arr, p) :: rest) (htime : p.ptype ≠ .time) (hpair : p.ptype ≠ .pair ∨ arr = none) (hun : s.unissued p = false) :
    exec (.packetForward arr p) s =
      let t := (s.setNet { s.net with waiting := rest }).freeRx arr p
      let e := s.entrance arr p
      match s.routeTo p with
        | .deliver =>
          if p.slice ≠ s.sliceTag ∨ s.sliceTag = 0 then .next (t.dropPkt arr p 2)
          else if p.dstSquad < 64 then .next (t.inject e.1 e.2 (clsOf p.ptype) (squadGoal p.dstSquad) p)
          else .next (t.deliver p)
        | .drop c => .next (t.dropPkt arr p c)
        | .send prim alt =>
          match s.outPort arr prim alt with
          | some n => .next ((t.setNet { t.net with rrPort := n }).inject e.1 e.2 (clsOf p.ptype) ⟨n / 6, portRouter n, some n⟩ p)
          | none => .next s := by
  rw [exec_packetForward halive hw]
  dsimp only
  rw [if_neg, if_neg (by rw [hun]; exact Bool.false_ne_true)]
  obtain hp | rfl := hpair
  · simp [htime, hp]
  · simp [htime]

/-! ## Routing tables (R221) -/

theorem exec_routingTableWrite (halive : s.alive = true) (hhost : s.hostUp = true) (a : Nat) (w : W64) :
    exec (.routingTableWrite a w) s = .next ((s.setNet (s.net.tableWrite a w)).setRg (pgRTE + 0x110) a) :=
  guard_of_true (by rw [halive, hhost]; rfl) _ _

end

end Sys2Proof.Machine

open Sys2Proof Sys2Proof.Machine

/-- Settles O47: a flit is judged by its frame, its CRC and its SEQ, and the packet at the head of the arbiter by its type and its route. -/
theorem flitsArriveInOrder : Obligations.FlitsArriveInOrder := by
  refine ⟨fun s n halive hup => ⟨fun f errs hserv => ⟨?accept, ?bad, ?refused, ?ctl, ?retrain⟩, ?out, ?ack⟩, fun l f p hk hp hlen => Link.whole_of_first hk hp hlen,
    fun s arr p h => exec_packetForward_ne h, fun s arr p rest halive hw => ⟨?timed, fun htime hpair => ⟨?unissued, fun hun => ⟨?deliver, ?slice, ?drop, ?send, ?wait⟩⟩⟩,
    ?table, fun l => ⟨Link.pickVc_control, Link.pickVc_other, fun q x r b h => Link.slot_resend b h⟩⟩
  case accept =>
    intro hfew hgood hcrc hk hseq hroom
    obtain ⟨⟨hrx, hlast, hnak⟩, hwhole, hnone, hrest⟩ := State.goodFlit_accepted (s := s.setLink n ((s.link n).frame s.clk.ltb errs).1) (n := n) (f := f) halive hup
      (by rw [State.link_setLink_self]; exact hserv) hk (by rw [State.link_setLink_self]; exact hseq) (by rw [State.link_setLink_self]; exact hroom)
    rw [State.link_setLink_self] at hrx hwhole hnone
    refine ⟨_, ?_, hrx, hlast, hnak, hwhole, hnone, fun m hm => ?_⟩
    · rw [exec_linkFlitReceive hup hserv]
      dsimp only
      rw [if_neg (Nat.not_lt.mpr hfew), hgood, hcrc]
      rfl
    · exact (hrest m hm).trans (tget_tset_ne _ _ _ _ _ hm)
  case bad =>
    intro hfew hbad
    have hstays := (State.rxStays_frame (s := s) (n := n) errs).badFlit true
    refine ⟨?_, hstays.rx.rxSeq, hstays.net⟩
    rw [exec_linkFlitReceive hup hserv]
    dsimp only
    rw [if_neg (Nat.not_lt.mpr hfew), if_pos (by simpa using hbad)]
  case refused =>
    intro hfew hgood hcrc hk hno
    have hstays : RxStays n (s.setLink n ((s.link n).frame s.clk.ltb errs).1) _ := State.goodFlit_refused hk (by rw [State.link_setLink_self]; exact hno)
    refine ⟨_, ?_, hstays.rx.rxSeq.trans ?_, hstays.rx.asm.trans ?_, hstays.net⟩
    · rw [exec_linkFlitReceive hup hserv]
      dsimp only
      rw [if_neg (Nat.not_lt.mpr hfew), hgood, hcrc]
      rfl
    · rw [State.link_setLink_self]
      rfl
    · rw [State.link_setLink_self]
      rfl
  case ctl =>
    intro hfew hgood hcrc hk
    obtain ⟨hstays, hcredits⟩ := State.goodFlit_ctl (s := s.setLink n ((s.link n).frame s.clk.ltb errs).1) (n := n) hk
    rw [State.link_setLink_self] at hcredits
    refine ⟨_, ?_, hstays.rx.rxSeq.trans ?_, hstays.rx.asm.trans ?_, hstays.net, hcredits⟩
    · rw [exec_linkFlitReceive hup hserv]
      dsimp only
      rw [if_neg (Nat.not_lt.mpr hfew), hgood, hcrc]
      rfl
    · rw [State.link_setLink_self]
      rfl
    · rw [State.link_setLink_self]
      rfl
  case retrain =>
    intro hmany
    rw [exec_linkFlitReceive hup hserv]
    exact if_pos hmany
  case out =>
    intro hserv f errs
    change execLinkFlitReceive n ⟨f, errs⟩ s = _
    rw [execLinkFlitReceive, if_pos (by simp [hserv])]
  case ack => exact fun a hserv ha hidle => ⟨_, _, exec_ackLctlSend hserv ha hidle, rfl, ha, rfl⟩
  case timed =>
    intro hp
    refine ⟨fun h => ?_, fun h => ?_⟩ <;>
    · rw [exec_packetForward_timed halive hw hp, h]
      rfl
  case unissued =>
    intro hun
    rw [exec_packetForward halive hw]
    dsimp only
    rw [if_neg, if_pos hun]
    obtain hp | rfl := hpair
    · simp [htime, hp]
    · simp [htime]
  case deliver =>
    intro hroute hslice hne
    have hown : ¬(p.slice ≠ s.sliceTag ∨ s.sliceTag = 0) := by simp [hslice, hne]
    refine ⟨fun hsq => ?_, fun hsq => ?_⟩
    · rw [exec_packetForward_routed halive hw htime hpair hun, hroute]
      exact (if_neg hown).trans (if_pos hsq)
    · rw [exec_packetForward_routed halive hw htime hpair hun, hroute]
      exact (if_neg hown).trans (if_neg (Nat.not_lt.mpr hsq))
  case slice =>
    intro hroute hslice
    rw [exec_packetForward_routed halive hw htime hpair hun, hroute]
    exact if_pos hslice
  case drop =>
    intro c hroute
    rw [exec_packetForward_routed halive hw htime hpair hun, hroute] <;> rfl
  case send =>
    intro x y m hroute hport
    rw [exec_packetForward_routed halive hw htime hpair hun, hroute]
    dsimp only
    rw [hport] <;> rfl
  case wait =>
    intro x y hroute hport
    rw [exec_packetForward_routed halive hw htime hpair hun, hroute]
    dsimp only
    rw [hport] <;> rfl
  case table =>
    intro s a w halive hhost
    refine ⟨fun ha => ⟨_, exec_routingTableWrite halive hhost a w, ?_⟩, fun ha => ⟨_, exec_routingTableWrite halive hhost _ w, ?_⟩⟩
    · have hnet : s.net.tableWrite a w = { s.net with podTable := tset 0 s.net.podTable a w } := if_pos ha
      rw [hnet]
      exact ⟨tget_tset_self .., fun b hb => tget_tset_ne _ _ _ _ _ hb, rfl, by simp⟩
    · have hnet : s.net.tableWrite (8192 + a) w = { s.net with levelTable := tset 0 s.net.levelTable a w } := by
        rw [Net.tableWrite, if_neg (by omega), if_pos (by omega), Nat.add_sub_cancel_left]
      rw [hnet]
      exact ⟨tget_tset_self .., fun b hb => tget_tset_ne _ _ _ _ _ hb, rfl, by simp⟩
end


section
/-! PROOFS. Votes, decisions, the commit's shot clocks and what the host resolves (R252, R254, R261, R275 to R284, R336). -/

namespace Sys2Proof.Machine

section
variable {s t : State} {n : Nat}

/-! ## What a commit leaves (R279) -/

/-- The update state, the commit entry and the flags of a context. -/
structure Decides (n : Nat) (u : Upd) (m : Commit) (fl : BitVec 256) (s : State) : Prop where
  upd : (s.ctx n).upd = u
  commit : (s.ctx n).commit = m
  flags : (s.ctx n).flags = fl

namespace Decides
variable {u : Upd} {m : Commit} {fl : BitVec 256}

theorem of_ctx (h : Decides n u m fl s) (ht : t.ctx n = s.ctx n) : Decides n u m fl t :=
  ⟨by rw [ht]; exact h.upd, by rw [ht]; exact h.commit, by rw [ht]; exact h.flags⟩

theorem writeFlag (h : Decides n u m fl s) (k : Nat) (v : Bool) : Decides n u m (putFlag fl k v) (s.writeFlag n k v) := by
  refine ⟨?_, ?_, ?_⟩ <;> rw [State.writeFlag, State.ctx_modCtx_self]
  · exact h.upd
  · exact h.commit
  · exact congrArg (putFlag · k v) h.flags

theorem modCtx (h : Decides n u m fl s) {g : Ctx → Ctx} (hu : ∀ c, (g c).upd = c.upd) (hm : ∀ c, (g c).commit = c.commit) (hf : ∀ c, (g c).flags = c.flags) :
    Decides n u m fl (s.modCtx n g) := by
  refine ⟨?_, ?_, ?_⟩ <;> rw [State.ctx_modCtx_self]
  · rw [hu]
    exact h.upd
  · rw [hm]
    exact h.commit
  · rw [hf]
    exact h.flags

theorem ite {p : Prop} [Decidable p] (h : Decides n u m fl s) (h' : Decides n u m fl t) : Decides n u m fl (if p then s else t) := by
  split
  · exact h
  · exact h'

theorem log (h : Decides n u m fl s) (ch code sev cls st si : Nat) (p : List Byte) : Decides n u m fl (s.log ch code sev cls st si p) :=
  h.of_ctx (State.ctx_log ..)

theorem raise (h : Decides n u m fl s) (v : Nat) : Decides n u m fl (s.raise v) := h.of_ctx (State.ctx_raise ..)

end Decides

theorem State.ctx_sendDown (kind : Nat) (d : Decision) (k : Nat) : (s.sendDown n kind d).ctx k = s.ctx k := by
  unfold State.sendDown
  split <;> rfl

/-- A commit applied: the step, the loss scale and the decision, the entry decided, flags 240 and 241 clear and flag 244 set. -/
theorem State.applyCommit_decides (s : State) (n : Nat) (step : Word) (digest : W64) (exp growth : Nat) :
    Decides n { (s.ctx n).upd with step := step, exp := exp, growth := growth, stepDigest := digest, decision := step, verdict := 1, undecided := false }
      { (s.ctx n).commit with decided := true, halted := false, queried := false }
      (putFlag (putFlag (putFlag (s.ctx n).flags 240 false) 241 false) 244 true) (s.applyCommit n step digest exp growth) := by
  have hflags : ∀ g : Ctx → Ctx, Decides n (g (s.ctx n)).upd (g (s.ctx n)).commit (putFlag (putFlag (putFlag (g (s.ctx n)).flags 240 false) 241 false) 244 true)
      ((((s.modCtx n g).writeFlag n 240 false).writeFlag n 241 false).writeFlag n 244 true) := fun g =>
    have hself : (s.modCtx n g).ctx n = g (s.ctx n) := State.ctx_modCtx_self ..
    (((Decides.mk (congrArg Ctx.upd hself) (congrArg Ctx.commit hself) (congrArg Ctx.flags hself)).writeFlag 240 false).writeFlag 241 false).writeFlag 244 true
  unfold State.applyCommit
  dsimp only
  have hdone := hflags fun c => { c with
    upd := { c.upd with step := step, exp := exp, growth := growth, stepDigest := digest, decision := step, verdict := 1, undecided := false }
    commit := { c.commit with decided := true, halted := false, queried := false } }
  refine .ite (.raise ?_ _) ?_ <;> refine .ite (.raise (.log ?_ ..) _) ?_ <;>
  · split
    · exact hdone.modCtx (by intro; rfl) (by intro; rfl) (by intro; rfl)
    · exact hdone

/-! ## The round of a commit entry (R277) -/

/-- The commit entry stands in a round. -/
def InRound (n k : Nat) (s : State) : Prop := (s.ctx n).commit.round = k

namespace InRound
variable {k : Nat}

theorem of_ctx (h : InRound n k s) (ht : t.ctx n = s.ctx n) : InRound n k t := by
  rw [InRound, ht]
  exact h

theorem modCtx (h : InRound n k s) {g : Ctx → Ctx} (hg : ∀ c, (g c).commit.round = c.commit.round) : InRound n k (s.modCtx n g) := by
  rw [InRound, State.ctx_modCtx_self, hg]
  exact h

theorem ite {p : Prop} [Decidable p] (h : InRound n k s) (h' : InRound n k t) : InRound n k (if p then s else t) := by
  split
  · exact h
  · exact h'

theorem sendDown (h : InRound n k s) (kind : Nat) (d : Decision) : InRound n k (s.sendDown n kind d) := h.of_ctx (State.ctx_sendDown kind d n)

theorem noteHold (h : InRound n k s) (d : Decision) : InRound n k (s.noteHold n d) := by
  refine of_ctx (s := State.writeFlag _ n 249 true) (modCtx ?_ fun _ => rfl) (State.ctx_raise ..)
  exact h.of_ctx (State.ctx_log ..)

theorem rootHold (h : InRound n k s) (reason : Nat) (v : Vote) : InRound n k (s.rootHold n reason v) := (h.sendDown 1 _).noteHold _

theorem applyCommit (h : InRound n k s) (step : Word) (digest : W64) (exp growth : Nat) : InRound n k (s.applyCommit n step digest exp growth) :=
  (congrArg Commit.round (s.applyCommit_decides n step digest exp growth).commit).trans h

theorem rootCommit (h : InRound n k s) (v : Vote) : InRound n k (s.rootCommit n v) := (h.sendDown 0 _).applyCommit ..

theorem rootPair (h : InRound n k s) (v : Vote) : InRound n k (s.rootPair n v) := by
  have hout : InRound n k (if (s.ctx n).commit.pairOut then s
      else (s.emit (.pair n v.step v.exp v.growth v.digest)).modCtx n (·.modCommit fun c => { c with pairOut := true })) :=
    .ite h (.modCtx (s := s.emit _) h fun _ => rfl)
  dsimp only [State.rootPair]
  split
  · exact hout
  · split
    · exact hout.rootCommit v
    · refine modCtx (of_ctx ?_ (State.ctx_raise _ n _)) (by intro; rfl)
      exact (hout.rootHold 8 v).of_ctx (State.ctx_log ..)

theorem rootDecide (h : InRound n k s) : InRound n k (s.rootDecide n) := by
  dsimp only [State.rootDecide]
  split
  · exact h
  · refine .ite h (.ite (.ite h (rootHold ?_ _ _)) (.ite (.ite (h.rootPair _) (h.rootCommit _)) h))
    exact h.modCtx (by intro; rfl)

theorem commitUp (h : InRound n k s) : InRound n k (s.commitUp n) := by
  dsimp only [State.commitUp]
  refine .ite h (.ite h.rootDecide (.ite ?_ h))
  split
  · exact h
  · exact .ite h (h.modCtx fun _ => rfl)

end InRound

/-! ## Votes and decisions received (R276 to R282) -/

theorem Commit.forStep_open {m : Commit} (h : m.decided = false) (step : Word) : m.forStep step = m := by
  rw [Commit.forStep, h, Bool.false_and]
  exact if_neg Bool.false_ne_true

/-- A step later than that of the decided vote begins its entry. -/
theorem Commit.forStep_later {m : Commit} {o : Vote} {step : Word} (h : m.decided = true) (ho : m.own = some o) (hstep : o.step.toNat < step.toNat) :
    m.forStep step = m.fresh := by
  have hlater : m.later step = true := by
    rw [Commit.later, ho]
    exact decide_eq_true hstep
  rw [Commit.forStep, h, hlater]
  rfl

theorem Commit.fresh_votes {m : Commit} {o : Vote} (ho : m.own = some o) : m.fresh.votes = m.votes.filter fun e => decide (o.step.toNat < e.2.2.step.toNat) := by
  rw [Commit.fresh]
  simp only [Commit.later, ho]

/-- The update of a context is told by its value there. -/
theorem State.modCtx_congr {f g : Ctx → Ctx} (h : f (s.ctx n) = g (s.ctx n)) : s.modCtx n f = s.modCtx n g := by
  rw [State.modCtx, h, State.modCtx]

theorem State.modCtx_id {f : Ctx → Ctx} (hn : n < 2) (h : f (s.ctx n) = s.ctx n) : s.modCtx n f = s := by
  rw [State.modCtx, h]
  obtain rfl | rfl : n = 0 ∨ n = 1 := by omega
  · rfl
  · rfl

theorem exec_voteReceive (n lo hi : Nat) (v : Vote) : exec (.voteReceive n lo hi v) s =
    .next ((s.modCtx n (·.modCommit fun m => { m.forStep v.step with votes := putVote (m.forStep v.step).votes lo hi v })).commitUp n) := rfl

theorem exec_commitReceive {d : Decision} {v : Vote} (hready : (s.ctx n).votedReady d.step = true) (hopen : (s.ctx n).commit.decided = false)
    (hv : (s.ctx n).commit.own = some v) : exec (.commitReceive n d) s = .next ((s.sendDown n 0 d).applyCommit n d.step d.digest v.exp v.growth) := by
  change execCommitReceive n d s = _
  rw [execCommitReceive, hready, hopen, hv]
  rfl

theorem exec_commitReceive_passed {d : Decision} (h : (s.ctx n).votedReady d.step = false ∨ (s.ctx n).commit.decided = true) :
    exec (.commitReceive n d) s = .next (s.sendDown n 0 d) := by
  change execCommitReceive n d s = _
  rw [execCommitReceive]
  refine if_neg ?_
  obtain h | h := h <;> simp [h]

theorem exec_holdReceive {d : Decision} (hn : n < 2) (hopen : (s.ctx n).commit.decided = false) : exec (.holdReceive n d) s =
    let t := (s.sendDown n 1 d).noteHold n d
    let c := t.ctx n
    if d.reason = 9 ∧ c.commit.decided = false then
      match c.commit.own with
      | some v =>
        .next ((t.modCtx n (·.modCommit fun m =>
          { m with round := d.round, own := some { v with round := d.round }, sent := none, votes := [(c.rank, c.rank, { v with round := d.round })] })).commitUp n)
      | none => .next (t.modCtx n (·.modCommit fun m => { m with round := d.round }))
    else .next t := by
  have hid : s.modCtx n (·.modCommit (·.forStep d.step)) = s := State.modCtx_id hn (by rw [Ctx.modCommit, Commit.forStep_open hopen])
  change execHoldReceive n d s = _
  rw [execHoldReceive, hid] <;> rfl

/-- A hold leaves the entry, but for the flag that it sets. -/
theorem State.noteHold_commit (d : Decision) : (((s.sendDown n 1 d).noteHold n d).ctx n).commit = (s.ctx n).commit := by
  rw [State.noteHold, State.ctx_raise, State.writeFlag, State.ctx_modCtx_self, State.ctx_log, State.ctx_sendDown]
  rfl

theorem Upd.undecide_verdict (u : Upd) (m : Commit) (rank : Nat) : (u.undecide m rank).verdict = u.verdict := by
  unfold Upd.undecide
  split
  · split <;> rfl
  · rfl

/-- The abort of a step: the context is lost, and the decision stands. -/
theorem State.applyAbort_lost (s : State) (n : Nat) (step : Word) (h : (s.ctx n).lost = false) :
    ((s.applyAbort n step).ctx n).lost = true ∧ ((s.applyAbort n step).ctx n).upd.verdict = 2 := by
  let u := s.modCtx n fun c => { c with upd := { c.upd with decision := step, verdict := 2, undecided := false }, commit := { c.commit with decided := true } }
  have hlose : ∀ why q qindex seq, ((u.loseCtx n why q qindex seq false).ctx n).upd.verdict = 2 := fun why q qindex seq => by
    have hlost : (u.ctx n).lost = false := by
      rw [State.ctx_modCtx_self]
      exact h
    rw [State.loseCtx, if_neg (by rw [hlost]; exact Bool.false_ne_true)]
    dsimp only
    have hstop : ((u.abortTags n).stopEngines n).ctx n = u.ctx n := ctx_of_only (fs := [.out, .squads, .chans]) (by simp) (by decide) n
    rw [State.ctx_raise, State.ctx_log, State.ctx_modCtx_self, hstop, State.ctx_modCtx_self]
    exact Upd.undecide_verdict ..
  unfold State.applyAbort
  dsimp only
  split
  · exact ⟨(State.loseCtx_lost u n ..).1, hlose ..⟩
  · exact ⟨(State.loseCtx_lost u n ..).1, hlose ..⟩

theorem exec_decisionAnswer {d : Decision} {v : Vote} {commit : Bool} (hv : (s.ctx n).commit.own = some v) (hready : (s.ctx n).votedReady d.step = true)
    (hopen : (s.ctx n).commit.decided = false) (hq : (s.ctx n).commit.queried = true) : exec (.decisionAnswer n commit d) s =
      if commit then .next (s.applyCommit n d.step d.digest v.exp v.growth) else .next (s.applyAbort n d.step) := by
  change execDecisionAnswer n commit d s = _
  unfold execDecisionAnswer
  dsimp only
  rw [hv]
  exact if_neg (by simp [hready, hopen, hq])

/-! ## Shot clocks (R248, R277, R280, R282) -/

/-- A new round of the root's entry, with its own vote alone; the HUDDLE's shot clock begins anew. -/
def State.reopen (s : State) (n : Nat) (own : Vote) : State :=
  let t := s.modCtx n (·.modCommit fun m => { m with round := (s.ctx n).commit.round + 1, reopens := m.reopens + 1, own := some own, sent := none, votes := [(0, 0, own)] })
  match (s.ctx n).commitFlight with
  | some f => t.modCtx n (·.modFl f.seq fun x => { x with shotNs := 0 })
  | none => t

theorem State.reopen_commit (s : State) (n : Nat) (own : Vote) : ((s.reopen n own).ctx n).commit =
    { (s.ctx n).commit with round := (s.ctx n).commit.round + 1, reopens := (s.ctx n).commit.reopens + 1, own := some own, sent := none, votes := [(0, 0, own)] } := by
  unfold State.reopen
  dsimp only
  split
  · rw [State.ctx_modCtx_self, State.ctx_modCtx_self]
    rfl
  · rw [State.ctx_modCtx_self]
    rfl

/-- The root's vote in its next round. -/
def State.reVote (s : State) (n : Nat) (v : Vote) : Vote := { s.makeVote n v.step.toNat v.reason with round := (s.ctx n).commit.round + 1 }

theorem exec_commitShotClockExpiry {v : Vote} (hrank : (s.ctx n).rank = 0) (hexp : (s.ctx n).commitExpired 1 = true)
    (hopen : (s.ctx n).commit.decided = false) (hhalt : (s.ctx n).commit.halted = false) (hv : (s.ctx n).commit.own = some v) :
    exec (.commitShotClockExpiry n) s =
      if (s.ctx n).commit.reopens < s.reopenMax then
        .next ((s.reopen n (s.reVote n v)).rootHold n 9 (s.reVote n v))
      else .next (((s.haltCommit n .rootDeadline).log 4 0x4805 2 0 0x54 0 (leBytes 1 n ++ [0#8, 0#8, 0#8] ++ leBytes 4 v.step.toNat ++
          leBytes 4 ((s.ctx n).commit.votes.foldl (fun k e => k + e.2.2.count) 0))).raise (230 + n)) := by
  change execCommitShotClockExpiry n s = _
  unfold execCommitShotClockExpiry
  dsimp only
  rw [if_neg (by simp [hrank, hexp, hopen, hhalt]), hv] <;> rfl

/-- A hold of the root leaves the entry, and flag 249 stands. -/
theorem State.rootHold_ctx (reason : Nat) (v : Vote) : ((s.rootHold n reason v).ctx n).commit = (s.ctx n).commit ∧ ((s.rootHold n reason v).ctx n).flag 249 = true := by
  have hctx : (s.rootHold n reason v).ctx n = (s.ctx n).writeFlag 249 true := by
    rw [State.rootHold, State.noteHold, State.ctx_raise, State.writeFlag, State.ctx_modCtx_self, State.ctx_log, State.ctx_sendDown]
  rw [hctx]
  exact ⟨rfl, (Ctx.flag_writeFlag _ 249 true (by decide)).trans (if_pos rfl)⟩

theorem exec_memberCommitClockExpiry {f : Flight} {v : Vote} (hf : (s.ctx n).commitFlight = some f) (hexp : (s.ctx n).commitExpired (s.reopenMax + 2) = true)
    (hopen : (s.ctx n).commit.decided = false) (hhalt : (s.ctx n).commit.halted = false) (hq : (s.ctx n).commit.queried = false) (hrank : (s.ctx n).rank ≠ 0)
    (hv : (s.ctx n).commit.own = some v) : exec (.memberCommitClockExpiry n) s =
      if v.ready then
        .next ((s.modCtx n fun c => (c.modCommit fun m => { m with queried := true }).modFl f.seq fun x => { x with shotNs := 0 }).emit (.query n v.step))
      else .next ((s.haltCommit n .huddleDeadline).huddleDeadline n f.queue (huddleNo f.desc) 2 (s.ctx n).commit.votes.length max32) := by
  change execMemberCommitClockExpiry n s = _
  unfold execMemberCommitClockExpiry
  dsimp only
  rw [hf]
  dsimp only
  rw [if_neg (by simp [hexp, hopen, hhalt, hq, hrank]), hv]

theorem exec_decisionQueryTimeout {f : Flight} {v : Vote} (hf : (s.ctx n).commitFlight = some f) (hv : (s.ctx n).commit.own = some v)
    (hq : (s.ctx n).commit.queried = true) (hopen : (s.ctx n).commit.decided = false) (hhalt : (s.ctx n).commit.halted = false)
    (hexp : (s.ctx n).commitExpired 1 = true) : exec (.decisionQueryTimeout n) s =
      .next (((s.haltCommit n .memberDeadline).modCtx n fun c => { c with upd := { c.upd with undecided := true, decision := v.step } }).huddleDeadline
        n f.queue (huddleNo f.desc) 2 (s.ctx n).commit.votes.length max32) := by
  change execDecisionQueryTimeout n s = _
  unfold execDecisionQueryTimeout
  dsimp only
  rw [hf, hv]
  exact if_neg (by simp [hq, hopen, hhalt, hexp])

theorem State.haltCommit_ctx {f : Flight} (hf : (s.ctx n).commitFlight = some f) (h : Halt) :
    (s.haltCommit n h).ctx n = ((s.ctx n).modQueue f.queue fun q => { q with halt := h }).modCommit fun m => { m with halted := true } := by
  rw [State.haltCommit, hf]
  exact State.ctx_modCtx_self ..

theorem State.ctx_huddleDeadline (q number scope arrived missing : Nat) : (s.huddleDeadline n q number scope arrived missing).ctx n = s.ctx n := by
  rw [State.huddleDeadline, State.ctx_raise, State.ctx_log]

/-! ## What the host resolves (R255, R261, R282, R336) -/

/-- COMPLETE_COMMIT and DISCARD_VOTE, where the context may be resolved and its step is undecided. -/
theorem exec_completeCommit {v : Vote} (hres : (s.ctx s.resolveCtx).resolvable = true) (hund : (s.ctx s.resolveCtx).upd.undecided = true)
    (hv : (s.ctx s.resolveCtx).commit.own = some v) : exec .completeCommit s = .next (s.applyCommit s.resolveCtx v.step s.resolveDigest v.exp v.growth) := by
  change execCompleteCommit s = _
  unfold execCompleteCommit
  dsimp only
  rw [hres, hund, hv]
  rfl

theorem exec_discardVote (hres : (s.ctx s.resolveCtx).resolvable = true) (hund : (s.ctx s.resolveCtx).upd.undecided = true) :
    exec .discardVote s = .next (s.modCtx s.resolveCtx fun c => { c with upd := { c.upd with undecided := false } }) := by
  change execDiscardVote s = _
  unfold execDiscardVote
  dsimp only
  rw [hres, hund]
  rfl

theorem exec_resolve_decided (hres : (s.ctx s.resolveCtx).resolvable = true) (hund : (s.ctx s.resolveCtx).upd.undecided = false) :
    exec .completeCommit s = .next (s.badCommand pgUPD) ∧ exec .discardVote s = .next (s.badCommand pgUPD) := by
  change execCompleteCommit s = _ ∧ execDiscardVote s = _
  unfold execCompleteCommit execDiscardVote
  dsimp only
  rw [hres, hund]
  exact ⟨rfl, rfl⟩

theorem exec_resolve_locked (hres : (s.ctx s.resolveCtx).resolvable = false) :
    exec .completeCommit s = .next (s.lockedWrite pgUPD) ∧ exec .discardVote s = .next (s.lockedWrite pgUPD) := by
  change execCompleteCommit s = _ ∧ execDiscardVote s = _
  unfold execCompleteCommit execDiscardVote
  dsimp only
  rw [hres]
  exact ⟨rfl, rfl⟩

theorem Ctx.quiet_of {c : Ctx} (h : c.started = false ∨ c.halted = true) : c.quiet = true := by
  obtain h | h := h <;> simp [Ctx.quiet, h]

theorem exec_updStepWrite (n : Nat) (v : Word) : exec (.updStepWrite n v) s =
    if (s.ctx n).quiet then .next (s.modCtx n fun c => { c with upd := { c.upd with step := v } })
    else if (s.ctx n).upd.step = v then .next s else .next (s.lockedWrite pgUPD) := rfl

theorem exec_lossScaleWrite (n e g : Nat) : exec (.lossScaleWrite n e g) s =
    if (s.ctx n).quiet then .next (s.modCtx n fun c => { c with upd := { c.upd with exp := min 24 (e % 32), growth := g % 2 ^ 16 } })
    else if (s.ctx n).upd.exp = min 24 (e % 32) ∧ (s.ctx n).upd.growth = g % 2 ^ 16 then .next s else .next (s.lockedWrite pgUPD) := rfl

end

end Sys2Proof.Machine

open Sys2Proof Sys2Proof.Machine

/-- Settles O50: each packet by the entry that stands, a commit by what it leaves of the context, and the round of a hold through the votes that go up. -/
theorem decisionsCommitOnce : Obligations.DecisionsCommitOnce := by
  intro s n hn
  refine ⟨?vote, ?later, ?commit, ?passed, ?hold, ?missing, ?abort, ?kept, ?lost, ?pair, ?query, ?other, ?answer⟩
  case vote =>
    intro lo hi v hopen
    rw [exec_voteReceive]
    exact congrArg (fun t => Host.Outcome.next (State.commitUp t n)) (State.modCtx_congr (by simp only [Ctx.modCommit, Commit.forStep_open hopen]))
  case later =>
    intro lo hi v o hdec ho hstep
    rw [exec_voteReceive]
    refine congrArg (fun t => Host.Outcome.next (State.commitUp t n)) (State.modCtx_congr ?_)
    simp only [Ctx.modCommit, Commit.forStep_later hdec ho hstep, Commit.fresh_votes ho]
  case commit =>
    intro d v hready hopen hv
    obtain ⟨hupd, hcommit, hflags⟩ := (s.sendDown n 0 d).applyCommit_decides n d.step d.digest v.exp v.growth
    rw [State.ctx_sendDown] at hupd hcommit hflags
    refine ⟨_, exec_commitReceive hready hopen hv, rfl, by rw [hupd], by rw [hupd], by rw [hupd], by rw [hupd], by rw [hcommit], ?_, ?_, ?_⟩ <;>
    · rw [Ctx.flag, hflags, getLsbD_putFlag _ _ _ (by decide), getLsbD_putFlag _ _ _ (by decide), getLsbD_putFlag _ _ _ (by decide)]
      rfl
  case passed => exact fun d h => exec_commitReceive_passed h
  case hold =>
    intro d hr hopen
    rw [exec_holdReceive hn hopen]
    exact if_neg fun h => hr h.1
  case missing =>
    intro d v hr hopen hv
    have hkept := State.noteHold_commit (s := s) (n := n) d
    rw [exec_holdReceive hn hopen]
    dsimp only
    rw [hkept, if_pos ⟨hr, hopen⟩, hv]
    refine ⟨_, rfl, InRound.commitUp ?_⟩
    rw [InRound, State.ctx_modCtx_self]
    rfl
  case abort =>
    intro d h
    refine congrArg Host.Outcome.next (if_neg ?_)
    rintro ⟨hverdict, hstep⟩
    exact h.elim (· hverdict) (· hstep)
  case kept => exact fun d hverdict hstep => congrArg Host.Outcome.next (if_pos ⟨hverdict, hstep⟩)
  case lost => exact fun d h => s.applyAbort_lost n d.step h
  case pair =>
    intro src port st e g dg hopen halive hup hpairs
    refine (guard_of_true (by rw [halive, hup, hpairs]; rfl) _ _).trans ?_
    exact congrArg (fun t => Host.Outcome.next (State.rootDecide t n)) (State.modCtx_congr (by simp only [Ctx.modCommit, Commit.forStep_open hopen]))
  case query => exact fun src st hstep hverdict => if_pos ⟨hstep, hverdict⟩
  case other => exact fun src st hstep => if_neg fun h => hstep h.1
  case answer => exact fun d v hv hready hopen hq => ⟨exec_decisionAnswer hv hready hopen hq, exec_decisionAnswer hv hready hopen hq⟩

/-- Settles O51: each deadline by its conditions, and what its halt or its new round leaves of the entry. -/
theorem commitClocksReopenQueryAndHalt : Obligations.CommitClocksReopenQueryAndHalt := by
  intro s n hn
  refine ⟨?root, ?member, ?unanswered⟩
  case root =>
    intro hrank hexp hopen hhalt v hv
    rw [exec_commitShotClockExpiry hrank hexp hopen hhalt hv]
    refine ⟨fun hmax => if_neg (Nat.not_lt.mpr hmax), fun hless => ?_⟩
    rw [if_pos hless]
    refine ⟨_, rfl, ?_⟩
    obtain ⟨hcommit, hflag⟩ := (s.reopen n (s.reVote n v)).rootHold_ctx (n := n) 9 (s.reVote n v)
    rw [State.reopen_commit] at hcommit
    exact ⟨by rw [hcommit], by rw [hcommit], hflag⟩
  case member =>
    intro f v hf hexp hopen hhalt hq hrank hv
    rw [exec_memberCommitClockExpiry hf hexp hopen hhalt hq hrank hv]
    exact ⟨fun hready => if_pos hready, fun hready => if_neg (by rw [hready]; exact Bool.false_ne_true)⟩
  case unanswered =>
    intro f v hf hv hq hopen hhalt hexp
    refine ⟨_, exec_decisionQueryTimeout hf hv hq hopen hhalt hexp, ?_⟩
    rw [State.ctx_huddleDeadline, State.ctx_modCtx_self, State.haltCommit_ctx hf]
    refine ⟨rfl, rfl, rfl, ?_⟩
    change (((s.ctx n).modQueue f.queue fun q => { q with halt := .memberDeadline }).queue f.queue).halt = .memberDeadline
    rw [Ctx.queue_modQueue_self]

/-- Settles O52: each command by what it asks of the context that the page selects. -/
theorem hostResolvesTheStep : Obligations.HostResolvesTheStep := by
  intro s
  refine ⟨?resolve, exec_resolve_locked, ?redigest, ?done, ?step, ?scale, ?scalelocked⟩
  case resolve => exact fun hres => ⟨fun hund => ⟨fun v hv => exec_completeCommit hres hund hv, exec_discardVote hres hund⟩, exec_resolve_decided hres⟩
  case redigest => exact ⟨_, rfl, by rw [State.ctx_modCtx_self], by simp⟩
  case done =>
    intro n _ h
    refine ⟨_, guard_of_true h _ _, ?_, ?_, ?_, by simp⟩ <;> rw [State.ctx_modCtx_self]
  case step =>
    intro n v _
    rw [exec_updStepWrite]
    refine ⟨fun h => ⟨_, if_pos (Ctx.quiet_of h), by rw [State.ctx_modCtx_self], by simp⟩, fun hq hne => ?_, fun hq heq => ?_⟩ <;> rw [hq]
    · exact if_neg hne
    · exact if_pos heq
  case scale =>
    intro n e g _ hq
    rw [exec_lossScaleWrite]
    exact ⟨_, if_pos hq, by rw [State.ctx_modCtx_self], by rw [State.ctx_modCtx_self], by rw [State.ctx_modCtx_self], by simp⟩
  case scalelocked =>
    intro n e g hq
    rw [exec_lossScaleWrite, hq]
    rw [if_neg Bool.false_ne_true]
    refine ⟨fun hne => if_neg ?_, fun he hg => if_pos ⟨he, hg⟩⟩
    rintro ⟨he, hg⟩
    exact hne.elim (· he) (· hg)
end


section
/-! PROOFS. Pre-emption: restart points, spill, yield and fill (R115, R167, R179 to R188). -/

namespace Sys2Proof.Machine

/-! ## What is told to the host -/

/-- While a port is active, everything told stays told, in its order, and the ports stay as they are. -/
structure Tells (s t : State) : Prop where
  host : s.host.noneActive = false → t.host = s.host
  out : s.host.noneActive = false → s.out <:+ t.out

namespace Tells
variable {s t u : State}

theorem refl : Tells s s := ⟨fun _ => rfl, fun _ => List.suffix_rfl⟩

theorem trans (h : Tells s t) (h' : Tells t u) : Tells s u :=
  ⟨fun ha => (h'.host (by rw [h.host ha]; exact ha)).trans (h.host ha), fun ha => (h.out ha).trans (h'.out (by rw [h.host ha]; exact ha))⟩

theorem of_only {fs : List Part} (h : Only fs s t) (hp : Part.out ∉ fs ∧ Part.host ∉ fs) : Tells s t :=
  ⟨fun _ => h .host hp.2, fun _ => by rw [show t.out = s.out from h .out hp.1]⟩

theorem ite {p : Prop} [Decidable p] (h : Tells s t) (h' : Tells s u) : Tells s (if p then t else u) := by
  split
  · exact h
  · exact h'

theorem emit (h : Tells s t) (o : Out) : Tells s (t.emit o) := h.trans ⟨fun _ => rfl, fun _ => List.suffix_cons o t.out⟩

theorem raise (h : Tells s t) (v : Nat) : Tells s (t.raise v) := by
  refine h.trans ⟨fun ha => ?_, fun ha => ?_⟩ <;> rw [State.raise, if_neg (by rw [ha]; exact Bool.false_ne_true)]
  · rfl
  · exact List.suffix_cons _ _

theorem setLedger (h : Tells s t) (l : Ledger) : Tells s (t.setLedger l) := h.trans ⟨fun _ => rfl, fun _ => List.suffix_rfl⟩

theorem fatalLow (h : Tells s t) (before : Nat) : Tells s (t.fatalLow before) := .ite (h.raise 244) h

theorem dropRec (h : Tells s t) (sev : Nat) : Tells s (t.dropRec sev) := (h.setLedger _).raise 243

theorem writeRec (h : Tells s t) (r : Rec) : Tells s (t.writeRec r) := by
  unfold State.writeRec
  split
  · exact h.dropRec _
  · refine .ite (.fatalLow ?_ _) (h.setLedger _)
    exact ((h.setLedger _).raise 240).trans ⟨fun _ => rfl, fun _ => List.suffix_rfl⟩

theorem admitRec (h : Tells s t) (ch : Nat) (r : Rec) : Tells s (t.admitRec ch r) :=
  .ite (h.setLedger _) (.ite (.ite (h.dropRec _) (h.setLedger _)) (h.writeRec r))

theorem record (h : Tells s t) (ch : Nat) (o : Offer) : Tells s (t.record ch o) := by
  unfold State.record
  dsimp only
  refine .ite h (.ite ((h.setLedger _).admitRec ..) ?_)
  split
  · split
    · exact h.setLedger _
    · exact (h.setLedger _).admitRec ..
  · exact .ite (h.setLedger _) (((h.setLedger _).setLedger _).admitRec ..)
  · exact (h.setLedger _).admitRec ..

theorem log (h : Tells s t) (ch code sev cls st si : Nat) (p : List Byte) : Tells s (t.log ch code sev cls st si p) := h.record ch _

theorem modCtx (h : Tells s t) (n : Nat) (f : Ctx → Ctx) : Tells s (t.modCtx n f) :=
  h.trans (of_only ((State.modCtx_only (ps := [.ctx0, .ctx1]) (by decide) n f).mpr .refl) (by decide))

theorem loseCtx (h : Tells s t) (n cause q qindex seq : Nat) (keep : Bool) : Tells s (t.loseCtx n cause q qindex seq keep) := by
  have hstop : Tells s ((t.abortTags n).stopEngines n) :=
    Tells.trans (List.foldlRecOn (motive := fun u => Tells s u) _ _ h fun u hu g _ => hu.emit _)
      (of_only ((State.stopEngines_only (ps := [.squads, .chans]) (by decide) n).mpr .refl) (by decide))
  exact .ite h (((hstop.modCtx n _).log ..).raise _)

/-- A vector raised while a port is active is the last thing told. -/
theorem head_raise (ha : s.host.noneActive = false) (v : Nat) : (s.raise v).out = .vector s.host.active v :: s.out := by
  rw [State.raise, if_neg (by rw [ha]; exact Bool.false_ne_true)]
  rfl

end Tells

/-! ## Restart points (R115, R167, R181) -/

section
variable {s : State} {n sq : Nat}

/-- An entry of a table is its default or listed. -/
theorem tget_default_or_mem {α : Type} (z : α) (l : Tbl α) (k : Nat) : tget z l k = z ∨ ∃ e ∈ l, e.2 = tget z l k := by
  induction l with
  | nil => exact .inl rfl
  | cons e l ih =>
    simp only [tget]
    split
    · exact .inr ⟨e, List.mem_cons_self, rfl⟩
    · exact ih.imp_right fun ⟨x, hx, heq⟩ => ⟨x, List.mem_cons_of_mem _ hx, heq⟩

/-- The walkers that run work of a context stand at its beginning, and no record of the context waits. -/
structure AtBeginning (n : Nat) (q : Squad) : Prop where
  walkers : ∀ k, (tget Walker.reset q.walkers k).state = .running → (tget Walker.reset q.walkers k).ctx = n → (tget Walker.reset q.walkers k).pc = 0
  records : ∀ k r, r ∈ tget [] q.fifo k → r.ctx ≠ n

/-- Without the walkers and records of a context. -/
theorem atBeginning_filter {q : Squad} (w : Tbl Walker) (f : Tbl (List StreamRec)) (hw : q.walkers = w.filter fun e => e.2.ctx != n)
    (hf : q.fifo = (f.map fun e => (e.1, e.2.filter fun r => r.ctx != n)).filter fun e => !e.2.isEmpty) : AtBeginning n q := by
  refine ⟨fun k hrun hctx => ?_, fun k r hr => ?_⟩
  · obtain hreset | ⟨e, he, heq⟩ := tget_default_or_mem Walker.reset q.walkers k
    · rw [hreset] at hrun
      exact absurd hrun (by decide)
    · rw [hw] at he
      have hne := (List.mem_filter.mp he).2
      rw [heq, hctx] at hne
      simp at hne
  · obtain hnil | ⟨e, he, heq⟩ := tget_default_or_mem [] q.fifo k
    · rw [hnil] at hr
      exact absurd hr List.not_mem_nil
    · rw [hf] at he
      obtain ⟨x, -, rfl⟩ := List.mem_map.mp (List.mem_filter.mp he).1
      rw [← heq] at hr
      simpa using (List.mem_filter.mp hr).2

/-- A walker that is given work begins it or goes on with its own. -/
theorem Walker.give_cases (k : Walker) (j : WJob) : (k.give j).pc = 0 ∨ (k.give j).state = k.state ∧ (k.give j).ctx = k.ctx ∧ (k.give j).pc = k.pc := by
  unfold Walker.give
  split
  · exact .inl rfl
  · exact .inl rfl
  · exact .inr ⟨rfl, rfl, rfl⟩

theorem AtBeginning.give {q : Squad} (h : AtBeginning n q) (w : Nat) (j : WJob) :
    AtBeginning n { q with walkers := tins w ((tget Walker.reset q.walkers w).give j) q.walkers } := by
  refine ⟨fun k hrun hctx => ?_, h.records⟩
  obtain rfl | hne := eq_or_ne k w
  · rw [tget_tins_self] at hrun hctx ⊢
    obtain hzero | ⟨hstate, hown, hpc⟩ := Walker.give_cases (tget Walker.reset q.walkers k) j
    · exact hzero
    · exact hpc.trans (h.walkers k (hstate ▸ hrun) (hown ▸ hctx))
  · rw [tget_tins_ne _ _ _ _ _ hne] at hrun hctx ⊢
    exact h.walkers k hrun hctx

theorem State.startWalkers_atBeginning (h : AtBeginning n (s.squad sq)) (m seq item tile group part stage : Nat) :
    AtBeginning n ((s.startWalkers sq m seq item tile group part stage).squad sq) := by
  unfold State.startWalkers
  dsimp only
  split
  · exact h
  · refine List.foldlRecOn (motive := fun u : State => AtBeginning n (u.squad sq)) _ _ h fun u hu w _ => ?_
    split
    · exact hu
    · rw [State.squad_modSquad_self]
      exact hu.give w _

theorem State.resetWalkers_atBeginning (s : State) (sq n : Nat) : AtBeginning n ((s.resetWalkers sq n).squad sq) := by
  unfold State.resetWalkers
  dsimp only
  refine List.foldlRecOn (motive := fun u : State => AtBeginning n (u.squad sq)) _ _ ?_ fun u hu j _ => ?_
  · rw [State.squad_modSquad_self]
    exact atBeginning_filter (s.squad sq).walkers (s.squad sq).fifo rfl rfl
  · split
    · exact u.startWalkers_atBeginning hu ..
    · exact u.startWalkers_atBeginning hu ..

theorem State.dma_putStatus_state (c d : Nat) (x : Xfer) (w : List Byte) : ((s.putStatus c d x w).dma c d).state = (s.dma c d).state := by
  have hword := congrArg Dma.state (State.dma_modDma (s := s) c d fun k => { k with sw := w })
  unfold State.putStatus
  split
  · rw [State.modFlight, State.dma, State.chan_modCtx]
    exact hword
  · exact hword

/-- A transfer that stops leaves its channel stopped. -/
theorem State.dmaStop_state (s : State) (c d : Nat) (x : Xfer) (state flags ftype va : Nat) : ((s.dmaStop c d x state flags ftype va).dma c d).state = 2 := by
  have hstop : ∀ (y : Xfer) (r : Bool) (w : List Byte),
      (((s.modDma c d fun k => { k with state := 2, xfer := some y, restartable := r }).putStatus c d y w).dma c d).state = 2 := fun y r w => by
    rw [State.dma_putStatus_state, State.dma_modDma]
  unfold State.dmaStop
  dsimp only
  split
  · rw [State.dma, chan_of_only ((State.log_only (ps := [.out, .ledger, .host, .watch]) (by decide) ..).mpr .refl) (by decide)]
    exact hstop ..
  · exact hstop ..

theorem exec_engineRestartPoint {e : Engine} (h : e ∈ (s.ctx n).stopping) :
    exec (.engineRestartPoint n e) s = .next ((s.atRestart n e).modCtx n fun c => { c with stopping := c.stopping.filter (· ≠ e) }) := by
  have hfilter : (fun x : Engine => x != e) = fun x => decide (x ≠ e) := by
    funext x
    by_cases hx : x = e <;> simp [hx]
  refine (guard_of_true (List.contains_iff_mem.mpr h) _ _).trans ?_
  rw [hfilter]

theorem exec_engineRestartPoint_other {e : Engine} (h : e ∉ (s.ctx n).stopping) : exec (.engineRestartPoint n e) s = .next s :=
  guard_of_false (by simpa using h) _ _

end

/-! ## Spill, yield and fill (R183 to R188) -/

section
variable {s t : State}

/-- What stays marked of the routine context when it is lost. -/
theorem State.loseCtx_ctx (s : State) (n cause q qindex seq : Nat) (keep : Bool) :
    (s.loseCtx n cause q qindex seq keep).ctx n = s.ctx n ∨ (s.loseCtx n cause q qindex seq keep).ctx n = (s.ctx n).lose keep := by
  unfold State.loseCtx
  split
  · exact .inl rfl
  · dsimp only
    have hstop : ((s.abortTags n).stopEngines n).ctx n = s.ctx n := ctx_of_only (fs := [.out, .squads, .chans]) (by simp) (by decide) n
    rw [State.ctx_raise, State.ctx_log, State.ctx_modCtx_self, hstop]
    exact .inr rfl

/-- The spill's marks of a context: pre-empted, spilled, filling. -/
def Ctx.marks (c : Ctx) : Bool × Bool := (c.preempted, c.spilled)

theorem State.loseCtx_marks (s : State) (cause q qindex seq : Nat) (keep : Bool) :
    (s.loseCtx 0 cause q qindex seq keep).ctx0.marks = s.ctx0.marks ∧ (s.ctx0.filling = false → (s.loseCtx 0 cause q qindex seq keep).ctx0.filling = false) := by
  have hctx : (s.loseCtx 0 cause q qindex seq keep).ctx0 = s.ctx0 ∨ (s.loseCtx 0 cause q qindex seq keep).ctx0 = s.ctx0.lose keep := s.loseCtx_ctx 0 ..
  obtain h | h := hctx <;> rw [h]
  · exact ⟨rfl, id⟩
  · exact ⟨rfl, fun _ => rfl⟩

theorem State.spillFault_marks (s : State) (r : FlogRec) : (s.spillFault r).ctx0.marks = s.ctx0.marks ∧ (s.spillFault r).ctx0.lost = true ∧
    (s.ctx0.filling = false → (s.spillFault r).ctx0.filling = false) := by
  have hlog : ((s.modCtx 0 (·.flogAdd r)).log r.chan 0x2001 0 0 r.srcType r.srcInst (FlogRec.bytes r)).ctx0 = s.ctx0.flogAdd r :=
    (State.ctx_log _ 0 ..).trans (State.ctx_modCtx_self s 0 _)
  have hadd : (s.ctx0.flogAdd r).marks = s.ctx0.marks ∧ (s.ctx0.flogAdd r).filling = s.ctx0.filling := by
    unfold Ctx.flogAdd
    split <;> exact ⟨rfl, rfl⟩
  obtain ⟨hmarks, hfill⟩ := State.loseCtx_marks ((s.modCtx 0 (·.flogAdd r)).log r.chan 0x2001 0 0 r.srcType r.srcInst (FlogRec.bytes r)) 6 0 0 0 false
  rw [hlog] at hmarks hfill
  exact ⟨hmarks.trans hadd.1, (State.loseCtx_lost _ 0 6 0 0 0 false).1, fun h => hfill (hadd.2.trans h)⟩

theorem Tells.spillFault (h : Tells s t) (r : FlogRec) : Tells s (t.spillFault r) := ((h.modCtx 0 _).log ..).loseCtx ..

theorem State.spillFault_keeps (s : State) (r : FlogRec) : Only [.out, .ctx0, .ctx1, .squads, .chans, .ledger, .host, .watch] s (s.spillFault r) :=
  (State.spillFault_only (by decide) r).mpr .refl

/-- The routine context is pre-empted with its array work kept. -/
def State.keepRoutine (s : State) : State := ((s.eachSquad Squad.keepArr).modCtx 0 fun c => { c with preempted := true, spilled := true }).raise 166

/-- The routine context after the last stop: its copy is made, stands already, or cannot be made. -/
def State.spillTurn (s : State) : State :=
  if s.ctx0.spilled then s.keepRoutine
  else match (s.eachSquad Squad.keepArr).copyFault true with
    | some r => s.keepRoutine.spillFault r
    | none => s.keepRoutine.spillAll

theorem exec_spillComplete (hreq : s.ctx1.request = true) (hstop : s.ctx0.stopping = []) (hstart : s.ctx0.started = true) :
    exec .spillComplete s = .next s.spillTurn.urgentRuns := by
  change execSpillComplete s = _
  unfold execSpillComplete
  rw [if_neg (by simp [hreq, hstop]), if_neg (by simp [hstart])]
  dsimp only
  cases hs : s.ctx0.spilled with
  | true => rw [if_pos rfl, State.spillTurn, hs, if_pos rfl, State.keepRoutine]
  | false =>
    rw [if_neg Bool.false_ne_true, State.spillTurn, hs, if_neg Bool.false_ne_true]
    cases hc : (s.eachSquad Squad.keepArr).copyFault true with
    | none => rfl
    | some r => rfl

theorem State.keepRoutine_facts (s : State) : Tells s s.keepRoutine ∧ s.keepRoutine.ctx0.marks = (true, true) ∧ s.keepRoutine.hbm = s.hbm ∧
    s.keepRoutine.store = s.store := by
  have honly : Only [.out, .ctx0, .ctx1, .squads, .host] s s.keepRoutine := by
    unfold State.keepRoutine
    simp
  refine ⟨.raise (.modCtx (.of_only ((State.eachSquad_only (ps := [.squads]) (by decide) _).mpr .refl) (by decide)) ..) _, ?_,
    honly .hbm (by decide), honly .store (by decide)⟩
  have hctx : s.keepRoutine.ctx0 = { (s.eachSquad Squad.keepArr).ctx0 with preempted := true, spilled := true } :=
    (State.ctx_raise _ 0 166).trans (State.ctx_modCtx_self _ 0 _)
  rw [hctx]
  rfl

/-- What the last stop leaves of the routine context and the memories. -/
theorem State.spillTurn_facts (s : State) : Tells s s.spillTurn ∧ s.spillTurn.ctx0.marks = (true, true) ∧ s.spillTurn.store = s.store ∧
    ((s.ctx0.spilled = true ∨ ((s.eachSquad Squad.keepArr).copyFault true).isSome = true) → s.spillTurn.hbm = s.hbm) ∧
    (s.ctx0.spilled = false → ((s.eachSquad Squad.keepArr).copyFault true).isSome = true → s.spillTurn.ctx0.lost = true) := by
  obtain ⟨htold, hmarks, hhbm, hstore⟩ := s.keepRoutine_facts
  unfold State.spillTurn
  split
  next hs => exact ⟨htold, hmarks, hstore, fun _ => hhbm, fun h => absurd (hs.symm.trans h) (by decide)⟩
  next hs =>
    split
    next r hr =>
      have honly := s.keepRoutine.spillFault_keeps r
      obtain ⟨hfault, hlost, -⟩ := s.keepRoutine.spillFault_marks r
      exact ⟨htold.spillFault r, hfault.trans hmarks, (honly .store (by decide)).trans hstore, fun _ => (honly .hbm (by decide)).trans hhbm, fun _ _ => hlost⟩
    next hr =>
      have honly : Only [.hbm, .squads, .chans] s.keepRoutine s.keepRoutine.spillAll := (State.spillAll_only (by decide)).mpr .refl
      refine ⟨htold.trans (.of_only honly (by decide)), ?_, (honly .store (by decide)).trans hstore, fun h => ?_, fun _ h => absurd (hr ▸ h) (by decide)⟩
      · exact (congrArg Ctx.marks (honly .ctx0 (by decide))).trans hmarks
      · exact absurd h (by simp [hs, hr])

/-- The urgent context runs, and the vector that says so is the last thing told. -/
theorem State.urgentRuns_facts (s : State) : s.urgentRuns.ctx1.running = true ∧ s.urgentRuns.ctx1.request = false ∧ s.urgentRuns.ctx0 = s.ctx0 ∧
    s.urgentRuns.store = s.store ∧ s.urgentRuns.hbm = s.hbm ∧ (s.host.noneActive = false → s.urgentRuns.out.head? = some (.vector s.host.active 174)) := by
  have hctx1 : s.urgentRuns.ctx1 = { s.ctx1 with running := true, request := false, yielding := false, yielded := false, pendingQ := 0 } :=
    (State.ctx_raise _ 1 174).trans (State.ctx_modCtx_self s 1 _)
  have hctx0 : s.urgentRuns.ctx0 = s.ctx0 := State.ctx_raise _ 0 174
  have honly : Only [.out, .ctx0, .ctx1, .host] s s.urgentRuns := (State.raise_only (by decide) 174).mpr ((State.modCtx_only (by decide) 1 _).mpr .refl)
  refine ⟨by rw [hctx1], by rw [hctx1], hctx0, honly .store (by decide), honly .hbm (by decide), fun ha => ?_⟩
  exact congrArg List.head? (Tells.head_raise (s := s.modCtx 1 _) (by rw [State.modCtx_host]; exact ha) 174)

theorem State.stopping_of_spilling (h : s.spilling = true) : s.ctx0.stopping = [] := by
  simp only [State.spilling, Bool.and_eq_true, List.isEmpty_iff] at h
  obtain ⟨⟨⟨-, hstop⟩, -⟩, -⟩ := h
  exact hstop

/-- The urgent context is not touched where the routine one is lost. -/
theorem State.loseCtx_routine (s : State) (cause q qindex seq : Nat) (keep : Bool) : (s.loseCtx 0 cause q qindex seq keep).ctx1 = s.ctx1 := by
  unfold State.loseCtx
  split
  · rfl
  · dsimp only
    have hstop : ((s.abortTags 0).stopEngines 0).ctx 1 = s.ctx 1 := ctx_of_only (fs := [.out, .squads, .chans]) (by simp) (by decide) 1
    refine (State.ctx_raise _ 1 _).trans ((State.ctx_log _ 1 ..).trans ?_)
    rw [State.ctx_modCtx_ne _ (by decide) (by decide) (by decide)]
    exact hstop

/-- The urgent context has yielded, and the routine one's fill begins. -/
def State.yielded (s : State) : State :=
  ((s.modCtx 1 fun c => { c with pendingQ := c.waitingMap, running := false, yielding := false, yielded := true }).modCtx 0
    fun c => { c with filling := c.preempted }).raise 174

theorem State.yielded_facts (s : State) : s.yielded.ctx0 = { s.ctx0 with filling := s.ctx0.preempted } ∧
    s.yielded.ctx1 = { s.ctx1 with pendingQ := s.ctx1.waitingMap, running := false, yielding := false, yielded := true } ∧
    (s.host.noneActive = false → s.yielded.out = .vector s.host.active 174 :: s.out) := by
  refine ⟨State.ctx_raise _ 0 174, State.ctx_raise _ 1 174, fun ha => ?_⟩
  exact Tells.head_raise (by rw [State.modCtx_host, State.modCtx_host]; exact ha) 174

theorem exec_yieldTakesEffect (hy : s.ctx1.yielding = true) (hf : ∀ f, f ∈ s.ctx1.flight → f.phase = .admitted ∨ f.phase = .ready) :
    exec .yieldTakesEffect s = .next s.yielded := by
  change execYieldTakesEffect s = _
  unfold execYieldTakesEffect
  refine if_neg ?_
  rw [hy, Bool.not_true, Bool.false_or, List.any_eq_true]
  rintro ⟨f, hmem, hne⟩
  obtain h | h := hf f hmem <;> rw [h] at hne <;> exact absurd hne (by decide)

/-- The routine context before its copy is read back. -/
def State.unspilled (s : State) : State := (s.modCtx 0 fun c => { c with preempted := false, filling := false, spilled := false }).raise 166

/-- The routine context goes on with its array work, and with its copy where one was spilled. -/
def State.fillBack (s : State) : State :=
  let u := (if s.ctx0.spilled then s.unspilled.fillAll else s.unspilled).eachSquad Squad.backArr
  if s.ctx0.suspended || s.ctx0.lost then u else u.restartEngines 0

/-- The routine context after the fill: back, or lost where its copy cannot be read. -/
def State.fillTurn (s : State) : State :=
  match (if s.ctx0.spilled then s.copyFault false else none) with
  | some r => s.unspilled.spillFault r
  | none =>
    if s.ctx0.spilled && s.spillPages.any (fun e => s.fillBad e.1 e.2) then s.unspilled.loseCtx 0 6 0 0 0 false
    else s.fillBack

theorem exec_fillComplete (h : s.ctx0.filling = true) : exec .fillComplete s = .next s.fillTurn := by
  change execFillComplete s = _
  unfold execFillComplete State.fillTurn
  rw [if_neg (by simp [h])]
  dsimp only
  cases hc : (if s.ctx0.spilled then s.copyFault false else none) with
  | some r => rfl
  | none => exact (apply_ite Host.Outcome.next _ _ _).symm

/-- What a fill leaves, whatever becomes of the copy. -/
structure Filled (s t : State) : Prop where
  told : Tells s.unspilled t
  marks : t.ctx0.marks = (false, false)
  filling : t.ctx0.filling = false
  hbm : t.hbm = s.hbm

theorem State.unspilled_ctx0 (s : State) : s.unspilled.ctx0 = { s.ctx0 with preempted := false, filling := false, spilled := false } :=
  (State.ctx_raise _ 0 166).trans (State.ctx_modCtx_self s 0 _)

theorem State.unspilled_keeps (s : State) : Only [.out, .ctx0, .ctx1, .host] s s.unspilled := by
  unfold State.unspilled
  simp

theorem State.unspilled_filled (s : State) : Filled s s.unspilled :=
  ⟨.refl, by rw [s.unspilled_ctx0]; rfl, by rw [s.unspilled_ctx0], s.unspilled_keeps .hbm (by decide)⟩

theorem Filled.of_only {fs : List Part} {u : State} (h : Filled s t) (hu : Only fs t u) (hp : Part.out ∉ fs ∧ Part.host ∉ fs ∧ Part.ctx0 ∉ fs ∧ Part.hbm ∉ fs) :
    Filled s u := by
  have hctx : u.ctx0 = t.ctx0 := hu .ctx0 hp.2.2.1
  exact ⟨h.told.trans (.of_only hu ⟨hp.1, hp.2.1⟩), by rw [hctx]; exact h.marks, by rw [hctx]; exact h.filling, (hu .hbm hp.2.2.2).trans h.hbm⟩

theorem Filled.restart (h : Filled s t) : Filled s (t.restartEngines 0) := by
  have honly : Only [.ctx0, .ctx1, .chans] t (t.restartEngines 0) := (State.restartEngines_only (by decide) 0).mpr .refl
  exact ⟨h.told.trans (.of_only honly (by decide)), h.marks, h.filling, (honly .hbm (by decide)).trans h.hbm⟩

theorem State.fillBack_filled (s : State) : Filled s s.fillBack := by
  have hread : Only [.store, .squads] s.unspilled (if s.ctx0.spilled then s.unspilled.fillAll else s.unspilled) := by
    split
    · exact (State.fillAll_only (by decide)).mpr .refl
    · exact .refl
  have hback := s.unspilled_filled.of_only ((State.eachSquad_only (by decide) Squad.backArr).mpr hread) (by decide)
  unfold State.fillBack
  dsimp only
  split
  · exact hback
  · exact hback.restart

theorem State.fillBack_store (s : State) (hs : s.ctx0.spilled = false) : s.fillBack.store = s.store := by
  have hback : Only [.out, .ctx0, .ctx1, .host, .squads] s (s.unspilled.eachSquad Squad.backArr) :=
    (State.eachSquad_only (by decide) _).mpr (Only.mono s.unspilled_keeps (by decide))
  unfold State.fillBack
  dsimp only
  rw [hs, if_neg Bool.false_ne_true]
  split
  · exact hback .store (by decide)
  · have hrestart : Only [.ctx0, .ctx1, .chans] (s.unspilled.eachSquad Squad.backArr) _ := (State.restartEngines_only (by decide) 0).mpr .refl
    exact (hrestart .store (by decide)).trans (hback .store (by decide))

/-- The spill area's copy faults or cannot be read. -/
def State.copyLost (s : State) : Prop := (s.copyFault false).isSome = true ∨ s.spillPages.any (fun e => s.fillBad e.1 e.2) = true

theorem State.fillTurn_facts (s : State) : Filled s s.fillTurn ∧ (s.ctx0.spilled = false → s.fillTurn.store = s.store) ∧
    (s.ctx0.spilled = true → s.copyLost → s.fillTurn.ctx0.lost = true ∧ s.fillTurn.store = s.store) := by
  have hstore : s.unspilled.store = s.store := s.unspilled_keeps .store (by decide)
  obtain ⟨-, hmarks, hfilling, hhbm⟩ := s.unspilled_filled
  unfold State.fillTurn
  split
  next r hr =>
    have honly := s.unspilled.spillFault_keeps r
    obtain ⟨hfault, hlost, hfill⟩ := s.unspilled.spillFault_marks r
    have hkept : (s.unspilled.spillFault r).store = s.store := (honly .store (by decide)).trans hstore
    exact ⟨⟨Tells.refl.spillFault r, hfault.trans hmarks, hfill hfilling, (honly .hbm (by decide)).trans hhbm⟩, fun _ => hkept, fun _ _ => ⟨hlost, hkept⟩⟩
  next hr =>
    split
    next hbad =>
      have honly : Only [.out, .ctx0, .ctx1, .squads, .chans, .ledger, .host, .watch] s.unspilled (s.unspilled.loseCtx 0 6 0 0 0 false) :=
        (State.loseCtx_only (by decide) 0 6 0 0 0 false).mpr .refl
      obtain ⟨hlose, hfill⟩ := s.unspilled.loseCtx_marks 6 0 0 0 false
      have hkept : (s.unspilled.loseCtx 0 6 0 0 0 false).store = s.store := (honly .store (by decide)).trans hstore
      exact ⟨⟨Tells.refl.loseCtx .., hlose.trans hmarks, hfill hfilling, (honly .hbm (by decide)).trans hhbm⟩, fun _ => hkept,
        fun _ _ => ⟨(s.unspilled.loseCtx_lost 0 6 0 0 0 false).1, hkept⟩⟩
    next hgood =>
      refine ⟨s.fillBack_filled, s.fillBack_store, fun hs hlost => ?_⟩
      rw [hs] at hr hgood
      rw [if_pos rfl] at hr
      simp only [State.copyLost, hr, Option.isSome_none, Bool.false_eq_true, false_or] at hlost
      simp [hlost] at hgood

end

end Sys2Proof.Machine

open Sys2Proof Sys2Proof.Machine

/-- Settles O20: what each engine drops at its restart point, and what spill, yield and fill leave of both contexts, the memories and what is told. -/
theorem preemptionStopsSpillsAndFills : Obligations.PreemptionStopsSpillsAndFills := by
  refine ⟨fun s n e => ⟨exec_engineRestartPoint_other, fun h => ⟨_, exec_engineRestartPoint h, rfl, ?walkers, ?records, ?dma, ?tag, ?updown, ?upother, ?still⟩⟩,
    fun s => ⟨?lead, ?spill, ?stopping, ?unread, ?yield, ?noyield, ?yields, ?fill⟩⟩
  case walkers =>
    rintro sq rfl k
    rw [State.squad_modCtx]
    exact (State.resetWalkers_atBeginning ..).walkers k
  case records =>
    rintro sq rfl k
    rw [State.squad_modCtx]
    exact (State.resetWalkers_atBeginning ..).records k
  case dma =>
    rintro c d x rfl hstate hx hctx hseq
    rw [State.dma, State.chan_modCtx]
    unfold State.atRestart
    dsimp only
    rw [hstate, hx]
    simp only [hctx, hseq, and_self, if_true]
    exact s.dmaStop_state c d x 5 8 0 0
  case tag =>
    rintro tag g rfl hfind x hx
    rw [State.modCtx_net] at hx
    unfold State.atRestart at hx
    dsimp only at hx
    rw [hfind] at hx
    exact (s.abortTag_done n tag (g.epoch + 1) 0xFF).1 x hx
  case updown =>
    rintro sq u rfl hu hctx
    rw [State.squad_modCtx, State.atRestart, State.squad_modSquad_self, hu]
    exact if_pos hctx
  case upother =>
    rintro sq u rfl hu hctx
    rw [State.squad_modCtx, State.atRestart, State.squad_modSquad_self, hu]
    exact if_neg hctx
  case still =>
    rintro (⟨sq, rfl⟩ | ⟨sq, rfl⟩ | ⟨q, rfl⟩) <;> rfl
  case lead =>
    intro q d hd hknown hne hlow hhigh
    change execPreemptNbtLead q s = _
    rw [execPreemptNbtLead, hd]
    exact guard_of_true (by rw [hknown, decide_eq_true hlow, decide_eq_true hhigh]; simpa using hne) _ _
  case spill =>
    intro hreq hstop hstart
    obtain ⟨htold, hmarks, hstore, hhbm, hlost⟩ := s.spillTurn_facts
    obtain ⟨hrun, hnoreq, hctx0, hkept, hmem, hvec⟩ := s.spillTurn.urgentRuns_facts
    refine ⟨_, exec_spillComplete hreq hstop hstart, hrun, hnoreq, hkept.trans hstore, fun ha => ?_, fun _ => ?_, fun h => hmem.trans (hhbm h), fun h h' => ?_⟩
    · rw [← htold.host ha]
      exact hvec (by rw [htold.host ha]; exact ha)
    · rw [hctx0]
      exact ⟨congrArg Prod.fst hmarks, congrArg Prod.snd hmarks⟩
    · rw [hctx0]
      exact hlost h h'
  case stopping =>
    intro hne
    exact if_pos (by simp [hne])
  case unread =>
    intro sq h hs
    have hunread : s.spillUnread (.fetch sq) (some h) = true := by rw [State.spillUnread, hs]; rfl
    have hstop : s.ctx0.stopping = [] := State.stopping_of_spilling hs
    refine ⟨_, if_pos hunread, rfl, (s.loseCtx_lost 0 6 0 0 0 false).1, ?_, ?_⟩
    · obtain h | h := s.loseCtx_ctx 0 6 0 0 0 false
      · exact (congrArg Ctx.stopping h).trans hstop
      · exact congrArg Ctx.stopping h
    · exact s.loseCtx_routine 6 0 0 0 false
  case yield => exact fun hrun => if_neg (by simp [hrun])
  case noyield => exact fun hrun => if_pos (by simp [hrun])
  case yields =>
    intro hy hf
    obtain ⟨hctx0, hctx1, hout⟩ := s.yielded_facts
    refine ⟨_, exec_yieldTakesEffect hy hf, ?_, ?_, ?_, ?_, hout⟩
    · rw [hctx1]
    · rw [hctx1]
    · rw [hctx1]
    · rw [hctx0]
  case fill =>
    intro hfilling
    obtain ⟨⟨htold, hmarks, hdone, hhbm⟩, hstore, hlost⟩ := s.fillTurn_facts
    refine ⟨_, exec_fillComplete hfilling, hdone, congrArg Prod.fst hmarks, congrArg Prod.snd hmarks, hhbm, hstore, fun ha => ?_, hlost⟩
    have hvec : s.unspilled.out = .vector s.host.active 166 :: s.out := Tells.head_raise (s := s.modCtx 0 _) (by rw [State.modCtx_host]; exact ha) 166
    have hhost : s.unspilled.host = s.host := (Tells.refl.modCtx 0 _ |>.raise 166).host ha
    exact (htold.out (by rw [hhost]; exact ha)).subset (by rw [hvec]; exact List.mem_cons_self)
end


section
/-! PROOFS. Loads that wait for their users, and doorbells (R80, R92, R179, R242, R265, R348). -/

namespace Sys2Proof.Machine

section
variable {s : State} {n : Nat}

/-! ## Functions, update programs and step plans -/

/-- Without a walk library that waits, what the loads that wait leave of the context. -/
theorem State.settle_loads (h : (s.ctx n).libWait = []) :
    ((s.settle n).ctx n).fns = ((s.ctx n).fnWait.filter fun e => !((s.ctx n).busyDescs.any (usesFn e.1))).foldl (fun t e => tins e.1 e.2 t) (s.ctx n).fns ∧
    ((s.settle n).ctx n).fnWait = (s.ctx n).fnWait.filter (fun e => !(!((s.ctx n).busyDescs.any (usesFn e.1)))) ∧
    ((s.settle n).ctx n).updProgs =
      ((s.ctx n).updWait.filter fun e => !((s.ctx n).busyDescs.any (usesProg e.1))).foldl (fun t e => tins e.1 e.2 t) (s.ctx n).updProgs ∧
    ((s.settle n).ctx n).updWait = (s.ctx n).updWait.filter (fun e => !(!((s.ctx n).busyDescs.any (usesProg e.1)))) := by
  unfold State.settle
  dsimp only
  rw [h, List.isEmpty_nil, Bool.true_or, if_pos rfl, State.ctx_modCtx_self]
  exact ⟨rfl, rfl, rfl, rfl⟩

/-- A load that waits alone takes its place where nothing uses what it replaces, and waits on where something does. -/
theorem settle_alone {α : Type} (busy : Nat → Bool) (x : Nat × α) (l : Tbl α) :
    (busy x.1 = false → tfind (([x].filter fun e => !busy e.1).foldl (fun t e => tins e.1 e.2 t) l) x.1 = some x.2 ∧ [x].filter (fun e => !(!busy e.1)) = []) ∧
    (busy x.1 = true → ([x].filter fun e => !busy e.1).foldl (fun t e => tins e.1 e.2 t) l = l ∧ [x].filter (fun e => !(!busy e.1)) = [x]) := by
  refine ⟨fun h => ?_, fun h => ?_⟩
  · rw [List.filter_cons_of_pos (by simp [h]), List.filter_nil, List.foldl_cons, List.foldl_nil, List.filter_cons_of_neg (by simp [h])]
    exact ⟨tfind_tins_self, rfl⟩
  · rw [List.filter_cons_of_neg (by simp [h]), List.filter_nil, List.foldl_nil, List.filter_cons_of_pos (by simp [h])]
    exact ⟨rfl, rfl⟩

/-- A function record joins those that wait. -/
def Ctx.waitFn (c : Ctx) (e : Nat × FnRecord) : Ctx := { c with fnWait := c.fnWait ++ [e] }

/-- An update program joins those that wait. -/
def Ctx.waitProg (c : Ctx) (e : Nat × UpdProgram) : Ctx := { c with updWait := c.updWait ++ [e] }

theorem settle_function {slot : Nat} {r : FnRecord} (hlib : (s.ctx n).libWait = []) (hwait : (s.ctx n).fnWait = []) :
    let t := (s.modCtx n (·.waitFn (slot, r))).settle n
    ((s.ctx n).busyDescs.any (usesFn slot) = false → tfind (t.ctx n).fns slot = some r ∧ (t.ctx n).fnWait = []) ∧
    ((s.ctx n).busyDescs.any (usesFn slot) = true → (t.ctx n).fns = (s.ctx n).fns ∧ (t.ctx n).fnWait = [(slot, r)]) := by
  obtain ⟨hfns, hrest, -, -⟩ := State.settle_loads (s := s.modCtx n (·.waitFn (slot, r))) (n := n) (by rw [State.ctx_modCtx_self]; exact hlib)
  have halone : ((s.ctx n).waitFn (slot, r)).fnWait = [(slot, r)] := by rw [Ctx.waitFn, hwait, List.nil_append]
  rw [State.ctx_modCtx_self, halone] at hfns hrest
  dsimp only
  rw [hfns, hrest]
  exact settle_alone (fun k => (s.ctx n).busyDescs.any (usesFn k)) (slot, r) (s.ctx n).fns

theorem settle_program {k : Nat} {r : UpdProgram} (hlib : (s.ctx n).libWait = []) (hwait : (s.ctx n).updWait = []) :
    let t := (s.modCtx n (·.waitProg (k, r))).settle n
    ((s.ctx n).busyDescs.any (usesProg k) = false → tfind (t.ctx n).updProgs k = some r ∧ (t.ctx n).updWait = []) ∧
    ((s.ctx n).busyDescs.any (usesProg k) = true → (t.ctx n).updProgs = (s.ctx n).updProgs ∧ (t.ctx n).updWait = [(k, r)]) := by
  obtain ⟨-, -, hprogs, hrest⟩ := State.settle_loads (s := s.modCtx n (·.waitProg (k, r))) (n := n) (by rw [State.ctx_modCtx_self]; exact hlib)
  have halone : ((s.ctx n).waitProg (k, r)).updWait = [(k, r)] := by rw [Ctx.waitProg, hwait, List.nil_append]
  rw [State.ctx_modCtx_self, halone] at hprogs hrest
  dsimp only
  rw [hprogs, hrest]
  exact settle_alone (fun j => (s.ctx n).busyDescs.any (usesProg j)) (k, r) (s.ctx n).updProgs

theorem exec_stepPlanLoad (r : StepPlan) : exec (.stepPlanLoad n r) s =
    .next (s.modCtx n fun c => if c.started then { c with planNext := some r } else { c with plan := some r, planNext := none }) := rfl

/-! ## Doorbells -/

/-- Entries written at other keys leave what a key finds. -/
theorem tfind_foldl_tins_of_ne {α : Type} {key : Nat → Nat} {q : Nat} (m k : Nat) (recs : List α) (t : Tbl α) (h : ∀ j, m ≤ j → j < m + k → q ≠ key j) :
    tfind (((List.range' m k).zip recs).foldl (fun t p => tins (key p.1) p.2 t) t) q = tfind t q := by
  induction k generalizing m recs t with
  | zero => rfl
  | succ k ih =>
    cases recs with
    | nil => rfl
    | cons a recs =>
      rw [List.range'_succ, List.zip_cons_cons, List.foldl_cons, ih (m + 1) recs _ fun j hlow hhigh => h j (by omega) (by omega)]
      exact tfind_tins_ne (h m (by omega) (by omega))

/-- Entries written at distinct keys are all found. -/
theorem tfind_foldl_tins {α : Type} {key : Nat → Nat} {r : α} (m k i : Nat) (recs : List α) (t : Tbl α)
    (hkey : ∀ a b, m ≤ a → a < b → b < m + k → key a ≠ key b) (hi : i < k) (hr : recs[i]? = some r) :
    tfind (((List.range' m k).zip recs).foldl (fun t p => tins (key p.1) p.2 t) t) (key (m + i)) = some r := by
  induction k generalizing m i recs t with
  | zero => omega
  | succ k ih =>
    cases recs with
    | nil => simp at hr
    | cons a recs =>
      rw [List.range'_succ, List.zip_cons_cons, List.foldl_cons]
      cases i with
      | zero =>
        have hsame : key (m + 0) = key m := rfl
        rw [hsame, tfind_foldl_tins_of_ne (m + 1) k recs _ fun j hlow hhigh => hkey m j (le_refl m) (by omega) (by omega)]
        have hra : a = r := by simpa using hr
        rw [hra]
        exact tfind_tins_self
      | succ i =>
        rw [show m + (i + 1) = m + 1 + i by omega]
        exact ih (m + 1) i recs _ (fun a b hlow hlt hhigh => hkey a b (by omega) hlt (by omega)) (by omega) (by simpa using hr)

theorem Queue.accept_ring {x : Queue} {tail i : Nat} {wrap : Bool} {recs : List Descriptor} {r : Descriptor} (hok : x.refuses tail wrap = false)
    (hr : recs[i]? = some r) (hi : i < (x.accept tail wrap recs).count - x.count) :
    tfind (x.accept tail wrap recs).ring ((x.tail + i) % 2 ^ x.log2) = some r := by
  have hcount : (x.accept tail wrap recs).count ≤ 2 ^ x.log2 := by
    simp only [Queue.refuses, Bool.or_eq_false_iff, decide_eq_false_iff_not, Nat.not_lt] at hok
    exact hok.1.2
  have hdistinct : ∀ a b, 0 ≤ a → a < b → b < 0 + ((x.accept tail wrap recs).count - x.count) → (x.tail + a) % 2 ^ x.log2 ≠ (x.tail + b) % 2 ^ x.log2 := by
    intro a b _ hlt hb heq
    have hmod : (b - a) % 2 ^ x.log2 = 0 := by
      have := (Nat.modEq_iff_dvd' (by omega : x.tail + a ≤ x.tail + b)).mp heq
      rw [show b - a = x.tail + b - (x.tail + a) by omega]
      exact Nat.mod_eq_zero_of_dvd this
    rw [Nat.mod_eq_of_lt (by omega)] at hmod
    omega
  have hfind := tfind_foldl_tins (key := fun j => (x.tail + j) % 2 ^ x.log2) 0 ((x.accept tail wrap recs).count - x.count) i recs x.ring hdistinct hi hr
  rw [Nat.zero_add, ← List.range_eq_range'] at hfind
  exact hfind

theorem State.ctx_setRg (s : State) (a v k : Nat) : (s.setRg a v).ctx k = s.ctx k := rfl

/-- A doorbell on the active port whose ring can take its records. -/
theorem exec_hostDoorbell {q tail : Nat} {wrap : Bool} {recs : List Descriptor} (hact : s.host.noneActive = false) (hlost : (s.ctx n).lost = false) :
    exec (.hostDoorbell s.host.active n q tail wrap recs) s =
      let x := (s.ctx n).queue q
      if x.refuses tail wrap then .next ((s.modCtx n fun c => c.modQueue q fun y => { y with overrun := true }).raise (167 + 8 * n))
      else
        let t := (s.modCtx n fun c => c.modQueue q fun y => y.accept tail wrap recs).setRg (pgHOST + 0x200 + 4 * (16 * n + q)) (tail + 2 ^ 20 * b2n wrap)
        .next (if n = 1 && (x.tail != tail || x.tailWrap != wrap) && t.headMayRun q then t.preempt else t) := by
  change execHostDoorbell s.host.active n q tail wrap recs s = _
  rw [execHostDoorbell, if_neg (by simp [hact]), if_neg (by simp [hlost])]

end

end Sys2Proof.Machine

open Sys2Proof Sys2Proof.Machine

/-- Settles O21: a load that waits alone takes its place, or waits on, by whether a busy descriptor uses what it replaces. -/
theorem loadsWaitForTheirUsers : Obligations.LoadsWaitForTheirUsers := by
  intro s n hn
  refine ⟨fun slot r hslot => ⟨_, guard_of_true (beq_iff_eq.mpr hslot) _ _, rfl, ?free, ?busy⟩, fun slot r hslot => guard_of_false (beq_eq_false_iff_ne.mpr hslot) _ _,
    fun k r => ⟨_, rfl, rfl, ?freeProg, ?busyProg⟩, fun r hstart => ?now, fun r hstart => ?next⟩
  case free => exact fun hlib hwait => (settle_function hlib hwait).1
  case busy => exact fun hlib hwait => (settle_function hlib hwait).2
  case freeProg => exact fun hlib hwait => (settle_program hlib hwait).1
  case busyProg => exact fun hlib hwait => (settle_program hlib hwait).2
  case now =>
    rw [exec_stepPlanLoad]
    exact congrArg Host.Outcome.next (State.modCtx_congr (if_neg (by rw [hstart]; exact Bool.false_ne_true)))
  case next =>
    rw [exec_stepPlanLoad]
    exact congrArg Host.Outcome.next (State.modCtx_congr (if_pos hstart))

/-- Settles O22: a doorbell by what the ring can take; the entries it writes lie at distinct places. -/
theorem doorbellsFillTheRing : Obligations.DoorbellsFillTheRing := by
  intro s n q tail wrap recs hn hact
  refine ⟨?lost, fun hlost => ⟨fun hok => ⟨?plain, ?preempts, ?tail, ?wrap, ?head, ?halt, ?others, ?ring⟩, fun hrefuses => ?refused⟩, ?other⟩
  case lost =>
    intro hlost
    change execHostDoorbell s.host.active n q tail wrap recs s = _
    rw [execHostDoorbell, if_neg (by simp [hact]), if_pos hlost]
  case plain =>
    intro h
    rw [exec_hostDoorbell hact hlost]
    dsimp only
    rw [if_neg (by simp [hok]), if_neg]
    obtain rfl | h | ⟨htail, hwrap⟩ := h
    · simp
    · rw [h, Bool.and_false]
      exact Bool.false_ne_true
    · simp [htail, hwrap]
  case preempts =>
    intro hone hmoved hrun
    rw [exec_hostDoorbell hact hlost]
    dsimp only
    rw [if_neg (by simp [hok]), if_pos]
    rw [hrun, decide_eq_true hone]
    simpa using hmoved
  case refused =>
    rw [exec_hostDoorbell hact hlost]
    exact if_pos hrefuses
  case other =>
    change execHostDoorbell (!s.host.active) n q tail wrap recs s = _
    rw [execHostDoorbell, if_pos (by simp)]
  case others =>
    intro p hp
    rw [State.ctx_setRg, State.ctx_modCtx_self, Ctx.queue_modQueue_ne _ _ _ hp]
  case ring =>
    intro i r hr hi
    rw [State.ctx_setRg, State.ctx_modCtx_self, Ctx.queue_modQueue_self] at hi ⊢
    exact Queue.accept_ring hok hr hi
  all_goals rw [State.ctx_setRg, State.ctx_modCtx_self, Ctx.queue_modQueue_self] <;> rfl
end

section
/-! PROOFS. The host's commands to a context: START, RESUME, ABORT, RESET, SKIP, RETRY, flags and ring placement (R92, R97, R101, R109, R170, R179,
R188, R264, R280, R302, R388, R390). -/

namespace Sys2Proof.Machine

/-! ## START -/

section
variable {s : State} {n : Nat}

/-- START is out of place. -/
def State.startRefused (s : State) (n : Nat) : Bool :=
  (s.ctx n).started || !s.dev.ready || !s.up || s.root n % 2 == 0 || rootMalformed (s.root n)

theorem exec_contextStart_refused (h : s.startRefused n = true) : exec (.contextStart n) s = .next (s.badCommand (pgDISP n)) := by
  change execContextStart n s = _
  unfold execContextStart
  exact if_pos h

/-- The fault record of a spill page that cannot be used. -/
def spillFlog (c va l : Nat) : FlogRec :=
  { va := BitVec.ofNat 64 va, ftype := 7, srcType := 0x13, srcInst := 0, write := false, level := l, queue := 0, chan := c }

theorem exec_contextStart_badSpill {c va l : Nat} (h : s.startRefused 0 = false) (hbad : s.badSpill = some (c, va, l)) :
    exec (.contextStart 0) s = .next ((s.modCtx 0 (·.flogAdd (spillFlog c va l))).badCommand (pgDISP 0)) := by
  change execContextStart 0 s = _
  unfold execContextStart
  rw [if_neg (by rw [← State.startRefused, h]; exact Bool.false_ne_true), if_pos rfl, hbad] <;> rfl

theorem exec_contextStart_routine (h : s.startRefused 0 = false) (hspill : s.badSpill = none) :
    exec (.contextStart 0) s =
      .next (if s.ctx1.running then (s.modCtx 0 Ctx.begin_).modCtx 0 fun c => { c with preempted := true } else s.modCtx 0 Ctx.begin_) := by
  change execContextStart 0 s = _
  unfold execContextStart
  rw [if_neg (by rw [← State.startRefused, h]; exact Bool.false_ne_true), if_pos rfl, hspill]
  rfl

theorem exec_contextStart_urgent (h : s.startRefused 1 = false) :
    exec (.contextStart 1) s =
      .next (if (List.range 16).any s.headMayRun then (s.modCtx 1 Ctx.begin_).preempt else s.modCtx 1 Ctx.begin_) := by
  change execContextStart 1 s = _
  unfold execContextStart
  rw [if_neg (by rw [← State.startRefused, h]; exact Bool.false_ne_true)]
  rfl

/-- What a context that has just been started holds. -/
structure Begun (c d : Ctx) : Prop where
  started : d.started = true
  stepNo : d.stepNo = 0
  stepStarts : d.stepStarts = []
  summaries : d.summaries = []
  spb : d.spb = none
  mutualCnt : d.mutualCnt = 0
  planNext : d.planNext = none
  plan : d.plan = match c.planNext with | some p => some p | none => c.plan
  decided : c.upd.undecided = false → d.commit = Commit.reset
  undecided : c.upd.undecided = true → d.commit = c.commit
  queues : d.queues = c.queues
  flags : d.flags = c.flags
  flight : d.flight = c.flight
  tensors : d.tensors = c.tensors

theorem Ctx.begun (c : Ctx) : Begun c c.begin_ where
  started := rfl
  stepNo := rfl
  stepStarts := rfl
  summaries := rfl
  spb := rfl
  mutualCnt := rfl
  planNext := rfl
  plan := by
    change (c.planNext.orElse fun _ => c.plan) = _
    cases c.planNext <;> rfl
  decided h := if_neg (by rw [h]; exact Bool.false_ne_true)
  undecided h := if_pos h
  queues := rfl
  flags := rfl
  flight := rfl
  tensors := rfl

/-- Being pre-empted, or running in the other's place, leaves what START has set. -/
theorem Begun.marked {c d : Ctx} (h : Begun c d) (pre run req y y' : Bool) (pend : BitVec 16) :
    Begun c { d with preempted := pre, running := run, request := req, yielding := y, yielded := y', pendingQ := pend } :=
  ⟨h.started, h.stepNo, h.stepStarts, h.summaries, h.spb, h.mutualCnt, h.planNext, h.plan, h.decided, h.undecided, h.queues, h.flags, h.flight, h.tensors⟩

theorem Begun.running {c d : Ctx} (h : Begun c d) : Begun c { d with running := true, request := false, yielding := false, yielded := false, pendingQ := 0 } :=
  h.marked d.preempted ..

theorem Begun.requested {c d : Ctx} (h : Begun c d) : Begun c { d with request := true } := h.marked d.preempted d.running true d.yielding d.yielded d.pendingQ

theorem Begun.preempted {c d : Ctx} (h : Begun c d) : Begun c { d with preempted := true } := h.marked true d.running d.request d.yielding d.yielded d.pendingQ

theorem State.urgentRuns_ctx1 (s : State) :
    s.urgentRuns.ctx1 = { s.ctx1 with running := true, request := false, yielding := false, yielded := false, pendingQ := 0 } :=
  (State.ctx_raise _ 1 174).trans (State.ctx_modCtx_self s 1 _)

/-- What a request leaves the urgent context. -/
theorem State.preempt_begun {c : Ctx} (h : Begun c s.ctx1) : Begun c s.preempt.ctx1 := by
  unfold State.preempt
  split
  · exact h
  split
  · rw [State.urgentRuns_ctx1]
    exact h.running
  split
  · exact h.requested
  · exact h.requested

/-- A request that finds the urgent context started, not lost, not running and none in progress on a device that is up. -/
theorem State.preempt_of_free (hrun : s.ctx1.running = false) (hreq : s.ctx1.request = false) (hstart : s.ctx1.started = true)
    (hlost : s.ctx1.lost = false) (hup : s.up = true) :
    (s.ctx0.started = false → s.preempt.ctx1.running = true) ∧
    (s.ctx0.started = true → s.preempt.ctx1.request = true ∧ s.preempt.ctx0.filling = false ∧
      (s.ctx0.filling = false → ∀ e, e ∈ s.engines 0 → e ∈ s.preempt.ctx0.stopping)) := by
  unfold State.preempt
  rw [if_neg (by simp [hrun, hreq, hstart, hlost, hup])]
  refine ⟨fun h0 => ?_, fun h0 => ?_⟩
  · rw [if_pos (by simp [h0]), State.urgentRuns_ctx1]
  · rw [if_neg (by simp [h0])]
    split
    next hf => exact ⟨rfl, rfl, fun hf' => absurd (hf.symm.trans hf') (by decide)⟩
    next hf =>
      refine ⟨rfl, Bool.eq_false_iff.mpr hf, fun _ e he => ?_⟩
      exact List.mem_dedup.mpr (List.mem_append_right _ he)

/-- START of the routine context, which the urgent one keeps pre-empted while it runs. -/
theorem State.startRoutine_facts (s : State) :
    let t := if s.ctx1.running then (s.modCtx 0 Ctx.begin_).modCtx 0 fun c => { c with preempted := true } else s.modCtx 0 Ctx.begin_
    Begun s.ctx0 t.ctx0 ∧ t.ctx0.preempted = (s.ctx1.running || s.ctx0.preempted) ∧ t.ctx1 = s.ctx1 ∧ Only [.ctx0, .ctx1, .host, .out] s t := by
  dsimp only
  split
  next hrun => exact ⟨s.ctx0.begun.preempted, by rw [hrun, Bool.true_or]; rfl, rfl, by simp⟩
  next hrun => exact ⟨s.ctx0.begun, by rw [Bool.eq_false_iff.mpr hrun, Bool.false_or]; rfl, rfl, by simp⟩

/-- START of the urgent context, which requests the device where a head may run. -/
theorem State.startUrgent_facts (s : State) :
    let t := if (List.range 16).any s.headMayRun then (s.modCtx 1 Ctx.begin_).preempt else s.modCtx 1 Ctx.begin_
    Begun s.ctx1 t.ctx1 ∧ Only [.ctx0, .ctx1, .host, .out] s t := by
  have hbegun : Begun s.ctx1 (s.modCtx 1 Ctx.begin_).ctx1 := s.ctx1.begun
  have honly : Only [.ctx0, .ctx1, .host, .out] s (s.modCtx 1 Ctx.begin_) := by simp
  dsimp only
  split
  · exact ⟨State.preempt_begun hbegun, (State.preempt_only (by decide)).mpr honly⟩
  · exact ⟨hbegun, honly⟩

theorem State.startRefused_of (h0 : (s.ctx n).started = false) (hready : s.dev.ready = true) (hup : s.up = true) (hroot : s.root n % 2 = 1)
    (hform : rootMalformed (s.root n) = false) : s.startRefused n = false := by
  simp [State.startRefused, h0, hready, hup, hroot, hform]

theorem Ctx.started_flogAdd (c : Ctx) (r : FlogRec) : (c.flogAdd r).started = c.started := by
  unfold Ctx.flogAdd
  split <;> rfl

end

/-! ## RESUME, ABORT, RESET -/

section
variable {s : State} {n : Nat}

/-- A context that goes on: its fault and its halt are over. -/
def State.goOn (s : State) (n : Nat) : State :=
  s.modCtx n fun c => { c with suspended := false, halted := false, mutualCnt := 0, stopping := if n = 0 && s.ctx1.request then c.stopping else [] }

theorem exec_resume (h : (s.ctx n).suspended = true ∨ (s.ctx n).halted = true) :
    exec (.resume n) s = .next (if n = 0 && ((s.ctx n).preempted || s.ctx1.request) then s.goOn n else (s.goOn n).restartEngines n) := by
  change execResume n s = _
  rw [execResume, if_neg (by obtain h | h := h <;> simp [h])]
  rfl

theorem exec_resume_bad (hs : (s.ctx n).suspended = false) (hh : (s.ctx n).halted = false) : exec (.resume n) s = .next (s.badCommand (pgDISP n)) := by
  change execResume n s = _
  rw [execResume, if_pos (by simp [hs, hh])]

/-- The flights of a context whose engines go on. -/
def Flight.goOn (f : Flight) : Flight := if f.phase == Phase.stopped && !f.expired then { f with phase := .issued } else f

theorem Flight.goOn_stopped {f : Flight} (h : f.goOn.phase = .stopped) : f.goOn.expired = true := by
  unfold Flight.goOn at h ⊢
  split at h
  · cases h
  next hf =>
    rw [if_neg hf]
    simpa [h] using hf

theorem State.restartEngines_ctx (s : State) (n : Nat) : (s.restartEngines n).ctx n = { s.ctx n with flight := (s.ctx n).flight.map Flight.goOn } :=
  State.ctx_modCtx_self s n _

theorem exec_abort (h0 : (s.ctx n).started = true) (hl : (s.ctx n).lost = false) : exec (.abort n) s = .next (s.hostLose n 5) := by
  change execAbort n s = _
  rw [execAbort, if_neg (by simp [h0, hl])]

theorem exec_abort_bad (h : (s.ctx n).started = false ∨ (s.ctx n).lost = true) : exec (.abort n) s = .next (s.badCommand (pgDISP n)) := by
  change execAbort n s = _
  rw [execAbort, if_pos (by obtain h | h := h <;> simp [h])]

theorem exec_contextReset : exec (.contextReset n) s = .next (if !(s.ctx n).started && !(s.ctx n).lost then s.modCtx n Ctx.afterReset
    else ((if (s.ctx n).lost then s else s.hostLose n 7).modCtx n fun c => c.afterReset.stopAll).settle n) := by
  change execContextReset n s = _
  rw [execContextReset]
  exact (apply_ite Host.Outcome.next _ _ _).symm

/-- What the loads that waited leave of a context, beside the records that they replace. -/
theorem State.settle_keeps {α : Type} (p : Ctx → α) (s : State) (n : Nat)
    (hloads : ∀ c fns fnWait updProgs updWait, p { c with fns := fns, fnWait := fnWait, updProgs := updProgs, updWait := updWait } = p c)
    (hlib : ∀ c l, p { c with walkLib := l } = p c) (hwait : ∀ c l, p { c with libWait := l } = p c) : p ((s.settle n).ctx n) = p (s.ctx n) := by
  dsimp only [State.settle]
  split
  · rw [State.ctx_modCtx_self, hloads]
  · rw [State.ctx_modCtx_self, hwait]
    refine List.foldlRecOn (motive := fun u : State => p (u.ctx n) = p (s.ctx n)) _ _ ?_ ?_
    · rw [State.ctx_modCtx_self, hloads]
    · rintro u hu l -
      rw [State.takeLib, State.planPools_ctx, State.ctx_modCtx_self, hlib, hu]

theorem Queue.count_empty (x : Queue) : x.empty_.count = 0 := by
  change ((b2n false * 2 ^ x.log2 + 0) + 2 * 2 ^ x.log2 - (b2n false * 2 ^ x.log2 + 0)) % (2 * 2 ^ x.log2) = 0
  simp [b2n]

/-- Every queue of a context that was reset is empty and runs. -/
theorem Ctx.queue_afterReset (c : Ctx) (q : Nat) : (c.afterReset.queue q).count = 0 ∧ (c.afterReset.queue q).halt = .none := by
  obtain h | ⟨e, he, heq⟩ := tget_default_or_mem Queue.reset c.afterReset.queues q
  · rw [Ctx.queue, h]
    exact ⟨by decide, rfl⟩
  · obtain ⟨x, -, rfl⟩ := List.mem_map.mp (List.mem_filter.mp he).1
    rw [Ctx.queue, ← heq]
    exact ⟨x.2.count_empty, rfl⟩

/-- A context that RESET has left. -/
structure CtxCleared (c : Ctx) : Prop where
  started : c.started = false
  lost : c.lost = false
  flags : c.flags = 0
  queues : ∀ q, (c.queue q).count = 0 ∧ (c.queue q).halt = .none

theorem CtxCleared.flag {c : Ctx} (h : CtxCleared c) (f : Nat) : c.flag f = false := by
  rw [Ctx.flag, h.flags]
  exact BitVec.getLsbD_zero

theorem Ctx.cleared_afterReset {c : Ctx} (h0 : c.started = false) (hl : c.lost = false) : CtxCleared c.afterReset :=
  ⟨h0, hl, rfl, c.queue_afterReset⟩

theorem Ctx.cleared_stopAll (c : Ctx) : CtxCleared c.afterReset.stopAll := ⟨rfl, rfl, rfl, c.queue_afterReset⟩

theorem CtxCleared.settle (h : CtxCleared (s.ctx n)) : CtxCleared ((s.settle n).ctx n) := by
  obtain ⟨hfl, -, hq⟩ := s.settle_ctx n
  have hstarted := s.settle_keeps (Ctx.started) n (fun _ _ _ _ _ => rfl) (fun _ _ => rfl) (fun _ _ => rfl)
  have hlost := s.settle_keeps (Ctx.lost) n (fun _ _ _ _ _ => rfl) (fun _ _ => rfl) (fun _ _ => rfl)
  refine ⟨hstarted.trans h.started, hlost.trans h.lost, hfl.trans h.flags, fun q => ?_⟩
  rw [Ctx.queue, hq]
  exact h.queues q

end

/-! ## SKIP and RETRY -/

section
variable {s : State} {n q : Nat} {f : Flight}

theorem exec_skip (hl : (s.ctx n).lost = false) : exec (.skip n q) s = match ((s.ctx n).queue q).halt with
    | .none => if (s.ctx n).halted || (s.ctx n).suspended then .next (s.skipAny n q) else .next (s.badCommand (pgDISP n))
    | .refused | .rootDeadline | .memberDeadline => .next (s.badCommand (pgDISP n))
    | .waitDeadline => .next ((s.unhalt n q).skipAny n q)
    | .sanity => (match (s.ctx n).lateIn q with
      | some f => .next ((s.unhalt n q).skipIssued n f)
      | none => .next ((s.unhalt n q).skipAny n q))
    | .huddleDeadline | .collectiveDeadline =>
      if (s.ctx n).haltedCommit q then .next (s.badCommand (pgDISP n))
      else match (s.ctx n).lateIn q with
        | some f => .next ((s.unhalt n q).skipIssued n f)
        | none => .next (s.unhalt n q) := by
  change execSkip n q s = _
  unfold execSkip
  exact if_neg (by rw [hl]; exact Bool.false_ne_true)

theorem exec_retry (hl : (s.ctx n).lost = false) : exec (.retry n q) s = match ((s.ctx n).queue q).halt with
    | .none | .sanity => .next (s.badCommand (pgDISP n))
    | .waitDeadline => (match (s.ctx n).headFlight q with
      | some f => .next ((s.unhalt n q).restartClock n f)
      | none => .next (s.unhalt n q))
    | .refused => .next (s.retryUpdate n q)
    | .rootDeadline | .memberDeadline => .next ((s.unhalt n q).retryCommit n)
    | .huddleDeadline | .collectiveDeadline =>
      if (s.ctx n).haltedCommit q then .next ((s.unhalt n q).retryCommit n)
      else match (s.ctx n).lateIn q with
        | some f => .next ((s.unhalt n q).restartClock n f)
        | none => .next (s.unhalt n q) := by
  change execRetry n q s = _
  unfold execRetry
  exact if_neg (by rw [hl]; exact Bool.false_ne_true)

end

/-! ## Flags and rings -/

section
variable {s : State} {n f q base log2 : Nat} {v : Bool}

theorem exec_flagWrite (hf : f < 240) (h : 224 ≤ f ∨ (s.ctx n).quiet = true) : exec (.flagWrite n f v) s = .next (s.writeFlag n f v) := by
  change execFlagWrite n f v s = _
  rw [execFlagWrite, if_neg (by omega), if_pos (by simpa using h)]

theorem exec_flagWrite_device (hf : 240 ≤ f) : exec (.flagWrite n f v) s = .next (s.badCommand (pgDISP n)) := if_pos hf

theorem exec_flagWrite_busy (hf : f < 224) (h : (s.ctx n).quiet = false) :
    exec (.flagWrite n f v) s = if (s.ctx n).flag f = v then .next s else .next (s.lockedWrite (pgDISP n)) := by
  change execFlagWrite n f v s = _
  rw [execFlagWrite, if_neg (by omega), if_neg (by simp [h, hf])]

/-- A ring as it is placed. -/
def Queue.place (x : Queue) (base log2 : Nat) : Queue := { x.empty_ with base := base % 2 ^ 48, log2 := ringLog2 log2, halt := x.halt }

theorem Queue.count_place (x : Queue) : (x.place base log2).count = 0 := Queue.count_empty { x with log2 := ringLog2 log2 }

theorem exec_queueRingPlace (h : (s.ctx n).started = false ∨ ((s.ctx n).queue q).count = 0) :
    exec (.queueRingPlace n q base log2) s = .next (s.modCtx n fun c => c.modQueue q fun x => x.place base log2) := by
  change execQueueRingPlace n q base log2 s = _
  rw [execQueueRingPlace, if_neg (by obtain h | h := h <;> simp [h])]
  rfl

theorem exec_queueRingPlace_busy (h0 : (s.ctx n).started = true) (hq : 0 < ((s.ctx n).queue q).count)
    (hne : ((s.ctx n).queue q).base ≠ base % 2 ^ 48 ∨ ((s.ctx n).queue q).log2 ≠ ringLog2 log2) :
    exec (.queueRingPlace n q base log2) s = .next (s.lockedWrite (pgDISP n)) := by
  change execQueueRingPlace n q base log2 s = _
  rw [execQueueRingPlace, if_pos (by simp [h0, hq]), if_neg (by tauto)]

end

end Sys2Proof.Machine

open Sys2Proof Sys2Proof.Machine

/-- Settles O26: START begins the context's own state; the routine one is pre-empted where the urgent one runs, and the urgent one requests where a
head may run. -/
theorem contextsStartWhenReady : Obligations.ContextsStartWhenReady := by
  intro s n hn
  refine ⟨fun h0 hready hup hroot hform hspill => ?start, fun h => exec_contextStart_refused ?refused, fun c va l _ h0 hready hup hroot hform hbad => ?spill⟩
  case refused =>
    obtain h | h | h | h | h := h <;> simp [State.startRefused, h]
  case spill =>
    refine ⟨_, exec_contextStart_badSpill (State.startRefused_of h0 hready hup hroot hform) hbad, ?_, ?_⟩
    · have hctx := (State.ctx_badCommand (s.modCtx 0 (·.flogAdd (spillFlog c va l))) 0 (pgDISP 0)).trans
        (State.ctx_modCtx_self s 0 _)
      exact (congrArg Ctx.started hctx).trans ((Ctx.started_flogAdd _ _).trans h0)
    · exact State.ctx_badCommand _ 1 (pgDISP 0)
  case start =>
    have hok := State.startRefused_of h0 hready hup hroot hform
    obtain rfl | rfl : n = 0 ∨ n = 1 := by omega
    · obtain ⟨hbegun, hpre, hurgent, honly⟩ := s.startRoutine_facts
      refine ⟨_, exec_contextStart_routine hok (hspill rfl), hbegun.started, hbegun.stepNo, hbegun.stepStarts, hbegun.summaries, hbegun.spb, hbegun.mutualCnt,
        hbegun.planNext, hbegun.plan, hbegun.decided, hbegun.undecided, hbegun.queues, hbegun.flags, hbegun.flight, hbegun.tensors,
        fun _ => ⟨hurgent, hpre⟩, fun h => absurd h (by decide), fun h => absurd h (by decide), honly⟩
    · obtain ⟨hbegun, honly⟩ := s.startUrgent_facts
      refine ⟨_, exec_contextStart_urgent hok, hbegun.started, hbegun.stepNo, hbegun.stepStarts, hbegun.summaries, hbegun.spb, hbegun.mutualCnt,
        hbegun.planNext, hbegun.plan, hbegun.decided, hbegun.undecided, hbegun.queues, hbegun.flags, hbegun.flight, hbegun.tensors,
        fun h => absurd h (by decide), fun _ hnone => ?_, fun _ hsome hl hrun hreq => ?_, honly⟩
      · rw [if_neg (by simpa [Bool.not_eq_true] using hnone)]
        exact ⟨rfl, rfl, rfl⟩
      · rw [if_pos (by simpa using hsome)]
        exact (s.modCtx 1 Ctx.begin_).preempt_of_free hrun hreq rfl hl hup

/-- Settles O27: RESUME ends the halt and lets the engines go on, ABORT loses the context, RESET empties it. -/
theorem contextsResumeAbortAndReset : Obligations.ContextsResumeAbortAndReset := by
  intro s n hn
  refine ⟨fun h => ⟨_, exec_resume h, ?resume⟩, exec_resume_bad, fun h0 hl => ⟨exec_abort h0 hl, (State.loseCtx_lost _ n ..).1⟩, exec_abort_bad,
    ⟨_, exec_contextReset, ?reset⟩⟩
  case resume =>
    have hon : (s.goOn n).ctx n = { s.ctx n with suspended := false, halted := false, mutualCnt := 0, stopping := if n = 0 && s.ctx1.request then (s.ctx n).stopping else [] } :=
      State.ctx_modCtx_self ..
    split
    next hwait =>
      rw [hon]
      refine ⟨rfl, rfl, rfl, rfl, fun hfree => ?_⟩
      obtain ⟨hn0, hbusy⟩ : n = 0 ∧ ((s.ctx n).preempted || s.ctx1.request) = true := by simpa only [Bool.and_eq_true, decide_eq_true_eq] using hwait
      obtain ⟨hpre, hreq⟩ := hfree hn0
      rw [hn0, hreq, Bool.or_false] at hbusy
      exact absurd (hbusy.symm.trans hpre) (by decide)
    next =>
      rw [State.restartEngines_ctx, hon]
      refine ⟨rfl, rfl, rfl, rfl, fun _ f hf hstop => ?_⟩
      obtain ⟨g, -, rfl⟩ := List.mem_map.mp hf
      exact Flight.goOn_stopped hstop
  case reset =>
    split
    next hidle =>
      obtain ⟨h0, hl⟩ : (s.ctx n).started = false ∧ (s.ctx n).lost = false := by simpa using hidle
      have hclear := Ctx.cleared_afterReset h0 hl
      rw [State.ctx_modCtx_self]
      exact ⟨hclear.started, hclear.lost, fun h => absurd (h0.symm.trans h) (by decide), hclear.flag, hclear.queues⟩
    next =>
      have hctx := State.ctx_modCtx_self (if (s.ctx n).lost then s else s.hostLose n 7) n fun c => c.afterReset.stopAll
      have hclear := CtxCleared.settle (n := n) (hctx ▸ Ctx.cleared_stopAll _)
      refine ⟨hclear.started, hclear.lost, fun _ => ?_, hclear.flag, hclear.queues⟩
      rw [(State.settle_ctx _ n).2.1, hctx]
      rfl

/-- Settles O28: each halt reason's answer to SKIP and RETRY, the flags the host may write, and where a ring may be placed. -/
theorem hostMendsQueuesAndFlags : Obligations.HostMendsQueuesAndFlags := by
  refine ⟨fun s n q hl => ?queues, fun s n hn => ?writes⟩
  case queues =>
    refine ⟨fun h => ?_, fun h hstop => ?_, fun h hh hs => ?_, fun h => ?_, fun h => ?_, fun h => ?_, fun h hc f hlate => ?_⟩
    · rw [exec_skip hl, h]
      refine ⟨rfl, fun f hf => ?_⟩
      rw [exec_retry hl, h, hf]
    · rw [exec_skip hl, exec_retry hl, h]
      exact ⟨if_pos (by simpa using hstop), rfl⟩
    · rw [exec_skip hl, exec_retry hl, h]
      exact ⟨if_neg (by simp [hh, hs]), rfl⟩
    · rw [exec_skip hl, exec_retry hl, h]
      exact ⟨rfl, rfl⟩
    · rw [exec_skip hl, exec_retry hl]
      obtain h | h := h <;> rw [h] <;> exact ⟨rfl, rfl⟩
    · rw [exec_retry hl, h]
      refine ⟨rfl, fun hlate => ?_⟩
      rw [exec_skip hl, h, hlate]
    · have hno : ¬ (s.ctx n).haltedCommit q = true := by rw [hc]; exact Bool.false_ne_true
      rw [exec_skip hl, exec_retry hl, hlate]
      obtain h | h := h <;> rw [h] <;> exact ⟨if_neg hno, if_neg hno⟩
  case writes =>
    refine ⟨fun f v hf h => ⟨_, exec_flagWrite hf h, ?_⟩, fun f v => exec_flagWrite_device, fun f v hf hq hv => ?_, fun f v hf hq hv => ?_,
      fun q base log2 h => ⟨_, exec_queueRingPlace h, ?_⟩, fun q base log2 => exec_queueRingPlace_busy⟩
    · rw [State.writeFlag, State.ctx_modCtx_self]
      refine ⟨by rw [Ctx.flag_writeFlag _ f v (by omega), if_pos rfl], fun g hg hne => ?_⟩
      rw [Ctx.flag_writeFlag _ f v hg, if_neg hne]
    · rw [exec_flagWrite_busy hf hq, if_pos hv]
    · rw [exec_flagWrite_busy hf hq, if_neg hv]
    · rw [State.ctx_modCtx_self, Ctx.queue_modQueue_self]
      exact ⟨rfl, rfl, Queue.count_place _, fun p hp => Ctx.queue_modQueue_ne _ q _ hp⟩

end

section
/-! PROOFS. The partition regulator, refresh and the rebuild (R132, R139 to R141, R147, R155). -/

namespace Sys2Proof.Machine

/-! ## Regulators -/

section
variable {s : State} {c p : Nat} {waiting : List Nat}

/-- A partition may send: it has the tokens of one burst. -/
def State.tokened (s : State) (c p : Nat) : Bool := decide (640 ≤ s.tokens c p)

/-- The partitions that wait, and the one that is served among some of them. -/
def State.slotFor (s : State) (c : Nat) (l : List Nat) : Option Nat := pickPart (fun p => s.reguF c p 2 % 4) (tget 5 (s.chan c).lastServed) l

theorem exec_memBurstSlot : exec (.memBurstSlot c waiting false) s =
    match s.slotFor c ((waiting.filter (· < 6)).filter (s.tokened c)),
      s.slotFor c ((waiting.filter (· < 6)).filter fun p => !s.tokened c p && s.reguF c p 3 % 2 == 0) with
    | some p, _ => .next ((s.setTokens c p (s.tokens c p - 640)).modChan c fun h => { h with lastServed := tins (s.reguF c p 2 % 4) p h.lastServed })
    | none, some p => .next (s.modChan c fun h => { h with lastServed := tins (s.reguF c p 2 % 4) p h.lastServed })
    | none, none => .next s := by
  have htok : (fun p => decide (640 ≤ s.tokens c p) || (false && p == 5)) = s.tokened c := by
    funext p
    rw [Bool.false_and, Bool.or_false]
    rfl
  have hprio : (fun p => if (false && p == 5) = true then 3 else s.reguF c p 2 % 4) = fun p => s.reguF c p 2 % 4 := by
    funext p
    rw [Bool.false_and, if_neg Bool.false_ne_true]
  change execMemBurstSlot c waiting false s = _
  unfold execMemBurstSlot
  simp only [Bool.false_and, Bool.or_false, Bool.false_eq_true, if_false, List.append_nil]
  rfl

/-- The state after a burst of a partition with tokens. -/
def State.burstSent (s : State) (c p : Nat) : State :=
  (s.setTokens c p (s.tokens c p - 640)).modChan c fun h => { h with lastServed := tins (s.reguF c p 2 % 4) p h.lastServed }

theorem State.tokens_modChan_served (s : State) (c k p q : Nat) :
    (s.modChan c fun h => { h with lastServed := tins k p h.lastServed }).tokens c q = s.tokens c q := by
  rw [State.tokens, State.chan_modChan_self]
  rfl

theorem State.tokens_setTokens_self (s : State) (c p : Nat) (v : Int) : (s.setTokens c p v).tokens c p = v := by
  rw [State.tokens, State.setTokens, State.chan_modChan_self, tfind_tins_self]

theorem State.tokens_setTokens_ne (s : State) (c : Nat) {p q : Nat} (v : Int) (h : q ≠ p) : (s.setTokens c p v).tokens c q = s.tokens c q := by
  rw [State.tokens, State.setTokens, State.chan_modChan_self, tfind_tins_ne h]
  rfl

theorem State.lastServed_modChan (s : State) (c k p : Nat) :
    tget 5 ((s.modChan c fun h => { h with lastServed := tins k p h.lastServed }).chan c).lastServed k = p := by
  rw [State.chan_modChan_self]
  exact tget_tins_self ..

theorem exec_reguRateWrite {part v : Nat} (hup : s.chanUp c = true) : exec (.reguRateWrite c part v) s =
    if s.bit (pgREGU c + 0x2C) 0 then .next (if s.rg (pgREGU c + 0x100 + 16 * part) = v % 512 then s else s.lockedWrite (pgREGU c))
    else if 256 < ((List.range 6).map fun p => if p = part then v % 512 else s.reguF c p 0).sum then .next (s.pageFault (pgREGU c) 0)
    else .next (s.setRg (pgREGU c + 0x100 + 16 * part) (v % 512)) := by
  change execReguRateWrite c part v s = _
  rw [execReguRateWrite, List.sum_eq_foldl]
  exact if_neg (by rw [hup]; exact Bool.false_ne_true)

theorem exec_reguBurstWrite {part v : Nat} (hup : s.chanUp c = true) : exec (.reguBurstWrite c part v) s =
    if s.bit (pgREGU c + 0x2C) 0 then .next (if s.rg (pgREGU c + 0x104 + 16 * part) = max 4 (min 65536 v) then s else s.lockedWrite (pgREGU c))
    else .next ((s.setRg (pgREGU c + 0x104 + 16 * part) (max 4 (min 65536 v))).setTokens c part
      (min (s.tokens c part) (((max 4 (min 65536 v)) * 10240 : Nat) : Int))) := by
  change execReguBurstWrite c part v s = _
  rw [execReguBurstWrite]
  exact if_neg (by rw [hup]; exact Bool.false_ne_true)

theorem exec_refresh {k : Nat} {x : StackReport} (ha : s.alive = true) (hup : s.chanUp c = true) :
    exec (.refresh c k x) s = .next (s.draw.2.modChan c fun h => { h with
      stackTemp := tset 0 h.stackTemp k x.temp, refreshRate := tset 0 h.refreshRate k s.draw.1.toNat, odEcc := tset 0 h.odEcc k (tget 0 h.odEcc k + x.odEcc) }) :=
  guard_of_true (by rw [ha, hup]; rfl) _ _

end

/-! ## The rebuild -/

section
variable {s : State}

/-- An update of several channels, each in its own way. -/
theorem State.chan_foldl_modChan_each {g : Nat → Chan → Chan} {l : List Nat} (hl : l.Nodup) {k : Nat} (h : k ∈ l) :
    (l.foldl (fun (u : State) c => u.modChan c (g c)) s).chan k = g k (s.chan k) := by
  have hother : ∀ (l : List Nat) (s : State), k ∉ l → (l.foldl (fun (u : State) c => u.modChan c (g c)) s).chan k = s.chan k := by
    intro l
    induction l with
    | nil => exact fun _ _ => rfl
    | cons c l ih =>
      intro s hk
      rw [List.foldl_cons, ih _ fun hm => hk (List.mem_cons_of_mem _ hm), State.chan_modChan_ne _ _ _ _ fun he => hk (by rw [he]; exact List.mem_cons_self ..)]
  induction l generalizing s with
  | nil => cases h
  | cons c l ih =>
    obtain ⟨hc, hl⟩ := List.nodup_cons.mp hl
    rw [List.foldl_cons]
    rcases List.mem_cons.mp h with rfl | hk
    · rw [hother _ _ hc, State.chan_modChan_self]
    · rw [ih hl hk, State.chan_modChan_ne _ _ _ _ fun he => hc (by rw [← he]; exact hk)]

/-- The pseudo-channels of a channel that a rebuild removes. -/
def State.goneOf (s : State) (c : Nat) : List Nat :=
  (List.range 512).filter fun p => s.mram.lost.contains (c * 512 + p) || s.mram.retire.contains (c * 512 + p)

theorem State.mem_goneOf (s : State) (c p : Nat) (hp : p < 512) : p ∈ s.goneOf c ↔ c * 512 + p ∈ s.mram.lost ∨ c * 512 + p ∈ s.mram.retire := by
  simp [State.goneOf, hp]

theorem State.rebuilt_chan (s : State) {c : Nat} (hc : c < 4) : s.rebuilt.chan c = { s.chan c with removed := s.goneOf c, poison := [], lostSince := 0 } :=
  State.chan_foldl_modChan_each (g := fun c h => { h with removed := s.goneOf c, poison := [], lostSince := 0 }) List.nodup_range (List.mem_range.mpr hc)

theorem State.rebuilt_leaves (s : State) : Only [.chans, .hbm, .dev] s s.rebuilt := (State.rebuilt_only (by decide)).mpr .refl

theorem exec_rebuild : exec .rebuild s = if s.mapsUser then .next (s.lockedWrite pgDEV) else .next (s.setDev { s.dev with rebuildBusy := true, rebuildDone := false }) := rfl

end

end Sys2Proof.Machine

open Sys2Proof Sys2Proof.Machine

/-- Settles O34: the slot's partition with and without tokens, the refresh's two counts, and the regulator's registers locked and not. -/
theorem regulatorAndRefresh : Obligations.RegulatorAndRefresh := by
  intro s c
  refine ⟨fun waiting p hp => ?tokened, fun waiting hnone => ?borrowed, fun ha hup k x => ⟨_, exec_refresh ha hup, ?refresh⟩,
    fun ha hup x => guard_of_true (by rw [ha, hup]; rfl) _ _, fun hup hbit part v _ => ?unlocked, fun hup hbit part v => ?locked⟩
  case tokened =>
    have hserved : s.slotFor c ((waiting.filter (· < 6)).filter (s.tokened c)) = some p := hp
    refine ⟨s.burstSent c p, by rw [exec_memBurstSlot, hserved]; rfl, ?_, ?_, fun q hq => ?_, ?_⟩
    · rw [State.burstSent, State.tokens_modChan_served, State.tokens_setTokens_self]
    · exact State.lastServed_modChan ..
    · rw [State.burstSent, State.tokens_modChan_served, State.tokens_setTokens_ne _ _ _ hq]
    · simp [State.burstSent]
  case borrowed =>
    have hnot : ∀ p ∈ waiting.filter (· < 6), s.tokened c p = false := fun p hp => by
      obtain ⟨hw, hlt⟩ := List.mem_filter.mp hp
      exact decide_eq_false (by have := hnone p hw (by simpa using hlt); omega)
    have hempty : (waiting.filter (· < 6)).filter (s.tokened c) = [] := List.filter_eq_nil_iff.mpr fun p hp => by rw [hnot p hp]; exact Bool.false_ne_true
    have hmay : ((waiting.filter (· < 6)).filter fun p => !s.tokened c p && s.reguF c p 3 % 2 == 0) = (waiting.filter (· < 6)).filter fun p => s.reguF c p 3 % 2 == 0 :=
      List.filter_congr fun p hp => by rw [hnot p hp, Bool.not_false, Bool.true_and]
    refine ⟨fun p hp => ?_, fun hcap => ?_⟩
    · have hserved : s.slotFor c ((waiting.filter (· < 6)).filter fun p => s.reguF c p 3 % 2 == 0) = some p := hp
      refine ⟨s.modChan c fun h => { h with lastServed := tins (s.reguF c p 2 % 4) p h.lastServed }, ?_, State.lastServed_modChan .., State.tokens_modChan_served s c _ p, ?_⟩
      · rw [exec_memBurstSlot, hempty, hmay, hserved]
        rfl
      · simp
    · have hnobody : ((waiting.filter (· < 6)).filter fun p => s.reguF c p 3 % 2 == 0) = [] := List.filter_eq_nil_iff.mpr fun p hp => by
        obtain ⟨hw, hlt⟩ := List.mem_filter.mp hp
        simp [hcap p hw (by simpa using hlt)]
      rw [exec_memBurstSlot, hempty, hmay, hnobody]
      rfl
  case refresh =>
    rw [State.chan_modChan_self]
    exact ⟨tget_tset_self .., tget_tset_self .., fun j hj => ⟨tget_tset_ne _ _ _ _ _ hj, tget_tset_ne _ _ _ _ _ hj⟩⟩
  case unlocked =>
    have hopen : ¬ s.bit (pgREGU c + 0x2C) 0 = true := by rw [hbit]; exact Bool.false_ne_true
    refine ⟨fun hsum => ?_, fun hsum => ?_, ?_⟩
    · rw [exec_reguRateWrite hup, if_neg hopen, if_neg (Nat.not_lt.mpr hsum)]
    · rw [exec_reguRateWrite hup, if_neg hopen, if_pos hsum]
    · rw [exec_reguBurstWrite hup, if_neg hopen]
  case locked =>
    refine ⟨fun h => ?_, fun h => ?_, fun h => ?_, fun h => ?_⟩
    · rw [exec_reguRateWrite hup, if_pos hbit, if_neg h]
    · rw [exec_reguRateWrite hup, if_pos hbit, if_pos h]
    · rw [exec_reguBurstWrite hup, if_pos hbit, if_neg h]
    · rw [exec_reguBurstWrite hup, if_pos hbit, if_pos h]

/-- Settles O35: the rebuild is refused while user memory is mapped, and removes at its end what is lost or retire-pending. -/
theorem rebuildRemovesTheLost : Obligations.RebuildRemovesTheLost := by
  intro s
  refine ⟨fun h => ?_, fun h => ?_, fun h => guard_of_false h _ _, fun h => ⟨_, guard_of_true h _ _, rfl, fun c hc => ?_,
    s.rebuilt_leaves .store (by decide), s.rebuilt_leaves .mram (by decide)⟩⟩
  · rw [exec_rebuild, if_pos h]
  · rw [exec_rebuild, if_neg (by rw [h]; exact Bool.false_ne_true)]
  · rw [State.rebuilt_chan s hc]
    dsimp only
    exact ⟨rfl, rfl, s.mem_goneOf c⟩

end

section
/-! PROOFS. A link's training, identity and failures; System Time and its references; maintenance windows (R209, R229 to R245, R386). -/

namespace Sys2Proof.Machine

/-! ## Training and identity -/

section
variable {s : State} {n : Nat}

/-- A link that trains by its page's plan. -/
def State.planTrain (s : State) (n : Nat) : State :=
  (s.trainLink n).modLink n fun l => { l with failed := false, laneFail := [], lockLoss := [], cls := 7, nakSent := false, nakRun := 0,
                                              planPeer := bits (s.rg (pgLNK n + 0x120)) 15 0, planPort := bits (s.rg (pgLNK n + 0x120)) 20 16,
                                              planRole := bits (s.rg (pgLNK n + 0x120)) 27 24, planValid := bits (s.rg (pgLNK n + 0x120)) 31 31 == 1,
                                              planRev := BitVec.ofNat 32 (s.rg (pgLNK n + 0x124)) }

theorem exec_lnkTrain (ha : s.alive = true) (hup : s.chanUp (n / 6) = true) (hf : (s.link n).fenced = false) (ht : (s.link n).training = false) :
    exec (.lnkTrain n) s = .next (s.planTrain n) := guard_of_true (by rw [ha, hup, hf, ht]; rfl) _ _

theorem State.planTrain_link (s : State) (n : Nat) : (s.planTrain n).link n =
  { s.link n with training := true, up := false, coef := tget [] s.mram.coef n, failed := false, laneFail := [], lockLoss := [], cls := 7,
                  nakSent := false, nakRun := 0, planPeer := bits (s.rg (pgLNK n + 0x120)) 15 0, planPort := bits (s.rg (pgLNK n + 0x120)) 20 16,
                  planRole := bits (s.rg (pgLNK n + 0x120)) 27 24, planValid := bits (s.rg (pgLNK n + 0x120)) 31 31 == 1,
                  planRev := BitVec.ofNat 32 (s.rg (pgLNK n + 0x124)) } := by
  rw [State.planTrain, State.link_modLink_self, State.trainLink, State.link_modLink_self]

/-- The lanes that a training newly finds bad. -/
def Link.newBad (l : Link) (bad : List Nat) : List Nat :=
  bad.filter fun k => decide (k < 8) && !l.laneFail.contains k && (l.laneFail.isEmpty || cleanHalf l.laneFail == some (decide (4 ≤ k)))

/-- A link-up with what the training found. -/
def State.linkUp (s : State) (n delay : Nat) (x : TrainSet) : State :=
  s.modLink n fun l => { l with training := false, up := true, lanes := if (s.link n).laneFail.isEmpty then 8 else 4,
                                half := cleanHalf (s.link n).laneFail == some true && !(s.link n).laneFail.isEmpty, delay := delay % 65536,
                                precode := x.own && x.peer, cls := 7, revMismatch := false, strap := false, coef := x.coef,
                                resend := (s.link n).txBuf, slotNs := 0, rxFrame := 0, cwBad := false }

theorem exec_trainingComplete {bad : List Nat} {delay : Nat} {x : TrainSet} (ht : (s.link n).training = true) (hup : s.chanUp (n / 6) = true) :
    exec (.trainingComplete n bad delay x) s = if !((s.link n).newBad bad).isEmpty then .next ((((s.link n).newBad bad).foldl (fun (t : State) k => t.failLane n k) s).afterLanes n)
      else .next ((s.linkUp n delay x).emit (.identity n ((s.linkUp n delay x).identity n))) := by
  change execTrainingComplete n bad delay x s = _
  unfold execTrainingComplete
  exact if_neg (by rw [ht, hup]; decide)

theorem exec_trainingComplete_good {delay : Nat} {x : TrainSet} (ht : (s.link n).training = true) (hup : s.chanUp (n / 6) = true) :
    exec (.trainingComplete n [] delay x) s = .next ((s.linkUp n delay x).emit (.identity n ((s.linkUp n delay x).identity n))) :=
  exec_trainingComplete ht hup

/-- On a link without a failed lane every bad lane is new. -/
theorem exec_trainingComplete_bad {a : Nat} {bad : List Nat} {delay : Nat} {x : TrainSet} (ht : (s.link n).training = true) (hup : s.chanUp (n / 6) = true)
    (hnone : (s.link n).laneFail = []) (hlane : ∀ k ∈ a :: bad, k < 8) :
    exec (.trainingComplete n (a :: bad) delay x) s = .next (((a :: bad).foldl (fun (t : State) k => t.failLane n k) s).afterLanes n) := by
  have hnew : (s.link n).newBad (a :: bad) = a :: bad := by
    rw [Link.newBad, hnone]
    exact List.filter_eq_self.mpr fun k hk => by simp [hlane k hk]
  rw [exec_trainingComplete ht hup, hnew]
  exact if_pos rfl

/-- A lane that fails is noted with those that failed before. -/
theorem State.failLane_laneFail (s : State) {n k : Nat} (h : k ∉ (s.link n).laneFail) : ((s.failLane n k).link n).laneFail = (s.link n).laneFail ++ [k] := by
  rw [State.failLane, if_neg (by simpa using h)]
  dsimp only
  rw [link_of_only (s := s.modLink n fun l => { l with laneFail := (s.link n).laneFail ++ [k] }) (fs := [.out, .ledger, .host, .watch]) (by simp) (by decide),
    State.link_modLink_self]

theorem exec_identityBlock {b : Identity} (hin : (s.link n).inService = true) (hup : s.chanUp (n / 6) = true) (hplan : s.planLoaded = true) :
    exec (.identityBlock n b) s =
      let t := s.modLink n fun l => { l with peerSerial := b.serial, peerId := b.devId, peerPort := b.port, peerRole := b.role, peerLanes := b.lanes,
                                             peerRev := b.rev, cls := (s.classify n b).1, revMismatch := (s.classify n b).2, strap := false }
      .next (if (s.classify n b).1 = 2 then t else t.badClass n) := by
  refine (guard_of_true (by rw [hin, hup]; rfl) _ _).trans ?_
  rw [hplan]
  rfl

/-- A port that fails is out of service. -/
theorem State.failPort_link (s : State) {n : Nat} (h : (s.link n).failed = false) : ((s.failPort n).link n).failed = true ∧ ((s.failPort n).link n).up = false := by
  rw [State.failPort, if_neg (by rw [h]; exact Bool.false_ne_true)]
  dsimp only
  rw [link_of_only (s := s.modLink n fun l => { l with failed := true, up := false, training := false, lanes := 0, txQ := [], txBuf := [],
                                                       resend := [], credits := [], nakSent := false, nakRun := 0, rxUsed := [], freed := [],
                                                       asm := [] }) (fs := [.out, .ctx0, .ctx1, .net, .ledger, .host, .watch])
    (by simp [only_foldl]) (by decide), State.link_modLink_self]
  exact ⟨rfl, rfl⟩

theorem exec_lossOfLock_first {lane : Nat} (hin : (s.link n).inService = true) (hlane : lane < 8) (hnone : (s.link n).lockLoss = []) :
    exec (.lossOfLock n lane) s = .next (s.modLink n fun l => { l with lockLoss := [(s.clk.ltb, lane)] }) := by
  refine (guard_of_true (by rw [hin, decide_eq_true hlane]; rfl) _ _).trans ?_
  rw [hnone, if_neg]
  · rfl
  · rintro ⟨hmany, -⟩
    simp at hmany

end

/-! ## System Time -/

section
variable {fs : List Part} {s t : State}

theorem clk_of_only (h : Only fs s t) (hp : Part.clk ∉ fs) : t.clk = s.clk := h .clk hp

/-- The records, events and flags of time leave its clocks. -/
theorem State.clk_event (s : State) (page bit v : Nat) : (s.event page bit v).clk = s.clk :=
  clk_of_only (fs := [.out, .regs, .host]) (by simp) (by decide)

theorem State.clk_log (s : State) (ch code sev cls srcType srcInst : Nat) (payload : List Byte) : (s.log ch code sev cls srcType srcInst payload).clk = s.clk :=
  clk_of_only (fs := [.out, .ledger, .host, .watch]) (by simp) (by decide)

theorem State.clk_flag242 (s : State) (v : Bool) : (s.flag242 v).clk = s.clk :=
  clk_of_only (fs := [.ctx0, .ctx1]) (by simp) (by decide)

theorem State.firstTime_clk (s : State) (st : W64) : (s.firstTime st).clk =
    { s.clk with st := st, known := true, stopped := false, slewE := 0, slewT := 0, halfLeft := 0, halfPhase := false } := by
  rw [State.firstTime]
  dsimp only
  rw [State.clk_event, State.clk_log, State.clk_flag242]
  rfl

theorem State.forgetTime_clk (s : State) : s.forgetTime.clk = { s.clk with known := false, slewE := 0, slewT := 0, halfLeft := 0 } := State.clk_flag242 ..

/-- The ST-known flag is cleared in both contexts. -/
theorem State.forgetTime_flags (s : State) : s.forgetTime.ctx0.flag 242 = false ∧ s.forgetTime.ctx1.flag 242 = false :=
  ⟨(Ctx.flag_writeFlag s.ctx0 242 false (by decide)).trans (if_pos rfl), (Ctx.flag_writeFlag s.ctx1 242 false (by decide)).trans (if_pos rfl)⟩

/-- A small or a held correction leaves what the clock shows. -/
theorem State.correct_near (s : State) {e : Int} (hlow : -(2 ^ 20) ≤ e) (hhigh : e ≤ 64) : (s.correct e).clk.st = s.clk.st ∧ (s.correct e).clk.known = s.clk.known := by
  unfold State.correct
  dsimp only
  by_cases hsmall : -64 ≤ e ∧ e ≤ 64
  · rw [if_pos hsmall]
    exact ⟨rfl, rfl⟩
  · rw [if_neg hsmall, if_neg (Int.not_lt.mpr hhigh), if_pos hlow, State.clk_event, State.clk_log]
    exact ⟨rfl, rfl⟩

theorem State.correct_step (s : State) {e : Int} (h : 64 < e) : (s.correct e).clk.st = s.clk.st + BitVec.ofInt 64 e := by
  unfold State.correct
  dsimp only
  rw [if_neg (by omega), if_pos h, State.clk_event, State.clk_log]
  rfl

theorem State.correct_lost (s : State) {e : Int} (h : e < -(2 ^ 20)) : (s.correct e).clk.known = false := by
  unfold State.correct
  dsimp only
  rw [if_neg (by omega), if_neg (by omega), if_neg (by omega), State.clk_event, State.clk_log, State.forgetTime_clk]

/-- The clock that has just heard a whistle. -/
def State.heard (s : State) (hops : Nat) : State := s.setClk { s.clk with lastWhistle := s.clk.ltb, holdover := false, hops := hops, deep := decide (32 < hops) }

theorem State.takeWhistle_first (s : State) {est hops : Nat} (hstop : s.clk.stopped = false) (hk : s.clk.known = false) :
    s.takeWhistle est hops = (s.heard hops).firstTime (BitVec.ofNat 64 est) := by
  change (if s.clk.stopped = true then s.heard hops else if s.clk.known = true then _ else _) = _
  rw [hstop, hk]
  rfl

theorem State.takeWhistle_later (s : State) {est hops : Nat} (hstop : s.clk.stopped = false) (hk : s.clk.known = true) :
    s.takeWhistle est hops = (s.heard hops).correct ((est : Int) - s.clk.st.toNat) := by
  change (if s.clk.stopped = true then s.heard hops else if s.clk.known = true then _ else _) = _
  rw [hstop, hk]
  rfl

/-- A word advanced by its distance from a value below 2^64 is that value. -/
theorem add_ofInt_distance (v : W64) (est : Nat) : v + BitVec.ofInt 64 ((est : Int) - v.toNat) = BitVec.ofNat 64 est := by
  have hv : BitVec.ofInt 64 (v.toNat : Int) = v := by rw [BitVec.ofInt_natCast, BitVec.ofNat_toNat, BitVec.setWidth_eq]
  calc v + BitVec.ofInt 64 ((est : Int) - v.toNat)
      = BitVec.ofInt 64 (v.toNat : Int) + BitVec.ofInt 64 ((est : Int) - v.toNat) := by rw [hv]
    _ = BitVec.ofInt 64 (est : Int) := by rw [← BitVec.ofInt_add, add_sub_cancel]
    _ = BitVec.ofNat 64 est := BitVec.ofInt_natCast ..

theorem exec_whistleSend (ha : s.alive = true) (hk : s.clk.known = true) (hst : s.clk.st.toNat % 2 ^ 20 = 0) :
    exec .whistleSend s =
      let t := if s.bit (pgTIME + 8) 2 then s.emit .pulse else s
      .next (if s.timeSource = 0 then t else t.sendWhistle { t := s.clk.st, c := 0, master := s.devId, hops := 0 }) :=
  guard_of_true (by rw [ha, hk]; exact decide_eq_true hst) _ _

theorem exec_whistleReceive {port r : Nat} {w : Whistle} (h : s.takesFrom port = true) :
    exec (.whistleReceive port w r) s = .next ((s.takeWhistle (w.t.toNat + w.c / 16 + (s.link port).delay) w.hops).forwardWhistle w (s.link port).delay r) :=
  guard_of_true h _ _

theorem State.forwardWhistle_eq (s : State) (w : Whistle) (wp r : Nat) : s.forwardWhistle w wp r =
    if w.hops < 255 then s.sendWhistle { w with c := (w.c + 16 * wp + r) % 2 ^ 64, hops := w.hops + 1 } else s := by
  by_cases h : w.hops < 255
  · rw [State.forwardWhistle, if_neg (by omega), if_pos h]
  · rw [State.forwardWhistle, if_pos (by omega), if_neg h]

theorem exec_whistleInEdge {v : W64} (ha : s.alive = true) (hsrc : s.timeSource = 1) (hv : (if s.clk.seedArmed then some s.clk.seed else s.clk.pinNext) = some v) :
    exec .whistleInEdge s = .next ((s.setClk { s.clk with seedArmed := false, pinNext := some (v + BitVec.ofNat 64 (2 ^ 20)) }).takeWhistle v.toNat 0) := by
  change execWhistleInEdge s = _
  unfold execWhistleInEdge
  dsimp only
  rw [hv]
  exact guard_of_true (by rw [ha, hsrc]; rfl) _ _

theorem exec_timeSet {v : W64} (h : s.timeSource = 2) : exec (.timeSet v) s =
    .next (if s.clk.known then (s.setRg64 (pgTIME + 0x110) v.toNat).setClk { s.clk with st := v, slewE := 0, slewT := 0, halfLeft := 0 }
      else (s.setRg64 (pgTIME + 0x110) v.toNat).firstTime v) :=
  if_neg (by rw [h]; exact fun hne => hne rfl)

end

end Sys2Proof.Machine

open Sys2Proof Sys2Proof.Machine

/-- Settles O46: what training, its lanes, the identity block and the time-outs leave of a link. -/
theorem linksTrainAndIdentify : Obligations.LinksTrainAndIdentify := by
  intro s n ha hup
  refine ⟨fun hf ht => ⟨_, exec_lnkTrain ha hup hf ht, ?train⟩, fun delay x ht => ⟨_, exec_trainingComplete_good ht hup, ?good⟩, fun a b delay x ht hnone hlt => ?bad,
    fun b hin hplan => ⟨_, exec_identityBlock hin hup hplan, ?block⟩, fun hin hcls => guard_of_true (by rw [hin, hcls]; rfl) _ _,
    fun h => ⟨guard_of_true (by obtain h | h := h <;> simp [h]) _ _, s.failPort_link⟩, fun lane => exec_lossOfLock_first⟩
  case train =>
    rw [State.planTrain_link]
    exact ⟨rfl, rfl, rfl, rfl, rfl, rfl, rfl, by simp [State.planTrain]⟩
  case good =>
    have hlink : ((s.linkUp n delay x).emit (.identity n ((s.linkUp n delay x).identity n))).link n = (s.linkUp n delay x).link n := rfl
    rw [hlink, State.linkUp, State.link_modLink_self]
    refine ⟨rfl, rfl, rfl, rfl, rfl, ?_, rfl, rfl⟩
    exact if_congr List.isEmpty_iff rfl rfl
  case bad =>
    have hfirst := s.failLane_laneFail (n := n) (k := a) (by rw [hnone]; exact List.not_mem_nil)
    rw [hnone, List.nil_append] at hfirst
    refine ⟨?_, fun hlow hb hb8 => ?_⟩
    · rw [exec_trainingComplete_bad ht hup hnone (by simpa using hlt)]
      refine congrArg Host.Outcome.next (if_pos ?_)
      rw [List.foldl_cons, List.foldl_nil, hfirst]
      by_cases h4 : 4 ≤ a <;> simp [cleanHalf, h4]
      omega
    · have hsecond := (s.failLane n a).failLane_laneFail (n := n) (k := b) (by rw [hfirst, List.mem_singleton]; omega)
      rw [hfirst] at hsecond
      rw [exec_trainingComplete_bad ht hup hnone (by simp; omega)]
      refine congrArg Host.Outcome.next (if_neg ?_)
      rw [List.foldl_cons, List.foldl_cons, List.foldl_nil, hsecond]
      have ha4 : ¬ 4 ≤ a := by omega
      have hb4 : ¬ b < 4 := by omega
      simp [cleanHalf, ha4, hb4]
  case block =>
    split
    next h2 =>
      rw [State.link_modLink_self]
      exact ⟨rfl, rfl, rfl, fun _ => by simp⟩
    next h2 =>
      rw [link_of_only ((State.badClass_only (ps := [.out, .ledger, .host, .watch]) (by decide) n).mpr .refl) (by decide), State.link_modLink_self]
      exact ⟨rfl, rfl, rfl, fun h => absurd h h2⟩

/-- Settles O48: the whistle as it is sent, received and taken from the pin, and what the clock makes of it. -/
theorem whistlesSetSystemTime : Obligations.WhistlesSetSystemTime := by
  intro s
  refine ⟨fun ha hk hst hsrc => ⟨fun hpin => ?_, fun hpin => ?_⟩, fun ha hk hst hsrc => ?_, fun port w r h => ?_, fun ha hsrc harm => ?_, fun v ha hsrc harm hpin => ?_,
    fun v => ⟨_, rfl, rfl, ?_⟩, fun est hops hstop => ⟨fun hk => ?_, fun hk hhigh hlow => ?_, fun hk h hest => ?_, fun hk h => ?_⟩,
    fun v hsrc hk => ?_, fun v hsrc hk => ?_, fun v h => if_pos h⟩
  · rw [exec_whistleSend ha hk hst]
    dsimp only
    rw [if_neg hsrc, if_neg (by rw [hpin]; exact Bool.false_ne_true)]
  · rw [exec_whistleSend ha hk hst]
    dsimp only
    rw [if_neg hsrc, if_pos hpin]
  · rw [exec_whistleSend ha hk hst]
    dsimp only
    rw [if_pos hsrc]
  · rw [exec_whistleReceive h, State.forwardWhistle_eq]
  · exact exec_whistleInEdge ha hsrc (by rw [harm]; rfl)
  · exact exec_whistleInEdge ha hsrc (by rw [harm]; exact hpin)
  · simp
  · rw [State.takeWhistle_first s hstop hk, State.firstTime_clk]
    exact ⟨rfl, rfl⟩
  · rw [State.takeWhistle_later s hstop hk]
    obtain ⟨hst, hknown⟩ := (s.heard hops).correct_near hlow hhigh
    exact ⟨hst, hknown.trans hk⟩
  · rw [State.takeWhistle_later s hstop hk, State.correct_step _ h]
    exact add_ofInt_distance s.clk.st est
  · rw [State.takeWhistle_later s hstop hk]
    exact State.correct_lost _ h
  · refine ⟨_, exec_timeSet hsrc, ?_⟩
    rw [if_pos hk]
    exact ⟨rfl, rfl, rfl, rfl⟩
  · refine ⟨_, exec_timeSet hsrc, ?_⟩
    rw [if_neg (by rw [hk]; exact Bool.false_ne_true), State.firstTime_clk]
    exact ⟨rfl, rfl⟩

/-- Settles O49: each reference's loss and return, the counter's end, and the window that lets the held records go. -/
theorem timeReferencesFailAndReturn : Obligations.TimeReferencesFailAndReturn := by
  intro s
  refine ⟨fun ha hk hsrc hhold hlate => guard_of_true ?_ _ _, fun hsoon => guard_of_false ?_ _ _, fun ha hl => guard_of_true (by rw [ha, hl]; rfl) _ _,
    fun ha hl => guard_of_true (by rw [ha, hl]; rfl) _ _, fun ha hl => ⟨_, guard_of_true (by rw [ha, hl]; rfl) _ _, ?lock⟩,
    fun hk hst => ⟨_, guard_of_true (by rw [hk, hst]; rfl) _ _, ?endOfTime⟩, fun hst => guard_of_false ?running _ _, fun ha hm he => guard_of_true (by simp [ha, hm, he]) _ _⟩
  · have hwh : s.clk.lastWhistle + 4 * whistleNs ≤ s.clk.ltb := hlate
    simp [ha, hk, hsrc, hhold, hwh]
  · have hwh : ¬ s.clk.lastWhistle + 4 * whistleNs ≤ s.clk.ltb := Nat.not_le.mpr hsoon
    simp [hwh]
  case running => rw [beq_eq_false_iff_ne.mpr hst, Bool.and_false]
  case lock =>
    rw [State.clk_log, State.forgetTime_clk]
    have hflags := (s.setClk { s.clk with baseLock := false, trefLock := false, onModule := false }).forgetTime_flags
    have hctx := State.ctx_log (s.setClk { s.clk with baseLock := false, trefLock := false, onModule := false }).forgetTime
    exact ⟨rfl, rfl, rfl, (congrArg (Ctx.flag · 242) (hctx 0 ..)).trans hflags.1, (congrArg (Ctx.flag · 242) (hctx 1 ..)).trans hflags.2⟩
  case endOfTime =>
    refine ⟨?_, rfl, s.forgetTime_flags.1, s.forgetTime_flags.2⟩
    exact congrArg Clock.known s.forgetTime_clk

end

section
/-! PROOFS. The ledger's host port: submitted records, the key, the challenge and the clear (R310 to R324). -/

namespace Sys2Proof.Machine

/-! ## The procedure's own registers, under the records that are written meanwhile -/

/-- What the key and the clear procedure keep in the ledger. -/
structure ClearState where
  stage : Tbl Word
  rekeyOpen : Option Nat
  status : Nat
  latched : Nat
  chal : Option (List Byte × Nat)
  mism : Nat
  lockUntil : Option Nat

def Ledger.clearState (l : Ledger) : ClearState :=
  { stage := l.stage, rekeyOpen := l.rekeyOpen, status := l.status, latched := l.latched, chal := l.chal, mism := l.mism, lockUntil := l.lockUntil }

def State.clearState (s : State) : ClearState := s.ledger.clearState

section
variable {s t : State} {fs : List Part}

@[simp] theorem State.raise_ledger (v : Nat) : (s.raise v).ledger = s.ledger :=
  ledger_of_only ((State.raise_only (ps := [.out, .host]) (by decide) v).mpr .refl) (by decide)

theorem State.clearState_dropRec (s : State) (sev : Nat) : (s.dropRec sev).clearState = s.clearState := by
  rw [State.clearState, State.dropRec, State.dropVector_ledger, State.setLedger_ledger]
  split_ifs <;> rfl

theorem State.clearState_writeRec (s : State) (r : Rec) : (s.writeRec r).clearState = s.clearState := by
  cases h : s.ledger.place r.sev with
  | none => rw [State.writeRec_of_no_place h, State.clearState_dropRec]
  | some k =>
    rw [State.clearState, State.writeRec_ledger_of_place h]
    rfl

theorem State.clearState_admitRec (s : State) (ch : Nat) (r : Rec) : (s.admitRec ch r).clearState = s.clearState := by
  unfold State.admitRec
  split
  · rfl
  split
  · unfold State.holdRec
    split
    · exact s.clearState_dropRec r.sev
    · rfl
  · exact s.clearState_writeRec r

/-- A new record, stamped and admitted. -/
theorem State.clearState_new (s : State) (ch cls now : Nat) (r : Rec) : ((s.setLedger (s.ledger.newCand cls now)).admitRec ch r).clearState = s.clearState :=
  (State.clearState_admitRec ..).trans rfl

theorem State.clearState_record (s : State) (ch : Nat) (o : Offer) : (s.record ch o).clearState = s.clearState := by
  unfold State.record
  dsimp only
  split
  · rfl
  split
  · exact s.clearState_new ..
  split
  · split
    · rfl
    · exact s.clearState_new ..
  · split
    · rfl
    · exact (State.clearState_new (s.setLedger (s.ledger.countRate o.code)) ..).trans rfl
  · exact s.clearState_new ..

theorem State.clearState_log (s : State) (ch code sev cls srcType srcInst : Nat) (payload : List Byte) :
    (s.log ch code sev cls srcType srcInst payload).clearState = s.clearState := s.clearState_record ..

theorem State.mram_log (s : State) (ch code sev cls srcType srcInst : Nat) (payload : List Byte) : (s.log ch code sev cls srcType srcInst payload).mram = s.mram :=
  mram_of_only (fs := [.out, .ledger, .host, .watch]) (by simp) (by decide)

theorem State.mram_raise (s : State) (v : Nat) : (s.raise v).mram = s.mram := mram_of_only (fs := [.out, .host]) (by simp) (by decide)

theorem State.clrStatus_ledger (s : State) (v : Nat) : (s.clrStatus v).ledger = { s.ledger with status := v } := by
  rw [State.clrStatus, State.raise_ledger, State.setLedger_ledger]

theorem State.clrStatus_mram (s : State) (v : Nat) : (s.clrStatus v).mram = s.mram := State.mram_raise ..

end

/-! ## Records, reading and the key -/

section
variable {s : State} {i : Nat} {w : Word}

theorem exec_hostRecordSubmit (hbusy : s.ledger.busy = false) : exec .hostRecordSubmit s =
    let t := s.setLedger { s.ledger with busy := true }
    let o : Offer := { code := leNat (s.hmbBytes.take 2), sev := leNat ((s.hmbBytes.drop 2).take 1) / 64, fclass := 0, srcType := 0x52,
                       srcInst := leNat ((s.hmbBytes.drop 4).take 2), payload := s.hmbBytes.drop 8 }
    if hostBad s.hmbBytes (s.rg (pgLEDG + 0x188)) then .next (t.setLedger { t.ledger with hostReject := bump32 t.ledger.hostReject })
    else if t.floodMode (o.code / 1024) = 2 then
      .next (if t.rateFull o.code then t.setLedger (t.ledger.suppress o.code) else (t.setLedger (t.ledger.countRate o.code)).hostRecord o)
    else .next (t.hostRecord o) := by
  change execHostRecordSubmit s = _
  unfold execHostRecordSubmit
  exact if_neg (by rw [hbusy]; exact Bool.false_ne_true)

theorem exec_keyWordWrite (hopen : s.keyOpen = true) : exec (.keyWordWrite i w) s =
    match (List.range 8).mapM fun k => tfind (tins i w s.ledger.stage) k with
    | none => .next (s.setLedger { s.ledger with stage := tins i w s.ledger.stage })
    | some k => .next (((s.setLedger { s.ledger with stage := [], rekeyOpen := none }).setMram { s.mram with key := some k }).log 4 0x0002 0 0 0x51 0
        (leBytes 1 (b2n s.mram.key.isSome))) := by
  change execKeyWordWrite i w s = _
  unfold execKeyWordWrite
  exact if_neg (by rw [hopen]; decide)

theorem exec_keyWordWrite_closed (hclosed : s.keyOpen = false) (hi : i ≠ 7) : exec (.keyWordWrite i w) s = .next (s.badCommand pgLEDG) := by
  change execKeyWordWrite i w s = _
  unfold execKeyWordWrite
  dsimp only
  rw [if_pos (by rw [hclosed]; rfl), if_neg hi]

end

/-! ## The clear -/

section
variable {s : State} {scope : Nat} {resp : List Byte}

/-- The challenge that is drawn next. -/
def State.nextChallenge (s : State) : List Byte := padTo 16 (Config.challenge s.ledger.chalCount)

theorem exec_clearRequest (hscope : scope < 3) (he : s.ledger.erasing = none) (hlock : s.ledger.lockUntil = none) :
    exec (.clearRequest scope) s = .next ((s.setLedger { s.ledger with
      scope := scope % 4, chal := some (s.nextChallenge, s.clk.ltb), chalBytes := s.nextChallenge, chalCount := s.ledger.chalCount + 1, latched := scope % 4 }).clrStatus 1) := by
  change execClearRequest scope s = _
  unfold execClearRequest
  dsimp only
  rw [if_neg (by rw [he]; decide), if_neg (by rw [hlock]; decide), if_neg (by omega)]
  rfl

theorem exec_clearRequest_locked (he : s.ledger.erasing = none) (hlock : s.ledger.lockUntil.isSome = true) :
    exec (.clearRequest scope) s = .next ((s.setLedger { s.ledger with scope := scope % 4 }).clrStatus 7) := by
  change execClearRequest scope s = _
  unfold execClearRequest
  dsimp only
  rw [if_neg (by rw [he]; decide), if_pos hlock]

/-- A response that does not match counts, and the third locks the procedure out. -/
def State.mismatched (s : State) : State :=
  s.setLedger { s.ledger with chal := none, mism := s.ledger.mism + 1, lockUntil := if 3 ≤ s.ledger.mism + 1 then some (s.clk.ltb + 60000000000) else s.ledger.lockUntil }

theorem exec_clearSubmit {c : List Byte} {at_ : Nat} {key : List Word} (he : s.ledger.erasing = none) (hc : s.ledger.chal = some (c, at_))
    (hin : s.clk.ltb ≤ at_ + 10000000000) (hkey : s.mram.key = some key) : exec (.clearSubmit resp) s =
      if s.clrExpect key c ≠ resp then .next ((s.mismatched.log 4 0x4C02 1 0 0x51 0 (leBytes 1 s.ledger.latched ++ leBytes 1 (b2n s.host.active))).clrStatus 3)
      else if s.ledger.latched ≠ 1 ∧ s.ledger.fatalFree = 0 then .next ((s.setLedger { s.ledger with chal := none }).clrStatus 6)
      else .next ((s.setLedger { s.ledger with chal := none }).startClear.clrStatus 8) := by
  change execClearSubmit resp s = _
  unfold execClearSubmit
  dsimp only
  rw [if_neg (by rw [he]; decide), hc]
  dsimp only
  rw [if_neg (show ¬ at_ + tenS < s.clk.ltb from Nat.not_lt.mpr hin), hkey]
  rfl

theorem exec_clearSubmit_none (he : s.ledger.erasing = none) (hc : s.ledger.chal = none) :
    exec (.clearSubmit resp) s = .next ((s.setLedger { s.ledger with chal := none }).clrStatus 4) := by
  change execClearSubmit resp s = _
  unfold execClearSubmit
  dsimp only
  rw [if_neg (by rw [he]; decide), hc]

/-- The clear that begins keeps the procedure's registers and notes its scope. -/
theorem State.startClear_facts (s : State) : s.startClear.clearState = s.clearState ∧ s.startClear.ledger.erasing = some s.ledger.latched ∧
    s.startClear.mram.erase = some s.ledger.latched :=
  ⟨(State.clearState_writeRec ..).trans rfl, rfl, rfl⟩

theorem exec_clearDone (he : s.ledger.erasing = some scope) : exec .clearDone s = .next (((s.endErase scope).setLedger
    { (s.endErase scope).ledger with mism := 0, rekeyOpen := if scope = 2 then some (s.endErase scope).clk.ltb else (s.endErase scope).ledger.rekeyOpen }).clrStatus 2) := by
  change execClearDone s = _
  rw [execClearDone, he]

end

end Sys2Proof.Machine

open Sys2Proof Sys2Proof.Machine

/-- Settles O54: each command of the ledger's host port and what it leaves in the ledger and in MRAM. -/
theorem ledgerCommandsFollowTheirProcedure : Obligations.LedgerCommandsFollowTheirProcedure := by
  intro s
  refine ⟨rfl, fun hb => ⟨if_pos hb, guard_of_true hb _ _⟩, fun hb hbad => ?bad, fun hb hgood hmode => ?good, fun i => rfl, rfl, fun i w hopen hpart => ?part,
    fun i w k hopen hwhole => ?whole, fun i w => exec_keyWordWrite_closed, fun at_ hrekey hover => guard_of_true (by rw [hrekey]; exact decide_eq_true hover) _ _,
    fun scope hscope he hlock => ?request, fun he hlock scope => ?locked, fun c at_ key resp he hc hin hkey => ⟨fun hno => ?mismatch, fun hyes hroom => ?clear⟩,
    fun resp he hc => ?unasked, fun scope he => ?done, fun c at_ hc hover => guard_of_true (by rw [hc]; exact decide_eq_true hover) _ _,
    fun at_ hlock hover => guard_of_true (by rw [hlock]; exact decide_eq_true hover) _ _⟩
  case bad =>
    refine ⟨_, (exec_hostRecordSubmit hb).trans (if_pos hbad), rfl, rfl, rfl⟩
  case good =>
    rw [exec_hostRecordSubmit hb]
    dsimp only
    rw [if_neg (by rw [hgood]; exact Bool.false_ne_true)]
    exact if_neg hmode
  case part => rw [exec_keyWordWrite hopen, hpart]
  case whole =>
    have hstate := State.clearState_log ((s.setLedger { s.ledger with stage := [], rekeyOpen := none }).setMram { s.mram with key := some k }) 4 0x0002 0 0 0x51 0
      (leBytes 1 (b2n s.mram.key.isSome))
    refine ⟨_, by rw [exec_keyWordWrite hopen, hwhole], ?_, congrArg ClearState.stage hstate, congrArg ClearState.rekeyOpen hstate⟩
    rw [State.mram_log]
    rfl
  case request =>
    refine ⟨_, s.nextChallenge, exec_clearRequest hscope he hlock, ?_⟩
    rw [State.clrStatus_ledger]
    exact ⟨rfl, Nat.mod_eq_of_lt (by omega), rfl, rfl⟩
  case locked =>
    refine ⟨_, exec_clearRequest_locked he hlock, ?_⟩
    rw [State.clrStatus_ledger]
    exact ⟨rfl, rfl⟩
  case mismatch =>
    refine ⟨_, (exec_clearSubmit he hc hin hkey).trans (if_pos hno), ?_⟩
    have hstate := s.mismatched.clearState_log 4 0x4C02 1 0 0x51 0 (leBytes 1 s.ledger.latched ++ leBytes 1 (b2n s.host.active))
    rw [State.clrStatus_ledger, State.clrStatus_mram, State.mram_log]
    refine ⟨congrArg ClearState.chal hstate, rfl, rfl, congrArg ClearState.mism hstate, fun hthird => (congrArg ClearState.lockUntil hstate).trans ?_⟩
    exact if_pos (by omega)
  case clear =>
    obtain ⟨hstate, herase, hmram⟩ := (s.setLedger { s.ledger with chal := none }).startClear_facts
    refine ⟨_, (exec_clearSubmit he hc hin hkey).trans ((if_neg (not_not_intro hyes)).trans (if_neg (by tauto))), ?_⟩
    rw [State.clrStatus_ledger, State.clrStatus_mram]
    exact ⟨congrArg ClearState.chal hstate, herase, hmram, rfl⟩
  case unasked =>
    refine ⟨_, exec_clearSubmit_none he hc, ?_⟩
    rw [State.clrStatus_ledger]
    exact ⟨rfl, rfl⟩
  case done =>
    refine ⟨_, exec_clearDone he, ?_⟩
    rw [State.clrStatus_ledger]
    refine ⟨rfl, rfl, fun h2 => ?_⟩
    rw [State.setLedger_ledger, if_pos h2]
    rfl

end

section
/-! PROOFS. Register accesses, X_LOCK and X_IRQ_FORCE (R325 to R328, R344, R375). -/

namespace Sys2Proof.Machine

section
variable {s : State} {port w : Bool} {a page : Nat} {v : W64}

theorem exec_registerWrite (hal : aligned a w = true) (hreach : s.portReaches port a = true) :
    exec (.registerWrite port a w v) s = match s.writeWords a v.toNat w with
      | some t => .next t
      | none => .refused .reservedFieldWritten := by
  change execRegisterWrite port a w v s = _
  rw [execRegisterWrite, if_neg (by rw [hal, hreach]; decide)] <;> rfl

theorem exec_registerWrite_none (h : aligned a w = false ∨ s.portReaches port a = false) : exec (.registerWrite port a w v) s = .next s := by
  change execRegisterWrite port a w v s = _
  rw [execRegisterWrite, if_pos (by obtain h | h := h <;> simp [h])]

theorem exec_registerRead_none (h : aligned a w = false ∨ s.portReaches port a = false) : exec (.registerRead port a w) s = .next (s.emit (.word 0)) := by
  change execRegisterRead port a w s = _
  rw [execRegisterRead, if_pos (by obtain h | h := h <;> simp [h])]

/-- A word that leaves the reserved fields zero is written. -/
theorem State.writeWord_placed {x : Nat} (h : x &&& (2 ^ 32 - 1 - placedBits (s.fields a)) = 0) : ∃ t, s.writeWord a x = some t :=
  ⟨_, if_neg (not_not_intro h)⟩

theorem State.writeWord_reserved {x : Nat} (h : x &&& (2 ^ 32 - 1 - placedBits (s.fields a)) ≠ 0) : s.writeWord a x = none := if_pos h

theorem State.writeWords_narrow (s : State) (a x : Nat) : s.writeWords a x false = s.writeWord a (x % 2 ^ 32) := by
  rw [State.writeWords]
  cases s.writeWord a (x % 2 ^ 32) <;> rfl

/-- A channel in reset or down answers on CMGR, CLK and PWR alone. -/
theorem State.portReaches_channel_off {c : Nat} (hc : pageChan a = some c) (hoff : s.chanUp c = false) (hcmgr : pageKind a ≠ .cmgr) (hclk : pageKind a ≠ .clk)
    (hpwr : pageKind a ≠ .pwr) : s.portReaches port a = false := by
  have hpage : s.pageOn a = false := by
    unfold State.pageOn
    rw [hc]
    cases hk : pageKind a with
    | cmgr => exact absurd hk hcmgr
    | clk => exact absurd hk hclk
    | pwr => exact absurd hk hpwr
    | _ => dsimp only; rw [hoff, Bool.and_false, Bool.and_false]
  rw [State.portReaches, hpage, Bool.false_and]

theorem exec_registerRead (hal : aligned a false = true) (hreach : s.portReaches port a = true) :
    exec (.registerRead port a false) s = .next ((((s.touch a).readWord port a).2.emit (.word (BitVec.ofNat 64 (((s.touch a).readWord port a).1 % 2 ^ 32)))).restartPeak a) := by
  change execRegisterRead port a false s = _
  rw [execRegisterRead, if_neg (by rw [hal, hreach]; decide)]
  rfl

/-- A register whose address follows no LO register is read as it stands. -/
theorem State.readWord_fst (s : State) (port : Bool) (h : isLo (a - 4) = false) : (s.readWord port a).1 = s.peek port a := by
  unfold State.readWord
  dsimp only
  split
  · rfl
  · rw [if_neg (by rw [h]; exact Bool.false_ne_true)]

/-- What a read leaves beside the measured values and the latches: its answer. -/
theorem registerRead_facts (s : State) (port : Bool) (a : Nat) (o : Out) :
    let t := (((s.touch a).readWord port a).2.emit o).restartPeak a
    t.out = o :: s.out ∧ Only [.free, .pwr, .latchA, .latchB, .out] s t := by
  have hread : Only [.free, .pwr, .latchA, .latchB] s ((s.touch a).readWord port a).2 := by simp
  have hpeak : Only [.pwr] (((s.touch a).readWord port a).2.emit o) ((((s.touch a).readWord port a).2.emit o).restartPeak a) := by simp
  exact ⟨(hpeak .out (by decide)).trans (congrArg (o :: ·) (hread .out (by decide))), by simp⟩

/-! ## X_LOCK and X_IRQ_FORCE -/

/-- A page's IRQ_STATUS with the bits of a word set. -/
def State.forced (s : State) (page : Nat) (v : Word) : State := s.setRg (page + 0x18) (s.rg (page + 0x18) ||| v.toNat)

theorem exec_irqForce {v : Word} (hup : s.hostUp = true) (hon : s.pageOn page = true) (hkind : pageKind page ≠ .none) :
    exec (.irqForce page v) s = .next (((List.range 32).filter fun i => v.getLsbD i).foldl (fun (u : State) i => u.forceRaise page i) (s.forced page v)) :=
  guard_of_true (by simp [hup, hon, hkind]) _ _

theorem State.rg_forced (s : State) (page : Nat) (v : Word) : (s.forced page v).rg (page + 0x18) = s.rg (page + 0x18) ||| v.toNat := by
  rw [State.forced, State.rg_setRg_self]
  exact Nat.mod_eq_of_lt (Nat.or_lt_two_pow (BitVec.isLt _) v.isLt)

theorem rg_foldl_forceRaise (l : List Nat) (s : State) (page a : Nat) : (l.foldl (fun (u : State) i => u.forceRaise page i) s).rg a = s.rg a :=
  rg_of_only (fs := [.out, .host]) (by simp [only_foldl]) (by decide) a

end

end Sys2Proof.Machine

open Sys2Proof Sys2Proof.Machine

/-- Settles O55: which accesses reach their page, what a write and a read do there, and the bits that LOCK and IRQ_FORCE set. -/
theorem registerAccessesReachTheirPage : Obligations.RegisterAccessesReachTheirPage := by
  intro s port a
  refine ⟨fun v hal hreach hplaced => ?placed, fun v hal hreach hreserved => ?reserved, fun v w t hal hreach hwords => ?words,
    fun v w h => ⟨exec_registerWrite_none h, exec_registerRead_none h⟩, fun v w c hc hoff hcmgr hclk hpwr => ?off, fun hal hreach => ?read,
    fun page hup hon hkind => ⟨guard_of_true (by simp [hup, hon, hkind]) _ _, ⟨_, exec_irqForce hup hon hkind, ?zero⟩, fun v => ⟨_, exec_irqForce hup hon hkind, ?bits⟩⟩⟩
  case placed =>
    obtain ⟨t, ht⟩ := State.writeWord_placed hplaced
    have hnext : exec (.registerWrite port a false v) s = .next t := by rw [exec_registerWrite hal hreach, State.writeWords_narrow, ht]
    exact ⟨t, hnext, commandsKeepTheirFootprint _ s t hnext⟩
  case reserved => rw [exec_registerWrite hal hreach, State.writeWords_narrow, State.writeWord_reserved hreserved]
  case words => rw [exec_registerWrite hal hreach, hwords]
  case off =>
    have hno : s.portReaches port a = false := State.portReaches_channel_off hc hoff hcmgr hclk hpwr
    exact ⟨exec_registerWrite_none (.inr hno), exec_registerRead_none (.inr hno)⟩
  case read =>
    obtain ⟨hout, honly⟩ := registerRead_facts s port a (.word (BitVec.ofNat 64 (((s.touch a).readWord port a).1 % 2 ^ 32)))
    refine ⟨_, _, exec_registerRead hal hreach, hout, honly .hbm (by decide), honly .store (by decide), honly .regs (by decide),
      honly .ledger (by decide), fun htouch hlo => ?_⟩
    rw [htouch, State.readWord_fst s port hlo]
  case zero =>
    rw [State.forced]
    simp
  case bits => rw [rg_foldl_forceRaise, State.rg_forced]

end

section
/-! PROOFS. The host ports: the aperture, BAR2, ACTIVATE, PERST and the links (R345 to R352). -/

namespace Sys2Proof.Machine

/-! ## What a record leaves -/

section
variable {P : State → Prop} {s : State}

/-- What every change of the ledger, every vector and the marks of a Fatal record leave, the writing of a record leaves. -/
theorem State.writeRec_preserves (hledger : ∀ u l, P u → P (u.setLedger l)) (hraise : ∀ u v, P u → P (u.raise v)) (hfatal : ∀ u, P u → P u.fatalWritten)
    (h : P s) (r : Rec) : P (s.writeRec r) := by
  unfold State.writeRec
  split
  next => exact hraise _ 243 (hledger s _ h)
  next k _ =>
    dsimp only
    have hput : P (s.setLedger (s.ledger.putAt k r)) := hledger s _ h
    split
    · unfold State.fatalLow
      split
      · exact hraise _ 244 (hfatal _ hput)
      · exact hfatal _ hput
    · exact hput

theorem State.admitRec_preserves (hledger : ∀ u l, P u → P (u.setLedger l)) (hraise : ∀ u v, P u → P (u.raise v)) (hfatal : ∀ u, P u → P u.fatalWritten)
    (h : P s) (ch : Nat) (r : Rec) : P (s.admitRec ch r) := by
  unfold State.admitRec
  split
  · exact hledger s _ h
  split
  · unfold State.holdRec
    split
    · exact hraise _ 243 (hledger s _ h)
    · exact hledger s _ h
  · exact State.writeRec_preserves hledger hraise hfatal h r

theorem State.log_preserves (hledger : ∀ u l, P u → P (u.setLedger l)) (hraise : ∀ u v, P u → P (u.raise v)) (hfatal : ∀ u, P u → P u.fatalWritten)
    (h : P s) (ch code sev cls srcType srcInst : Nat) (payload : List Byte) : P (s.log ch code sev cls srcType srcInst payload) := by
  have hnew : ∀ (u : State) (l : Ledger) (ch : Nat) (r : Rec), P u → P ((u.setLedger l).admitRec ch r) := fun u l ch r hu =>
    State.admitRec_preserves hledger hraise hfatal (hledger u l hu) ch r
  unfold State.log State.record
  dsimp only
  split
  · exact h
  split
  · exact hnew _ _ _ _ h
  split
  · split
    · exact hledger s _ h
    · exact hnew _ _ _ _ h
  · split
    · exact hledger s _ h
    · exact hnew _ _ _ _ (hledger s _ h)
  · exact hnew _ _ _ _ h

end

/-! ## The ports, under what is told to the host -/

/-- The ports without the vectors that wait for one to be active. -/
def State.ports (s : State) : HostPorts := { s.host with pendingVecs := [] }

section
variable {s t : State} {fs : List Part}

theorem ports_of_only (h : Only fs s t) (hp : Part.host ∉ fs) : t.ports = s.ports :=
  congrArg (fun x : HostPorts => { x with pendingVecs := [] }) (h .host hp)

theorem State.ports_raise (s : State) (v : Nat) : (s.raise v).ports = s.ports := by
  unfold State.raise
  split
  · split <;> rfl
  · rfl

theorem State.ports_event (s : State) (page bit v : Nat) : (s.event page bit v).ports = s.ports := by
  unfold State.event
  dsimp only
  split
  · exact State.ports_raise ..
  · rfl

theorem State.ports_log (s : State) (ch code sev cls srcType srcInst : Nat) (payload : List Byte) :
    (s.log ch code sev cls srcType srcInst payload).ports = s.ports :=
  State.log_preserves (P := fun u => u.ports = s.ports) (fun _ _ h => h) (fun u v h => (u.ports_raise v).trans h) (fun u h => (u.ports_raise 240).trans h) rfl ..

theorem State.ports_putStatus (s : State) (c d : Nat) (x : Xfer) (w : List Byte) : (s.putStatus c d x w).ports = s.ports := by
  unfold State.putStatus
  dsimp only
  split <;> exact ports_of_only (fs := [.out, .chans, .ctx0, .ctx1]) (by simp) (by decide)

theorem State.ports_dmaStop (s : State) (c d : Nat) (x : Xfer) (state flags ftype va : Nat) : (s.dmaStop c d x state flags ftype va).ports = s.ports := by
  unfold State.dmaStop
  dsimp only
  split
  · rw [State.ports_log, State.ports_putStatus]
    exact ports_of_only (fs := [.chans]) (by simp) (by decide)
  · rw [State.ports_putStatus]
    exact ports_of_only (fs := [.chans]) (by simp) (by decide)

theorem State.ports_dmaSignal (s : State) (c d bit : Nat) : (s.dmaSignal c d bit).ports = s.ports := by
  unfold State.dmaSignal
  dsimp only
  split
  · exact State.ports_raise ..
  · exact State.ports_event ..

theorem State.ports_stopHostSide (s : State) (c d : Nat) : (s.stopHostSide c d).ports = s.ports := by
  unfold State.stopHostSide
  split
  · split
    · rfl
    split
    · exact ports_of_only (fs := [.chans]) (by simp) (by decide)
    · rw [State.ports_dmaSignal, State.ports_dmaStop]
  · rfl

theorem ports_foldl {α : Type} {f : State → α → State} (hf : ∀ u x, (f u x).ports = u.ports) (l : List α) (s : State) : (l.foldl f s).ports = s.ports := by
  induction l generalizing s with
  | nil => rfl
  | cons x l ih => rw [List.foldl_cons, ih, hf]

/-- A request that ends as its port is left: served while the link is up, aborted otherwise. -/
theorem State.ports_endRequest (s : State) (r : Bar2Req) (up : Bool) : (if up then s.serveBar2 r else s.emit .completerAbort).ports = s.ports := by
  cases up
  · rfl
  · exact ports_of_only ((State.serveBar2_only (ps := [.out, .hbm, .ctx0, .ctx1, .chans]) (by decide) r).mpr .refl) (by decide)

/-- Leaving a port ends its requests and keeps the ports. -/
theorem State.leavePort_ports (s : State) : s.leavePort.ports = { s.ports with bar2Open := [] } := by
  unfold State.leavePort
  dsimp only
  rw [ports_foldl fun u c => ports_foldl (fun w d => w.ports_stopHostSide c d) _ u, ports_foldl]
  · rfl
  · exact fun u r => u.ports_endRequest r _

theorem State.host_foldl_emit {α : Type} (o : α → Out) (l : List α) (s : State) : (l.foldl (fun (u : State) x => u.emit (o x)) s).host = s.host := by
  induction l generalizing s with
  | nil => rfl
  | cons x l ih => rw [List.foldl_cons, ih]; rfl

theorem State.movePending_host (s : State) : s.movePending.host = { s.host with pendingVecs := [] } := State.host_foldl_emit ..

theorem State.raise_host (s : State) (v : Nat) (h : s.host.noneActive = false) : (s.raise v).host = s.host := by
  rw [State.raise, if_neg (by rw [h]; exact Bool.false_ne_true)]
  rfl

end

/-! ## The commands -/

section
variable {s : State} {port : Bool} {off len : Nat}

theorem exec_apertureApply {v : Word} (h : s.host.apPending = some v) : exec .apertureApply s =
    guard s.host.bar2Open.isEmpty s (s.setHost { s.host with aperture := v, apPending := none }) := by
  change execApertureApply s = _
  rw [execApertureApply, h]

/-- BAR2 on the active port of a device that is not Dark. -/
theorem exec_bar2Access (ha : s.alive = true) (hact : s.host.noneActive = false) (op : Bar2Op) : exec (.bar2Access s.host.active op) s = match op with
    | .read off len => .next (s.bar2Go { port := s.host.active, space := s.apSpace, off := s.apOff off, len := len, data := none })
    | .write off l => .next (s.bar2Go { port := s.host.active, space := s.apSpace, off := s.apOff off, len := l.length, data := some l })
    | .poisonedWrite _ _ => .next (s.setHost { s.host with poisonedWrites := capTo max32 (s.host.poisonedWrites + 1) })
    | .putTensor n h r => .next (s.modCtx n fun c => { c with tensors := tins h r c.tensors })
    | .putShard n r => .next (s.modCtx n fun c => { c with shard := some r })
    | .putSlice n r => .next (s.modCtx n fun c => { c with slicePlan := some r })
    | .putSpb n r => .next (s.modCtx n fun c => { c with spbHost := some r }) := by
  change execBar2Access s.host.active op s = _
  unfold execBar2Access
  rw [if_neg (by rw [ha]; decide), if_neg (by simp [hact])] <;> rfl

theorem exec_bar2Access_standby (ha : s.alive = true) (op : Bar2Op) : exec (.bar2Access (!s.host.active) op) s = .next (s.emit .unsupported) := by
  change execBar2Access (!s.host.active) op s = _
  unfold execBar2Access
  rw [if_neg (by rw [ha]; decide), if_pos (by simp)]

theorem exec_bar2Access_dark (ha : s.alive = false) (op : Bar2Op) : exec (.bar2Access port op) s = .next s := by
  change execBar2Access port op s = _
  unfold execBar2Access
  exact if_pos (by rw [ha]; rfl)

/-- A read within its space that meets nothing held and nothing bad. -/
theorem State.bar2Go_read {r : Bar2Req} (hin : r.off + r.len ≤ s.spaceSize r.space) (hwait : s.bar2Waits r = false) (hdata : r.data = none)
    (hgood : (burstsOf r.off r.len).any (fun o => s.burstBad r.space o) = false) : s.bar2Go r = s.emit (.bytes false (s.hbmRead r.space r.off r.len)) := by
  rw [State.bar2Go, if_neg (Nat.not_lt.mpr hin), if_neg (by rw [hwait]; exact Bool.false_ne_true), State.serveBar2, hdata]
  exact if_neg (by rw [hgood]; exact Bool.false_ne_true)

/-- The port is down, in reset or on a device without rails. -/
def State.portOff (s : State) (port : Bool) : Bool :=
  (s.chan (portChan port)).down || !s.dev.aux || !s.dev.railsUp || (if port then s.host.perstB else s.host.perstA)

/-- The device once the other port has been left. -/
def State.vacated (s : State) : State := if s.host.noneActive then s else (s.setHost { s.host with noneActive := true }).leavePort

/-- A port takes the host's traffic. -/
def State.takeOver (s : State) (port : Bool) : State := (s.vacated.setHost { s.vacated.host with active := port, noneActive := false }).movePending

theorem exec_activate (hon : s.portOff port = false) (hother : s.host.noneActive = true ∨ port ≠ s.host.active) :
    exec (.activate port) s = .next (((s.takeOver port).setMram { (s.takeOver port).mram with failover := capTo 65535 ((s.takeOver port).mram.failover + 1) }).raise 253) := by
  change execActivate port s = _
  unfold execActivate
  dsimp only
  rw [if_neg]
  · rfl
  · rw [← State.portOff, hon, Bool.false_or]
    obtain h | h := hother <;> simp [h]

theorem exec_activate_active (hact : s.host.noneActive = false) (hport : port = s.host.active) : exec (.activate port) s = .next s := by
  change execActivate port s = _
  unfold execActivate
  exact if_pos (by simp [hact, hport])

theorem State.takeOver_host (s : State) (port : Bool) : (s.takeOver port).host = { s.vacated.host with active := port, noneActive := false, pendingVecs := [] } :=
  State.movePending_host _

/-- The ports with one of them in reset. -/
def HostPorts.perst (h : HostPorts) (port : Bool) : HostPorts :=
  if port then { h with perstB := true, linkB := false } else { h with perstA := true, linkA := false }

theorem HostPorts.perst_active (h : HostPorts) (port : Bool) : (h.perst port).active = h.active := by cases port <;> rfl
theorem HostPorts.perst_noneActive (h : HostPorts) (port : Bool) : (h.perst port).noneActive = h.noneActive := by cases port <;> rfl
theorem HostPorts.perst_set (h : HostPorts) (port : Bool) : (if port then (h.perst port).perstB else (h.perst port).perstA) = true := by cases port <;> rfl

/-- The active port is the one that goes. -/
def State.leaves (s : State) (port : Bool) : Bool := !s.host.noneActive && port == s.host.active

/-- A port reset, with the active port's requests ended. -/
def State.perstAsserted (s : State) (port : Bool) : State :=
  let t := s.setHost { s.host.perst port with noneActive := (s.host.perst port).noneActive || s.leaves port }
  if s.leaves port then t.leavePort else t

theorem exec_perstAssert : exec (.perstAssert port) s = .next (s.perstAsserted port) := rfl

theorem State.perstAsserted_ports (s : State) (port : Bool) :
    (if port then (s.perstAsserted port).host.perstB else (s.perstAsserted port).host.perstA) = true ∧ (s.perstAsserted port).host.active = s.host.active ∧
      (port = s.host.active → (s.perstAsserted port).host.noneActive = true) := by
  have hports : ∃ l, (s.perstAsserted port).ports = { s.host.perst port with noneActive := (s.host.perst port).noneActive || s.leaves port, bar2Open := l, pendingVecs := [] } := by
    unfold State.perstAsserted
    dsimp only
    split
    · exact ⟨[], State.leavePort_ports _⟩
    · exact ⟨_, rfl⟩
  obtain ⟨l, hl⟩ := hports
  have hperst : ∀ h : HostPorts, (if port then h.perstB else h.perstA) =
      if port then ({ h with pendingVecs := [] } : HostPorts).perstB else ({ h with pendingVecs := [] } : HostPorts).perstA := fun _ => rfl
  refine ⟨?_, (congrArg HostPorts.active hl).trans (s.host.perst_active port), fun hport => (congrArg HostPorts.noneActive hl).trans ?_⟩
  · rw [hperst]
    exact (congrArg (fun h : HostPorts => if port then h.perstB else h.perstA) hl).trans (s.host.perst_set port)
  · dsimp only
    rw [HostPorts.perst_noneActive, State.leaves, hport]
    cases s.host.noneActive <;> simp

/-- The ports once a link has changed: a link that went down has ended its requests. -/
def HostPorts.linked (h : HostPorts) (port up : Bool) : HostPorts :=
  { (if port then { h with linkB := up } else { h with linkA := up } : HostPorts) with bar2Open := if up then h.bar2Open else h.bar2Open.filter fun r => r.port != port }

def State.linkChanged (s : State) (port up : Bool) : State :=
  if up then s.setHost (s.host.linked port up)
  else (s.host.bar2Open.filter fun r => r.port == port).foldl (fun (u : State) _ => u.emit .completerAbort) (s.setHost (s.host.linked port up))

theorem exec_hostPortLinkChange {up : Bool} : exec (.hostPortLinkChange port up) s = .next (s.linkChanged port up) := by
  cases port <;> rfl

theorem State.linkChanged_host (s : State) (port up : Bool) : (s.linkChanged port up).host = s.host.linked port up := by
  unfold State.linkChanged
  split
  · rfl
  · exact State.host_foldl_emit ..

end

end Sys2Proof.Machine

open Sys2Proof Sys2Proof.Machine

/-- Settles O56: BAR2 by port and operation, and what activation, a port reset and a link change leave of the ports. -/
theorem hostPortsTakeTurns : Obligations.HostPortsTakeTurns := by
  intro s
  refine ⟨fun hup v => guard_of_true hup _ _, fun v hv hopen => ?apply, fun v hv hopen => ?keep, fun ha hact => ?bar2, fun ha port op => exec_bar2Access_dark ha op,
    fun port hdown haux hrails hperst hother => ?activate, fun port => exec_activate_active, fun port => ?perst, ⟨rfl, rfl⟩, fun port up => ?link⟩
  case apply =>
    rw [exec_apertureApply hv, hopen]
    exact guard_of_true rfl _ _
  case keep =>
    rw [exec_apertureApply hv]
    exact guard_of_false (by simpa using hopen) _ _
  case bar2 =>
    refine ⟨exec_bar2Access_standby ha, fun off len hout => ?_, fun off len hin hwait hgood => ?_, fun off l => exec_bar2Access ha hact _, fun off len => ?_,
      fun n h r => exec_bar2Access ha hact _⟩
    · exact (exec_bar2Access ha hact _).trans (congrArg Host.Outcome.next (if_pos hout))
    · exact (exec_bar2Access ha hact _).trans (congrArg Host.Outcome.next (State.bar2Go_read hin hwait rfl hgood))
    · rw [exec_bar2Access ha hact]
      dsimp only
      rw [capTo_eq_min]
      rfl
  case activate =>
    have hon : s.portOff port = false := by simp [State.portOff, hdown, haux, hrails, hperst]
    refine ⟨_, exec_activate hon hother, ?_⟩
    have hhost := s.takeOver_host port
    rw [State.raise_host _ _ (by rw [State.setMram_host, hhost]), State.setMram_host, hhost]
    exact ⟨rfl, rfl, rfl⟩
  case perst =>
    obtain ⟨hset, hactive, hnone⟩ := s.perstAsserted_ports port
    refine ⟨_, exec_perstAssert, ?_, fun hport => ?_, ?_⟩
    · exact hset
    · exact hnone hport
    · exact hactive
  case link =>
    refine ⟨_, exec_hostPortLinkChange, ?_⟩
    rw [State.linkChanged_host]
    refine ⟨?_, fun hdown r hr => ?_⟩
    · cases port <;> rfl
    · subst hdown
      simpa using (List.mem_filter.mp hr).2

end

section
/-! PROOFS. What the aux rail serves: the Watch Port, SMBus and the TAP (R157, R338, R353 to R359, R375). -/

namespace Sys2Proof.Machine

section
variable {s : State}

theorem length_leBytes (n v : Nat) : (leBytes n v).length = n := by
  induction n generalizing v with
  | zero => rfl
  | succ n ih => rw [leBytes, List.length_cons, ih]

/-! ## The Watch Port and SMBus -/

/-- The words that the device knows are not sampled. -/
theorem State.sample_known {w : Nat} (h : w < 8 ∨ 18 ≤ w) : s.sample w = s := by
  have hw : ¬ (8 ≤ w ∧ w < 18) := by omega
  rw [State.sample, decide_eq_false hw, Bool.and_false]
  rfl

theorem State.length_readings (s : State) (on : Bool) (n : Nat) : (s.readings on n).1.length = 2 * n := by
  induction n generalizing s with
  | zero => rfl
  | succ n ih =>
    rw [State.readings]
    simp only [List.length_append, length_leBytes, ih]
    omega

theorem State.readings_keeps (s : State) (on : Bool) (n : Nat) : Only [.free] s (s.readings on n).2 := by
  induction n generalizing s with
  | zero => exact .refl
  | succ n ih => exact (only_iff (ih s.draw.2) fun _ hp => hp).mpr ((State.draw_only (by decide)).mpr .refl)

/-- The target answers after it has taken its readings. -/
theorem State.smb_facts {t : State} {l : List Byte} (h : Only [.free] s t) : (t.smb l).out = .smb l :: s.out ∧ Only [.free, .out] s (t.smb l) :=
  ⟨congrArg (Out.smb l :: ·) (h .out (by decide)), (State.emit_only (by decide) _).mpr (Only.mono h (by decide))⟩

/-! ## The TAP -/

theorem State.loadIr_driving (h : s.dev.sysResetN = true) (ir : Nat) :
    s.loadIr ir true = s.setJtag { ir := ir, effective := false, capture := 0x05, stack := none } := if_pos (by rw [h]; rfl)

theorem State.loadIr_held (h : s.dev.sysResetN = false) (ir : Nat) :
    s.loadIr ir true = s.setJtag { ir := ir, effective := true, capture := 0x01, stack := none } := if_neg (by rw [h]; decide)

/-- An instruction that drives the lands captures them while SYS_RESET_N is asserted and is a bypass otherwise. -/
theorem State.scanIf_driving (s : State) (ir : Nat) : ∃ l, ((s.loadIr ir true).scanIf).out = .tdo l :: s.out ∧ ((s.loadIr ir true).scanIf).jtag.ir = ir ∧
    ((s.loadIr ir true).scanIf).jtag.effective = !s.dev.sysResetN ∧ (s.dev.sysResetN = true → l = [false] ∧ ((s.loadIr ir true).scanIf).free = s.free) := by
  cases h : s.dev.sysResetN with
  | true =>
    rw [State.loadIr_driving h]
    exact ⟨_, rfl, rfl, rfl, fun _ => ⟨rfl, rfl⟩⟩
  | false =>
    rw [State.loadIr_held h]
    exact ⟨_, rfl, rfl, rfl, fun h => absurd h (by decide)⟩

theorem exec_stack1500 (haux : s.dev.aux = true) (k : Nat) : exec (.stack1500 k) s =
    .next (if k < 32 ∧ (!s.alive || (s.chan (k / 8)).inReset) then (s.loadIr 0x10 false).setJtag { (s.loadIr 0x10 false).jtag with stack := some k } else s.loadIr 0x10 false) :=
  guard_of_true haux _ _

/-- The TAP's instructions and its reset touch the port, its data and what a capture draws. -/
theorem footprint_tap {c : Instr} (h : c ∈ [Instr.bypass, .idcode, .samplePreload, .extest, .extestPulse, .extestTrain, .clampIr, .highz, .trstNReset]) :
    ∀ p ∈ footprint c, p ∈ [Part.free, Part.out, Part.jtag] := by
  fin_cases h <;> decide

end

end Sys2Proof.Machine

open Sys2Proof Sys2Proof.Machine

/-- Settles O59: the Watch Port's words and writes, and the SMBus target's blocks. -/
theorem watchAndManagementPorts : Obligations.WatchAndManagementPorts := by
  intro s haux
  refine ⟨fun w => guard_of_true haux _ _, fun w hw => ?known, fun ha => ⟨fun v => ⟨_, guard_of_true ha _ _, fun i hi => ?ack, rfl, ?watch⟩, guard_of_true ha _ _⟩,
    guard_of_true haux _ _, guard_of_true haux _ _, ?thermal, ?power,
    fun slot hslot => ?slot, fun slot hslot => guard_of_false ?beyond _ _,
    ⟨guard_of_true haux _ _, guard_of_true haux _ _⟩, guard_of_true haux _ _⟩
  case known =>
    have hread : exec (.wpRead w) s = .next ((s.sample w).emit (.wpData (BitVec.ofNat 16 ((s.sample w).wpWord w)))) := guard_of_true haux _ _
    rw [hread, State.sample_known hw]
  case ack =>
    change (s.watch.alert &&& ~~~(v.setWidth 5)).getLsbD i = _
    rw [BitVec.getLsbD_and, BitVec.getLsbD_not, BitVec.getLsbD_setWidth, decide_eq_true hi, Bool.true_and, Bool.true_and]
  case watch => simp
  case thermal =>
    obtain ⟨hout, honly⟩ := State.smb_facts (l := (s.readings s.alive 8).1) (s.readings_keeps s.alive 8)
    exact ⟨_, _, guard_of_true haux _ _, hout, State.length_readings .., honly⟩
  case power =>
    have hkeep : Only [.free] s ((s.readings true 3).2.readings s.alive 12).2 := 
      (only_iff (State.readings_keeps _ s.alive 12) fun _ hp => hp).mpr (s.readings_keeps true 3)
    obtain ⟨hout, honly⟩ := State.smb_facts (l := (s.readings true 3).1 ++ [0#8, 0#8] ++ ((s.readings true 3).2.readings s.alive 12).1) hkeep
    refine ⟨_, _, guard_of_true haux _ _, hout, ?_, honly⟩
    simp only [List.length_append, State.length_readings, List.length_cons, List.length_nil]
  case beyond =>
    have hge : ¬ slot < allSlots := Nat.not_lt.mpr hslot
    rw [decide_eq_false hge, Bool.and_false]
  case slot =>
    have hlt : slot < allSlots := hslot
    have hsel : exec (.smbLedgSel slot) s = .next { s with smbSlot := slot } := guard_of_true (by rw [haux, decide_eq_true hlt]; rfl) _ _
    exact ⟨_, hsel, rfl, commandsKeepTheirFootprint _ s _ hsel⟩

/-- Settles O60: each instruction's register and answer, and the stack that STACK_1500 selects. -/
theorem jtagInstructionsLoadTheirRegister : Obligations.JtagInstructionsLoadTheirRegister := by
  intro s haux
  refine ⟨⟨guard_of_true haux _ _, guard_of_true haux _ _, guard_of_true haux _ _, guard_of_true haux _ _⟩, ⟨_, _, guard_of_true haux _ _, rfl, rfl, rfl⟩, fun c ir hc => ?drives,
    fun k hk hfree => ?selects, fun k hk => ?refuses, guard_of_true haux _ _, fun c hc t ht => Only.mono (commandsKeepTheirFootprint c s t ht) (footprint_tap hc)⟩
  case drives =>
    obtain ⟨l, hl⟩ := s.scanIf_driving ir
    refine ⟨_, l, ?_, hl⟩
    obtain ⟨rfl, rfl⟩ | ⟨rfl, rfl⟩ | ⟨rfl, rfl⟩ := hc
    · exact guard_of_true haux _ _
    · exact guard_of_true haux _ _
    · exact guard_of_true haux _ _
  case selects =>
    refine ⟨_, (exec_stack1500 haux k).trans (congrArg Host.Outcome.next (if_pos ⟨hk, ?_⟩)), rfl, rfl⟩
    obtain h | h := hfree <;> simp [h]
  case refuses =>
    refine ⟨_, (exec_stack1500 haux k).trans (congrArg Host.Outcome.next (if_neg ?_)), rfl⟩
    rintro ⟨hlt, hfree⟩
    obtain h | ⟨ha, hr⟩ := hk
    · omega
    · simp [ha, hr] at hfree

end

section
/-! PROOFS. Input power, capping, rails, the core clock and temperature; start-up and the ways to Dark (R303, R311, R357 to R379). -/

namespace Sys2Proof.Machine

/-! ## Power and heat -/

section
variable {s t : State} {fs : List Part}

theorem pwr_of_only (h : Only fs s t) (hp : Part.pwr ∉ fs) : t.pwr = s.pwr := h .pwr hp

theorem State.pwr_log (s : State) (ch code sev cls srcType srcInst : Nat) (payload : List Byte) : (s.log ch code sev cls srcType srcInst payload).pwr = s.pwr :=
  pwr_of_only (fs := [.out, .ledger, .host, .watch]) (by simp) (by decide)

theorem State.pwr_raise (s : State) (v : Nat) : (s.raise v).pwr = s.pwr := pwr_of_only (fs := [.out, .host]) (by simp) (by decide)

/-- A set ALERT bit stays set while a record is written and a context is lost. -/
def Alerted (i : Nat) (s : State) : Prop := s.watch.alert.getLsbD i = true

theorem Alerted.of_only {i : Nat} (h : Alerted i s) (ht : Only fs s t) (hp : Part.watch ∉ fs) : Alerted i t := by
  have hwatch : t.watch = s.watch := ht .watch hp
  rw [Alerted, hwatch]
  exact h

theorem Alerted.raise {i : Nat} (h : Alerted i s) (v : Nat) : Alerted i (s.raise v) := h.of_only (fs := [.out, .host]) (by simp) (by decide)

theorem Alerted.alert {i : Nat} (h : Alerted i s) (j : Nat) : Alerted i (s.alert j) := by
  change (s.watch.alert ||| BitVec.ofNat 5 (2 ^ j)).getLsbD i = true
  rw [BitVec.getLsbD_or, h, Bool.true_or]

theorem Alerted.log {i : Nat} (h : Alerted i s) (ch code sev cls srcType srcInst : Nat) (payload : List Byte) :
    Alerted i (s.log ch code sev cls srcType srcInst payload) :=
  State.log_preserves (fun _ _ h => h) (fun _ _ h => h.raise _) (fun _ h => (h.raise 240).alert 2) h ..

theorem Alerted.loseCtx {i : Nat} (h : Alerted i s) (n cause q qindex seq : Nat) (keep : Bool) : Alerted i (s.loseCtx n cause q qindex seq keep) := by
  unfold State.loseCtx
  split
  · exact h
  · have hctx : Alerted i (((s.abortTags n).stopEngines n).modCtx n (·.lose keep)) :=
      h.of_only (fs := [.out, .squads, .chans, .ctx0, .ctx1]) (by simp) (by decide)
    exact (hctx.log ..).raise _

theorem Alerted.sideline {i : Nat} (h : Alerted i s) (hup : s.up = true) (trigger ch : Nat) : Alerted i (s.sideline trigger ch) := by
  rw [State.sideline_of_up hup]
  have hdev : Alerted i (s.setDev { s.dev with mode := .sideline }) := h
  exact ((((((hdev.loseCtx ..).loseCtx ..).log ..).raise _).raise _).alert _)

theorem exec_capStepDown {w : Nat} (ha : s.alive = true) (hw : s.capNow < w) : exec (.capStepDown w) s =
    let t := s.setPwr { s.pwr with pIn := w, capVal := stepDown s.pwr.capVal }
    .next (if s.clk.cclk = 8 ∧ !s.pwr.capUnmet then
        ((t.setPwr { t.pwr with capUnmet := true }).log 4 0x0803 1 0 0x42 0 (leBytes 2 w ++ leBytes 2 s.capNow)).raise 254
      else t) :=
  guard_of_true (by rw [ha, decide_eq_true hw]; rfl) _ _

theorem mem_cons_of_not_contains (l : List (Nat × Nat)) (x : Nat × Nat) : x ∈ (if l.contains x then l else x :: l) := by
  split
  next h => simpa using h
  next => exact List.mem_cons_self

end

/-! ## The power-down -/

section
variable {s t : State}

/-- What the power-down finds of the device, whose records are all written. -/
def State.powerSaved (s : State) (trigger : Nat) : State :=
  let t := (s.advancePcycle.darkRecord trigger).holdupHeld
  t.setMram { t.mram with ponS := t.dev.ponLive, coef := t.links.filterMap fun e => if e.2.coef.isEmpty then none else some (e.1, e.2.coef) }

/-- The device is powered: not Dark, or in start-up. -/
def State.powered (s : State) : Bool := s.alive || decide (0 < s.dev.step)

theorem State.powerDown_powered (h : s.powered = true) (trigger : Nat) : s.powerDown trigger = (s.powerSaved trigger).deviceReset := if_pos h

theorem State.powerSaved_key (s : State) (trigger : Nat) : (s.powerSaved trigger).mram.key = s.mram.key := by
  have hheld : Only [.out, .ledger, .host, .watch] s.advancePcycle (s.advancePcycle.darkRecord trigger).holdupHeld := by simp
  have hkey : s.advancePcycle.mram.key = s.mram.key := by
    unfold State.advancePcycle
    split <;> rfl
  exact (congrArg Mram.key (mram_of_only hheld (by decide))).trans hkey

theorem State.powerSaved_keeps (s : State) (trigger : Nat) : Only [.dev, .mram, .out, .ledger, .host, .watch] s (s.powerSaved trigger) := by
  simp [State.powerSaved]

/-- A device that is Dark: nothing in memory, both contexts not started, start-up not begun. -/
structure Darkened (s t : State) : Prop where
  mode : t.dev.mode = .dark
  step : t.dev.step = 0
  hbm : t.hbm = []
  store : t.store = []
  ctx0 : t.ctx0.started = false
  ctx1 : t.ctx1.started = false
  key : t.mram.key = s.mram.key
  pending : t.pending = s.pending

theorem State.powerDown_darkened (h : s.powered = true) (trigger : Nat) : Darkened s (s.powerDown trigger) := by
  rw [State.powerDown_powered h]
  exact ⟨rfl, rfl, rfl, rfl, rfl, rfl, s.powerSaved_key trigger, s.powerSaved_keeps trigger .pending (by decide)⟩

theorem State.powerDown_thermTrip (h : s.powered = true) (trigger : Nat) : (s.powerDown trigger).pwr.thermTrip = s.pwr.thermTrip := by
  rw [State.powerDown_powered h]
  change (s.powerSaved trigger).pwr.thermTrip = s.pwr.thermTrip
  rw [pwr_of_only (s.powerSaved_keeps trigger) (by decide)]

/-- The record of an overvoltage leaves the device powered as it was. -/
theorem State.powered_log (s : State) (ch code sev cls srcType srcInst : Nat) (payload : List Byte) :
    (s.log ch code sev cls srcType srcInst payload).powered = s.powered ∧ (s.log ch code sev cls srcType srcInst payload).mram = s.mram ∧
      (s.log ch code sev cls srcType srcInst payload).pending = s.pending := by
  have honly : Only [.out, .ledger, .host, .watch] s (s.log ch code sev cls srcType srcInst payload) := by simp
  refine ⟨?_, mram_of_only honly (by decide), honly .pending (by decide)⟩
  rw [State.powered, alive_of_only honly (by decide), dev_of_only honly (by decide)]
  rfl

theorem exec_vinUndervoltage {v : Nat} (h : v < 3800) : exec (.vinUndervoltage v) s = .next (s.powerDown 10) := guard_of_true (decide_eq_true h) _ _

theorem exec_vinOvervoltage {v : Nat} (h : 6400 < v) (hp : s.powered = true) :
    exec (.vinOvervoltage v) s = .next ((s.log 4 0x0802 2 0 0x42 0 (leBytes 2 v)).powerDown 13) :=
  guard_of_true (by rw [decide_eq_true h]; exact hp) _ _

theorem exec_sysResetNAssert {ns : Nat} (h : 10000 < ns) :
    exec (.sysResetNAssert ns) s = .next ((s.powerDown 11).setDev { (s.powerDown 11).dev with sysResetN := false }) :=
  guard_of_true (decide_eq_true h) _ _

/-- Each way down leaves the device Dark. -/
theorem darkened_of_powerDown (hp : s.powered = true)
    (h : (∃ v, v < 3800 ∧ exec (.vinUndervoltage v) s = .next t) ∨ (∃ v, 6400 < v ∧ exec (.vinOvervoltage v) s = .next t) ∨
      (∃ ns, 10000 < ns ∧ exec (.sysResetNAssert ns) s = .next t) ∨ exec .auxRailLoss s = .next t ∨ exec .thermtripRelease s = .next t) : Darkened s t := by
  have hdown := State.powerDown_darkened hp
  obtain ⟨v, hv, h⟩ | ⟨v, hv, h⟩ | ⟨ns, hns, h⟩ | h | h := h
  · obtain rfl := Host.Outcome.next.inj ((exec_vinUndervoltage hv).symm.trans h)
    exact hdown 10
  · obtain rfl := Host.Outcome.next.inj ((exec_vinOvervoltage hv hp).symm.trans h)
    obtain ⟨hpow, hmram, hpend⟩ := s.powered_log 4 0x0802 2 0 0x42 0 (leBytes 2 v)
    have hlog := State.powerDown_darkened (hpow.trans hp) 13
    exact ⟨hlog.mode, hlog.step, hlog.hbm, hlog.store, hlog.ctx0, hlog.ctx1, hlog.key.trans (congrArg Mram.key hmram), hlog.pending.trans hpend⟩
  · obtain rfl := Host.Outcome.next.inj ((exec_sysResetNAssert hns).symm.trans h)
    obtain ⟨hmode, hstep, hhbm, hstore, h0, h1, hkey, hpend⟩ := hdown 11
    exact ⟨hmode, hstep, hhbm, hstore, h0, h1, hkey, hpend⟩
  · obtain rfl := Host.Outcome.next.inj h
    obtain ⟨hmode, hstep, hhbm, hstore, h0, h1, hkey, hpend⟩ := hdown 10
    exact ⟨hmode, hstep, hhbm, hstore, h0, h1, hkey, hpend⟩
  · obtain rfl := Host.Outcome.next.inj h
    obtain ⟨hmode, hstep, hhbm, hstore, h0, h1, hkey, hpend⟩ := hdown 10
    exact ⟨hmode, hstep, hhbm, hstore, h0, h1, hkey, hpend⟩

end

/-! ## Start-up -/

section
variable {s t : State}

/-- Step 1 of start-up: the rails, the references and the straps. -/
def State.stepOne (s : State) : State :=
  let t := s.deviceReset
  let t := t.setDev { t.dev with aux := true, ponLive := if s.dev.aux then t.dev.ponLive else t.mram.ponS, step := 1, fill18Now := t.mram.fill18, railsUp := true, sysResetN := true }
  let t := t.setClk { t.clk with trefLock := true }
  t.setRg (pgDEV + 0x110) (t.dev.strap % 4096)

/-- Step 1 with an interrupted erase finished. -/
def State.erasedOne (s : State) : State := match s.stepOne.mram.erase with
  | some scope => (s.stepOne.endErase scope).setDev s.stepOne.dev
  | none => s.stepOne

theorem exec_startup (ha : s.alive = false) (h0 : s.dev.step = 0) : exec .startup s = .next s.erasedOne := guard_of_true (by rw [ha, h0]; rfl) _ _

/-- An erase that ends leaves the key and the lost map. -/
theorem State.endErase_mram (s : State) (scope : Nat) : (s.endErase scope).mram = { s.mram with erase := none } := by
  unfold State.endErase
  dsimp only
  exact mram_of_only ((State.flushErase_only (ps := [.out, .ledger, .host, .watch]) (by decide)).mpr .refl) (by decide)

theorem State.erasedOne_facts (s : State) : s.erasedOne.dev = s.stepOne.dev ∧ s.erasedOne.hbm = [] ∧ s.erasedOne.store = [] ∧ s.erasedOne.ctx0.started = false ∧
    s.erasedOne.ctx1.started = false ∧ s.erasedOne.mram.key = s.mram.key ∧ s.erasedOne.mram.lost = s.mram.lost := by
  unfold State.erasedOne
  split
  next scope _ =>
    have honly : Only [.out, .mram, .ledger, .host, .watch] s.stepOne (s.stepOne.endErase scope) := (State.endErase_only (by decide) scope).mpr .refl
    refine ⟨rfl, honly .hbm (by decide), honly .store (by decide), congrArg Ctx.started (honly .ctx0 (by decide)), congrArg Ctx.started (honly .ctx1 (by decide)), ?_, ?_⟩
    · exact (congrArg Mram.key (s.stepOne.endErase_mram scope)).trans rfl
    · exact (congrArg Mram.lost (s.stepOne.endErase_mram scope)).trans rfl
  next => exact ⟨rfl, rfl, rfl, rfl, rfl, rfl, rfl⟩

/-! ## Boot -/

theorem exec_bootGo (hact : s.host.noneActive = false) (hstep : s.dev.step = 1) (hboot : s.host.boot = 0 ∨ s.host.boot = 3) :
    exec (.bootGo s.host.active) s = .next (s.setHost { s.host with boot := 1 }) := by
  change execBootGo s.host.active s = _
  rw [execBootGo, if_neg (by simp [hact]), if_pos]
  simpa [hstep] using hboot

theorem exec_bootGo_standby : exec (.bootGo (!s.host.active)) s = .next (s.badCommand pgHOST) := by
  change execBootGo (!s.host.active) s = _
  rw [execBootGo, if_pos (by simp)]

/-- A good image is taken: step 2. -/
def State.imageTaken (s : State) (img : Image) : State :=
  (s.setHost { s.host with boot := 2, bootResult := 1, image := img.bytes }).setDev { s.dev with fwVer := img.version, step := 2 }

theorem exec_bootVerify {img : Image} {found : List BringUp} (hboot : s.host.boot = 1) (ha : s.alive = false) (hj : s.jtag.stack = none) :
    exec (.bootVerify img found) s = if s.imageCode img ≠ 1 then .next (s.bootFailed (s.imageCode img))
      else .next ((((s.imageTaken img).startArrays).startStacks found).startLinks found).startReady := by
  change execBootVerify img found s = _
  unfold execBootVerify
  exact if_neg (by simp [hboot, ha, hj])

/-- The image's version and verdict stand. -/
structure Booted (v : Word) (s : State) : Prop where
  boot : s.host.boot = 2
  result : s.host.bootResult = 1
  version : s.dev.fwVer = v

namespace Booted
variable {v : Word} {fs : List Part}

theorem of_only (h : Booted v s) (ht : Only fs s t) (hp : Part.host ∉ fs ∧ Part.dev ∉ fs) : Booted v t := by
  have hhost : t.host = s.host := ht .host hp.1
  exact ⟨by rw [hhost]; exact h.boot, by rw [hhost]; exact h.result, by rw [dev_of_only ht hp.2]; exact h.version⟩

theorem raise (h : Booted v s) (k : Nat) : Booted v (s.raise k) := by
  unfold State.raise
  split
  · split
    · exact h
    · exact ⟨h.boot, h.result, h.version⟩
  · exact ⟨h.boot, h.result, h.version⟩

theorem setDev (h : Booted v s) {d : Dev} (hd : d.fwVer = s.dev.fwVer) : Booted v (s.setDev d) := ⟨h.boot, h.result, hd.trans h.version⟩

theorem alert (h : Booted v s) (i : Nat) : Booted v (s.alert i) := ⟨h.boot, h.result, h.version⟩

theorem fatalWritten (h : Booted v s) : Booted v s.fatalWritten := ⟨(h.raise 240).boot, (h.raise 240).result, (h.raise 240).version⟩

theorem writeRec (h : Booted v s) (r : Rec) : Booted v (s.writeRec r) :=
  State.writeRec_preserves (fun _ _ h => ⟨h.boot, h.result, h.version⟩) (fun _ _ h => h.raise _) (fun _ h => h.fatalWritten) h r

theorem log (h : Booted v s) (ch code sev cls srcType srcInst : Nat) (payload : List Byte) : Booted v (s.log ch code sev cls srcType srcInst payload) :=
  State.log_preserves (fun _ _ h => ⟨h.boot, h.result, h.version⟩) (fun _ _ h => h.raise _) (fun _ h => h.fatalWritten) h ..

theorem loseCtx (h : Booted v s) (n cause q qindex seq : Nat) (keep : Bool) : Booted v (s.loseCtx n cause q qindex seq keep) := by
  unfold State.loseCtx
  split
  · exact h
  · have hctx : Booted v (((s.abortTags n).stopEngines n).modCtx n (·.lose keep)) :=
      h.of_only (fs := [.out, .squads, .chans, .ctx0, .ctx1]) (by simp) (by decide)
    exact (hctx.log ..).raise _

theorem sideline (h : Booted v s) (trigger ch : Nat) : Booted v (s.sideline trigger ch) := by
  unfold State.sideline
  split
  · exact h
  · split
    · exact h
    · exact h.setDev rfl
  · have hmode : Booted v (s.setDev { s.dev with mode := .sideline }) := ⟨h.boot, h.result, h.version⟩
    exact ((((hmode.loseCtx ..).loseCtx ..).log ..).raise _ |>.raise _).alert _

theorem setMode (h : Booted v s) (m : Mode) (trigger ch : Nat) : Booted v (s.setMode m trigger ch) := by
  unfold State.setMode
  dsimp only
  split
  · exact h
  · have hmode : Booted v ((s.setDev { s.dev with mode := m }).alert 0) := ⟨h.boot, h.result, h.version⟩
    refine Booted.raise (Booted.log ?_ ..) 248
    exact hmode

end Booted

/-- Bring-up runs: the image is taken and the device is still Dark. -/
structure Booting (v : Word) (s : State) : Prop where
  booted : Booted v s
  dark : s.dev.mode = .dark

namespace Booting
variable {v : Word} {fs : List Part}

theorem of_only (h : Booting v s) (ht : Only fs s t) (hp : Part.host ∉ fs ∧ Part.dev ∉ fs) : Booting v t :=
  ⟨h.booted.of_only ht hp, (congrArg Dev.mode (dev_of_only ht hp.2)).trans h.dark⟩

theorem not_up (h : Booting v s) : s.up = false := by
  rw [State.up, h.dark]
  rfl

theorem foldl {α : Type} {f : State → α → State} (hf : ∀ u x, Booting v u → Booting v (f u x)) (l : List α) (h : Booting v s) : Booting v (l.foldl f s) :=
  List.foldlRecOn (motive := Booting v) l f h fun u hu x _ => hf u x hu

theorem setDev (h : Booting v s) {d : Dev} (hver : d.fwVer = s.dev.fwVer) (hmode : d.mode = s.dev.mode) : Booting v (s.setDev d) :=
  ⟨h.booted.setDev hver, hmode.trans h.dark⟩

theorem raise (h : Booting v s) (k : Nat) : Booting v (s.raise k) :=
  ⟨h.booted.raise k, (congrArg Dev.mode (dev_of_only (fs := [.out, .host]) (by simp) (by decide))).trans h.dark⟩

theorem log (h : Booting v s) (ch code sev cls srcType srcInst : Nat) (payload : List Byte) : Booting v (s.log ch code sev cls srcType srcInst payload) :=
  ⟨h.booted.log .., (congrArg Dev.mode (dev_of_only (fs := [.out, .ledger, .host, .watch]) (by simp) (by decide))).trans h.dark⟩

theorem loseCtx (h : Booting v s) (n cause q qindex seq : Nat) (keep : Bool) : Booting v (s.loseCtx n cause q qindex seq keep) :=
  ⟨h.booted.loseCtx .., (congrArg Dev.mode (dev_of_only (fs := [.out, .ctx0, .ctx1, .squads, .chans, .ledger, .host, .watch]) (by simp) (by decide))).trans h.dark⟩

/-- Sideline waits for the end of start-up. -/
theorem sideline (h : Booting v s) (trigger ch : Nat) : Booting v (s.sideline trigger ch) := by
  refine ⟨h.booted.sideline trigger ch, ?_⟩
  unfold State.sideline
  rw [h.dark]
  dsimp only
  split
  · exact h.dark
  · exact h.dark

/-! ### Squads -/

theorem ite {p : Prop} [Decidable p] {u : State} (h : p → Booting v t) (h' : ¬ p → Booting v u) : Booting v (if p then t else u) := by
  split
  next hp => exact h hp
  next hp => exact h' hp

/-- Only a device in Full mode turns to Reduced as a squad is fenced. -/
theorem notFull (h : Booting v s) : Booting v (if s.dev.mode = .full then s.setMode .reduced 1 0xFF else s) :=
  .ite (fun hfull => absurd (hfull.symm.trans h.dark) (by decide)) fun _ => h

theorem fence (h : Booting v s) (sq cause : Nat) : Booting v (s.fence sq cause) := by
  unfold State.fence
  refine .ite (fun _ => h) fun _ => ?_
  dsimp only
  have hend : ∀ u : State, Booting v u → Booting v (if u.countA = 0 then u.sideline 6 0xFF else u) := fun u hu => .ite (fun _ => hu.sideline 6 0xFF) fun _ => hu
  refine hend _ (notFull (raise (log ?_ ..) 249))
  exact h.of_only (fs := [.ctx0, .ctx1, .squads, .net, .mram, .watch]) (by simp) (by decide)

theorem loadSquad (h : Booting v s) (l : Option Nat) (sq : Nat) : Booting v (s.loadSquad l sq) := by
  unfold State.loadSquad
  dsimp only
  have hend : ∀ (u : State) (bad hold : Bool), Booting v u → Booting v (if bad then u.fence sq 4 else if hold then u.fence sq 5 else u) := fun u bad hold hu =>
    .ite (fun _ => hu.fence sq 4) fun _ => .ite (fun _ => hu.fence sq 5) fun _ => hu
  refine hend _ _ _ ?_
  exact h.of_only (fs := [.mram, .squads, .net]) (by simp) (by decide)

/-! ### Channels and stacks -/

theorem channelDown (h : Booting v s) (c : Nat) : Booting v (s.channelDown c) := by
  unfold State.channelDown
  refine .ite (fun _ => h) fun _ => ?_
  dsimp only
  refine (raise ?_ 252).sideline 3 c
  have hdown : Booting v ((s.modChan c fun h => { h with down := true }).alert 4) := h.of_only (fs := [.chans, .watch]) (by simp) (by decide)
  exact .ite (fun _ => ⟨⟨hdown.booted.boot, hdown.booted.result, hdown.booted.version⟩, hdown.dark⟩) fun _ => hdown

theorem lossLimits (h : Booting v s) (c : Nat) : Booting v (s.lossLimits c) := .ite (fun _ => h.channelDown c) fun _ => h

theorem spillHit (h : Booting v s) (k : Nat) : Booting v (s.spillHit k) := by
  unfold State.spillHit
  exact .ite (fun _ => h.loseCtx 0 6 0 0 0 false) fun _ => h

theorem serveOpen (h : Booting v s) : Booting v s.serveOpen := by
  unfold State.serveOpen
  refine foldl (fun u r hu => hu.of_only ((State.serveBar2_only (ps := [.out, .hbm, .ctx0, .ctx1, .chans]) (by decide) r).mpr .refl) (by decide)) _ ?_
  exact ⟨⟨h.booted.boot, h.booted.result, h.booted.version⟩, h.dark⟩

theorem losePc (h : Booting v s) (c p : Nat) : Booting v (s.losePc c p) := by
  unfold State.losePc
  dsimp only
  refine .ite (fun _ => h) fun _ => ?_
  refine (lossLimits ?_ c).serveOpen
  refine foldl (fun u e hu => hu.of_only ((State.replayDelivery_only (ps := [.ctx0, .ctx1, .squads, .net]) (by decide) e.1 e.2).mpr .refl) (by decide)) _ ?_
  refine of_only (s := State.spillHit _ _) (spillHit (raise (log ?_ ..) _) _) ((State.teleLoss_only (ps := [.tele]) (by decide) _).mpr .refl) (by decide)
  exact h.of_only (fs := [.mram, .chans]) (by simp) (by decide)

theorem retirePc (h : Booting v s) (c p cause : Nat) : Booting v (s.retirePc c p cause) := by
  unfold State.retirePc
  dsimp only
  refine .ite (fun _ => h) fun _ => ?_
  refine lossLimits (raise (log ?_ ..) _) c
  exact h.of_only (fs := [.mram]) (by simp) (by decide)

theorem markLine (h : Booting v s) (c p line : Nat) : Booting v (s.markLine c p line) := by
  unfold State.markLine
  dsimp only
  split
  · exact .ite (fun _ => h) fun _ => h.retirePc c p 1
  · refine raise (log ?_ ..) _
    exact h.of_only (fs := [.mram]) (by simp) (by decide)

theorem repairRow (h : Booting v s) (c : Nat) (ok : Bool) (e : Nat × Nat × Nat) : Booting v (s.repairRow c ok e) := by
  unfold State.repairRow
  dsimp only
  refine .ite (fun _ => log ?_ ..) fun _ => (h.retirePc ..).log ..
  exact h.of_only (fs := [.free, .chans]) (by simp) (by decide)

/-- What training finds of a pseudo-channel's lines. -/
theorem badLine (h : Booting v s) (c : Nat) (e : Nat × List Nat) : Booting v (match e.2 with
    | [] => s
    | [l] => s.markLine c e.1 l
    | _ => s.losePc c e.1) := by
  split
  · exact h
  · exact h.markLine ..
  · exact h.losePc ..

theorem stackSteps (h : Booting v s) (c : Nat) (b : BringUp) : Booting v (s.stackSteps c b) := by
  unfold State.stackSteps
  dsimp only
  refine lossLimits (of_only ?_ ((State.setMram_only (ps := [.mram]) (by decide) _).mpr .refl) (by decide)) c
  refine foldl (fun u e hu => hu.repairRow c _ e.2) _ (of_only ?_ ((State.setMram_only (ps := [.mram]) (by decide) _).mpr .refl) (by decide))
  refine foldl (fun u e hu => hu.badLine c e) _ ?_
  refine foldl ?_ _ h
  exact fun u p hu => hu.losePc c p

/-! ### The network and the links -/

theorem deliver (h : Booting v s) (p : Packet) : Booting v (s.deliver p) := by
  unfold State.deliver
  rw [if_pos (by rw [h.not_up]; rfl)]
  exact .ite (fun _ => h.of_only ((State.bulkRead_only (ps := [.net]) (by decide) p).mpr .refl) (by decide)) fun _ => h

theorem arrive (h : Booting v s) (x : Transit) : Booting v (s.arrive x) := by
  unfold State.arrive
  split
  · exact h.of_only ((State.sendOn_only (ps := [.links]) (by decide) ..).mpr .refl) (by decide)
  · exact .ite (fun _ => h.of_only ((State.emit_only (ps := [.out]) (by decide) _).mpr .refl) (by decide)) fun _ => h.deliver x.pkt

theorem route (h : Booting v s) (x : Transit) : Booting v (s.route x) := by
  unfold State.route
  split
  · unfold State.stand
    exact .ite (fun _ => h.arrive _) fun _ => h.of_only ((State.setNet_only (ps := [.net]) (by decide) _).mpr .refl) (by decide)
  · exact h

theorem reroute (h : Booting v s) (c : Nat) : Booting v (s.reroute c) :=
  foldl (fun u x hu => hu.route x) _ (h.of_only ((State.setNet_only (ps := [.net]) (by decide) _).mpr .refl) (by decide))

theorem laneOut (h : Booting v s) (c j lane : Nat) : Booting v (s.laneOut c j lane) := by
  unfold State.laneOut
  dsimp only
  have hend : ∀ (u : State) (bad : Prop) [Decidable bad], Booting v u → Booting v (if bad then u.sideline 3 c else u) := fun u bad _ hu =>
    .ite (fun _ => hu.sideline 3 c) fun _ => hu
  refine hend _ _ (foldl (fun u x hu => hu.reroute x) _ (log ?_ ..))
  exact h.of_only ((State.setNet_only (ps := [.net]) (by decide) _).mpr .refl) (by decide)

theorem seamSteps (h : Booting v s) (c : Nat) (b : BringUp) : Booting v (s.seamSteps c b) := by
  unfold State.seamSteps
  refine foldl ?_ _ h
  intro u e hu
  exact hu.laneOut c e.1 e.2

/-- A step of start-up is counted. -/
theorem stepped (h : Booting v s) (k : Nat) : Booting v (s.setDev { s.dev with step := k }) := ⟨⟨h.booted.boot, h.booted.result, h.booted.version⟩, h.dark⟩

/-- A record leaves the step that follows it to be counted. -/
theorem toldStepped (h : Booting v s) (ch code sev cls srcType srcInst : Nat) (payload : List Byte) (k : Nat) :
    Booting v ((s.log ch code sev cls srcType srcInst payload).setDev { s.dev with step := k }) :=
  ⟨⟨(h.log ..).booted.boot, (h.log ..).booted.result, h.booted.version⟩, h.dark⟩

theorem arraysTimed (h : Booting v s) (l k : Nat) : Booting v (s.setDev { s.dev with normL := l, step := k }) :=
  ⟨⟨h.booted.boot, h.booted.result, h.booted.version⟩, h.dark⟩

end Booting

/-! ### The steps -/

section
variable {v : Word} {found : List BringUp}

theorem State.imageTaken_booting (s : State) (img : Image) (ha : s.alive = false) : Booting img.version (s.imageTaken img) := by
  have hdark : s.dev.mode = .dark := by simpa [State.alive] using ha
  exact ⟨⟨rfl, rfl, rfl⟩, hdark⟩

theorem Booting.startArrays (h : Booting v s) : Booting v s.startArrays := by
  unfold State.startArrays
  dsimp only
  refine Booting.arraysTimed ?_ _ 3
  refine Booting.foldl ?_ _ h
  intro u sq hu
  exact hu.loadSquad none sq

theorem Booting.rebuilt (h : Booting v s) : Booting v s.rebuilt := by
  unfold State.rebuilt
  dsimp only
  refine Booting.setDev ?_ rfl rfl
  exact h.of_only (fs := [.chans, .hbm]) (by simp [only_foldl]) (by decide)

theorem Booting.startStacks (h : Booting v s) : Booting v (s.startStacks found) := by
  unfold State.startStacks
  dsimp only
  refine Booting.toldStepped (Booting.rebuilt ?_) ..
  refine Booting.foldl ?_ _ h
  intro u c hu
  exact hu.stackSteps c _

theorem Booting.startLinks (h : Booting v s) : Booting v (s.startLinks found) := by
  unfold State.startLinks
  dsimp only
  refine Booting.stepped (Booting.foldl (fun u n hu => hu.of_only ((State.trainLink_only (ps := [.links]) (by decide) n).mpr .refl) (by decide)) _ ?_) 5
  refine Booting.foldl ?_ _ h
  intro u c hu
  exact hu.seamSteps c _

theorem Booted.advancePcycle (h : Booted v s) : Booted v s.advancePcycle := by
  unfold State.advancePcycle
  split
  · exact h
  · exact ⟨h.boot, h.result, h.version⟩

theorem Booted.flushWaiting (h : Booted v s) : Booted v s.flushWaiting := by
  unfold State.flushWaiting
  refine List.foldlRecOn (motive := Booted v) _ _ ?_ ?_
  · exact ⟨h.boot, h.result, h.version⟩
  · exact fun u hu e _ => hu.writeRec _

/-- A mode other than Dark is out of Dark. -/
theorem State.setMode_alive (s : State) {m : Mode} (hm : m ≠ .dark) (trigger ch : Nat) : (s.setMode m trigger ch).alive = true := by
  have hmode : (s.setMode m trigger ch).dev.mode = m := by
    unfold State.setMode
    dsimp only
    split
    next h => exact h
    next => exact congrArg Dev.mode (dev_of_only (s := (s.setDev { s.dev with mode := m }).alert 0) (fs := [.out, .ledger, .host, .watch]) (by simp) (by decide))
  rw [State.alive, hmode]
  exact bne_iff_ne.mpr hm

/-- The device is ready in a mode, and a request for Sideline that waited follows. -/
def State.readied (s : State) : State := s.setDev { s.dev with ready := true, step := if s.clk.known then 7 else 6, sidelinePending := none }

theorem Booted.startReady (h : Booted v s) : Booted v s.startReady ∧ s.startReady.alive = true := by
  unfold State.startReady
  dsimp only
  have hmode : ∀ m : Mode, m ≠ .dark → Booted v (s.advancePcycle.flushWaiting.setMode m 0 0xFF).readied ∧ (s.advancePcycle.flushWaiting.setMode m 0 0xFF).readied.alive = true := fun m hm =>
    have hset := h.advancePcycle.flushWaiting.setMode m 0 0xFF
    ⟨⟨hset.boot, hset.result, hset.version⟩, State.setMode_alive _ hm 0 0xFF⟩
  obtain ⟨hbooted, halive⟩ := hmode (if (List.range 64).any fun sq => (s.advancePcycle.flushWaiting.squad sq).fenced then .reduced else .full) (by split <;> decide)
  split
  next x _ =>
    exact ⟨hbooted.sideline (x % 256) (x / 256), (congrArg (· != Mode.dark) (State.sideline_mode halive (x % 256) (x / 256))).trans rfl⟩
  next => exact ⟨hbooted, halive⟩

end

end

end Sys2Proof.Machine

open Sys2Proof Sys2Proof.Machine

/-- Settles O58: each event's limit, the core clock's least of the four, Sideline at the warning and Dark at the trip. -/
theorem limitsFollowPowerAndHeat : Obligations.LimitsFollowPowerAndHeat := by
  intro s ha
  refine ⟨fun v hlow hhigh hout => ⟨_, guard_of_true ?inRange _ _, ?vin⟩, fun w hw => ⟨_, exec_capStepDown ha hw, ?down⟩,
    fun w hw => ⟨_, guard_of_true (by rw [ha, decide_eq_true hw]; rfl) _ _, rfl, rfl⟩, fun c k peak => ⟨_, guard_of_true ha _ _, rfl, mem_cons_of_not_contains _ _, rfl⟩,
    fun c k hck => ⟨_, guard_of_true (by rw [ha]; simpa using hck) _ _, ?ended⟩, fun hne => ⟨_, guard_of_true (by simp [ha, hne]) _ _, ?clock⟩,
    fun x hx => ⟨_, guard_of_true (by rw [ha, hx]; rfl) _ _, rfl⟩, fun x hx => ⟨_, guard_of_true (by rw [ha, hx]; rfl) _ _, rfl⟩,
    fun x hup hx => ⟨_, guard_of_true (by rw [ha, hx, Bool.or_true]; rfl) _ _, ?warning⟩, fun x hx => ⟨_, guard_of_true (by rw [ha, hx]; rfl) _ _, ?trip⟩⟩
  case inRange => rw [ha, decide_eq_true (⟨hlow, hhigh, hout⟩ : 3800 ≤ v ∧ v ≤ 6400 ∧ (v < 4000 ∨ 6000 < v))]; rfl
  case vin =>
    rw [State.pwr_raise, State.pwr_log]
    exact ⟨rfl, rfl, rfl⟩
  case down =>
    dsimp only
    split
    next h8 =>
      rw [State.pwr_raise, State.pwr_log]
      exact ⟨rfl, by simp [h8.1]⟩
    next h8 =>
      refine ⟨rfl, ?_⟩
      cases hunmet : s.pwr.capUnmet <;> simp_all
  case ended =>
    rw [State.pwr_log]
    refine ⟨by simp, fun hall => ?_⟩
    have hnone : s.pwr.overRails.filter (· != (c, k)) = [] := List.filter_eq_nil_iff.mpr fun r hr => by simp [hall r hr]
    dsimp only [State.setPwr_pwr]
    rw [hnone]
    rfl
  case clock =>
    have honly : Only [.out, .host] ((s.setClk { s.clk with cclk := s.cclkTarget }).setWatch { s.watch with throttled := true })
      (((s.setClk { s.clk with cclk := s.cclkTarget }).setWatch { s.watch with throttled := true }).raise 250) := by simp
    exact ⟨congrArg Clock.cclk (honly .clk (by decide)), congrArg Watch.throttled (honly .watch (by decide))⟩
  case warning =>
    have hup' : (((s.setTemps x).alert 3).setWatch { ((s.setTemps x).alert 3).watch with tripWarn := true }).up = true := hup
    have hbit : Alerted 3 (((s.setTemps x).alert 3).setWatch { ((s.setTemps x).alert 3).watch with tripWarn := true }) := (s.setTemps x).alert_bit 3 (by decide)
    exact ⟨State.sideline_mode (State.alive_of_up hup') 5 0xFF, hbit.sideline hup' 5 0xFF⟩
  case trip =>
    have hpow : ((s.alert 3).setPwr { (s.alert 3).pwr with thermTrip := true }).powered = true := by
      rw [State.powered, show ((s.alert 3).setPwr { (s.alert 3).pwr with thermTrip := true }).alive = s.alive from rfl, ha]
      rfl
    exact ⟨(State.powerDown_darkened hpow 12).mode, State.powerDown_thermTrip hpow 12⟩

/-- Settles O57: step 1, the verdict on the image and the bring-up of a good one, and each way down to Dark. -/
theorem startUpAndPowerDown : Obligations.StartUpAndPowerDown := by
  intro s
  refine ⟨fun ha h0 => ⟨_, exec_startup ha h0, ?startup⟩, fun ha => guard_of_false (by rw [ha]; rfl) _ _, exec_bootGo, fun _ => exec_bootGo_standby,
    fun hboot ha hj img found => ⟨fun hbad => ?bad, fun hgood => ?good⟩, fun t hp h => ?dark, fun v => exec_vinUndervoltage, fun v hv ha => exec_vinOvervoltage hv ?powered,
    fun ns hns => ⟨_, exec_sysResetNAssert hns, rfl⟩, fun ns hns => guard_of_false (decide_eq_false (Nat.not_lt.mpr hns)) _ _, ⟨_, rfl, rfl, rfl, rfl⟩, ⟨_, rfl, rfl⟩⟩
  case startup =>
    obtain ⟨hdev, hrest⟩ := s.erasedOne_facts
    rw [hdev]
    exact ⟨rfl, rfl, rfl, rfl, hrest⟩
  case powered => rw [State.powered, ha]; rfl
  case bad => rw [exec_bootVerify hboot ha hj, if_pos hbad]
  case good =>
    have hsteps := (((s.imageTaken_booting img ha).startArrays.startStacks (found := found)).startLinks (found := found)).booted
    obtain ⟨hbooted, halive⟩ := hsteps.startReady
    exact ⟨_, by rw [exec_bootVerify hboot ha hj, if_neg (not_not_intro hgood)], hbooted.version, hbooted.boot, hbooted.result, halive⟩
  case dark =>
    have hpow : s.powered = true := by
      obtain h | h := hp <;> simp [State.powered, h]
    obtain ⟨hmode, hstep, hhbm, hstore, h0, h1, hkey, hpend⟩ := darkened_of_powerDown hpow h
    exact ⟨hmode, hstep, hhbm, hstore, h0, h1, hkey, hpend⟩

end
